-- ==== Sys2Proof/Word.lean ====
section
/-! DEFINITION. The plainest types: bytes, register words, and the index types of spec/00 R4 and R6. -/

namespace Sys2Proof

/-- One byte of any store, frame or record. -/
abbrev Byte := BitVec 8

/-- A byte string, lowest address first (R9). -/
abbrev Bytes := List Byte

/-- A setup register or any other 64-bit word. -/
abbrev Reg := BitVec 64

/-- HALF_0, HALF_1 (R6). -/
abbrev Half := Fin 2

/-- Grove `16h + g` for HALF_h.GRV_g, the index that GRV_PCTL_n uses (R500). -/
abbrev Grove := Fin 32

/-- Physical core slot `17 * (16h + g) + s` for HALF_h.GRV_g.CORE_s, the index m of R153. -/
abbrev CoreId := Fin 544

/-- Logical core LC_0 to LC_511 (R111). -/
abbrev LCore := Fin 512

/-- Base die `8h + s` for HALF_h.STK_s (R537). -/
abbrev Die := Fin 16

/-- CTX_0 to CTX_15 (R6). -/
abbrev CtxId := Fin 16

/-- Torus port by AXIS code: XP XN YP YN ZP ZN (R192). -/
abbrev TPort := Fin 6

/-- Client port: 0 CPA, 1 CPB (Table 12.2). -/
abbrev CPort := Fin 2

end Sys2Proof
end

