-- ==== Sys2Proof/Syntax.lean ====
section
/-! DEFINITION. The commands: one constructor per row of spec/opcode_table.json, in the table's order. -/

namespace Sys2Proof

/-- The four engines of a core, in the order of Table 6.4. -/
inductive Engine where
  | mxe | vxe | lde | xce
deriving DecidableEq, Repr

/-- The path by which a setup access arrives (R531, R534). (PRESUMED, log 92) -/
inductive Path where
  | sch | sp | i3c0 | i3c1
deriving DecidableEq, Repr

/-- Which bits of the 64-bit register a write carries (R529). -/
inductive Part where
  | full | low | high
deriving DecidableEq, Repr

/-- One setup write: its path, its width and the value on the register's own bit positions. -/
structure RegWr where
  path : Path
  part : Part
  val  : Reg
deriving DecidableEq, Repr

/-- A face that outside parties use for doorbells and inbound accesses (Table 12.1). (PRESUMED, log 92) -/
inductive Face where
  | cpa | cpb | sp
deriving DecidableEq, Repr

/-- An outside access: the face, the local queue pair (0 on the steward port), the window number and KEY
that its R_Key names (R408), and the offset within the window. -/
structure Inbound where
  face : Face
  qpn  : Nat
  win  : Nat
  key  : Nat
  off  : Nat
deriving DecidableEq, Repr

/-- Units that are observed and self-tested (R445): a physical core, a grove, the mill of a die. -/
inductive HwUnit where
  | core (c : CoreId) | grove (g : Grove) | mill (d : Die)
deriving DecidableEq, Repr

/-- The three ways a stack is lost (R267). -/
inductive LossKind where
  | linkSignal | internalError | silentChannel
deriving DecidableEq, Repr

/-- Why a lane draws a bad verdict (R366). -/
inductive LaneFault where
  | lockLost | uncorrectable | symbolErrors
deriving DecidableEq, Repr

/-- The other half's answer to the sideband query (R517). -/
inductive HalfAnswer where
  | clockedOutOfReset | inResetOrNoClock | silent
deriving DecidableEq, Repr

/-- A unit's view in the comparison of R458. -/
inductive UnitView where
  | working | offOrFailed
deriving DecidableEq, Repr

/-- What the physical boot meets (R501, R503): which image component checks are left to SEC's own
computation over the flash; these are the outcomes that the flash does not decide. -/
structure BootOutcome where
  /-- stacks that fail to train in step 6, bit `8h + s` -/
  stackFail : BitVec 16
  rideFail  : Bool
  /-- units whose boot KAT fails in step 10 -/
  katFail   : List HwUnit
  /-- halves whose safety monitor fails its test (R472), bit h -/
  monFail   : BitVec 2
  /-- a repeated clearing (R525) fails in its readback -/
  clearFail : Bool
deriving DecidableEq, Repr

/-- A received client frame as the port classifies it (R425). -/
structure Frame where
  /-- IPv4 or IPv6 UDP to port 4791 -/
  roce : Bool
  qpn  : Nat
  /-- RoCE v2 opcode group: 0 WRITE, 1 WRITE with immediate, 2 READ, 3 FETCH_ADD, 4 SEND, 5 COMPARE_SWAP,
  6 acknowledgement, 7 other -/
  op   : Fin 8
  /-- ECN congestion experienced -/
  ecn  : Bool
deriving DecidableEq, Repr

/-- Bytes of submitter memory that SCH reads through the ring's station window: chunks at window offsets
(R416, R417). What no chunk covers reads as zero. -/
abbrev Submem := List (Nat × Bytes)

/-- One of the signals that reach a word in one cycle (R200): a committed signal of this package by core and position, a remote ATOMIC by its
position among the transfers received, a station's fetch-add with its width and addend (R213) at a word of the half of its port, or one that
has crossed the ride, by position. -/
inductive SigRef where
  | core (c : CoreId) (k : Nat)
  | remote (k : Nat)
  | station (a : Inbound) (wide : Bool) (addend : BitVec 64)
  | crossed (k : Nat)
deriving DecidableEq, Repr

/-- What an access brings to a stack's port beside itself (R298): the slots until 512 B of a write's data are staged, and those that a grant
then waits for the rest. -/
structure Arrival where
  first : Nat
  late  : Nat
deriving DecidableEq, Repr

/-- The commands of the block. Every operand says which unit the event falls to, or carries what comes from
outside; the row's rule is in LAWS.json's order of spec/opcode_table.json. -/
inductive Instr where
  -- ride and light (spec/01)
  | rideFlitTransmit (h : Half)
  | rideFlitReceive (h : Half) (mask : Bytes)
  | rideReplayRequest (h : Half)
  | rideAckTimeout (h : Half)
  | rideFailed (h : Half)
  | rideDown (h : Half)
  | lossOfLight (ls : Fin 2)
  -- deliveries and the matrix pipeline (spec/03, spec/05)
  | wsbDelivery (c : CoreId)
  | feederDelivery (c : CoreId)
  | vxeQueueDelivery (c : CoreId)
  | shadowFill (c : CoreId) (readErr : Int)
  | rowBandBroadcast (c : CoreId) (band : Fin 8)
  | merge (c : CoreId) (sumErr : Int) (alignErr : Bool)
  | drain (c : CoreId) (band : Fin 8) (dupErr : Bool)
  -- invocations (spec/04)
  | invocationWrite (lc : LCore) (byGst : Bool) (micro : Nat) (desc : Bytes)
  | takeDescriptor (c : CoreId)
  | listSetLoad (c : CoreId)
  | invocationStart (c : CoreId)
  | chunkBoundary (c : CoreId) (e : Engine)
  | invocationEnd (c : CoreId)
  | saveKind1 (c : CoreId)
  | restoreKind1 (c : CoreId)
  | force (g : Grove)
  | saveKind2 (c : CoreId)
  | resume (c : CoreId)
  -- register and counter instructions
  | nop (c : CoreId) (e : Engine)
  | arset (c : CoreId) (e : Engine)
  | cntset (c : CoreId) (e : Engine)
  | cntadd (c : CoreId) (e : Engine)
  | cmpset (c : CoreId) (e : Engine)
  -- signals and waits
  | signal (c : CoreId) (e : Engine)
  | signalCommit (c : CoreId) (e : Engine)
  | signalApply (refs : List SigRef)
  | signalAck (c : CoreId) (k : Nat)
  | wait (c : CoreId) (e : Engine)
  | waitPoll (c : CoreId) (e : Engine) (ctx : CtxId)
  | watchWake (c : CoreId) (slot : Fin 8)
  | watchDropNotice (c : CoreId) (slot : Fin 8)
  | extWaitLimit (c : CoreId) (e : Engine)
  | extWaitTimeout (c : CoreId) (e : Engine) (ctx : CtxId)
  | phase (c : CoreId) (e : Engine)
  -- matrix and vector instructions
  | mpass (c : CoreId)
  | munload (c : CoreId) (dupErr : Bool)
  | vew (c : CoreId) (residueErr : Option (Fin 128))
  | vtr (c : CoreId)
  | vred (c : CoreId)
  | vcvt (c : CoreId) (residueErr : Option (Fin 128))
  | vdrop (c : CoreId)
  -- load and exchange instructions
  | ltile (c : CoreId)
  | lvec (c : CoreId)
  | lq (c : CoreId)
  | lfetch (c : CoreId)
  | runAheadRead (c : CoreId)
  | xput (c : CoreId)
  | xget (c : CoreId)
  | shift (c : CoreId)
  | permute (c : CoreId)
  | writeAccepted (c : CoreId) (k : Nat)
  -- translation and restore (spec/07)
  | tableWalk (g : Grove) (ctx : CtxId) (va : BitVec 56)
  | tlbInv (ctx : CtxId) (va : BitVec 56)
  | offload (ctx : CtxId) (va : BitVec 56) (own : Half) (dst : Nat)
  | offloadCopy (h : Half)
  | restoreFault (c : CoreId) (e : Engine)
  | restore (h : Half)
  -- accumulates
  | accumArrive (d : Die) (ctx : CtxId)
  | accumApplied (d : Die) (k : Nat)
  | accumAck (c : CoreId) (k : Nat)
  | floorNotice (d : Die)
  | accumResend (c : CoreId) (k : Nat)
  | accWindow (c : CoreId) (k : Nat)
  -- stacks, arbiter and mills (spec/08)
  | stackLost (d : Die) (why : LossKind)
  | refresh (d : Die) (ch : Fin 32)
  | refreshLoop (temps : List Nat)
  | stackRequestArrive (d : Die) (req : Arrival)
  | slotGrant (d : Die)
  | holdCut (d : Die) (ch : Fin 32)
  | arbSwap (d : Die) (w : RegWr)
  | slotTableLive (d : Die)
  | patrolScrub (d : Die) (ch : Fin 32)
  | ssSnap (d : Die) (n : Fin 4) (w : RegWr)
  | mjTailWrite (d : Die) (w : RegWr)
  | millJobStart (d : Die)
  | millGroup (d : Die) (dup1 dup2 : Bool)
  -- training (spec/09)
  | trainStepStart
  | statsSnapshot
  | stepDecision (records : List Bytes)
  | mirrorWrite
  | rbZero
  | digestVote (digests : List (Nat × BitVec 128))
  | buddyRestart (tr : Nat) (step : Nat)
  -- doorbells and serving (spec/10, spec/12)
  | doorbellWrite (face : Face) (qpn : Nat) (page : Nat) (off : Nat) (data : Bytes)
  | admission (g : Grove)
  | queryComplete (g : Grove) (k : Nat)
  | deadlineMiss (g : Grove) (k : Nat)
  | guardCompare (g : Grove) (k : Nat)
  | guardMajorityCompare (g : Grove) (k : Nat)
  | epochPublish
  | epochOrder
  | svCtlWrite (w : RegWr)
  | svTimeWrite (w : RegWr)
  | qpRetryTimeout (p : CPort) (qpn : Nat)
  -- torus (spec/11)
  | laneBadVerdict (p : TPort) (lane : Fin 16) (why : LaneFault)
  | torusResizeDone (p : TPort)
  | torusResizeTimeout (p : TPort)
  | tpEnable (p : TPort) (w : RegWr)
  | tpRetrain (p : TPort) (w : RegWr)
  | torusTrainDone (p : TPort)
  | torusTrainTimeout (p : TPort)
  | torusIdentity (p : TPort) (flit : Bytes)
  | torusFlitReceive (p : TPort) (flit : Bytes)
  | torusReplay (p : TPort) (timeout : Bool)
  | torusReplayFail (p : TPort) (badGroups : BitVec 4)
  | torusLinkTimeout (p : TPort)
  | transferForward (k : Nat)
  | transferRequest (k : Nat)
  | transferAck (k : Nat)
  | readRsp (k : Nat)
  | abortReceive (k : Nat)
  | holdExpire
  -- jobs and external ports (spec/12)
  | jobStart (ring : Fin 4) (mem : Submem)
  | jobCancel (ring : Fin 4) (mem : Submem)
  | ringReset (ring : Fin 4) (mem : Submem)
  | stationFetchAdd (acc : Inbound) (wide : Bool) (addend : BitVec 64)
  | inboundWrite (acc : Inbound) (data : Bytes)
  | inboundRead (acc : Inbound) (len : Nat)
  | writeWithImmediate (acc : Inbound) (data : Bytes) (imm : BitVec 32)
  | rdmaAckReceive (p : Fin 3) (qpn : Nat) (data : Bytes)
  | clientFrameReceive (p : CPort) (f : Frame)
  | cnpReceive (p : CPort) (qpn : Nat)
  | mqpCommit (p : CPort) (w : RegWr)
  | htCommit (n : Fin 4096) (w : RegWr)
  | perst
  | i3cEntdaa (bus : Fin 2) (addr : BitVec 7)
  -- integrity (spec/13)
  | landing (h : Half) (kind : Fin 5) (index : Nat) (ctx : CtxId) (copies : List Bytes)
  | observationEnd (u : HwUnit)
  | faultClear (ctx : CtxId)
  | katRun (u : HwUnit)
  | katResult (u : HwUnit) (pass : Bool)
  | viewCompare (u : HwUnit) (mgmt data : UnitView)
  | retireAck (w : RegWr)
  | historyHourly
  -- functional safety (spec/14)
  | monitorTrip (h : Half) (ring : Fin 16)
  | monitorTest (h : Half) (tripped : Bool)
  | landTest (w : RegWr)
  | landTestEnd
  -- power (spec/15)
  | freqDecision (g : Grove)
  | droopDetect (g : Grove)
  | railCurrentTrip (fed : List Grove)
  | stretchEnd (g : Grove)
  | stepHoldEnd (g : Grove)
  | capLoop (watts : Nat)
  | thermalLoop (tj : List Nat) (tdie : List Nat) (tdram : List Nat)
  | capGuard (h : Half) (watts : Nat)
  | pwCtlWrite (w : RegWr)
  | grvPctlWrite (n : Grove) (w : RegWr)
  | phaseWindowOpen (g : Grove) (watts : Nat)
  | phaseWindowClose (g : Grove)
  -- boot and firmware (spec/16)
  | powerGood (o : BootOutcome)
  | svnCommit (w : RegWr)
  | watchdogExpiry (proc : Fin 36)
  | coppiceRestartRequest (w : RegWr)
  | coppiceRestartDone (proc : Fin 36)
  | updateStart (w : RegWr) (image : Submem)
  | firmwareSwitch (proc : Fin 36) (body : Bytes)
  | halfQuery (h : Half) (a : HalfAnswer)
  | firebreakLower (katFail : List HwUnit)
  | openingToken (token : Bytes)
  | clearing (readbackOk : Bool)
  -- setup registers (spec/17)
  | registerWrite (off : Nat) (w : RegWr)
  | setupErrRead (path : Path)
  | ctxSaveWrite (n : CtxId) (w : RegWr)
  -- lands and links (spec/18)
  | pwrOkFall
  | vinBrownout
  | pkgReset
  | groveQuiet (g : Grove) (ctx : CtxId)
  | standstillConfirm (ctx : CtxId)
  | stewardLinkDown
  | stewardLinkUp
  | clientLinkDown (cp : CPort)
deriving DecidableEq, Repr

end Sys2Proof
end

