-- ==== Sys2Proof/Config.lean ====
section
/-! DEFINITION. What an implementation fixes and what the spec leaves open: constants without a body, so that no proof
can see a value of them. -/

namespace Sys2Proof.Config

/-- The fused voltage in mV of a grove for a divider k (spec/15 R481): fuses are not in the spec. A free value (DESIGN CHOICE,
log 6). -/
opaque fusedVoltage : Nat → Nat → Nat

/-- The n-th nonce drawn (spec/16, before Table 16.8: "random"). A free value. -/
opaque nonce : Nat → BitVec 256

end Sys2Proof.Config
end

