-- ==== Sys2Proof/Machine/Bits.lean ====
section
/-! DEFINITION. Bit fields, byte order (R8, R9), CRC-32C and the tensor-block tag (spec/13 R433 to R440),
the mast generator (spec/02 R81) and the digest of a block (spec/08 R295). Pure functions on numbers and bytes. -/

namespace Sys2Proof.Machine

/-- Bits `[lo + w - 1 : lo]` of a number (R8). -/
def bits (v lo w : Nat) : Nat := v / 2 ^ lo % 2 ^ w

/-- The number with bits `[lo + w - 1 : lo]` replaced by the low `w` bits of `x`. -/
def putBits (v lo w x : Nat) : Nat :=
  v - bits v lo w * 2 ^ lo + (x % 2 ^ w) * 2 ^ lo

/-- One bit of a number, as a Bool. -/
def bit (v i : Nat) : Bool := v / 2 ^ i % 2 == 1

/-- A Bool as a bit. -/
def bnat (b : Bool) : Nat := if b then 1 else 0

/-- The two's-complement reading of the low `w` bits. -/
def signed (w v : Nat) : Int :=
  let u := v % 2 ^ w
  if u < 2 ^ (w - 1) then (u : Int) else (u : Int) - (2 ^ w : Nat)

/-- The low `w` bits of an integer. -/
def unsigned (w : Nat) (x : Int) : Nat := (x % ((2 ^ w : Nat) : Int)).toNat

/-- `ceil (a / b)` for a positive `b`. -/
def ceilDiv (a b : Nat) : Nat := (a + b - 1) / b

/-- The little-endian value of a byte string (R9). -/
def leNat : Bytes → Nat
  | [] => 0
  | b :: bs => b.toNat + 256 * leNat bs

/-- The `n` little-endian bytes of a number. -/
def toLe : Nat → Nat → Bytes
  | 0, _ => []
  | n + 1, v => BitVec.ofNat 8 v :: toLe n (v / 256)

/-- `n` zero bytes. -/
def zeros (n : Nat) : Bytes := List.replicate n 0

/-- Bytes `[off + n - 1 : off]` of a string; bytes past its end read as zero. -/
def slice (b : Bytes) (off n : Nat) : Bytes :=
  let t := (b.drop off).take n
  t ++ zeros (n - t.length)

/-- The little-endian field at bytes `[off + n - 1 : off]`. -/
def fieldAt (b : Bytes) (off n : Nat) : Nat := leNat (slice b off n)

/-- A string with the bytes from `off` on replaced by `d` (inside its length). -/
def splice (b : Bytes) (off : Nat) (d : Bytes) : Bytes :=
  b.take off ++ d.take (b.length - off) ++ b.drop (off + d.length)

/-- Every byte is zero: the test of a reserved field (R12). -/
def allZero (b : Bytes) : Bool := b.all (· == 0)

/-- Byte-wise exclusive or; the shorter mask is zero-extended. -/
def xorBytes : Bytes → Bytes → Bytes
  | [], _ => []
  | b :: bs, [] => b :: bs
  | b :: bs, m :: ms => (b ^^^ m) :: xorBytes bs ms

/-! ### CRC-32C (R434): reflected polynomial 0x82F63B78, which is 0x1EDC6F41 bit-reversed. -/

/-- Eight shift steps of the reflected CRC register. -/
def crcShift : Nat → Nat → Nat
  | 0, c => c
  | n + 1, c => crcShift n (if c % 2 = 1 then Nat.xor (c / 2) 0x82F63B78 else c / 2)

/-- The CRC register after one byte. -/
def crcByte (c : Nat) (b : Byte) : Nat := crcShift 8 (Nat.xor c b.toNat)

/-- The CRC register after a byte string. -/
def crcRun : Nat → Bytes → Nat
  | c, [] => c
  | c, b :: bs => crcRun (crcByte c b) bs

/-- CRC-32C of a byte string: initial value and final xor 0xFFFF_FFFF. -/
def crc32c (b : Bytes) : Nat := Nat.xor (crcRun 0xFFFFFFFF b) 0xFFFFFFFF

/-- The CRC register after 2,176 zero bytes from 0xFFFF_FFFF: the register from which every location term of
R435 is run (shown equal to its definition in Laws). -/
def crcAfterZeroBlock : Nat := 0x22B79A12

/-- The CRC-32C of 2,176 zero bytes followed by a location term. -/
def crcOfTerm (term : Nat) : Nat := Nat.xor (crcRun crcAfterZeroBlock (toLe 8 term)) 0xFFFFFFFF

/-- crc_delta of R435. -/
def crcDelta (a b : Nat) : Nat := Nat.xor (crcOfTerm a) (crcOfTerm b)

/-- The linear effect on a block's CRC of changing the 4 bytes at payload offset `off` by xor with `d` (R272):
CRC-32C is linear, so leading zeros contribute nothing and the change runs through the bytes after it. -/
def crcWordDelta (off d : Nat) : Nat :=
  crcRun (crcRun 0 (toLe 4 d)) (zeros (2184 - (off + 4)))

/-! ### The location term (Table 13.2) and the tag (Table 13.1). -/

/-- A location term from KIND, HALF and INDEX. -/
def locTerm (kind half index : Nat) : Nat := kind * 2 ^ 60 + half * 2 ^ 59 + index

/-- The parity of a number below 2^64. -/
def parityAux : Nat → Nat → Nat
  | 0, _ => 0
  | n + 1, v => Nat.xor (v % 2) (parityAux n (v / 2))

/-- parity of R439 and R440. -/
def parity (v : Nat) : Nat := parityAux 64 v

/-- The positions from 3 upward that are no power of two: position of data bit j is the j-th (R439). -/
def guardPositions : List Nat :=
  [3, 5, 6, 7, 9, 10, 11, 12, 13, 14, 15, 17, 18, 19, 20, 21, 22, 23, 24, 25, 26, 27, 28, 29, 30, 31,
   33, 34, 35, 36, 37, 38, 39, 40, 41, 42, 43, 44, 45, 46, 47, 48, 49, 50, 51, 52, 53, 54, 55, 56, 57,
   58, 59, 60, 61, 62]

/-- The xor of the positions of the set bits, bit 0 first. -/
def guardHash : List Nat → Nat → Nat
  | [], _ => 0
  | p :: ps, t => Nat.xor (if t % 2 = 1 then p else 0) (guardHash ps (t / 2))

/-- guard(t) of R439. -/
def guardOf (t : Nat) : Nat :=
  let h := guardHash guardPositions t
  Nat.xor (parity t) (parity h) * 64 + h

/-- A tag from its fields, with GUARD computed afresh. -/
def makeTag (fmt gen crc : Nat) : Nat :=
  let t := fmt % 16 * 2 ^ 44 + gen % 4096 * 2 ^ 32 + crc % 2 ^ 32
  guardOf t * 2 ^ 56 + t

/-- FMT of a tag. -/
def tagFmt (t : Nat) : Nat := bits t 44 4

/-- GEN of a tag. -/
def tagGen (t : Nat) : Nat := bits t 32 12

/-- CRC of a tag. -/
def tagCrc (t : Nat) : Nat := bits t 0 32

/-- What decoding a tag found (R440). -/
inductive GuardEvent where
  | none | single
deriving DecidableEq, Repr

/-- decode(tag) of R440: bits [55:0] after correction and the guard event, or a failure. Reserved bits
[55:48] that are non-zero after decoding count as a failure (R441). -/
def decodeTag (tag : Nat) : Option (Nat × GuardEvent) :=
  let t := tag % 2 ^ 56
  let g := bits tag 56 7
  let syn := Nat.xor (guardOf t % 64) (g % 64)
  let q := Nat.xor (parity t) (parity g)
  let r : Option (Nat × GuardEvent) :=
    if bit tag 63 then
      if syn = 0 ∧ q = 0 then some (t, .single) else none
    else if syn = 0 ∧ q = 0 then some (t, .none)
    else if q = 0 then none
    else if syn = 0 ∨ syn = 1 ∨ syn = 2 ∨ syn = 4 ∨ syn = 8 ∨ syn = 16 ∨ syn = 32 then some (t, .single)
    else if syn = 63 then none
    else
      let j := guardPositions.idxOf syn
      some (Nat.xor t (2 ^ j), .single)
  match r with
  | some (u, ev) => if bits u 48 8 = 0 then some (u, ev) else none
  | none => none

/-- Re-forming of a tag from location term `a` to `b` (R435). When the decode fails, CRC is replaced and
GUARD and bit [63] are kept, so that the next landing finds the failure. -/
def reformTag (tag a b : Nat) : Nat :=
  match decodeTag tag with
  | some (t, _) =>
    let u := putBits t 0 32 (Nat.xor (tagCrc t) (crcDelta a b))
    guardOf u * 2 ^ 56 + u
  | none => putBits tag 0 32 (Nat.xor (tagCrc tag) (crcDelta a b))

/-! ### The mast generator (R81) and the block digest (R295). -/

/-- The rounds `i` to 6 of mast, `n` of them left. -/
def mastRounds (key : Nat) : Nat → Nat → Nat → Nat
  | 0, _, x => x
  | n + 1, i, x =>
    let rk := (key + i * 0x5B2F0D71A3C894E7) % 2 ^ 64
    let y := (x + rk) % 2 ^ 64 * 0xC3A59B17E24D6F01 % 2 ^ 64
    mastRounds key n (i + 1) (Nat.xor y (y / 2 ^ 29))

/-- mast(key, counter) of R81. -/
def mast (key counter : Nat) : Nat := mastRounds (key % 2 ^ 64) 6 1 (counter % 2 ^ 64)

/-- The steps of digest_block from word j on. -/
def digestRun : Nat → Nat → Nat → List Nat → Nat
  | a, b, _, [] => b * 2 ^ 64 + a
  | a, b, j, w :: ws => digestRun (mast a w) (mast b (Nat.xor w j)) (j + 1) ws

/-- digest_block(key, idx, w) of R295. -/
def digestBlock (key idx : Nat) (w : List Nat) : Nat :=
  digestRun (mast key idx) (mast (Nat.xor key (2 ^ 64 - 1)) idx) 0 w

/-- The little-endian words of `n` bytes each of a string. -/
def wordsLe (n : Nat) : Nat → Bytes → List Nat
  | 0, _ => []
  | k + 1, b => leNat (b.take n) :: wordsLe n k (b.drop n)

end Sys2Proof.Machine
end

