-- ==== Sys2Proof/Machine/Regs.lean ====
section
/-! DEFINITION. The setup-register map of spec/17 (Tables 17.1, 17.3, 17.4) and the fields of the register tables of every
chapter, each with its access type. -/

namespace Sys2Proof.Machine

/-- The registers of Table 17.3 by name; a register with an index stands once. -/
inductive RegKind where
  | devId0 | devId1 | pkgInfo | setupErr | bootStat | fwVer | fwDig | svnCtl | updCtl | updOfs | crCtl | hlStat
  | logPtr | logIdx | logData | logTime | openNonce | openStat | intCntA | intCntB | intStat | histIdx
  | histData | safeCtl | safeStat | svCtl | svTime | svEpoch | svCntA | svCntB | svCntC | gfStat | pwCtl
  | pwStat | grvPctl | grvPstat | jrCtl | jrOfs | jrCpl | jrStat | dbCtl | extCnt | cpCtl | mqp | torId | coll
  | plStat | tpCtl | tpStat | tpCnt | coreCnt | syncStat | satAddr | extSync | extWait | ptRoot | faultQ | ufree
  | restoreCnt | acntA | acntB | srKey | ctxSave | ctxGen | mjRing | mcRing | ssCtl | ssRange | ssVal | ssNf
  | arbSlot | arbCtl | arbOvr | arbOvrSrc | ht
deriving DecidableEq, Repr

/-- The offset of entry `i` of a register (Table 17.3). -/
def RegKind.off : RegKind → Nat → Nat
  | .devId0, _ => 0x00000
  | .devId1, _ => 0x00008
  | .pkgInfo, _ => 0x00010
  | .setupErr, _ => 0x00018
  | .bootStat, _ => 0x01000
  | .fwVer, i => 0x01008 + 8 * i
  | .fwDig, i => 0x01100 + 8 * i
  | .svnCtl, _ => 0x01300
  | .updCtl, _ => 0x01308
  | .updOfs, _ => 0x01310
  | .crCtl, _ => 0x01318
  | .hlStat, _ => 0x01320
  | .logPtr, _ => 0x01400
  | .logIdx, _ => 0x01408
  | .logData, i => 0x01410 + 8 * i
  | .logTime, _ => 0x01450
  | .openNonce, i => 0x01500 + 8 * i
  | .openStat, _ => 0x01520
  | .intCntA, _ => 0x02000
  | .intCntB, _ => 0x02008
  | .intStat, _ => 0x02010
  | .histIdx, _ => 0x02018
  | .histData, i => 0x02020 + 8 * i
  | .safeCtl, _ => 0x02100
  | .safeStat, _ => 0x02108
  | .svCtl, _ => 0x03000
  | .svTime, _ => 0x03008
  | .svEpoch, _ => 0x03010
  | .svCntA, _ => 0x03018
  | .svCntB, _ => 0x03020
  | .svCntC, _ => 0x03028
  | .gfStat, _ => 0x03030
  | .pwCtl, _ => 0x04000
  | .pwStat, _ => 0x04008
  | .grvPctl, i => 0x04100 + 0x10 * i
  | .grvPstat, i => 0x04108 + 0x10 * i
  | .jrCtl, i => 0x05000 + 0x20 * i
  | .jrOfs, i => 0x05008 + 0x20 * i
  | .jrCpl, i => 0x05010 + 0x20 * i
  | .jrStat, i => 0x05018 + 0x20 * i
  | .dbCtl, _ => 0x05080
  | .extCnt, _ => 0x05088
  | .cpCtl, _ => 0x05090
  | .mqp, i => 0x05100 + 8 * i
  | .torId, _ => 0x06000
  | .coll, _ => 0x06008
  | .plStat, _ => 0x06010
  | .tpCtl, i => 0x06100 + 0x20 * i
  | .tpStat, i => 0x06108 + 0x20 * i
  | .tpCnt, i => 0x06110 + 0x20 * i
  | .coreCnt, i => 0x0C000 + 8 * i
  | .syncStat, i => 0x08000 + 0x100 * i
  | .satAddr, i => 0x08008 + 0x100 * i
  | .extSync, i => 0x08010 + 0x100 * i
  | .extWait, i => 0x08018 + 0x100 * i
  | .ptRoot, i => 0x08020 + 0x100 * (i / 3) + 8 * (i % 3)
  | .faultQ, i => 0x08038 + 0x100 * i
  | .ufree, i => 0x08040 + 0x100 * i
  | .restoreCnt, i => 0x08048 + 0x100 * i
  | .acntA, i => 0x08050 + 0x100 * i
  | .acntB, i => 0x08058 + 0x100 * i
  | .srKey, i => 0x08060 + 0x100 * i
  | .ctxSave, i => 0x08068 + 0x100 * i
  | .ctxGen, i => 0x08070 + 0x100 * i
  | .mjRing, i => 0x10000 + 0x200 * i
  | .mcRing, i => 0x10008 + 0x200 * i
  | .ssCtl, i => 0x10010 + 0x200 * (i / 4) + 8 * (i % 4)
  | .ssRange, i => 0x10030 + 0x200 * (i / 4) + 8 * (i % 4)
  | .ssVal, i => 0x10050 + 0x200 * (i / 4) + 8 * (i % 4)
  | .ssNf, i => 0x10070 + 0x200 * (i / 4) + 8 * (i % 4)
  | .arbSlot, i => 0x10100 + 0x200 * (i / 4) + 8 * (i % 4)
  | .arbCtl, i => 0x10120 + 0x200 * i
  | .arbOvr, i => 0x10128 + 0x200 * i
  | .arbOvrSrc, i => 0x10130 + 0x200 * i
  | .ht, i => 0x20000 + 8 * i

/-- How many entries a register has. -/
def RegKind.count : RegKind → Nat
  | .devId0 => 1
  | .devId1 => 1
  | .pkgInfo => 1
  | .setupErr => 1
  | .bootStat => 1
  | .fwVer => 7
  | .fwDig => 42
  | .svnCtl => 1
  | .updCtl => 1
  | .updOfs => 1
  | .crCtl => 1
  | .hlStat => 1
  | .logPtr => 1
  | .logIdx => 1
  | .logData => 8
  | .logTime => 1
  | .openNonce => 4
  | .openStat => 1
  | .intCntA => 1
  | .intCntB => 1
  | .intStat => 1
  | .histIdx => 1
  | .histData => 4
  | .safeCtl => 1
  | .safeStat => 1
  | .svCtl => 1
  | .svTime => 1
  | .svEpoch => 1
  | .svCntA => 1
  | .svCntB => 1
  | .svCntC => 1
  | .gfStat => 1
  | .pwCtl => 1
  | .pwStat => 1
  | .grvPctl => 32
  | .grvPstat => 32
  | .jrCtl => 4
  | .jrOfs => 4
  | .jrCpl => 4
  | .jrStat => 4
  | .dbCtl => 1
  | .extCnt => 1
  | .cpCtl => 1
  | .mqp => 16
  | .torId => 1
  | .coll => 1
  | .plStat => 1
  | .tpCtl => 6
  | .tpStat => 6
  | .tpCnt => 6
  | .coreCnt => 544
  | .syncStat => 16
  | .satAddr => 16
  | .extSync => 16
  | .extWait => 16
  | .ptRoot => 48
  | .faultQ => 16
  | .ufree => 16
  | .restoreCnt => 16
  | .acntA => 16
  | .acntB => 16
  | .srKey => 16
  | .ctxSave => 16
  | .ctxGen => 16
  | .mjRing => 16
  | .mcRing => 16
  | .ssCtl => 64
  | .ssRange => 64
  | .ssVal => 64
  | .ssNf => 64
  | .arbSlot => 64
  | .arbCtl => 16
  | .arbOvr => 16
  | .arbOvrSrc => 16
  | .ht => 16384

/-- Access types (Table 17.1); `counted` is a hardware-counted field, `rwh` an RWH control field. -/
inductive Acc where
  | rw | ro | rwh | counted | w1c | w1s | rcl
deriving DecidableEq, Repr

/-- A field of a register. -/
structure Fld where
  reg : RegKind
  lo  : Nat
  w   : Nat
  acc : Acc
deriving DecidableEq, Repr

/-- DEV_ID_0 [63:0], ID_LO. -/
def fIdLo : Fld := ⟨.devId0, 0, 64, .ro⟩
/-- DEV_ID_1 [63:0], ID_HI. -/
def fIdHi : Fld := ⟨.devId1, 0, 64, .ro⟩
/-- PKG_INFO [3:0], STEP_MINOR. -/
def fStepMinor : Fld := ⟨.pkgInfo, 0, 4, .ro⟩
/-- PKG_INFO [7:4], STEP_MAJOR. -/
def fStepMajor : Fld := ⟨.pkgInfo, 4, 4, .ro⟩
/-- PKG_INFO [9:8], GRADE. -/
def fGrade : Fld := ⟨.pkgInfo, 8, 2, .ro⟩
/-- PKG_INFO [23:16], MAP_VER. -/
def fMapVer : Fld := ⟨.pkgInfo, 16, 8, .ro⟩
/-- PKG_INFO [47:32], PARTNO. -/
def fPartno : Fld := ⟨.pkgInfo, 32, 16, .ro⟩
/-- SETUP_ERR [18:0], ADDR. -/
def fAddr : Fld := ⟨.setupErr, 0, 19, .rcl⟩
/-- SETUP_ERR [19:19], PATH. -/
def fPath : Fld := ⟨.setupErr, 19, 1, .rcl⟩
/-- SETUP_ERR [22:20], CAUSE. -/
def fSetupErrCause : Fld := ⟨.setupErr, 20, 3, .rcl⟩
/-- SETUP_ERR [47:32], COUNT. -/
def fSetupErrCount : Fld := ⟨.setupErr, 32, 16, .rcl⟩
/-- BOOT_STAT [3:0], STEP. -/
def fStep : Fld := ⟨.bootStat, 0, 4, .ro⟩
/-- BOOT_STAT [5:4], SLOT. -/
def fBootStatSlot : Fld := ⟨.bootStat, 4, 2, .ro⟩
/-- BOOT_STAT [7:6], FAIL. -/
def fFail : Fld := ⟨.bootStat, 6, 2, .ro⟩
/-- BOOT_STAT [11:8], FAIL_STEP. -/
def fFailStep : Fld := ⟨.bootStat, 8, 4, .ro⟩
/-- FW_VER_c [6:0], SVN. -/
def fSvn : Fld := ⟨.fwVer, 0, 7, .ro⟩
/-- FW_VER_c [7:7], PEND. -/
def fPend : Fld := ⟨.fwVer, 7, 1, .ro⟩
/-- FW_VER_c [39:8], BUILD. -/
def fBuild : Fld := ⟨.fwVer, 8, 32, .ro⟩
/-- FW_VER_c [41:40], SLOT. -/
def fFwVerSlot : Fld := ⟨.fwVer, 40, 2, .ro⟩
/-- FW_DIG_c_k [63:0], DIGEST. -/
def fDigest : Fld := ⟨.fwDig, 0, 64, .ro⟩
/-- SVN_CTL [6:0], SVN_MIN. -/
def fSvnMin : Fld := ⟨.svnCtl, 0, 7, .ro⟩
/-- SVN_CTL [7:7], SVN_COMMIT. -/
def fSvnCommit : Fld := ⟨.svnCtl, 7, 1, .w1s⟩
/-- SVN_CTL [11:8], KEY_REV. -/
def fKeyRev : Fld := ⟨.svnCtl, 8, 4, .ro⟩
/-- UPD_CTL [11:0], HANDLE. -/
def fUpdCtlHandle : Fld := ⟨.updCtl, 0, 12, .rw⟩
/-- UPD_CTL [12:12], START. -/
def fStart : Fld := ⟨.updCtl, 12, 1, .w1s⟩
/-- UPD_CTL [13:13], BUSY. -/
def fBusy : Fld := ⟨.updCtl, 13, 1, .ro⟩
/-- UPD_CTL [15:14], RESULT. -/
def fResult : Fld := ⟨.updCtl, 14, 2, .ro⟩
/-- UPD_OFS [39:0], OFS. -/
def fOfs : Fld := ⟨.updOfs, 0, 40, .rw⟩
/-- CR_CTL [5:0], PROC. -/
def fProc : Fld := ⟨.crCtl, 0, 6, .rw⟩
/-- CR_CTL [6:6], REQ. -/
def fReq : Fld := ⟨.crCtl, 6, 1, .w1s⟩
/-- CR_CTL [7:7], REFUSED. -/
def fRefused : Fld := ⟨.crCtl, 7, 1, .w1c⟩
/-- CR_CTL [31:16], COUNT. -/
def fCrCtlCount : Fld := ⟨.crCtl, 16, 16, .counted⟩
/-- HL_STAT [1:0], HALF1_LOSSES. -/
def fHalf1Losses : Fld := ⟨.hlStat, 0, 2, .ro⟩
/-- HL_STAT [2:2], FIREBREAK. -/
def fFirebreak : Fld := ⟨.hlStat, 2, 1, .ro⟩
/-- HL_STAT [3:3], HL_STICKY. -/
def fHlSticky : Fld := ⟨.hlStat, 3, 1, .ro⟩
/-- LOG_PTR [15:0], LOG_HEAD. -/
def fLogHead : Fld := ⟨.logPtr, 0, 16, .ro⟩
/-- LOG_PTR [31:16], LOG_TAIL. -/
def fLogTail : Fld := ⟨.logPtr, 16, 16, .rw⟩
/-- LOG_PTR [47:32], LOG_LOST. -/
def fLogLost : Fld := ⟨.logPtr, 32, 16, .counted⟩
/-- LOG_IDX [15:0], IDX. -/
def fIdx : Fld := ⟨.logIdx, 0, 16, .rw⟩
/-- LOG_DATA_k [63:0], DATA. -/
def fLogDataData : Fld := ⟨.logData, 0, 64, .ro⟩
/-- LOG_TIME [63:0], TIME. -/
def fTime : Fld := ⟨.logTime, 0, 64, .ro⟩
/-- OPEN_NONCE_k [63:0], NONCE. -/
def fNonce : Fld := ⟨.openNonce, 0, 64, .ro⟩
/-- OPEN_STAT [0:0], OPEN. -/
def fOpen : Fld := ⟨.openStat, 0, 1, .ro⟩
/-- OPEN_STAT [1:1], CLEARING. -/
def fClearing : Fld := ⟨.openStat, 1, 1, .ro⟩
/-- OPEN_STAT [2:2], TOKEN_BAD. -/
def fTokenBad : Fld := ⟨.openStat, 2, 1, .w1c⟩
/-- OPEN_STAT [4:3], SCOPE. -/
def fScope : Fld := ⟨.openStat, 3, 2, .ro⟩
/-- OPEN_STAT [31:16], ATTEMPTS. -/
def fAttempts : Fld := ⟨.openStat, 16, 16, .counted⟩
/-- INT_CNT_A [15:0], CHK_REPAIRED. -/
def fChkRepaired : Fld := ⟨.intCntA, 0, 16, .counted⟩
/-- INT_CNT_A [31:16], CHK_FAULT. -/
def fChkFault : Fld := ⟨.intCntA, 16, 16, .counted⟩
/-- INT_CNT_A [47:32], XFER_FAULT. -/
def fXferFault : Fld := ⟨.intCntA, 32, 16, .counted⟩
/-- INT_CNT_A [63:48], DATA_FAULT. -/
def fDataFault : Fld := ⟨.intCntA, 48, 16, .counted⟩
/-- INT_CNT_B [15:0], COMP_EVENT. -/
def fCompEvent : Fld := ⟨.intCntB, 0, 16, .counted⟩
/-- INT_CNT_B [31:16], DISAGREE. -/
def fDisagree : Fld := ⟨.intCntB, 16, 16, .counted⟩
/-- INT_CNT_B [47:32], KAT_FAIL. -/
def fKatFail : Fld := ⟨.intCntB, 32, 16, .counted⟩
/-- INT_STAT [0:0], RETIRED. -/
def fRetired : Fld := ⟨.intStat, 0, 1, .ro⟩
/-- INT_STAT [15:8], RET_CAUSE. -/
def fRetCause : Fld := ⟨.intStat, 8, 8, .ro⟩
/-- INT_STAT [21:16], SPARES_USED. -/
def fSparesUsed : Fld := ⟨.intStat, 16, 6, .ro⟩
/-- INT_STAT [39:32], OBSERVED. -/
def fObserved : Fld := ⟨.intStat, 32, 8, .ro⟩
/-- INT_STAT [40:40], EVENT. -/
def fEvent : Fld := ⟨.intStat, 40, 1, .w1c⟩
/-- INT_STAT [41:41], RETIRE_ACK. -/
def fRetireAck : Fld := ⟨.intStat, 41, 1, .w1s⟩
/-- HIST_IDX [17:0], INDEX. -/
def fIndex : Fld := ⟨.histIdx, 0, 18, .rw⟩
/-- HIST_DATA_k [63:0], DATA. -/
def fHistDataData : Fld := ⟨.histData, 0, 64, .ro⟩
/-- SAFE_CTL [15:0], RINGS. -/
def fRings : Fld := ⟨.safeCtl, 0, 16, .rw⟩
/-- SAFE_CTL [16:16], MON_EN. -/
def fMonEn : Fld := ⟨.safeCtl, 16, 1, .rw⟩
/-- SAFE_CTL [17:17], LAND_TEST. -/
def fLandTest : Fld := ⟨.safeCtl, 17, 1, .w1s⟩
/-- SAFE_STAT [0:0], TRIP. -/
def fTrip : Fld := ⟨.safeStat, 0, 1, .w1c⟩
/-- SAFE_STAT [1:1], MON_FAIL. -/
def fMonFail : Fld := ⟨.safeStat, 1, 1, .ro⟩
/-- SAFE_STAT [11:8], RING. -/
def fRing : Fld := ⟨.safeStat, 8, 4, .ro⟩
/-- SAFE_STAT [31:16], TRIPS. -/
def fTrips : Fld := ⟨.safeStat, 16, 16, .counted⟩
/-- SV_CTL [0:0], EN. -/
def fSvCtlEn : Fld := ⟨.svCtl, 0, 1, .rw⟩
/-- SV_CTL [1:1], SHARED. -/
def fShared : Fld := ⟨.svCtl, 1, 1, .rw⟩
/-- SV_CTL [7:2], SV_K. -/
def fSvK : Fld := ⟨.svCtl, 2, 6, .rw⟩
/-- SV_CTL [31:16], GLADE_0. -/
def fGlade0 : Fld := ⟨.svCtl, 16, 16, .rw⟩
/-- SV_CTL [47:32], GLADE_1. -/
def fGlade1 : Fld := ⟨.svCtl, 32, 16, .rw⟩
/-- SV_TIME [15:0], SV_CUT. -/
def fSvCut : Fld := ⟨.svTime, 0, 16, .rw⟩
/-- SV_TIME [31:16], SV_CMP. -/
def fSvCmp : Fld := ⟨.svTime, 16, 16, .rw⟩
/-- SV_EPOCH [31:0], EPOCH_PUB. -/
def fEpochPub : Fld := ⟨.svEpoch, 0, 32, .ro⟩
/-- SV_CNT_A [31:0], ACCEPTED. -/
def fAccepted : Fld := ⟨.svCntA, 0, 32, .counted⟩
/-- SV_CNT_A [63:32], REJECTED. -/
def fRejected : Fld := ⟨.svCntA, 32, 32, .counted⟩
/-- SV_CNT_B [31:0], UNDELIVERED. -/
def fUndelivered : Fld := ⟨.svCntB, 0, 32, .counted⟩
/-- SV_CNT_B [63:32], DEADLINE_MISS. -/
def fDeadlineMiss : Fld := ⟨.svCntB, 32, 32, .counted⟩
/-- SV_CNT_C [31:0], GUARD_MISMATCH. -/
def fGuardMismatch : Fld := ⟨.svCntC, 0, 32, .counted⟩
/-- SV_CNT_C [63:32], GUARD_ERRORS. -/
def fGuardErrors : Fld := ⟨.svCntC, 32, 32, .counted⟩
/-- GF_STAT [0:0], GUARD_FAULT. -/
def fGuardFault : Fld := ⟨.gfStat, 0, 1, .w1c⟩
/-- GF_STAT [15:8], CAUSE. -/
def fGfStatCause : Fld := ⟨.gfStat, 8, 8, .ro⟩
/-- PW_CTL [11:0], PCAP. -/
def fPcap : Fld := ⟨.pwCtl, 0, 12, .rw⟩
/-- PW_STAT [11:0], P_NOW. -/
def fPNow : Fld := ⟨.pwStat, 0, 12, .ro⟩
/-- PW_STAT [19:12], TJ_MAX. -/
def fTjMax : Fld := ⟨.pwStat, 12, 8, .ro⟩
/-- PW_STAT [27:20], TDRAM_MAX. -/
def fTdramMax : Fld := ⟨.pwStat, 20, 8, .ro⟩
/-- PW_STAT [28:28], CAP_ACTIVE. -/
def fCapActive : Fld := ⟨.pwStat, 28, 1, .ro⟩
/-- PW_STAT [29:29], THERM. -/
def fTherm : Fld := ⟨.pwStat, 29, 1, .ro⟩
/-- PW_STAT [47:32], PHASE_DROP. -/
def fPhaseDrop : Fld := ⟨.pwStat, 32, 16, .counted⟩
/-- GRV_PCTL_n [5:0], FMIN_K. -/
def fFminK : Fld := ⟨.grvPctl, 0, 6, .rw⟩
/-- GRV_PCTL_n [13:8], FMAX_K. -/
def fFmaxK : Fld := ⟨.grvPctl, 8, 6, .rw⟩
/-- GRV_PSTAT_n [5:0], K_NOW. -/
def fKNow : Fld := ⟨.grvPstat, 0, 6, .ro⟩
/-- GRV_PSTAT_n [6:6], STRETCH. -/
def fStretch : Fld := ⟨.grvPstat, 6, 1, .ro⟩
/-- GRV_PSTAT_n [7:7], PENDING. -/
def fPending : Fld := ⟨.grvPstat, 7, 1, .ro⟩
/-- GRV_PSTAT_n [8:8], POLICY_OVERRIDDEN. -/
def fPolicyOverridden : Fld := ⟨.grvPstat, 8, 1, .ro⟩
/-- GRV_PSTAT_n [10:9], BOUND. -/
def fBound : Fld := ⟨.grvPstat, 9, 2, .ro⟩
/-- GRV_PSTAT_n [13:11], REASON. -/
def fReason : Fld := ⟨.grvPstat, 11, 3, .ro⟩
/-- GRV_PSTAT_n [14:14], OVR_SEEN. -/
def fOvrSeen : Fld := ⟨.grvPstat, 14, 1, .w1c⟩
/-- GRV_PSTAT_n [23:16], TJ. -/
def fTj : Fld := ⟨.grvPstat, 16, 8, .ro⟩
/-- GRV_PSTAT_n [39:24], DROOPS. -/
def fDroops : Fld := ⟨.grvPstat, 24, 16, .counted⟩
/-- JR_CTL_n [0:0], EN. -/
def fJrCtlEn : Fld := ⟨.jrCtl, 0, 1, .rw⟩
/-- JR_CTL_n [7:4], LOG_ENT. -/
def fLogEnt : Fld := ⟨.jrCtl, 4, 4, .rw⟩
/-- JR_CTL_n [19:8], HANDLE. -/
def fJrCtlHandle : Fld := ⟨.jrCtl, 8, 12, .rw⟩
/-- JR_OFS_n [39:0], RING_OFS. -/
def fRingOfs : Fld := ⟨.jrOfs, 0, 40, .rw⟩
/-- JR_CPL_n [39:0], CPL_OFS. -/
def fCplOfs : Fld := ⟨.jrCpl, 0, 40, .rw⟩
/-- JR_STAT_n [31:0], DB_COUNT. -/
def fDbCount : Fld := ⟨.jrStat, 0, 32, .ro⟩
/-- JR_STAT_n [63:32], TAKEN. -/
def fTaken : Fld := ⟨.jrStat, 32, 32, .ro⟩
/-- DB_CTL [19:0], DB_KEY. -/
def fDbKey : Fld := ⟨.dbCtl, 0, 20, .rw⟩
/-- EXT_CNT [15:0], DB_STRAY. -/
def fDbStray : Fld := ⟨.extCnt, 0, 16, .counted⟩
/-- EXT_CNT [31:16], IN_REFUSED. -/
def fInRefused : Fld := ⟨.extCnt, 16, 16, .counted⟩
/-- EXT_CNT [47:32], CP_DROP. -/
def fCpDrop : Fld := ⟨.extCnt, 32, 16, .counted⟩
/-- CP_CTL [7:0], PFC_EN. -/
def fPfcEn : Fld := ⟨.cpCtl, 0, 8, .rw⟩
/-- MQP_CPA_k, MQP_CPB_k [63:0], ENTRY. -/
def fMqpEntry : Fld := ⟨.mqp, 0, 64, .rw⟩
/-- TOR_ID [3:0], X. -/
def fX : Fld := ⟨.torId, 0, 4, .rw⟩
/-- TOR_ID [7:4], Y. -/
def fY : Fld := ⟨.torId, 4, 4, .rw⟩
/-- TOR_ID [12:8], Z. -/
def fZ : Fld := ⟨.torId, 8, 5, .rw⟩
/-- TOR_ID [19:16], DXM1. -/
def fDxm1 : Fld := ⟨.torId, 16, 4, .rw⟩
/-- TOR_ID [23:20], DYM1. -/
def fDym1 : Fld := ⟨.torId, 20, 4, .rw⟩
/-- TOR_ID [28:24], DZM1. -/
def fDzm1 : Fld := ⟨.torId, 24, 5, .rw⟩
/-- TOR_ID [47:32], JOB_TAG. -/
def fJobTag : Fld := ⟨.torId, 32, 16, .rw⟩
/-- TOR_ID [51:48], RCTX. -/
def fRctx : Fld := ⟨.torId, 48, 4, .rw⟩
/-- TOR_ID [63:63], VALID. -/
def fValid : Fld := ⟨.torId, 63, 1, .rw⟩
/-- COLL [31:0], EP_FLOOR. -/
def fEpFloor : Fld := ⟨.coll, 0, 32, .rwh⟩
/-- COLL [47:32], STALE_DROP. -/
def fStaleDrop : Fld := ⟨.coll, 32, 16, .counted⟩
/-- PL_STAT [0:0], PEER_LOST. -/
def fPeerLost : Fld := ⟨.plStat, 0, 1, .w1c⟩
/-- PL_STAT [3:1], CAUSE. -/
def fPlStatCause : Fld := ⟨.plStat, 1, 3, .ro⟩
/-- PL_STAT [15:8], PORT. -/
def fPort : Fld := ⟨.plStat, 8, 8, .ro⟩
/-- PL_STAT [28:16], ORIGIN. -/
def fOrigin : Fld := ⟨.plStat, 16, 13, .ro⟩
/-- PL_STAT [47:32], HOLD_S. -/
def fHoldS : Fld := ⟨.plStat, 32, 16, .rw⟩
/-- TP_CTL_p [0:0], EN. -/
def fTpCtlEn : Fld := ⟨.tpCtl, 0, 1, .rw⟩
/-- TP_CTL_p [2:1], MIN_WIDTH. -/
def fMinWidth : Fld := ⟨.tpCtl, 1, 2, .rw⟩
/-- TP_CTL_p [3:3], RETRAIN. -/
def fRetrain : Fld := ⟨.tpCtl, 3, 1, .w1s⟩
/-- TP_CTL_p [11:8], GROUP_FENCE. -/
def fGroupFence : Fld := ⟨.tpCtl, 8, 4, .rw⟩
/-- TP_STAT_p [2:0], STATE. -/
def fState : Fld := ⟨.tpStat, 0, 3, .ro⟩
/-- TP_STAT_p [4:3], WIDTH. -/
def fWidth : Fld := ⟨.tpStat, 3, 2, .ro⟩
/-- TP_STAT_p [8:5], GROUPS. -/
def fGroups : Fld := ⟨.tpStat, 5, 4, .ro⟩
/-- TP_STAT_p [31:16], LANE_BAD. -/
def fLaneBad : Fld := ⟨.tpStat, 16, 16, .ro⟩
/-- TP_STAT_p [44:32], NBR. -/
def fNbr : Fld := ⟨.tpStat, 32, 13, .ro⟩
/-- TP_CNT_p [31:0], REPLAYS. -/
def fReplays : Fld := ⟨.tpCnt, 0, 32, .counted⟩
/-- TP_CNT_p [47:32], UNCORR. -/
def fUncorr : Fld := ⟨.tpCnt, 32, 16, .counted⟩
/-- TP_CNT_p [55:48], RESIZES. -/
def fResizes : Fld := ⟨.tpCnt, 48, 8, .counted⟩
/-- CORE_CNT_m [15:0], FILL_RETRY. -/
def fFillRetry : Fld := ⟨.coreCnt, 0, 16, .counted⟩
/-- CORE_CNT_m [31:16], INVQ_OVERRUN. -/
def fInvqOverrun : Fld := ⟨.coreCnt, 16, 16, .counted⟩
/-- CORE_CNT_m [47:32], PREEMPT_LATE. -/
def fPreemptLate : Fld := ⟨.coreCnt, 32, 16, .counted⟩
/-- SYNC_STAT [0:0], SYNC_SAT. -/
def fSyncSat : Fld := ⟨.syncStat, 0, 1, .w1c⟩
/-- SYNC_STAT [31:16], SAT_COUNT. -/
def fSatCount : Fld := ⟨.syncStat, 16, 16, .counted⟩
/-- SAT_ADDR [55:0], SAT_ADDR. -/
def fSatAddr : Fld := ⟨.satAddr, 0, 56, .ro⟩
/-- EXT_SYNC [39:0], EXT_BASE. -/
def fExtBase : Fld := ⟨.extSync, 0, 40, .rw⟩
/-- EXT_SYNC [55:40], EXT_PAGES. -/
def fExtPages : Fld := ⟨.extSync, 40, 16, .rw⟩
/-- EXT_WAIT [15:0], EXT_WAIT_LIMIT. -/
def fExtWaitLimit : Fld := ⟨.extWait, 0, 16, .rw⟩
/-- PT_ROOT_S0 [35:0], ROOT. -/
def fRoot : Fld := ⟨.ptRoot, 0, 36, .rw⟩
/-- PT_ROOT_S0 [36:36], ROOT_HALF. -/
def fRootHalf : Fld := ⟨.ptRoot, 36, 1, .rw⟩
/-- PT_ROOT_S0 [63:63], EN. -/
def fPtRootEn : Fld := ⟨.ptRoot, 63, 1, .rw⟩
/-- FAULT_Q [24:0], FQ_BASE. -/
def fFqBase : Fld := ⟨.faultQ, 0, 25, .rw⟩
/-- FAULT_Q [25:25], FQ_HALF. -/
def fFqHalf : Fld := ⟨.faultQ, 25, 1, .rw⟩
/-- FAULT_Q [39:32], FQ_HEAD. -/
def fFqHead : Fld := ⟨.faultQ, 32, 8, .counted⟩
/-- FAULT_Q [47:40], FQ_TAIL. -/
def fFqTail : Fld := ⟨.faultQ, 40, 8, .rw⟩
/-- FAULT_Q [55:48], FQ_LOST. -/
def fFqLost : Fld := ⟨.faultQ, 48, 8, .counted⟩
/-- UFREE [24:0], UF_BASE. -/
def fUfBase : Fld := ⟨.ufree, 0, 25, .rw⟩
/-- UFREE [25:25], UF_HALF. -/
def fUfHalf : Fld := ⟨.ufree, 25, 1, .rw⟩
/-- UFREE [41:32], UF_HEAD. -/
def fUfHead : Fld := ⟨.ufree, 32, 10, .counted⟩
/-- UFREE [51:42], UF_TAIL. -/
def fUfTail : Fld := ⟨.ufree, 42, 10, .rw⟩
/-- RESTORE_CNT [31:0], RESTORES. -/
def fRestores : Fld := ⟨.restoreCnt, 0, 32, .counted⟩
/-- ACNT_A [31:0], ACNT_INVALID. -/
def fAcntInvalid : Fld := ⟨.acntA, 0, 32, .counted⟩
/-- ACNT_A [63:32], ACNT_OVERFLOW. -/
def fAcntOverflow : Fld := ⟨.acntA, 32, 32, .counted⟩
/-- ACNT_B [31:0], ACNT_FLUSH. -/
def fAcntFlush : Fld := ⟨.acntB, 0, 32, .counted⟩
/-- SR_KEY [63:0], KEY. -/
def fKey : Fld := ⟨.srKey, 0, 64, .rw⟩
/-- CTX_SAVE [7:0], SAVE_PG. -/
def fSavePg : Fld := ⟨.ctxSave, 0, 8, .rw⟩
/-- CTX_GEN_n [11:0], GEN. -/
def fGen : Fld := ⟨.ctxGen, 0, 12, .ro⟩
/-- MJ_RING [27:0], MJ_BASE. -/
def fMjBase : Fld := ⟨.mjRing, 0, 28, .rw⟩
/-- MJ_RING [33:28], MJ_TAIL. -/
def fMjTail : Fld := ⟨.mjRing, 28, 6, .rw⟩
/-- MJ_RING [39:34], MJ_HEAD. -/
def fMjHead : Fld := ⟨.mjRing, 34, 6, .ro⟩
/-- MC_RING [27:0], MC_BASE. -/
def fMcBase : Fld := ⟨.mcRing, 0, 28, .rw⟩
/-- MC_RING [33:28], MC_HEAD. -/
def fMcHead : Fld := ⟨.mcRing, 28, 6, .counted⟩
/-- MC_RING [39:34], MC_TAIL. -/
def fMcTail : Fld := ⟨.mcRing, 34, 6, .rw⟩
/-- SS_CTL_n [3:0], CTX. -/
def fCtx : Fld := ⟨.ssCtl, 0, 4, .rw⟩
/-- SS_CTL_n [4:4], EN. -/
def fSsCtlEn : Fld := ⟨.ssCtl, 4, 1, .rw⟩
/-- SS_CTL_n [5:5], SNAP. -/
def fSnap : Fld := ⟨.ssCtl, 5, 1, .w1s⟩
/-- SS_CTL_n [31:16], INC_MASK. -/
def fIncMask : Fld := ⟨.ssCtl, 16, 16, .rw⟩
/-- SS_CTL_n [47:32], FIN_MASK. -/
def fFinMask : Fld := ⟨.ssCtl, 32, 16, .rw⟩
/-- SS_RANGE_n [27:0], LO. -/
def fLo : Fld := ⟨.ssRange, 0, 28, .rw⟩
/-- SS_RANGE_n [55:28], HI. -/
def fHi : Fld := ⟨.ssRange, 28, 28, .rw⟩
/-- SS_VAL_n [31:0], INC_SQ. -/
def fIncSq : Fld := ⟨.ssVal, 0, 32, .ro⟩
/-- SS_VAL_n [63:32], FIN_SQ. -/
def fFinSq : Fld := ⟨.ssVal, 32, 32, .ro⟩
/-- SS_NF_n [31:0], NONFIN. -/
def fNonfin : Fld := ⟨.ssNf, 0, 32, .ro⟩
/-- ARB_SLOT_n [63:0], ENTRY. -/
def fArbSlotEntry : Fld := ⟨.arbSlot, 0, 64, .rw⟩
/-- ARB_CTL [0:0], SWAP. -/
def fSwap : Fld := ⟨.arbCtl, 0, 1, .w1s⟩
/-- ARB_CTL [1:1], TBL_REFUSED. -/
def fTblRefused : Fld := ⟨.arbCtl, 1, 1, .w1c⟩
/-- ARB_CTL [11:8], REVOKE_MAX. -/
def fRevokeMax : Fld := ⟨.arbCtl, 8, 4, .rw⟩
/-- ARB_CTL [21:16], SLOT_NOW. -/
def fSlotNow : Fld := ⟨.arbCtl, 16, 6, .ro⟩
/-- ARB_OVR [15:0], OVR_F. -/
def fOvrF : Fld := ⟨.arbOvr, 0, 16, .counted⟩
/-- ARB_OVR [31:16], OVR_H. -/
def fOvrH : Fld := ⟨.arbOvr, 16, 16, .counted⟩
/-- ARB_OVR [47:32], OVR_M. -/
def fOvrM : Fld := ⟨.arbOvr, 32, 16, .counted⟩
/-- ARB_OVR [63:48], OVR_Q. -/
def fOvrQ : Fld := ⟨.arbOvr, 48, 16, .counted⟩
/-- ARB_OVR_SRC [15:0], SRC. -/
def fSrc : Fld := ⟨.arbOvrSrc, 0, 16, .ro⟩
/-- ARB_OVR_SRC [17:16], CLASS. -/
def fClass : Fld := ⟨.arbOvrSrc, 16, 2, .ro⟩
/-- ARB_OVR_SRC [22:18], CHAN. -/
def fChan : Fld := ⟨.arbOvrSrc, 18, 5, .ro⟩
/-- HT_n_k [63:0], ENTRY. -/
def fHtEntry : Fld := ⟨.ht, 0, 64, .rw⟩

/-- The fields of a register; bits outside them are reserved and read zero (R12). -/
def RegKind.fields : RegKind → List Fld
  | .devId0 => [fIdLo]
  | .devId1 => [fIdHi]
  | .pkgInfo => [fStepMinor, fStepMajor, fGrade, fMapVer, fPartno]
  | .setupErr => [fAddr, fPath, fSetupErrCause, fSetupErrCount]
  | .bootStat => [fStep, fBootStatSlot, fFail, fFailStep]
  | .fwVer => [fSvn, fPend, fBuild, fFwVerSlot]
  | .fwDig => [fDigest]
  | .svnCtl => [fSvnMin, fSvnCommit, fKeyRev]
  | .updCtl => [fUpdCtlHandle, fStart, fBusy, fResult]
  | .updOfs => [fOfs]
  | .crCtl => [fProc, fReq, fRefused, fCrCtlCount]
  | .hlStat => [fHalf1Losses, fFirebreak, fHlSticky]
  | .logPtr => [fLogHead, fLogTail, fLogLost]
  | .logIdx => [fIdx]
  | .logData => [fLogDataData]
  | .logTime => [fTime]
  | .openNonce => [fNonce]
  | .openStat => [fOpen, fClearing, fTokenBad, fScope, fAttempts]
  | .intCntA => [fChkRepaired, fChkFault, fXferFault, fDataFault]
  | .intCntB => [fCompEvent, fDisagree, fKatFail]
  | .intStat => [fRetired, fRetCause, fSparesUsed, fObserved, fEvent, fRetireAck]
  | .histIdx => [fIndex]
  | .histData => [fHistDataData]
  | .safeCtl => [fRings, fMonEn, fLandTest]
  | .safeStat => [fTrip, fMonFail, fRing, fTrips]
  | .svCtl => [fSvCtlEn, fShared, fSvK, fGlade0, fGlade1]
  | .svTime => [fSvCut, fSvCmp]
  | .svEpoch => [fEpochPub]
  | .svCntA => [fAccepted, fRejected]
  | .svCntB => [fUndelivered, fDeadlineMiss]
  | .svCntC => [fGuardMismatch, fGuardErrors]
  | .gfStat => [fGuardFault, fGfStatCause]
  | .pwCtl => [fPcap]
  | .pwStat => [fPNow, fTjMax, fTdramMax, fCapActive, fTherm, fPhaseDrop]
  | .grvPctl => [fFminK, fFmaxK]
  | .grvPstat => [fKNow, fStretch, fPending, fPolicyOverridden, fBound, fReason, fOvrSeen, fTj, fDroops]
  | .jrCtl => [fJrCtlEn, fLogEnt, fJrCtlHandle]
  | .jrOfs => [fRingOfs]
  | .jrCpl => [fCplOfs]
  | .jrStat => [fDbCount, fTaken]
  | .dbCtl => [fDbKey]
  | .extCnt => [fDbStray, fInRefused, fCpDrop]
  | .cpCtl => [fPfcEn]
  | .mqp => [fMqpEntry]
  | .torId => [fX, fY, fZ, fDxm1, fDym1, fDzm1, fJobTag, fRctx, fValid]
  | .coll => [fEpFloor, fStaleDrop]
  | .plStat => [fPeerLost, fPlStatCause, fPort, fOrigin, fHoldS]
  | .tpCtl => [fTpCtlEn, fMinWidth, fRetrain, fGroupFence]
  | .tpStat => [fState, fWidth, fGroups, fLaneBad, fNbr]
  | .tpCnt => [fReplays, fUncorr, fResizes]
  | .coreCnt => [fFillRetry, fInvqOverrun, fPreemptLate]
  | .syncStat => [fSyncSat, fSatCount]
  | .satAddr => [fSatAddr]
  | .extSync => [fExtBase, fExtPages]
  | .extWait => [fExtWaitLimit]
  | .ptRoot => [fRoot, fRootHalf, fPtRootEn]
  | .faultQ => [fFqBase, fFqHalf, fFqHead, fFqTail, fFqLost]
  | .ufree => [fUfBase, fUfHalf, fUfHead, fUfTail]
  | .restoreCnt => [fRestores]
  | .acntA => [fAcntInvalid, fAcntOverflow]
  | .acntB => [fAcntFlush]
  | .srKey => [fKey]
  | .ctxSave => [fSavePg]
  | .ctxGen => [fGen]
  | .mjRing => [fMjBase, fMjTail, fMjHead]
  | .mcRing => [fMcBase, fMcHead, fMcTail]
  | .ssCtl => [fCtx, fSsCtlEn, fSnap, fIncMask, fFinMask]
  | .ssRange => [fLo, fHi]
  | .ssVal => [fIncSq, fFinSq]
  | .ssNf => [fNonfin]
  | .arbSlot => [fArbSlotEntry]
  | .arbCtl => [fSwap, fTblRefused, fRevokeMax, fSlotNow]
  | .arbOvr => [fOvrF, fOvrH, fOvrM, fOvrQ]
  | .arbOvrSrc => [fSrc, fClass, fChan]
  | .ht => [fHtEntry]

/-- The reset value of a register (Reset columns of the register tables); grade 1 is A, 2 is B. Fused and random
values come from elsewhere and read here as zero. (DESIGN CHOICE, log 5) -/
def RegKind.reset (grade : Nat) : RegKind → Nat
  | .pkgInfo => 1 + 0xA * 2 ^ 4 + 1 * 2 ^ 16 + 0x2416 * 2 ^ 32
  | .svCtl => (if grade = 2 then 44 else 50) * 2 ^ 2
  | .svTime => 2000 + 1000 * 2 ^ 16
  | .pwCtl => (if grade = 2 then 2000 else 2400)
  | .grvPctl => 24 + (if grade = 2 then 44 else 50) * 2 ^ 8
  | .jrCtl => 4 * 2 ^ 4
  | .plStat => 0xFF * 2 ^ 8 + 300 * 2 ^ 32
  | .tpCtl => 3 * 2 ^ 1
  | .arbSlot => 0x4444444444444444
  | .arbCtl => 4 * 2 ^ 8
  | _ => 0

/-- The registers of a block whose offsets run with a stride: entry `(o - base) / stride` when it is one of `n`. -/
def strided (k : RegKind) (base stride n o : Nat) : Option (RegKind × Nat) :=
  if base ≤ o ∧ (o - base) % stride = 0 ∧ (o - base) / stride < n then some (k, (o - base) / stride) else none

/-- The first answer of a list. -/
def firstSome {α : Type} : List (Option α) → Option α
  | [] => none
  | some a :: _ => some a
  | none :: l => firstSome l

/-- Which register lies at an offset (Table 17.3), or none (R530). Offsets of the context, base-die and strided blocks
are split into entry and offset within the entry first. (DEDUCED, log 87) -/
def regAt (o : Nat) : Option (RegKind × Nat) :=
  if o % 8 ≠ 0 then none
  else if o < 0x8000 then
    firstSome [
      strided .devId0 0x0 8 1 o,
      strided .devId1 0x8 8 1 o,
      strided .pkgInfo 0x10 8 1 o,
      strided .setupErr 0x18 8 1 o,
      strided .bootStat 0x1000 8 1 o,
      strided .fwVer 0x1008 8 7 o,
      strided .fwDig 0x1100 8 42 o,
      strided .svnCtl 0x1300 8 1 o,
      strided .updCtl 0x1308 8 1 o,
      strided .updOfs 0x1310 8 1 o,
      strided .crCtl 0x1318 8 1 o,
      strided .hlStat 0x1320 8 1 o,
      strided .logPtr 0x1400 8 1 o,
      strided .logIdx 0x1408 8 1 o,
      strided .logData 0x1410 8 8 o,
      strided .logTime 0x1450 8 1 o,
      strided .openNonce 0x1500 8 4 o,
      strided .openStat 0x1520 8 1 o,
      strided .intCntA 0x2000 8 1 o,
      strided .intCntB 0x2008 8 1 o,
      strided .intStat 0x2010 8 1 o,
      strided .histIdx 0x2018 8 1 o,
      strided .histData 0x2020 8 4 o,
      strided .safeCtl 0x2100 8 1 o,
      strided .safeStat 0x2108 8 1 o,
      strided .svCtl 0x3000 8 1 o,
      strided .svTime 0x3008 8 1 o,
      strided .svEpoch 0x3010 8 1 o,
      strided .svCntA 0x3018 8 1 o,
      strided .svCntB 0x3020 8 1 o,
      strided .svCntC 0x3028 8 1 o,
      strided .gfStat 0x3030 8 1 o,
      strided .pwCtl 0x4000 8 1 o,
      strided .pwStat 0x4008 8 1 o,
      strided .grvPctl 0x4100 16 32 o,
      strided .grvPstat 0x4108 16 32 o,
      strided .jrCtl 0x5000 32 4 o,
      strided .jrOfs 0x5008 32 4 o,
      strided .jrCpl 0x5010 32 4 o,
      strided .jrStat 0x5018 32 4 o,
      strided .dbCtl 0x5080 8 1 o,
      strided .extCnt 0x5088 8 1 o,
      strided .cpCtl 0x5090 8 1 o,
      strided .mqp 0x5100 8 16 o,
      strided .torId 0x6000 8 1 o,
      strided .coll 0x6008 8 1 o,
      strided .plStat 0x6010 8 1 o,
      strided .tpCtl 0x6100 32 6 o,
      strided .tpStat 0x6108 32 6 o,
      strided .tpCnt 0x6110 32 6 o]
  else if o < 0x9000 then
    let n := (o - 0x8000) / 0x100
    match o % 0x100 with
    | 0x0 => some (.syncStat, n)
    | 0x8 => some (.satAddr, n)
    | 0x10 => some (.extSync, n)
    | 0x18 => some (.extWait, n)
    | 0x20 => some (.ptRoot, 3 * n + 0)
    | 0x28 => some (.ptRoot, 3 * n + 1)
    | 0x30 => some (.ptRoot, 3 * n + 2)
    | 0x38 => some (.faultQ, n)
    | 0x40 => some (.ufree, n)
    | 0x48 => some (.restoreCnt, n)
    | 0x50 => some (.acntA, n)
    | 0x58 => some (.acntB, n)
    | 0x60 => some (.srKey, n)
    | 0x68 => some (.ctxSave, n)
    | 0x70 => some (.ctxGen, n)
    | _ => none
  else if o < 0x10000 then strided .coreCnt 0xc000 8 544 o
  else if o < 0x12000 then
    let d := (o - 0x10000) / 0x200
    match o % 0x200 with
    | 0x0 => some (.mjRing, d)
    | 0x8 => some (.mcRing, d)
    | 0x10 => some (.ssCtl, 4 * d + 0)
    | 0x18 => some (.ssCtl, 4 * d + 1)
    | 0x20 => some (.ssCtl, 4 * d + 2)
    | 0x28 => some (.ssCtl, 4 * d + 3)
    | 0x30 => some (.ssRange, 4 * d + 0)
    | 0x38 => some (.ssRange, 4 * d + 1)
    | 0x40 => some (.ssRange, 4 * d + 2)
    | 0x48 => some (.ssRange, 4 * d + 3)
    | 0x50 => some (.ssVal, 4 * d + 0)
    | 0x58 => some (.ssVal, 4 * d + 1)
    | 0x60 => some (.ssVal, 4 * d + 2)
    | 0x68 => some (.ssVal, 4 * d + 3)
    | 0x70 => some (.ssNf, 4 * d + 0)
    | 0x78 => some (.ssNf, 4 * d + 1)
    | 0x80 => some (.ssNf, 4 * d + 2)
    | 0x88 => some (.ssNf, 4 * d + 3)
    | 0x100 => some (.arbSlot, 4 * d + 0)
    | 0x108 => some (.arbSlot, 4 * d + 1)
    | 0x110 => some (.arbSlot, 4 * d + 2)
    | 0x118 => some (.arbSlot, 4 * d + 3)
    | 0x120 => some (.arbCtl, d)
    | 0x128 => some (.arbOvr, d)
    | 0x130 => some (.arbOvrSrc, d)
    | _ => none
  else if o < 0x20000 then none
  else strided .ht 0x20000 8 16384 o

end Sys2Proof.Machine
end

