-- ==== Sys2Proof/Machine/Fp.lean ====
section
/-! DEFINITION. Exact dyadic numbers, FP32 with the deviations of Table 2.5 (spec/02 R69), FP64 for SCH (spec/09),
and the arithmetic counters' increments (Table 2.6). FP32 and FP64 values are their bit patterns as numbers. -/

namespace Sys2Proof.Machine

/-- Increments of ACNT_INVALID, ACNT_OVERFLOW and ACNT_FLUSH (Table 2.6). -/
structure Cnt where
  inv : Nat := 0
  ovf : Nat := 0
  fl  : Nat := 0
deriving DecidableEq, Repr

/-- Several increments in one step add up (R71). -/
def Cnt.add (a b : Cnt) : Cnt := ⟨a.inv + b.inv, a.ovf + b.ovf, a.fl + b.fl⟩

/-- No increment. -/
def Cnt.zero : Cnt := {}
/-- One increment of ACNT_INVALID. -/
def Cnt.oneInv : Cnt := { inv := 1 }
/-- One increment of ACNT_OVERFLOW. -/
def Cnt.oneOvf : Cnt := { ovf := 1 }
/-- One increment of ACNT_FLUSH. -/
def Cnt.oneFl : Cnt := { fl := 1 }

/-- The exact number `m * 2 ^ e`. -/
structure Dy where
  m : Int
  e : Int
deriving DecidableEq, Repr

namespace Dy

/-- The mantissa over a smaller exponent `e`. -/
def at_ (a : Dy) (e : Int) : Int := a.m * 2 ^ (a.e - e).toNat

/-- Exact sum. -/
def add (a b : Dy) : Dy :=
  let e := min a.e b.e
  ⟨a.at_ e + b.at_ e, e⟩

/-- Exact product. -/
def mul (a b : Dy) : Dy := ⟨a.m * b.m, a.e + b.e⟩

/-- Exact negation. -/
def neg (a : Dy) : Dy := ⟨-a.m, a.e⟩

/-- Exact scaling by a power of two. -/
def scale (a : Dy) (k : Int) : Dy := ⟨a.m, a.e + k⟩

/-- Zero. -/
def zero : Dy := ⟨0, 0⟩

/-- Exact sum of a list. -/
def sum (l : List Dy) : Dy := l.foldl add zero

/-- Strict comparison. -/
def lt (a b : Dy) : Bool :=
  let e := min a.e b.e
  a.at_ e < b.at_ e

/-- floor (log2 |a|), for a non-zero `a`. -/
def log2 (a : Dy) : Int := (Nat.log2 a.m.natAbs : Int) + a.e

/-- Rounding toward minus infinity. -/
def floor (a : Dy) : Int :=
  if a.e ≥ 0 then a.m * 2 ^ a.e.toNat else a.m / (2 ^ (-a.e).toNat : Nat)

/-- The nearest integer, a tie going to the even one (R79). -/
def rne (a : Dy) : Int :=
  if a.e ≥ 0 then a.m * 2 ^ a.e.toNat
  else
    let d : Nat := 2 ^ (-a.e).toNat
    let q := a.m / d
    let r := a.m % d
    if 2 * r > d ∨ (2 * r = d ∧ q % 2 = 1) then q + 1 else q

/-- The smallest integer at or above. -/
def ceil (a : Dy) : Int := -(Dy.floor a.neg)

end Dy

/-- A positive magnitude `a * 2 ^ e` rounded to `p` significant bits, nearest even; `sticky` says that the exact
magnitude lies strictly between `a` and `a + 1` units (then `a` has at least `p + 2` bits). -/
def roundSig (p a : Nat) (e : Int) (sticky : Bool) : Nat × Int :=
  let n := Nat.log2 a + 1
  if n ≤ p then (a * 2 ^ (p - n), e - (p - n : Nat))
  else
    let sh := n - p
    let q := a / 2 ^ sh
    let r := a % 2 ^ sh
    let half := 2 ^ (sh - 1)
    let up := r > half ∨ (r = half ∧ (sticky = true ∨ q % 2 = 1))
    let q' := if up then q + 1 else q
    if q' = 2 ^ p then (2 ^ (p - 1), e + sh + 1) else (q', e + sh)

/-! ### FP32 -/

/-- What an FP32 input is read as: subnormals are zeros of their sign (deviation 2). -/
inductive Fv where
  | nan | inf (neg : Bool) | zero (neg : Bool) | fin (v : Dy)
deriving DecidableEq, Repr

/-- The only NaN result (deviation 3). -/
def f32Nan : Nat := 0x7FC00000

/-- An infinity. -/
def f32Inf (neg : Bool) : Nat := bnat neg * 2 ^ 31 + 0x7F800000

/-- A zero. -/
def f32Zero (neg : Bool) : Nat := bnat neg * 2 ^ 31

/-- Reading an FP32 input (R69, deviations 2 and 3). -/
def f32Read (b : Nat) : Fv :=
  let s := bit b 31
  let e := bits b 23 8
  let f := bits b 0 23
  if e = 255 then (if f = 0 then .inf s else .nan)
  else if e = 0 then .zero s
  else .fin ⟨(if s then -1 else 1) * ((2 ^ 23 + f : Nat) : Int), (e : Int) - 150⟩

/-- Rounding a positive magnitude with a sign into FP32: IEEE overflow, counted, and deviation 2, counted. -/
def f32Pack (neg : Bool) (a : Nat) (e : Int) (sticky : Bool) : Nat × Cnt :=
  let (q, k) := roundSig 24 a e sticky
  let be := k + 150
  if be ≥ 255 then (f32Inf neg, .oneOvf)
  else if be ≤ 0 then (f32Zero neg, .oneFl)
  else (bnat neg * 2 ^ 31 + be.toNat * 2 ^ 23 + (q - 2 ^ 23), .zero)

/-- Rounding an exact number into FP32; an exact zero takes the sign given. -/
def f32Of (d : Dy) (zeroNeg : Bool) : Nat × Cnt :=
  if d.m = 0 then (f32Zero zeroNeg, .zero) else f32Pack (d.m < 0) d.m.natAbs d.e false

/-- An invalid operation: NaN from non-NaN inputs, counted. -/
def f32Invalid : Nat × Cnt := (f32Nan, .oneInv)

/-- A result that is written as read, in canonical form. -/
def f32Write : Fv → Nat
  | .nan => f32Nan
  | .inf s => f32Inf s
  | .zero s => f32Zero s
  | .fin d => (f32Of d false).1

/-- The sign of a value (false for NaN). -/
def Fv.neg : Fv → Bool
  | .nan => false
  | .inf s => s
  | .zero s => s
  | .fin d => d.m < 0

/-- The value of a zero or finite reading. -/
def Fv.dy : Fv → Dy
  | .fin d => d
  | _ => .zero

/-- Whether the reading is zero or finite. -/
def Fv.finite : Fv → Bool
  | .fin _ => true
  | .zero _ => true
  | _ => false

/-- Addition of two readings. -/
def fvAdd (x y : Fv) : Nat × Cnt :=
  match x, y with
  | .nan, _ => (f32Nan, .zero)
  | _, .nan => (f32Nan, .zero)
  | .inf s, .inf t => if s = t then (f32Inf s, .zero) else f32Invalid
  | .inf s, _ => (f32Inf s, .zero)
  | _, .inf t => (f32Inf t, .zero)
  | x, y => f32Of (x.dy.add y.dy) (x.neg && y.neg && (x.dy.m == 0) && (y.dy.m == 0))

/-- Negation of a reading. -/
def Fv.negate : Fv → Fv
  | .nan => .nan
  | .inf s => .inf (!s)
  | .zero s => .zero (!s)
  | .fin d => .fin d.neg

/-- A + B (R69). -/
def f32Add (a b : Nat) : Nat × Cnt := fvAdd (f32Read a) (f32Read b)

/-- A − B. -/
def f32Sub (a b : Nat) : Nat × Cnt := fvAdd (f32Read a) (f32Read b).negate

/-- The exact product of two readings, or none where it is not a number, with the invalid case apart. -/
inductive Prod where
  | nan | invalid | inf (neg : Bool) | fin (d : Dy) (neg : Bool)
deriving DecidableEq, Repr

/-- The product of two readings before rounding. -/
def fvMul (x y : Fv) : Prod :=
  let s := xor x.neg y.neg
  match x, y with
  | .nan, _ => .nan
  | _, .nan => .nan
  | .inf _, .zero _ => .invalid
  | .zero _, .inf _ => .invalid
  | .inf _, _ => .inf s
  | _, .inf _ => .inf s
  | x, y => .fin (x.dy.mul y.dy) s

/-- A × B. -/
def f32Mul (a b : Nat) : Nat × Cnt :=
  match fvMul (f32Read a) (f32Read b) with
  | .nan => (f32Nan, .zero)
  | .invalid => f32Invalid
  | .inf s => (f32Inf s, .zero)
  | .fin d s => f32Of d s

/-- A × B + C, fused: rounded once. -/
def f32Fma (a b c : Nat) : Nat × Cnt :=
  let z := f32Read c
  match fvMul (f32Read a) (f32Read b) with
  | .nan => (f32Nan, .zero)
  | .invalid => if z = .nan then (f32Nan, .zero) else f32Invalid
  | .inf s =>
    match z with
    | .nan => (f32Nan, .zero)
    | .inf t => if s = t then (f32Inf s, .zero) else f32Invalid
    | _ => (f32Inf s, .zero)
  | .fin d s =>
    match z with
    | .nan => (f32Nan, .zero)
    | .inf t => (f32Inf t, .zero)
    | z => f32Of (d.add z.dy) (s && z.neg && (d.m == 0) && (z.dy.m == 0))

/-- The order of IEEE 754 maximum on readings that are not NaN: −0.0 below +0.0. -/
def fvLt (x y : Fv) : Bool :=
  match x, y with
  | .inf s, .inf t => s && !t
  | .inf s, _ => s
  | _, .inf t => !t
  | .zero s, .zero t => s && !t
  | x, y => x.dy.lt y.dy

/-- max(A, B): a NaN operand gives NaN (Table 5.11). -/
def f32Max (a b : Nat) : Nat × Cnt :=
  let x := f32Read a
  let y := f32Read b
  if x = .nan ∨ y = .nan then (f32Nan, .zero) else (f32Write (if fvLt x y then y else x), .zero)

/-- min(A, B). -/
def f32Min (a b : Nat) : Nat × Cnt :=
  let x := f32Read a
  let y := f32Read b
  if x = .nan ∨ y = .nan then (f32Nan, .zero) else (f32Write (if fvLt y x then y else x), .zero)

/-- abs(A). -/
def f32Abs (a : Nat) : Nat × Cnt :=
  let x := f32Read a
  (f32Write (if x.neg then x.negate else x), .zero)

/-- −A. -/
def f32Neg (a : Nat) : Nat × Cnt := (f32Write (f32Read a).negate, .zero)

/-- A, as read: subnormals and NaN payloads do not survive (deviations 2 and 3). -/
def f32Copy (a : Nat) : Nat × Cnt := (f32Write (f32Read a), .zero)

/-- Rounding the positive quotient `a / b * 2 ^ e` into FP32 from its exact value. -/
def f32Quot (neg : Bool) (a b : Nat) (e : Int) : Nat × Cnt :=
  let sh := 64 + Nat.log2 b
  let q := a * 2 ^ sh / b
  f32Pack neg q (e - sh) (a * 2 ^ sh % b ≠ 0)

/-- RCP, rounded once from the exact value (R182): a pole gives infinity of the operand's sign, uncounted. -/
def f32Rcp (a : Nat) : Nat × Cnt :=
  match f32Read a with
  | .nan => (f32Nan, .zero)
  | .inf s => (f32Zero s, .zero)
  | .zero s => (f32Inf s, .zero)
  | .fin d => f32Quot (d.m < 0) 1 d.m.natAbs (-d.e)

/-- An even exponent below `e`, and the mantissa over it. -/
def evenExp (m : Nat) (e : Int) : Nat × Int := if e % 2 = 0 then (m, e) else (2 * m, e - 1)

/-- SQRT, rounded once from the exact value: sqrt(−0) is −0, a negative operand is outside the domain. -/
def f32Sqrt (a : Nat) : Nat × Cnt :=
  match f32Read a with
  | .nan => (f32Nan, .zero)
  | .inf s => if s then f32Invalid else (f32Inf false, .zero)
  | .zero s => (f32Zero s, .zero)
  | .fin d =>
    if d.m < 0 then f32Invalid
    else
      let (m, e) := evenExp d.m.natAbs d.e
      let w := m * 2 ^ 80
      let r := Nat.sqrt w
      f32Pack false r ((e - 80) / 2) (r * r ≠ w)

/-- RSQRT, rounded once: a pole at ±0 of IEEE 754 sign, a negative operand outside the domain. -/
def f32Rsqrt (a : Nat) : Nat × Cnt :=
  match f32Read a with
  | .nan => (f32Nan, .zero)
  | .inf s => if s then f32Invalid else (f32Zero false, .zero)
  | .zero s => (f32Inf s, .zero)
  | .fin d =>
    if d.m < 0 then f32Invalid
    else
      let (m, e) := evenExp d.m.natAbs d.e
      let q := 2 ^ 160 / m
      let r := Nat.sqrt q
      f32Pack false r ((-e - 160) / 2) (r * r * m ≠ 2 ^ 160)

/-- Comparison A > B of FP32 values, false with a NaN. -/
def f32Gt (a b : Nat) : Bool :=
  let x := f32Read a
  let y := f32Read b
  if x = .nan ∨ y = .nan then false
  else match x, y with
    | .zero _, .zero _ => false
    | x, y => fvLt y x

/-! ### FP64, IEEE 754 binary64 with rounding to nearest even (spec/09 R315 to R328) -/

/-- What an FP64 value is. -/
inductive Gv where
  | nan | inf (neg : Bool) | num (v : Dy) (neg : Bool)
deriving DecidableEq, Repr

/-- Reading FP64. -/
def f64Read (b : Nat) : Gv :=
  let s := bit b 63
  let e := bits b 52 11
  let f := bits b 0 52
  let sg : Int := if s then -1 else 1
  if e = 2047 then (if f = 0 then .inf s else .nan)
  else if e = 0 then .num ⟨sg * (f : Int), -1074⟩ s
  else .num ⟨sg * ((2 ^ 52 + f : Nat) : Int), (e : Int) - 1075⟩ s

/-- An FP64 infinity. -/
def f64Inf (neg : Bool) : Nat := bnat neg * 2 ^ 63 + 0x7FF0000000000000

/-- The FP64 NaN. -/
def f64Nan : Nat := 0x7FF8000000000000

/-- Rounding a positive magnitude into FP64; a magnitude with `sticky` has at least 60 bits. -/
def f64Pack (neg : Bool) (a : Nat) (e : Int) (sticky : Bool) : Nat :=
  let s := bnat neg * 2 ^ 63
  if a = 0 then s
  else
    let n : Int := Nat.log2 a + 1
    let lsb := max (n + e - 53) (-1074)
    let a2 := if sticky then 2 * a + 1 else 2 * a
    let q := (Dy.rne ⟨(a2 : Int), e - 1 - lsb⟩).toNat
    if q < 2 ^ 52 then s + q
    else
      let (q', l') := if q = 2 ^ 53 then (2 ^ 52, lsb + 1) else (q, lsb)
      let be := l' + 1075
      if be ≥ 2047 then f64Inf neg else s + be.toNat * 2 ^ 52 + (q' - 2 ^ 52)

/-- Rounding an exact number into FP64. -/
def f64Of (d : Dy) (zeroNeg : Bool) : Nat :=
  if d.m = 0 then bnat zeroNeg * 2 ^ 63 else f64Pack (d.m < 0) d.m.natAbs d.e false

/-- An unsigned integer in FP64. -/
def f64Nat (n : Nat) : Nat := f64Of ⟨n, 0⟩ false

/-- FP64 sum. -/
def f64Add (a b : Nat) : Nat :=
  match f64Read a, f64Read b with
  | .nan, _ => f64Nan
  | _, .nan => f64Nan
  | .inf s, .inf t => if s = t then f64Inf s else f64Nan
  | .inf s, _ => f64Inf s
  | _, .inf t => f64Inf t
  | .num x s, .num y t => f64Of (x.add y) (s && t)

/-- FP64 negation. -/
def f64Neg (a : Nat) : Nat := Nat.xor a (2 ^ 63)

/-- FP64 difference. -/
def f64Sub (a b : Nat) : Nat := f64Add a (f64Neg b)

/-- FP64 product. -/
def f64Mul (a b : Nat) : Nat :=
  match f64Read a, f64Read b with
  | .nan, _ => f64Nan
  | _, .nan => f64Nan
  | .inf s, .inf t => f64Inf (xor s t)
  | .inf s, .num y t => if y.m = 0 then f64Nan else f64Inf (xor s t)
  | .num x s, .inf t => if x.m = 0 then f64Nan else f64Inf (xor s t)
  | .num x s, .num y t => f64Of (x.mul y) (xor s t)

/-- FP64 quotient. -/
def f64Div (a b : Nat) : Nat :=
  match f64Read a, f64Read b with
  | .nan, _ => f64Nan
  | _, .nan => f64Nan
  | .inf _, .inf _ => f64Nan
  | .inf s, .num _ t => f64Inf (xor s t)
  | .num _ s, .inf t => bnat (xor s t) * 2 ^ 63
  | .num x s, .num y t =>
    let sg := xor s t
    if y.m = 0 then (if x.m = 0 then f64Nan else f64Inf sg)
    else if x.m = 0 then bnat sg * 2 ^ 63
    else
      let xa := x.m.natAbs
      let ya := y.m.natAbs
      f64Pack sg (xa * 2 ^ 128 / ya) (x.e - y.e - 128) (xa * 2 ^ 128 % ya ≠ 0)

/-- FP64 square root. -/
def f64Sqrt (a : Nat) : Nat :=
  match f64Read a with
  | .nan => f64Nan
  | .inf s => if s then f64Nan else f64Inf false
  | .num x s =>
    if x.m = 0 then bnat s * 2 ^ 63
    else if s then f64Nan
    else
      let (m, e) := evenExp x.m.natAbs x.e
      let w := m * 2 ^ 160
      let r := Nat.sqrt w
      f64Pack false r ((e - 160) / 2) (r * r ≠ w)

/-- FP64 power with a natural exponent, rounded once from the exact value. -/
def f64Pow (a n : Nat) : Nat :=
  match f64Read a with
  | .nan => if n = 0 then f64Nat 1 else f64Nan
  | .inf s => if n = 0 then f64Nat 1 else f64Inf (s && n % 2 == 1)
  | .num x s => f64Of ⟨x.m ^ n, x.e * n⟩ (s && n % 2 == 1)

/-- FP64 comparison A > B, false with a NaN. -/
def f64Gt (a b : Nat) : Bool :=
  match f64Read a, f64Read b with
  | .nan, _ => false
  | _, .nan => false
  | .inf s, .inf t => !s && t
  | .inf s, _ => !s
  | _, .inf t => t
  | .num x _, .num y _ => y.lt x

/-- FP32 to FP64, exact: the norm check works in FP64 on FP32 settings (R317). -/
def f64OfF32 (b : Nat) : Nat :=
  match f32Read b with
  | .nan => f64Nan
  | .inf s => f64Inf s
  | .zero s => bnat s * 2 ^ 63
  | .fin d => f64Of d false

/-- FP64 to FP32, nearest even, with deviation 2 (R318). -/
def f32OfF64 (b : Nat) : Nat :=
  match f64Read b with
  | .nan => f32Nan
  | .inf s => f32Inf s
  | .num d s => (f32Of d s).1

end Sys2Proof.Machine
end

