-- ==== Sys2Proof/Machine/Formats.lean ====
section
/-! DEFINITION. The number formats of spec/02: INT8, INT4, BX8, BX4, WAP, their readings, and every conversion
between them (R51 to R84). -/

namespace Sys2Proof.Machine

/-- The rounding of a conversion: RNE (R79), or SR with SR_KEY and the base counter (R80, R83). -/
inductive Rnd where
  | rne | sr (key base : Nat)
deriving DecidableEq, Repr

/-- rnd_sr of R80 with the top 24 bits `u` of the mast output. -/
def rndSr (x : Dy) (key counter : Nat) : Int :=
  let fl := x.floor
  let f := Dy.floor ((x.add ⟨-fl, 0⟩).scale 24)
  let u : Int := ((mast key counter / 2 ^ 40 : Nat) : Int)
  if f + u ≥ 2 ^ 24 then fl + 1 else fl

/-- rnd(x, i) of R79 and R80. -/
def rnd (mode : Rnd) (x : Dy) (i : Nat) : Int :=
  match mode with
  | .rne => x.rne
  | .sr key base => rndSr x key ((base + i) % 2 ^ 64)

/-! ### Integer and BX mantissas -/

/-- An 8-bit mantissa as read: 0x80 is −127 and counts (R52). -/
def mant8 (b : Byte) : Int × Cnt :=
  if b = 0x80 then (-127, .oneOvf) else (signed 8 b.toNat, .zero)

/-- A 4-bit mantissa as read: 0b1000 is −7 and counts (R52). -/
def mant4 (n : Nat) : Int × Cnt :=
  if n % 16 = 8 then (-7, .oneOvf) else (signed 4 n, .zero)

/-- Whether a matrix format has 4-bit elements (Table 2.1: INT4 1, BX4 3). -/
def fmtIs4 (fmt : Nat) : Bool := fmt == 1 || fmt == 3

/-- Whether a format is BX (BX8 2, BX4 3). -/
def fmtIsBx (fmt : Nat) : Bool := fmt == 2 || fmt == 3

/-- The integer elements of packed bytes, in element order (R54), with the R52 counts. -/
def elems (is4 : Bool) (b : Bytes) : List (Int × Cnt) :=
  if is4 then b.flatMap fun x => [mant4 (x.toNat % 16), mant4 (x.toNat / 16)]
  else b.map mant8

/-- The sum of the counts of a list of readings. -/
def cntSum (l : List (Int × Cnt)) : Cnt := l.foldl (fun a x => a.add x.2) .zero

/-- The mantissas of one sub-block as the feeder or the fill forms them (R52, R56, R89): every mantissa is read first, with its count; an
invalid sub-block then counts once and its elements are zero. -/
def formSub (fmt E : Nat) (b : Bytes) : List Int × Cnt :=
  let l := elems (fmtIs4 fmt) b
  if fmtIsBx fmt && E == 0 && l.any (fun x => x.1 != 0) then (l.map (fun _ => 0), (cntSum l).add .oneInv)
  else (l.map (·.1), cntSum l)

/-- The bytes of one 32-element sub-block: 32 in 8-bit formats, 16 in 4-bit formats. -/
def subBytes (fmt : Nat) : Nat := if fmtIs4 fmt then 16 else 32

/-- The sub-blocks of a byte string and their exponents, formed in order. -/
def formSubs (fmt : Nat) : Nat → List Nat → Bytes → List (List Int) × Cnt
  | 0, _, _ => ([], .zero)
  | n + 1, es, b =>
    let (m, c) := formSub fmt (es.headD 0) (b.take (subBytes fmt))
    let (ms, c') := formSubs fmt n es.tail (b.drop (subBytes fmt))
    (m :: ms, c.add c')

/-- The exponent of a band sum (R59), or none where either sub-block is non-finite (R60). -/
def pairExp (fmt ea eb : Nat) : Option Int :=
  if fmtIsBx fmt then
    if ea = 255 ∨ eb = 255 then none
    else some ((ea : Int) + eb - (if fmt = 2 then 266 else 258))
  else some 0

/-! ### WA and WAP (R61 to R67) -/

/-- A wide partial value: non-finite, or an exact number whose mantissa is normalised or zero. -/
inductive Wa where
  | nonfin | num (v : Dy)
deriving DecidableEq, Repr

/-- The stored form of a WA (Table 2.4). The device writes zero, non-finite and normalised entries only. -/
def wapOf : Wa → Nat
  | .nonfin => 0x03FF000000000000
  | .num v => if v.m = 0 then 0 else (v.e + 512).toNat * 2 ^ 48 + unsigned 48 v.m

/-- Reading a WAP entry (Table 2.4): an invalid one is non-finite and counts. -/
def wapRead (n : Nat) : Wa × Cnt :=
  let x := bits n 48 10
  let m := signed 48 n
  let hi := bits n 58 6
  if hi ≠ 0 then (.nonfin, .oneInv)
  else if x = 0 ∧ m = 0 then (.num .zero, .zero)
  else if x = 0x3FF ∧ m = 0 then (.nonfin, .zero)
  else if 1 ≤ x ∧ x ≤ 1022 ∧ m ≠ 0 then (.num ⟨m, (x : Int) - 512⟩, .zero)
  else (.nonfin, .oneInv)

/-- Rounding an exact sum to a normalised WA (R63 to R65). -/
def waRound (d : Dy) : Wa × Cnt :=
  if d.m = 0 then (.num .zero, .zero)
  else
    let (q, k) := roundSig 46 d.m.natAbs d.e false
    let sg : Int := if d.m < 0 then -1 else 1
    if k + 512 > 1022 then (.num ⟨sg * (2 ^ 46 - 1 : Nat), 510⟩, .oneOvf)
    else if k + 512 < 1 then (.num .zero, .oneFl)
    else (.num ⟨sg * (q : Int), k⟩, .zero)

/-- round-WA over addends (R63, R64). -/
def roundWa (l : List Wa) : Wa × Cnt :=
  if l.any (· == .nonfin) then (.nonfin, .zero)
  else waRound (Dy.sum (l.map fun | .num v => v | .nonfin => .zero))

/-- WA to FP32 (R74). -/
def waToF32 : Wa → Nat × Cnt
  | .nonfin => (f32Nan, .zero)
  | .num v => f32Of v false

/-- Clamping to [lo, hi], counting a clamp (R75, R78). -/
def clampCnt (lo hi x : Int) : Int × Cnt :=
  if x < lo then (lo, .oneOvf) else if x > hi then (hi, .oneOvf) else (x, .zero)

/-- The INT32 range. -/
def clampI32 (x : Int) : Int × Cnt := clampCnt (-(2 ^ 31 : Nat)) ((2 ^ 31 - 1 : Nat)) x

/-- WA to INT32 (R75). -/
def waToI32 : Wa → Nat × Cnt
  | .nonfin => (0, .oneInv)
  | .num v =>
    let (x, c) := clampI32 v.rne
    (unsigned 32 x, c)

/-! ### Into BX (R76, R77) -/

/-- The exact value of a source of to_bx, or none where it is NaN or infinite. -/
def bxSrcF32 (b : Nat) : Option Dy :=
  match f32Read b with
  | .nan => none
  | .inf _ => none
  | .zero _ => some .zero
  | .fin d => some d

/-- The exact value of a WA source of to_bx. -/
def bxSrcWa : Wa → Option Dy
  | .nonfin => none
  | .num v => some v

/-- The rounded and clamped mantissas from element `i` on. -/
def bxMants (mode : Rnd) (k lim : Int) : Nat → List Dy → List Int
  | _, [] => []
  | i, v :: vs => min (max (rnd mode (v.scale k) i) (-lim)) lim :: bxMants mode k lim (i + 1) vs

/-- to_bx of R76 over the 32 sources, with the counts of R77; `fmt` is 2 or 3, `i0` the index of the first. -/
def toBx (fmt : Nat) (mode : Rnd) (i0 : Nat) (v : List (Option Dy)) : Nat × List Int × Cnt :=
  let z := v.map fun _ => (0 : Int)
  if v.any (·.isNone) then (255, z, .zero)
  else
    let d := v.map (·.getD .zero)
    let logs := (d.filter (·.m != 0)).map Dy.log2
    match logs with
    | [] => (0, z, .zero)
    | l :: ls =>
      let q := ls.foldl max l
      let p : Int := if fmt = 2 then 6 else 2
      let lim : Int := if fmt = 2 then 127 else 7
      let e := q + 127
      if e < 1 then (0, z, .oneFl)
      else
        let (e, c) : Int × Cnt := if e > 254 then (254, .oneOvf) else (e, .zero)
        let m := bxMants mode (p - (e - 127)) lim i0 d
        if m.all (· == 0) then (0, z, c) else (e.toNat, m, c)

/-- Packing integer elements into bytes (R54). -/
def packElems (is4 : Bool) : List Int → Bytes
  | [] => []
  | [a] => [BitVec.ofNat 8 (if is4 then unsigned 4 a else unsigned 8 a)]
  | a :: b :: rest =>
    if is4 then BitVec.ofNat 8 (unsigned 4 a + 16 * unsigned 4 b) :: packElems is4 rest
    else BitVec.ofNat 8 (unsigned 8 a) :: packElems is4 (b :: rest)

/-- Converting sub-blocks of 32 sources in order: payload bytes, exponent bytes, counts. -/
def toBxs (fmt : Nat) (mode : Rnd) : Nat → Nat → List (Option Dy) → Bytes × Bytes × Cnt
  | 0, _, _ => ([], [], .zero)
  | n + 1, i0, v =>
    let (e, m, c) := toBx fmt mode i0 (v.take 32)
    let (ps, es, c') := toBxs fmt mode n (i0 + 32) (v.drop 32)
    (packElems (fmt == 3) m ++ ps, BitVec.ofNat 8 e :: es, c.add c')

/-! ### Out of BX and between integers and FP32 (R73, R78, Table 5.12) -/

/-- One BX element to FP32 (R73). -/
def bxElemToF32 (fmt E : Nat) (m : Int) : Nat × Cnt :=
  if E = 255 then (f32Nan, .zero)
  else if E = 0 then (f32Zero false, .zero)
  else f32Of ⟨m, (E : Int) - (if fmt = 2 then 133 else 129)⟩ false

/-- A result list with its counts summed. -/
def collect (l : List (Nat × Cnt)) : List Nat × Cnt := (l.map (·.1), l.foldl (fun a x => a.add x.2) .zero)

/-- One BX sub-block to 32 FP32 values (R73). A non-finite one gives 32 NaN and counts nothing. -/
def bxSubToF32 (fmt E : Nat) (b : Bytes) : List Nat × Cnt :=
  let (m, c) := formSub fmt E b
  let (r, c') := collect (m.map (bxElemToF32 fmt E))
  (r, c.add c')

/-- Sub-blocks to FP32 in order. -/
def bxSubsToF32 (fmt : Nat) : Nat → List Nat → Bytes → List Nat × Cnt
  | 0, _, _ => ([], .zero)
  | n + 1, es, b =>
    let (r, c) := bxSubToF32 fmt (es.headD 0) (b.take (subBytes fmt))
    let (rs, c') := bxSubsToF32 fmt n es.tail (b.drop (subBytes fmt))
    (r ++ rs, c.add c')

/-- FP32 to an integer of limit `lo..hi` (R78): multiply by 2^s, round, clamp. -/
def f32ToInt (mode : Rnd) (s : Int) (lo hi : Int) (i b : Nat) : Int × Cnt :=
  match f32Read b with
  | .nan => (0, .oneInv)
  | .inf n => (if n then lo else hi, .oneOvf)
  | .zero _ => (0, .zero)
  | .fin d => clampCnt lo hi (rnd mode (d.scale s) i)

/-- An integer times 2^(−S) in FP32 (Table 5.12). -/
def intToF32 (s : Int) (x : Int) : Nat × Cnt := f32Of ⟨x, -s⟩ false

/-- The FP32 words of a value list as bytes. -/
def f32Bytes (l : List Nat) : Bytes := l.flatMap (toLe 4)

/-- Indexed map: element i with its index. -/
def mapIdxFrom {α β : Type} (f : Nat → α → β) : Nat → List α → List β
  | _, [] => []
  | i, x :: xs => f i x :: mapIdxFrom f (i + 1) xs

/-- One step of the pairwise tree of R72. -/
def pairStep : List Nat → List (Nat × Cnt)
  | a :: b :: rest => f32Add a b :: pairStep rest
  | [a] => [(a, .zero)]
  | [] => []

/-- The pairwise tree of R72: `n` halvings. -/
def pairTree : Nat → List Nat → Nat × Cnt
  | 0, l => (l.headD 0, .zero)
  | n + 1, l =>
    let (s, c) := collect (pairStep l)
    let (r, c') := pairTree n s
    (r, c.add c')

end Sys2Proof.Machine
end

