-- ==== Sys2Proof/Machine/Stream.lean ====
section
/-! DEFINITION. The stream instructions of spec/05: the 128-bit word, its fields, the encoding checks of R159, and the
encoder written from the same tables. -/

namespace Sys2Proof.Machine

/-- A 6-bit operand descriptor (Table 5.2). -/
structure Opd where
  step : Bool
  q    : Bool
  ari  : Nat
deriving DecidableEq, Repr

/-- The forms of ARSET (Table 5.6). -/
inductive ArForm where
  | imm (usep : Bool) (pari imm : Nat)
  | strides (w0 w1 s0 s1 : Nat)
  | par (pblk imm : Nat)
  | copy (ars : Nat)
deriving DecidableEq, Repr

/-- A stream instruction with its operand fields (Tables 5.6 to 5.14). Signed fields hold their bit patterns. -/
inductive SOp where
  | nop
  | arset (ari : Nat) (f : ArForm)
  | cntset (cnti : Nat) (auto : Bool) (mod val : Nat)
  | cntadd (cnti amt : Nat)
  | cmpset (cmpi src cond value : Nat)
  | signal (word : Opd) (amt : Nat)
  | wait (word : Opd) (cond vadd gate : Nat) (park : Bool) (poll value : Nat)
  | phase (lead level dur : Nat)
  | mpass (fmt dmode : Nat) (keep rnd : Bool) (dst : Opd) (nv salt : Nat)
  | munload (dmode : Nat) (rnd : Bool) (dst src : Opd) (nr salt : Nat)
  | vew (op : Nat) (i32 : Bool) (a b c d : Opd) (bimm : Bool) (imm : Nat)
  | vtr (fn : Nat) (a d : Opd)
  | vred (rop : Nat) (a d : Opd) (k : Nat)
  | vcvt (sfmt dfmt : Nat) (rnd : Bool) (a d : Opd) (s salt : Nat)
  | vdrop (a d : Opd) (pari thr scale : Nat)
  | ltile (fmt : Nat) (src : Opd)
  | lvec (fmt : Nat) (src : Opd)
  | lq (fmt : Nat) (src : Opd)
  | lfetch (src dst : Opd) (nb : Nat)
  | xput (src dst : Opd) (nb : Nat) (accum : Bool) (strm seqp : Nat)
  | xget (src dst : Opd) (nb : Nat)
  | shift (src dst : Opd) (nb axis : Nat) (accum : Bool) (strm seqp : Nat)
  | permute (tbl src : Opd) (strm seqp : Nat)
deriving DecidableEq, Repr

/-- OPCODE of a word (Table 5.1). -/
def opcodeOf (w : Nat) : Nat := bits w 120 8

/-- REP of a word (Table 5.1): the instruction executes REP + 1 repeats (R154). -/
def repOf (w : Nat) : Nat := bits w 104 16

/-- The operand descriptor whose lowest bit is `lo`. -/
def opdAt (w lo : Nat) : Opd := ⟨bit w (lo + 5), bit w (lo + 4), bits w lo 4⟩

/-- The 6 bits of a descriptor. -/
def Opd.enc (o : Opd) : Nat := bnat o.step * 32 + bnat o.q * 16 + o.ari % 16

/-- A descriptor is legal: with Q = 1, ARI and STEP are zero (R156). -/
def Opd.legal (o : Opd) : Bool := !o.q || (!o.step && o.ari == 0)

/-- A descriptor that must name memory. -/
def Opd.mem (o : Opd) : Bool := !o.q

/-- Bits `[lo + w - 1 : lo]` are zero: a reserved field (R12). -/
def rz (v lo w : Nat) : Bool := bits v lo w == 0

/-- The size group of a VCVT pair (Table 5.12): whether the pair is allowed, whether it rounds, whether it uses S. -/
def vcvtPair (sfmt dfmt : Nat) : Option (Bool × Bool) :=
  match sfmt, dfmt with
  | 4, 2 => some (true, false)
  | 4, 3 => some (true, false)
  | 4, 0 => some (true, true)
  | 4, 1 => some (true, true)
  | 4, 5 => some (true, true)
  | 2, 4 => some (false, false)
  | 3, 4 => some (false, false)
  | 0, 4 => some (false, true)
  | 1, 4 => some (false, true)
  | 5, 4 => some (false, true)
  | 6, 4 => some (false, false)
  | 6, 5 => some (false, false)
  | _, _ => none

/-- Whether VEW operation `op` uses operand B (R565). -/
def vewUsesB (op : Nat) : Bool := op ≤ 5

/-- Whether VEW operation `op` uses operand C (R565). -/
def vewUsesC (op : Nat) : Bool := op == 3

/-- The instruction when the check holds, else BAD_ENCODING. -/
def okIf (b : Bool) (o : SOp) : Option SOp := if b then some o else none

/-- Decoding ARSET's forms (Table 5.6). -/
def decodeArset (w : Nat) : Option SOp :=
  let ari := bits w 100 4
  match bits w 98 2 with
  | 0 => okIf (rz w 96 1 && rz w 92 4 && rz w 56 31) (.arset ari (.imm (bit w 97) (bits w 87 5) (bits w 0 56)))
  | 1 => okIf (rz w 96 2) (.arset ari (.strides (bits w 80 16) (bits w 64 16) (bits w 32 32) (bits w 0 32)))
  | 2 => okIf (rz w 96 2 && rz w 56 24) (.arset ari (.par (bits w 80 16) (bits w 0 56)))
  | _ => okIf (rz w 96 2 && rz w 0 92) (.arset ari (.copy (bits w 92 4)))

/-- Decoding of the operand fields under one opcode, with every check of R159 but the engine's.
`none` is BAD_ENCODING. -/
def decodeOp (opc w : Nat) : Option SOp :=
  match opc with
  | 0x00 => okIf (rz w 0 104) .nop
  | 0x01 => if rz w 104 16 then decodeArset w else none
  | 0x02 => okIf (rz w 104 16 && rz w 96 5 && rz w 0 32)
      (.cntset (bits w 102 2) (bit w 101) (bits w 64 32) (bits w 32 32))
  | 0x03 => okIf (rz w 96 6 && rz w 0 64) (.cntadd (bits w 102 2) (bits w 64 32))
  | 0x04 => okIf (rz w 104 16 && rz w 96 2 && rz w 0 64 && bits w 98 3 ≤ 5)
      (.cmpset (bits w 103 1) (bits w 101 2) (bits w 98 3) (bits w 64 32))
  | 0x05 => okIf ((opdAt w 98).mem && rz w 64 34 && rz w 0 32 && !rz w 32 32)
      (.signal (opdAt w 98) (bits w 32 32))
  | 0x06 => okIf ((opdAt w 98).mem && 1 ≤ bits w 95 3 && bits w 95 3 ≤ 4 && bits w 92 3 ≤ 4 && bits w 90 2 ≤ 2
        && rz w 88 1 && rz w 64 20 && rz w 0 32)
      (.wait (opdAt w 98) (bits w 95 3) (bits w 92 3) (bits w 90 2) (bit w 89) (bits w 84 4) (bits w 32 32))
  | 0x07 => okIf (rz w 104 16 && !rz w 96 8 && !rz w 92 4 && !rz w 72 16 && rz w 88 4 && rz w 0 72)
      (.phase (bits w 96 8) (bits w 92 4) (bits w 72 16))
  | 0x10 => okIf (bits w 100 4 ≤ 3 && bits w 96 4 ≤ 5 && (!bit w 94 || 4 ≤ bits w 96 4) && (opdAt w 88).legal
        && (!(opdAt w 88).q || 2 ≤ bits w 96 4) && rz w 64 15 && rz w 0 48)
      (.mpass (bits w 100 4) (bits w 96 4) (bit w 95) (bit w 94) (opdAt w 88) (bits w 79 9 + 1) (bits w 48 16))
  | 0x11 => okIf (rz w 100 4 && 2 ≤ bits w 96 4 && bits w 96 4 ≤ 5 && rz w 95 1 && (!bit w 94 || 4 ≤ bits w 96 4)
        && (opdAt w 88).legal && (opdAt w 82).mem && rz w 64 9 && rz w 0 48)
      (.munload (bits w 96 4) (bit w 94) (opdAt w 88) (opdAt w 82) (bits w 73 9 + 1) (bits w 48 16))
  | 0x20 => okIf (bits w 99 5 ≤ 8 && (opdAt w 92).legal && (opdAt w 86).legal && (opdAt w 80).legal && (opdAt w 74).mem
        && (!bit w 73 || rz w 86 6) && rz w 64 9 && rz w 0 32
        && (vewUsesB (bits w 99 5) || (opdAt w 86).mem) && (vewUsesC (bits w 99 5) || (opdAt w 80).mem))
      (.vew (bits w 99 5) (bit w 98) (opdAt w 92) (opdAt w 86) (opdAt w 80) (opdAt w 74) (bit w 73) (bits w 32 32))
  | 0x21 => okIf (bits w 100 4 ≤ 8 && (opdAt w 94).legal && (opdAt w 88).mem && rz w 0 88)
      (.vtr (bits w 100 4) (opdAt w 94) (opdAt w 88))
  | 0x22 => okIf (bits w 102 2 ≤ 2 && (opdAt w 96).legal && (opdAt w 90).mem && rz w 0 78)
      (.vred (bits w 102 2) (opdAt w 96) (opdAt w 90) (bits w 78 12 + 1))
  | 0x23 =>
    match vcvtPair (bits w 100 4) (bits w 96 4) with
    | none => none
    | some (rounds, usesS) =>
      okIf ((rounds || !bit w 95) && (usesS || rz w 75 8) && (opdAt w 89).legal && (opdAt w 83).mem && rz w 64 11 && rz w 0 48)
        (.vcvt (bits w 100 4) (bits w 96 4) (bit w 95) (opdAt w 89) (opdAt w 83) (bits w 75 8) (bits w 48 16))
  | 0x24 => okIf ((opdAt w 98).legal && (opdAt w 92).mem && rz w 0 31)
      (.vdrop (opdAt w 98) (opdAt w 92) (bits w 87 5) (bits w 63 24) (bits w 31 32))
  | 0x30 => okIf (bits w 100 4 ≤ 3 && (opdAt w 94).mem && rz w 0 94) (.ltile (bits w 100 4) (opdAt w 94))
  | 0x31 => okIf (bits w 100 4 ≤ 3 && (opdAt w 94).mem && rz w 0 94) (.lvec (bits w 100 4) (opdAt w 94))
  | 0x32 => okIf (bits w 100 4 ≤ 7 && (opdAt w 94).mem && rz w 0 94) (.lq (bits w 100 4) (opdAt w 94))
  | 0x33 => okIf (rz w 100 4 && (opdAt w 94).mem && (opdAt w 88).mem && rz w 0 83)
      (.lfetch (opdAt w 94) (opdAt w 88) (bits w 83 5 + 1))
  | 0x40 => okIf ((opdAt w 98).mem && (opdAt w 92).mem && rz w 0 76)
      (.xput (opdAt w 98) (opdAt w 92) (bits w 86 6 + 1) (bit w 85) (bits w 81 4) (bits w 76 5))
  | 0x41 => okIf ((opdAt w 98).mem && (opdAt w 92).mem && rz w 0 86)
      (.xget (opdAt w 98) (opdAt w 92) (bits w 86 6 + 1))
  | 0x42 => okIf ((opdAt w 98).mem && (opdAt w 92).mem && bits w 83 3 ≤ 5 && rz w 0 73)
      (.shift (opdAt w 98) (opdAt w 92) (bits w 86 6 + 1) (bits w 83 3) (bit w 82) (bits w 78 4) (bits w 73 5))
  | 0x43 => okIf ((opdAt w 98).mem && (opdAt w 92).mem && rz w 86 6 && rz w 0 76 && rz w 76 1)
      (.permute (opdAt w 98) (opdAt w 92) (bits w 82 4) (bits w 77 5))
  | _ => none

/-- Decoding a whole word: REP and the operation, or BAD_ENCODING. -/
def decodeStream (w : Nat) : Option (Nat × SOp) :=
  match decodeOp (opcodeOf w) w with
  | some op => some (repOf w, op)
  | none => none

/-- The opcode of an operation (Table 5.3). -/
def SOp.opcode : SOp → Nat
  | .nop => 0x00
  | .arset .. => 0x01
  | .cntset .. => 0x02
  | .cntadd .. => 0x03
  | .cmpset .. => 0x04
  | .signal .. => 0x05
  | .wait .. => 0x06
  | .phase .. => 0x07
  | .mpass .. => 0x10
  | .munload .. => 0x11
  | .vew .. => 0x20
  | .vtr .. => 0x21
  | .vred .. => 0x22
  | .vcvt .. => 0x23
  | .vdrop .. => 0x24
  | .ltile .. => 0x30
  | .lvec .. => 0x31
  | .lq .. => 0x32
  | .lfetch .. => 0x33
  | .xput .. => 0x40
  | .xget .. => 0x41
  | .shift .. => 0x42
  | .permute .. => 0x43

/-- Whether an opcode may stand in the list of an engine (Table 5.3): the common ones in any. -/
def opcodeOfEngine (e : Engine) (opc : Nat) : Bool :=
  opc ≤ 7 ||
  match e with
  | .mxe => opc == 0x10 || opc == 0x11
  | .vxe => opc == 0x20 || opc == 0x21 || opc == 0x22 || opc == 0x23 || opc == 0x24
  | .lde => opc == 0x30 || opc == 0x31 || opc == 0x32 || opc == 0x33
  | .xce => opc == 0x40 || opc == 0x41 || opc == 0x42 || opc == 0x43

/-- The operand bits [103:0] of an operation, from the tables. -/
def SOp.encFields : SOp → Nat
  | .nop => 0
  | .arset ari (.imm usep pari imm) => ari * 2 ^ 100 + bnat usep * 2 ^ 97 + pari * 2 ^ 87 + imm
  | .arset ari (.strides w0 w1 s0 s1) => ari * 2 ^ 100 + 2 ^ 98 + w0 * 2 ^ 80 + w1 * 2 ^ 64 + s0 * 2 ^ 32 + s1
  | .arset ari (.par pblk imm) => ari * 2 ^ 100 + 2 * 2 ^ 98 + pblk * 2 ^ 80 + imm
  | .arset ari (.copy ars) => ari * 2 ^ 100 + 3 * 2 ^ 98 + ars * 2 ^ 92
  | .cntset i auto mod val => i * 2 ^ 102 + bnat auto * 2 ^ 101 + mod * 2 ^ 64 + val * 2 ^ 32
  | .cntadd i amt => i * 2 ^ 102 + amt * 2 ^ 64
  | .cmpset i src cond value => i * 2 ^ 103 + src * 2 ^ 101 + cond * 2 ^ 98 + value * 2 ^ 64
  | .signal word amt => word.enc * 2 ^ 98 + amt * 2 ^ 32
  | .wait word cond vadd gate park poll value =>
    word.enc * 2 ^ 98 + cond * 2 ^ 95 + vadd * 2 ^ 92 + gate * 2 ^ 90 + bnat park * 2 ^ 89 + poll * 2 ^ 84 + value * 2 ^ 32
  | .phase lead level dur => lead * 2 ^ 96 + level * 2 ^ 92 + dur * 2 ^ 72
  | .mpass fmt dmode keep rnd dst nv salt =>
    fmt * 2 ^ 100 + dmode * 2 ^ 96 + bnat keep * 2 ^ 95 + bnat rnd * 2 ^ 94 + dst.enc * 2 ^ 88 + (nv - 1) * 2 ^ 79 + salt * 2 ^ 48
  | .munload dmode rnd dst src nr salt =>
    dmode * 2 ^ 96 + bnat rnd * 2 ^ 94 + dst.enc * 2 ^ 88 + src.enc * 2 ^ 82 + (nr - 1) * 2 ^ 73 + salt * 2 ^ 48
  | .vew op i32 a b c d bimm imm =>
    op * 2 ^ 99 + bnat i32 * 2 ^ 98 + a.enc * 2 ^ 92 + b.enc * 2 ^ 86 + c.enc * 2 ^ 80 + d.enc * 2 ^ 74
      + bnat bimm * 2 ^ 73 + imm * 2 ^ 32
  | .vtr fn a d => fn * 2 ^ 100 + a.enc * 2 ^ 94 + d.enc * 2 ^ 88
  | .vred rop a d k => rop * 2 ^ 102 + a.enc * 2 ^ 96 + d.enc * 2 ^ 90 + (k - 1) * 2 ^ 78
  | .vcvt sfmt dfmt rnd a d s salt =>
    sfmt * 2 ^ 100 + dfmt * 2 ^ 96 + bnat rnd * 2 ^ 95 + a.enc * 2 ^ 89 + d.enc * 2 ^ 83 + s * 2 ^ 75 + salt * 2 ^ 48
  | .vdrop a d pari thr scale => a.enc * 2 ^ 98 + d.enc * 2 ^ 92 + pari * 2 ^ 87 + thr * 2 ^ 63 + scale * 2 ^ 31
  | .ltile fmt src => fmt * 2 ^ 100 + src.enc * 2 ^ 94
  | .lvec fmt src => fmt * 2 ^ 100 + src.enc * 2 ^ 94
  | .lq fmt src => fmt * 2 ^ 100 + src.enc * 2 ^ 94
  | .lfetch src dst nb => src.enc * 2 ^ 94 + dst.enc * 2 ^ 88 + (nb - 1) * 2 ^ 83
  | .xput src dst nb accum strm seqp =>
    src.enc * 2 ^ 98 + dst.enc * 2 ^ 92 + (nb - 1) * 2 ^ 86 + bnat accum * 2 ^ 85 + strm * 2 ^ 81 + seqp * 2 ^ 76
  | .xget src dst nb => src.enc * 2 ^ 98 + dst.enc * 2 ^ 92 + (nb - 1) * 2 ^ 86
  | .shift src dst nb axis accum strm seqp =>
    src.enc * 2 ^ 98 + dst.enc * 2 ^ 92 + (nb - 1) * 2 ^ 86 + axis * 2 ^ 83 + bnat accum * 2 ^ 82 + strm * 2 ^ 78 + seqp * 2 ^ 73
  | .permute tbl src strm seqp => tbl.enc * 2 ^ 98 + src.enc * 2 ^ 92 + strm * 2 ^ 82 + seqp * 2 ^ 77

/-- The 128-bit word of an operation with REP (Table 5.1). -/
def encodeStream (rep : Nat) (op : SOp) : Nat := op.opcode * 2 ^ 120 + rep * 2 ^ 104 + op.encFields

/-- An operand descriptor in range and legal. -/
def Opd.wf (o : Opd) : Bool := o.ari < 16 && o.legal

/-- The operation lies within every field's range and every rule of R159: the values an encoding admits. -/
def SOp.wf (rep : Nat) : SOp → Bool
  | .nop => true
  | .arset ari f => rep == 0 && ari < 16 &&
    match f with
    | .imm _ pari imm => pari < 32 && imm < 2 ^ 56
    | .strides w0 w1 s0 s1 => w0 < 2 ^ 16 && w1 < 2 ^ 16 && s0 < 2 ^ 32 && s1 < 2 ^ 32
    | .par pblk imm => pblk < 2 ^ 16 && imm < 2 ^ 56
    | .copy ars => ars < 16
  | .cntset i _ mod val => rep == 0 && i < 4 && mod < 2 ^ 32 && val < 2 ^ 32
  | .cntadd i amt => i < 4 && amt < 2 ^ 32
  | .cmpset i src cond value => rep == 0 && i < 2 && src < 4 && cond ≤ 5 && value < 2 ^ 32
  | .signal word amt => word.wf && word.mem && 0 < amt && amt < 2 ^ 32
  | .wait word cond vadd gate _ poll value =>
    word.wf && word.mem && 1 ≤ cond && cond ≤ 4 && vadd ≤ 4 && gate ≤ 2 && poll < 16 && value < 2 ^ 32
  | .phase lead level dur =>
    rep == 0 && 0 < lead && lead < 256 && 0 < level && level < 16 && 0 < dur && dur < 2 ^ 16
  | .mpass fmt dmode _ rnd dst nv salt =>
    fmt ≤ 3 && dmode ≤ 5 && (!rnd || 4 ≤ dmode) && dst.wf && (!dst.q || 2 ≤ dmode) && 1 ≤ nv && nv ≤ 512 && salt < 2 ^ 16
  | .munload dmode rnd dst src nr salt =>
    2 ≤ dmode && dmode ≤ 5 && (!rnd || 4 ≤ dmode) && dst.wf && src.wf && src.mem && 1 ≤ nr && nr ≤ 512 && salt < 2 ^ 16
  | .vew op _ a b c d bimm imm =>
    op ≤ 8 && a.wf && b.wf && c.wf && d.wf && d.mem && (!bimm || (!b.step && !b.q && b.ari == 0)) && imm < 2 ^ 32
      && (vewUsesB op || b.mem) && (vewUsesC op || c.mem)
  | .vtr fn a d => fn ≤ 8 && a.wf && d.wf && d.mem
  | .vred rop a d k => rop ≤ 2 && a.wf && d.wf && d.mem && 1 ≤ k && k ≤ 4096
  | .vcvt sfmt dfmt rnd a d s salt =>
    (match vcvtPair sfmt dfmt with
      | none => false
      | some (rounds, usesS) => (rounds || !rnd) && (usesS || s == 0))
    && a.wf && d.wf && d.mem && s < 256 && salt < 2 ^ 16
  | .vdrop a d pari thr scale => a.wf && d.wf && d.mem && pari < 32 && thr < 2 ^ 24 && scale < 2 ^ 32
  | .ltile fmt src => fmt ≤ 3 && src.wf && src.mem
  | .lvec fmt src => fmt ≤ 3 && src.wf && src.mem
  | .lq fmt src => fmt ≤ 7 && src.wf && src.mem
  | .lfetch src dst nb => src.wf && src.mem && dst.wf && dst.mem && 1 ≤ nb && nb ≤ 32
  | .xput src dst nb _ strm seqp =>
    src.wf && src.mem && dst.wf && dst.mem && 1 ≤ nb && nb ≤ 64 && strm < 16 && seqp < 32
  | .xget src dst nb => src.wf && src.mem && dst.wf && dst.mem && 1 ≤ nb && nb ≤ 64
  | .shift src dst nb axis _ strm seqp =>
    src.wf && src.mem && dst.wf && dst.mem && 1 ≤ nb && nb ≤ 64 && axis ≤ 5 && strm < 16 && seqp < 32
  | .permute tbl src strm seqp => tbl.wf && tbl.mem && src.wf && src.mem && strm < 16 && seqp < 32

end Sys2Proof.Machine
end

