-- ==== Sys2Proof/Machine/StateCore.lean ====
section
/-! DEFINITION. The data of a core, its engines and its matrix pipeline, of the ride, of translation and of the fault
machinery (spec/01, 03 to 07, 13): the parts of State, as plain data. -/

namespace Sys2Proof.Machine

/-- A table of entries by number: keys strictly rising; a key that is absent reads as the default its reader names. -/
abbrev Table (α : Type) := List (Nat × α)

/-- A tensor block in transit: payload 2,048 bytes, side band 128 bytes, tag with a location term of zero (R436). -/
structure Blk where
  pay  : Bytes
  side : Bytes
  tag  : BitVec 64
deriving DecidableEq, Repr

/-- Where a block lives (Table 13.2): stack block number, understorey frame bits [16:0] and block, leaf and ACC block of
a physical core. -/
inductive Loc where
  | stk  (h : Half) (b : Nat)
  | und  (h : Half) (frame blk : Nat)
  | leaf (c : CoreId) (blk : Nat)
  | acc  (c : CoreId) (blk : Nat)
deriving DecidableEq, Repr

/-! ### Engines (Tables 4.4 to 4.6, 4.9) -/

/-- An address register (Table 4.4). -/
structure AddrReg where
  base : BitVec 56
  s0   : BitVec 32
  s1   : BitVec 32
  w0   : BitVec 16
  w1   : BitVec 16
  c0   : BitVec 32
  c1   : BitVec 32
deriving DecidableEq, Repr

/-- A loop counter (Table 4.5). -/
structure Counter where
  val  : BitVec 32
  mod  : BitVec 32
  auto : Bool
deriving DecidableEq, Repr

/-- A comparator (Table 4.6). -/
structure Comparator where
  src   : Fin 4
  cond  : Fin 8
  value : BitVec 32
deriving DecidableEq, Repr

/-- PART of Table 4.9. -/
inductive EPart where
  | prologue | body | finished
deriving DecidableEq, Repr

/-- The part of an engine that a list drives and a save record holds (Table 4.9). -/
structure Ctl where
  pc    : Nat
  rep   : Nat
  chunk : BitVec 32
  part  : EPart
  ars   : List AddrReg
  cnts  : List Counter
  cmps  : List Comparator
deriving DecidableEq, Repr

/-- A WAIT repeat that has issued and not completed (R169, R218): its address, its home word, what it holds for, how it
waits, and whether it is external; `final` says that the limit of R218 is reached, `asked` that the final read is out, `reading` which
RDMA READ of a station word is outstanding (R217). -/
structure Waiting where
  va      : BitVec 56
  word    : Option Nat
  target  : BitVec 32
  cond    : Fin 8
  slot    : Option (Fin 8)
  ext     : Bool
  begin   : Nat
  seen    : BitVec 32
  final   : Bool
  asked   : Bool
  reading : Option Nat
  /-- the ride transfer that brings the answer of a read of a word of the other half -/
  back    : Option Nat
deriving DecidableEq, Repr

/-- One engine: its control, the WAIT it stands in, and the page whose restore its repeat awaits (R242). -/
structure Eng where
  ctl   : Ctl
  wait  : Option Waiting
  stall : Option (CtxId × Nat)
deriving DecidableEq, Repr

/-! ### Operations issued and not yet accepted (R129, R168) -/

/-- How far a signal has come (R168, R199, R201). -/
inductive SigState where
  | issued | committed | applied (saturated : Bool)
deriving DecidableEq, Repr

/-- Where an accumulate block stands (R254, R256, R279): sent and not answered, answered with a status whose
acknowledgement is on its way, or refused, the refusal received at a time. -/
inductive AccStage where
  | sent | answered (status : Nat) | refused (at_ : Nat)
deriving DecidableEq, Repr

/-- How far an accumulate block has come, and since when it has been refused without a break (R256). -/
structure AccState where
  stage : AccStage
  since : Option Nat
deriving DecidableEq, Repr

/-- An operation that an engine has handed to the memory system. -/
inductive POp where
  /-- a plain write of a whole block -/
  | put (l : Loc) (b : Blk)
  /-- a VXE write of part of an understorey block: payload offset, bytes, side-band bytes, format (R437) -/
  | patch (l : Loc) (off : Nat) (pay : Bytes) (exps : List (Nat × Byte)) (fmt : Nat)
  /-- a signal to a word of this package: global byte address of the word; `ctl` is the engine's control before the repeat,
  to which a cut before the commit returns (R144, R146) -/
  | signal (va : BitVec 56) (word : Nat) (amt : BitVec 32) (st : SigState) (ctl : Ctl)
  /-- a SIGNAL that has issued and not committed whose word is remote or in a station window -/
  | farSignal (va : BitVec 56) (amt : BitVec 32) (ctl : Ctl)
  /-- an accumulate block: stack block, stream, sequence number (R195) -/
  | accum (h : Half) (b : Nat) (blk : Blk) (strm seq : Nat) (st : AccState)
  /-- a fabric transaction, by TXN (spec/11) -/
  | fabric (txn : Nat)
  /-- an accumulate block for another package, by the TXN of its latest sending: stream and SEQ (R195, R375) -/
  | farAccum (txn : Nat) (strm seq : Nat) (st : AccState)
  /-- a station operation outstanding, by number (spec/12) -/
  | station (id : Nat)
  /-- an operation that its home has taken and whose acceptance returns over the ride (R564) -/
  | landed
deriving DecidableEq, Repr

/-- One operation issued: its engine, its repeat, and the ride transfer that must arrive first (R28, R36). -/
structure Pend where
  ctx  : CtxId
  eng  : Engine
  rpt  : Nat
  ride : Option Nat
  op   : POp
deriving DecidableEq, Repr

/-- An accumulating repeat that is not settled (R253): its number, stream, first sequence number, the SEQ that the next
repeat of its instruction would start with, blocks not yet acknowledged, and the dies and packages it reached (R255). -/
structure AccRpt where
  rpt  : Nat
  strm : Nat
  seq  : Nat
  next : Nat
  left : Nat
  dies : List Nat
  far  : List (Nat × Nat × Nat)
deriving DecidableEq, Repr

/-! ### The load engine and the data queues (R147, R187 to R189, R260) -/

/-- Where an LDE repeat delivers. -/
inductive DelivKind where
  | tile | vec | queue
deriving DecidableEq, Repr

/-- A delivery that waits: destination, format, blocks, the tile's source (R109), and the ride transfer that brings the
last of its blocks from the other half (R28). -/
structure Deliv where
  kind : DelivKind
  fmt  : Nat
  blks : List Blk
  src  : BitVec 56
  ride : Option Nat
deriving DecidableEq, Repr

/-- A rewind record (R147): where its repeat delivers, which delivery of that kind it is in the invocation, and the
control state before it. -/
structure Rewind where
  rpt  : Nat
  kind : DelivKind
  ord  : Nat
  ctl  : Ctl
deriving DecidableEq, Repr

/-- A read made ahead of in-order issue (R260): the repeat it is for, its address, the pages it was translated through
(region and page), the outside operation that still reads it, and the blocks read. -/
structure RunAhead where
  pc    : Nat
  rep   : Nat
  chunk : BitVec 32
  va    : BitVec 56
  pages : List (Nat × Nat)
  op    : Option Nat
  blks  : List Blk
deriving DecidableEq, Repr

/-- A weight staging buffer that holds a ready tile (R91). -/
structure Wsb where
  fmt   : Nat
  blks  : List Blk
  src   : BitVec 56
deriving DecidableEq, Repr

/-- The working cells of one row band in one plane (R85, R88): rows of formed weights, checksum-column cells, and the
exponent of every column for the band's block pair. -/
structure BandW where
  tile : Nat
  fmt  : Nat
  rows : List (List Int)
  cs   : List (BitVec 32)
  exps : List Nat
deriving DecidableEq, Repr

/-- The cells of checksum row 128 in one plane (R85, R93): cw of every working column, and T in the checksum column. -/
structure SumRow where
  cw   : List (BitVec 32)
  tsum : BitVec 32
deriving DecidableEq, Repr

/-- The fill in progress (R92 to R94): rows filled, the first fill or the refill. -/
structure Fill where
  row  : Nat
  again : Bool
deriving DecidableEq, Repr

/-- A feeder block (R188): 16 vectors. -/
structure FeedBlk where
  fmt  : Nat
  pay  : Bytes
  side : Bytes
deriving DecidableEq, Repr

/-- One entry of a row link (R98): exact sums in the 128 working columns, the checksum-column sum, the vector's
exponent for the band's block pair and the columns' exponents. -/
structure RlEntry where
  sums : List Int
  z    : BitVec 32
  ea   : Nat
  eb   : List Nat
deriving DecidableEq, Repr

/-- A pass in flight (R173): its control state before it issued, its fields, the tile it uses, vectors broadcast per
band, merged, and drained per column band; address of DST fixed at issue; counter base (R178); `last` counts the feeder
vectors of the invocation up to and with this pass. -/
structure Pass where
  rpt   : Nat
  ctl   : Ctl
  fmt   : Nat
  dmode : Nat
  sr    : Bool
  toQ   : Bool
  dst   : BitVec 56
  nv    : Nat
  tile  : Nat
  newTile : Bool
  base  : Nat
  last  : Nat
  bcast : List Nat
  merged : Nat
  drained : List Nat
deriving DecidableEq, Repr

/-- A vector of a pass that some column bands have drained towards the VXE queue and others have not (R175, R179). -/
structure PartVec where
  rpt   : Nat
  vec   : Nat
  bands : List Nat
  pay   : Bytes
  exps  : Bytes
deriving DecidableEq, Repr

/-- One entry of the VXE input queue (R179). -/
structure VqEntry where
  fmt   : Nat
  lq    : Bool
  pay   : Bytes
  side  : Bytes
  taken : Nat
deriving DecidableEq, Repr

/-- The matrix engine's own state (spec/03). Tiles and feeder blocks are counted from 0 in the invocation. -/
structure Mxe where
  wsbs     : List (Option Wsb)
  wrWsb    : Fin 2
  fill     : Option Fill
  /-- tiles filled and checked (R94), tiles that passes have taken (R173), the active tile's number, format and source -/
  checked  : Nat
  taken    : Nat
  activeTile : Option (Nat × Nat)
  tileSrc  : Option (BitVec 56 × Nat)
  active   : List (Option BandW)
  shadow   : List (Option BandW)
  /-- row 128 of the active and of the shadow plane -/
  activeSum : Option SumRow
  shadowSum : Option SumRow
  /-- the tile that a resumption fills again (R109), and whether the MPASS that resumes is the one that had made it active -/
  refill   : Option Wsb
  firstPass : Bool
  feed     : List FeedBlk
  /-- vectors that each row band has taken since the first feeder block held -/
  feedPos  : List Nat
  /-- vectors that passes issued so far use -/
  vecs     : Nat
  rl       : List (List RlEntry)
  cl       : List (List (List Wa))
  passes   : List Pass
  parts    : List PartVec
  /-- a failing vector or a fault has stopped the engine (R104) -/
  halted   : Bool
  /-- rows of the MUNLOAD repeat at PC that have taken the drain (R177) -/
  unload   : Nat
deriving DecidableEq, Repr

/-! ### Invocations (spec/04) -/

/-- Why a core rejects a descriptor (R117, R125, R150): the failed check by name, as INV_REJECT's reason code.
(DESIGN CHOICE, log 21) -/
inductive Reject where
  | reserved | pcount | chunks | imageAddr
  | magic | version | nls | nblk | offsets | lstEnd | roleEnd | parEnd | header | lsid
  | entryLsid | entryReserved | insStart | insCount | insEnd | leafLive | accLive | role
  | translation | protection | window | region | landing | record
deriving DecidableEq, Repr

/-- A descriptor (Table 4.3) as its fields. -/
structure Desc where
  lsid   : Nat
  ctx    : CtxId
  chunks : BitVec 32
  invSeq : BitVec 32
  prio   : Bool
  preload : Bool
  resume : Bool
  image  : BitVec 56
  pars   : List (BitVec 64)
  /-- the first check of R125 on the descriptor itself that fails -/
  flaw   : Option Reject
deriving DecidableEq, Repr

/-- A list set as the loader holds it (R119 to R122), with what the checks of R117 read of the image. -/
structure ListSet where
  ctx    : CtxId
  image  : BitVec 56
  lsid   : Nat
  role   : Nat
  lens   : List Nat
  leafLive : Nat
  accLive  : Nat
  parOfs : Nat
  npar   : Nat
  insOfs : Nat
  start  : Nat
  ins    : List (BitVec 128)
deriving DecidableEq, Repr

/-- A save record pending on a core (R142, R143, R148). (DESIGN CHOICE, log 21) -/
structure Saved where
  ctx    : CtxId
  kind   : Fin 3
  invSeq : BitVec 32
deriving DecidableEq, Repr

/-- A VRED repeat that takes its vectors from the input queue (R183): vectors taken, the lanes accumulated, and counts. -/
structure VredPart where
  n   : Nat
  acc : List Nat
  cnt : Cnt
deriving DecidableEq, Repr

/-- What Table 4.7 leaves out of a kind 2 record and its resumption needs, held beside the record and found again by the record's first
6 KiB, wherever the record has been copied (R151): the active tile's source and format and whether the resumed MPASS had made it active
(R109), whether the ACC was void (R447), and what a VRED had taken from the queue. (DESIGN CHOICE, log 99) -/
structure CutNote where
  ctx  : CtxId
  key  : Bytes
  tile : Option (BitVec 56 × Nat × Bool)
  void : Bool
  vred : Option VredPart
deriving DecidableEq, Repr

/-- A monitor slot (R208): free, warm or active for an engine; the word it watches; when it was last used. -/
inductive MonState where
  | free | warm | active (e : Engine)
deriving DecidableEq, Repr

/-- One of MON_0 to MON_7. -/
structure Mon where
  st   : MonState
  word : Nat
  used : Nat
deriving DecidableEq, Repr

/-- One physical core slot. -/
structure Core where
  queue    : List Desc
  /-- the descriptor taken and not yet started, with its list set as checked (R125, R117), and its place in the queue -/
  taken    : Option (Desc × ListSet)
  takenAt  : Nat
  run      : Option (Desc × ListSet)
  resident : List ListSet
  /-- the context whose data leaf store and ACC hold, whether an invocation of it has started since they were clear (R229), and
  whether its ACC is void (R104) -/
  owner    : Option CtxId
  shown    : Bool
  accVoid  : Bool
  /-- LEAF_LIVE and ACC_LIVE of the list set that ended last, and its invocation (R141, R143) -/
  live     : Nat × Nat
  ended    : Option Desc
  saved    : List Saved
  mxeE     : Eng
  vxeE     : Eng
  ldeE     : Eng
  xceE     : Eng
  mxe      : Mxe
  vq       : List VqEntry
  vred     : Option VredPart
  deliv    : List Deliv
  rewinds  : List Rewind
  ahead    : List RunAhead
  pend     : List Pend
  accRpts  : List AccRpt
  /-- XGET and LFETCH repeats whose blocks may still be on their way, with the control before each (R146) -/
  fetches  : List (Nat × Engine × Ctl)
  nextRpt  : Nat
  /-- LTILE and LVEC repeats issued in the invocation (R147) -/
  tiles    : Nat
  vecBlks  : Nat
  mons     : List Mon
  monClock : Nat
  /-- by context, when the core's part in it last broke the conditions of standstill (R219) -/
  stir     : Table Nat
  /-- FORCE has stopped issue and the cut is not saved (R144); PREEMPT_LATE has counted this cut (R149) -/
  forced   : Bool
  late     : Bool
  /-- formats of the open blocks of leaf store and ACC: block number (ACC from 256) to FMT; a block not listed is closed
  with its own tag (R437) -/
  openFmt  : Table Nat
  /-- engines stopped by a fault of their own (R160, R247) -/
  stopped  : List Engine
deriving DecidableEq, Repr

/-! ### The ride (R34 to R41) -/

/-- A ride flit's content: class, type, 248 payload bytes and the transfer it belongs to. (DESIGN CHOICE, log 16) -/
structure RideFlit where
  cls  : Fin 4
  typ  : Fin 5
  pay  : Bytes
  xfer : Nat
  last : Bool
deriving DecidableEq, Repr

/-- A flit on the wire: header fields and content. -/
structure WireFlit where
  seq : BitVec 12
  ack : BitVec 12
  flit : RideFlit
  raw : Bytes
deriving DecidableEq, Repr

/-- One end of the ride: the transmitter of half h and the receiver of half h. -/
structure RideEnd where
  ready   : List RideFlit
  nextSeq : BitVec 12
  /-- sent and not acknowledged, oldest first, with SEQ -/
  retry   : List (BitVec 12 × RideFlit)
  /-- flits of the retry buffer still to be resent, counted from the oldest -/
  resend  : Option Nat
  replays : Nat
  ackSince : Nat
  wire    : List WireFlit
  /-- SEQ of the last flit received in order, and whether the receiver discards until a good replay (R38) -/
  lastGood : BitVec 12
  discarding : Bool
  askReplay : Bool
  goodSince : Nat
  gotReplay : Option (BitVec 12)
  down    : Bool
deriving DecidableEq, Repr

/-! ### Translation, restores and faults (spec/07) -/

/-- One cached translation (R238): context, region (0, 1, 2), virtual page, and the entry. -/
structure TlbEntry where
  ctx  : CtxId
  reg  : Nat
  page : Nat
  pte  : BitVec 64
deriving DecidableEq, Repr

/-- The translation unit of a grove (R238): 64 KiB entries, 2 MiB entries, pointers. -/
structure Tlb where
  small : List TlbEntry
  large : List TlbEntry
  ptrs  : List TlbEntry
deriving DecidableEq, Repr

/-- A grove: its translation unit, the slot left out (R17), quiet reports, and the GST's health counters of ABFT events, by core slot
(R104). -/
structure GroveSt where
  tlb    : Tlb
  slotOut : Fin 17
  /-- when a core was promised the spare, and its slot (R466) -/
  spareAt : Option (Nat × Nat)
  /-- contexts reported quiet, each with the time of the report (R219, R220) -/
  quiet  : List (CtxId × Nat)
  abft   : Table Nat
deriving DecidableEq, Repr

/-- What a restore engine's queue entry asks for (R241 to R243): a restore; an off-load that waits for its page, with half and block of its
destination; one whose copy is due, with half and frame of the page too. -/
inductive RestoreJob where
  | restore
  | offload (own : Half) (dst : Nat)
  | copy (own : Half) (dst : Nat) (h : Half) (frame : Nat)
deriving DecidableEq, Repr

/-- A restore or off-load queued at a restore engine (R241, R243). -/
structure Restore where
  ctx   : CtxId
  page  : Nat
  rclass : Nat
  job   : RestoreJob
deriving DecidableEq, Repr

/-- An invalidation that a translation unit has not acknowledged yet (R240): context, region, page, and the blocks that accesses translated
through the dropped entry may still reach, by first key and number. -/
structure InvWait where
  ctx  : CtxId
  reg  : Nat
  page : Nat
  lo   : Nat
  n    : Nat
deriving DecidableEq, Repr

/-- A context (spec/07 R247, spec/13 R438): exists, faulted with code and detail, cores whose cut is outstanding, engines whose
SECONDARY record is written. -/
structure Ctx where
  live  : Bool
  fault : Option (Nat × Nat)
  cuts  : List Nat
  second : List (Nat × Engine)
deriving DecidableEq, Repr

/-- What cores, groves, mills and units report to SCH. -/
inductive Report where
  | invReject (lc : Nat) (seq : BitVec 32) (why : Reject)
  | invOverrun (lc : Nat) (seq : BitVec 32)
  | preemptDone (lc : Nat) (seq : BitVec 32)
  | groveQuiet (g : Grove) (ctx : CtxId)
  | tlbInvAck (ctx : CtxId) (reg page : Nat)
  | millDone (d : Die) (rec : Bytes)
deriving DecidableEq, Repr

/-- The home memory of a word (Table 6.2). -/
inductive Home where
  | leaf (c : CoreId) | und (g : Grove) | die (d : Die)
deriving DecidableEq, Repr

/-- A watch (R208): its home, its word, and the slot it wakes; oldest armed first in the list that holds it. A wake
sent and not yet arrived is marked, with the ride transfer that carries it where the core is in the other half. -/
structure Watch where
  home : Home
  word : Nat
  core : CoreId
  slot : Fin 8
  woken : Bool
  ride : Option Nat
deriving DecidableEq, Repr

end Sys2Proof.Machine
end

