-- ==== Sys2Proof/Machine/StateUnits.lean ====
section
/-! DEFINITION. The data of the mills, port arbiters, torus ports, external ports and jobs (spec/08, 11, 12), of training
and serving (spec/09, 10), and of integrity, safety, power and boot (spec/13 to 16): parts of State, as plain data. -/

namespace Sys2Proof.Machine

/-! ### Mills (spec/07 R253 to R258, spec/08 R275 to R295) -/

/-- Who sent an accumulate block: a core of this package, or another package by coordinates and TXN. -/
inductive AccSrc where
  | core (c : CoreId) | pkg (x y z txn : Nat)
deriving DecidableEq, Repr

/-- An accumulate block on its way to a mill (R253): sender, context, the ride transfer it waits for, target block of the
half, contents, stream, SEQ and FLOOR. -/
structure AccMsg where
  src   : AccSrc
  ctx   : CtxId
  ride  : Option Nat
  b     : Nat
  blk   : Blk
  strm  : Nat
  seq   : Nat
  floor : Nat
deriving DecidableEq, Repr

/-- What one mill keeps for one context (R254, R278): intake, window of (STREAM, SEQ), floors and refused heads. -/
structure AccCtx where
  intake  : List AccMsg
  window  : List (Nat × Nat)
  floors  : Table Nat
  refused : Table Nat
deriving DecidableEq, Repr

/-- A floor notice on its way to a mill (R255). -/
structure FloorMsg where
  ctx   : CtxId
  strm  : Nat
  floor : Nat
  ride  : Option Nat
deriving DecidableEq, Repr

/-- The live sums of a statistic set (R281, R282): sums of squares in units of 2^−298, and the non-finite count. -/
structure StatSet where
  inc    : Nat
  fin    : Nat
  nonfin : Nat
deriving DecidableEq, Repr

/-- A mill job that runs (Tables 8.2 and 8.5): descriptor fields, the custom operation words, and what the completion will
say. -/
structure MillJob where
  kind   : Nat
  ctx    : CtxId
  flags  : Nat
  ngroup : Nat
  start  : Nat
  jobSeq : Nat
  arrays : List Nat
  ks     : List Nat
  srbase : Nat
  ops    : List Nat
  next   : Nat
  groups : Nat
  retries : Nat
  nonfin : Nat
  sq     : Nat
  digest : Nat
deriving DecidableEq, Repr

/-! ### The stack port arbiter (spec/08 R296 to R305) -/

/-- Requester classes of the stack port (R296). -/
inductive SClass where
  | q | f | h | m
deriving DecidableEq, Repr

/-- What a stack request moves (R270, R280, R297): a block, an accumulate, a block into which bytes are merged (R409), a short access of so
many bytes (R264), or a signal, which reads and writes its 64-byte segment (R272). -/
inductive SKind where
  | read | write | accFp32 | accBx8 | merge | short (n : Nat) | signal
deriving DecidableEq, Repr

/-- A request of a base die (R270): class, kind, block number in the half, requester (an LC, or 0xFFFF for the mill and the fabric), whether
the traffic is of the escape class, the slots after its arrival at which 512 B of a write's data are staged, and for how many slots beyond
its first a grant is held before all its data are (R298; 0 and 0 for data staged in time). -/
structure StackReq where
  cls   : SClass
  kind  : SKind
  blk   : Nat
  who   : Nat
  esc   : Bool
  first : Nat
  late  : Nat
deriving DecidableEq, Repr

/-- An access to a stack whose request is on its way to a die's port: the die, the ride transfer it waits for, and the request. -/
structure StkAsk where
  die  : Nat
  ride : Option Nat
  req  : StackReq
deriving DecidableEq, Repr

/-- A request in a base die: its number, the request, age, channel, the buffers it holds (escape, Q, shared) for itself and the others of
its group, whether a read-modify-write has reached its write, and its next-turn hint (Table 8.7). -/
structure ArbReq where
  id    : Nat
  req   : StackReq
  age   : Nat
  chan  : Nat
  pool  : Nat × Nat × Nat
  write : Bool
  /-- it has waited on a lock of its block (R271) -/
  behind : Bool
  hint  : Option (BitVec 16)
  /-- the first request of those that share its buffers: the parts of a BX8 accumulate, one slot's worth of short accesses (R270) -/
  grp   : Nat
  /-- the slot from which 512 B of its data are staged (R298) -/
  ready : Nat
deriving DecidableEq, Repr

/-- One channel: the grant in flight with the slots it has begun, slots for which the channel stays closed after a
revocation (R299), revocations and grants of the frame, the slots waited by each refresh that is due (R300), the further short accesses
that the slot carries (R297), and the refreshes that have fallen due in the present four frames (R265). -/
structure Chan where
  cur     : Option (ArbReq × Nat)
  closed  : Nat
  revokes : Nat
  grants  : Nat
  refresh : List Nat
  more    : List ArbReq
  dues    : Nat
deriving DecidableEq, Repr

/-- One base die: mill and arbiter. -/
structure DieSt where
  admitted : List AccMsg
  floorsIn : List FloorMsg
  stats    : List StatSet
  job      : Option MillJob
  table    : List Nat
  waiting  : List ArbReq
  queue    : List ArbReq
  chans    : Table Chan
  pool     : Nat × Nat × Nat
  nextReq  : Nat
  clock    : Nat
  /-- the slot in which SWAP was last written (R302) -/
  swapAt   : Nat
  scrub    : Table Nat
  doubled  : Bool
  throttle : Bool
  lost     : Bool
  /-- by channel, since when a request of it has had no answer (R267) -/
  silent   : Table Nat
deriving DecidableEq, Repr

/-! ### Torus ports and transfers (spec/11) -/

/-- A torus flit's content: virtual lane, TYPE and 248 payload bytes. -/
structure TFlit where
  vl  : Nat
  typ : Nat
  pay : Bytes
deriving DecidableEq, Repr

/-- A transfer that waits at an output: its VL, the ride transfer it waits for, and its flits. -/
structure TXfer where
  vl    : Nat
  ride  : Option Nat
  flits : List TFlit
deriving DecidableEq, Repr

/-- The link layer of one torus port; STATE, WIDTH, GROUPS, LANE_BAD and NBR stand in TP_STAT_p. Counts of flits sent,
credited and freed run per VL (R381). -/
structure TorusPort where
  since   : Nat
  queue   : List TXfer
  nextSeq : BitVec 12
  retry   : List (BitVec 12 × TFlit)
  replays : Nat
  ackSince : Nat
  lastGood : BitVec 12
  discarding : Bool
  gotReplay : Option (BitVec 12)
  goodSince : Nat
  sent    : List Nat
  crd     : List Nat
  freed   : List Nat
  rx      : Table (List TFlit)
  /-- lane groups found unhealthy beside LANE_BAD and GROUP_FENCE (R373) -/
  badGroups : BitVec 4
  /-- flits put on the fibre, oldest first -/
  wire    : List Bytes
deriving DecidableEq, Repr

/-- A transfer received whole: port, VL, header, block, the bytes after the header of a one-flit transfer, and the ride crossing it
waits for where it is bound for the other half. -/
structure Arr where
  port : TPort
  vl   : Nat
  hdr  : Bytes
  blk  : Option Blk
  rest : Bytes
  ride : Option Nat
deriving DecidableEq, Repr

/-- A fabric transaction outstanding (R374, R377, R383): issuer, KIND, target package, address, landing place of an
XGET's block, EPOCH when EPOCHED, its block, and for an accumulate its stream and SEQ, for an ATOMIC its amount. -/
structure Txn where
  core  : CoreId
  ctx   : CtxId
  kind  : Nat
  tgt   : Nat × Nat × Nat
  addr  : Nat
  dst   : Option Loc
  epoch : Option Nat
  blk   : Option Blk
  acc   : Option (Nat × Nat)
  /-- the port that SHIFT names (R192); none: the route of R379 -/
  port  : Option Nat
  /-- the ride transfer that brings its block from the other half (R28) -/
  pre   : Option Nat
  /-- injected into the fabric: it holds one of the 64 ACK slots (R383) -/
  sent  : Bool
  /-- answers whose block failed its landing (R441) -/
  tries : Nat
deriving DecidableEq, Repr

/-! ### External ports and jobs (spec/12) -/

/-- What an RDMA operation or PCIe request of the device serves. -/
inductive RdmaFor where
  /-- a put or atomic of a core, an operation of its `pend` -/
  | coreWrite (c : CoreId)
  /-- a read whose images land at places from the first on -/
  | coreRead (c : CoreId) (ctx : CtxId) (dst : List Loc)
  /-- a WAIT's read of a station word (R217) -/
  | waitRead (c : CoreId) (e : Engine)
  /-- a read that a core makes ahead of its in-order issue point (R260) -/
  | aheadRead (c : CoreId)
  /-- the completion of a query that was delivered: ring and SEQ -/
  | result (ring : Nat) (n : Nat)
  /-- completions, which the device sends and forgets -/
  | report
deriving DecidableEq, Repr

/-- An operation of the device on outside memory: number, port (0 CPA, 1 CPB, 2 SP), queue pair, kind (0 write, 1 write
with immediate, 2 read, 3 fetch-add), remote address and key, length, data, immediate, times sent, when last sent. -/
structure RdmaOp where
  id    : Nat
  port  : Nat
  qpn   : Nat
  kind  : Nat
  addr  : Nat
  rkey  : Nat
  len   : Nat
  data  : Bytes
  imm   : Nat
  use   : RdmaFor
  sends : Nat
  sentAt : Nat
  /-- answers whose block failed its landing (R442) -/
  tries : Nat
deriving DecidableEq, Repr

/-- A queue pair that an entry of Table 12.6 has set up. -/
structure Qp where
  entry  : Bytes
  err    : Bool
  spsn   : Nat
  rpsn   : Nat
  /-- halvings of its rate in force and the time of the last CNP (Table 12.8) -/
  halved : Nat
  cnpAt  : Nat
  /-- when a CNP was last sent for it -/
  cnpSent : Option Nat
deriving DecidableEq, Repr

/-- What leaves the device in answer to an outside access on a client or steward port, or to a read of SETUP_ERR. -/
inductive Reply where
  | ack (face : Face) (qpn : Nat)
  | data (face : Face) (qpn : Nat) (b : Bytes)
  | nakAccess (face : Face) (qpn : Nat)
  | nakRequest (face : Face) (qpn : Nat)
  | abort
  | cnp (port : CPort) (qpn : Nat)
  | setup (path : Path) (v : BitVec 64)
deriving DecidableEq, Repr

/-- A station's fetch-add at its word's home (R213): the face it came through, the width of its answer in bytes, the context of its window,
the word's virtual and physical address, and the amount. -/
structure FAdd where
  face : Face
  qpn  : Nat
  n    : Nat
  ctx  : CtxId
  va   : Nat
  word : Nat
  amt  : Int
deriving DecidableEq, Repr

/-- An outside access as it reaches the device: a write, a client's write with immediate, a read, a station's fetch-add (spec/12 R408
to R414). -/
inductive InReq where
  | write (a : Inbound) (data : Bytes)
  | writeImm (a : Inbound) (data : Bytes) (imm : BitVec 32)
  | read (a : Inbound) (len : Nat)
  | fadd (a : Inbound) (wide : Bool) (addend : BitVec 64)
deriving DecidableEq, Repr

/-- What the arrival of a ride transfer brings about at the half it reaches (R28, R29, R564): the next transfer of a path; the
answer of a WAIT's read; an operation at the half of its external port; the acknowledgement of one at its core, with the images that a
read brought; part of an inbound write at its place; the doorbell of a write with immediate; the answer to an outside access at its port; a station's fetch-add at its word's home;
a doorbell's or a completion's event at HALF_1's safety monitor (R469).
(DESIGN CHOICE, log 97) -/
inductive RideDo where
  | send (id : Nat) (h : Half) (cls : Fin 4) (b : Bytes)
  | waitRead (c : CoreId) (e : Engine) (id : Nat) (v : BitVec 32)
  | toPort (op : RdmaOp)
  | opDone (op : RdmaOp) (data : Bytes)
  | land (l : Loc) (b : Blk)
  | merge (ctx : CtxId) (l : Loc) (off : Nat) (b : Bytes)
  | bell (face : Face) (qpn page : Nat) (b : Bytes)
  | reply (r : Reply)
  | fetchAdd (f : FAdd)
  | monArm (ring from_ n tdb : Nat)
  | monClear (ring n : Nat)
deriving DecidableEq, Repr

/-- An effect that waits for a ride transfer to arrive. -/
structure RideNext where
  after : Nat
  act   : RideDo
deriving DecidableEq, Repr

/-- A job descriptor that waits, with its ring. -/
structure WaitJob where
  ring : Fin 4
  desc : Bytes
deriving DecidableEq, Repr

/-- The job that runs: ring, descriptor, whether STARTED has been written, the contexts and queue pairs it holds and how
many handle entries, and, where it has adopted held memory (R397), the newest update that that memory had committed. -/
structure Job where
  ring    : Fin 4
  desc    : Bytes
  started : Bool
  ctxs    : List CtxId
  qps     : List Nat
  nhandle : Nat
  adopted : Option Nat
deriving DecidableEq, Repr

/-- Held memory (R397): tag, contexts, since when, the stack pages of each half and table units it reaches up to, and the newest update
of the own shard that is committed in it (R310, R330). -/
structure Hold where
  tag   : Nat
  ctxs  : List CtxId
  since : Nat
  top   : List Nat
  tbl   : Nat
  tstep : Nat
deriving DecidableEq, Repr

/-! ### Training (spec/09) -/

/-- Where SCH stands in a training step (Table 9.3). -/
inductive TPhase where
  /-- between steps -/
  | between
  /-- phases 1 and 2: forward, backward and reduce-scatter -/
  | work
  /-- phase 3: this package's record is sent and the other ranks' records are awaited -/
  | stats
  /-- phase 5: the update jobs run -/
  | update
deriving DecidableEq, Repr

/-- A mill job that SCH has submitted for training (R319 to R322): die, JOB_SEQ, descriptor, whether it is a second run, how it
stands (0 runs, 1 done, 2 stopped by a fault of its context, 3 failed twice), and its completion record. -/
structure TJob where
  die    : Nat
  seq    : Nat
  desc   : Bytes
  second : Bool
  st     : Nat
  cpl    : Bytes
deriving DecidableEq, Repr

/-- The training state that SCH keeps: record, plan and status block (R307, R309, R323); context and phase; STEP in progress and
steps begun by the job; micro-batches M; ranks whose micro-batches are still to start in the step, and those marked in the last
execution with `again` for a re-execution (R450); chunks and samples of the step; its mark with the latest fault code and its
re-executions (R449, R450); expelled ranks (R452); how far the mirror of the latest update has come (0 complete, 1 owed, 2 written,
3 signalled; R311) with its outstanding transactions; whether the ZERO job of R321 and the SCAN of R315 have been submitted; the
vote (0 none, 1 due, 2 scanning; R451); the step record; mill jobs and the last JOB_SEQ; K_0 to K_15 of the latest update (R318). -/
structure Train where
  rcd      : Bytes
  plan     : Bytes
  status   : Bytes
  ctx      : CtxId
  phase    : TPhase
  step     : Nat
  begun    : Nat
  m        : Nat
  todo     : List Nat
  marks    : List Nat
  again    : Bool
  units    : Nat
  samples  : Nat
  marked   : Bool
  lastCode : Nat
  runs     : Nat
  expelled : List Nat
  mirror   : Nat
  mirrorOps : List Nat
  zeroed   : Bool
  scanned  : Bool
  vote     : Nat
  record   : Bytes
  jobs     : List TJob
  jobSeq   : Nat
  ks       : List Nat
deriving DecidableEq, Repr

/-! ### Serving (spec/10) -/

/-- How far a query or a guarded copy has come. -/
inductive QStage where
  | held | running (left : List Nat) | ended | failed | forwarding (left : List Nat)
deriving DecidableEq, Repr

/-- A query on a grove: ring, SEQ, descriptor, doorbell time and deadline in ps, bound epoch, INV_SEQ of its invocations,
role (0 unguarded, 1 A, 2 B, 3 C), worst-case finish in ps, digests of a copy's blocks, and for the forwarded copy the
guard outcome. -/
structure Query where
  ring   : Nat
  n      : Nat
  desc   : Bytes
  tdb    : Nat
  dl     : Nat
  epoch  : Nat
  inv    : BitVec 32
  role   : Nat
  fin    : Nat
  stage  : QStage
  digests : List Nat
  outcome : Nat
  missed : Bool
deriving DecidableEq, Repr

/-- A query ring of the serving record: doorbell count, the counts announced with their times in ps, expected SEQ,
completions issued, and whether it has stopped (R356). -/
structure QRing where
  count    : Nat
  marks    : List (Nat × Nat)
  expected : Nat
  cpls     : Nat
  stopped  : Bool
deriving DecidableEq, Repr

/-- Serving as SCH and the GSTs hold it: record, program table, rings, queries by grove (their order is the queue's; the digest
buffer of a guarded copy, R357, stands in its entry), the epoch being published (0: none) and the invocations it waits for. -/
structure Serve where
  rcd     : Bytes
  progs   : Bytes
  rings   : Table QRing
  queries : Table (List Query)
  pub     : Nat
  pubLeft : List (Nat × BitVec 32)
deriving DecidableEq, Repr

/-! ### Integrity, safety, power and boot (spec/13 to 16) -/

/-- An entry of a safety monitor (R469): half, ring, descriptor, doorbell time in KCLK cycles. -/
structure MonEntry where
  half : Nat
  ring : Nat
  n    : Nat
  tdb  : Nat
deriving DecidableEq, Repr

/-- A PHASE guard window of a grove (R494): opens and closes at times in KCLK cycles. -/
structure Guard where
  level : Nat
  opens : Nat
  closes : Nat
  isOpen : Bool
deriving DecidableEq, Repr

/-- What PWR keeps for a grove (R480 to R496): cap and thermal ceilings, the voltage in mV above nothing, whether the droop
line is asserted, a step held, cooling from 103 °C and from 105 °C, the guard windows; the guard level in force, and whether a rail's
current limit stretches the grove (R499). -/
structure PwGrove where
  capK   : Nat
  thermK : Nat
  volt   : Nat
  guard  : Nat
  rail   : Bool
  droop  : Bool
  held   : Bool
  hot    : Bool
  very   : Bool
  windows : List Guard
deriving DecidableEq, Repr

/-- A firmware processor (R506 to R515): held in a coppice restart, and whether it has switched to the update's bank. -/
structure Proc where
  restarting : Bool
  switched   : Bool
deriving DecidableEq, Repr

/-- An in-service update (R513, R514): slot written, the handover versions that the new image reads, and the processors that have
still to switch, in order. -/
structure Update where
  slot   : Nat
  hvMin  : Nat
  hvNew  : Nat
  left   : List Nat
deriving DecidableEq, Repr

/-- Where the loss of a half stands (R516 to R519). -/
inductive HalfPhase where
  | whole | firebreak | rebooting | waiting
deriving DecidableEq, Repr

end Sys2Proof.Machine
end

