-- ==== Sys2Proof/Machine/State.lean ====
section
/-! DEFINITION. The state of the block: every register, store, queue, mode and land the spec names, as plain data; the
reasons a command can stop; the state after reset. -/

namespace Sys2Proof.Machine

/-- Why a command ends in a fault. -/
inductive Fault where
  /-- An operand names a block outside the store it is said to lie in (R232, Table 13.2), raised by LANDING and
  OFFLOAD: safe, the hardware has no such block. -/
  | outsideStore
deriving DecidableEq, Repr

/-- Why a command is refused. -/
inductive Refusal where
  /-- No meaning yet, by mnemonic; raised by an arm of exec only: safe. -/
  | notModelled (mnemonic : String)
  /-- An operand that is no such event's: a byte string or list of the wrong length (Sys2Proof.Instr.wf fails); raised by the
  meanings that carry such an operand: safe. -/
  | badOperand
deriving DecidableEq, Repr

/-- The life of the package (R489, R501 to R503, R524, R556): without power or in reset, booted (to its end or to the
step that failed), stopped by SEC with both images bad, in thermal shutdown. (DESIGN CHOICE, log 7) -/
inductive Life where
  | off | inReset | up | stopped | shutdown
deriving DecidableEq, Repr

/-- Fuses (R504, R523, R538). (DESIGN CHOICE, log 5) -/
structure Fuses where
  grade    : Nat
  deviceId : BitVec 128
  svnMin   : BitVec 7
  keyRev   : BitVec 4
  keys     : List (BitVec 384)
  debugKey : BitVec 384
deriving DecidableEq, Repr

/-- The output lands as the package drives them; none is high impedance (R548). -/
structure Lands where
  ready  : Option Bool
  faultN : Option Bool
  thermN : Option Bool
deriving DecidableEq, Repr

/-- The state of the block. -/
structure State where
  pending  : List Instr
  time     : Nat
  pwrOk    : Bool
  pkgRstN  : Bool
  life     : Life
  lands    : Lands
  fuses    : Fuses
  regs     : Table (BitVec 64)
  mem      : List Host.Cell
  flash    : List Host.Cell
  logMem   : List Host.Cell
  cores    : Table Core
  groves   : Table GroveSt
  ctxs     : Table Ctx
  cutNotes : List CutNote
  ride     : List RideEnd
  xfers    : Nat
  rideDone : List Nat
  /-- what ride transfers on their way bring about when they arrive -/
  rideNext : List RideNext
  /-- stations' fetch-adds that have crossed the ride and wait at their word's home (R200, R213) -/
  fadds    : List FAdd
  /-- by context, the cycle in which SYNC_SAT was last set (R203) -/
  satAt    : Table Nat
  watches  : List Watch
  /-- drop notices on their way: core and slot (R209) -/
  drops    : List (CoreId × Fin 8)
  restores : Table (List Restore)
  invWaits : List InvWait
  poison   : Table (List Nat)
  logSmall : Bool
  /-- LOG_HEAD stands at LOG_TAIL because the log ring is full (R520) -/
  logFull  : Bool
  msix     : List Nat
  /-- reports that SCH has received, oldest first -/
  reports  : List Report
  /-- SCTX of the running job's serving record -/
  sctx     : Option CtxId
  /-- mills: windows, floors and intakes by 16 × die + context (R254), and the base dies -/
  accs     : Table AccCtx
  dies     : Table DieSt
  /-- requests of accesses to stacks on their way to a die's port, oldest first (R270) -/
  stkReqs  : List StkAsk
  /-- torus: ports, transfers received, transactions outstanding, their number, transfers that wait for an ACK slot by
  core, whether PEER_LOST stands for the job, tags whose ABORT has been sent, highest epoch seen -/
  ports    : Table TorusPort
  arrived  : List Arr
  txns     : Table Txn
  nextTxn  : Nat
  inject   : Table (List Nat)
  peerLost : Bool
  aborted  : List Nat
  epochTop : Option Nat
  /-- outside operations: outstanding, sent, their number; queue pairs by port × 2,048 + LQPN; replies sent -/
  rdma     : List RdmaOp
  rdmaOut  : List RdmaOp
  nextOp   : Nat
  qps      : Table Qp
  replies  : List Reply
  mqpStage : Table (BitVec 64)
  htStage  : Table (BitVec 64)
  iws      : Table Bytes
  /-- outside accesses that wait for a page to be restored, oldest first (R242, R411) -/
  inHeld   : List InReq
  /-- steward link: usable; client links up (R501 step 11, R24); I3C addresses assigned -/
  spUp     : Bool
  cpUp     : List Bool
  i3cAddr  : List (Option (BitVec 7))
  /-- jobs: waiting, running, held memory, completions issued by ring, arrival order of doorbells, free pages and table
  pages by half -/
  waitJobs : List WaitJob
  job      : Option Job
  hold     : Option Hold
  cplCount : Table Nat
  /-- completions that wait for their ring (ring, SEQ, bytes), job rings that have stopped (R432), in-band interrupts
  raised by land (0 READY, 1 FAULT_N, 2 THERM_N; R428), the number of the next query invocation -/
  cplWait  : List (Nat × Nat × Bytes)
  ringHeld : List Nat
  ibis     : List Nat
  invCtr   : Nat
  ringSeen : Table Nat
  freePg   : List Nat
  freeTbl  : Nat
  train    : Option Train
  serve    : Option Serve
  /-- integrity: units under observation since a time, stale views, units out of service, last KAT of a unit, KATs that
  run, open disagreements, log entries of the history -/
  observed : List (HwUnit × Nat)
  /-- integrity events that SCH has not taken yet, oldest first: class, unit, time (R445, R455, R464) -/
  unitEvs  : List (Nat × Option HwUnit × Nat)
  stale    : List HwUnit
  outOfSvc : List HwUnit
  katLast  : List (HwUnit × Nat)
  katOn    : List HwUnit
  disagree : List HwUnit
  /-- cores whose replacement waits for the end of their cut (R457) -/
  replacing : List CoreId
  histPos  : Nat
  histSeen : List (Nat × Nat × Nat)
  histHour : Nat
  /-- retirements and acknowledgements that wait for SEC to run again: kind, unit, data (R462, R512) -/
  histWait : List (Nat × Nat × Bytes)
  /-- safety monitors, the monitor tests' times, LAND_TEST's start -/
  monitors : List MonEntry
  monTest  : List Nat
  landTest : Option Nat
  /-- power: what PWR keeps for each grove -/
  pw       : Table PwGrove
  /-- firmware: processors, update, nonces drawn, key store, clearing under way with its scope -/
  procs    : Table Proc
  update   : Option Update
  nonces   : Nat
  keyStore : Bool
  clearing : Option (BitVec 2)
  /-- halves: phase of a loss, times of HALF_1's losses -/
  halfPh   : HalfPhase
  losses   : List Nat
deriving DecidableEq, Repr

/-- A ride end at reset. -/
def RideEnd.reset : RideEnd where
  ready := []
  nextSeq := 0
  retry := []
  resend := none
  replays := 0
  ackSince := 0
  wire := []
  lastGood := -1
  discarding := false
  askReplay := false
  goodSince := 0
  gotReplay := none
  down := false

/-- The machine before power-good: nothing is driven, every register at its reset value (an absent entry reads so), every
store at what an unlisted byte reads as. POWER_GOOD runs the boot (spec/16 R501). -/
def State.reset : State where
  pending := []
  time := 0
  pwrOk := false
  pkgRstN := false
  life := .off
  lands := ⟨none, none, none⟩
  fuses := ⟨1, 0, 0, 0, [], 0⟩
  regs := []
  mem := []
  flash := []
  logMem := []
  cores := []
  groves := []
  ctxs := []
  cutNotes := []
  ride := [RideEnd.reset, RideEnd.reset]
  xfers := 0
  rideDone := []
  rideNext := []
  fadds := []
  satAt := []
  watches := []
  drops := []
  restores := []
  invWaits := []
  poison := []
  logSmall := false
  logFull := false
  msix := []
  reports := []
  sctx := none
  accs := []
  dies := []
  stkReqs := []
  ports := []
  arrived := []
  txns := []
  nextTxn := 0
  inject := []
  peerLost := false
  aborted := []
  epochTop := none
  rdma := []
  rdmaOut := []
  nextOp := 0
  qps := []
  replies := []
  mqpStage := []
  htStage := []
  iws := []
  inHeld := []
  spUp := false
  cpUp := [false, false]
  i3cAddr := [none, none]
  waitJobs := []
  job := none
  hold := none
  cplCount := []
  cplWait := []
  ringHeld := []
  ibis := []
  invCtr := 0
  ringSeen := []
  freePg := [0, 0]
  freeTbl := 0
  train := none
  serve := none
  observed := []
  unitEvs := []
  stale := []
  outOfSvc := []
  katLast := []
  katOn := []
  disagree := []
  replacing := []
  histPos := 0
  histSeen := []
  histHour := 0
  histWait := []
  monitors := []
  monTest := [0, 0]
  landTest := none
  pw := []
  procs := []
  update := none
  nonces := 0
  keyStore := false
  clearing := none
  halfPh := .whole
  losses := []

end Sys2Proof.Machine
end

