-- ==== Sys2Proof/Machine/Ops.lean ====
section
/-! DEFINITION. The named operations over registers, cores, memory, blocks, the log ring and context faults. -/

namespace Sys2Proof.Machine

/-! ### Tables -/

/-- The entry of a key, or the default. -/
def tget {α : Type} (t : Table α) (k : Nat) (d : α) : α :=
  match t with
  | [] => d
  | (j, v) :: t => if j = k then v else tget t k d

/-- The table with one entry set, keys rising. -/
def tset {α : Type} (t : Table α) (k : Nat) (v : α) : Table α :=
  match t with
  | [] => [(k, v)]
  | (j, w) :: t => if k < j then (k, v) :: (j, w) :: t else if k = j then (k, v) :: t else (j, w) :: tset t k v

/-- The table without a key. -/
def tdel {α : Type} (t : Table α) (k : Nat) : Table α := t.filter (·.1 != k)

/-- Replacing entry `i` of a list. -/
def lset {α : Type} (l : List α) (i : Nat) (v : α) : List α := l.set i v

/-- Entry `i` of a list, or a default. -/
def lget {α : Type} (l : List α) (i : Nat) (d : α) : α := l.getD i d

/-- The list without entry `i`. -/
def ldrop {α : Type} (l : List α) (i : Nat) : List α := l.eraseIdx i

/-! ### Registers (R528, R532) -/

/-- A register as hardware holds it. -/
def regRead (s : State) (k : RegKind) (i : Nat) : Nat :=
  (tget s.regs (k.off i) (BitVec.ofNat 64 (k.reset s.fuses.grade))).toNat

/-- Setting a whole register. -/
def regWrite (k : RegKind) (i v : Nat) (s : State) : State :=
  { s with regs := tset s.regs (k.off i) (BitVec.ofNat 64 v) }

/-- A field of entry `i` of its register. -/
def rd (s : State) (f : Fld) (i : Nat) : Nat := bits (regRead s f.reg i) f.lo f.w

/-- A one-bit field. -/
def rdb (s : State) (f : Fld) (i : Nat) : Bool := rd s f i == 1

/-- Setting a field. -/
def wr (f : Fld) (i v : Nat) (s : State) : State :=
  regWrite f.reg i (putBits (regRead s f.reg i) f.lo f.w v) s

/-- Adding to a hardware-counted field that stops at its top value. -/
def bump (f : Fld) (i n : Nat) (s : State) : State :=
  wr f i (min (rd s f i + n) (2 ^ f.w - 1)) s

/-- Adding to a field that wraps as a ring index. -/
def bumpWrap (f : Fld) (i n : Nat) (s : State) : State :=
  wr f i ((rd s f i + n) % 2 ^ f.w) s

/-- Adding the counts of an operation to a context's arithmetic counters (R70, R71). -/
def count (ctx : CtxId) (c : Cnt) (s : State) : State :=
  bump fAcntFlush ctx c.fl (bump fAcntOverflow ctx c.ovf (bump fAcntInvalid ctx c.inv s))

/-! ### Resets of cores and engines (Tables 4.4 to 4.6, R96, R128) -/

/-- An address register at reset. -/
def AddrReg.reset : AddrReg := ⟨0, 0, 0, 0, 0, 0, 0⟩

/-- A counter at reset. -/
def Counter.reset : Counter := ⟨0, 0, false⟩

/-- A comparator at reset. -/
def Comparator.reset : Comparator := ⟨0, 0, 0⟩

/-- Engine control at the start of an invocation. -/
def Ctl.reset : Ctl :=
  ⟨0, 0, 0, .prologue, List.replicate 16 AddrReg.reset, List.replicate 4 Counter.reset, List.replicate 2 Comparator.reset⟩

/-- An engine at the start of an invocation. -/
def Eng.reset : Eng := ⟨Ctl.reset, none, none⟩

/-- The matrix engine with no active tile, free WSBs and empty links (R96). -/
def Mxe.reset : Mxe where
  wsbs := [none, none]
  wrWsb := 0
  fill := none
  checked := 0
  taken := 0
  activeTile := none
  tileSrc := none
  active := List.replicate 8 none
  shadow := List.replicate 8 none
  activeSum := none
  shadowSum := none
  refill := none
  firstPass := false
  feed := []
  feedPos := List.replicate 8 0
  vecs := 0
  rl := List.replicate 8 []
  cl := List.replicate 8 []
  passes := []
  parts := []
  halted := false
  unload := 0

/-- A monitor slot at reset. -/
def Mon.reset : Mon := ⟨.free, 0, 0⟩

/-- The formats of a leaf store and ACC that R141 or boot has set to zero: every block open, leaf FMT 7, ACC FMT 6
(R437). (DESIGN CHOICE, log 10) -/
def openAll : Table Nat :=
  (List.range 256).map (fun i => (i, 7)) ++ (List.range 256).map (fun i => (256 + i, 6))

/-- A core at reset: empty, its leaf store and ACC zero and open. (DESIGN CHOICE, log 10) -/
def Core.reset : Core where
  queue := []
  taken := none
  takenAt := 0
  run := none
  resident := []
  owner := none
  shown := false
  accVoid := false
  live := (0, 0)
  ended := none
  saved := []
  mxeE := Eng.reset
  vxeE := Eng.reset
  ldeE := Eng.reset
  xceE := Eng.reset
  mxe := Mxe.reset
  vq := []
  vred := none
  deliv := []
  rewinds := []
  ahead := []
  pend := []
  accRpts := []
  fetches := []
  nextRpt := 0
  tiles := 0
  vecBlks := 0
  mons := List.replicate 8 Mon.reset
  monClock := 0
  stir := []
  forced := false
  late := false
  openFmt := openAll
  stopped := []

/-- A grove at reset: CORE_16 left out (R17). -/
def GroveSt.reset : GroveSt := ⟨⟨[], [], []⟩, 16, none, [], []⟩

/-- A context that does not exist. -/
def Ctx.reset : Ctx := ⟨false, none, [], []⟩

/-- What a mill keeps for a context at its creation. -/
def AccCtx.reset : AccCtx := ⟨[], [], [], []⟩

/-- A channel at reset. -/
def Chan.reset : Chan := ⟨none, 0, 0, 0, [], [], 0⟩

/-- A base die at reset: every slot OPEN (Table 8.6). -/
def DieSt.reset : DieSt where
  admitted := []
  floorsIn := []
  stats := List.replicate 4 ⟨0, 0, 0⟩
  job := none
  table := List.replicate 64 4
  waiting := []
  queue := []
  chans := []
  pool := (0, 0, 0)
  nextReq := 0
  clock := 0
  swapAt := 0
  scrub := []
  doubled := false
  throttle := false
  lost := false
  silent := []

/-- A torus port at reset. -/
def TorusPort.reset : TorusPort where
  since := 0
  queue := []
  nextSeq := 0
  retry := []
  replays := 0
  ackSince := 0
  lastGood := -1
  discarding := false
  gotReplay := none
  goodSince := 0
  sent := List.replicate 6 0
  crd := List.replicate 6 0
  freed := List.replicate 6 0
  rx := []
  badGroups := 0
  wire := []

/-- A queue pair that no entry has set up. -/
def Qp.reset : Qp := ⟨zeros 64, true, 0, 0, 0, 0, none⟩

/-- A query ring at the start of its life. -/
def QRing.reset : QRing := ⟨0, [], 0, 0, false⟩

/-- What PWR keeps for a grove at reset: no ceiling of its own, nominal voltage. -/
def PwGrove.reset : PwGrove := ⟨63, 63, 0, 0, false, false, false, false, false, []⟩

/-- A processor that runs its first bank. -/
def Proc.reset : Proc := ⟨false, false⟩

/-! ### Access to cores, groves, contexts and ride ends -/

/-- A physical core. -/
def core (s : State) (c : Nat) : Core := tget s.cores c Core.reset

/-- Setting a core. -/
def setCore (c : Nat) (x : Core) (s : State) : State := { s with cores := tset s.cores c x }

/-- Changing a core. -/
def modCore (c : Nat) (f : Core → Core) (s : State) : State := setCore c (f (core s c)) s

/-- A grove. -/
def grove (s : State) (g : Nat) : GroveSt := tget s.groves g GroveSt.reset

/-- Changing a grove. -/
def modGrove (g : Nat) (f : GroveSt → GroveSt) (s : State) : State :=
  { s with groves := tset s.groves g (f (grove s g)) }

/-- A context. -/
def ctxSt (s : State) (n : Nat) : Ctx := tget s.ctxs n Ctx.reset

/-- Changing a context. -/
def modCtx (n : Nat) (f : Ctx → Ctx) (s : State) : State :=
  { s with ctxs := tset s.ctxs n (f (ctxSt s n)) }

/-- A ride end. -/
def rideEnd (s : State) (h : Nat) : RideEnd := lget s.ride h RideEnd.reset

/-- Changing a ride end. -/
def modRide (h : Nat) (f : RideEnd → RideEnd) (s : State) : State :=
  { s with ride := lset s.ride h (f (rideEnd s h)) }

/-- What a mill keeps for a context. -/
def accCtx (s : State) (d ctx : Nat) : AccCtx := tget s.accs (16 * d + ctx) AccCtx.reset

/-- Changing what a mill keeps for a context. -/
def modAcc (d ctx : Nat) (f : AccCtx → AccCtx) (s : State) : State :=
  { s with accs := tset s.accs (16 * d + ctx) (f (accCtx s d ctx)) }

/-- A base die. -/
def die (s : State) (d : Nat) : DieSt := tget s.dies d DieSt.reset

/-- Changing a base die. -/
def modDie (d : Nat) (f : DieSt → DieSt) (s : State) : State := { s with dies := tset s.dies d (f (die s d)) }

/-- A torus port. -/
def tport (s : State) (p : Nat) : TorusPort := tget s.ports p TorusPort.reset

/-- Changing a torus port. -/
def modPort (p : Nat) (f : TorusPort → TorusPort) (s : State) : State :=
  { s with ports := tset s.ports p (f (tport s p)) }

/-- What PWR keeps for a grove. -/
def pwGrove (s : State) (g : Nat) : PwGrove := tget s.pw g PwGrove.reset

/-- Changing what PWR keeps for a grove. -/
def modPw (g : Nat) (f : PwGrove → PwGrove) (s : State) : State := { s with pw := tset s.pw g (f (pwGrove s g)) }

/-- A firmware processor. -/
def proc (s : State) (p : Nat) : Proc := tget s.procs p Proc.reset

/-- Changing a firmware processor. -/
def modProc (p : Nat) (f : Proc → Proc) (s : State) : State := { s with procs := tset s.procs p (f (proc s p)) }

/-- SCH runs: it is not held in a restart (R508). -/
def schUp (s : State) : Bool := !(proc s 3).restarting

/-- The training that a running SCH drives. -/
def schTrain (s : State) : Option Train := if schUp s then s.train else none

/-- Code of a grove's GST (Table 16.3). -/
def gstCode (g : Nat) : Nat := 4 + g

/-- The GST of a grove runs. -/
def gstUp (s : State) (g : Nat) : Bool := !(proc s (gstCode g)).restarting

/-- Stack page of each half that SCH keeps for itself. (DESIGN CHOICE, log 41) -/
def schPage : Nat := 183016

/-- Block `i` of that page. -/
def schBlk (i : Nat) : Nat := schPage * 1024 + i

/-- One engine of a core. -/
def Core.eng (x : Core) : Engine → Eng
  | .mxe => x.mxeE
  | .vxe => x.vxeE
  | .lde => x.ldeE
  | .xce => x.xceE

/-- Setting one engine of a core. -/
def Core.setEng (x : Core) (e : Engine) (v : Eng) : Core :=
  match e with
  | .mxe => { x with mxeE := v }
  | .vxe => { x with vxeE := v }
  | .lde => { x with ldeE := v }
  | .xce => { x with xceE := v }

/-- Changing one engine's control. -/
def Core.modCtl (x : Core) (e : Engine) (f : Ctl → Ctl) : Core :=
  x.setEng e { x.eng e with ctl := f (x.eng e).ctl }

/-- The code of an engine (Tables 6.4, 7.5). -/
def engCode : Engine → Nat
  | .mxe => 0
  | .vxe => 1
  | .lde => 2
  | .xce => 3

/-- The four engines in the order of their codes. -/
def allEngines : List Engine := [.mxe, .vxe, .lde, .xce]

/-- The half of a physical core. -/
def coreHalf (c : Nat) : Nat := c / 272

/-- The grove `16h + g` of a physical core. -/
def coreGrove (c : Nat) : Nat := c / 17

/-- The slot of a physical core. -/
def coreSlot (c : Nat) : Nat := c % 17

/-- The logical core that a physical slot is (R111); none for the slot left out. -/
def lcOf (s : State) (c : Nat) : Option Nat :=
  let out := (grove s (coreGrove c)).slotOut.val
  if coreSlot c = out then none
  else some (16 * coreGrove c + (if coreSlot c = 16 then out else coreSlot c))

/-- The physical core of LC_n (R111). -/
def physOf (s : State) (lc : Nat) : Nat :=
  let g := lc / 16
  17 * g + (if (grove s g).slotOut.val = lc % 16 then 16 else lc % 16)

/-! ### Byte stores in canonical form -/

/-- `n` bytes from address `a`, the cells below `a` already dropped. -/
def readFrom (dflt : Nat → Byte) : Nat → Nat → List Host.Cell → Bytes
  | 0, _, _ => []
  | n + 1, a, [] => dflt a :: readFrom dflt n (a + 1) []
  | n + 1, a, (k, b) :: cs =>
    if k = a then b :: readFrom dflt n (a + 1) cs else dflt a :: readFrom dflt n (a + 1) ((k, b) :: cs)

/-- `n` bytes of a store from address `a`. -/
def cellsRead (dflt : Nat → Byte) (m : List Host.Cell) (a n : Nat) : Bytes :=
  readFrom dflt n a (m.dropWhile (·.1 < a))

/-- The cells of a byte string at `a`: those that differ from what an unlisted address reads as. -/
def cellsOf (dflt : Nat → Byte) : Nat → Bytes → List Host.Cell
  | _, [] => []
  | a, b :: bs => if b = dflt a then cellsOf dflt (a + 1) bs else (a, b) :: cellsOf dflt (a + 1) bs

/-- Writing a byte string at `a`. -/
def cellsWrite (dflt : Nat → Byte) (m : List Host.Cell) (a : Nat) (b : Bytes) : List Host.Cell :=
  m.filter (·.1 < a) ++ cellsOf dflt a b ++ m.filter (fun c => a + b.length ≤ c.1)

/-- The canonical form of a store: strictly rising addresses, no entry that reads as an unlisted address does. -/
def Memory.wf (dflt : Nat → Byte) : List Host.Cell → Bool
  | [] => true
  | [(a, b)] => b != dflt a
  | (a, b) :: (a', b') :: m => b != dflt a && (a < a' && Memory.wf dflt ((a', b') :: m))

/-- The key of a block: KIND, HALF and INDEX of Table 13.2 packed as 3, 1 and 28 bits. -/
def Loc.key : Loc → Nat
  | .stk h b => 1 * 2 ^ 29 + h.val * 2 ^ 28 + b
  | .und h frame blk => 2 * 2 ^ 29 + h.val * 2 ^ 28 + frame * 32 + blk
  | .leaf c blk => 3 * 2 ^ 29 + coreHalf c * 2 ^ 28 + ((c.val / 17 % 16) * 32 + coreSlot c) * 256 + blk
  | .acc c blk => 4 * 2 ^ 29 + coreHalf c * 2 ^ 28 + ((c.val / 17 % 16) * 32 + coreSlot c) * 256 + blk

/-- The location term of a block key (Table 13.2). -/
def termOfKey (k : Nat) : Nat := locTerm (k / 2 ^ 29) (k / 2 ^ 28 % 2) (k % 2 ^ 28)

/-- The location term of a place. -/
def Loc.term (l : Loc) : Nat := termOfKey l.key

/-- INDEX of the location term, the DETAIL of DATA_CORRUPT (R442). -/
def Loc.index (l : Loc) : Nat := l.key % 2 ^ 28

/-- The tag of a zero block of format 7 at a block key, formed with GEN 0 (Table 16.1 step 6).
(DESIGN CHOICE, log 10) -/
def zeroTag (k : Nat) : Nat := makeTag 7 0 (crcOfTerm (termOfKey k))

/-- What an unlisted device-memory address reads as: zero payload and side band, the zero block's tag.
(DESIGN CHOICE, log 10) -/
def memDefault (a : Nat) : Byte :=
  if a % 4096 < 2176 then 0
  else if a % 4096 < 2184 then BitVec.ofNat 8 (zeroTag (a / 4096) / 256 ^ (a % 4096 - 2176))
  else 0

/-- What an unlisted byte of the boot flash reads as: erased NOR. (DESIGN CHOICE, log 8) -/
def flashDefault (_ : Nat) : Byte := 0xFF

/-- What an unlisted byte of the log ring reads as. -/
def logDefault (_ : Nat) : Byte := 0

/-- Device-memory bytes. -/
def memRead (s : State) (a n : Nat) : Bytes := cellsRead memDefault s.mem a n

/-- Writing device-memory bytes. -/
def memWrite (a : Nat) (b : Bytes) (s : State) : State := { s with mem := cellsWrite memDefault s.mem a b }

/-- The byte address of an offset in a block. -/
def Loc.addr (l : Loc) (off : Nat) : Nat := l.key * 4096 + off

/-- Boot-flash bytes. (DESIGN CHOICE, log 8) -/
def flashRead (s : State) (a n : Nat) : Bytes := cellsRead flashDefault s.flash a n

/-- Writing boot-flash bytes. -/
def flashWrite (a : Nat) (b : Bytes) (s : State) : State := { s with flash := cellsWrite flashDefault s.flash a b }

/-! ### The log ring (R520) -/

/-- Slots of the log ring: 65,536, or 1,024 in SCH's data memory after a stack of HALF_0 has failed (R503). -/
def logSlots (s : State) : Nat := if s.logSmall then 1024 else 65536

/-- Bytes of the log ring from a slot on, continuing modulo the ring. -/
def logRead (s : State) (slot n : Nat) : Bytes := cellsRead logDefault s.logMem (slot % logSlots s * 64) n

/-- Writing whole slots one by one modulo the ring. -/
def logPut (n : Nat) : Nat → Nat → Bytes → List Host.Cell → List Host.Cell
  | 0, _, _, m => m
  | k + 1, slot, b, m => logPut n k ((slot + 1) % n) (b.drop 64) (cellsWrite logDefault m (slot * 64) (slice b 0 64))

/-- Slots of the entry at a slot. -/
def logEntrySlots (s : State) (slot : Nat) : Nat := ceilDiv (16 + fieldAt (logRead s slot 16) 4 4) 64

/-- Destroying the oldest entries until `need` more slots fit: fuel, slots used, tail, entries lost. -/
def logMakeRoom (s : State) (n need : Nat) : Nat → Nat → Nat → Nat → Nat × Nat
  | 0, _, tail, lost => (tail, lost)
  | f + 1, used, tail, lost =>
    if used + need ≤ n then (tail, lost)
    else
      let e := logEntrySlots s tail
      logMakeRoom s n need f (used - e) ((tail + e) % n) (lost + 1)

/-- Raising an MSI-X vector on the steward port (Table 12.9). (DEDUCED, log 47) -/
def raiseMsix (v : Nat) (s : State) : State := { s with msix := s.msix ++ [v] }

/-- Writing one log entry: trace point, source, content (R520, Table 16.6), and vector 6 (R522). -/
def logWrite (tpn src : Nat) (content : Bytes) (s : State) : State :=
  let n := logSlots s
  let e := toLe 2 tpn ++ toLe 1 src ++ [0] ++ toLe 4 content.length ++ toLe 8 s.time ++ content
  let k := ceilDiv e.length 64
  let head := rd s fLogHead 0
  let tail := rd s fLogTail 0
  let used := if s.logFull then n else (head + n - tail) % n
  let (tail', lost) := logMakeRoom s n k k used tail 0
  let s1 := { s with logMem := logPut n k (head % n) e s.logMem, logFull := decide ((head + k) % n = tail') }
  let s2 := bump fLogLost 0 lost (wr fLogTail 0 tail' (wr fLogHead 0 ((head + k) % n) s1))
  if head = tail ∧ !s.logFull then raiseMsix 6 s2 else s2

/-- Code of the hardware as a log source (Table 16.6). -/
def srcHw : Nat := 63

/-- Code of SCH (Table 16.3). -/
def srcSch : Nat := 3

/-! ### Tensor blocks and tags (R433 to R442) -/

/-- The payload, side band and stored tag of a block. -/
def blkStored (s : State) (l : Loc) : Blk :=
  let b := memRead s (l.addr 0) 2184
  ⟨b.take 2048, (b.drop 2048).take 128, BitVec.ofNat 64 (leNat (b.drop 2176))⟩

/-- Writing payload, side band and a stored tag. -/
def blkStore (l : Loc) (b : Blk) (s : State) : State :=
  memWrite (l.addr 0) (b.pay ++ b.side ++ toLe 8 b.tag.toNat) s

/-- The CRC of a block's contents over a location term (R434). -/
def Blk.crc (b : Blk) (term : Nat) : Nat := crc32c (b.pay ++ b.side ++ toLe 8 term)

/-- Forming the tag of contents at a location term (R437). -/
def formTag (fmt gen term : Nat) (pay side : Bytes) : BitVec 64 :=
  BitVec.ofNat 64 (makeTag fmt gen (crc32c (pay ++ side ++ toLe 8 term)))

/-- The outcome of one landing (Table 13.3): the corrected tag and whether it was repaired, or a failure and whether
CHK_FAULT counts it. -/
inductive LandOutcome where
  | accepted (tag : Nat) (repaired : Bool)
  | failed (counted : Bool)
deriving DecidableEq, Repr

/-- The landing check of a block against its expected location term (R440, R441). -/
def landCheck (b : Blk) (term : Nat) : LandOutcome :=
  match decodeTag b.tag.toNat with
  | none => .failed true
  | some (t, ev) =>
    if tagCrc t = b.crc term then .accepted (guardOf t * 2 ^ 56 + t) (ev == .single)
    else .failed (ev == .single)

/-- The die of a stack block (R232): `8h + s`. -/
def dieOf (h b : Nat) : Nat :=
  8 * h + Nat.xor (Nat.xor b (b / 2 ^ 8)) (b / 2 ^ 16) % 8

/-! ### Integrity events (R445) -/

/-- The channel of a stack block (R232). -/
def chanOf (b : Nat) : Nat := Nat.xor (b / 2 ^ 3) (b / 2 ^ 11) % 32

/-- The row of a stack block (R232). -/
def rowOf (b : Nat) : Nat := b / 2 ^ 8

/-- A number as a die. -/
def asDie (n : Nat) : Die := ⟨n % 16, Nat.mod_lt _ (by decide)⟩

/-- A number as a grove. -/
def asGrove (n : Nat) : Grove := ⟨n % 32, Nat.mod_lt _ (by decide)⟩

/-- A number as a physical core. -/
def asCore (n : Nat) : CoreId := ⟨n % 544, Nat.mod_lt _ (by decide)⟩

/-- The unit that a failed landing of a block observes (Table 13.4): mill of the stack, grove of understorey or leaf. -/
def Loc.unit : Loc → HwUnit
  | .stk h b => .mill (asDie (dieOf h b))
  | .und h frame _ => .grove (asGrove (16 * h.val + frame / 2 ^ 13 % 16))
  | .leaf c _ => .grove (asGrove (coreGrove c))
  | .acc c _ => .grove (asGrove (coreGrove c))

/-- An integrity event of a class (0 CHECK, 1 TRANSIT, 2 DATA, 3 COMPUTE), with its unit where it has one, waits for SCH to take it (R455,
R464). (DEDUCED, log 44) -/
def unitNote (cls : Nat) (u : Option HwUnit) (s : State) : State := { s with unitEvs := s.unitEvs ++ [(cls, u, s.time)] }

/-- A COMPUTE event of a unit: counted, EVENT set. -/
def computeEvent (u : HwUnit) (s : State) : State := unitNote 3 (some u) (wr fEvent 0 1 (bump fCompEvent 0 1 s))

/-- A DATA event: counted, EVENT set (R442). -/
def dataEvent (u : Option HwUnit) (s : State) : State := unitNote 2 u (wr fEvent 0 1 (bump fDataFault 0 1 s))

/-- A TRANSIT event: counted (R442). -/
def transitEvent (u : Option HwUnit) (s : State) : State := unitNote 1 u (bump fXferFault 0 1 s)

/-- Marking the training step in progress (R449), with the fault code where there is one. -/
def markStep (code : Option Nat) (s : State) : State :=
  match s.train with
  | some t =>
    if t.phase = .work ∨ t.phase = .stats then { s with train := some { t with marked := true, lastCode := code.getD t.lastCode } } else s
  | none => s

/-- Counting and logging a repaired tag (Table 13.3); the record's content is the location term. (DEDUCED, log 18) -/
def noteRepaired (l : Option Loc) (s : State) : State :=
  unitNote 0 (l.map Loc.unit) (logWrite 0x0106 srcHw (toLe 8 (match l with | some l => l.term | none => 0)) (bump fChkRepaired 0 1 s))

/-- A side band with the bytes that its format does not use set to zero (R49). -/
def cleanSide (fmt : Nat) (side : Bytes) : Bytes :=
  if fmt = 3 then side else if fmt = 2 then side.take 64 ++ zeros 64 else zeros 128

/-- A block as the ACC holds it: format code 6 and a side band of zeros (R49, R225). (DEDUCED, log 99) -/
def accForm (l : Loc) (b : Blk) : Blk := ⟨b.pay, zeros 128, formTag 6 (tagGen b.tag.toNat) l.term b.pay (zeros 128)⟩

/-- A block as it stands at its place after it has travelled with a zero location term: its tag re-formed (R435, R436). -/
def landed (l : Loc) (b : Blk) : Blk :=
  match l with
  | .acc .. => accForm l b
  | _ => { b with tag := BitVec.ofNat 64 (reformTag b.tag.toNat 0 l.term) }

/-- Writing a block that travels with a zero location term to its place: re-formed, closed (R435, R436). -/
def blkLand (l : Loc) (b : Blk) (s : State) : State :=
  let s1 := match decodeTag b.tag.toNat with
    | some (_, .single) => noteRepaired (some l) s
    | _ => s
  let s2 := blkStore l (landed l b) s1
  match l with
  | .leaf c n => modCore c (fun x => { x with openFmt := tdel x.openFmt n }) s2
  | .acc c n => modCore c (fun x => { x with openFmt := tdel x.openFmt (256 + n) }) s2
  | _ => s2

/-- GEN of a context (R438). -/
def genOf (s : State) (ctx : Nat) : Nat := rd s fGen ctx

/-- The format under which an open leaf or ACC block waits, with its core and number; none for a closed one. -/
def openOf (s : State) : Loc → Option (CoreId × Nat × Nat)
  | .leaf c n => if (core s c).openFmt.any (·.1 == n) then some (c, n, tget (core s c).openFmt n 7) else none
  | .acc c n =>
    if (core s c).openFmt.any (·.1 == 256 + n) then some (c, 256 + n, tget (core s c).openFmt (256 + n) 6) else none
  | _ => none

/-- Closing an open block on the first read that takes it out: its tag is formed (R437). -/
def blkClose (ctx : Nat) (l : Loc) (s : State) : State :=
  match openOf s l with
  | none => s
  | some (c, n, fmt) =>
    let b := blkStored s l
    let s1 := memWrite (l.addr 2176) (toLe 8 (formTag fmt (genOf s ctx) l.term b.pay b.side).toNat) s
    modCore c (fun x => { x with openFmt := tdel x.openFmt n }) s1

/-- Marking a leaf or ACC block open with a format (R437). -/
def blkOpen (c : Nat) (n fmt : Nat) (s : State) : State :=
  modCore c (fun x => { x with openFmt := tset x.openFmt n fmt }) s

/-- A bit as a half. -/
def halfOf (n : Nat) : Half := ⟨n % 2, Nat.mod_lt _ (by decide)⟩

/-! ### Transfers over the ride (R28, R29, R34 to R36, R564) -/

/-- The other half. -/
def otherHalf (h : Half) : Half := if h = 0 then 1 else 0

/-- Cutting a transfer into flits of 248 bytes: the first of type 1, the last of type 3 (R34, R36).
(DESIGN CHOICE, log 16) -/
def rideCut (cls : Fin 4) (xfer : Nat) : Nat → Bool → Bytes → List RideFlit
  | 0, _, _ => []
  | 1, _, b => [⟨cls, 3, slice b 0 248, xfer, true⟩]
  | n + 2, first, b => ⟨cls, if first then 1 else 2, slice b 0 248, xfer, false⟩ :: rideCut cls xfer (n + 1) false (b.drop 248)

/-- The flits of a numbered transfer become ready at the transmitter of a half; nothing is sent behind a firebreak (R516). -/
def rideEmit (id : Nat) (h : Half) (cls : Fin 4) (b : Bytes) (s : State) : State :=
  if (rideEnd s h).down then s
  else modRide h.val (fun r => { r with ready := r.ready ++ rideCut cls id (ceilDiv b.length 248) true b }) s

/-- Handing a transfer to the transmitter of a half; its number. -/
def rideSend (h : Half) (cls : Fin 4) (b : Bytes) (s : State) : State × Nat :=
  (rideEmit s.xfers h cls b { s with xfers := s.xfers + 1 }, s.xfers)

/-- The bytes of a block transfer (R36): payload, side band, tag and the 48-byte transfer header, whose layout the spec
does not give (address first, then zero). -/
def rideBlock (addr : Nat) (b : Blk) : Bytes := b.pay ++ b.side ++ toLe 8 b.tag.toNat ++ toLe 8 addr ++ zeros 40

/-- The bytes of a word transfer: a transfer header alone. -/
def rideWord (addr amt : Nat) : Bytes := toLe 8 addr ++ toLe 8 amt ++ zeros 32

/-- A transfer that an operation awaits has arrived. -/
def rideArrived (s : State) (ride : Option Nat) : Bool :=
  match ride with
  | none => true
  | some id => s.rideDone.contains id

/-- The ride class of an access of a context (R34): serving traffic, torus traffic, or general. -/
def rideClass (s : State) (ctx : CtxId) (torus : Bool) : Fin 4 :=
  if s.sctx = some ctx then 1 else if torus then 2 else 3

/-- The ride class of completions and acknowledgements (Table 1.4). -/
def rideEscape : Fin 4 := 0

/-- Letting an effect wait for a ride transfer. (DESIGN CHOICE, log 97) -/
def rideWait (after : Nat) (a : RideDo) (s : State) : State := { s with rideNext := s.rideNext ++ [⟨after, a⟩] }

/-- A transfer that leaves once another one has arrived, at once where none is awaited. (DESIGN CHOICE, log 97) -/
def rideLater (pre : Option Nat) (h : Half) (cls : Fin 4) (b : Bytes) (s : State) : State × Nat :=
  match pre with
  | none => rideSend h cls b s
  | some a =>
    if s.rideDone.contains a then rideSend h cls b s
    else (rideWait a (.send s.xfers h cls b) { s with xfers := s.xfers + 1 }, s.xfers)

/-- The half of a place. -/
def Loc.half (l : Loc) : Half := halfOf (l.key / 2 ^ 28)

/-- The class in which an access of a context is served at a stack port (R28, R280, R349): serving traffic in Q, requests from the ride or
the fabric in F, those of the half itself in H. -/
def portClass (s : State) (ctx : CtxId) (far : Bool) : SClass := if s.sctx = some ctx then .q else if far then .f else .h

/-- A number as a context. -/
def asCtx (n : Nat) : CtxId := ⟨n % 16, Nat.mod_lt _ (by decide)⟩

/-- The requester number of the mill and the fabric (Table 8.6). -/
def whoFabric : Nat := 0xFFFF

/-- An access to a block sends its request to the stack port where the block lies in a stack, once a ride transfer has arrived (R270). The
arbiter orders the transfers of a channel; what the access reads or writes is the matter of its own command. (DESIGN CHOICE, log 102) -/
def stkAsk (cls : SClass) (kind : SKind) (who : Nat) (esc : Bool) (ride : Option Nat) (l : Loc) (s : State) : State :=
  match l with
  | .stk h b => { s with stkReqs := s.stkReqs ++ [⟨dieOf h b, ride, ⟨cls, kind, b, who, esc, 0, 0⟩⟩] }
  | _ => s

/-- A core's access. -/
def coreAsk (c : Nat) (ctx : CtxId) (kind : SKind) (ride : Option Nat) (l : Loc) (s : State) : State :=
  stkAsk (portClass s ctx (l.half.val != coreHalf c)) kind ((lcOf s c).getD whoFabric) false ride l s

/-- An access from another package or an outside party. -/
def farAsk (ctx : CtxId) (kind : SKind) (l : Loc) (s : State) : State := stkAsk (portClass s ctx true) kind whoFabric false none l s

/-- An access of a firmware processor, a restore engine or another unit of the half. -/
def unitAsk (ctx : CtxId) (kind : SKind) (l : Loc) (s : State) : State := stkAsk (portClass s ctx false) kind whoFabric false none l s

/-- Accesses of a mill or of the scrubber, in class M (R273, R285). -/
def millAsks (kind : SKind) (h : Half) (bs : List Nat) (s : State) : State :=
  bs.foldl (fun t b => stkAsk .m kind whoFabric false none (.stk h b) t) s

/-- A read of a place of the other half by a core: the request crosses the ride, and then its data; the number of the data's
transfer, none for a place of the core's own half (R28). The stack port gets the request, for a block or for a word's segment.
(DESIGN CHOICE, log 97) -/
def rideRead (c : Nat) (ctx : CtxId) (l : Loc) (data : Bytes) (s : State) : State × Option Nat :=
  let kind : SKind := if data.length < 2048 then .short 64 else .read
  if l.half.val = coreHalf c then (coreAsk c ctx kind none l s, none)
  else
    let cls := rideClass s ctx false
    let (s1, q) := rideSend (halfOf (coreHalf c)) cls (rideWord (l.addr 0) 0) s
    let (s2, id) := rideLater (some q) l.half cls data (coreAsk c ctx kind (some q) l s1)
    (s2, some id)

/-- A completion, acceptance, acknowledgement or wake that returns from a half to a core: over the ride in the escape class where
the core is in the other half (R564). -/
def rideBack (h : Half) (c : Nat) (s : State) : State × Option Nat :=
  if h.val = coreHalf c then (s, none)
  else
    let (s1, id) := rideSend h rideEscape (rideWord 0 0) s
    (s1, some id)

/-- The half of a word's home memory. -/
def Home.half : Home → Half
  | .leaf c => halfOf (coreHalf c.val)
  | .und g => halfOf (g.val / 16)
  | .die d => halfOf (d.val / 8)

/-- Waking the watches of a list that lie in a byte range (R211); the wake of a slot in the other half crosses the ride (R564). -/
def wakeList (a n : Nat) : List Watch → State → State × List Watch
  | [], s => (s, [])
  | w :: ws, s =>
    if w.word < a + n ∧ a < w.word + 4 ∧ !w.woken then
      let (s1, ride) := rideBack w.home.half w.core s
      let (s2, vs) := wakeList a n ws s1
      (s2, { w with woken := true, ride := ride } :: vs)
    else
      let (s1, vs) := wakeList a n ws s
      (s1, w :: vs)

/-- Waking every watch on a byte range (R211). -/
def wakeRange (a n : Nat) (s : State) : State :=
  let (s1, ws) := wakeList a n s.watches s
  { s1 with watches := ws }

/-! ### Fault records and context faults (R247, R248) -/

/-- What a fault record says of where the fault arose (Table 7.5). (DEDUCED, log 13) -/
structure Site where
  unit   : Nat
  lc     : Nat
  pc     : Nat
  rep    : Nat
  chunk  : Nat
  invSeq : Nat
  addr   : Nat
deriving DecidableEq, Repr

/-- A site outside any core. -/
def Site.bare (unit addr : Nat) : Site := ⟨unit, 0xFFFF, 0, 0, 0, 0, addr⟩

/-- The 64 bytes of a fault record (Table 7.5). -/
def faultRecord (s : State) (ctx code : Nat) (secondary : Bool) (detail : Nat) (w : Site) : Bytes :=
  toLe 4 0x464C5452 ++ toLe 2 code ++ toLe 1 (ctx + bnat secondary * 128) ++ toLe 1 w.unit ++ toLe 2 w.lc
    ++ toLe 2 w.pc ++ toLe 2 w.rep ++ zeros 2 ++ toLe 4 w.chunk ++ toLe 4 w.invSeq ++ toLe 7 w.addr ++ zeros 1
    ++ toLe 4 detail ++ zeros 4 ++ toLe 8 s.time ++ zeros 16

/-- A write of part of one stack block by the device itself: merged, and the tag formed over the result (R437).
(DESIGN CHOICE, log 15) -/
def stkPatch (h : Half) (p : Nat) (d : Bytes) (gen : Nat) (s : State) : State :=
  let l := Loc.stk h (p / 2048)
  let b := blkStored s l
  let pay := splice b.pay (p % 2048) d
  let side := cleanSide (tagFmt b.tag.toNat) b.side
  wakeRange (l.addr (p % 2048)) d.length (blkStore l ⟨pay, side, formTag (tagFmt b.tag.toNat) gen l.term pay side⟩ s)

/-- Bytes of stack payload from a physical offset, inside one block. (DESIGN CHOICE, log 15) -/
def stkRead (s : State) (h : Half) (p n : Nat) : Bytes := memRead s ((Loc.stk h (p / 2048)).addr (p % 2048)) n

/-- Usable stack payload of a half in bytes (R232). -/
def stkBytes : Nat := 188743680 * 2048

/-- Writing a fault record into the context's queue and reporting it to SCH, which copies it to the log ring (R248).
(DESIGN CHOICE, log 15) -/
def writeFaultRecord (ctx : Nat) (rec : Bytes) (s : State) : State :=
  let head := rd s fFqHead ctx
  let s1 :=
    if (head + 1) % 256 = rd s fFqTail ctx then bump fFqLost ctx 1 s
    else
      let p := rd s fFqBase ctx * 2 ^ 14 + 64 * head
      let s0 := 
        if p + 64 ≤ stkBytes then
          stkPatch (halfOf (rd s fFqHalf ctx)) p rec (genOf s ctx)
            (unitAsk (asCtx ctx) (.short 64) (.stk (halfOf (rd s fFqHalf ctx)) (p / 2048)) s)
        else s
      bumpWrap fFqHead ctx 1 s0
  logWrite 0x0100 srcSch rec s1

/-- Whether a core runs an invocation of a context. -/
def runsCtx (x : Core) (ctx : Nat) : Bool :=
  match x.run with
  | some (d, _) => d.ctx.val == ctx
  | none => false

/-- The physical cores that run an invocation of a context. -/
def coresRunning (s : State) (ctx : Nat) : List Nat := (s.cores.filter fun e => runsCtx e.2 ctx).map (·.1)

/-- Whether a pass that FORCE lets run to completion is in flight (R144 exception 1): an ACC_ADD repeat that has issued. The passes ahead
of it complete with it. (DEDUCED, log 31) -/
def accAddRuns (m : Mxe) : Bool := !m.halted && m.passes.any (·.dmode == 1)

/-- Whether an engine of a core goes on (R144): it has not been forced, or it is the LDE and feeds a running ACC_ADD repeat. -/
def goesOn (x : Core) (e : Engine) : Bool := (!x.forced || (e == .lde && accAddRuns x.mxe)) && !x.stopped.contains e

/-- The monitor slots of engines that a cut stops turn warm (R212). -/
def releaseSlots (x : Core) : Core :=
  { x with mons := x.mons.map fun m => match m.st with
      | .active e => if goesOn x e then m else { m with st := .warm }
      | _ => m }

/-- Stopping issue on a core as under FORCE (R144, R212, R247). -/
def stopCore (c : Nat) (s : State) : State := modCore c (fun x => releaseSlots { x with forced := true }) s

/-- An engine that raises a fault issues no further repeat before the cut (R160, R247). -/
def stopEngine (who : Option (Nat × Engine)) (s : State) : State :=
  match who with
  | some (c, e) => modCore c (fun x => releaseSlots { x with stopped := e :: x.stopped }) s
  | none => s

/-- A core on which an invocation runs. -/
def runsInv (x : Core) (inv : BitVec 32) (ctx : Option CtxId) : Bool :=
  match x.run with
  | some (d, _) => d.invSeq == inv && some d.ctx == ctx
  | none => false

/-- The cores of a grove. -/
def groveCores (g : Nat) : List Nat := (List.range 17).map fun i => 17 * g + i

/-- A query has begun to run on its grove: a core runs its invocation, holds its kind 2 record or has ended it. -/
def queryRunning (s : State) (g : Nat) (q : Query) : Bool :=
  let begun (left : List Nat) : Bool :=
    decide (left.length < 16) || (groveCores g).any fun c =>
      runsInv (core s c) q.inv s.sctx
        || (core s c).saved.any fun r => r.kind == 2 && r.invSeq == q.inv && some r.ctx == s.sctx
  match q.stage with
  | .running l => begun l
  | .forwarding l => begun l
  | _ => false

/-- A fault of the serving context ends every query that is running (R354). -/
def strikeQueries (ctx : CtxId) (s : State) : State :=
  if s.sctx = some ctx then
    match s.serve with
    | none => s
    | some v => { s with serve := some { v with queries := v.queries.map fun e =>
        (e.1, e.2.map fun q => if queryRunning s e.1 q then { q with stage := .failed } else q) } }
  else s

/-- A context fault (R247): the first one writes its record and orders the cuts; a further one before every cut is done
writes a SECONDARY record, at most one per engine; after that nothing of the context runs. Running queries of the serving context end (R354).
`who` is the core and engine
concerned. (DEDUCED, log 29) -/
def ctxFault (ctx : CtxId) (code detail : Nat) (w : Site) (who : Option (Nat × Engine))
    (s : State) : State :=
  let x := ctxSt s ctx
  match x.fault with
  | none =>
    let cs := coresRunning s ctx
    let s1 := strikeQueries ctx (writeFaultRecord ctx (faultRecord s ctx code false detail w) s)
    let s2 := modCtx ctx (fun y => { y with fault := some (code, detail), cuts := cs }) s1
    stopEngine who (cs.foldl (fun t c => stopCore c t) s2)
  | some _ =>
    if x.cuts.isEmpty then s
    else
      match who with
      | none => writeFaultRecord ctx (faultRecord s ctx code true detail w) s
      | some p =>
        if x.second.contains p then s
        else
          stopEngine who (modCtx ctx (fun y => { y with second := p :: y.second })
            (writeFaultRecord ctx (faultRecord s ctx code true detail w) s))

/-- The site of an engine's current repeat. (DEDUCED, log 13) -/
def engSite (s : State) (c : Nat) (e : Engine) (addr : Nat) : Site :=
  let x := core s c
  let k := (x.eng e).ctl
  ⟨engCode e, (lcOf s c).getD 0xFFFF, k.pc, k.rep, k.chunk.toNat,
    match x.run with | some (d, _) => d.invSeq.toNat | none => 0, addr⟩

/-- A fault of an engine's repeat: the context of its invocation faults (R160). (DEDUCED, log 13) -/
def engFault (c : CoreId) (e : Engine) (code detail addr : Nat) (s : State) : State :=
  match (core s c).run with
  | none => s
  | some (d, _) => ctxFault d.ctx code detail (engSite s c e addr) (some (c.val, e)) s

/-! ### Poison (R443) -/

/-- Entering a block in its die's poison list of 64 (R443, R466). -/
def poisonAdd (h : Half) (b : Nat) (s : State) : State :=
  let d := dieOf h b
  let l := tget s.poison d []
  if l.contains b || 64 ≤ l.length then s else { s with poison := tset s.poison d (l ++ [b]) }

/-- Removing a block from its die's poison list (R443). -/
def poisonDel (h : Half) (b : Nat) (s : State) : State :=
  let d := dieOf h b
  let l := tget s.poison d []
  if l.contains b then { s with poison := tset s.poison d (l.filter (· != b)) } else s

/-- Whether a block is poisoned. -/
def poisoned (s : State) : Loc → Bool
  | .stk h b => (tget s.poison (dieOf h b) []).contains b
  | _ => false

/-- The outcome of fetching a block out of its place. -/
inductive Fetched where
  | ok (b : Blk) | bad
deriving DecidableEq, Repr

/-- Reading a block out of a store and landing it (R436, R440 to R443): an open block is closed first; a repaired tag is
counted; a block that fails is read three times, counted, and enters the poison list. The block travels on with a zero
location term. -/
def blkFetch (ctx : Nat) (l : Loc) (s : State) : State × Fetched :=
  if poisoned s l then (dataEvent (some l.unit) s, .bad)
  else
    let s1 := blkClose ctx l s
    let b := blkStored s1 l
    match landCheck b l.term with
    | .accepted t rep =>
      ((if rep then noteRepaired (some l) s1 else s1), .ok { b with tag := BitVec.ofNat 64 (reformTag t l.term 0) })
    | .failed counted =>
      let s2 := dataEvent (some l.unit) (bump fChkFault 0 (if counted then 3 else 0) s1)
      ((match l with | .stk h n => poisonAdd h n s2 | _ => s2), .bad)

/-- FMT of a block in transit. -/
def Blk.fmt (b : Blk) : Nat := tagFmt b.tag.toNat

/-! ### Sync words (R199 to R202) -/

/-- The stack block of a word's address; another place for a word of leaf store or understorey (Table 13.2). -/
def wordLoc (a : Nat) : Loc :=
  let k := a / 4096
  if k / 2 ^ 29 = 1 then .stk (halfOf (k / 2 ^ 28)) (k % 2 ^ 28) else .leaf 0 0

/-- Reading the 4-byte word at a global byte address. -/
def wordRead (s : State) (a : Nat) : Nat := leNat (memRead s a 4)

/-- The saturating sum of R199 and whether it saturated. -/
def satSum (old : Nat) (amt : Int) : Nat × Bool :=
  let x := (old : Int) + amt
  if x < 0 then (0, true) else if x > 0xFFFFFFFF then (0xFFFFFFFF, true) else (x.toNat, false)

/-- Whether a block key is of a leaf or ACC block that is open. -/
def keyOpen (s : State) (k : Nat) : Bool :=
  let c := asCore (17 * (16 * (k / 2 ^ 28 % 2) + k % 2 ^ 28 / 8192 % 16) + k % 2 ^ 28 / 256 % 32)
  if k / 2 ^ 29 = 3 then (core s c).openFmt.any (·.1 == k % 256)
  else if k / 2 ^ 29 = 4 then (core s c).openFmt.any (·.1 == 256 + k % 256)
  else false

/-- Writing a sync word in place: the CRC of a closed block's tag changes with it and GUARD is recomputed (R202, R437). -/
def wordWrite (a v : Nat) (s : State) : State :=
  let k := a / 4096
  let old := wordRead s a
  let s1 := memWrite a (toLe 4 v) s
  if keyOpen s k then s1
  else
    let tag := leNat (memRead s (k * 4096 + 2176) 8)
    let t := putBits (tag % 2 ^ 56) 0 32 (Nat.xor (tagCrc tag) (crcWordDelta (a % 4096) (Nat.xor old v)))
    memWrite (k * 4096 + 2176) (toLe 8 (guardOf t * 2 ^ 56 + t)) s1

/-- Recording a saturation in a context (R201, R203); the log record only on the first after SYNC_SAT has been clear. SAT_ADDR takes the
lowest address of the words that saturate in the cycle in which SYNC_SAT is set. (DEDUCED, log 100) -/
def noteSat (ctx : CtxId) (va : Nat) (s : State) : State :=
  let s1 := bump fSatCount ctx 1 (wr fSyncSat ctx 1 s)
  if !rdb s fSyncSat ctx then
    logWrite 0x0102 srcSch (toLe 1 ctx.val ++ zeros 7 ++ toLe 7 va ++ zeros 1)
      (wr fSatAddr ctx va { s1 with satAt := tset s1.satAt ctx s.time })
  else if s.satAt.contains (ctx.val, s.time) then wr fSatAddr ctx (min va (rd s fSatAddr ctx)) s1
  else s1

end Sys2Proof.Machine
end

