-- ==== Sys2Proof/Machine/Operands.lean ====
section
/-! DEFINITION. Operands of the stream instructions: address registers, the address map, translation, the checks of
Table 5.5, and the control of lists, repeats and chunks (spec/04, 05, 07). -/

namespace Sys2Proof.Machine

/-! ### Address registers (R133 to R135) -/

/-- The current address of a register (R133). -/
def AddrReg.addr (a : AddrReg) : BitVec 56 :=
  BitVec.ofInt 56 (a.base.toNat + a.c0.toNat * a.s0.toInt + a.c1.toNat * a.s1.toInt)

/-- One step of a register, or none where it raises AR_OVERFLOW (R133, R134). -/
def AddrReg.step (a : AddrReg) : Option AddrReg :=
  if a.w0 = 0 ∧ a.c0 = 0xFFFFFFFF then none
  else
    let c0 := a.c0 + 1
    if a.w0 ≠ 0 ∧ c0.toNat = a.w0.toNat then
      if a.w1 = 0 ∧ a.c1 = 0xFFFFFFFF then none
      else
        let c1 := a.c1 + 1
        some { a with c0 := 0, c1 := if a.w1 ≠ 0 ∧ c1.toNat = a.w1.toNat then 0 else c1 }
    else some { a with c0 := c0 }

/-- AR_n of an engine. -/
def Ctl.ar (k : Ctl) (n : Nat) : AddrReg := lget k.ars n AddrReg.reset

/-- The address an operand descriptor names (R157). -/
def Ctl.opAddr (k : Ctl) (o : Opd) : BitVec 56 := (k.ar o.ari).addr

/-- The registers that the operands of a repeat step, each once (R135), lowest first. -/
def steppedArs (os : List Opd) : List Nat :=
  (List.range 16).filter fun n => os.any fun o => o.step && !o.q && o.ari == n

/-- Stepping registers one after the other; the index of the first that overflows (R134). -/
def stepArs : List Nat → Ctl → Except Nat Ctl
  | [], k => .ok k
  | n :: ns, k =>
    match (k.ar n).step with
    | none => .error n
    | some a => stepArs ns { k with ars := lset k.ars n a }

/-! ### Counters and comparators (R137 to R140) -/

/-- The modulus of a counter: MOD, or 2^32 when MOD is zero. -/
def Counter.m (c : Counter) : Nat := if c.mod = 0 then 2 ^ 32 else c.mod.toNat

/-- CNTADD of a signed amount (R137). -/
def Counter.add (c : Counter) (n : Int) : Counter :=
  { c with val := BitVec.ofInt 32 (((c.val.toNat : Int) + n) % (c.m : Int)) }

/-- Whether a comparator holds of a counter value (Table 4.6); 6 and 7 are reserved and hold never. -/
def cmpHolds (cond : Nat) (v w : BitVec 32) : Bool :=
  match cond with
  | 0 => true
  | 1 => v == w
  | 2 => v != w
  | 3 => v.toNat < w.toNat
  | 4 => w.toNat ≤ v.toNat
  | _ => false

/-- CMP_n evaluated now (R140). -/
def Ctl.cmpNow (k : Ctl) (n : Nat) : Bool :=
  let c := lget k.cmps n Comparator.reset
  cmpHolds c.cond.val (lget k.cnts c.src.val Counter.reset).val c.value

/-! ### Lists, repeats and chunks (R113, R119, R131, R138) -/

/-- Prologue and body lengths of an engine's list in a list set. -/
def ListSet.pro (l : ListSet) (e : Engine) : Nat := lget l.lens (2 * engCode e) 0

/-- The body length. -/
def ListSet.body (l : ListSet) (e : Engine) : Nat := lget l.lens (2 * engCode e + 1) 0

/-- The index of an engine's first instruction in the list set (R119). -/
def ListSet.first (l : ListSet) (e : Engine) : Nat := (l.lens.take (2 * engCode e)).sum

/-- The word at an engine's PC. -/
def ListSet.word (l : ListSet) (e : Engine) (pc : Nat) : Nat := (lget l.ins (l.first e + pc) 0).toNat

/-- PART after the PC has moved: the body follows the prologue, and an engine past its last body is finished (R113). -/
def Ctl.settle (k : Ctl) (l : ListSet) (e : Engine) (chunks : BitVec 32) : Ctl :=
  let p1 := if k.part = .prologue ∧ l.pro e ≤ k.pc then EPart.body else k.part
  let p2 := if p1 = .body ∧ l.pro e + l.body e ≤ k.pc ∧ chunks.toNat ≤ k.chunk.toNat + 1 then EPart.finished else p1
  { k with part := p2 }

/-- Control after one repeat of an instruction of REP + 1 repeats has issued. -/
def Ctl.advance (k : Ctl) (l : ListSet) (e : Engine) (chunks : BitVec 32) (rep : Nat) : Ctl :=
  if k.rep < rep then { k with rep := k.rep + 1 }
  else Ctl.settle { k with pc := k.pc + 1, rep := 0 } l e chunks

/-! ### Regions (Table 7.1) -/

/-- Where an address points. -/
inductive Region where
  | stk (h : Half) (off : Nat)
  | und (off : Nat)
  | leaf (self : Bool) (lc off : Nat)
  | acc (self : Bool) (lc off : Nat)
  | rstk (h : Half) (x y z off : Nat)
  | rund (x y z off : Nat)
  | stn (handle off : Nat)
deriving DecidableEq, Repr

/-- The region of an address, or none where the code is reserved or a field that must be zero is not (R227, R228). -/
def regionOf (va : BitVec 56) : Option Region :=
  let v := va.toNat
  let o39 := bits v 0 39
  match bits v 52 4 with
  | 0 => if bits v 39 13 = 0 then some (.stk 0 o39) else none
  | 1 => if bits v 39 13 = 0 then some (.stk 1 o39) else none
  | 2 => if bits v 39 13 = 0 then some (.und o39) else none
  | 3 => if bits v 29 23 = 0 ∧ (bit v 28 = false ∨ bits v 19 9 = 0) then some (.leaf (bit v 28) (bits v 19 9) (bits v 0 19)) else none
  | 4 => if bits v 29 23 = 0 ∧ (bit v 28 = false ∨ bits v 19 9 = 0) then some (.acc (bit v 28) (bits v 19 9) (bits v 0 19)) else none
  | 5 => some (.rstk 0 (bits v 39 4) (bits v 43 4) (bits v 47 5) o39)
  | 6 => some (.rstk 1 (bits v 39 4) (bits v 43 4) (bits v 47 5) o39)
  | 7 => some (.rund (bits v 39 4) (bits v 43 4) (bits v 47 5) o39)
  | 8 => some (.stn (bits v 40 12) (bits v 0 40))
  | _ => none

/-- Coordinates within the bound job's torus (R230). -/
def inTorus (s : State) (x y z : Nat) : Bool :=
  x ≤ rd s fDxm1 0 && y ≤ rd s fDym1 0 && z ≤ rd s fDzm1 0

/-- The package's own coordinates. -/
def isOwn (s : State) (x y z : Nat) : Bool := x == rd s fX 0 && y == rd s fY 0 && z == rd s fZ 0

/-- The region of an address with own-coordinate remote addresses served locally (R230); none raises OPERAND_REGION. -/
def regionHere (s : State) (va : BitVec 56) : Option Region :=
  match regionOf va with
  | some (.rstk h x y z off) =>
    if !inTorus s x y z then none else if isOwn s x y z then some (.stk h off) else some (.rstk h x y z off)
  | some (.rund x y z off) =>
    if !inTorus s x y z then none else if isOwn s x y z then some (.und off) else some (.rund x y z off)
  | r => r

/-! ### Page tables (R233 to R239) -/

/-- What a walk ends in: a page entry, or PTE_INVALID with level and reason (Table 7.9). -/
inductive Walk where
  | page (pte : Nat)
  | invalid (level reason : Nat)
deriving DecidableEq, Repr

/-- FRAME of an entry. -/
def pteFrame (e : Nat) : Nat := bits e 16 36
/-- FMT of an entry. -/
def pteFmt (e : Nat) : Nat := bits e 8 4
/-- OWN of an entry. -/
def pteOwn (e : Nat) : Half := halfOf (bits e 4 1)
/-- RES of an entry. -/
def pteRes (e : Nat) : Bool := bit e 1
/-- W of an entry. -/
def pteW (e : Nat) : Bool := bit e 2

/-- The first case of Table 7.9, from 0x02 on, that an entry at a level meets; `last` is the last level of the tree. -/
def pteReason (reg level last e : Nat) : Option Nat :=
  let leaf := bit e 3
  let fmt := pteFmt e
  let frame := pteFrame e
  if !bit e 0 then some 2
  else if bits e 52 12 ≠ 0 ∨ bits e 5 3 ≠ 0 ∨ (8 ≤ fmt ∧ fmt ≤ 14) then some 3
  else if leaf ∧ level ≠ last then some 4
  else if !leaf ∧ level = last then some 5
  else if !leaf ∧ (!pteRes e ∨ pteW e ∨ fmt ≠ 0 ∨ bits e 12 4 ≠ 0) then some 6
  else if leaf ∧ reg ≤ 1 ∧ !pteRes e then some 7
  else if leaf ∧ reg ≤ 1 ∧ (pteOwn e).val ≠ reg then some 8
  else
    let ok : Bool :=
      if !leaf then
        if level = 0 then frame % 16 == 0 && frame * 256 + 4096 ≤ stkBytes else frame * 256 + 256 ≤ stkBytes
      else if reg ≤ 1 then frame * 2 ^ 21 + 2 ^ 21 ≤ stkBytes
      else if pteRes e then frame / 2 ^ 17 == 0 && bits frame 8 5 ≤ 16
      else frame + 32 ≤ 188743680
    if ok then none else some 9

/-- The index into the table of a level (R233). -/
def pteIndex (level off : Nat) : Nat :=
  match level with
  | 0 => bits off 30 9
  | 1 => bits off 21 9
  | _ => bits off 16 5

/-- The physical place of the entry of a level in a table, and the entry. -/
def pteAt (s : State) (h : Half) (table level off : Nat) : Nat := leNat (stkRead s h (table + 8 * pteIndex level off) 8)

/-- A walk from a level down, with fuel for its levels; pointers met are collected with their level. -/
def walkFrom (s : State) (reg last off : Nat) : Nat → Nat → Half → Nat → List (Nat × Nat) → Walk × List (Nat × Nat)
  | 0, level, _, _, ps => (.invalid level 5, ps)
  | f + 1, level, h, table, ps =>
    let e := pteAt s h table level off
    match pteReason reg level last e with
    | some r => (.invalid level r, ps)
    | none =>
      if bit e 3 then (.page e, ps)
      else walkFrom s reg last off f (level + 1) (pteOwn e) (pteFrame e * 256) (ps ++ [(level, e)])

/-- The virtual page number of an offset: 2 MiB pages in STK0 and STK1, 64 KiB pages in UND. -/
def pageOf (reg off : Nat) : Nat := if reg ≤ 1 then off / 2 ^ 21 else off / 2 ^ 16

/-- A whole walk of a context's tree (R236). -/
def walk (s : State) (ctx : CtxId) (reg off : Nat) : Walk × List (Nat × Nat) :=
  let r := 3 * ctx.val + reg
  if rdb s fPtRootEn r then
    walkFrom s reg (if reg ≤ 1 then 1 else 2) off 3 0 (halfOf (rd s fRootHalf r)) (rd s fRoot r * 256) []
  else (.invalid 0 1, [])

/-- Keeping at most `n` entries, the oldest dropped (R238; FIFO replacement is the model's choice).
(DESIGN CHOICE, log 17) -/
def keepLast {α : Type} (n : Nat) (l : List α) : List α := l.drop (l.length - n)

/-- Caching what a walk met: pointers, and the page entry when it is resident (R238). (DESIGN CHOICE, log 17) -/
def tlbFill (g : Nat) (ctx : CtxId) (reg off : Nat) (w : Walk × List (Nat × Nat)) (s : State) : State :=
  modGrove g (fun x =>
    let t := x.tlb
    let ps := w.2.map fun p => (⟨ctx, reg * 4 + p.1, off / 2 ^ (if p.1 = 0 then 30 else 21), BitVec.ofNat 64 p.2⟩ : TlbEntry)
    let new := ps.filter fun p => !t.ptrs.any fun q => q.ctx == p.ctx && q.reg == p.reg && q.page == p.page
    let t1 := { t with ptrs := keepLast 64 (t.ptrs ++ new) }
    let t2 := match w.1 with
      | .page e =>
        if !pteRes e then t1
        else
          let n : TlbEntry := ⟨ctx, reg, pageOf reg off, BitVec.ofNat 64 e⟩
          if reg ≤ 1 then { t1 with large := keepLast 256 (t1.large ++ [n]) }
          else { t1 with small := keepLast 1024 (t1.small ++ [n]) }
      | .invalid _ _ => t1
    { x with tlb := t2 }) s

/-- The entry a translation unit holds for a page. -/
def tlbHit (s : State) (g : Nat) (ctx : CtxId) (reg off : Nat) : Option Nat :=
  let t := (grove s g).tlb
  ((if reg ≤ 1 then t.large else t.small).find? fun e => e.ctx == ctx && e.reg == reg && e.page == pageOf reg off).map
    (·.pte.toNat)

/-- The pointer that a translation unit holds for a level of an offset's walk. -/
def ptrHit (s : State) (g : Nat) (ctx : CtxId) (reg level off : Nat) : Option Nat :=
  ((grove s g).tlb.ptrs.find? fun e =>
    e.ctx == ctx && e.reg == reg * 4 + level && e.page == off / 2 ^ (if level = 0 then 30 else 21)).map (·.pte.toNat)

/-- A walk on a grove's unit: it begins below the deepest pointer that the unit holds (R239). -/
def walkOn (s : State) (g : Nat) (ctx : CtxId) (reg off : Nat) : Walk × List (Nat × Nat) :=
  let last := if reg ≤ 1 then 1 else 2
  match if reg ≤ 1 then none else ptrHit s g ctx reg 1 off with
  | some e => walkFrom s reg last off 1 2 (pteOwn e) (pteFrame e * 256) []
  | none =>
    match ptrHit s g ctx reg 0 off with
    | some e => walkFrom s reg last off 2 1 (pteOwn e) (pteFrame e * 256) []
    | none => walk s ctx reg off

/-- The tables that a walk on a grove's unit reads, by half and block: where it begins, then where its pointers lead (R239). -/
def walkTables (s : State) (g : Nat) (ctx : CtxId) (reg off : Nat) : List (Half × Nat) :=
  let at_ (e : Nat) : Half × Nat := (pteOwn e, pteFrame e * 256 / 2048)
  let r := 3 * ctx.val + reg
  let first := match if reg ≤ 1 then none else ptrHit s g ctx reg 1 off with
    | some e => [at_ e]
    | none =>
      match ptrHit s g ctx reg 0 off with
      | some e => [at_ e]
      | none => if rdb s fPtRootEn r then [(halfOf (rd s fRootHalf r), rd s fRoot r * 256 / 2048)] else []
  first ++ (walkOn s g ctx reg off).2.map fun p => at_ p.2

/-- A walk's reads go to the stack ports, in the class of the access that caused them (R239). -/
def walkAsks (g : Nat) (ctx : CtxId) (l : List (Half × Nat)) (s : State) : State :=
  l.foldl (fun t e => stkAsk (portClass t ctx (e.1.val != g / 16)) .read whoFabric false none (.stk e.1 e.2) t) s

/-- Translating an offset of STK0, STK1 or UND on a grove's unit (R239). -/
def translate (g : Nat) (ctx : CtxId) (reg off : Nat) (s : State) : State × Walk :=
  match tlbHit s g ctx reg off with
  | some e => (s, .page e)
  | none =>
    let w := walkOn s g ctx reg off
    (walkAsks g ctx (walkTables s g ctx reg off) (tlbFill g ctx reg off w s), w.1)

/-- The place of an offset in a mapped, resident page, and the byte within its block. -/
def placeOf (reg off e : Nat) : Loc × Nat :=
  if reg ≤ 1 then
    let p := pteFrame e * 2 ^ 21 + off % 2 ^ 21
    (.stk (pteOwn e) (p / 2048), p % 2048)
  else (.und (pteOwn e) (pteFrame e % 2 ^ 17) (off % 2 ^ 16 / 2048), off % 2048)

/-! ### Accesses -/

/-- What an access wants. -/
inductive Want where
  | read | write | accum
deriving DecidableEq, Repr

/-- Where an access leads: a place of this package, another package, a station, a fault, or a page to restore. -/
inductive Target where
  | here (l : Loc) (off : Nat)
  | remote (reg x y z off : Nat)
  | station (handle off : Nat)
  | fault (code detail : Nat)
  | absent (page : Nat)
deriving DecidableEq, Repr

/-- Fault codes of Table 7.6. -/
def fcBadEncoding : Nat := 0x01
/-- PARAM_RANGE -/
def fcParamRange : Nat := 0x02
/-- ALIGN_FAULT -/
def fcAlign : Nat := 0x03
/-- OPERAND_REGION -/
def fcRegion : Nat := 0x04
/-- AR_OVERFLOW -/
def fcArOverflow : Nat := 0x05
/-- FORMAT_MISMATCH -/
def fcFormat : Nat := 0x06
/-- ABFT_MISMATCH -/
def fcAbft : Nat := 0x07
/-- VXE_RESIDUE -/
def fcResidue : Nat := 0x08
/-- ACC_TARGET -/
def fcAccTarget : Nat := 0x09
/-- PERM_ENTRY -/
def fcPermEntry : Nat := 0x0A
/-- NO_TILE -/
def fcNoTile : Nat := 0x0B
/-- PTE_INVALID -/
def fcPte : Nat := 0x10
/-- WRITE_PROT -/
def fcWriteProt : Nat := 0x11
/-- ACC_PAGE -/
def fcAccPage : Nat := 0x12
/-- WINDOW_OWNER -/
def fcWindow : Nat := 0x13
/-- RESTORE_NOFRAME -/
def fcNoFrame : Nat := 0x14
/-- DATA_CORRUPT -/
def fcCorrupt : Nat := 0x15
/-- ACC_WINDOW -/
def fcAccWindow : Nat := 0x16
/-- EXT_WAIT_TIMEOUT -/
def fcExtWait : Nat := 0x20
/-- STANDSTILL -/
def fcStandstill : Nat := 0x21
/-- PEER_LOST -/
def fcPeerLost : Nat := 0x30
/-- HALF_LOST -/
def fcHalfLost : Nat := 0x31
/-- STACK_LOST -/
def fcStackLost : Nat := 0x32

/-- The rights of a page against an access (R237). -/
def pteRights (want : Want) (reg e : Nat) : Option (Nat × Nat) :=
  if want ≠ .read ∧ !pteW e then some (fcWriteProt, 0)
  else if want = .accum ∧ reg ≤ 1 ∧ pteFmt e ≠ 4 then some (fcAccPage, pteFmt e)
  else none

/-- DETAIL of PTE_INVALID (R236). -/
def pteDetail (level reason : Nat) : Nat := level + reason * 256

/-- A mapped offset, resolved under a context. -/
def resolveMapped (g : Nat) (ctx : CtxId) (want : Want) (reg off : Nat) (s : State) : State × Target :=
  match translate g ctx reg off s with
  | (s1, .invalid lv r) => (s1, .fault fcPte (pteDetail lv r))
  | (s1, .page e) =>
    match pteRights want reg e with
    | some (code, d) => (s1, .fault code d)
    | none =>
      if pteRes e then let (l, o) := placeOf reg off e; (s1, .here l o)
      else (s1, .absent (pageOf reg off))

/-- A leaf or ACC window access (R228, R229): the window's core must hold data of the context, from the start of an invocation of it until
it clears them; a void ACC is read by no instruction (R104, R152). (DEDUCED, log 99) -/
def resolveWindow (s : State) (c : Nat) (ctx : CtxId) (self acc : Bool) (lc off : Nat) : Target :=
  let t := if self then c else physOf s lc
  if (core s t).owner = some ctx ∧ (core s t).shown ∧ !(acc && (core s t).accVoid) then
    .here (if acc then .acc (asCore t) (off / 2048) else .leaf (asCore t) (off / 2048)) (off % 2048)
  else .fault fcWindow (if self then (lcOf s c).getD 0 else lc)

/-- Resolving an address that lies in an allowed region; `pos` is the operand's position (R163). -/
def resolve (c : Nat) (ctx : CtxId) (want : Want) (pos : Nat) (va : BitVec 56) (s : State) : State × Target :=
  match regionHere s va with
  | none => (s, .fault fcRegion pos)
  | some (.stk h off) => resolveMapped (coreGrove c) ctx want h.val off s
  | some (.und off) => resolveMapped (coreGrove c) ctx want 2 off s
  | some (.leaf self lc off) => (s, resolveWindow s c ctx self false lc off)
  | some (.acc self lc off) => (s, resolveWindow s c ctx self true lc off)
  | some (.rstk h x y z off) => (s, .remote h.val x y z off)
  | some (.rund x y z off) => (s, .remote 2 x y z off)
  | some (.stn handle off) => (s, .station handle off)

/-! ### Table 5.5 -/

/-- The window of a region is the issuing core's own (R228). -/
def ownWindow (s : State) (c : Nat) (self : Bool) (lc : Nat) : Bool := self || lcOf s c == some lc

/-- Regions an operand may name (Table 5.5), as flags. -/
structure Allowed where
  stk : Bool := false
  und : Bool := false
  leaf : Bool := false
  ownLeaf : Bool := false
  acc : Bool := false
  ownAcc : Bool := false
  remote : Bool := false
  stn : Bool := false
deriving DecidableEq, Repr

/-- Whether a region is among those allowed. -/
def Allowed.has (a : Allowed) (s : State) (c : Nat) : Region → Bool
  | .stk _ _ => a.stk
  | .und _ => a.und
  | .leaf self lc _ => a.leaf || (a.ownLeaf && ownWindow s c self lc)
  | .acc self lc _ => a.acc || (a.ownAcc && ownWindow s c self lc)
  | .rstk .. => a.remote
  | .rund .. => a.remote
  | .stn .. => a.stn

/-- A fault found at issue: code, detail, address concerned. -/
abbrev IssueFault := Nat × Nat × Nat

/-- The checks of one operand at issue: alignment first, then region (codes in rising order; the spec gives no order).
(DEDUCED, log 14) -/
def checkOpd (s : State) (c : Nat) (a : Allowed) (align pos : Nat) (va : BitVec 56) : Option IssueFault :=
  if va.toNat % align ≠ 0 then some (fcAlign, pos, va.toNat)
  else
    match regionHere s va with
    | none => some (fcRegion, pos, va.toNat)
    | some r => if a.has s c r then none else some (fcRegion, pos, va.toNat)

/-- The first fault of a list of checks. (DEDUCED, log 14) -/
def firstFault : List (Option IssueFault) → Option IssueFault
  | [] => none
  | some f :: _ => some f
  | none :: l => firstFault l

/-- Stack, understorey, leaf and ACC of either half. -/
def anyLocal : Allowed := { stk := true, und := true, leaf := true, acc := true }

/-- Own leaf window and understorey: the VXE's operands. -/
def vxeRegions : Allowed := { und := true, ownLeaf := true }

/-- A unit at offset `off` of a window of 512 KiB that reaches past its end (Table 5.5's limits). -/
def windowFits (va : BitVec 56) (n : Nat) : Bool := va.toNat % 2 ^ 19 + n ≤ 2 ^ 19

/-! ### Issue -/

/-- What stands at an engine's PC for a command of opcode `opc`. -/
inductive Gate where
  /-- the event cannot happen now -/
  | idle
  /-- BAD_ENCODING (R159) -/
  | bad (w : Nat)
  /-- one repeat of REP + 1 -/
  | go (d : Desc) (l : ListSet) (k : Ctl) (rep : Nat) (op : SOp)
deriving DecidableEq, Repr

/-- Whether an engine of a core may issue a repeat now; an LDE that holds 16 rewind records stalls (R147). -/
def mayIssue (s : State) (c : Nat) (e : Engine) : Bool :=
  let x := core s c
  let y := x.eng e
  x.run.isSome && y.wait.isNone && y.stall.isNone && y.ctl.part != .finished && goesOn x e
    && !(e == .lde && 16 ≤ x.rewinds.length)

/-- The gate of a stream command (R154, R158, R159). (DEDUCED, log 96) -/
def gate (s : State) (c : Nat) (e : Engine) (opc : Nat) : Gate :=
  match (core s c).run with
  | none => .idle
  | some (d, l) =>
    if !mayIssue s c e then .idle
    else
      let k := ((core s c).eng e).ctl
      if l.pro e + l.body e ≤ k.pc then .idle
      else
        let w := l.word e k.pc
        if !opcodeOfEngine e (opcodeOf w) then .bad w
        else
          match decodeStream w with
          | none => .bad w
          | some (rep, op) => if opcodeOf w = opc then .go d l k rep op else .idle

/-- A fault or stall of an LDE repeat that feeds a running ACC_ADD repeat delays the cut, and PREEMPT_LATE counts the cut once
(R149, R153). (DEDUCED, log 99) -/
def lateCut (c : Nat) (was : State) (s : State) : State :=
  let x := core was c
  if x.forced && accAddRuns x.mxe && !x.late then modCore c (fun y => { y with late := true }) (bump fPreemptLate c 1 s) else s

/-- A stream command: nothing where its event cannot happen, BAD_ENCODING, or one repeat. -/
def onRepeat (c : CoreId) (e : Engine) (opc : Nat) (s : State)
    (f : Desc → ListSet → Ctl → Nat → SOp → State) : State :=
  match gate s c e opc with
  | .idle => s
  | .bad w =>
    let s1 := engFault c e fcBadEncoding (w / 2 ^ 96) 0 s
    if e = .lde then lateCut c s s1 else s1
  | .go d l k rep op => f d l k rep op

/-- Setting an engine's control. -/
def setCtl (c : Nat) (e : Engine) (k : Ctl) (s : State) : State := modCore c (fun x => x.modCtl e fun _ => k) s

/-- Issuing one repeat: the checks at issue, the steps of its registers, and control moved on; then its effect on the
state so advanced. A fault at issue leaves the repeat without effect (R160). -/
def issue (c : CoreId) (e : Engine) (d : Desc) (l : ListSet) (k : Ctl) (rep : Nat) (chk : Option IssueFault)
    (os : List Opd) (s : State) (f : State → State) : State :=
  match chk with
  | some (code, detail, addr) => engFault c e code detail addr s
  | none =>
    match stepArs (steppedArs os) k with
    | .error n => engFault c e fcArOverflow n 0 s
    | .ok k' => f (setCtl c e (k'.advance l e d.chunks rep) s)

/-- Stalling a repeat on a page that is not resident: control is as before the repeat (R242). -/
def stallOn (c : CoreId) (e : Engine) (ctx : CtxId) (page : Nat) (s : State) : State :=
  modCore c (fun x => x.setEng e { x.eng e with stall := some (ctx, page) }) s

/-- Registering a repeat whose blocks may still be on their way, with the control before it (R146); repeats with nothing outstanding
leave the list. -/
def noteFetch (c : Nat) (e : Engine) (r : Nat) (k : Ctl) (s : State) : State :=
  modCore c (fun x => { x with fetches := (x.fetches.filter fun f => x.pend.any fun p => p.rpt == f.1) ++ [(r, e, k)] }) s

/-- Handing an operation to the memory system. (DEDUCED, log 27) -/
def pendAdd (c : Nat) (p : Pend) (s : State) : State := modCore c (fun x => { x with pend := x.pend ++ [p] }) s

/-- Numbering a repeat that hands operations over. -/
def newRpt (c : Nat) (s : State) : State × Nat :=
  (modCore c (fun x => { x with nextRpt := x.nextRpt + 1 }) s, (core s c).nextRpt)

/-- The addresses of `n` units of `u` bytes from an address (R157). -/
def unitVas (va : BitVec 56) (u n : Nat) : List (BitVec 56) :=
  (List.range n).map fun i => va + BitVec.ofNat 56 (i * u)

/-- What resolving a list of addresses gives. -/
inductive Placed where
  | all (l : List Target)
  | fault (code detail addr : Nat)
  | absent (page : Nat)
deriving DecidableEq, Repr

/-- Resolving addresses in order, up to the first fault or absent page. -/
def resolveAll (c : Nat) (ctx : CtxId) (want : Want) (pos : Nat) : List (BitVec 56) → State → State × Placed
  | [], s => (s, .all [])
  | va :: vas, s =>
    match resolve c ctx want pos va s with
    | (s1, .fault code d) => (s1, .fault code d va.toNat)
    | (s1, .absent page) => (s1, .absent page)
    | (s1, t) =>
      match resolveAll c ctx want pos vas s1 with
      | (s2, .all ts) => (s2, .all (t :: ts))
      | (s2, r) => (s2, r)

/-- The understorey frame's half and grove are the core's (R163). -/
def ownUnd (c : Nat) : Target → Bool
  | .here (.und h frame _) _ => h.val == coreHalf c && bits frame 13 4 == c / 17 % 16
  | _ => true

end Sys2Proof.Machine
end

