-- ==== Sys2Proof/Machine/Control.lean ====
section
/-! DEFINITION. Register and counter instructions and chunk boundaries (spec/04 R131, R138; spec/05 R164 to R166). -/

namespace Sys2Proof.Machine

/-- What a meaning answers. -/
abbrev Out := Host.Outcome State Fault Refusal

/-- NOP (R158): a repeat does nothing. (DEDUCED, log 96) -/
def execNop (c : CoreId) (e : Engine) (s : State) : Out :=
  .next (onRepeat c e 0x00 s fun d l k rep op =>
    match op with
    | .nop => issue c e d l k rep none [] s id
    | _ => s)

/-- PAR_n of an invocation (R124). -/
def Desc.par (d : Desc) (n : Nat) : BitVec 64 := lget d.pars n 0

/-- What ARSET loads into a register, C0 and C1 zero (R164). -/
def arsetNew (d : Desc) (l : ListSet) (k : Ctl) (ari : Nat) (f : ArForm) : AddrReg :=
  let a := k.ar ari
  match f with
  | .imm usep pari imm =>
    { a with base := BitVec.ofNat 56 (imm + (if usep then (d.par pari).toNat else 0)), c0 := 0, c1 := 0 }
  | .strides w0 w1 s0 s1 =>
    { a with w0 := BitVec.ofNat 16 w0, w1 := BitVec.ofNat 16 w1, s0 := BitVec.ofNat 32 s0, s1 := BitVec.ofNat 32 s1,
             c0 := 0, c1 := 0 }
  | .par pblk imm =>
    { a with base := BitVec.ofNat 56 (d.image.toNat + (l.parOfs + pblk) * 2048 + imm), c0 := 0, c1 := 0 }
  | .copy ars => { k.ar ars with c0 := 0, c1 := 0 }

/-- PARAM_RANGE of ARSET (Table 5.4). -/
def arsetFault (l : ListSet) : ArForm → Option IssueFault
  | .par pblk _ => if pblk < l.npar then none else some (fcParamRange, pblk, 0)
  | _ => none

/-- ARSET (R164). -/
def execArset (c : CoreId) (e : Engine) (s : State) : Out :=
  .next (onRepeat c e 0x01 s fun d l k rep op =>
    match op with
    | .arset ari f =>
      issue c e d l { k with ars := lset k.ars ari (arsetNew d l k ari f) } rep (arsetFault l f) [] s id
    | _ => s)

/-- What CNTSET loads: MOD, AUTO, then VAL modulo M (R165). -/
def cntsetNew (auto : Bool) (mod val : Nat) : Counter :=
  let c : Counter := ⟨0, BitVec.ofNat 32 mod, auto⟩
  { c with val := BitVec.ofNat 32 (val % c.m) }

/-- CNTSET (R165). -/
def execCntset (c : CoreId) (e : Engine) (s : State) : Out :=
  .next (onRepeat c e 0x02 s fun d l k rep op =>
    match op with
    | .cntset i auto mod val =>
      issue c e d l { k with cnts := lset k.cnts i (cntsetNew auto mod val) } rep none [] s id
    | _ => s)

/-- CNTADD (R137, R165). -/
def execCntadd (c : CoreId) (e : Engine) (s : State) : Out :=
  .next (onRepeat c e 0x03 s fun d l k rep op =>
    match op with
    | .cntadd i amt =>
      issue c e d l { k with cnts := lset k.cnts i ((lget k.cnts i Counter.reset).add (signed 32 amt)) } rep none [] s id
    | _ => s)

/-- CMPSET (R139, R165). -/
def execCmpset (c : CoreId) (e : Engine) (s : State) : Out :=
  .next (onRepeat c e 0x04 s fun d l k rep op =>
    match op with
    | .cmpset i src cond value =>
      issue c e d l { k with cmps := lset k.cmps i ⟨Fin.ofNat 4 src, Fin.ofNat 8 cond, BitVec.ofNat 32 value⟩ } rep none [] s id
    | _ => s)

/-- The counters after a chunk boundary: those with AUTO add 1 (R138). -/
def autoAdd (cs : List Counter) : List Counter := cs.map fun c => if c.auto then c.add 1 else c

/-- Control moved from the last body instruction to the first of the next chunk (R131, R138). -/
def Ctl.nextChunk (k : Ctl) (l : ListSet) (e : Engine) (chunks : BitVec 32) : Ctl :=
  Ctl.settle { k with pc := l.pro e, rep := 0, chunk := k.chunk + 1, cnts := autoAdd k.cnts } l e chunks

/-- An engine stands at the end of a body that is not its last. -/
def atBoundary (s : State) (c : Nat) (e : Engine) : Option (Desc × ListSet × Ctl) :=
  match (core s c).run with
  | none => none
  | some (d, l) =>
    let k := ((core s c).eng e).ctl
    if k.part = .body ∧ l.pro e + l.body e ≤ k.pc ∧ mayIssue s c e then some (d, l, k) else none

/-- CHUNK_BOUNDARY (R131, R138). -/
def execChunkBoundary (c : CoreId) (e : Engine) (s : State) : Out :=
  .next (match atBoundary s c e with
    | none => s
    | some (d, l, k) => setCtl c e (k.nextChunk l e d.chunks) s)

end Sys2Proof.Machine
end

