-- ==== Sys2Proof/Machine/Ride.lean ====
section
/-! DEFINITION. The ride's link layer (spec/01 R34 to R41). -/

namespace Sys2Proof.Machine

/-- The 4-byte flit header (Table 1.4). (DESIGN CHOICE, log 16) -/
def rideHeader (cls typ ack seq : Nat) : Nat := cls * 2 ^ 28 + typ * 2 ^ 24 + ack * 2 ^ 12 + seq

/-- The 256 bytes of a flit (Table 1.3). (DESIGN CHOICE, log 16) -/
def rideRaw (cls typ ack seq : Nat) (pay : Bytes) : Bytes :=
  let b := toLe 4 (rideHeader cls typ ack seq) ++ slice pay 0 248
  b ++ toLe 4 (crc32c b)

/-- The next ready flit: class 0 first, oldest first within a class (R35). -/
def ridePick (l : List RideFlit) : Option RideFlit :=
  firstSome ((List.range 4).map fun c => l.find? fun f => f.cls.val == c)

/-- Putting a flit on the wire with the receiver's ACK. -/
def ridePut (r : RideEnd) (seq : BitVec 12) (f : RideFlit) : RideEnd :=
  { r with wire := r.wire ++ [⟨seq, r.lastGood, f, rideRaw f.cls.val f.typ.val r.lastGood.toNat seq.toNat f.pay⟩] }

/-- An idle flit: SEQ of the last data flit sent (R34). (DESIGN CHOICE, log 16) -/
def rideIdle (r : RideEnd) : RideEnd := ridePut r (r.nextSeq - 1) ⟨0, 0, zeros 248, 0, false⟩

/-- What a transmitter sends at one flit time (R34 to R39). -/
def rideTransmit (r : RideEnd) : RideEnd :=
  if r.down then r
  else if r.askReplay then ridePut { r with askReplay := false } (r.nextSeq - 1) ⟨0, 4, zeros 248, 0, false⟩
  else
    match r.resend with
    | some i =>
      match r.retry[i]? with
      | some (q, f) => { ridePut r q f with resend := if i + 1 < r.retry.length then some (i + 1) else none }
      | none => rideIdle { r with resend := none }
    | none =>
      if 512 ≤ r.retry.length then rideIdle r
      else
        match ridePick r.ready with
        | none => rideIdle r
        | some f =>
          { ridePut r r.nextSeq f with
            ready := r.ready.erase f
            nextSeq := r.nextSeq + 1
            retry := r.retry ++ [(r.nextSeq, f)] }

/-- RIDE_FLIT_TRANSMIT (R35, R37). -/
def execRideFlitTransmit (h : Half) (s : State) : Out :=
  .next (modRide h.val (fun r =>
    let r1 := rideTransmit r
    if r.retry.isEmpty && !r1.retry.isEmpty then { r1 with ackSince := s.time } else r1) s)

/-- An ACK covers the retry buffer up to its flit (R37). -/
def rideAck (now : Nat) (ack : BitVec 12) (r : RideEnd) : RideEnd :=
  match r.retry.findIdx? (fun p => p.1 == ack) with
  | none => r
  | some i =>
    { r with
      retry := r.retry.drop (i + 1)
      resend := r.resend.map (· - (i + 1))
      replays := 0
      ackSince := now }

/-- The receiver starts discarding and asks once for a replay (R38). A flit of a reserved TYPE or CLASS is met in the same way as a
CRC mismatch. (DESIGN CHOICE, log 98) -/
def rideReject (r : RideEnd) : RideEnd :=
  if r.discarding then r else { r with discarding := true, askReplay := true }

/-- What a receiver does with a flit whose CRC is good. The spec leaves open what a good flit of a reserved TYPE or CLASS does, what one
whose SEQ has been received already does, and whether a replay request counts as a good flit (R38, R41): the first is rejected as a CRC
mismatch is; the second is dropped without effect, its ACK unused and the 3,200-cycle limit not renewed; the third renews the limit.
(DESIGN CHOICE, log 98) -/
def rideTake (now : Nat) (hd : Nat) (r : RideEnd) : RideEnd × Bool :=
  let typ := bits hd 24 4
  let seq := BitVec.ofNat 12 (bits hd 0 12)
  let ack := BitVec.ofNat 12 (bits hd 12 12)
  if typ = 0 then
    if r.discarding then (r, false) else ({ rideAck now ack r with goodSince := now }, false)
  else if typ = 4 then
    if r.discarding then (r, false) else ({ r with gotReplay := some ack, goodSince := now }, false)
  else if 4 < typ ∨ 4 ≤ bits hd 28 4 then (rideReject r, false)
  else
    let gap := (seq - (r.lastGood + 1)).toNat
    if gap = 0 then
      ({ rideAck now ack r with lastGood := seq, discarding := false, goodSince := now }, true)
    else if gap < 2048 then (rideReject r, false)
    else (r, false)

/-- 1,024 FCLK cycles in KCLK cycles. -/
def rideAckLimit : Nat := 512

/-- The transmitter has replayed its oldest flit eight times and the eighth replay has failed: no ACK has advanced within the limit
after it, or the receiver asks for a replay once more (R40). (DEDUCED, log 98) -/
def rideSpent (now : Nat) (r : RideEnd) : Bool :=
  8 ≤ r.replays && !r.retry.isEmpty && (r.gotReplay.isSome || r.ackSince + rideAckLimit ≤ now)

/-- The transmitter resends every unacknowledged flit from the oldest (R39); after eight replays of one flit there is no ninth (R40). Each
replay, also one made on a request, starts the 1,024-cycle limit afresh. (DESIGN CHOICE, log 98) -/
def rideReplay (now : Nat) (r : RideEnd) : RideEnd :=
  if r.retry.isEmpty then { r with gotReplay := none }
  else if 8 ≤ r.replays then r
  else { r with resend := some 0, replays := r.replays + 1, ackSince := now, gotReplay := none }

/-- RIDE_REPLAY_REQUEST (R39). -/
def execRideReplayRequest (h : Half) (s : State) : Out :=
  .next (match (rideEnd s h.val).gotReplay with
    | none => s
    | some a => modRide h.val (fun r => rideReplay s.time (rideAck s.time a r)) s)

/-- RIDE_ACK_TIMEOUT (R39). -/
def execRideAckTimeout (h : Half) (s : State) : Out :=
  let r := rideEnd s h.val
  .next (if !r.retry.isEmpty && r.ackSince + rideAckLimit ≤ s.time then modRide h.val (rideReplay s.time) s else s)

/-- Sending a block for a place of the other half over the ride, after the transfer `pre` that brings its contents; the transfer that
the write then waits for. -/
def rideFor (c : Nat) (ctx : CtxId) (l : Loc) (b : Bytes) (pre : Option Nat) (s : State) : State × Option Nat :=
  if l.half.val = coreHalf c then (s, pre)
  else
    let (s1, id) := rideLater pre (halfOf (coreHalf c)) (rideClass s ctx false) b s
    (s1, some id)

end Sys2Proof.Machine
end

