-- ==== Sys2Proof/Machine/Sync.lean ====
section
/-! DEFINITION. Signals, waits, monitor slots and watches (spec/05 R167 to R171, spec/06 R199 to R218). -/

namespace Sys2Proof.Machine

/-! ### SIGNAL -/

/-- Regions of a SIGNAL word (Table 5.5). -/
def signalRegions : Allowed := { stk := true, und := true, leaf := true, remote := true, stn := true }

/-- Regions of a WAIT word (Table 5.5): a station window with PARK = 0 only. -/
def waitRegions (park : Bool) : Allowed := { stk := true, und := true, leaf := true, stn := !park }

/-- The first signal of an engine that has issued and not committed, with its position. -/
def nextCommit (x : Core) (e : Engine) : Option (Nat × Pend) :=
  let i := x.pend.findIdx fun p => p.eng == e && match p.op with
    | .signal _ _ _ .issued _ => true
    | .farSignal .. => true
    | _ => false
  x.pend[i]?.map fun p => (i, p)

/-- Every earlier write, accumulate and signal of the engine is made and accepted: an MXE signal has no earlier pass in flight, an LDE signal
no earlier delivery waiting (R147, R168, R204). (DEDUCED, log 28) -/
def commitReady (x : Core) (e : Engine) (i : Nat) (p : Pend) : Bool :=
  (x.pend.take i).all (fun q => q.eng != e) && (e != .lde || x.rewinds.all fun r => p.rpt < r.rpt)
    && (e != .mxe || x.mxe.passes.all fun q => p.rpt < q.rpt)

/-- Changing one pending operation of a core. -/
def modPend (c k : Nat) (f : Pend → Pend) (s : State) : State :=
  modCore c (fun x => { x with pend := match x.pend[k]? with | some p => x.pend.set k (f p) | none => x.pend }) s

/-- Noting that a core's part in a context has broken the conditions of standstill now (R219). -/
def Core.stirred (x : Core) (ctx : CtxId) (now : Nat) : Core := { x with stir := tset x.stir ctx now }

/-- The block keys that a pending operation has still to reach (R240). -/
def POp.keys (s : State) : POp → List Nat
  | .put l _ => [l.key]
  | .patch l _ _ _ _ => [l.key]
  | .signal _ w _ .issued _ => [w / 4096]
  | .signal _ w _ .committed _ => [w / 4096]
  | .accum h b _ _ _ _ => [(Loc.stk h b).key]
  | .fabric id => (s.txns.filter fun e => e.1 == id).flatMap fun e => e.2.dst.toList.map Loc.key
  | .station id => (s.rdma.filter fun o => o.id == id).flatMap fun o =>
      match o.use with | .coreRead _ _ ds => ds.map Loc.key | _ => []
  | _ => []

/-- An access that has been translated has still to be accepted at a block of a range of keys: an operation of a core, a landing place of a
read, or part of an outside write that crosses the ride (R240). (DEDUCED, log 101) -/
def keysBusy (s : State) (lo n : Nat) : Bool :=
  let hit (k : Nat) : Bool := lo ≤ k && k < lo + n
  (s.cores.any fun e => e.2.pend.any fun p => (p.op.keys s).any hit)
    || s.rideNext.any fun r => match r.act with
      | .land l _ => hit l.key
      | .merge _ l _ _ => hit l.key
      | .fetchAdd f => hit (f.word / 4096)
      | .opDone o _ => match o.use with | .coreRead _ _ ds => ds.any fun l => hit l.key | _ => false
      | _ => false

/-- Acknowledgements of invalidations through which nothing is outstanding any more reach SCH (R240). (DEDUCED, log 101) -/
def settleInvs (s : State) : State :=
  if s.invWaits.isEmpty then s
  else
    let free (w : InvWait) : Bool := !keysBusy s w.lo w.n
    { s with
      invWaits := s.invWaits.filter fun w => !free w
      reports := s.reports ++ (s.invWaits.filter free).map fun w => .tlbInvAck w.ctx w.reg w.page }

/-- Removing one pending operation of a core. -/
def dropPend (c k : Nat) (s : State) : State :=
  settleInvs (modCore c (fun x => match x.pend[k]? with
    | some p => { x.stirred p.ctx s.time with pend := ldrop x.pend k }
    | none => x) s)

/-- A committed signal to this package's memory leaves for its home, over the ride where that is the other half's. -/
def commitLocal (c i : Nat) (p : Pend) (va : BitVec 56) (w : Nat) (amt : BitVec 32) (k : Ctl) (s : State) : State :=
  let h := w / 4096 / 2 ^ 28 % 2
  let (s1, ride) :=
    if h = coreHalf c then (s, none)
    else
      let (s1, id) := rideSend (halfOf (coreHalf c)) (rideClass s p.ctx false) (rideWord w amt.toNat) s
      (s1, some id)
  modPend c i (fun q => { q with ride := ride, op := .signal va w amt .committed k }) s1

/-! ### Application at the home (R199 to R202) -/

/-- Marking a signal as applied at its word's home, with whether its acknowledgement reports a saturation; the acknowledgement to a core of
the other half crosses the ride (R564). -/
def markApplied (c k w : Nat) (sat : Bool) (s : State) : State :=
  let (s1, ride) := rideBack (halfOf (w / 4096 / 2 ^ 28)) c s
  modPend c k (fun p =>
    match p.op with
    | .signal va w amt _ ctl => { p with ride := ride, op := .signal va w amt (.applied sat) ctl }
    | _ => p) s1

/-- One indivisible addition at a word, with its wakes. -/
def wordAdd (w : Nat) (amt : Int) (s : State) : State × Bool :=
  let (v, sat) := satSum (wordRead s w) amt
  (wakeRange w 4 (wordWrite w v s), sat)

/-- SIGNAL_ACK (R201, R203): the acknowledgement reaches the engine and, where it reports a saturation, the context. -/
def execSignalAck (c : CoreId) (k : Nat) (s : State) : Out :=
  .next (match (core s c).pend[k]? with
    | some p =>
      match p.op with
      | .signal va _ _ (.applied sat) _ =>
        let s1 := dropPend c k s
        if !rideArrived s p.ride then s
        else if sat then noteSat p.ctx va.toNat s1 else s1
      | _ => s
    | none => s)

/-! ### Watches and monitor slots (R208 to R212) -/

/-- The home memory of a word (Table 6.2). -/
def homeOf (w : Nat) : Home :=
  let k := w / 4096
  let h := k / 2 ^ 28 % 2
  let i := k % 2 ^ 28
  match k / 2 ^ 29 with
  | 1 => .die (asDie (dieOf h i))
  | 2 => .und (asGrove (16 * h + i / 32 / 2 ^ 13 % 16))
  | _ => .leaf (asCore (17 * (16 * h + i / 8192 % 16) + i / 256 % 32))

/-- Watch table capacities (Table 6.2). -/
def homeCap : Home → Nat
  | .leaf _ => 16
  | .und _ => 256
  | .die _ => 512

/-- Whether a watch's slot is active. -/
def watchActive (s : State) (w : Watch) : Bool :=
  match (lget (core s w.core).mons w.slot Mon.reset).st with
  | .active _ => true
  | _ => false

/-- Admitting a watch at its home (R209): a full table drops the warm watch armed longest ago and sends its slot a
notice, or refuses. -/
def armWatch (w : Watch) (s : State) : Option State :=
  let here := s.watches.filter fun v => v.home == w.home
  if here.length < homeCap w.home then some { s with watches := s.watches ++ [w] }
  else
    match here.find? fun v => !watchActive s v with
    | none => none
    | some v => some { s with watches := s.watches.erase v ++ [w], drops := s.drops ++ [(v.core, v.slot)] }

/-- Removing the watch of a slot. -/
def dropWatch (c : CoreId) (n : Fin 8) (s : State) : State :=
  { s with watches := s.watches.filter fun w => !(w.core == c && w.slot == n) }

/-- Setting a monitor slot. -/
def setMon (c : CoreId) (n : Fin 8) (st : MonState) (word : Nat) (s : State) : State :=
  modCore c (fun x => { x with
    mons := lset x.mons n ⟨st, word, x.monClock⟩
    monClock := x.monClock + 1 }) s

/-- The slot a parking WAIT takes (R208): a warm one on the word, else a free one, else the warm one least recently
used; and whether it needs a new watch. -/
def pickSlot (x : Core) (w : Nat) : Option (Fin 8 × Bool) :=
  let slots : List (Fin 8) := [0, 1, 2, 3, 4, 5, 6, 7]
  match slots.find? fun n => (lget x.mons n.val Mon.reset).st == .warm && (lget x.mons n.val Mon.reset).word == w with
  | some n => some (n, false)
  | none =>
    match slots.find? fun n => (lget x.mons n.val Mon.reset).st == .free with
    | some n => some (n, true)
    | none =>
      let warm := slots.filter fun n => (lget x.mons n.val Mon.reset).st == .warm
      match warm with
      | [] => none
      | n :: ns =>
        some (ns.foldl (fun a b => if (lget x.mons b.val Mon.reset).used < (lget x.mons a.val Mon.reset).used then b else a) n, true)

/-- Parking on a word: the slot is active with its watch armed; none where the home refuses and the WAIT polls. -/
def park (c : CoreId) (e : Engine) (w : Nat) (s : State) : State × Option (Fin 8) :=
  match pickSlot (core s c) w with
  | none => (s, none)
  | some (n, false) => (setMon c n (.active e) w s, some n)
  | some (n, true) =>
    let s1 := dropWatch c n s
    match armWatch ⟨homeOf w, w, c, n, false, none⟩ (setMon c n (.active e) w s1) with
    | some s2 => (s2, some n)
    | none => (setMon c n .free 0 s1, none)

/-- Releasing an active slot to the warm state (R212). -/
def warmSlot (c : CoreId) (n : Fin 8) (s : State) : State :=
  setMon c n .warm (lget (core s c).mons n Mon.reset).word s

/-! ### WAIT (R169 to R171, R218) -/

/-- The comparison of a WAIT, the word on the left (R169). -/
def waitHolds (cond : Nat) (word target : BitVec 32) : Bool := cmpHolds cond word target

/-- The word of an external wait: a station window or the context's outside-fed range (R218). -/
def isExternal (s : State) (ctx : CtxId) (va : BitVec 56) : Bool :=
  let base := rd s fExtBase ctx * 2 ^ 16
  let n := rd s fExtPages ctx * 65536
  (va.toNat / 2 ^ 52 == 8) || (base ≤ va.toNat && va.toNat < base + n)

/-- The WAIT repeat at an engine's PC has completed: its register steps, control moves on, its slot turns warm. -/
def waitDone (c : CoreId) (e : Engine) (s : State) : State :=
  match (core s c).run with
  | none => s
  | some (d, l) =>
    let y := (core s c).eng e
    let k := y.ctl
    let s0 := match y.wait.bind (·.slot) with
      | some n => warmSlot c n s
      | none => s
    match decodeStream (l.word e k.pc) with
    | some (rep, .wait word _ _ _ _ _ _) =>
      match stepArs (steppedArs [word]) k with
      | .ok k' => modCore c (fun x => (x.stirred d.ctx s.time).setEng e ⟨k'.advance l e d.chunks rep, none, none⟩) s0
      | .error _ => s0
    | _ => s0

/-- Setting an engine's wait. -/
def setWait (c : Nat) (e : Engine) (w : Option Waiting) (s : State) : State :=
  modCore c (fun x => x.setEng e { x.eng e with wait := w }) s

/-- A read of a waited word answers `v`: the repeat completes; else the value is kept as SEEN, and where it answers the final read the
context faults EXT_WAIT_TIMEOUT (R169, R218). -/
def waitAnswer (c : CoreId) (e : Engine) (w : Waiting) (v : BitVec 32) (s : State) : State :=
  if waitHolds w.cond.val v w.target then waitDone c e s
  else
    let s1 := setWait c e (some { w with seen := v }) s
    if w.asked then engFault c e fcExtWait 0 w.va.toNat s1 else s1

/-- Reading a waited word of this package: it answers at once in the core's half; else the request crosses the ride and the value comes
back over it (R28). (DESIGN CHOICE, log 97) -/
def waitAsk (c : CoreId) (e : Engine) (ctx : CtxId) (w : Waiting) (l : Loc) (off : Nat) (s : State) : State :=
  let v := BitVec.ofNat 32 (wordRead s (l.addr off))
  match rideRead c ctx l (rideWord (l.addr off) v.toNat) s with
  | (s1, none) => waitAnswer c e w v s1
  | (s1, some id) => rideWait id (.waitRead c e id v) (setWait c e (some { w with back := some id }) s1)

/-- A re-read of a waited device word, translated afresh; a final read that meets a page to restore is made again after it.
(DEDUCED, log 28) -/
def waitReread (c : CoreId) (e : Engine) (w : Waiting) (s : State) : State :=
  match (core s c).run with
  | none => s
  | some (d, _) =>
    match resolve c d.ctx .read 0 w.va s with
    | (s1, .here p off) => waitAsk c e d.ctx w p off s1
    | (s1, .absent page) =>
      if w.asked then stallOn c e d.ctx page (setWait c e (some { w with asked := false }) s1)
      else
        let s2 := match w.slot with | some n => warmSlot c n s1 | none => s1
        stallOn c e d.ctx page (setWait c e none s2)
    | (s1, .fault code det) => engFault c e code det w.va.toNat s1
    | (s1, _) => s1

/-- The engine whose WAIT holds a slot. -/
def slotEngine (x : Core) (n : Fin 8) : Option (Engine × Waiting) :=
  firstSome (allEngines.map fun e =>
    match (x.eng e).wait with
    | some w => if w.slot = some n then some (e, w) else none
    | none => none)

/-- WATCH_WAKE (R211, R212): a woken slot re-reads its word; a wake without an active slot, or of a WAIT that a cut has stopped, is
discarded. -/
def execWatchWake (c : CoreId) (n : Fin 8) (s : State) : Out :=
  .next (
    if s.watches.any fun w => w.core == c && w.slot == n && w.woken && rideArrived s w.ride then
      let s1 := { s with watches := s.watches.map fun w =>
        if w.core = c ∧ w.slot = n then { w with woken := false, ride := none } else w }
      match slotEngine (core s1 c) n with
      | none => s1
      | some (e, w) => if w.final || !goesOn (core s1 c) e then s1 else waitReread c e w s1
    else s)

/-- WATCH_DROP_NOTICE (R209): a warm slot becomes free; an active one arms again with a read, or polls. -/
def execWatchDropNotice (c : CoreId) (n : Fin 8) (s : State) : Out :=
  .next (
    if s.drops.contains (c, n) then
      let s1 := { s with drops := s.drops.erase (c, n) }
      let m := lget (core s1 c).mons n Mon.reset
      match m.st with
      | .free => s1
      | .warm => setMon c n .free 0 s1
      | .active e =>
        match ((core s1 c).eng e).wait with
        | none => s1
        | some w =>
          match armWatch ⟨homeOf m.word, m.word, c, n, false, none⟩ (dropWatch c n s1) with
          | some s2 => if goesOn (core s2 c) e then waitReread c e w s2 else s2
          | none => setWait c e (some { w with slot := none }) (setMon c n .free 0 s1)
    else s)

end Sys2Proof.Machine
end

