-- ==== Sys2Proof/Machine/Lde.lean ====
section
/-! DEFINITION. The load engine: LTILE, LVEC, LQ, run-ahead, and the deliveries into the WSBs, the feeders and the VXE
input queue (spec/05 R187 to R189, spec/04 R147, spec/07 R260 to R262). -/

namespace Sys2Proof.Machine

/-! ### Reading blocks -/

/-- What reading several blocks gives. -/
inductive FetchedAll where
  | ok (l : List Blk)
  | bad (l : Loc)
deriving DecidableEq, Repr

/-- Fetching the blocks of a list of places in order. -/
def fetchAll (ctx : Nat) : List Target → State → State × FetchedAll
  | [], s => (s, .ok [])
  | .here l _ :: ts, s =>
    match blkFetch ctx l s with
    | (s1, .bad) => (s1, .bad l)
    | (s1, .ok b) =>
      match fetchAll ctx ts s1 with
      | (s2, .ok bs) => (s2, .ok (b :: bs))
      | (s2, .bad l') => (s2, .bad l')
  | _ :: ts, s => fetchAll ctx ts s

/-- The ride transfers of the blocks that a core reads from the other half (R28): requests, then data. The blocks' contents are those at
the step of the read; the transfer that brings the last of them is what the repeat then waits for. (DESIGN CHOICE, log 97) -/
def crossReads (c : Nat) (ctx : CtxId) : List Target → List Blk → Option Nat → State → State × Option Nat
  | .here l _ :: ts, b :: bs, last, s =>
    match rideRead c ctx l (rideBlock (l.addr 0) b) s with
    | (s1, some id) => crossReads c ctx ts bs (some id) s1
    | (s1, none) => crossReads c ctx ts bs last s1
  | _, _, last, s => (s, last)

/-- DATA_CORRUPT of an engine's read (R442). -/
def corruptFault (c : CoreId) (e : Engine) (va : Nat) (l : Loc) (s : State) : State :=
  engFault c e fcCorrupt l.index va s

/-- The first block whose tag format differs from the instruction's. -/
def wrongFmt (fmt : Nat) (bs : List Blk) : Option Nat := (bs.find? fun b => b.fmt != fmt).map (·.fmt)

/-- DETAIL of FORMAT_MISMATCH (Table 7.6). -/
def fmtDetail (tag ins : Nat) : Nat := tag * 16 + ins

/-- Unit checks of an operand: every unit of a repeat. -/
def checkUnits (s : State) (c : Nat) (a : Allowed) (align pos : Nat) (vas : List (BitVec 56)) : Option IssueFault :=
  firstFault (vas.map fun va => checkOpd s c a align pos va)

/-- A read made ahead is for a repeat. -/
def RunAhead.isFor (r : RunAhead) (k : Ctl) (va : BitVec 56) : Bool :=
  r.pc == k.pc && r.rep == k.rep && r.chunk == k.chunk && r.va == va

/-- The blocks that a read made ahead holds for a repeat. (DEDUCED, log 30) -/
def aheadFor (x : Core) (k : Ctl) (va : BitVec 56) : Option RunAhead := x.ahead.find? fun r => r.isFor k va && r.op.isNone

/-- A read made ahead for a repeat is still on its way: the repeat waits for it. (DEDUCED, log 30) -/
def aheadOnWay (s : State) (x : Core) (k : Ctl) (va : BitVec 56) : Bool :=
  x.ahead.any fun r => r.isFor k va && (match r.op with
    | some id => (s.rdma.any fun o => o.id == id)
        || s.rideNext.any fun n => match n.act with | .opDone o _ => o.id == id | _ => false
    | none => false)

/-- The reads made ahead that are left once a repeat has issued. -/
def aheadLeft (x : Core) (k : Ctl) : List RunAhead := x.ahead.filter fun a => !(a.pc == k.pc && a.rep == k.rep && a.chunk == k.chunk)

/-! ### LTILE, LVEC, LQ -/

/-- Adding a delivery and its rewind record (R147). -/
def addDeliv (c : Nat) (kind : DelivKind) (fmt : Nat) (bs : List Blk) (src : BitVec 56) (ride : Option Nat) (k : Ctl) (s : State) :
    State :=
  let (s1, r) := newRpt c s
  modCore c (fun x =>
    let ord := match kind with
      | .tile => x.tiles
      | .vec => x.vecBlks
      | .queue => 0
    { x with
      deliv := x.deliv ++ [⟨kind, fmt, bs, src, ride⟩]
      rewinds := x.rewinds ++ [⟨r, kind, ord, k⟩]
      tiles := x.tiles + (if kind = .tile then 1 else 0)
      vecBlks := x.vecBlks + (if kind = .vec then 1 else 0)
      ahead := aheadLeft x k }) s1

/-- One LDE load repeat of `n` blocks: checks, translation, reads (or the blocks read ahead), the format check of R174,
and the delivery that then waits. Only a tile or vectors feed the MXE, so only their faults and stalls delay a cut (R149). -/
def loadRepeat (c : CoreId) (kind : DelivKind) (n fmt : Nat) (src : Opd) (d : Desc) (l : ListSet) (k : Ctl) (rep : Nat)
    (s : State) : State :=
  let va := k.opAddr src
  let vas := unitVas va 2048 n
  let late (t : State) : State := if kind = .queue then t else lateCut c s t
  match checkUnits s c anyLocal 2048 0 vas with
  | some (code, detail, a) => late (engFault c .lde code detail a s)
  | none =>
    match resolveAll c d.ctx .read 0 vas s with
    | (s1, .fault code det a) => late (engFault c .lde code det a s1)
    | (s1, .absent page) => late (stallOn c .lde d.ctx page s1)
    | (s1, .all ts) =>
      match stepArs (steppedArs [src]) k with
      | .error i => late (engFault c .lde fcArOverflow i 0 s1)
      | .ok k' =>
        let (s2, r) := match aheadFor (core s1 c) k va with
          | some a => (s1, FetchedAll.ok a.blks)
          | none => fetchAll d.ctx ts s1
        match r with
        | .bad p => late (corruptFault c .lde va.toNat p s2)
        | .ok bs =>
          match wrongFmt fmt bs with
          | some f => late (engFault c .lde fcFormat (fmtDetail f fmt) va.toNat s2)
          | none =>
            let (s3, ride) := crossReads c d.ctx ts bs none s2
            addDeliv c kind fmt bs va ride k (setCtl c .lde (k'.advance l .lde d.chunks rep) s3)

/-- LTILE (R187). -/
def execLtile (c : CoreId) (s : State) : Out :=
  .next (onRepeat c .lde 0x30 s fun d l k rep op =>
    match op with
    | .ltile fmt src => loadRepeat c .tile 8 fmt src d l k rep s
    | _ => s)

/-- LVEC (R188). -/
def execLvec (c : CoreId) (s : State) : Out :=
  .next (onRepeat c .lde 0x31 s fun d l k rep op =>
    match op with
    | .lvec fmt src => loadRepeat c .vec 1 fmt src d l k rep s
    | _ => s)

/-- LQ (R189). -/
def execLq (c : CoreId) (s : State) : Out :=
  .next (onRepeat c .lde 0x32 s fun d l k rep op =>
    match op with
    | .lq fmt src => loadRepeat c .queue 1 fmt src d l k rep s
    | _ => s)

/-! ### Deliveries, in issue order for each destination -/

/-- Taking the first delivery of a kind off the list. -/
def takeDeliv (kind : DelivKind) : List Deliv → Option (Deliv × List Deliv)
  | [] => none
  | d :: ds =>
    if d.kind = kind then some (d, ds)
    else (takeDeliv kind ds).map fun r => (r.1, d :: r.2)

/-- The first delivery of a kind, once its blocks have come over the ride (R28). -/
def readyDeliv (s : State) (kind : DelivKind) (l : List Deliv) : Option (Deliv × List Deliv) :=
  (takeDeliv kind l).filter fun r => rideArrived s r.1.ride

/-- WSB_DELIVERY (R91, R187): into the next WSB once it is free. -/
def execWsbDelivery (c : CoreId) (s : State) : Out :=
  let x := core s c
  .next (match readyDeliv s .tile x.deliv, lget x.mxe.wsbs x.mxe.wrWsb none with
    | some (d, ds), none =>
      setCore c { x with
        deliv := ds
        mxe := { x.mxe with
          wsbs := lset x.mxe.wsbs x.mxe.wrWsb (some ⟨d.fmt, d.blks, d.src⟩)
          wrWsb := x.mxe.wrWsb + 1 } } s
    | _, _ => s)

/-- FEEDER_DELIVERY (R188): 16 vectors into the feeders, which hold 4 blocks. -/
def execFeederDelivery (c : CoreId) (s : State) : Out :=
  let x := core s c
  .next (match readyDeliv s .vec x.deliv with
    | some (⟨_, fmt, b :: _, _, _⟩, ds) =>
      if x.mxe.feed.length < 4 then
        setCore c { x with deliv := ds, mxe := { x.mxe with feed := x.mxe.feed ++ [⟨fmt, b.pay, b.side⟩] } } s
      else s
    | _ => s)

/-- Payload bytes of an entry not yet taken. (DEDUCED, log 25) -/
def VqEntry.left (q : VqEntry) : Nat := q.pay.length - q.taken

/-- Payload bytes that the VXE input queue holds. (DEDUCED, log 25) -/
def vqBytes (l : List VqEntry) : Nat := (l.map VqEntry.left).sum

/-- Removing the first rewind record of a kind: the delivery is consumed (R146). -/
def dropRewind (kind : DelivKind) (l : List Rewind) : List Rewind := l.eraseP fun r => r.kind == kind

/-- Payload bytes that the VXE input queue holds or has given to drain vectors that are being assembled (R114, R179). -/
def vqHeld (x : Core) : Nat := vqBytes x.vq + (x.mxe.parts.map (·.pay.length)).sum

/-- VXE_QUEUE_DELIVERY (R189): one entry of 2,048 bytes and its side band, consumed on arrival (R146).
(DEDUCED, log 25) -/
def execVxeQueueDelivery (c : CoreId) (s : State) : Out :=
  let x := core s c
  .next (match readyDeliv s .queue x.deliv with
    | some (⟨_, fmt, b :: _, _, _⟩, ds) =>
      if vqHeld x + 2048 ≤ 16384 then
        setCore c { x with
          deliv := ds
          vq := x.vq ++ [⟨fmt, true, b.pay, b.side, 0⟩]
          rewinds := dropRewind .queue x.rewinds } s
      else s
    | _ => s)

/-! ### Run-ahead (R260 to R262) -/

/-- What a load instruction reads and writes: source operand, blocks, and its destination in leaf store. -/
def loadSrc : SOp → Option (Opd × Nat × Option Opd)
  | .ltile _ src => some (src, 8, none)
  | .lvec _ src => some (src, 1, none)
  | .lq _ src => some (src, 1, none)
  | .lfetch src dst nb => some (src, nb, some dst)
  | _ => none

/-- Control after an LDE repeat, as its list alone fixes it; none at a WAIT (R206) or where the list ends. -/
def lookStep (d : Desc) (l : ListSet) (k : Ctl) : Option (Ctl × SOp) :=
  if k.part = .finished ∨ l.pro .lde + l.body .lde ≤ k.pc then none
  else
    match decodeStream (l.word .lde k.pc) with
    | none => none
    | some (rep, op) =>
      let adv (k' : Ctl) (os : List Opd) : Option (Ctl × SOp) :=
        match stepArs (steppedArs os) k' with
        | .ok k2 => some (k2.advance l .lde d.chunks rep, op)
        | .error _ => none
      match op with
      | .wait .. => none
      | .arset ari f => adv { k with ars := lset k.ars ari (arsetNew d l k ari f) } []
      | .cntset i auto mod val => adv { k with cnts := lset k.cnts i (cntsetNew auto mod val) } []
      | .cntadd i amt => adv { k with cnts := lset k.cnts i ((lget k.cnts i Counter.reset).add (signed 32 amt)) } []
      | .signal word _ => adv k [word]
      | .ltile _ src => adv k [src]
      | .lvec _ src => adv k [src]
      | .lq _ src => adv k [src]
      | .lfetch src dst _ => adv k [src, dst]
      | _ => adv k []

/-- The first load repeat within the next 8 repeats that is not yet read ahead; leaf destinations of the LFETCH repeats
before it are collected (R262). (DEDUCED, log 30) -/
def lookAhead (x : Core) (d : Desc) (l : ListSet) : Nat → Ctl → List (BitVec 56) →
    Option (Ctl × BitVec 56 × Nat × List (BitVec 56))
  | 0, _, _ => none
  | f + 1, k, dsts =>
    match lookStep d l k with
    | none => none
    | some (k', op) =>
      match loadSrc op with
      | none => lookAhead x d l f k' dsts
      | some (src, n, dst) =>
        let va := k.opAddr src
        if !(x.ahead.any fun r => r.isFor k va) then some (k, va, n, dsts)
        else
          let more := match dst with | some o => unitVas (k.opAddr o) 2048 n | none => []
          lookAhead x d l f k' (dsts ++ more)

/-- A block as a read ahead finds it: none on any tag event (R261); an open block is read with the tag it would form. -/
def peekBlk (s : State) (ctx : Nat) (l : Loc) : Option Blk :=
  let b0 := blkStored s l
  let b := match openOf s l with
    | some (_, _, fmt) => { b0 with tag := formTag fmt (genOf s ctx) l.term b0.pay b0.side }
    | none => b0
  if poisoned s l then none
  else
    match landCheck b l.term with
    | .accepted t false => some { b with tag := BitVec.ofNat 64 (reformTag t l.term 0) }
    | _ => none

/-- The blocks of a list of targets read ahead, all or none. -/
def peekAll (s : State) (ctx : Nat) : List Target → Option (List Blk)
  | [] => some []
  | .here l _ :: ts =>
    match peekBlk s ctx l, peekAll s ctx ts with
    | some b, some bs => some (b :: bs)
    | _, _ => none
  | _ :: _ => none

/-- The pages of a list of addresses that translation serves, addresses of the package's own coordinates among them (R230). -/
def pagesOf (s : State) (vas : List (BitVec 56)) : List (Nat × Nat) :=
  (vas.filterMap fun va =>
    match regionHere s va with
    | some (.stk h off) => some (h.val, pageOf h.val off)
    | some (.und off) => some (2, pageOf 2 off)
    | _ => none).dedup

/-- The own leaf blocks that addresses in leaf windows name, whichever way they name them (R228). -/
def leafPlaces (s : State) (c : Nat) (vas : List (BitVec 56)) : List Loc :=
  vas.filterMap fun va =>
    match regionHere s va with
    | some (.leaf self lc off) => some (.leaf (asCore (if self then c else physOf s lc)) (off / 2048))
    | _ => none

/-- The leaf blocks that LDE repeats which have issued and not completed still write: blocks on the ride, and the landing places of RDMA
READs (R262). -/
def ldeWrites (s : State) (c : Nat) : List Loc :=
  (core s c).pend.flatMap fun p =>
    if p.eng ≠ .lde then []
    else
      match p.op with
      | .put l _ => [l]
      | .station id => (s.rdma.filter fun o => o.id == id).flatMap fun o => match o.use with | .coreRead _ _ ds => ds | _ => []
      | _ => []

/-- A source of a read ahead is written by an LDE repeat before it: the read waits (R262). -/
def aheadWaits (s : State) (c : Nat) (dsts : List (BitVec 56)) (ts : List Target) : Bool :=
  let busy := leafPlaces s c dsts ++ ldeWrites s c
  ts.any fun t => match t with | .here l _ => busy.contains l | _ => false

end Sys2Proof.Machine
end

