-- ==== Sys2Proof/Machine/Mxe.lean ====
section
/-! DEFINITION. The matrix engine (spec/03, spec/05 R173 to R178): fill, broadcast, merge, drain, MPASS, MUNLOAD. -/

namespace Sys2Proof.Machine

/-- Changing the matrix engine of a core. -/
def modMxe (c : Nat) (f : Mxe → Mxe) (s : State) : State := modCore c (fun x => { x with mxe := f x.mxe }) s

/-- The context of the invocation a core runs, context 0 where none runs. -/
def runCtx (s : State) (c : Nat) : CtxId :=
  match (core s c).run with
  | some (d, _) => d.ctx
  | none => 0

/-- The site of a pass (Table 7.5). -/
def passSite (s : State) (c : Nat) (k : Ctl) : Site :=
  ⟨0, (lcOf s c).getD 0xFFFF, k.pc, k.rep, k.chunk.toNat,
    match (core s c).run with | some (d, _) => d.invSeq.toNat | none => 0, 0⟩

/-- ABFT_MISMATCH of a kind (R104): no result of the vector or a later one, the context faults, its ACC is void, the
GST counts it for the core's slot. -/
def abft (c : CoreId) (kind : Nat) (k : Ctl) (s : State) : State :=
  let n := coreSlot c
  let s1 := modGrove (coreGrove c) (fun g => { g with abft := tset g.abft n (tget g.abft n 0 + 1) }) (computeEvent (.core c) s)
  let s2 := modCore c (fun x => { x with accVoid := true, mxe := { x.mxe with halted := true } }) s1
  ctxFault (runCtx s c) fcAbft kind (passSite s c k) (some (c.val, .mxe)) s2

/-! ### The fill (R90 to R94) -/

/-- Sub-block `j` of column or vector `n` of a tile or input block: its formed elements and their counts (R89, R90). -/
def subOf (fmt : Nat) (b : Blk) (n j : Nat) : List Int × Cnt :=
  let z := subBytes fmt
  formSub fmt (lget b.side ((128 * n + z * j) / z) 0).toNat (slice b.pay (128 * n + z * j) z)

/-- The exponent byte of sub-block `j` of column or vector `n`; integer formats have none and read as zero (R49, R88). -/
def expOf (fmt : Nat) (b : Blk) (n j : Nat) : Nat :=
  if fmtIsBx fmt then lget b.side ((128 * n + subBytes fmt * j) / subBytes fmt) 0 |>.toNat else 0

/-- Elements that one row of cells holds: one in 8-bit formats, two in 4-bit formats (R86). -/
def rowElems (fmt : Nat) : Nat := if fmtIs4 fmt then 2 else 1

/-- The block of a tile that holds column `c`. -/
def tileBlk (w : Wsb) (c : Nat) : Blk := lget w.blks (c / 16) ⟨[], [], 0⟩

/-- Row `r` of a tile: the weights of its elements for the 128 columns, and the counts of the sub-blocks that begin at it
(R89). -/
def tileRow (w : Wsb) (r : Nat) : List (List Int) × Cnt :=
  let n := rowElems w.fmt
  let e := n * r
  let subs := (List.range 128).map fun c => subOf w.fmt (tileBlk w c) (c % 16) (e / 32)
  ((List.range n).map fun i => subs.map fun q => lget q.1 (e % 32 + i) 0,
    if e % 32 = 0 then subs.foldl (fun a q => a.add q.2) .zero else .zero)

/-- A sum of integers modulo 2^32. -/
def sum32 (l : List Int) : BitVec 32 := BitVec.ofInt 32 l.sum

/-- The exponents of the columns for a band's block pair (R88). -/
def tileExps (w : Wsb) (band : Nat) : List Nat :=
  (List.range 128).map fun c => expOf w.fmt (tileBlk w c) (c % 16) (if fmtIs4 w.fmt then band else band / 2)

/-- A plane band with one more row of cells. -/
def addRow (tile fmt : Nat) (exps : List Nat) (o : Option BandW) (rows : List (List Int)) : BandW :=
  let b := o.getD ⟨tile, fmt, [], [], exps⟩
  { b with rows := b.rows ++ rows, cs := b.cs ++ rows.map sum32 }

/-- The column sums of the whole shadow plane as read back (R94). -/
def readback (m : Mxe) : List (BitVec 32) :=
  let rows := m.shadow.flatMap fun o => match o with | some b => b.rows | none => []
  rows.foldl (fun acc r => List.zipWith (fun a (x : Int) => a + BitVec.ofInt 32 x) acc r) (List.replicate 128 0)

/-- Row 128 of a plane before a fill (R93). -/
def SumRow.zero : SumRow := ⟨List.replicate 128 0, 0⟩

/-- Row 128 with the sums of one more row of cells added (R93). -/
def SumRow.add (r : SumRow) (rows : List (List Int)) : SumRow where
  cw := rows.foldl (fun acc q => List.zipWith (fun a (x : Int) => a + BitVec.ofInt 32 x) acc q) r.cw
  tsum := r.tsum + (rows.map sum32).foldl (· + ·) 0

/-- The tile that the fill path takes: on resumption the one that is active again (R109), else the next ready one (R92). -/
def fillTile (m : Mxe) : Option Wsb :=
  match m.refill with
  | some w => some w
  | none => lget m.wsbs (m.checked % 2) none

/-- The number that a refilled tile carries, above every tile of an invocation. -/
def refillTile : Nat := 2 ^ 32

/-- The planes after a fill that has passed its check: the shadow plane is checked; after a refill of R109 it is the active plane, row 128
with it. (DEDUCED, log 99) -/
def fillDone (m : Mxe) : Mxe :=
  if m.refill.isSome then
    { m with
      fill := none
      refill := none
      active := m.shadow
      activeSum := m.shadowSum
      shadow := List.replicate 8 none
      shadowSum := none }
  else { m with fill := none, checked := m.checked + 1 }

/-- What one fill step leads to. -/
inductive FillStep where
  | idle
  | row (m : Mxe) (n : Cnt)
  | done (m : Mxe) (n : Cnt) (cured : Bool)
  | retry (m : Mxe) (n : Cnt)
  | fail
deriving DecidableEq, Repr

/-- One row of the fill, and at row 127 the check of R94 with `readErr` added to column 0's readback. The refill after a mismatch, and the
refill of a resumption, count nothing again of what R52, R56 and Table 2.2 count of the weights: the tile has been counted once.
(DESIGN CHOICE, log 99) -/
def fillStep (m : Mxe) (readErr : Int) : FillStep :=
  if m.halted then .idle
  else
    match fillTile m with
    | none => .idle
    | some w =>
      let f := m.fill.getD ⟨0, false⟩
      let band := f.row / 16
      let old := lget m.shadow band none
      if f.row % 16 = 0 ∧ old.isSome then .idle
      else
        let (rows, n) := tileRow w f.row
        let n := if f.again ∨ m.refill.isSome then Cnt.zero else n
        let b := addRow (if m.refill.isSome then refillTile else m.checked) w.fmt (tileExps w band) old rows
        let sums := ((if f.row = 0 then none else m.shadowSum).getD .zero).add rows
        let m1 := { m with
          shadow := lset m.shadow band (some b)
          shadowSum := some sums
          fill := some { f with row := f.row + 1 } }
        if f.row < 127 then .row m1 n
        else
          let rb := (readback m1).mapIdx fun i x => if i = 0 then x + BitVec.ofInt 32 readErr else x
          if rb = sums.cw ∧ sums.cw.foldl (· + ·) 0 = sums.tsum then .done (fillDone m1) n f.again
          else if f.again then .fail
          else .retry { m1 with shadow := List.replicate 8 none, shadowSum := none, fill := some ⟨0, true⟩ } n

/-! ### Broadcast (R87, R95, R99) -/

/-- The first pass with work left for a band, by a per-band count. -/
def passFor (f : Pass → List Nat) (band : Nat) (ps : List Pass) : Option (Nat × Pass) :=
  let i := ps.findIdx fun p => lget (f p) band 0 < p.nv
  ps[i]?.map fun p => (i, p)

/-- A band's slice of a vector: its formed elements, the counts (once for each sub-block), and the vector's exponent for
the band's block pair. -/
def vecSlice (q : FeedBlk) (n band : Nat) : List Int × Cnt × Nat :=
  let b : Blk := ⟨q.pay, q.side, 0⟩
  if fmtIs4 q.fmt then
    let (l, k) := subOf q.fmt b n band
    (l, k, expOf q.fmt b n band)
  else
    let (l, k) := subOf q.fmt b n (band / 2)
    ((l.drop (16 * (band % 2))).take 16, if band % 2 = 0 then k else .zero, expOf q.fmt b n (band / 2))

/-- The row-link entry of a band for a vector: exact column sums and the checksum-column sum (R86, R102). -/
def bandEntry (w : BandW) (x : List Int) (ea : Nat) : RlEntry :=
  let rows := List.zip x w.rows
  let sums := rows.foldl (fun acc r => List.zipWith (fun a y => a + r.1 * y) acc r.2) (List.replicate 128 0)
  let z := (List.zip x w.cs).foldl (fun a r => a + BitVec.ofInt 32 r.1 * r.2) 0
  ⟨sums, z, ea, w.exps⟩

/-- The plane swap of a band (R95), made in the cycle it broadcasts a pass's first vector: none while the shadow plane is
not checked. The first band's swap makes the tile active, frees its WSB (R91) and consumes its delivery (R146); row 128 turns with it.
(DEDUCED, log 22; DESIGN CHOICE, log 99) -/
def swapBand (x : Core) (p : Pass) (band : Nat) : Option Core :=
  let m := x.mxe
  match lget m.shadow band none with
  | none => none
  | some w =>
    if w.tile ≠ p.tile ∨ m.checked ≤ p.tile then none
    else
      let m1 := { m with active := lset m.active band (some w), shadow := lset m.shadow band none }
      match lget m.wsbs (p.tile % 2) none with
      | some v =>
        if m.activeTile.map (·.1) = some p.tile then some { x with mxe := m1 }
        else
          some { x with
            mxe := { m1 with
              activeSum := m.shadowSum
              shadowSum := none
              activeTile := some (p.tile, w.fmt)
              tileSrc := some (v.src, v.fmt)
              wsbs := lset m1.wsbs (p.tile % 2) none }
            rewinds := x.rewinds.filter fun r => !(r.kind == .tile && r.ord == p.tile) }
      | none => some { x with mxe := m1 }

/-- Vectors that every band has taken leave the feeders block by block (R188). (DEDUCED, log 22) -/
def feedPop (m : Mxe) : Mxe :=
  if m.feedPos.all (16 ≤ ·) then { m with feed := m.feed.tail, feedPos := m.feedPos.map (· - 16) } else m

/-- ROW_BAND_BROADCAST (R87, R95, R99); under FORCE only up to the last ACC_ADD pass (R144). -/
def execRowBandBroadcast (c : CoreId) (band : Fin 8) (s : State) : Out :=
  let x := core s c
  .next (
    if x.mxe.halted || 16 ≤ (lget x.mxe.rl band []).length then s
    else
      match passFor Pass.bcast band x.mxe.passes with
      | none => s
      | some (i, p) =>
        if x.forced && !(x.mxe.passes.drop i).any (·.dmode == 1) then s
        else
          let pos := lget x.mxe.feedPos band 0
          match x.mxe.feed[pos / 16]? with
          | none => s
          | some q =>
            if q.fmt ≠ p.fmt then
              ctxFault (runCtx s c) fcFormat (fmtDetail q.fmt p.fmt) (passSite s c p.ctl) (some (c.val, .mxe))
                (modMxe c (fun m => { m with halted := true }) s)
            else
              let x1 := if p.newTile ∧ lget p.bcast band 0 = 0 then swapBand x p band else some x
              match x1 with
              | none => s
              | some x1 =>
                match lget x1.mxe.active band none with
                | none => s
                | some w =>
                  let (e, n, ea) := vecSlice q (pos % 16) band
                  let p1 := { p with bcast := lset p.bcast band (lget p.bcast band 0 + 1) }
                  let m := x1.mxe
                  let m1 := feedPop { m with
                    feedPos := lset m.feedPos band (pos + 1)
                    rl := lset m.rl band (lget m.rl band [] ++ [bandEntry w e ea])
                    passes := lset m.passes i p1 }
                  count (runCtx s c) n (setCore c { x1 with mxe := m1 } s))

/-! ### Merge (R100 to R103) -/

/-- The row-link heads, when every band holds one. -/
def rlHeads (m : Mxe) : Option (List RlEntry) := m.rl.mapM fun l => l.head?

/-- The column link of each band has an entry free. -/
def clRoom (m : Mxe) : Bool := m.cl.all fun l => l.length < 16

/-- The block-pair terms of one column: band sums with their exponents (R58 to R60, R88). -/
def columnTerms (fmt : Nat) (hs : List RlEntry) (c : Nat) : List Wa :=
  let one (sum : Int) (h : RlEntry) : Wa :=
    match pairExp fmt h.ea (lget h.eb c 0) with
    | some e => .num ⟨sum, e⟩
    | none => .nonfin
  if fmtIs4 fmt then hs.map fun h => one (lget h.sums c 0) h
  else
    (List.range 4).map fun j =>
      let a := lget hs (2 * j) ⟨[], 0, 0, []⟩
      let b := lget hs (2 * j + 1) ⟨[], 0, 0, []⟩
      one (lget a.sums c 0 + lget b.sums c 0) a

/-- y of R102: the sum over columns of the integer band sums. -/
def checkY (hs : List RlEntry) : BitVec 32 := sum32 (hs.map fun h => h.sums.sum)

/-- z of R102. -/
def checkZ (hs : List RlEntry) : BitVec 32 := hs.foldl (fun a h => a + h.z) 0

/-- MERGE (R100, R102 to R104): `sumErr` is an upset of a band sum, `alignErr` a disagreement of the duplicated logic. Where both strike
one vector the kind raised is PASS, the lower code: the spec does not say which. (DESIGN CHOICE, log 99) -/
def execMerge (c : CoreId) (sumErr : Int) (alignErr : Bool) (s : State) : Out :=
  let m := (core s c).mxe
  .next (match rlHeads m, m.passes.findIdx? (fun p => p.merged < p.nv) with
    | some hs, some i =>
      match m.passes[i]? with
      | none => s
      | some p =>
        if m.halted || !clRoom m then s
        else if checkY hs + BitVec.ofInt 32 sumErr ≠ checkZ hs then abft c 0 p.ctl s
        else if alignErr then abft c 1 p.ctl s
        else
          let was := (List.range 128).map fun j => roundWa (columnTerms p.fmt hs j)
          let m1 := { m with
            rl := m.rl.map List.tail
            cl := m.cl.mapIdx fun k l => l ++ [((was.drop (16 * k)).take 16).map (·.1)]
            passes := lset m.passes i { p with merged := p.merged + 1 } }
          count (runCtx s c) (was.foldl (fun a w => a.add w.2) .zero) (modMxe c (fun _ => m1) s)
    | _, _ => s)

/-! ### Drain (R101, R105 to R107, R175, R176) -/

/-- Output bytes per vector of a drain mode (R175). -/
def outSize (dmode : Nat) : Nat :=
  match dmode with
  | 0 => 1024
  | 1 => 1024
  | 2 => 512
  | 3 => 512
  | 4 => 128
  | _ => 64

/-- The format code of a drain mode's output (Table 2.1). -/
def outFmt (dmode : Nat) : Nat :=
  match dmode with
  | 0 => 6
  | 1 => 6
  | 2 => 4
  | 3 => 5
  | 4 => 2
  | _ => 3

/-- Writing part of an own leaf block: payload bytes, exponents of the sub-blocks they hold, unused side-band bytes zero
(R49, R176); the block is open with the format. Watchers wake. (DEDUCED, log 27) -/
def leafPut (c : CoreId) (fmt : Nat) (off : Nat) (d : Bytes) (exps : List (Nat × Byte)) (s : State) : State :=
  let l := Loc.leaf c (off / 2048)
  let s1 := memWrite (l.addr (off % 2048)) d s
  let s2 := exps.foldl (fun t e => memWrite (l.addr (2048 + e.1)) [e.2] t) s1
  let s3 :=
    if fmt = 3 then s2
    else if fmt = 2 then memWrite (l.addr (2048 + 64)) (zeros 64) s2
    else memWrite (l.addr 2048) (zeros 128) s2
  wakeRange (l.addr (off % 2048)) d.length (blkOpen c (off / 2048) fmt s3)

/-- What a drain converts 16 or 32 columns of a vector into: bytes, exponent bytes, counts (R74 to R76). -/
def drainConv (dmode : Nat) (mode : Rnd) (i0 : Nat) (v : List Wa) : Bytes × Bytes × Cnt :=
  match dmode with
  | 2 => let (l, n) := collect (v.map waToF32); (f32Bytes l, [], n)
  | 3 => let (l, n) := collect (v.map waToI32); (f32Bytes l, [], n)
  | 4 => toBxs 2 mode 1 i0 (v.map bxSrcWa)
  | 5 => toBxs 3 mode 1 i0 (v.map bxSrcWa)
  | _ => ((v.map wapOf).flatMap (toLe 8), [], .zero)

/-- The rounding of a converting instruction (R83, R178). -/
def rndOf (s : State) (ctx : CtxId) (sr : Bool) (base : Nat) : Rnd := if sr then .sr (rd s fKey ctx) base else .rne

/-- The base counter of Table 5.8. -/
def baseCounter (salt : Nat) (chunk : BitVec 32) (rep e : Nat) : Nat :=
  salt * 2 ^ 48 + chunk.toNat % 2 ^ 16 * 2 ^ 32 + rep * e % 2 ^ 32

/-- The 16 ACC entries of a column band in a row. -/
def accEntries (s : State) (c : CoreId) (row k : Nat) : List (Wa × Cnt) :=
  (wordsLe 8 16 (memRead s ((Loc.acc c (row / 2)).addr (row % 2 * 1024 + 128 * k)) 128)).map wapRead

/-- Writing a column band of an ACC row. (DEDUCED, log 27) -/
def accPut (c : CoreId) (row k : Nat) (v : List Wa) (s : State) : State :=
  let l := Loc.acc c (row / 2)
  blkOpen c (256 + row / 2) 6
    (memWrite (l.addr 2048) (zeros 128) (memWrite (l.addr (row % 2 * 1024 + 128 * k)) ((v.map wapOf).flatMap (toLe 8)) s))

/-- The exponent byte of a sub-block at a leaf offset (R176). -/
def leafExp (dmode off : Nat) (e : Bytes) : List (Nat × Byte) :=
  e.map fun b => (off % 2048 / (if dmode = 4 then 32 else 16), b)

/-- The part of an output vector at byte `at_`, put into the vector assembled for the VXE queue; when its last band has
drained it enters the queue as one entry (R179). (DEDUCED, log 23) -/
def queuePart (c : CoreId) (rpt v dmode band nb at_ : Nat) (d e : Bytes) (s : State) : State :=
  modCore c (fun x =>
    let m := x.mxe
    let q := (m.parts.find? fun p => p.rpt == rpt && p.vec == v).getD ⟨rpt, v, [], zeros (outSize dmode), zeros 4⟩
    let q1 := { q with
      bands := q.bands ++ [band]
      pay := splice q.pay at_ d
      exps := if e.isEmpty then q.exps else splice q.exps band e }
    let others := m.parts.filter fun p => !(p.rpt == rpt && p.vec == v)
    if q1.bands.length = nb then
      { x with
        mxe := { m with parts := others }
        vq := x.vq ++ [⟨outFmt dmode, false, q1.pay, if dmode = 4 ∨ dmode = 5 then q1.exps else [], 0⟩] }
    else { x with mxe := { m with parts := others ++ [q1] } }) s

/-- The queue has room for a vector that a band is to drain: it is assembled already, or there is space beside what is
held and assembled (R108). -/
def queueRoom (x : Core) (rpt v dmode : Nat) : Bool :=
  x.mxe.parts.any (fun p => p.rpt == rpt && p.vec == v) || vqHeld x + outSize dmode ≤ 16384

/-- Passes whose every vector has drained leave; the feeder deliveries they used are consumed (R146).
(DEDUCED, log 22) -/
def passEnd (x : Core) : Core :=
  match x.mxe.passes with
  | p :: ps =>
    if p.drained.all (· == p.nv) then
      { x with
        mxe := { x.mxe with passes := ps }
        rewinds := x.rewinds.filter fun r => !(r.kind == .vec && 16 * (r.ord + 1) ≤ p.last) }
    else x
  | [] => x

/-- One unit of drain: the column bands `ks` (one, or a pair in BX modes) of vector `v` of a pass commit. -/
def drainUnit (c : CoreId) (i : Nat) (p : Pass) (ks : List Nat) (vals : List Wa) (s : State) : State :=
  let ctx := runCtx s c
  let k := lget ks 0 0
  let v := lget p.drained k 0
  let off := p.dst.toNat % 2 ^ 19 + v * outSize p.dmode
  let s1 : State × Cnt :=
    match p.dmode with
    | 0 => (accPut c (off / 1024) k vals s, .zero)
    | 1 =>
      let old := accEntries s c (off / 1024) k
      let new := (List.zip old vals).map fun q => ((roundWa [q.1.1, q.2]), q.1.2)
      (accPut c (off / 1024) k (new.map (·.1.1)) s, new.foldl (fun a q => (a.add q.1.2).add q.2) .zero)
    | m =>
      let (d, e, n) := drainConv m (rndOf s ctx p.sr p.base) (128 * v + 16 * k) vals
      let at_ := if m = 4 then 16 * k else if m = 5 then 8 * k else 64 * k
      (if p.toQ then queuePart c p.rpt v m (if 4 ≤ m then k / 2 else k) (if 4 ≤ m then 4 else 8) at_ d e s
        else leafPut c (outFmt m) (off + at_) d (leafExp m (off + at_) e) s, n)
  let p1 := { p with drained := ks.foldl (fun l j => lset l j (v + 1)) p.drained }
  let s2 := modMxe c (fun m => { m with
    cl := m.cl.mapIdx fun j l => if ks.contains j then l.tail else l
    passes := lset m.passes i p1 }) s1.1
  count ctx s1.2 (modCore c passEnd s2)

/-- Every column band of a unit of drain stands at the same vector of the same pass (R68, R101, R107). -/
def drainAligned (ps : List Pass) (i v : Nat) (ks : List Nat) : Bool :=
  ks.all fun k =>
    match passFor Pass.drained k ps with
    | some (j, q) => j == i && lget q.drained k 0 == v
    | none => false

/-- DRAIN (R101, R103): a column band, or the pair of bands of a sub-block in BX modes, once both stand at the same vector. -/
def execDrain (c : CoreId) (band : Fin 8) (dupErr : Bool) (s : State) : Out :=
  let x := core s c
  .next (match passFor Pass.drained band x.mxe.passes with
    | none => s
    | some (i, p) =>
      let ks := if 4 ≤ p.dmode then [2 * (band.val / 2), 2 * (band.val / 2) + 1] else [band.val]
      let v := lget p.drained band 0
      let heads := ks.map fun k => (lget x.mxe.cl k []).head?.getD []
      if x.mxe.halted || p.merged ≤ v || !drainAligned x.mxe.passes i v ks || heads.any List.isEmpty then s
      else if p.toQ && !queueRoom x p.rpt v p.dmode then s
      else if dupErr then abft c 2 p.ctl s
      else drainUnit c i p ks heads.flatten s)

/-! ### MPASS (R173 to R176) -/

/-- The check of MPASS's destination (Table 5.5). -/
def mpassDst (s : State) (c : Nat) (dmode : Nat) (dst : Opd) (nv : Nat) (va : BitVec 56) : Option IssueFault :=
  if dst.q then none
  else
    let u := outSize dmode
    let a : Allowed := if dmode ≤ 1 then { ownAcc := true } else { ownLeaf := true }
    match checkOpd s c a u 0 va with
    | some f => some f
    | none => if windowFits va (nv * u) then none else some (fcAlign, 0, va.toNat)

/-- Some band has broadcast every vector of every pass in flight, so the next pass can begin (R97). (DEDUCED, log 22) -/
def mpassReady (m : Mxe) : Bool :=
  m.passes.isEmpty || (List.range 8).any fun b => m.passes.all fun p => lget p.bcast b 0 == p.nv

/-- MPASS (R173): one repeat issues its pass. The MPASS with KEEP = 0 at which a cut resumes, and whose tile had become active before the cut,
takes the tile that R109 refills: its delivery was consumed and the LDE does not load it again (R146); the spec does not say so.
(DESIGN CHOICE, log 99) -/
def execMpass (c : CoreId) (s : State) : Out :=
  .next (onRepeat c .mxe 0x10 s fun d l k rep op =>
    match op with
    | .mpass fmt dmode keep sr dst nv salt =>
      let m := (core s c).mxe
      let va := k.opAddr dst
      match mpassDst s c dmode dst nv va with
      | some (code, det, a) => engFault c .mxe code det a s
      | none =>
        if !mpassReady m || m.halted then s
        else
          let go (tile : Nat) (new : Bool) : State :=
            issue c .mxe d l k rep none [dst] s fun s1 =>
              let (s2, r) := newRpt c s1
              modMxe c (fun m => { m with
                firstPass := false
                taken := if new then tile + 1 else m.taken
                vecs := m.vecs + nv
                passes := m.passes ++ [⟨r, k, fmt, dmode, sr, dst.q, va, nv, tile, new,
                  baseCounter salt k.chunk k.rep (128 * nv), m.vecs + nv, List.replicate 8 0, 0, List.replicate 8 0⟩] }) s2
          if keep ∨ m.firstPass then
            match m.activeTile with
            | none => engFault c .mxe fcNoTile 0 0 s
            | some (t, f) =>
              if f ≠ fmt then engFault c .mxe fcFormat (fmtDetail f fmt) 0 s else go t false
          else
            match lget m.wsbs (m.taken % 2) none with
            | none => s
            | some w =>
              if w.fmt ≠ fmt then engFault c .mxe fcFormat (fmtDetail w.fmt fmt) 0 s else go m.taken true
    | _ => s)

/-! ### MUNLOAD (R107, R177) -/

/-- One ACC row as WA values with the counts of reading it. -/
def accRow (s : State) (c : CoreId) (row : Nat) : List Wa × Cnt :=
  let l := (List.range 8).flatMap fun k => accEntries s c row k
  (l.map (·.1), l.foldl (fun a q => a.add q.2) .zero)

/-- One row of 128 values converted by a mode: bytes, exponents, counts (R106). -/
def rowConv (dmode : Nat) (mode : Rnd) (i0 : Nat) (v : List Wa) : Bytes × Bytes × Cnt :=
  match dmode with
  | 4 => toBxs 2 mode 4 i0 (v.map bxSrcWa)
  | 5 => toBxs 3 mode 4 i0 (v.map bxSrcWa)
  | m => drainConv m mode i0 v

/-- Exponent bytes of a whole vector at a leaf offset. -/
def leafExps (dmode off : Nat) (e : Bytes) : List (Nat × Byte) :=
  e.mapIdx fun i b => (off % 2048 / (if dmode = 4 then 32 else 16) + i, b)

/-- Unloading rows `n` to `n + f - 1` of a repeat, as far as a queue destination has room. (DEDUCED, log 23) -/
def unloadRows (c : CoreId) (ctx : CtxId) (dmode : Nat) (mode : Rnd) (src dst : Nat) (toQ : Bool) : Nat → Nat → State → State
  | 0, _, s => s
  | f + 1, n, s =>
    let room := !toQ || vqHeld (core s c) + outSize dmode ≤ 16384
    if !room then s
    else
      let (v, n1) := accRow s c (src / 1024 + n)
      let (d, e, n2) := rowConv dmode mode (128 * n) v
      let s1 :=
        if toQ then modCore c (fun x => { x with vq := x.vq ++ [⟨outFmt dmode, false, d, e, 0⟩] }) s
        else leafPut c (outFmt dmode) (dst + n * outSize dmode) d (leafExps dmode (dst + n * outSize dmode) e) s
      unloadRows c ctx dmode mode src dst toQ f (n + 1)
        (modMxe c (fun m => { m with unload := n + 1 }) (count ctx (n1.add n2) s1))

/-- MUNLOAD (R107, R177): rows take the drain in order, a queue destination as far as it has room; the repeat has issued
when its last row has. An unload starts only once every earlier pass has committed. -/
def execMunload (c : CoreId) (dupErr : Bool) (s : State) : Out :=
  .next (onRepeat c .mxe 0x11 s fun d l k rep op =>
    match op with
    | .munload dmode sr dst src nr salt =>
      let m := (core s c).mxe
      let vs := k.opAddr src
      let chk := firstFault [
        if dst.q then none else mpassDst s c dmode dst nr (k.opAddr dst),
        match checkOpd s c { ownAcc := true } 1024 1 vs with
        | some f => some f
        | none => if windowFits vs (nr * 1024) then none else some (fcAlign, 1, vs.toNat)]
      match chk with
      | some (code, det, a) => engFault c .mxe code det a s
      | none =>
        if !m.passes.isEmpty || m.halted then s
        else
          match stepArs (steppedArs [dst, src]) k with
          | .error i => engFault c .mxe fcArOverflow i 0 s
          | .ok k' =>
            if dupErr then abft c 2 k s
            else
              let s1 := unloadRows c d.ctx dmode (rndOf s d.ctx sr (baseCounter salt k.chunk k.rep (128 * nr)))
                (vs.toNat % 2 ^ 19) ((k.opAddr dst).toNat % 2 ^ 19) dst.q (nr - m.unload) m.unload s
              if (core s1 c).mxe.unload < nr then s1
              else setCtl c .mxe (k'.advance l .mxe d.chunks rep) (modMxe c (fun m => { m with unload := 0 }) s1)
    | _ => s)

end Sys2Proof.Machine
end

