-- ==== Sys2Proof/Machine/Vtr.lean ====
section
/-! DEFINITION. The functions of VTR (spec/05 R182), each rounded once to nearest even from its exact value.
EXP, LOG and their relatives are computed to more than 400 significant bits by fixed-point series and then rounded;
see the log for why that rounds as the exact value does. -/

namespace Sys2Proof.Machine

/-- Fraction bits of the fixed-point arithmetic. -/
def fxBits : Nat := 640

/-- One in fixed point. -/
def fxOne : Int := (2 ^ fxBits : Nat)

/-- Fixed-point product, rounded down. -/
def fxMul (a b : Int) : Int := a * b / (2 ^ fxBits : Nat)

/-- Terms of the exponential series from term `k` on, `n` of them: x^k / k! accumulates. -/
def expSeries (x : Int) : Nat → Nat → Int → Int
  | 0, _, _ => 0
  | n + 1, k, t => t + expSeries x n (k + 1) (fxMul t x / ((k + 1 : Nat) : Int))

/-- `n` squarings. -/
def fxSquare : Nat → Int → Int
  | 0, a => a
  | n + 1, a => fxSquare n (fxMul a a)

/-- e^x − 1 for a fixed-point |x| < 1, without cancellation. -/
def fxExpm1Small (x : Int) : Int := expSeries x 140 1 x

/-- Terms of atanh z = z + z^3/3 + ..., `n` of them: `p` is the odd power at hand. -/
def atanhSeries (z2 : Int) : Nat → Nat → Int → Int
  | 0, _, _ => 0
  | n + 1, k, p => p / ((2 * k + 1 : Nat) : Int) + atanhSeries z2 n (k + 1) (fxMul p z2)

/-- ln of a ratio a / b in [1/2, 2], in fixed point: 2 atanh((a − b)/(a + b)). -/
def fxLnRatio (a b : Nat) : Int :=
  let z : Int := ((a : Int) - b) * (2 ^ fxBits : Nat) / ((a + b : Nat) : Int)
  2 * atanhSeries (fxMul z z) 210 0 z

/-- ln 2 in fixed point. -/
def fxLn2 : Int := fxLnRatio 2 1

/-- A fixed-point value of `d`, rounded down. -/
def fxOfDy (d : Dy) : Int := (d.scale fxBits).floor

/-- The parts of e^x: an integer k and a fixed-point f = e^r with x = k ln 2 + r, |r| < 1. -/
def expParts (x : Int) : Int × Int :=
  let k := x / fxLn2
  let r := x - k * fxLn2
  (k, fxOne + fxExpm1Small r)

/-- Rounding the fixed-point magnitude `a * 2^(k − fxBits)`, whose exact value is irrational. -/
def fxPack (neg : Bool) (a : Int) (k : Int) : Nat × Cnt :=
  f32Pack neg a.natAbs (k - fxBits) true

/-- A magnitude surely beyond FP32's range. -/
def f32Huge (neg : Bool) : Nat × Cnt := (f32Inf neg, .oneOvf)

/-- A non-zero magnitude surely below FP32's range. -/
def f32Tiny (neg : Bool) : Nat × Cnt := (f32Zero neg, .oneFl)

/-- EXP of a finite non-zero operand. For |x| < 2^−30 the exact value lies so near 1 that it rounds to 1. -/
def expFin (d : Dy) : Nat × Cnt :=
  if d.log2 ≥ 8 then (if d.m < 0 then f32Tiny false else f32Huge false)
  else if d.log2 < -30 then (0x3F800000, .zero)
  else
    let (k, f) := expParts (fxOfDy d)
    fxPack false f k

/-- 2^x of a finite non-zero operand; an integer operand is exact. -/
def exp2Fin (d : Dy) : Nat × Cnt :=
  if d.log2 ≥ 9 then (if d.m < 0 then f32Tiny false else f32Huge false)
  else if d.log2 < -30 then (0x3F800000, .zero)
  else
    let k := d.floor
    let r := d.add ⟨-k, 0⟩
    if r.m = 0 then f32Of ⟨1, k⟩ false
    else fxPack false (fxOne + fxExpm1Small (fxMul (fxOfDy r) fxLn2)) k

/-- A fixed-point value with its sign, rounded. -/
def fxPackSigned (v : Int) : Nat × Cnt := fxPack (v < 0) v 0

/-- The mantissa of a positive number in [1, 2) as a ratio over 2^p, and its exponent; a mantissa at or above
4/3 is halved so that the logarithm of a number near 1 keeps its significant bits. -/
def lnSplit (d : Dy) : Nat × Nat × Int :=
  let p := Nat.log2 d.m.natAbs
  let a := d.m.natAbs
  let e := d.e + p
  if 3 * a ≥ 4 * 2 ^ p then (a, 2 ^ (p + 1), e + 1) else (a, 2 ^ p, e)

/-- LOG of a positive finite operand. -/
def logFin (d : Dy) : Nat × Cnt :=
  let (a, b, e) := lnSplit d
  if a = b ∧ e = 0 then (0, .zero)
  else fxPackSigned (fxLnRatio a b + e * fxLn2)

/-- LOG2 of a positive finite operand: exact at powers of two. -/
def log2Fin (d : Dy) : Nat × Cnt :=
  let (a, b, e) := lnSplit d
  if a = b then f32Of ⟨e, 0⟩ false
  else fxPackSigned (fxLnRatio a b * fxOne / fxLn2 + e * fxOne)

/-- The value just below the magnitude of `d`, rounded: for an odd function that bends toward zero, whose
distance from `d` is far below half a unit. -/
def justBelow (d : Dy) : Nat × Cnt :=
  f32Pack (d.m < 0) (d.m.natAbs * 2 ^ 64 - 1) (d.e - 64) true

/-- TANH of a finite non-zero operand: (e^2x − 1) / (e^2x + 1). -/
def tanhFin (d : Dy) : Nat × Cnt :=
  let neg := decide (d.m < 0)
  if d.log2 ≥ 5 then f32Pack neg (2 ^ 64 - 1) (-64) true
  else if d.log2 < -30 then justBelow d
  else
    let x : Dy := ⟨d.m.natAbs, d.e + 1⟩
    let (num, den) : Int × Int :=
      if x.log2 < 0 then
        let m := fxExpm1Small (fxOfDy x)
        (m, m + 2 * fxOne)
      else
        let (k, f) := expParts (fxOfDy x)
        let v := f * 2 ^ k.toNat
        (v - fxOne, v + fxOne)
    fxPack neg (num * fxOne / den) 0

/-- SIGMOID of a finite non-zero operand: 1 / (1 + e^−x). -/
def sigmoidFin (d : Dy) : Nat × Cnt :=
  if d.log2 ≥ 8 then (if d.m < 0 then f32Tiny false else f32Pack false (2 ^ 64 - 1) (-64) true)
  else if d.log2 < -30 then
    f32Pack false (if d.m < 0 then 2 ^ 64 - 1 else 2 ^ 64) (-65) true
  else
    let (k, f) := expParts (fxOfDy ⟨d.m.natAbs, d.e⟩)
    let v := f * 2 ^ k.toNat
    -- e^|x| / (1 + e^|x|) for x > 0 and 1 / (1 + e^|x|) for x < 0
    if d.m < 0 then
      fxPack false (fxOne * (2 ^ fxBits : Nat) / (v + fxOne)) 0
    else fxPack false (v * fxOne / (v + fxOne)) 0

/-- The functions of VTR by code (R182): 0 EXP, 1 EXP2, 2 LOG, 3 LOG2, 4 RCP, 5 SQRT, 6 RSQRT, 7 TANH, 8 SIGMOID.
An argument outside the domain gives NaN and counts in ACNT_INVALID; a pole gives infinity and counts nothing. -/
def vtrFn (fn a : Nat) : Nat × Cnt :=
  match fn with
  | 4 => f32Rcp a
  | 5 => f32Sqrt a
  | 6 => f32Rsqrt a
  | _ =>
    match f32Read a with
    | .nan => (f32Nan, .zero)
    | .inf s =>
      match fn with
      | 0 => (if s then f32Zero false else f32Inf false, .zero)
      | 1 => (if s then f32Zero false else f32Inf false, .zero)
      | 2 => if s then f32Invalid else (f32Inf false, .zero)
      | 3 => if s then f32Invalid else (f32Inf false, .zero)
      | 7 => (if s then 0xBF800000 else 0x3F800000, .zero)
      | _ => (if s then f32Zero false else 0x3F800000, .zero)
    | .zero s =>
      match fn with
      | 0 => (0x3F800000, .zero)
      | 1 => (0x3F800000, .zero)
      | 2 => (f32Inf true, .zero)
      | 3 => (f32Inf true, .zero)
      | 7 => (f32Zero s, .zero)
      | _ => (0x3F000000, .zero)
    | .fin d =>
      match fn with
      | 0 => expFin d
      | 1 => exp2Fin d
      | 2 => if d.m < 0 then f32Invalid else logFin d
      | 3 => if d.m < 0 then f32Invalid else log2Fin d
      | 7 => tanhFin d
      | _ => sigmoidFin d

end Sys2Proof.Machine
end

