-- ==== Sys2Proof/Machine/Vxe.lean ====
section
/-! DEFINITION. The vector engine (spec/05 R179 to R186): operands from leaf store, understorey and the input queue, VEW,
VTR, VRED, VCVT and VDROP. -/

namespace Sys2Proof.Machine

/-- Payload bytes of one vector of a format (Table 5.10): INT8 0, INT4 1, BX8 2, BX4 3, FP32 4, INT32 5, WAP 6. -/
def vecSize (fmt : Nat) : Nat :=
  match fmt with
  | 0 => 128
  | 1 => 64
  | 2 => 128
  | 3 => 64
  | 4 => 512
  | 5 => 512
  | _ => 1024

/-- Sub-block size in bytes of a BX format (R179). -/
def vecSub (fmt : Nat) : Nat := if fmt = 3 then 16 else 32

/-- The exponent that an entry gives the sub-block whose first byte is at payload offset `o` (R179). -/
def VqEntry.exp (q : VqEntry) (z o : Nat) : Byte :=
  let j := o / z
  if q.lq then lget q.side j 0 else if (q.fmt == 2 || q.fmt == 3) && j < 4 then lget q.side j 0 else 0

/-- The bytes of a queue not yet taken, each with the exponent of a sub-block that would begin at it. -/
def vqStream (z : Nat) (l : List VqEntry) : List (Byte × Byte) :=
  l.flatMap fun q => (q.pay.drop q.taken).mapIdx fun i b => (b, q.exp z (q.taken + i))

/-- Taking `n` payload bytes from the head of the queue; entries taken whole leave. -/
def vqDrop : Nat → List VqEntry → List VqEntry
  | _, [] => []
  | n, q :: qs =>
    if q.left ≤ n then vqDrop (n - q.left) qs else { q with taken := q.taken + n } :: qs

/-- A vector's payload and its four exponent bytes. -/
abbrev Vec := Bytes × Bytes

/-- Taking a vector of a format from the queue (R179): none while it holds too little. -/
def vqTake (fmt : Nat) (l : List VqEntry) : Option (Vec × List VqEntry) :=
  let n := vecSize fmt
  let st := (vqStream (vecSub fmt) l).take n
  if st.length < n then none
  else
    some ((st.map (·.1), (List.range 4).map fun i => ((st[i * vecSub fmt]?).map (·.2)).getD 0), vqDrop n l)

/-- Reading a vector in place (R440: no landing). -/
def vecRead (s : State) (fmt : Nat) (l : Loc) (off : Nat) : Vec :=
  (memRead s (l.addr off) (vecSize fmt), memRead s (l.addr (2048 + off / vecSub fmt)) 4)

/-- What gathering a repeat's sources gives: the vectors with the queue left over, a fault, a page to restore, or too
little in the queue. -/
inductive Gathered where
  | ok (vs : List Vec) (q : List VqEntry)
  | fault (code detail addr : Nat)
  | absent (page : Nat)
  | wait
deriving DecidableEq, Repr

/-- Resolving a source vector of the VXE (Table 5.5, R163). -/
def vxeResolve (c : CoreId) (ctx : CtxId) (want : Want) (pos : Nat) (va : BitVec 56) (s : State) : State × Target :=
  match resolve c ctx want pos va s with
  | (s1, t) => if ownUnd c t then (s1, t) else (s1, .fault fcRegion pos)

/-- Gathering sources in the order A, B, C: format, operand position, and address (none for the queue). -/
def gather (c : CoreId) (ctx : CtxId) : List (Nat × Nat × Option (BitVec 56)) → List VqEntry → State → State × Gathered
  | [], q, s => (s, .ok [] q)
  | (fmt, _, none) :: l, q, s =>
    match vqTake fmt q with
    | none => (s, .wait)
    | some (v, q1) =>
      match gather c ctx l q1 s with
      | (s1, .ok vs q2) => (s1, .ok (v :: vs) q2)
      | r => r
  | (fmt, pos, some va) :: l, q, s =>
    match vxeResolve c ctx .read pos va s with
    | (s1, .here p off) =>
      match gather c ctx l q s1 with
      | (s2, .ok vs q2) => (s2, .ok (vecRead s1 fmt p off :: vs) q2)
      | r => r
    | (s1, .absent page) => (s1, .absent page)
    | (s1, .fault code d) => (s1, .fault code d va.toNat)
    | (s1, _) => (s1, .fault fcRegion pos va.toNat)

/-- The side-band bytes that a VXE result brings: exponents at the sub-blocks it writes. -/
def resultExps (fmt off : Nat) (e : Bytes) : List (Nat × Byte) :=
  e.mapIdx fun i b => (off % 2048 / vecSub fmt + i, b)

/-- Writing a result: into the own leaf store at once; into understorey as an operation its home merges (R437). -/
def vxePut (c : CoreId) (ctx : CtxId) (fmt : Nat) (t : Target) (d e : Bytes) (s : State) : State :=
  match t with
  | .here (.leaf _ b) off => leafPut c fmt (b * 2048 + off) d (resultExps fmt off e) s
  | .here l off =>
    let (s1, r) := newRpt c s
    pendAdd c ⟨ctx, .vxe, r, none, .patch l off d (resultExps fmt off e) fmt⟩ s1
  | _ => s

/-- A source operand as `gather` takes it. -/
def srcOpd (k : Ctl) (fmt pos : Nat) (o : Opd) : Nat × Nat × Option (BitVec 56) :=
  (fmt, pos, if o.q then none else some (k.opAddr o))

/-- The check of a source or destination vector (Table 5.5). -/
def vecCheck (s : State) (c : Nat) (k : Ctl) (align pos : Nat) (o : Opd) : Option IssueFault :=
  if o.q then none else checkOpd s c vxeRegions align pos (k.opAddr o)

/-- One VXE repeat: checks, sources, destination, the residue check (an upset lane), the result, and control moved on.
`res` gives the result's bytes, exponents and counts. -/
def vxeRepeat (c : CoreId) (d : Desc) (l : ListSet) (k : Ctl) (rep : Nat) (chk : Option IssueFault)
    (srcs : List (Nat × Nat × Option (BitVec 56))) (dst : Opd) (dpos dfmt : Nat) (os : List Opd)
    (residue : Option (Fin 128)) (res : List Vec → Bytes × Bytes × Cnt) (s : State) : State :=
  match chk with
  | some (code, det, a) => engFault c .vxe code det a s
  | none =>
    match gather c d.ctx srcs (core s c).vq s with
    | (s1, .fault code det a) => engFault c .vxe code det a s1
    | (s1, .absent page) => stallOn c .vxe d.ctx page s1
    | (s1, .wait) => s1
    | (s1, .ok vs q) =>
      match vxeResolve c d.ctx .write dpos (k.opAddr dst) s1 with
      | (s2, .fault code det) => engFault c .vxe code det (k.opAddr dst).toNat s2
      | (s2, .absent page) => stallOn c .vxe d.ctx page s2
      | (s2, t) =>
        match stepArs (steppedArs os) k with
        | .error i => engFault c .vxe fcArOverflow i 0 s2
        | .ok k' =>
          match residue with
          | some lane => engFault c .vxe fcResidue lane.val 0 (computeEvent (.core c) s2)
          | none =>
            let (b, e, n) := res vs
            count d.ctx n (vxePut c d.ctx dfmt t b e
              (setCtl c .vxe (k'.advance l .vxe d.chunks rep) (modCore c (fun x => { x with vq := q }) s2)))

/-! ### VEW -/

/-- The 128 words of a 4-byte vector. -/
def lanes (v : Vec) : List Nat := wordsLe 4 128 v.1

/-- A VEW operation on FP32 lanes (Table 5.11). -/
def vewF32 (op a b c : Nat) : Nat × Cnt :=
  match op with
  | 0 => f32Add a b
  | 1 => f32Sub a b
  | 2 => f32Mul a b
  | 3 => f32Fma a b c
  | 4 => f32Max a b
  | 5 => f32Min a b
  | 6 => f32Abs a
  | 7 => f32Neg a
  | _ => f32Copy a

/-- A VEW operation on INT32 lanes, modulo 2^32 (R181, Table 5.11). -/
def vewI32 (op a b c : Nat) : Nat :=
  let x := signed 32 a
  let y := signed 32 b
  match op with
  | 0 => (a + b) % 2 ^ 32
  | 1 => unsigned 32 (x - y)
  | 2 => a * b % 2 ^ 32
  | 3 => (a * b + c) % 2 ^ 32
  | 4 => unsigned 32 (max x y)
  | 5 => unsigned 32 (min x y)
  | 6 => unsigned 32 (if x < 0 then -x else x)
  | 7 => unsigned 32 (-x)
  | _ => a

/-- Lane `i` of a list. -/
def lane (l : List Nat) (i : Nat) : Nat := lget l i 0

/-- The result of VEW over 128 lanes; a missing operand reads as zero and is not used. -/
def vewCalc (op : Nat) (i32 : Bool) (a b c : List Nat) : Bytes × Bytes × Cnt :=
  let rs := (List.range 128).map fun i =>
    if i32 then (vewI32 op (lane a i) (lane b i) (lane c i), Cnt.zero) else vewF32 op (lane a i) (lane b i) (lane c i)
  let (w, n) := collect rs
  (f32Bytes w, [], n)

/-- The sources VEW uses, in order (R565). -/
def vewSrcs (k : Ctl) (op fmt : Nat) (a b c : Opd) (bimm : Bool) : List (Nat × Nat × Option (BitVec 56)) :=
  [srcOpd k fmt 0 a] ++ (if vewUsesB op && !bimm then [srcOpd k fmt 1 b] else [])
    ++ (if vewUsesC op then [srcOpd k fmt 2 c] else [])

/-- VEW (R181, R565, R185). -/
def execVew (c : CoreId) (residueErr : Option (Fin 128)) (s : State) : Out :=
  .next (onRepeat c .vxe 0x20 s fun d l k rep op =>
    match op with
    | .vew o i32 a b cc dd bimm imm =>
      let fmt := if i32 then 5 else 4
      let useB := vewUsesB o && !bimm
      let chk := firstFault [vecCheck s c k 512 0 a, if useB then vecCheck s c k 512 1 b else none,
        if vewUsesC o then vecCheck s c k 512 2 cc else none, vecCheck s c k 512 3 dd]
      vxeRepeat c d l k rep chk (vewSrcs k o fmt a b cc bimm) dd 3 fmt [a, b, cc, dd]
        (if i32 then residueErr else none)
        (fun vs =>
          let va := lanes (lget vs 0 ([], []))
          let vb := if bimm then List.replicate 128 imm else if useB then lanes (lget vs 1 ([], [])) else []
          let vc := if vewUsesC o then lanes (lget vs (if useB then 2 else 1) ([], [])) else []
          vewCalc o i32 va vb vc) s
    | _ => s)

/-! ### VTR, VRED, VDROP -/

/-- VTR (R182). -/
def execVtr (c : CoreId) (s : State) : Out :=
  .next (onRepeat c .vxe 0x21 s fun d l k rep op =>
    match op with
    | .vtr fn a dd =>
      let chk := firstFault [vecCheck s c k 512 0 a, vecCheck s c k 512 1 dd]
      vxeRepeat c d l k rep chk [srcOpd k 4 0 a] dd 1 4 [a, dd] none
        (fun vs =>
          let (w, n) := collect ((lanes (lget vs 0 ([], []))).map (vtrFn fn))
          (f32Bytes w, [], n)) s
    | _ => s)

/-- Lane-by-lane accumulation of vectors in order (R183). -/
def vredLanes (f : Nat → Nat → Nat × Cnt) : List Nat → List (List Nat) → List Nat × Cnt
  | acc, [] => (acc, .zero)
  | acc, v :: vs =>
    let (a, n) := collect (List.zipWith f acc v)
    let (r, n') := vredLanes f a vs
    (r, n.add n')

/-- The largest magnitude of a list of values; any NaN gives the NaN of R69. -/
def maxAbs (l : List Nat) : Nat := l.foldl (fun a x => (f32Max a (f32Abs x).1).1) 0

/-- A VRED repeat before its first vector (R183). -/
def VredPart.start : VredPart := ⟨0, List.replicate 128 0, .zero⟩

/-- A VRED repeat with one more vector: SUM takes the first vector as it is, MAXABS needs its magnitudes only. (DEDUCED, log 26) -/
def VredPart.add (rop : Nat) (p : VredPart) (v : List Nat) : VredPart :=
  match rop with
  | 0 =>
    if p.n = 0 then { p with n := 1, acc := v }
    else
      let (a, n) := vredLanes f32Add p.acc [v]
      ⟨p.n + 1, a, p.cnt.add n⟩
  | 1 =>
    let (a, n) := vredLanes (fun a w => f32Fma w w a) p.acc [v]
    ⟨p.n + 1, a, p.cnt.add n⟩
  | _ => ⟨p.n + 1, [maxAbs (p.acc ++ v)], p.cnt⟩

/-- The scalar of VRED over the vectors accumulated (R183, R72). -/
def VredPart.out (rop : Nat) (p : VredPart) : Bytes × Bytes × Cnt :=
  match rop with
  | 0 | 1 =>
    let (r, n) := pairTree 7 p.acc
    (toLe 4 r, [], p.cnt.add n)
  | _ => (toLe 4 (maxAbs p.acc), [], p.cnt)

/-- The scalar of VRED over K vectors (R183, R72). (DEDUCED, log 26) -/
def vredCalc (rop : Nat) (vs : List (List Nat)) : Bytes × Bytes × Cnt := (vs.foldl (VredPart.add rop) .start).out rop

/-- Taking vectors off the queue, up to `n`, into a VRED repeat. -/
def vredTake (rop : Nat) : Nat → VredPart → List VqEntry → VredPart × List VqEntry
  | 0, p, q => (p, q)
  | n + 1, p, q =>
    match vqTake 4 q with
    | none => (p, q)
    | some (v, q1) => vredTake rop n (p.add rop (lanes v)) q1

/-- A VRED that takes its vectors from the queue (R179, R183): what the queue holds is taken, room is made for more, and the scalar is
written once K vectors have been taken. (DESIGN CHOICE, log 99) -/
def vredQueue (c : CoreId) (d : Desc) (l : ListSet) (k : Ctl) (rep rop kk : Nat) (dd : Opd) (s : State) : State :=
  let p0 := (core s c).vred.getD .start
  let (p, q) := vredTake rop (kk - p0.n) p0 (core s c).vq
  let s1 := modCore c (fun x => { x with vq := q, vred := some p }) s
  if p.n < kk then s1
  else
    let s2 := vxeRepeat c d l k rep none [] dd 1 4 [dd] none (fun _ => p.out rop) s1
    if ((core s2 c).eng .vxe).ctl = k then s2 else modCore c (fun x => { x with vred := none }) s2

/-- VRED (R183): K vectors at A + 512k, or from the queue. -/
def execVred (c : CoreId) (s : State) : Out :=
  .next (onRepeat c .vxe 0x22 s fun d l k rep op =>
    match op with
    | .vred rop a dd kk =>
      let vas := unitVas (k.opAddr a) 512 kk
      let chk := firstFault [
        if a.q then none else firstFault (vas.map fun va => checkOpd s c vxeRegions 512 0 va), vecCheck s c k 4 1 dd]
      match a.q, chk with
      | true, none => vredQueue c d l k rep rop kk dd s
      | _, _ => vxeRepeat c d l k rep chk (vas.map fun va => (4, 0, some va)) dd 1 4 [a, dd] none (fun vs => vredCalc rop (vs.map lanes)) s
    | _ => s)

/-- The counter of a drop-out element (R186). -/
def dropCounter (par : Nat) (k rep1 r l : Nat) : Nat := (par + (k * rep1 + r) * 128 + l) % 2 ^ 64

/-- The result of VDROP (R186). -/
def vdropCalc (key par thr scale k rep1 r : Nat) (v : List Nat) : Bytes × Bytes × Cnt :=
  let (w, n) := collect (v.mapIdx fun i a =>
    if thr ≤ mast key (dropCounter par k rep1 r i) / 2 ^ 40 then f32Mul a scale else (0, Cnt.zero))
  (f32Bytes w, [], n)

/-- VDROP (R186). -/
def execVdrop (c : CoreId) (s : State) : Out :=
  .next (onRepeat c .vxe 0x24 s fun d l k rep op =>
    match op with
    | .vdrop a dd pari thr scale =>
      let chk := firstFault [vecCheck s c k 512 0 a, vecCheck s c k 512 1 dd]
      vxeRepeat c d l k rep chk [srcOpd k 4 0 a] dd 1 4 [a, dd] none
        (fun vs => vdropCalc (rd s fKey d.ctx) (d.par pari).toNat thr scale k.chunk.toNat (rep + 1) k.rep
          (lanes (lget vs 0 ([], [])))) s
    | _ => s)

/-! ### VCVT (R184, Table 5.12) -/

/-- Integers packed by a destination format. -/
def packInts (dfmt : Nat) (l : List (Int × Cnt)) : Bytes × Bytes × Cnt :=
  let n := l.foldl (fun a x => a.add x.2) Cnt.zero
  if dfmt = 5 then (f32Bytes (l.map fun x => unsigned 32 x.1), [], n)
  else (packElems (dfmt == 1) (l.map (·.1)), [], n)

/-- FP32 lanes to an integer format (R78). (DEDUCED, log 26) -/
def cvtToInt (dfmt : Nat) (mode : Rnd) (sc : Int) (v : List Nat) : Bytes × Bytes × Cnt :=
  let lim : Int × Int := match dfmt with
    | 0 => (-127, 127)
    | 1 => (-7, 7)
    | _ => (-(2 ^ 31 : Nat), (2 ^ 31 - 1 : Nat))
  packInts dfmt (v.mapIdx fun i a => f32ToInt mode sc lim.1 lim.2 i a)

/-- Integers of a format read from a vector. -/
def intLanes (sfmt : Nat) (v : Vec) : List (Int × Cnt) :=
  if sfmt = 5 then (lanes v).map fun a => (signed 32 a, Cnt.zero) else elems (sfmt == 1) v.1

/-- The result of VCVT on one vector. (DEDUCED, log 26) -/
def vcvtCalc (sfmt dfmt : Nat) (mode : Rnd) (sc : Int) (v : Vec) : Bytes × Bytes × Cnt :=
  match sfmt, dfmt with
  | 4, 2 => toBxs 2 mode 4 0 ((lanes v).map bxSrcF32)
  | 4, 3 => toBxs 3 mode 4 0 ((lanes v).map bxSrcF32)
  | 4, _ => cvtToInt dfmt mode sc (lanes v)
  | 6, _ =>
    let ws := (wordsLe 8 128 v.1).map wapRead
    let n := ws.foldl (fun a w => a.add w.2) Cnt.zero
    let (r, n') := collect (ws.map fun w => if dfmt = 4 then waToF32 w.1 else waToI32 w.1)
    (f32Bytes r, [], n.add n')
  | 2, _ => let (r, n) := bxSubsToF32 2 4 (v.2.map (·.toNat)) v.1; (f32Bytes r, [], n)
  | 3, _ => let (r, n) := bxSubsToF32 3 4 (v.2.map (·.toNat)) v.1; (f32Bytes r, [], n)
  | _, _ =>
    let l := intLanes sfmt v
    let n := l.foldl (fun a x => a.add x.2) Cnt.zero
    let (r, n') := collect (l.map fun x => intToF32 sc x.1)
    (f32Bytes r, [], n.add n')

/-- VCVT (R184, R185): the INT32 paths carry the residue check. -/
def execVcvt (c : CoreId) (residueErr : Option (Fin 128)) (s : State) : Out :=
  .next (onRepeat c .vxe 0x23 s fun d l k rep op =>
    match op with
    | .vcvt sfmt dfmt sr a dd sc salt =>
      let chk := firstFault [vecCheck s c k (vecSize sfmt) 0 a, vecCheck s c k (vecSize dfmt) 1 dd]
      let mode := rndOf s d.ctx sr (baseCounter salt k.chunk k.rep 128)
      vxeRepeat c d l k rep chk [srcOpd k sfmt 0 a] dd 1 dfmt [a, dd]
        (if sfmt = 5 ∨ dfmt = 5 then residueErr else none)
        (fun vs => vcvtCalc sfmt dfmt mode (signed 8 sc) (lget vs 0 ([], []))) s
    | _ => s)

end Sys2Proof.Machine
end

