-- ==== Sys2Proof/Machine/Trans.lean ====
section
/-! DEFINITION. Translation units, off-load and restore of understorey pages (spec/07 R238 to R245). -/

namespace Sys2Proof.Machine

/-- Region (0, 1, 2) and offset of an address that tables translate. -/
def mappedOf (va : BitVec 56) : Option (Nat × Nat) :=
  match regionOf va with
  | some (.stk h off) => some (h.val, off)
  | some (.und off) => some (2, off)
  | _ => none

/-- TABLE_WALK (R236, R238): a miss on a grove's unit walks the tables, caches what it meets, and faults on a bad entry.
(DEDUCED, log 13) -/
def execTableWalk (g : Grove) (ctx : CtxId) (va : BitVec 56) (s : State) : Out :=
  .next (match mappedOf va with
    | none => s
    | some (reg, off) =>
      if (tlbHit s g ctx reg off).isSome then s
      else
        match translate g ctx reg off s with
        | (s1, .page _) => s1
        | (s1, .invalid lv r) => ctxFault ctx fcPte (pteDetail lv r) (Site.bare 4 va.toNat) none s1)

/-- The entries of one translation unit that do not match a context and page; pointers that lead to the page go too. -/
def tlbDrop (ctx : CtxId) (reg off : Nat) (t : Tlb) : Tlb :=
  let keep (l : List TlbEntry) := l.filter fun e => !(e.ctx == ctx && e.reg == reg && e.page == pageOf reg off)
  { small := keep t.small
    large := keep t.large
    ptrs := t.ptrs.filter fun e =>
      !(e.ctx == ctx && e.reg / 4 == reg && e.page == off / 2 ^ (if e.reg % 4 = 0 then 30 else 21)) }

/-- Invalidation in all 32 units; reads made ahead through the page are discarded (R240, R262). -/
def tlbInvAll (ctx : CtxId) (reg off : Nat) (s : State) : State :=
  { s with
    groves := s.groves.map fun e => (e.1, { e.2 with tlb := tlbDrop ctx reg off e.2.tlb })
    cores := s.cores.map fun e =>
      (e.1, if runsCtx e.2 ctx then { e.2 with ahead := e.2.ahead.filter fun a => !a.pages.contains (reg, pageOf reg off) }
        else e.2) }

/-- The blocks that a cached page entry maps, by first key and number. -/
def pteKeys (reg e : Nat) : Nat × Nat := if reg ≤ 1 then ((placeOf reg 0 e).1.key, 1024) else ((placeOf reg 0 e).1.key, 32)

/-- The page entries that any unit holds for a page. -/
def tlbHeld (ctx : CtxId) (reg off : Nat) (s : State) : List Nat :=
  (allGrovesOf s).filterMap fun g => tlbHit s g ctx reg off
where
  /-- Groves with anything of their own. -/
  allGrovesOf (s : State) : List Nat := s.groves.map (·.1)

/-- TLB_INV (R240): every unit drops the page, and its acknowledgement reaches SCH once every access translated through the entry has been
accepted. (DEDUCED, log 20; DEDUCED, log 101) -/
def execTlbInv (ctx : CtxId) (va : BitVec 56) (s : State) : Out :=
  .next (if !schUp s then s else match mappedOf va with
    | some (reg, off) =>
      let ks := ((tlbHeld ctx reg off s).map (pteKeys reg)).dedup
      let page := pageOf reg off
      let s1 := tlbInvAll ctx reg off s
      settleInvs { s1 with invWaits := s1.invWaits ++
        (if ks.isEmpty then [⟨ctx, reg, page, 0, 0⟩] else ks.map fun k => ⟨ctx, reg, page, k.1, k.2⟩) }
    | none => s)

/-- Half and physical offset of the level 2 entry of an understorey offset. -/
def undPteAddr (s : State) (ctx : CtxId) (off : Nat) : Half × Nat :=
  let (_, ps) := walk s ctx 2 off
  match ps.reverse with
  | (_, e) :: _ => (pteOwn e, pteFrame e * 256 + 8 * pteIndex ps.length off)
  | [] => (halfOf (rd s fRootHalf (3 * ctx.val + 2)), rd s fRoot (3 * ctx.val + 2) * 256 + 8 * pteIndex 0 off)

/-- Rewriting an understorey page entry: RES, OWN and FRAME. -/
def undPteSet (ctx : CtxId) (off : Nat) (res : Bool) (own : Half) (frame : Nat) (s : State) : State :=
  match (walk s ctx 2 off).1 with
  | .page e =>
    let e1 := putBits (putBits (putBits e 1 1 (bnat res)) 4 1 own.val) 16 36 frame
    let (h, p) := undPteAddr s ctx off
    stkPatch h p (toLe 8 e1) (genOf s ctx) (unitAsk ctx (.short 8) (.stk h (p / 2048)) s)
  | .invalid _ _ => s

/-- The queue of a half's restore engine. -/
def restoreQ (s : State) (h : Nat) : List Restore := tget s.restores h []

/-- Setting the queue of a half's restore engine. -/
def setRestoreQ (h : Nat) (l : List Restore) (s : State) : State := { s with restores := tset s.restores h l }

/-- An entry of either queue concerns a page. -/
def pageQueued (s : State) (ctx : CtxId) (page : Nat) : Bool :=
  (restoreQ s 0 ++ restoreQ s 1).any fun r => r.ctx == ctx && r.page == page

/-- Queuing a restore, merged with one that waits for the same page (R243). (DEDUCED, log 20) -/
def queueRestore (ctx : CtxId) (page : Nat) (s : State) : State :=
  match (walk s ctx 2 (page * 65536)).1 with
  | .page e =>
    let h := (pteOwn e).val
    let q := restoreQ s h
    if q.any fun r => r.ctx == ctx && r.page == page && r.job == .restore then s
    else setRestoreQ h (q ++ [⟨ctx, page, bits e 12 4, .restore⟩]) s
  | .invalid _ _ => s

/-- The first step of an off-load (R241): the entry loses RES and names the destination, every unit drops the page, and the copy is due at
the page's half. -/
def offloadBegin (ctx : CtxId) (page : Nat) (own : Half) (dst e : Nat) (s : State) : State :=
  let h := pteOwn e
  let s1 := tlbInvAll ctx 2 (page * 65536) (undPteSet ctx (page * 65536) false own dst s)
  setRestoreQ h (restoreQ s1 h ++ [⟨ctx, page, bits e 12 4, .copy own dst h (pteFrame e)⟩]) s1

/-- OFFLOAD (R241, R243): it begins at once on a resident page that no queue entry concerns; behind one it waits its turn; of a page that is
off-loaded already nothing is left to do. -/
def execOffload (ctx : CtxId) (va : BitVec 56) (own : Half) (dst : Nat) (s : State) : Out :=
  if 188743680 < dst + 32 then .fault .outsideStore
  else
    .next (match regionOf va with
      | some (.und off) =>
        match (walk s ctx 2 off).1 with
        | .page e =>
          let page := off / 65536
          let h := pteOwn e
          if !(ctxSt s ctx).live || !schUp s then s
          else if pageQueued s ctx page then setRestoreQ h (restoreQ s h ++ [⟨ctx, page, bits e 12 4, .offload own dst⟩]) s
          else if pteRes e then offloadBegin ctx page own dst e s
          else s
        | .invalid _ _ => s
      | _ => s)

/-- An operation still to be accepted touches an understorey frame (R240, R241). (DEDUCED, log 20) -/
def frameBusy (s : State) (h : Half) (frame : Nat) : Bool := keysBusy s (Loc.und h frame 0).key 32

/-- Moving one block, tag checked and kept (R241). -/
def moveBlk (ctx : Nat) (a b : Loc) (s : State) : State × Option Loc :=
  match blkFetch ctx a (unitAsk (asCtx ctx) .read a s) with
  | (s0, .ok x) =>
    let s1 := unitAsk (asCtx ctx) .write b s0
    let s2 := match b with | .stk h n => poisonDel h n s1 | _ => s1
    (wakeRange (b.addr 0) 2048 (blkLand b x s2), none)
  | (s1, .bad) => (s1, some a)

/-- Moving the 32 blocks of a page, from block `i` on; the first block that fails stops the copy. -/
def movePage (ctx : Nat) (a b : Nat → Loc) : Nat → Nat → State → State × Option Loc
  | 0, _, s => (s, none)
  | f + 1, i, s =>
    match moveBlk ctx (a i) (b i) s with
    | (s1, none) => movePage ctx a b f (i + 1) s1
    | r => r

/-- A free-frame ring entry: frame bits [16:0] and the half in bit [17]; the spec gives the size only.
(DESIGN CHOICE, log 15; DEDUCED, log 19) -/
def freeEntry (h : Half) (frame : Nat) : Nat := frame % 2 ^ 17 + h.val * 2 ^ 17

/-- The byte offset of an entry of a context's free-frame ring. -/
def freeSlot (s : State) (ctx : CtxId) (i : Nat) : Nat := rd s fUfBase ctx * 2 ^ 14 + 4 * i

/-- Appending a frame to a context's free-frame ring (R241 step 3). (DEDUCED, log 19) -/
def freeAppend (ctx : CtxId) (h : Half) (frame : Nat) (s : State) : State :=
  let t := rd s fUfTail ctx
  let p := freeSlot s ctx t
  let fh := halfOf (rd s fUfHalf ctx)
  let s1 :=
    if p + 4 ≤ stkBytes then
      stkPatch fh p (toLe 4 (freeEntry h frame)) (genOf s ctx) (unitAsk ctx (.short 4) (.stk fh (p / 2048)) s)
    else s
  wr fUfTail ctx ((t + 1) % 1024) s1

/-- The better of two queued entries by RCLASS, then age (R243). (DEDUCED, log 20) -/
def pickRestore (p : Restore → Bool) (l : List Restore) : Option Nat :=
  let m := l.foldl (fun (a : Option Nat) r => if p r then some (match a with | some n => min n r.rclass | none => r.rclass) else a) none
  match m with
  | none => none
  | some n => l.findIdx? fun r => p r && r.rclass == n

/-- An earlier entry of a queue concerns the same page: entries of one page are served in arrival order (R243). -/
def pageAhead (q : List Restore) (i : Nat) (r : Restore) : Bool := (q.take i).any fun p => p.ctx == r.ctx && p.page == r.page

/-- The first off-load of a queue whose page is free of earlier entries, with its destination. -/
def offloadDue (q : List Restore) : Option (Nat × Restore × Half × Nat) :=
  firstSome ((List.range q.length).map fun i =>
    match q[i]? with
    | some r => match r.job with
      | .offload own dst => if pageAhead q i r then none else some (i, r, own, dst)
      | _ => none
    | none => none)

/-- An off-load that has waited begins, or falls away where its page has no frame (R243). -/
def offloadTurn (h : Half) (s : State) : State :=
  match offloadDue (restoreQ s h) with
  | none => s
  | some (i, r, own, dst) =>
    let s1 := setRestoreQ h (ldrop (restoreQ s h) i) s
    match (walk s1 r.ctx 2 (r.page * 65536)).1 with
    | .page e => if pteRes e then offloadBegin r.ctx r.page own dst e s1 else s1
    | .invalid _ _ => s1

/-- OFFLOAD_COPY (R241 steps 2 and 3): once every access through the old entry is accepted, the page is copied and its
frame freed; with no copy due an off-load that has waited begins. (DEDUCED, log 20) -/
def execOffloadCopy (h : Half) (s : State) : Out :=
  let q := restoreQ s h
  let ok (r : Restore) : Bool := match r.job with
    | .copy _ _ fh f => !frameBusy s fh f
    | _ => false
  .next (match pickRestore ok q with
    | none => offloadTurn h s
    | some i =>
      match q[i]? with
      | some ⟨ctx, page, _, .copy own dst fh f⟩ =>
        let s0 := setRestoreQ h (ldrop q i) s
        match movePage ctx (fun j => .und fh (f % 2 ^ 17) j) (fun j => .stk own (dst + j)) 32 0 s0 with
        | (s1, none) => freeAppend ctx fh f s1
        | (s1, some l) =>
          ctxFault ctx fcCorrupt l.index (Site.bare 5 (2 * 2 ^ 52 + page * 65536)) none s1
      | _ => s)

/-- RESTORE_FAULT (R242): a stalled repeat queues the restore of its page. -/
def execRestoreFault (c : CoreId) (e : Engine) (s : State) : Out :=
  .next (match ((core s c).eng e).stall with
    | some (ctx, page) => queueRestore ctx page s
    | none => s)

/-- Waking every engine stalled on a page: each issues its repeat again (R242). -/
def wakeStalled (ctx : CtxId) (page : Nat) (s : State) : State :=
  let w (y : Eng) : Eng := if y.stall = some (ctx, page) then { y with stall := none } else y
  { s with cores := s.cores.map fun e =>
      (e.1, { e.2 with mxeE := w e.2.mxeE, vxeE := w e.2.vxeE, ldeE := w e.2.ldeE, xceE := w e.2.xceE }) }

/-- Restoring one page (R242, R245). (DEDUCED, log 13) -/
def restorePage (r : Restore) (s : State) : State :=
  let off := r.page * 65536
  let site := Site.bare 5 (2 * 2 ^ 52 + off)
  match (walk s r.ctx 2 off).1 with
  | .invalid _ _ => s
  | .page e =>
    if pteRes e then wakeStalled r.ctx r.page s
    else
      let i := rd s fUfHead r.ctx
      if i = rd s fUfTail r.ctx then ctxFault r.ctx fcNoFrame 0 site none s
      else
        let n := leNat (stkRead s (halfOf (rd s fUfHalf r.ctx)) (freeSlot s r.ctx i) 4)
        let fh := halfOf (n / 2 ^ 17)
        let f := n % 2 ^ 17
        let s0 := bumpWrap fUfHead r.ctx 1
          (unitAsk r.ctx (.short 4) (.stk (halfOf (rd s fUfHalf r.ctx)) (freeSlot s r.ctx i / 2048)) s)
        match movePage r.ctx (fun j => .stk (pteOwn e) (pteFrame e + j)) (fun j => .und fh f j) 32 0 s0 with
        | (s1, some l) => ctxFault r.ctx fcCorrupt l.index site none s1
        | (s1, none) => wakeStalled r.ctx r.page (bump fRestores r.ctx 1 (undPteSet r.ctx off true fh f s1))

end Sys2Proof.Machine
end

