-- ==== Sys2Proof/Machine/Seq.lean ====
section
/-! DEFINITION. Invocations, list sets, save records and pre-emption (spec/04 R111 to R152). -/

namespace Sys2Proof.Machine

/-! ### Descriptors (Table 4.3) -/

/-- A descriptor read from its 320 bytes; the reserved bits of a collective's PAR_31 are judged with the descriptor's (R388).
(DEDUCED, log 104) -/
def parseDesc (b : Bytes) : Desc :=
  let flags := fieldAt b 12 2
  let pc := fieldAt b 3 1
  { lsid := fieldAt b 0 2
    ctx := asCtx (fieldAt b 2 1)
    chunks := BitVec.ofNat 32 (fieldAt b 4 4)
    invSeq := BitVec.ofNat 32 (fieldAt b 8 4)
    prio := bit flags 0
    preload := bit flags 1
    resume := bit flags 2
    image := BitVec.ofNat 56 (fieldAt b 16 7)
    pars := (List.range (min pc 32)).map fun n => BitVec.ofNat 64 (fieldAt b (64 + 8 * n) 8)
    flaw :=
      if bits (fieldAt b 2 1) 4 4 ≠ 0 ∨ flags / 8 ≠ 0 ∨ fieldAt b 14 2 ≠ 0 ∨ fieldAt b 23 1 ≠ 0 ∨ !allZero (slice b 24 40)
          ∨ (pc = 32 ∧ bit (fieldAt b 312 8) 63 ∧ bits (fieldAt b 312 8) 32 31 ≠ 0) then
        some .reserved
      else if fieldAt b 4 4 = 0 then some .chunks
      else if 32 < pc then some .pcount
      else none }

/-- Reporting to SCH. -/
def report (r : Report) (s : State) : State := { s with reports := s.reports ++ [r] }

/-- A descriptor arriving at a core's queue (R126): appended, or dropped, counted and reported when the queue is full. -/
def enqueue (lc : Nat) (d : Desc) (s : State) : State :=
  let c := physOf s lc
  if 16 ≤ (core s c).queue.length then
    report (.invOverrun lc d.invSeq) (bump fInvqOverrun c 1 s)
  else modCore c (fun x => { x.stirred d.ctx s.time with queue := x.queue ++ [d] }) s

/-! ### Save-record area (R143, R148) -/

/-- The understorey place of block `i` of the save record of a context on a core: the core's own column from SAVE_PG. -/
def saveLoc (s : State) (c : Nat) (ctx : CtxId) (i : Nat) : Loc :=
  let page := rd s fSavePg ctx + i / 32
  .und (halfOf (coreHalf c)) ((c / 17 % 16) * 2 ^ 13 + coreSlot c * 2 ^ 8 + page % 256) (i % 32)

/-- Writing contents that the core makes to a place of its understorey or ACC: a format, the tag formed. -/
def ownPut (ctx : CtxId) (l : Loc) (fmt : Nat) (pay : Bytes) (s : State) : State :=
  let p := slice pay 0 2048
  wakeRange (l.addr 0) 2048 (blkStore l ⟨p, zeros 128, formTag fmt (genOf s ctx) l.term p (zeros 128)⟩ s)

/-- Writing a block of the save record whose contents the core makes: format 7, tag formed. (DESIGN CHOICE, log 21) -/
def savePut (c : Nat) (ctx : CtxId) (i : Nat) (pay : Bytes) (s : State) : State := ownPut ctx (saveLoc s c ctx i) 7 pay s

/-- Payload bytes of the save record from block `i` on, `n` blocks. (DESIGN CHOICE, log 21) -/
def saveGet (s : State) (c : Nat) (ctx : CtxId) (i n : Nat) : Bytes :=
  (List.range n).flatMap fun j => (blkStored s (saveLoc s c ctx (i + j))).pay

/-- Copying `n` blocks of leaf store or ACC into the record, tags re-formed, open blocks closed. -/
def saveBlocks (c : CoreId) (ctx : CtxId) (src : Nat → Loc) (base : Nat) : Nat → Nat → State → State
  | 0, _, s => s
  | f + 1, i, s =>
    let s1 := match blkFetch ctx (src i) s with
      | (s1, .ok b) => wakeRange ((saveLoc s1 c ctx (base + i)).addr 0) 2048 (blkLand (saveLoc s1 c ctx (base + i)) b s1)
      | (s1, .bad) => s1
    saveBlocks c ctx src base f (i + 1) s1

/-- Copying the first row of the ACC block that an odd ACC_LIVE ends in (Table 4.7): the other row of the record's block is zero. -/
def saveHalf (c : CoreId) (ctx : CtxId) (n base : Nat) (s : State) : State :=
  match blkFetch ctx (.acc c n) s with
  | (s1, .ok b) => ownPut ctx (saveLoc s1 c ctx (base + n)) 6 (b.pay.take 1024) s1
  | (s1, .bad) => s1

/-- Copying `n` rows of ACC into the record. -/
def saveRows (c : CoreId) (ctx : CtxId) (base n : Nat) (s : State) : State :=
  let s1 := saveBlocks c ctx (fun i => .acc c i) base (n / 2) 0 s
  if n % 2 = 1 then saveHalf c ctx (n / 2) base s1 else s1

/-- Copying `n` blocks of the record back; the first that fails its landing stops the copy. -/
def loadBlocks (c : CoreId) (ctx : CtxId) (dst : Nat → Loc) (base : Nat) : Nat → Nat → State → State × Option Loc
  | 0, _, s => (s, none)
  | f + 1, i, s =>
    match blkFetch ctx (saveLoc s c ctx (base + i)) s with
    | (s1, .ok b) => loadBlocks c ctx dst base f (i + 1) (blkLand (dst i) b s1)
    | (s1, .bad) => (s1, some (saveLoc s c ctx (base + i)))

/-- Bringing back the one row of a record's block that an odd ACC_ROWS ends in; the block's other row stays as it is. -/
def loadHalf (c : CoreId) (ctx : CtxId) (n base : Nat) (s : State) : State × Option Loc :=
  match blkFetch ctx (saveLoc s c ctx (base + n)) s with
  | (s1, .ok b) =>
    let l := Loc.acc c n
    (blkOpen c (256 + n) 6 (memWrite (l.addr 2048) (zeros 128) (memWrite (l.addr 0) (b.pay.take 1024) s1)), none)
  | (s1, .bad) => (s1, some (saveLoc s c ctx (base + n)))

/-- Copying `n` ACC rows of the record back. -/
def loadRows (c : CoreId) (ctx : CtxId) (base n : Nat) (s : State) : State × Option Loc :=
  match loadBlocks c ctx (fun i => .acc c i) base (n / 2) 0 s with
  | (s1, some l) => (s1, some l)
  | (s1, none) => if n % 2 = 1 then loadHalf c ctx (n / 2) base s1 else (s1, none)

/-- Blocks of the record: leaf store from 24 KiB, ACC from 536 KiB (Table 4.7). -/
def leafBase : Nat := 12
/-- First ACC block of the record. -/
def accBase : Nat := 268

/-- The header of a save record (Table 4.8). (DESIGN CHOICE, log 21) -/
def saveHeader (kind : Nat) (d : Desc) (leaf acc : Nat) : Bytes :=
  toLe 4 0x53564543 ++ toLe 1 kind ++ toLe 1 d.ctx.val ++ toLe 2 d.lsid ++ toLe 4 d.invSeq.toNat ++ toLe 4 d.chunks.toNat
    ++ toLe 2 leaf ++ toLe 2 acc ++ zeros 4 ++ toLe 8 d.image.toNat
    ++ (List.range 32).flatMap fun n => toLe 8 (lget d.pars n 0).toNat

/-- An address register in a record (Table 4.9). -/
def arBytes (a : AddrReg) : Bytes :=
  toLe 8 a.base.toNat ++ toLe 4 a.s0.toNat ++ toLe 4 a.s1.toNat ++ toLe 2 a.w0.toNat ++ toLe 2 a.w1.toNat
    ++ toLe 4 a.c0.toNat ++ toLe 4 a.c1.toNat ++ zeros 4

/-- PART of Table 4.9 as its code. -/
def partCode : EPart → Nat
  | .prologue => 0
  | .body => 1
  | .finished => 2

/-- Engine state in a record (Table 4.9). (DESIGN CHOICE, log 21) -/
def ctlBytes (k : Ctl) : Bytes :=
  slice (toLe 2 k.pc ++ toLe 2 k.rep ++ toLe 4 k.chunk.toNat ++ toLe 1 (partCode k.part) ++ zeros 7
    ++ k.ars.flatMap arBytes
    ++ k.cnts.flatMap (fun c => toLe 4 c.val.toNat ++ toLe 4 c.mod.toNat ++ toLe 1 (bnat c.auto) ++ zeros 7)
    ++ k.cmps.flatMap (fun c => toLe 1 c.src.val ++ toLe 1 c.cond.val ++ zeros 2 ++ toLe 4 c.value.toNat)) 0 1024

/-- Engine state read from a record. -/
def ctlOf (b : Bytes) : Ctl where
  pc := fieldAt b 0 2
  rep := fieldAt b 2 2
  chunk := BitVec.ofNat 32 (fieldAt b 4 4)
  part := match fieldAt b 8 1 with | 0 => .prologue | 1 => .body | _ => .finished
  ars := (List.range 16).map fun i =>
    let o := 16 + 32 * i
    ⟨BitVec.ofNat 56 (fieldAt b o 7), BitVec.ofNat 32 (fieldAt b (o + 8) 4), BitVec.ofNat 32 (fieldAt b (o + 12) 4),
      BitVec.ofNat 16 (fieldAt b (o + 16) 2), BitVec.ofNat 16 (fieldAt b (o + 18) 2),
      BitVec.ofNat 32 (fieldAt b (o + 20) 4), BitVec.ofNat 32 (fieldAt b (o + 24) 4)⟩
  cnts := (List.range 4).map fun i =>
    let o := 528 + 16 * i
    ⟨BitVec.ofNat 32 (fieldAt b o 4), BitVec.ofNat 32 (fieldAt b (o + 4) 4), bit (fieldAt b (o + 8) 1) 0⟩
  cmps := (List.range 2).map fun i =>
    let o := 592 + 8 * i
    ⟨Fin.ofNat 4 (fieldAt b o 1), Fin.ofNat 8 (fieldAt b (o + 1) 1), BitVec.ofNat 32 (fieldAt b (o + 4) 4)⟩

/-- The metadata of the VXE input queue in a record (R148). -/
def vqMeta (l : List VqEntry) : Bytes :=
  toLe 4 l.length ++ l.flatMap fun q =>
    toLe 2 (q.fmt % 16 + bnat q.lq * 16 + q.left / 64 % 64 * 32) ++ q.side.take (if q.lq then 128 else 4)

/-- Full payload size of a queue entry by its format and kind (R148, R175). -/
def vqFull (fmt : Nat) (lq : Bool) : Nat := if lq then 2048 else match fmt with | 4 => 512 | 5 => 512 | 2 => 128 | _ => 64

/-- Rebuilding the queue from the record: entries left, metadata, payload. -/
def vqParse : Nat → Bytes → Bytes → List VqEntry
  | 0, _, _ => []
  | n + 1, m, p =>
    let w := fieldAt m 0 2
    let fmt := bits w 0 4
    let lq := bit w 4
    let left := bits w 5 6 * 64
    let sn := if lq then 128 else if fmt = 2 ∨ fmt = 3 then 4 else 0
    let full := vqFull fmt lq
    ⟨fmt, lq, zeros (full - left) ++ slice p 0 left, slice m 2 sn, full - left⟩
      :: vqParse n (m.drop (2 + sn)) (p.drop left)

/-! ### Taking a descriptor (R117, R125, R127) -/

/-- A glade grove while a job serves. -/
def gladeOf (s : State) (g : Nat) : Bool := s.serve.isSome && bit (rd s fGlade0 0 + 2 ^ 16 * rd s fGlade1 0) g

/-- The glade lets an invocation start on a core (R332): one of the serving context, or with SHARED set any other while the grove has no
query. (DEDUCED, log 65) -/
def gladeLets (s : State) (c : Nat) (ctx : CtxId) : Bool :=
  !gladeOf s (coreGrove c) || s.sctx == some ctx
    || (rdb s fShared 0 && (match s.serve with | some v => (tget v.queries (coreGrove c) []).isEmpty | none => true))

/-- A core is in service with its grove and no self-test runs on it (R454, R459). (DEDUCED, log 44) -/
def serviceable (s : State) (c : Nat) : Bool :=
  !s.outOfSvc.contains (.core (asCore c)) && !s.outOfSvc.contains (.grove (asGrove (coreGrove c))) && !s.katOn.contains (.core (asCore c))

/-- An entry that can start (R127). -/
def canStart (s : State) (c : Nat) (d : Desc) : Bool :=
  serviceable s c && (ctxSt s d.ctx).fault.isNone && gladeLets s c d.ctx
    && (d.resume || !(core s c).saved.any fun r => r.ctx == d.ctx && r.kind == 2)

/-- The entry a core takes: PRIO before the rest, else arrival order (R127). -/
def pickEntry (s : State) (c : Nat) : Option Nat :=
  let q := (core s c).queue
  match q.findIdx? fun d => d.prio && canStart s c d with
  | some i => some i
  | none => q.findIdx? fun d => canStart s c d

/-- What reading an image gives. -/
inductive ImgRead where
  | ok (b : Bytes) | absent (page : Nat) | bad (r : Reject)
deriving DecidableEq, Repr

/-- The reason that names a fault met in reading an image (R117). -/
def readReject (code : Nat) : Reject :=
  if code = fcPte then .translation
  else if code = fcWindow then .window
  else if code = fcRegion then .region
  else .protection

/-- Reading one image block on a core (R117): translation or protection faults and failed landings reject. -/
def imgBlock (c : CoreId) (ctx : CtxId) (va : BitVec 56) (s : State) : State × ImgRead :=
  match resolve c ctx .read 0 va s with
  | (s1, .here l _) =>
    match blkFetch ctx l s1 with
    | (s2, .ok b) => (coreAsk c ctx .read none l s2, .ok b.pay)
    | (s2, .bad) => (coreAsk c ctx .read none l s2, .bad .landing)
  | (s1, .absent page) => (s1, .absent page)
  | (s1, .fault code _) => (s1, .bad (readReject code))
  | (s1, _) => (s1, .bad .region)

/-- A list-set entry read from its 32 bytes (Table 4.2). -/
def entryOf (d : Desc) (hdr e : Bytes) : ListSet :=
  { ctx := d.ctx
    image := d.image
    lsid := d.lsid
    role := fieldAt e 2 2
    lens := (List.range 8).map fun i => fieldAt e (8 + 2 * i) 2
    leafLive := fieldAt e 24 2
    accLive := fieldAt e 26 2
    parOfs := fieldAt hdr 24 4
    npar := fieldAt hdr 28 4
    insOfs := fieldAt hdr 20 4
    start := fieldAt e 4 4
    ins := [] }

/-- The checks of R117 on the header, and the LSID against NLS (R125). -/
def headerCheck (d : Desc) (h : Bytes) : Option Reject :=
  let nls := fieldAt h 6 2
  let nblk := fieldAt h 8 4
  let ofs := [fieldAt h 12 4, fieldAt h 16 4, fieldAt h 20 4, fieldAt h 24 4]
  if fieldAt h 0 4 ≠ 0x53544D49 then some .magic
  else if fieldAt h 4 2 ≠ 1 then some .version
  else if nls < 1 ∨ 1024 < nls then some .nls
  else if nblk < 4 then some .nblk
  else if ofs.any fun o => o < 1 || nblk ≤ o then some .offsets
  else if nblk < fieldAt h 12 4 + ceilDiv nls 64 then some .lstEnd
  else if nblk < fieldAt h 16 4 + 1 then some .roleEnd
  else if nblk < fieldAt h 24 4 + fieldAt h 28 4 then some .parEnd
  else if !allZero (h.drop 32) then some .header
  else if nls ≤ d.lsid then some .lsid
  else none

/-- The checks of R117 on the list-set entry, of header `h` and entry bytes `e`. -/
def entryCheck (h e : Bytes) (l : ListSet) : Option Reject :=
  let n := l.lens.sum
  if fieldAt e 0 2 ≠ l.lsid then some .entryLsid
  else if fieldAt e 28 4 ≠ 0 then some .entryReserved
  else if l.start % 128 ≠ 0 then some .insStart
  else if 4096 < n then some .insCount
  else if fieldAt h 8 4 * 2048 < l.insOfs * 2048 + 16 * (l.start + n) then some .insEnd
  else if 256 < l.leafLive then some .leafLive
  else if 512 < l.accLive then some .accLive
  else none

/-- IMAGE lies in region 0x0 to 0x2 on a block (R117). -/
def imageOk (d : Desc) : Bool := d.image.toNat / 2 ^ 52 ≤ 2 && d.image.toNat % 2048 == 0

/-- A save record matches a RESUME descriptor (R150). -/
def recordOk (s : State) (c : Nat) (d : Desc) : Bool :=
  let h := saveGet s c d.ctx 0 1
  fieldAt h 0 4 == 0x53564543 && fieldAt h 4 1 == 2 && fieldAt h 5 1 == d.ctx.val && fieldAt h 8 4 == d.invSeq.toNat

/-- What the checks on taking a descriptor lead to. -/
inductive Taking where
  | ok (l : ListSet) | absent (page : Nat) | reject (r : Reject)
deriving DecidableEq, Repr

/-- The checks of R117 and R125 in order. -/
def checkDesc (c : CoreId) (d : Desc) (s : State) : State × Taking :=
  match d.flaw with
  | some r => (s, .reject r)
  | none =>
    if !imageOk d then (s, .reject .imageAddr)
    else
    match imgBlock c d.ctx d.image s with
    | (s1, .absent p) => (s1, .absent p)
    | (s1, .bad r) => (s1, .reject r)
    | (s1, .ok h) =>
      match headerCheck d h with
      | some r => (s1, .reject r)
      | none =>
        let at_ (blk : Nat) : BitVec 56 := d.image + BitVec.ofNat 56 (blk * 2048)
        match imgBlock c d.ctx (at_ (fieldAt h 12 4 + d.lsid / 64)) s1 with
        | (s2, .absent p) => (s2, .absent p)
        | (s2, .bad r) => (s2, .reject r)
        | (s2, .ok t) =>
          let e := slice t (32 * (d.lsid % 64)) 32
          let l := entryOf d h e
          match entryCheck h e l with
          | some r => (s2, .reject r)
          | none =>
            match imgBlock c d.ctx (at_ (fieldAt h 16 4)) s2 with
            | (s3, .absent p) => (s3, .absent p)
            | (s3, .bad r) => (s3, .reject r)
            | (s3, .ok roles) =>
              if fieldAt roles (2 * (lcOf s c).getD 0) 2 ≠ l.role then (s3, .reject .role)
              else if d.resume && !recordOk s3 c d then (s3, .reject .record)
              else (s3, .ok l)

/-- A resident list set that a descriptor names (R122). -/
def residentSet (x : Core) (d : Desc) : Option ListSet :=
  x.resident.find? fun l => l.ctx == d.ctx && l.image == d.image && l.lsid == d.lsid

/-- Rejecting a descriptor: reported to SCH (R125). -/
def rejectDesc (c : Nat) (d : Desc) (r : Reject) (s : State) : State :=
  report (.invReject ((lcOf s c).getD 0xFFFF) d.invSeq r) s

/-- A taken entry goes back to its place in the queue. -/
def untake (x : Core) : Core :=
  match x.taken with
  | some (d, _) => { x with taken := none, queue := x.queue.take x.takenAt ++ d :: x.queue.drop x.takenAt }
  | none => x

/-- The queue before a core takes an entry: one taken earlier that can no longer start is passed over (R127). (DEDUCED, log 99) -/
def passOver (c : Nat) (s : State) : State :=
  match (core s c).taken with
  | some (d, _) => if canStart s c d then s else modCore c untake s
  | none => s

/-- TAKE_DESCRIPTOR (R125, R127). (DESIGN CHOICE, log 11) -/
def execTakeDescriptor (c : CoreId) (s : State) : Out :=
  .next (
    let s := passOver c s
    if (core s c).taken.isSome || (core s c).forced || (lcOf s c).isNone then s
    else
      match pickEntry s c with
      | none => s
      | some i =>
        match (core s c).queue[i]? with
        | none => s
        | some d =>
          let s0 := modCore c (fun x => { x with queue := ldrop x.queue i }) s
          match checkDesc c d s0 with
          | (s1, .reject r) => rejectDesc c d r s1
          | (_, .absent page) => queueRestore d.ctx page s
          | (s1, .ok l) =>
            let l1 := (residentSet (core s1 c) d).getD l
            modCore c (fun x => { x with taken := some (d, l1), takenAt := i }) s1)

/-! ### Loading list sets (R120 to R122) -/

/-- Stream blocks of a list set (R120). -/
def ListSet.blocks (l : ListSet) : Nat := ceilDiv l.ins.length 128

/-- Reading `n` stream blocks of a list set from the image. -/
def readIns (c : CoreId) (d : Desc) (l : ListSet) : Nat → Nat → State → State × ImgRead
  | 0, _, s => (s, .ok [])
  | f + 1, i, s =>
    match imgBlock c d.ctx (d.image + BitVec.ofNat 56 (l.insOfs * 2048 + 16 * l.start + 2048 * i)) s with
    | (s1, .ok b) =>
      match readIns c d l f (i + 1) s1 with
      | (s2, .ok bs) => (s2, .ok (b ++ bs))
      | r => r
    | r => r

/-- Evicting sets least recently used first, never the kept one, until a new set fits (R120, R121). -/
def evict (keep : Option ListSet) (need : Nat) : Nat → List ListSet → List ListSet
  | 0, l => l
  | f + 1, l =>
    if l.length < 8 ∧ (l.map ListSet.blocks).sum + need ≤ 32 then l
    else evict keep need f (l.eraseP fun x => some x != keep)

/-- The words of a list set (R155). -/
def insOf (n : Nat) (b : Bytes) : List (BitVec 128) := (wordsLe 16 n b).map (BitVec.ofNat 128)

/-- LIST_SET_LOAD (R121): the set of the descriptor taken becomes resident; a PRELOAD then runs nothing. A PRELOAD that finds its set
resident leaves the order of use as it is: the spec does not say whether it counts as a use. (DESIGN CHOICE, log 11;
DESIGN CHOICE, log 99) -/
def execListSetLoad (c : CoreId) (s : State) : Out :=
  .next (match (core s c).taken with
    | none => s
    | some (d, l) =>
      match residentSet (core s c) d with
      | some _ => if d.preload then modCore c (fun x => { x with taken := none }) s else s
      | none =>
        let n := l.lens.sum
        match readIns c d l (ceilDiv n 128) 0 s with
        | (_, .absent page) => queueRestore d.ctx page s
        | (s1, .bad r) => rejectDesc c d r (modCore c (fun x => { x with taken := none }) s1)
        | (s1, .ok b) =>
          let l1 := { l with ins := insOf n b }
          let x := core s1 c
          let res := evict (x.run.map (·.2)) l1.blocks 8 x.resident
          if res.length < 8 ∧ (res.map ListSet.blocks).sum + l1.blocks ≤ 32 then
            setCore c { x with
              resident := res ++ [l1]
              taken := if d.preload then none else some (d, l1) } s1
          else s)

/-! ### Start and end (R128, R129) -/

/-- The leaf store and ACC of a core set to zero and open (R141): they hold no context's data. (DEDUCED, log 24; DEDUCED, log 31) -/
def clearStores (c : CoreId) (s : State) : State :=
  let lo := (Loc.leaf c 0).addr 0
  let la := (Loc.acc c 0).addr 0
  let drop (a : Nat) (m : List Host.Cell) := m.filter fun x => x.1 < a || a + 256 * 4096 ≤ x.1
  modCore c (fun x => { x with
    openFmt := openAll
    owner := none
    shown := false
    accVoid := false
    live := (0, 0)
    vq := [] })
    { s with mem := drop la (drop lo s.mem) }

/-- Engines at the start of an invocation (R128). -/
def startEng (l : ListSet) (d : Desc) (e : Engine) : Eng := { Eng.reset with ctl := Ctl.reset.settle l e d.chunks }

/-- A core that begins an invocation: registers, counters and comparators at reset, no active tile (R96, R128).
(DEDUCED, log 24) -/
def startCore (x : Core) (d : Desc) (l : ListSet) : Core :=
  { x with
    taken := none
    run := some (d, l)
    resident := x.resident.filter (· != l) ++ [l]
    owner := some d.ctx
    shown := true
    mxeE := startEng l d .mxe
    vxeE := startEng l d .vxe
    ldeE := startEng l d .lde
    xceE := startEng l d .xce
    mxe := Mxe.reset
    vred := none
    deliv := []
    rewinds := []
    ahead := []
    fetches := []
    tiles := 0
    vecBlks := 0
    forced := false
    late := false
    stopped := [] }

/-- The core may begin the invocation it has taken: idle, its set resident, stores its context's or cleared. -/
def mayStart (s : State) (c : CoreId) (d : Desc) : Bool :=
  let x := core s c
  x.run.isNone && !d.preload && (residentSet x d).isSome && (x.owner == none || x.owner == some d.ctx) && canStart s c d

/-- INVOCATION_START (R128). (DESIGN CHOICE, log 11) -/
def execInvocationStart (c : CoreId) (s : State) : Out :=
  .next (match (core s c).taken with
    | none => s
    | some (d, l) =>
      if mayStart s c d && !d.resume && !(core s c).saved.any (fun r => r.ctx == d.ctx && r.kind == 1) then
        setCore c ((startCore (core s c) d ((residentSet (core s c) d).getD l)).stirred d.ctx s.time) s
      else s)

/-- Every engine has run its last body and every operation of the invocation's context is accepted (R129); a core that has been forced
ends with its cut. -/
def invDone (x : Core) (d : Desc) : Bool :=
  !x.forced && allEngines.all (fun e => (x.eng e).ctl.part == .finished) && x.pend.all (fun p => p.ctx != d.ctx)
    && x.mxe.passes.isEmpty

/-- The end of an invocation on a core. -/
def endCore (x : Core) (d : Desc) (l : ListSet) : Core :=
  { x with run := none, live := (l.leafLive, l.accLive), ended := some d }

/-! ### Pre-emption at an invocation boundary (R141 to R143) -/

/-- The 4 KiB of engine state of a record (Table 4.7), each engine's control as `f` gives it. -/
def engState (f : Engine → Ctl) : Bytes := allEngines.flatMap fun e => ctlBytes (f e)

/-- Writing the live blocks and rows of the owning context as a kind 1 record, and clearing the stores (R141, R143): the header and the
engine state are those of the invocation that ended. (DESIGN CHOICE, log 21) -/
def saveLive (c : CoreId) (o : CtxId) (s : State) : State :=
  let x := core s c
  let (lf, ac) := x.live
  if lf = 0 ∧ ac = 0 then clearStores c s
  else
    let hd := x.ended.getD ⟨0, o, 0, 0, false, false, false, 0, [], none⟩
    let st := engState fun e => (x.eng e).ctl
    let s1 := savePut c o 2 (st.drop 2048) (savePut c o 1 st (savePut c o 0 (saveHeader 1 hd lf ac) s))
    let s2 := saveBlocks c o (fun i => .leaf c i) leafBase lf 0 s1
    let s3 := saveRows c o accBase ac s2
    clearStores c (modCore c (fun y => { y with saved := y.saved ++ [⟨o, 1, hd.invSeq⟩] }) s3)

/-- SAVE_KIND1 (R141): the outgoing context's live blocks and rows are saved, then leaf store and ACC set to zero. A PRELOAD runs nothing, so
one of another context is no next invocation here: the spec does not say. (DEDUCED, log 24; DESIGN CHOICE, log 99) -/
def execSaveKind1 (c : CoreId) (s : State) : Out :=
  let x := core s c
  .next (match x.taken, x.owner with
    | some (d, _), some o => if x.run.isSome || d.preload || d.ctx == o then s else saveLive c o s
    | _, _ => s)

/-- The descriptor that a save record's header tells of (Table 4.8). -/
def headerDesc (ctx : CtxId) (h : Bytes) : Desc where
  lsid := fieldAt h 6 2
  ctx := ctx
  chunks := BitVec.ofNat 32 (fieldAt h 12 4)
  invSeq := BitVec.ofNat 32 (fieldAt h 8 4)
  prio := false
  preload := false
  resume := false
  image := BitVec.ofNat 56 (fieldAt h 24 7)
  pars := (List.range 32).map fun n => BitVec.ofNat 64 (fieldAt h (32 + 8 * n) 8)
  flaw := none

/-- RESTORE_KIND1 (R142): the leaf blocks and ACC rows of the record come back and the record is consumed; the window opens only with the
start of the invocation (R229). A PRELOAD is no first invocation. (DESIGN CHOICE, log 99) -/
def execRestoreKind1 (c : CoreId) (s : State) : Out :=
  let x := core s c
  .next (match x.taken with
    | none => s
    | some (d, _) =>
      if x.run.isNone && !d.preload && x.owner == none && x.saved.any (fun r => r.ctx == d.ctx && r.kind == 1) then
        let h := saveGet s c d.ctx 0 1
        let lf := fieldAt h 16 2
        let ac := fieldAt h 18 2
        let s0 := modCore c (fun y => { y with
          saved := y.saved.filter fun r => !(r.ctx == d.ctx && r.kind == 1)
          owner := some d.ctx
          live := (lf, ac)
          ended := some (headerDesc d.ctx h) }) s
        match loadBlocks c d.ctx (fun i => .leaf c i) leafBase lf 0 s0 with
        | (s1, some l) => ctxFault d.ctx fcCorrupt l.index (Site.bare 2 0) none s1
        | (s1, none) =>
          match loadRows c d.ctx accBase ac s1 with
          | (s2, some l) => ctxFault d.ctx fcCorrupt l.index (Site.bare 2 0) none s2
          | (s2, none) => s2
      else s)

/-! ### Pre-emption at a repeat boundary (R144 to R152) -/

/-- Every engine has finished its last body: FORCE then cuts nothing (R152). -/
def allFinished (x : Core) : Bool :=
  allEngines.all (fun e => (x.eng e).ctl.part == .finished) && x.mxe.passes.isEmpty

/-- The LDE stands stalled at a repeat that feeds a running ACC_ADD repeat (R149). -/
def feedStalled (x : Core) : Bool :=
  match x.run with
  | some (_, l) =>
    accAddRuns x.mxe && x.ldeE.stall.isSome
      && (match decodeStream (l.word .lde x.ldeE.ctl.pc) with | some (_, .ltile ..) => true | some (_, .lvec ..) => true | _ => false)
  | none => false

/-- FORCE abandons the load of the list set of the entry taken: the entry goes back to its place (R152). -/
def dropLoad (x : Core) : Core :=
  match x.taken with
  | some (d, _) => if (residentSet x d).isNone then untake x else x
  | none => x

/-- FORCE on one core (R144, R152): issue stops where an invocation runs and has not finished; a load is abandoned anywhere. -/
def forceCore (x : Core) : Core :=
  if x.forced then x
  else
    let y := dropLoad x
    if x.run.isNone || allFinished x then y else releaseSlots { y with forced := true, late := feedStalled x }

/-- A core of a grove runs a query or a forward: an invocation of the serving context. -/
def runsQuery (g : Nat) (s : State) : Bool :=
  match s.sctx with
  | some ctx => (groveCores g).any fun c => runsCtx (core s c) ctx
  | none => false

/-- FORCE (R144): every core of the grove; a feeding repeat that already stands stalled delays the cut (R149). It is never sent to a grove
that runs a query or a forward (R348). -/
def execForce (g : Grove) (s : State) : Out :=
  .next (if runsQuery g s then s
    else (groveCores g).foldl (fun t c =>
      let y := forceCore (core t c)
      setCore c y (if y.late && !(core t c).late then bump fPreemptLate c 1 t else t)) s)

/-- A pending operation that belongs to a repeat with blocks still on their way: its answer has not come, or its block has not reached the
core's own leaf store (R146). (DEDUCED, log 99) -/
def fetchOpen (c : Nat) (x : Core) (p : Pend) : Bool :=
  x.fetches.any (fun f => f.1 == p.rpt) &&
    match p.op with
    | .fabric _ => true
    | .station _ => true
    | .put (.leaf d _) _ => d.val == c
    | _ => false

/-- A signal that has issued and not committed, with the control before its repeat. -/
def openSignal (p : Pend) : Option (Nat × Ctl) :=
  match p.op with
  | .signal _ _ _ .issued k => some (p.rpt, k)
  | .farSignal _ _ k => some (p.rpt, k)
  | _ => none

/-- The repeats of an engine that have issued and not completed, by number, with the control before each (R146). (DEDUCED, log 28) -/
def uncompleted (c : Nat) (x : Core) (e : Engine) : List (Nat × Ctl) :=
  let sigs := x.pend.filterMap fun p => if p.eng = e then openSignal p else none
  let reads := x.fetches.filterMap fun f =>
    if f.2.1 = e ∧ x.pend.any (fun p => p.rpt == f.1 && fetchOpen c x p) then some (f.1, f.2.2) else none
  let own := match e with
    | .mxe => (x.mxe.passes.take 1).map fun p => (p.rpt, p.ctl)
    | .lde => (x.rewinds.take 1).map fun r => (r.rpt, r.ctl)
    | _ => []
  sigs ++ reads ++ own

/-- The control a cut returns an engine to: before its first repeat that has not completed (R146). (DEDUCED, log 28) -/
def resumeCtl (c : Nat) (x : Core) (e : Engine) : Ctl :=
  match uncompleted c x e with
  | [] => (x.eng e).ctl
  | a :: l => (l.foldl (fun m b => if b.1 < m.1 then b else m) a).2

/-- A running ACC_ADD repeat whose tile or vectors the LDE will not bring, because it has stopped at a fault. (DEDUCED, log 99) -/
def starved (x : Core) : Bool :=
  x.stopped.contains .lde
    && x.mxe.passes.any fun p => p.dmode == 1 && ((p.newTile && x.tiles ≤ p.tile) || decide (16 * x.vecBlks < p.last))

/-- The cut has settled: no ACC_ADD repeat runs to completion, or it cannot (R144, R149, R152). -/
def cutSettled (s : State) (c : Nat) : Bool :=
  let x := core s c
  !accAddRuns x.mxe || starved x

/-- An ACC_ADD repeat that is cut has added to some rows and not to all: run again it would add twice, so the cut voids the ACC. The spec
does not say what becomes of it. (DESIGN CHOICE, log 99) -/
def accTorn (m : Mxe) : Bool := m.passes.any fun p => p.dmode == 1 && p.drained.any (0 < ·)

/-- A core after its kind 2 record is written: idle, slots warm, unstarted entries of the context discarded (R148, R212).
(DEDUCED, log 28; DEDUCED, log 31) -/
def cutCore (c : Nat) (x : Core) (d : Desc) : Core :=
  { x with
    run := none
    forced := false
    late := false
    stopped := []
    accVoid := x.accVoid || accTorn x.mxe
    live := (0, 0)
    mxeE := Eng.reset
    vxeE := Eng.reset
    ldeE := Eng.reset
    xceE := Eng.reset
    mxe := Mxe.reset
    vq := []
    vred := none
    deliv := []
    rewinds := []
    ahead := []
    queue := x.queue.filter fun q => q.ctx != d.ctx
    taken := match x.taken with | some (t, l) => if t.ctx = d.ctx then none else some (t, l) | none => none
    saved := x.saved.filter (fun r => r.ctx != d.ctx) ++ [⟨d.ctx, 2, d.invSeq⟩]
    mons := x.mons.map fun m => match m.st with | .active _ => { m with st := .warm } | _ => m
    pend := x.pend.filter fun p => (openSignal p).isNone && !fetchOpen c x p
    fetches := [] }

/-- What a kind 2 record does not hold: the active tile's source and whether the MPASS that resumes had made it active, the void mark, and
what a VRED has taken. (DESIGN CHOICE, log 99) -/
def noteOf (s : State) (c : CoreId) (d : Desc) : CutNote :=
  let x := core s c
  let first := match x.mxe.passes.head? with
    | some p => p.newTile && x.mxe.activeTile.map (·.1) == some p.tile
    | none => x.mxe.firstPass
  ⟨d.ctx, saveGet s c d.ctx 0 3, x.mxe.tileSrc.map fun t => (t.1, t.2, first), x.accVoid || accTorn x.mxe, x.vred⟩

/-- Writing the kind 2 record of the running invocation and reporting PREEMPT_DONE (R145 to R148). -/
def saveCut (c : CoreId) (d : Desc) (s : State) : State :=
  let x := core s c
  let st := engState (resumeCtl c x)
  let pay := slice (x.vq.flatMap fun q => q.pay.drop q.taken) 0 16384
  let s1 := savePut c d.ctx 0 (saveHeader 2 d 256 512) s
  let s2 := savePut c d.ctx 2 (st.drop 2048) (savePut c d.ctx 1 st s1)
  let s3 := (List.range 8).foldl (fun t i => savePut c d.ctx (3 + i) (pay.drop (2048 * i)) t) s2
  let s4 := savePut c d.ctx 11 (vqMeta x.vq) s3
  let s5 := saveBlocks c d.ctx (fun i => .leaf c i) leafBase 256 0 s4
  let s6 := saveBlocks c d.ctx (fun i => .acc c i) accBase 256 0 s5
  let n := noteOf s6 c d
  let s7 := modCtx d.ctx (fun y => { y with cuts := y.cuts.filter (· != c.val) })
    (modCore c (fun y => (cutCore c y d).stirred d.ctx s6.time) { s6 with cutNotes := s6.cutNotes ++ [n] })
  report (.preemptDone ((lcOf s c).getD 0xFFFF) d.invSeq) (settleInvs s7)

/-- The matrix engine of a resumed cut: its tile stands in the fill path, which fills it again under R109; no band broadcasts before.
(DEDUCED, log 99) -/
def refillMxe (w : Wsb) (first : Bool) : Mxe :=
  { Mxe.reset with
    refill := some w
    firstPass := first
    activeTile := some (refillTile, w.fmt)
    tileSrc := some (w.src, w.fmt) }

/-- What reading the tile of a resumed cut leads to. -/
inductive Refilled where
  | ok (m : Mxe) | absent (page : Nat) | fault (code detail addr : Nat)
deriving DecidableEq, Repr

/-- Reading the active tile again from its source (R109), with the format check of R174. -/
def refillFrom (c : CoreId) (ctx : CtxId) (t : Option (BitVec 56 × Nat × Bool)) (s : State) : State × Refilled :=
  match t with
  | none => (s, .ok Mxe.reset)
  | some (va, fmt, first) =>
    match resolveAll c ctx .read 0 (unitVas va 2048 8) s with
    | (s1, .absent page) => (s1, .absent page)
    | (s1, .fault code det a) => (s1, .fault code det a)
    | (s1, .all ts) =>
      match fetchAll ctx ts s1 with
      | (s2, .bad l) => (s2, .fault fcCorrupt l.index va.toNat)
      | (s2, .ok bs) =>
        match wrongFmt fmt bs with
        | some f => (s2, .fault fcFormat (fmtDetail f fmt) va.toNat)
        | none => (s2, .ok (refillMxe ⟨fmt, bs, va⟩ first))

/-- The ACC of a core set to zero (R447). -/
def zeroAcc (c : CoreId) (s : State) : State :=
  let la := (Loc.acc c 0).addr 0
  { s with mem := s.mem.filter fun x => x.1 < la || la + 256 * 4096 ≤ x.1 }

/-- Marking the step in progress when a training context's voided ACC resumes (R447). -/
def markVoid (ctx : CtxId) (s : State) : State := if s.sctx = some ctx then s else markStep none s

/-- RESUME (R150): engine state, queue, leaf store and ACC come back from the record, and the active tile is read for its refill. -/
def execResume (c : CoreId) (s : State) : Out :=
  let x := core s c
  .next (match x.taken with
    | none => s
    | some (d, l) =>
      if !(d.resume && mayStart s c d) then s
      else
        let h := saveGet s c d.ctx 0 1
        let st := saveGet s c d.ctx 1 2
        let q := saveGet s c d.ctx 11 1
        let qp := saveGet s c d.ctx 3 8
        let r := s.cutNotes.find? fun n => n.ctx == d.ctx && n.key == h ++ st
        let d1 := { d with
          chunks := BitVec.ofNat 32 (fieldAt h 12 4)
          pars := (List.range 32).map fun n => BitVec.ofNat 64 (fieldAt h (32 + 8 * n) 8) }
        let l1 := (residentSet x d).getD l
        let void := (r.map (·.void)).getD false
        let s0 := modCore c (fun y => { (startCore y d1 l1).stirred d.ctx s.time with
          saved := y.saved.filter fun r => r.ctx != d.ctx
          accVoid := false
          mxeE := { Eng.reset with ctl := ctlOf (st.take 1024) }
          vxeE := { Eng.reset with ctl := ctlOf ((st.drop 1024).take 1024) }
          ldeE := { Eng.reset with ctl := ctlOf ((st.drop 2048).take 1024) }
          xceE := { Eng.reset with ctl := ctlOf (st.drop 3072) }
          vred := r.bind (·.vred)
          vq := vqParse (fieldAt q 0 4 % 1024) (q.drop 4) qp }) s
        match loadBlocks c d.ctx (fun i => .leaf c i) leafBase (fieldAt h 16 2) 0 s0 with
        | (s1, some b) => engFault c .mxe fcCorrupt b.index 0 s1
        | (s1, none) =>
          match loadRows c d.ctx accBase (fieldAt h 18 2) s1 with
          | (s2, some b) => engFault c .mxe fcCorrupt b.index 0 s2
          | (s2, none) =>
            let s3 := if void then markVoid d.ctx (zeroAcc c s2) else s2
            let s4 := (List.range 256).foldl (fun t i => blkOpen c (256 + i) 6 t) s3
            match refillFrom c d.ctx (r.bind (·.tile)) s4 with
            | (_, .absent page) => queueRestore d.ctx page s
            | (s5, .fault code det a) => engFault c .mxe code det a s5
            | (s5, .ok m) =>
              modMxe c (fun _ => m) { s5 with cutNotes := match r with | some n => s5.cutNotes.erase n | none => s5.cutNotes })

end Sys2Proof.Machine
end

