-- ==== Sys2Proof/Machine/Links.lean ====
section
/-! DEFINITION. Sending on the torus ports and the external ports: routes, virtual lanes, transfer headers, credits and
the retry buffer (spec/11 R371 to R382), handles and operations on outside memory (spec/12 R403 to R407). -/

namespace Sys2Proof.Machine

/-! ### Routes (R379, R380, R387) -/

/-- Coordinates of a package. -/
abbrev Coord := Nat × Nat × Nat

/-- The package's own coordinates. -/
def ownCoord (s : State) : Coord := (rd s fX 0, rd s fY 0, rd s fZ 0)

/-- The torus dimensions. -/
def dims (s : State) : Coord := (rd s fDxm1 0 + 1, rd s fDym1 0 + 1, rd s fDzm1 0 + 1)

/-- The coordinate of an axis. -/
def Coord.at_ (c : Coord) (axis : Nat) : Nat := match axis with | 0 => c.1 | 1 => c.2.1 | _ => c.2.2

/-- The direction along one dimension: the shorter way, positive when both are equal (R379). -/
def dimStep (own tgt d : Nat) : Option Bool :=
  if own = tgt then none
  else
    let f := (tgt + d - own) % d
    some (f ≤ d - f)

/-- The output port towards a package: X first, then Y, then Z (R379). -/
def route (s : State) (tgt : Coord) : Option Nat :=
  firstSome ((List.range 3).map fun a =>
    (dimStep ((ownCoord s).at_ a) (tgt.at_ a) ((dims s).at_ a)).map fun pos => 2 * a + (if pos then 0 else 1))

/-- The neighbour on a port. -/
def neighbour (s : State) (p : Nat) : Coord :=
  let o := ownCoord s
  let d := dims s
  let f (a : Nat) : Nat :=
    if p / 2 = a then (if p % 2 = 0 then (o.at_ a + 1) % d.at_ a else (o.at_ a + d.at_ a - 1) % d.at_ a) else o.at_ a
  (f 0, f 1, f 2)

/-- The half that drives a port (Table 1.2): P ports HALF_1, N ports HALF_0. -/
def portHalf (p : Nat) : Half := if p % 2 = 0 then 1 else 0

/-- The virtual lane at an output: lane A of the class, lane B past the wraparound link of the dimension (R380). -/
def vlFor (s : State) (cls : Nat) (inp : Option (Nat × Nat)) (out : Nat) : Nat :=
  match inp with
  | none => 2 * cls
  | some (p, vl) =>
    if p / 2 ≠ out / 2 then 2 * cls
    else
      let a := p / 2
      let wrap := if p % 2 = 1 then (ownCoord s).at_ a == 0 else (ownCoord s).at_ a + 1 == (dims s).at_ a
      2 * cls + bnat (vl % 2 == 1 || wrap)

/-- The ride class of a torus class on pass-through (Table 11.5). -/
def torusRideClass (cls : Nat) : Fin 4 := match cls with | 0 => 0 | 1 => 2 | _ => 3

/-! ### Transfers (R374) -/

/-- The transfer header (Table 11.3), its CRD zero until the flit is sent. -/
def xferHdr (kind : Nat) (epoch : Option Nat) (tag : Nat) (src tgt : Coord) (addr : Nat) (arg : Bytes) (txn : Nat) : Bytes :=
  zeros 9 ++ toLe 1 kind ++ toLe 1 (bnat epoch.isSome) ++ zeros 1 ++ toLe 2 tag
    ++ toLe 1 src.1 ++ toLe 1 src.2.1 ++ toLe 1 src.2.2 ++ toLe 1 tgt.1 ++ toLe 1 tgt.2.1 ++ toLe 1 tgt.2.2
    ++ toLe 7 addr ++ zeros 1 ++ toLe 4 (epoch.getD 0) ++ slice arg 0 12 ++ toLe 4 txn

/-- The bytes of a transfer: header, then the block where it carries one. -/
def xferBytes (hdr : Bytes) (blk : Option Blk) : Bytes :=
  match blk with
  | none => hdr
  | some b => hdr ++ slice b.pay 0 2048 ++ slice b.side 0 128 ++ toLe 8 b.tag.toNat

/-- Cutting nine flits (R371). -/
def cutFlits (vl : Nat) : Nat → Bool → Bytes → List TFlit
  | 0, _, _ => []
  | 1, _, b => [⟨vl, 3, slice b 0 248⟩]
  | n + 2, first, b => ⟨vl, if first then 1 else 2, slice b 0 248⟩ :: cutFlits vl (n + 1) false (b.drop 248)

/-- The flits of a transfer: nine with a block, else one of TYPE 5. -/
def xferFlits (vl : Nat) (b : Bytes) : List TFlit :=
  if b.length ≤ 248 then [⟨vl, 5, slice b 0 248⟩] else cutFlits vl (ceilDiv b.length 248) true b

/-! ### The transmitter (R371, R372, R381, R382) -/

/-- Receive buffers in flits (Table 11.5). -/
def vlBuf (vl : Nat) : Nat := if vl < 2 then 32 else if vl < 4 then 288 else if vl < 6 then 144 else 0

/-- The difference of two cumulative counts modulo 4,096. -/
def cumDiff (a b : Nat) : Nat := (a + 4096 - b % 4096) % 4096

/-- A transfer may start: its ride crossing is over, the retry buffer has room and credits cover all its flits. -/
def mayStartXfer (s : State) (r : TorusPort) (x : TXfer) : Bool :=
  rideArrived s x.ride && r.retry.length + x.flits.length ≤ 2048
    && cumDiff (lget r.sent x.vl 0) (lget r.crd x.vl 0) + x.flits.length ≤ vlBuf x.vl

/-- The position of the oldest transfer of a VL. -/
def oldestOf (r : TorusPort) (vl : Nat) : Option (Nat × TXfer) :=
  let i := r.queue.findIdx fun x => x.vl == vl
  r.queue[i]?.map fun x => (i, x)

/-- The transfer sent next: strict order of classes, within a class the older of the two lanes' first ones (R382). -/
def pickXfer (s : State) (r : TorusPort) : Option (Nat × TXfer) :=
  firstSome ((List.range 3).map fun c =>
    match (oldestOf r (2 * c)).filter (fun a => mayStartXfer s r a.2), (oldestOf r (2 * c + 1)).filter (fun a => mayStartXfer s r a.2) with
    | some a, some b => some (if a.1 < b.1 then a else b)
    | some a, none => some a
    | none, b => b)

/-- The CRD field: six 12-bit counts of flits freed (Table 11.3). -/
def crdBytes (r : TorusPort) : Bytes :=
  toLe 9 ((List.range 6).foldl (fun a vl => a + lget r.freed vl 0 % 4096 * 2 ^ (12 * vl)) 0)

/-- Whether a flit begins a transfer, and so carries CRD. -/
def hasCrd (typ : Nat) : Bool := typ == 1 || typ == 5 || typ == 0

/-- Putting a flit on the fibre. -/
def portPut (seq : BitVec 12) (f : TFlit) (r : TorusPort) : TorusPort :=
  let pay := if hasCrd f.typ then splice f.pay 0 (crdBytes r) else f.pay
  { r with wire := r.wire ++ [rideRaw f.vl f.typ r.lastGood.toNat seq.toNat pay] }

/-- Sending one data flit: SEQ, retry buffer, fibre. -/
def portSend (now : Nat) (f : TFlit) (r : TorusPort) : TorusPort :=
  let r1 := portPut r.nextSeq f r
  { r1 with
    nextSeq := r.nextSeq + 1
    retry := r.retry ++ [(r.nextSeq, f)]
    ackSince := if r.retry.isEmpty then now else r.ackSince
    sent := lset r.sent f.vl ((lget r.sent f.vl 0 + 1) % 4096) }

/-- STATE of a port (Table 11.1). -/
def portState (s : State) (p : Nat) : Nat := rd s fState p

/-- An idle flit, which carries ACK and CRD: SEQ of the last data flit sent. (DESIGN CHOICE, log 57) -/
def portIdle (p : Nat) (s : State) : State :=
  if portState s p = 3 then modPort p (fun r => portPut (r.nextSeq - 1) ⟨0, 0, zeros 248⟩ r) s else s

/-- Sending what a port holds, as credits and the retry buffer allow. (DESIGN CHOICE, log 57) -/
def torusPump (p : Nat) : Nat → State → State
  | 0, s => s
  | n + 1, s =>
    let r := tport s p
    if portState s p ≠ 3 then s
    else
      match pickXfer s r with
      | none => s
      | some (i, x) =>
        torusPump p n (modPort p (fun r => x.flits.foldl (fun q f => portSend s.time f q) { r with queue := ldrop r.queue i }) s)

/-- Sending what every port holds. (DESIGN CHOICE, log 2) -/
def pumpAll (s : State) : State :=
  (List.range 6).foldl (fun t p => torusPump p (tport t p).queue.length t) s

/-- Handing a transfer to an output, after the ride transfer `pre` that brings its contents: over the ride where its port belongs to
the other half (R29, R379). -/
def outputAfter (pre : Option Nat) (from_ : Half) (p vl : Nat) (b : Bytes) (s : State) : State :=
  let (s1, ride) :=
    if portHalf p = from_ then (s, pre)
    else
      let (s1, id) := rideLater pre from_ (torusRideClass (vl / 2)) b s
      (s1, some id)
  let s2 := modPort p (fun r => { r with queue := r.queue ++ [⟨vl, ride, xferFlits vl b⟩] }) s1
  torusPump p (tport s2 p).queue.length s2

/-- Handing a transfer to an output (R29, R379). -/
def outputXfer (from_ : Half) (p vl : Nat) (b : Bytes) (s : State) : State := outputAfter none from_ p vl b s

/-- Sending a transfer of a class from a half of this package to another package. -/
def sendXfer (from_ : Half) (cls : Nat) (tgt : Coord) (hdr : Bytes) (blk : Option Blk) (s : State) : State :=
  match route s tgt with
  | none => s
  | some p => outputXfer from_ p (vlFor s cls none p) (xferBytes hdr blk) s

/-- JOB_TAG of TOR_ID. -/
def jobTag (s : State) : Nat := rd s fJobTag 0

/-! ### Transactions (R374, R377, R383) -/

/-- KIND codes of Table 11.4. -/
def kWrite : Nat := 1
/-- ACCUM -/
def kAccum : Nat := 2
/-- READ_REQ -/
def kReadReq : Nat := 3
/-- READ_RSP -/
def kReadRsp : Nat := 4
/-- ATOMIC -/
def kAtomic : Nat := 5
/-- ACK -/
def kAck : Nat := 6
/-- FLOOR -/
def kFloor : Nat := 7
/-- ABORT -/
def kAbort : Nat := 8

/-- The stream identifier (CTX, LC, STRM) as 17 bits (R195). (DEDUCED, log 36) -/
def streamId (ctx lc strm : Nat) : Nat := ctx * 2 ^ 13 + lc * 2 ^ 4 + strm

/-- FLOOR of a stream at its sender (R253): the lowest SEQ, as serial numbers compare, of its repeats that are not settled, or `next`. -/
def floorOf (x : Core) (strm next : Nat) : Nat :=
  match (x.accRpts.filter fun r => r.strm == strm).map (·.seq) with
  | q :: qs => qs.foldl (fun a b => if (a + 2 ^ 32 - b) % 2 ^ 32 < 2 ^ 31 then b else a) q
  | [] => next

/-- ARG of a transaction (Table 11.4); `acc` of an ATOMIC holds its amount. -/
def txnArg (x : Core) (t : Txn) : Bytes :=
  match t.acc with
  | some (a, seq) => if t.kind = kAtomic then toLe 4 a ++ zeros 8 else toLe 4 a ++ toLe 4 seq ++ toLe 4 (floorOf x a seq)
  | none => zeros 12

/-- The highest epoch seen rises (R395). (DEDUCED, log 60) -/
def seeEpoch (e : Option Nat) (s : State) : State :=
  match e, s.epochTop with
  | none, _ => s
  | some e, none => { s with epochTop := some e }
  | some e, some t => if (e + 2 ^ 32 - t) % 2 ^ 32 < 2 ^ 31 then { s with epochTop := some e } else s

/-- Putting a transaction into the fabric. (DEDUCED, log 37) -/
def injectTxn (id : Nat) (t : Txn) (s : State) : State :=
  let hdr := xferHdr t.kind t.epoch (jobTag s) (ownCoord s) t.tgt t.addr (txnArg (core s t.core) t) id
  let s1 := seeEpoch t.epoch { s with txns := tset s.txns id { t with sent := true } }
  let cls := if t.epoch.isSome then 1 else 2
  let blk := if t.kind = kReadReq ∨ t.kind = kAtomic then none else t.blk
  match t.port.orElse fun _ => route s1 t.tgt with
  | some p => outputAfter t.pre (halfOf (coreHalf t.core)) p (vlFor s cls none p) (xferBytes hdr blk) s1
  | none => s1

/-- Transfers of a core in the fabric (R383). (DEDUCED, log 37) -/
def outstanding (s : State) (c : CoreId) : Nat := (s.txns.filter fun e => e.2.core == c && e.2.sent).length

/-- Opening a transaction: injected while the core has one of its 64 ACK slots free, else waiting for one (R383). -/
def openTxn (t : Txn) (s : State) : State × Nat :=
  let id := s.nextTxn
  let s1 := { s with nextTxn := (id + 1) % 2 ^ 32, txns := tset s.txns id t }
  if outstanding s t.core < 64 then (injectTxn id t s1, id)
  else ({ s1 with inject := tset s1.inject t.core (tget s1.inject t.core [] ++ [id]) }, id)

/-- Closing a transaction: its slot goes to the transfer of the core that waits first. -/
def closeTxn (id : Nat) (s : State) : State :=
  match s.txns.find? fun e => e.1 == id with
  | none => s
  | some (_, t) =>
    let s1 := { s with txns := tdel s.txns id }
    match tget s1.inject t.core [] with
    | [] => s1
    | n :: ns =>
      let s2 := { s1 with inject := tset s1.inject t.core ns }
      match s2.txns.find? fun e => e.1 == n with
      | some (_, u) => injectTxn n u s2
      | none => s2

/-- The epoch of an engine's fabric transfers (R388): PAR_31 of a collective invocation. -/
def collEpoch (s : State) (c : Nat) : Option Nat :=
  match (core s c).run with
  | some (d, _) => if bit (d.par 31).toNat 63 then some ((d.par 31).toNat % 2 ^ 32) else none
  | none => none

/-! ### Station windows (R403 to R407) -/

/-- A handle entry (Table 12.2) as its fields. -/
structure Handle where
  valid : Bool
  r     : Bool
  w     : Bool
  atom  : Bool
  port  : Nat
  ctxs  : Nat
  qpn   : Nat
  rva   : Nat
  rkey  : Nat
  len   : Nat
  bad   : Bool
deriving DecidableEq, Repr

/-- A handle entry from its 32 bytes; `bad` marks a malformed one (R404). -/
def handleOf (b : Bytes) : Handle :=
  let f := fieldAt b 0 1
  let p := fieldAt b 1 1
  let n := fieldAt b 20 5
  { valid := bit f 0
    r := bit f 1
    w := bit f 2
    atom := bit f 3
    port := p
    ctxs := fieldAt b 2 2
    qpn := fieldAt b 4 3
    rva := fieldAt b 8 8
    rkey := fieldAt b 16 4
    len := if n = 0 then 2 ^ 40 else n
    bad := 2 < p || 16 ≤ f || fieldAt b 7 1 != 0 || !allZero (slice b 25 7)
      || (p == 2 && (fieldAt b 4 3 != 0 || fieldAt b 16 4 != 0)) }

/-- The live bytes of HT_n. -/
def htBytes (s : State) (n : Nat) : Bytes := (List.range 4).flatMap fun k => toLe 8 (regRead s .ht (4 * n + k))

/-- Setting the live bytes of HT_n. -/
def htPut (n : Nat) (b : Bytes) (s : State) : State :=
  (List.range 4).foldl (fun t k => regWrite .ht (4 * n + k) (fieldAt b (8 * k) 8) t) s

/-- What an access to a station wants. -/
inductive StnWant where
  | read | write | atomic
deriving DecidableEq, Repr

/-- The fault of an access of `n` bytes at an offset of a handle, or none (R231, R404). -/
def stnFault (s : State) (ctx : Nat) (handle off n : Nat) (want : StnWant) : Option Nat :=
  let h := handleOf (htBytes s handle)
  if !h.valid || h.bad || !bit h.ctxs ctx || h.len < off + n then some fcRegion
  else
    match want with
    | .read => if h.r then none else some fcRegion
    | .write => if h.w then none else some fcWriteProt
    | .atomic => if h.w && h.atom then none else some fcWriteProt

/-- The key of a queue pair. -/
def qpKey (port qpn : Nat) : Nat := port * 2048 + qpn

/-- A queue pair. -/
def qpOf (s : State) (port qpn : Nat) : Qp := tget s.qps (qpKey port qpn) Qp.reset

/-- The half that drives an external port (Table 1.2, R23): CPA and the steward port HALF_0, CPB HALF_1. -/
def extHalf (port : Nat) : Half := if port = 1 then 1 else 0

/-- The link of an external port is up; the steward port's handles lose VALID with its link (R24, R407). -/
def linkUp (s : State) (port : Nat) : Bool := port == 2 || lget s.cpUp port false

/-- An operation goes out on its port: nothing leaves on a link that is down (R24). -/
def portOut (op : RdmaOp) (s : State) : State := if linkUp s op.port then { s with rdmaOut := s.rdmaOut ++ [op] } else s

/-- An operation stands at its port and has not left: it is on no way over the ride. -/
def atPort (s : State) (o : RdmaOp) : Bool :=
  o.sends == 0 && !s.rideNext.any fun n => match n.act with | .toPort x => x.id == o.id | _ => false

/-- An operation may not leave yet (Tables 12.8, 12.9): 16 reads and atomics of its queue pair are outstanding, or an earlier operation of
the pair is held; on the steward port 256 reads are. (DEDUCED, log 71) -/
def opHeld (s : State) (o : RdmaOp) : Bool :=
  if o.port = 2 then o.kind == 2 && 256 ≤ (s.rdma.filter fun x => x.port == 2 && x.kind == 2 && x.sends != 0).length
  else
    let l := s.rdma.filter fun x => x.port == o.port && x.qpn == o.qpn
    (2 ≤ o.kind && 16 ≤ (l.filter fun x => 2 ≤ x.kind && x.sends != 0).length) || (l.takeWhile fun x => x.id != o.id).any (atPort s)

/-- Sending an operation on outside memory from its port, once its queue pair may send it. A posted PCIe write is accepted as it is sent;
everything else is outstanding until it is answered. (DEDUCED, log 37) -/
def rdmaSend (port qpn kind addr rkey len : Nat) (data : Bytes) (imm : Nat) (use : RdmaFor) (s : State) :
    State × Option Nat :=
  let id := s.nextOp
  let op : RdmaOp := ⟨id, port, qpn, kind, addr, rkey, len, data, imm, use, 1, s.time, 0⟩
  let s1 := { s with nextOp := id + 1 }
  if port = 2 ∧ kind ≤ 1 then (portOut op s1, none)
  else if opHeld s op then ({ s1 with rdma := s1.rdma ++ [{ op with sends := 0 }] }, some id)
  else
    let s2 := portOut op s1
    ({ s2 with rdma := s2.rdma ++ [op] }, some id)

/-- Sending through a handle. -/
def stnSend (handle off kind len : Nat) (data : Bytes) (imm : Nat) (use : RdmaFor) (s : State) : State × Option Nat :=
  let h := handleOf (htBytes s handle)
  rdmaSend h.port h.qpn kind (h.rva + off) h.rkey len data imm use s

/-- Sending a core's operation through the queue pair of a handle: it leaves at once where its port belongs to the core's half and its
contents are there; else it crosses the ride to the half of its port first (R29), and a posted write stays outstanding until its
acceptance has come back. (DESIGN CHOICE, log 97) -/
def coreSend (c : CoreId) (ctx : CtxId) (h : Handle) (kind addr len : Nat) (data : Bytes) (use : RdmaFor) (pre : Option Nat)
    (s : State) : State × Option Nat :=
  let far : Bool := (extHalf h.port).val != coreHalf c
  if !far && rideArrived s pre then rdmaSend h.port h.qpn kind addr h.rkey len data 0 use s
  else
    let id := s.nextOp
    let op : RdmaOp := ⟨id, h.port, h.qpn, kind, addr, h.rkey, len, data, 0, use, 0, s.time, 0⟩
    let s1 := { s with nextOp := id + 1, rdma := s.rdma ++ [op] }
    if far then
      let (s2, x) := rideLater pre (halfOf (coreHalf c)) (rideClass s ctx false) (toLe 8 addr ++ toLe 8 len ++ zeros 32 ++ data) s1
      (rideWait x (.toPort op) s2, some id)
    else (rideWait (pre.getD 0) (.toPort op) s1, some id)

/-- A block image (R405, R406): payload, side band, tag with a location term of zero. -/
def blkImage (b : Blk) : Bytes := slice b.pay 0 2048 ++ slice b.side 0 128 ++ toLe 8 b.tag.toNat

/-- A block from its image. -/
def blkOfImage (b : Bytes) : Blk := ⟨slice b 0 2048, slice b 2048 128, BitVec.ofNat 64 (fieldAt b 2176 8)⟩

end Sys2Proof.Machine
end

