-- ==== Sys2Proof/Machine/Accum.lean ====
section
/-! DEFINITION. Accumulates, exactly once, and the statistic sets (spec/07 R253 to R259, spec/08 R275 to R283). -/

namespace Sys2Proof.Machine

/-- Serial-number order of R254: `a` is below `b`. -/
def serialBelow (a b : Nat) : Bool :=
  let d := (b + 2 ^ 32 - a % 2 ^ 32) % 2 ^ 32
  1 ≤ d && d < 2 ^ 31

/-- The floor step of R254, which also ends a refused head it passes (R278). -/
def accFloor (st f : Nat) (x : AccCtx) : AccCtx :=
  if (match x.floors.find? fun e => e.1 == st with | none => true | some (_, g) => serialBelow g f) = true then
    { x with
      floors := tset x.floors st f
      window := x.window.filter fun e => !(e.1 == st && serialBelow e.2 f)
      refused := x.refused.filter fun e => !(e.1 == st && serialBelow e.2 f) }
  else x

/-- What a mill does with an arriving block. -/
inductive Admission where
  | wait | drop | refuse | admitBlock
deriving DecidableEq, Repr

/-- The blocks of a context that a mill has admitted and not applied. (DEDUCED, log 32) -/
def admittedOf (s : State) (d ctx : Nat) : List AccMsg := (die s d).admitted.filter fun m => m.ctx.val == ctx

/-- The decision of R254 and R278 on a block whose floor step is done. A copy of a block admitted and not yet applied
waits for it; admitted blocks count as window entries. (DEDUCED, log 32) -/
def accDecide (x : AccCtx) (adm : List AccMsg) (st q : Nat) : Admission :=
  if adm.any fun m => m.strm == st && m.seq == q then .wait
  else if (match x.floors.find? fun e => e.1 == st with | some (_, g) => serialBelow q g | none => false)
      || x.window.contains (st, q) then .drop
  else
    match x.refused.find? fun e => e.1 == st with
    | some (_, r) => if r = q then (if 4096 ≤ x.window.length + adm.length then .refuse else .admitBlock) else .refuse
    | none => if 4096 ≤ x.window.length + adm.length then .refuse else .admitBlock

/-- The pending accumulate of a core that a stream and SEQ name and that is not answered. -/
def accIndex (x : Core) (st q : Nat) : Nat :=
  x.pend.findIdx fun p => match p.op with
    | .accum _ _ _ strm seq a => strm == st && seq == q && a.stage == .sent
    | _ => false

/-- Setting the stage of an accumulate. -/
def setStage (g : AccStage) (p : Pend) : Pend :=
  match p.op with
  | .accum h b k st q a => { p with op := .accum h b k st q { a with stage := g } }
  | .farAccum t st q a => { p with op := .farAccum t st q { a with stage := g } }
  | _ => p

/-- The ACK of a request of another package (Table 11.4): JOB_TAG of the request, STREAM, SEQ, STATUS, SAT, CODE and DETAIL, in the
escape class, from the half that served it (R29). -/
def sendAck (from_ : Half) (tag : Nat) (tgt : Coord) (txn st q status : Nat) (sat : Bool) (code detail : Nat) (s : State) : State :=
  let arg := toLe 4 st ++ toLe 4 q ++ toLe 1 status ++ toLe 1 (bnat sat) ++ toLe 2 code
  let hdr := xferHdr kAck none tag (ownCoord s) tgt 0 arg txn ++ toLe 4 detail
  match route s tgt with
  | none => s
  | some p => outputXfer from_ p (vlFor s 0 none p) hdr s

/-- The half of a die. -/
def dieHalf (d : Die) : Half := halfOf (d.val / 8)

/-- The mill of a die answers an accumulate block (R279): the acknowledgement returns in the escape class, over the ride to a core of
the other half (R564). -/
def accAnswer (d : Die) (m : AccMsg) (status : Nat) (s : State) : State :=
  match m.src with
  | .core c =>
    let (s1, ride) := rideBack (dieHalf d) c s
    modPend c (accIndex (core s c) m.strm m.seq) (fun p => { setStage (.answered status) p with ride := ride }) s1
  | .pkg x y z txn => sendAck (dieHalf d) (jobTag s) (x, y, z) txn m.strm m.seq status false 0 0 s

/-- An admitted accumulate's request at the stack port, in the class of the request that delivered it (R280). -/
def accAsk (d : Die) (m : AccMsg) (s : State) : State :=
  let l := Loc.stk (dieHalf d) m.b
  let kind : SKind := if m.blk.fmt = 2 then .accBx8 else .accFp32
  match m.src with
  | .core c => coreAsk c m.ctx kind none l s
  | .pkg .. => farAsk m.ctx kind l s

/-- ACCUM_ARRIVE (R254, R277, R278): the block at the head of the context's intake. (DEDUCED, log 32) -/
def execAccumArrive (d : Die) (ctx : CtxId) (s : State) : Out :=
  let x := accCtx s d ctx
  let i := x.intake.findIdx fun m => rideArrived s m.ride
  .next (match x.intake[i]? with
    | none => s
    | some m =>
      let x1 := accFloor m.strm m.floor x
      let x2 := { x1 with intake := ldrop x1.intake i }
      match accDecide x1 (admittedOf s d ctx) m.strm m.seq with
      | .wait => s
      | .drop => accAnswer d m 1 (modAcc d ctx (fun _ => x2) s)
      | .refuse =>
        let x3 := if x2.refused.any (·.1 == m.strm) then x2 else { x2 with refused := tset x2.refused m.strm m.seq }
        accAnswer d m 2 (modAcc d ctx (fun _ => x3) s)
      | .admitBlock =>
        modDie d (fun e => { e with admitted := e.admitted ++ [m] })
          (modAcc d ctx (fun _ => { x2 with refused := x2.refused.filter fun e => e.1 != m.strm }) (accAsk d m s)))

/-! ### Application (R275, R281) -/

/-- The target blocks of an accumulate: one block, or the mill-layout group of a BX8 block (R274, R275). -/
def accTargets (m : AccMsg) : List Nat :=
  if m.blk.fmt = 2 then (List.range 4).map fun q => m.b + 8 * q else [m.b]

/-- The FP32 addends of an accumulate block, and the counts of widening a BX8 block (R73, R275). -/
def accAddends (b : Blk) : List Nat × Cnt :=
  if b.fmt = 2 then bxSubsToF32 2 64 (b.side.map (·.toNat)) b.pay else (wordsLe 4 512 b.pay, .zero)

/-- Adding one block of addends to a stored block: results and counts. -/
def accAdd (old add : List Nat) : List Nat × Cnt := collect (List.zipWith f32Add old add)

/-- The exact square of a finite FP32 value in units of 2^−298 (R282). -/
def sqUnits (b : Nat) : Nat :=
  match f32Read b with
  | .fin d => d.m.natAbs ^ 2 * 2 ^ (2 * d.e + 298).toNat
  | _ => 0

/-- Whether an FP32 value is finite. -/
def isFinite (b : Nat) : Bool := (f32Read b).finite

/-- Observing one applied accumulate (R281). -/
def observe (inc fin : Bool) (add res : List Nat) (x : StatSet) : StatSet :=
  let y := if inc then { x with inc := x.inc + ((add.filter isFinite).map sqUnits).sum } else x
  if fin then
    { y with
      fin := y.fin + ((res.filter isFinite).map sqUnits).sum
      nonfin := min (y.nonfin + (res.filter fun b => !isFinite b).length) 0xFFFFFFFF }
  else y

/-- Every statistic set of a die that an applied block concerns (R281). -/
def observeAll (d : Nat) (m : AccMsg) (add res : List Nat) (s : State) : State :=
  (List.range 4).foldl (fun t n =>
    let i := 4 * d + n
    let k := m.strm % 16
    if rdb t fSsCtlEn i && rd t fCtx i == m.ctx.val && rd t fLo i ≤ m.b && m.b ≤ rd t fHi i then
      let o := observe (bit (rd t fIncMask i) k) (bit (rd t fFinMask i) k) add res
      modDie d (fun e => { e with stats := lset e.stats n (o (lget e.stats n ⟨0, 0, 0⟩)) }) t
    else t) s

/-- Reading whole blocks of one half at a mill; the first that fails its landing stops. -/
def millRead (ctx : CtxId) (h : Half) : List Nat → State → State × Option (List Blk)
  | [], s => (s, some [])
  | b :: bs, s =>
    match blkFetch ctx (.stk h b) s with
    | (s1, .bad) => (s1, none)
    | (s1, .ok k) =>
      match millRead ctx h bs s1 with
      | (s2, some ks) => (s2, some (k :: ks))
      | (s2, none) => (s2, none)

/-- Writing a whole block at a mill: format, side band, tag formed with GEN of the context (R437); a write of a watched word wakes its
watchers (R207, R211). -/
def millWrite (ctx : CtxId) (h : Half) (b fmt : Nat) (pay side : Bytes) (s : State) : State :=
  let l := Loc.stk h b
  wakeRange (l.addr 0) 2048 <| poisonDel h b (blkStore l ⟨slice pay 0 2048, slice side 0 128, formTag fmt (genOf s ctx) l.term (slice pay 0 2048) (slice side 0 128)⟩ s)

/-- Writing the FP32 results of an accumulate to its targets. -/
def accStore (ctx : CtxId) (h : Half) : List Nat → List Nat → List Blk → State → State
  | b :: bs, w, _ :: ks, s => accStore ctx h bs (w.drop 512) ks (millWrite ctx h b 4 (f32Bytes (w.take 512)) (zeros 128) s)
  | _, _, _, s => s

/-- The first block of a list that fails its landing. -/
def firstBad (s : State) (ctx : CtxId) (h : Half) (bs : List Nat) : Nat :=
  (bs.find? fun b => match (blkFetch ctx (.stk h b) s).2 with | .bad => true | .ok _ => false).getD 0

/-- ACCUM_APPLIED (R275, R277, R281): an admitted block's last write completes, in the order of admission to a target. A
target that fails its landing faults the context and leaves the block unapplied. (DEDUCED, log 32) -/
def execAccumApplied (d : Die) (k : Nat) (s : State) : Out :=
  let x := die s d
  .next (match x.admitted[k]? with
    | none => s
    | some m =>
      let ts := accTargets m
      if s.outOfSvc.contains (.mill d) || (x.admitted.take k).any fun n => (accTargets n).any fun b => ts.contains b then s
      else
        let h := dieHalf d
        match millRead m.ctx h ts s with
        | (s1, none) =>
          let l := Loc.stk h (firstBad s m.ctx h ts)
          ctxFault m.ctx fcCorrupt l.index (Site.bare 6 0) none s1
        | (s1, some ks) =>
          let (add, c0) := accAddends m.blk
          let (res, c1) := accAdd (ks.flatMap fun b => wordsLe 4 512 b.pay) add
          let s2 := accStore m.ctx h ts res ks (count m.ctx (c0.add c1) s1)
          let s3 := observeAll d m add res s2
          let s4 := modAcc d m.ctx (fun a => { a with window := a.window ++ [(m.strm, m.seq)] })
            (modDie d (fun e => { e with admitted := ldrop e.admitted k }) s3)
          accAnswer d m 0 s4)

/-! ### At the sender (R253, R255, R256, R279) -/

/-- Sending an accumulate block to a mill of this package. -/
def sendAccum (c : CoreId) (ctx : CtxId) (h : Half) (b : Nat) (blk : Blk) (st q : Nat) (pre : Option Nat) (s : State) : State :=
  let (s1, ride) := rideFor c ctx (.stk h b) (rideBlock ((Loc.stk h b).addr 0) blk) pre s
  let m : AccMsg := ⟨.core c, ctx, ride, b, blk, st, q, floorOf (core s c) st q⟩
  modAcc (dieOf h b) ctx (fun x => { x with intake := x.intake ++ [m] }) s1

/-- The floor notices of a settled repeat (R255): to every mill of this package it reached, and as FLOOR transfers to the
packages it reached, with the epoch of a collective invocation (R388). -/
def sendFloors (c : CoreId) (ctx : CtxId) (r : AccRpt) (s : State) : State :=
  let f := floorOf (core s c) r.strm r.next
  let s1 := r.dies.foldl (fun t d =>
    let (t1, ride) :=
      if d / 8 = coreHalf c then (t, none)
      else
        let (t1, id) := rideSend (halfOf (coreHalf c)) 0 (rideWord d f) t
        (t1, some id)
    modDie d (fun e => { e with floorsIn := e.floorsIn ++ [⟨ctx, r.strm, f, ride⟩] }) t1) s
  r.far.foldl (fun t p =>
    sendXfer (halfOf (coreHalf c)) 0 p
      (xferHdr kFloor (collEpoch s c) (jobTag t) (ownCoord t) p 0 (toLe 4 r.strm ++ zeros 4 ++ toLe 4 f) 0) none t) s1

/-- One block of a repeat is acknowledged with status 0 or 1; the repeat settles with its last one (R253, R255). -/
def accSettle (c : CoreId) (ctx : CtxId) (rpt : Nat) (s : State) : State :=
  match (core s c).accRpts.find? fun r => r.rpt == rpt with
  | none => s
  | some r =>
    if 1 < r.left then
      modCore c (fun x => { x with accRpts := x.accRpts.map fun a => if a.rpt = rpt then { a with left := a.left - 1 } else a }) s
    else sendFloors c ctx r (modCore c (fun x => { x with accRpts := x.accRpts.filter fun a => a.rpt != rpt }) s)

/-- What the sender does with an acknowledgement of STATUS 0, 1 or 2. -/
def accAcked (c : CoreId) (k status : Nat) (s : State) : State :=
  match (core s c).pend[k]? with
  | none => s
  | some p =>
    if status ≤ 1 then accSettle c p.ctx p.rpt (dropPend c k s)
    else
      let refuse (a : AccState) : AccState := ⟨.refused s.time, some (a.since.getD s.time)⟩
      modPend c k (fun p =>
        match p.op with
        | .accum h b z st q a => { p with op := .accum h b z st q (refuse a) }
        | .farAccum t st q a => { p with op := .farAccum t st q (refuse a) }
        | _ => p) s

/-- ACCUM_ACK (R279): the acknowledgement reaches the sender. -/
def execAccumAck (c : CoreId) (k : Nat) (s : State) : Out :=
  .next (match (core s c).pend[k]? with
    | some ⟨_, _, _, ride, .accum _ _ _ _ _ ⟨.answered st, _⟩⟩ => if rideArrived s ride then accAcked c k st s else s
    | _ => s)

/-- FLOOR_NOTICE (R255): the oldest notice that has reached the mill. -/
def execFloorNotice (d : Die) (s : State) : Out :=
  let i := (die s d).floorsIn.findIdx fun f => rideArrived s f.ride
  .next (match (die s d).floorsIn[i]? with
    | none => s
    | some f => modAcc d f.ctx (accFloor f.strm f.floor) (modDie d (fun e => { e with floorsIn := ldrop e.floorsIn i }) s))

/-- 256 FCLK cycles in KCLK cycles (R256). -/
def resendAfter : Nat := 128

/-- ACCUM_RESEND (R256). -/
def execAccumResend (c : CoreId) (k : Nat) (s : State) : Out :=
  .next (match (core s c).pend[k]? with
    | some ⟨ctx, _, _, _, .accum h b z st q ⟨.refused t, _⟩⟩ =>
      if t + resendAfter ≤ s.time then sendAccum c ctx h b z st q none (modPend c k (setStage .sent) s) else s
    | some ⟨_, _, _, _, .farAccum id st q ⟨.refused t, since⟩⟩ =>
      if t + resendAfter ≤ s.time then
        match s.txns.find? fun e => e.1 == id with
        | none => s
        | some (_, x) =>
          let (s1, new) := openTxn { x with sent := false } { s with txns := tdel s.txns id }
          modPend c k (fun p => { p with op := .farAccum new st q ⟨.sent, since⟩ }) s1
      else s
    | _ => s)

/-- 1,048,576 FCLK cycles in KCLK cycles (R256). -/
def refusedLimit : Nat := 524288

/-- ACC_WINDOW (R256). -/
def execAccWindow (c : CoreId) (k : Nat) (s : State) : Out :=
  let go (ctx : CtxId) (st : Nat) (a : AccState) : State :=
    match a.since with
    | some t =>
      if t + refusedLimit ≤ s.time then ctxFault ctx fcAccWindow st (engSite s c .xce 0) (some (c.val, .xce)) s else s
    | none => s
  .next (match (core s c).pend[k]? with
    | some ⟨ctx, _, _, _, .accum _ _ _ st _ a⟩ => go ctx st a
    | some ⟨ctx, _, _, _, .farAccum _ st _ a⟩ => go ctx st a
    | _ => s)

end Sys2Proof.Machine
end

