-- ==== Sys2Proof/Machine/SetupOps.lean ====
section
/-! DEFINITION. How a setup write takes effect: widths, access types, ownership while a job runs, SETUP_ERR (spec/17 R529
to R535). -/

namespace Sys2Proof.Machine

/-- PATH of SETUP_ERR (Table 17.4). -/
def pathCode : Path → Nat
  | .sch => 0
  | .sp => 0
  | .i3c0 => 1
  | .i3c1 => 1

/-- Recording a refused access (R530): offset, path and cause of the latest, and the count. -/
def setupErr (off : Nat) (p : Path) (cause : Nat) (s : State) : State :=
  bump fSetupErrCount 0 1 (wr fSetupErrCause 0 cause (wr fPath 0 (pathCode p) (wr fAddr 0 off s)))

/-- The bits a write carries: lowest and one past the highest (R529). -/
def Part.range : Part → Nat × Nat
  | .full => (0, 64)
  | .low => (0, 32)
  | .high => (32, 64)

/-- Complement of the low `w` bits. -/
def notBits (w x : Nat) : Nat := 2 ^ w - 1 - x % 2 ^ w

/-- A register after one of its fields has taken a written value (Table 17.1). -/
def fieldPut (p : Part) (v old : Nat) (f : Fld) : Nat :=
  let lo := max f.lo (Part.range p).1
  let hi := min (f.lo + f.w) (Part.range p).2
  if hi ≤ lo then old
  else
    let n := hi - lo
    let x := bits v lo n
    match f.acc with
    | .ro => old
    | .rcl => old
    | .w1c => putBits old lo n (Nat.land (bits old lo n) (notBits n x))
    | .w1s => putBits old lo n (Nat.lor (bits old lo n) x)
    | _ => putBits old lo n x

/-- A register after a write. -/
def regPutVal (k : RegKind) (w : RegWr) (old : Nat) : Nat :=
  k.fields.foldl (fun o f => fieldPut w.part w.val.toNat o f) old

/-- Whether a register is job-owned while a job runs (before R535). -/
def jobOwned (s : State) (k : RegKind) (i : Nat) : Bool :=
  match s.job with
  | none => false
  | some j =>
    let ctx (n : Nat) : Bool := j.ctxs.any fun c => c.val == n
    match k with
    | .syncStat => ctx i
    | .satAddr => ctx i
    | .extSync => ctx i
    | .extWait => ctx i
    | .ptRoot => ctx (i / 3)
    | .faultQ => ctx i
    | .ufree => ctx i
    | .restoreCnt => ctx i
    | .acntA => ctx i
    | .acntB => ctx i
    | .srKey => ctx i
    | .ctxSave => ctx i
    | .ctxGen => ctx i
    | .mjRing => true
    | .mcRing => true
    | .ssCtl => true
    | .ssRange => true
    | .ssVal => true
    | .ssNf => true
    | .arbSlot => true
    | .arbCtl => true
    | .arbOvr => true
    | .arbOvrSrc => true
    | .torId => true
    | .coll => true
    | .tpCtl => true
    | .svCtl => true
    | .svTime => true
    | .ht => decide (i / 4 < j.nhandle)
    | _ => false

/-- A write that ownership forbids (R535): an RW or RWH control field would change, or a W1S bit would be set. -/
def ownedChange (k : RegKind) (w : RegWr) (old : Nat) : Bool :=
  k.fields.any fun f =>
    match f.acc with
    | .rw => fieldPut w.part w.val.toNat old f != old
    | .rwh => fieldPut w.part w.val.toNat old f != old
    | .w1s => fieldPut w.part w.val.toNat 0 f != 0
    | _ => false

/-- Whether a write from outside breaks ownership. -/
def refusedByOwner (s : State) (k : RegKind) (i : Nat) (w : RegWr) : Bool :=
  w.path != .sch && jobOwned s k i && ownedChange k w (regRead s k i)

/-- A write of half a register over I3C is a width fault (R529). -/
def badWidth (w : RegWr) : Bool := (w.path == .i3c0 || w.path == .i3c1) && w.part != .full

/-- A write to a register: refused and recorded, or the register's value after it (R529 to R535). -/
def regJudge (k : RegKind) (i : Nat) (w : RegWr) (s : State) : State × Option Nat :=
  if badWidth w then (setupErr (k.off i) w.path 3 s, none)
  else if refusedByOwner s k i w then (setupErr (k.off i) w.path 2 s, none)
  else (s, some (regPutVal k w (regRead s k i)))

/-- A write that applies field by field; the flag says whether it was applied. -/
def regPut (k : RegKind) (i : Nat) (w : RegWr) (s : State) : State × Bool :=
  match regJudge k i w s with
  | (s1, none) => (s1, false)
  | (s1, some v) => (regWrite k i v s1, true)

/-- A one-bit W1S command was 0 and is 1 after an applied write: the command starts (Table 17.1). -/
def started (f : Fld) (i : Nat) (before after : State) : Bool := !rdb before f i && rdb after f i

end Sys2Proof.Machine
end

