-- ==== Sys2Proof/Machine/Arbiter.lean ====
section
/-! DEFINITION. The stack port arbiter (spec/08 R269 to R271, R296 to R305; spec/07 R264, R265). -/

namespace Sys2Proof.Machine

/-! ### Classes, buffers, locks -/

/-- Class codes of Table 8.6. -/
def clsCode : SClass → Nat
  | .q => 0
  | .f => 1
  | .h => 2
  | .m => 3

/-- Whether a request is a read-modify-write of its block: an accumulate, a merge or a signal (R271, R272, R409). -/
def isRmw : SKind → Bool
  | .merge => true
  | .accFp32 => true
  | .accBx8 => true
  | .signal => true
  | _ => false

/-- The bytes of a short access (R264, R272). -/
def shortBytes : SKind → Option Nat
  | .short n => some n
  | .signal => some 64
  | _ => none

/-- The share of a slot that a short access takes (R297), in units of which a slot has `slotUnits`: its bytes by the efficiency of Table 7.7,
in percent, at the least size of the table that holds it. (DEDUCED, log 35) -/
def shortCost (n : Nat) : Nat :=
  if n ≤ 64 then 64 * 100 * (805562 / 19) else if n ≤ 128 then 128 * 50 * (805562 / 17) else if n ≤ 256 then 256 * 50 * (805562 / 29)
  else 512 * 50 * (805562 / 43)

/-- A slot, 2,048 bytes at 100 %. -/
def slotUnits : Nat := 2048 * 805562

/-- What a request takes of a slot as a short access. -/
def costOf (r : ArbReq) : Nat := ((shortBytes r.req.kind).map shortCost).getD 0

/-- Buffers a request needs (R270). -/
def bufNeed : SKind → Nat
  | .accBx8 => 4
  | _ => 1

/-- Taking buffers from the request's own pool first, then from the shared one (R270): buffers used afterwards and those
taken, as escape, Q and shared. -/
def takeBufs (used : Nat × Nat × Nat) (r : StackReq) : Option ((Nat × Nat × Nat) × (Nat × Nat × Nat)) :=
  let n := bufNeed r.kind
  let own := if r.esc then 8 - used.1 else if r.cls = .q then 4 - used.2.1 else 0
  let a := min n own
  let b := n - a
  if used.2.2 + b ≤ 52 then
    let t := if r.esc then (a, 0, b) else (0, a, b)
    some ((used.1 + t.1, used.2.1 + t.2.1, used.2.2 + t.2.2), t)
  else none

/-- Giving buffers back. -/
def giveBufs (used t : Nat × Nat × Nat) : Nat × Nat × Nat := (used.1 - t.1, used.2.1 - t.2.1, used.2.2 - t.2.2)

/-- A channel of a die. -/
def DieSt.chan (x : DieSt) (ch : Nat) : Chan := tget x.chans ch Chan.reset

/-- Setting a channel of a die. -/
def DieSt.setChan (x : DieSt) (ch : Nat) (c : Chan) : DieSt := { x with chans := tset x.chans ch c }

/-- The transfers in flight on a die. -/
def DieSt.flying (x : DieSt) : List ArbReq := x.chans.flatMap fun e => (e.2.cur.map (·.1)).toList ++ e.2.more

/-- A block is locked against a request: another read-modify-write of it has begun and not ended (R271). -/
def lockedFor (x : DieSt) (r : ArbReq) : Bool :=
  (x.flying.any fun a => a.id != r.id && isRmw a.req.kind && a.req.blk == r.req.blk)
    || (x.queue.any fun a => a.id != r.id && a.write && a.req.blk == r.req.blk)

/-- A queued request may be granted: its block is free, no request that waited on the same block before it is queued (R271), and 512 B of
its data are staged (R298). -/
def eligible (x : DieSt) (r : ArbReq) : Bool :=
  !lockedFor x r && (!r.behind || !x.queue.any fun a => a.behind && a.req.blk == r.req.blk && a.age < r.age) && decide (r.ready ≤ x.clock)

/-- The read-modify-writes that begin lock their blocks: whatever is queued for those blocks waits behind them in order of arrival (R271). -/
def lockBehind (rs : List ArbReq) (x : DieSt) : DieSt :=
  { x with queue := x.queue.map fun a =>
      if rs.any fun r => isRmw r.req.kind && r.id != a.id && r.req.blk == a.req.blk then { a with behind := true } else a }

/-- The oldest of a list. -/
def oldest : List ArbReq → Option ArbReq
  | [] => none
  | r :: l => some (l.foldl (fun a b => if b.age < a.age then b else a) r)

/-- The owner of a slot in the live table. -/
def slotOwner (x : DieSt) (n : Nat) : Nat := lget x.table (n % 64) 4

/-- The winner of a slot among requests (R296). -/
def winner (owner : Nat) (l : List ArbReq) : Option ArbReq :=
  match oldest (l.filter fun r => clsCode r.req.cls == owner) with
  | some r => some r
  | none => oldest l

/-! ### Next-turn hints (R304, Table 8.7) -/

/-- The first slot from `n` in which a request ranks first among the requests queued. -/
def hintSlot (x : DieSt) (id : Nat) : Nat → Nat → List ArbReq → Nat
  | 0, n, _ => n
  | f + 1, n, l =>
    match winner (slotOwner x n) l with
    | none => n
    | some r => if r.id = id then n else hintSlot x id f (n + 1) (l.filter fun a => a.id != r.id)

/-- The hint word. -/
def hintWord (now n reason : Nat) : BitVec 16 :=
  BitVec.ofNat 16 (reason % 4 * 2 ^ 12 + min (n / 64 - now / 64) 63 * 2 ^ 6 + n % 64)

/-- Giving hints of a reason to the requests of a channel that a test picks, counted from slot `n`. (DEDUCED, log 35) -/
def giveHints (x : DieSt) (ch n reason : Nat) (p : ArbReq → Bool) : DieSt :=
  let l := x.queue.filter fun r => r.chan == ch
  { x with queue := x.queue.map fun r =>
      if r.chan == ch && p r then { r with hint := some (hintWord x.clock (hintSlot x r.id l.length n l) reason) } else r }

/-! ### Arrival (R270, R299, R303) -/

/-- The channel requests of an arrival: one, or one on each of four channels for a BX8 accumulate (R280). -/
def chanReqs (id age ready grp : Nat) (t : Nat × Nat × Nat) (r : StackReq) : List ArbReq :=
  if r.kind = .accBx8 then
    (List.range 4).map fun q =>
      ⟨id, { r with blk := r.blk + 8 * q }, age, chanOf (r.blk + 8 * q), if q = 0 then t else (0, 0, 0), false, false, none, grp, ready⟩
  else [⟨id, r, age, chanOf r.blk, t, false, false, none, grp, ready⟩]

/-- A Q request that waits on a channel revokes the transfer of another class in flight there (R299), within the grants of a throttled
channel (R301). -/
def mayRevoke (max : Nat) (x : DieSt) (r : ArbReq) : Bool :=
  let c := x.chan r.chan
  match c.cur with
  | some (a, _) =>
    r.req.cls == .q && a.req.cls != .q && c.closed == 0 && decide (c.revokes < max) && eligible x r
      && !(x.throttle && decide (16 ≤ c.grants))
  | none => false

/-- The revocation: the transfer, with whatever short accesses shared its slot, goes back with its age. -/
def revoke (max : Nat) (r : ArbReq) (x : DieSt) : DieSt :=
  let c := x.chan r.chan
  match c.cur with
  | some (a, _) =>
    if mayRevoke max x r then
      let back := a :: c.more
      let x1 := { x with queue := (x.queue.filter fun b : ArbReq => !(b.id == r.id && b.chan == r.chan)) ++ back }
      let x2 := lockBehind [r] (x1.setChan r.chan
        { c with cur := some (r, 1), more := [], closed := 1, revokes := c.revokes + 1, grants := c.grants + 1 })
      let gone (b : ArbReq) : Bool := back.any fun a => a.id == b.id
      giveHints (giveHints x2 r.chan (x.clock + 2) 0 (fun b : ArbReq => !gone b)) r.chan (x.clock + 2) 1 gone
    else x
  | none => x

/-- The oldest Q request queued on a channel revokes, where it may (R299, R305). -/
def revokeOn (max ch : Nat) (x : DieSt) : DieSt :=
  match oldest (x.queue.filter fun r => r.chan == ch && r.req.cls == .q && eligible x r) with
  | some r => revoke max r x
  | none => x

/-- Entering arbitration with the buffers held. -/
def enterArb (max : Nat) (rs : List ArbReq) (x : DieSt) : DieSt :=
  rs.foldl (fun y r => revoke max { r with behind := lockedFor y r } { y with queue := y.queue ++ [{ r with behind := lockedFor y r }] }) x

/-- A queued short access whose buffer another may share: of the same requester, class and channel, with room in its slot (R270, R297). -/
def sharing (x : DieSt) (r : StackReq) : Option ArbReq :=
  match shortBytes r.kind with
  | none => none
  | some n => x.queue.find? fun a =>
      (shortBytes a.req.kind).isSome && a.chan == chanOf r.blk && a.req.who == r.who && a.req.cls == r.cls && a.req.esc == r.esc
        && !(x.flying.any fun b => b.grp == a.grp)
        && decide (((x.queue.filter fun b => b.grp == a.grp).map costOf).sum + shortCost n ≤ slotUnits)

/-- The slots from now until one of the die's buffers is free again: the end of a transfer in flight, one slot later where its write
follows its read; with none in flight, the end of the next one (R304). (DEDUCED, log 35) -/
def freeIn (x : DieSt) : Nat :=
  let of (e : Nat × Chan) : Nat :=
    match e.2.cur with
    | some (r, k) => 1 + (r.req.late + 1 - k) + bnat (isRmw r.req.kind && !r.write)
    | none => 66
  let m := x.chans.foldl (fun n e => min n (of e)) 66
  if m = 66 then 2 else m

/-- A hint for want of a buffer (R304). -/
def bufHint (x : DieSt) : Option (BitVec 16) := some (hintWord x.clock (x.clock + freeIn x) 2)

/-- The channels that hold a request but no running time of silence begin one, and the others end it (R267). -/
def noteSilent (now : Nat) (x : DieSt) : DieSt :=
  let has (ch : Nat) : Bool := (x.queue ++ x.flying).any fun r => r.chan == ch
  { x with silent := (List.range 32).filterMap fun ch => if has ch then some (ch, tget x.silent ch now) else none }

/-- One request takes its buffers and enters arbitration, shares those of a slot's worth of short accesses, or waits (R270). -/
def arrive (max : Nat) (req : StackReq) (x : DieSt) : DieSt :=
  let id := x.nextReq
  let x1 := { x with nextReq := id + 1 }
  let ready := x.clock + req.first
  match sharing x req with
  | some a => enterArb max (chanReqs id id ready a.grp (0, 0, 0) req) x1
  | none =>
    match takeBufs x.pool req with
    | some (used, t) => enterArb max (chanReqs id id ready id t req) { x1 with pool := used }
    | none => { x1 with waiting := x1.waiting ++ [⟨id, req, id, chanOf req.blk, (0, 0, 0), false, false, bufHint x, id, ready⟩] }

/-- STACK_REQUEST_ARRIVE (R270): the oldest access on its way to a die reaches its port; 512 B of a write's data are staged `req.first`
slots later, and a grant would be held for `req.late` slots before all are (R298). (DEDUCED, log 35) -/
def execStackRequestArrive (d : Die) (req : Arrival) (s : State) : Out :=
  .next (match s.stkReqs.findIdx? fun e => e.die == d.val && rideArrived s e.ride with
    | none => s
    | some i =>
      match s.stkReqs[i]? with
      | none => s
      | some e =>
        modDie d (fun x => noteSilent s.time (arrive (rd s fRevokeMax d) { e.req with first := req.first, late := req.late } x))
          { s with stkReqs := ldrop s.stkReqs i })

/-! ### Slots (R296 to R301) -/

/-- Buffers go on to another request of their group, or back when it was the last (R270). -/
def passBufs (r : ArbReq) (x : DieSt) : DieSt :=
  let mine (a : ArbReq) : Bool := a.grp == r.grp && !(a.id == r.id && a.chan == r.chan)
  let add (a : ArbReq) : ArbReq := { a with pool := (a.pool.1 + r.pool.1, a.pool.2.1 + r.pool.2.1, a.pool.2.2 + r.pool.2.2) }
  match x.queue.findIdx? mine with
  | some i => { x with queue := x.queue.mapIdx fun k a => if k = i then add a else a }
  | none =>
    match x.chans.find? fun e => (e.2.cur.map fun g => mine g.1).getD false || e.2.more.any mine with
    | some (ch, c) =>
      x.setChan ch (match c.cur with
        | some (g, k) => if mine g then { c with cur := some (add g, k) }
          else { c with more := (c.more.filter fun a => !mine a) ++ ((c.more.filter mine).zipIdx.map fun e => if e.2 = 0 then add e.1 else e.1) }
        | none => c)
    | none => { x with pool := giveBufs x.pool r.pool }

/-- What a transfer that ends leaves: the read of a read-modify-write puts its write in the queue, everything else leaves its buffers
(R271, R280); the channel has answered (R267). -/
def endTransfer (r : ArbReq) (x : DieSt) : DieSt :=
  let x1 := { x with silent := x.silent.filter fun e => e.1 != r.chan }
  if isRmw r.req.kind && !r.write then { x1 with queue := x1.queue ++ [{ r with write := true, hint := none }] }
  else passBufs r x1

/-- Every transfer of a channel ends. -/
def endChan (ch : Nat) (x : DieSt) : DieSt :=
  let c := x.chan ch
  ((c.cur.map (·.1)).toList ++ c.more).foldl (fun y r => endTransfer r y) (x.setChan ch { c with cur := none, more := [] })

/-- Short accesses that fit a slot beside those already in it, in order. -/
def fitShorts : Nat → List ArbReq → List ArbReq
  | _, [] => []
  | room, r :: l => if costOf r ≤ room then r :: fitShorts (room - costOf r) l else fitShorts room l

/-- The further short accesses of the winner's requester that its slot carries (R297). -/
def shortsWith (ch : Nat) (r : ArbReq) (x : DieSt) : List ArbReq :=
  match shortBytes r.req.kind with
  | none => []
  | some n => fitShorts (slotUnits - shortCost n) (x.queue.filter fun a =>
      a.chan == ch && a.id != r.id && (shortBytes a.req.kind).isSome && a.req.who == r.req.who && eligible x a)

/-- A grant: the winner and what its slot carries leave the queue for the channel. -/
def grantTo (ch : Nat) (r : ArbReq) (x : DieSt) : DieSt :=
  let c := x.chan ch
  let more := shortsWith ch r x
  let x1 := { x with queue := x.queue.filter fun a => !(a.chan == ch && (a.id == r.id || more.any fun b => b.id == a.id)) }
  lockBehind (r :: more) (x1.setChan ch { c with cur := some (r, 1), more := more, grants := c.grants + 1 })

/-- The oldest refresh that is due is done. -/
def refreshDone (ch : Nat) (x : DieSt) : DieSt := x.setChan ch { x.chan ch with refresh := (x.chan ch).refresh.tail }

/-- The grant of slot `n` on one channel. A refresh takes a slot that goes unused, or after sixteen slots the next; never one that Q
owns (R300). -/
def grantChan (max n ch : Nat) (x : DieSt) : DieSt :=
  let c := x.chan ch
  let l := x.queue.filter fun r => r.chan == ch && eligible x r
  let qs := l.filter fun r => r.req.cls == .q
  let owner := slotOwner x n
  let full : Bool := x.throttle && decide (16 ≤ c.grants)
  let win := if full then none else if x.throttle ∧ !qs.isEmpty then oldest qs else winner owner l
  let due : Bool := owner != 0 && (match c.refresh with | [] => false | w :: _ => win.isNone || decide (16 < w))
  if due then giveHints (refreshDone ch x) ch (n + 1) 3 fun _ => true
  else
    match win with
    | none => if full then giveHints x ch (n + 1) 3 fun _ => true else x
    | some r => revokeOn max ch (giveHints (grantTo ch r x) ch (n + 1) 0 fun _ => true)

/-- Refreshes that are due have waited one slot more. -/
def waited (c : Chan) : Chan := { c with refresh := c.refresh.map (· + 1) }

/-- One channel at the start of slot `n`: the slot that a revocation closes, a grant still held, or the end of the transfer
in flight and the next grant. -/
def slotChan (max n : Nat) (x : DieSt) (ch : Nat) : DieSt :=
  let c0 := x.chan ch
  let c1 := if n % 64 = 0 then { c0 with revokes := 0, grants := 0 } else c0
  let c := waited (if n % 256 = 0 then { c1 with dues := 0 } else c1)
  if 0 < c.closed then x.setChan ch { c with closed := c.closed - 1 }
  else
    match c.cur with
    | some (r, k) =>
      if k ≤ r.req.late ∧ !r.write then giveHints (x.setChan ch { c with cur := some (r, k + 1) }) ch (n + 1) 0 fun _ => true
      else grantChan max n ch (endChan ch (x.setChan ch c))
    | none => grantChan max n ch (x.setChan ch c)

/-- Requests that wait for buffers, in the order of R303: the class that owns the current slot first, then age. -/
def bufOrder (x : DieSt) : List ArbReq :=
  let o := slotOwner x x.clock
  (x.waiting.filter fun r => clsCode r.req.cls == o) ++ x.waiting.filter fun r => clsCode r.req.cls != o

/-- Giving freed buffers to the requests that wait; those that lose them get a hint (R303, R304). -/
def giveWaiting (max : Nat) (x : DieSt) : DieSt :=
  let y := (bufOrder x).foldl (fun y r =>
    match takeBufs y.pool r.req with
    | some (used, t) =>
      enterArb max (chanReqs r.id r.age r.ready r.id t r.req) { y with pool := used, waiting := y.waiting.filter fun a => a.id != r.id }
    | none => y) x
  if y.waiting.length = x.waiting.length then y else { y with waiting := y.waiting.map fun r => { r with hint := bufHint y } }

/-- The overrun counter of a class (Table 8.6). -/
def ovrFld : SClass → Fld
  | .f => fOvrF
  | .h => fOvrH
  | .m => fOvrM
  | .q => fOvrQ

/-- A grant still held at the end of its fourth slot is cut and goes back with its original age, with whatever shared its slot; where a Q request may revoke it, it is
revoked, and no overrun counts (R298, R305). -/
def holdCut (d : Die) (ch : Nat) (s : State) : State :=
  let x := die s d
  let c := x.chan ch
  match c.cur with
  | some (r, k) =>
    if k < 4 ∨ r.req.late < k ∨ r.write then s
    else if x.queue.any fun q => q.chan == ch && mayRevoke (rd s fRevokeMax d) x q then modDie d (revokeOn (rd s fRevokeMax d) ch) s
    else
      let back := { r with req := { r.req with late := r.req.late - 4 } }
      let s1 := modDie d (fun x => { x with queue := x.queue ++ back :: c.more }.setChan ch { c with cur := none, more := [] }) s
      bump (ovrFld r.req.cls) d 1
        (wr fSrc d r.req.who (wr fClass d (clsCode r.req.cls) (wr fChan d ch s1)))
  | none => s

/-- HOLD_CUT (R298). -/
def execHoldCut (d : Die) (ch : Fin 32) (s : State) : Out := .next (holdCut d ch s)

/-! ### Slot tables (R302) -/

/-- A write of ARB_CTL: a swap that it starts waits for the first frame boundary after this slot. -/
def arbCtlPut (d : Nat) (w : RegWr) (s : State) : State :=
  let s1 := (regPut .arbCtl d w s).1
  if started fSwap d s s1 then modDie d (fun x => { x with swapAt := x.clock }) s1 else s1

/-- ARB_SWAP (R302): the write of ARB_CTL. -/
def execArbSwap (d : Die) (w : RegWr) (s : State) : Out := .next (arbCtlPut d w s)

/-- The shadow slot table. -/
def shadowTable (s : State) (d : Nat) : List Nat :=
  (List.range 64).map fun i => bits (regRead s .arbSlot (4 * d + i / 16)) (4 * (i % 16)) 4

/-- The swap at a frame boundary after the slot in which SWAP was written (R302). (DEDUCED, log 35) -/
def swapTable (d : Die) (s : State) : State :=
  let x := die s d
  if !rdb s fSwap d ∨ x.clock % 64 ≠ 0 ∨ x.clock ≤ x.swapAt then s
  else
    let t := shadowTable s d
    let s1 := wr fSwap d 0 s
    if t.all (· ≤ 4) ∧ (t.filter (· == 0)).length ≤ 16 then modDie d (fun x => { x with table := t }) s1
    else wr fTblRefused d 1 s1

/-- SLOT_TABLE_LIVE (R302). -/
def execSlotTableLive (d : Die) (s : State) : Out := .next (swapTable d s)

/-- SLOT_GRANT (R296): the next slot of the die, on all 32 channels; what the boundary before it brings comes first, a swap that is due
and the cuts of grants held too long. (DEDUCED, log 35) -/
def execSlotGrant (d : Die) (s : State) : Out :=
  let s0 := (List.range 32).foldl (fun t ch => holdCut d ch t) (swapTable d s)
  let n := (die s0 d).clock + 1
  let max := rd s0 fRevokeMax d
  .next (wr fSlotNow d (n % 64) (modDie d (fun x =>
    noteSilent s0.time (giveWaiting max ((List.range 32).foldl (slotChan max n) { x with clock := n }))) s0))

/-! ### Refresh (R265, R300, R301) -/

/-- Refreshes of a channel in four frames (Table 7.8). -/
def refreshPer4 (x : DieSt) : Nat := if x.doubled then 18 else 9

/-- REFRESH (R265, R300): the next refresh of a channel falls due, in its turn among those of the present four frames, which are spread
evenly. (DEDUCED, log 35) -/
def execRefresh (d : Die) (ch : Fin 32) (s : State) : Out :=
  .next (modDie d (fun x =>
    let c := x.chan ch
    if c.dues * 256 < (x.clock % 256 + 1) * refreshPer4 x ∧ c.dues < refreshPer4 x then
      x.setChan ch { c with refresh := c.refresh ++ [0], dues := c.dues + 1 }
    else x) s)

/-- Rate and throttle of a die at a temperature (Table 7.8, with 2 °C of hysteresis). -/
def refreshRate (t : Nat) (x : DieSt) : DieSt :=
  { x with
    doubled := if 85 < t then true else if t ≤ 83 then false else x.doubled
    throttle := if 95 < t then true else if t < 93 then false else x.throttle }

/-- REFRESH_LOOP (R265, Table 15.2): the temperatures of the 16 stacks. -/
def execRefreshLoop (temps : List Nat) (s : State) : Out :=
  if temps.length ≠ 16 then .refused .badOperand
  else
    .next (wr fTdramMax 0 (temps.foldl max 0)
      ((temps.zipIdx).foldl (fun t e => modDie e.2 (refreshRate e.1) t) s))

/-! ### Statistic sets (R282, R283) -/

/-- A sum of R282 rounded to FP32. -/
def sqToF32 (n : Nat) : Nat := if n = 0 then 0 else (f32Of ⟨n, -298⟩ false).1

/-- Copying the live sums of a set into its read fields and zeroing them (R283). -/
def snapSet (d n : Nat) (s : State) : State :=
  let i := 4 * d + n
  let x := lget (die s d).stats n ⟨0, 0, 0⟩
  let s1 := wr fIncSq i (sqToF32 x.inc) (wr fFinSq i (sqToF32 x.fin) (wr fNonfin i x.nonfin s))
  modDie d (fun e => { e with stats := lset e.stats n ⟨0, 0, 0⟩ }) (wr fSnap i 0 s1)

/-- A write of SS_CTL_n. -/
def ssCtlPut (i : Nat) (w : RegWr) (s : State) : State :=
  let s1 := (regPut .ssCtl i w s).1
  if started fSnap i s s1 then snapSet (i / 4) (i % 4) s1 else s1

/-- SS_SNAP (R283). -/
def execSsSnap (d : Die) (n : Fin 4) (w : RegWr) (s : State) : Out := .next (ssCtlPut (4 * d.val + n.val) w s)

end Sys2Proof.Machine
end

