-- ==== Sys2Proof/Machine/Crypto.lean ====
section
/-! DEFINITION. SHA-384 (FIPS 180-4) and the verification of a P-384 ECDSA signature (FIPS 186-5), which spec/16 R504 and R523
name; the two standards' constants are taken from the standards, not from the spec. -/

namespace Sys2Proof.Machine

/-! ### SHA-384 -/

/-- The prime numbers below 410: the first eighty. -/
def smallPrimes : List Nat :=
  (List.range 410).filter fun n => 2 ≤ n && (List.range 21).all fun d => d < 2 || n ≤ d || n % d != 0

/-- The greatest r below `acc` + 2 ^ `i` whose power `e` is at most `n`, given that `acc` is such. -/
def rootFrom (e n : Nat) : Nat → Nat → Nat
  | 0, acc => acc
  | i + 1, acc => rootFrom e n i (if (acc + 2 ^ i) ^ e ≤ n then acc + 2 ^ i else acc)

/-- The first 64 bits of the fraction of the e-th root of a number below 2 ^ 10. -/
def rootFrac (e p : Nat) : BitVec 64 := BitVec.ofNat 64 (rootFrom e (p * 2 ^ (64 * e)) 70 0)

/-- The eighty round constants: fractions of the cube roots of the first eighty primes (FIPS 180-4, 4.2.3). -/
def shaK : List (BitVec 64) := smallPrimes.map (rootFrac 3)

/-- The initial hash value of SHA-384: fractions of the square roots of the ninth to the sixteenth prime (FIPS 180-4, 5.3.4). -/
def shaIv : List (BitVec 64) := ((smallPrimes.drop 8).take 8).map (rootFrac 2)

/-- The big-endian value of a byte string. -/
def beNat (b : Bytes) : Nat := b.foldl (fun a x => a * 256 + x.toNat) 0

/-- The `n` big-endian bytes of a number. -/
def toBe (n v : Nat) : Bytes := (toLe n v).reverse

/-- The padded message: 0x80, zeros, the bit length as 128 bits. -/
def shaPad (b : Bytes) : Bytes := b ++ [0x80] ++ zeros ((239 - b.length % 128) % 128) ++ toBe 16 (8 * b.length)

/-- The sixteen words of a block. -/
def shaWords (b : Bytes) : List (BitVec 64) := (List.range 16).map fun i => BitVec.ofNat 64 (beNat (slice b (8 * i) 8))

/-- The sum modulo 2 of a word rotated to the right by each amount of a list. -/
def rotSum (rs : List Nat) (x : BitVec 64) : BitVec 64 := rs.foldl (fun y r => y ^^^ x.rotateRight r) 0

/-- The next word of the message schedule from the last sixteen, oldest first. -/
def shaNext (w : List (BitVec 64)) : BitVec 64 :=
  let at_ (i : Nat) : BitVec 64 := w.getD i 0
  let mix (rs : List Nat) (k i : Nat) : BitVec 64 := rotSum rs (at_ i) ^^^ (at_ i >>> k)
  at_ 0 + at_ 9 + mix [1, 8] 7 1 + mix [19, 61] 6 14

/-- One round over the eight working variables, a to h in a list. -/
def shaRound (v : List (BitVec 64)) (k w : BitVec 64) : List (BitVec 64) :=
  match v with
  | [a, b, c, d, e, f, g, h] =>
    let x := h + k + w + rotSum [14, 18, 41] e + (g ^^^ (e &&& (f ^^^ g)))
    let maj := (a &&& (b ||| c)) ||| (b &&& c)
    [x + maj + rotSum [28, 34, 39] a, a, b, c, d + x, e, f, g]
  | _ => v

/-- The rounds of a block: constants, the sixteen words of the schedule that are due next, and the working variables. -/
def shaRounds : List (BitVec 64) → List (BitVec 64) → List (BitVec 64) → List (BitVec 64)
  | [], _, v => v
  | k :: ks, w, v => shaRounds ks (w.drop 1 ++ [shaNext w]) (shaRound v k (w.getD 0 0))

/-- The hash value after `n` blocks. -/
def shaBlocks (ks : List (BitVec 64)) : Nat → Bytes → List (BitVec 64) → List (BitVec 64)
  | 0, _, v => v
  | n + 1, b, v => shaBlocks ks n (b.drop 128) (List.zipWith (· + ·) v (shaRounds ks (shaWords b) v))

/-- SHA-384 of a byte string: 48 bytes. (PRESUMED, log 78) -/
def sha384 (b : Bytes) : Bytes :=
  let p := shaPad b
  ((shaBlocks shaK (p.length / 128) p shaIv).take 6).flatMap fun w => toBe 8 w.toNat

/-! ### P-384 -/

/-- The prime of the field. -/
def p384P : Nat := 2 ^ 384 - 2 ^ 128 - 2 ^ 96 + 2 ^ 32 - 1

/-- The order of the base point. -/
def p384N : Nat :=
  0xffffffffffffffffffffffffffffffffffffffffffffffffc7634d81f4372ddf581a0db248b0a77aecec196accc52973

/-- The coefficient b of the curve; a is −3. -/
def p384B : Nat :=
  0xb3312fa7e23ee7e4988e056be3f82d19181d9c6efe8141120314088f5013875ac656398d8a2ed19d2a85c8edd3ec2aef

/-- The base point. -/
def p384G : Nat × Nat :=
  (0xaa87ca22be8b05378eb1c71ef320ad746e1d3b628ba79b9859f741e082542a385502f25dbf55296c3a545e3872760ab7,
   0x3617de4a96262c6f5d9e98bf9292dc29f8f41dbd289a147ce9da3113b5f0b8c00a60b1ce1d7e819d7a431d7c90ea0e5f)

/-- `b ^ e` modulo `m` over the low `n` bits of `e`. -/
def powMod (m : Nat) : Nat → Nat → Nat → Nat
  | 0, _, _ => 1 % m
  | n + 1, b, e =>
    let r := powMod m n (b * b % m) (e / 2)
    if e % 2 = 1 then b * r % m else r

/-- The inverse modulo a prime. -/
def invMod (m a : Nat) : Nat := powMod m 384 (a % m) (m - 2)

/-- Subtraction in the field. -/
def fsub (a b : Nat) : Nat := (a + p384P - b % p384P) % p384P

/-- Multiplication in the field. -/
def fmul (a b : Nat) : Nat := a * b % p384P

/-- A point of the curve in Jacobian coordinates: the affine point (x / z², y / z³); z = 0 is the point at infinity. -/
structure EcPoint where
  x : Nat
  y : Nat
  z : Nat
deriving DecidableEq, Repr

/-- The point at infinity. -/
def EcPoint.inf : EcPoint := ⟨1, 1, 0⟩

/-- Doubling a point, a being −3. -/
def ecDbl (p : EcPoint) : EcPoint :=
  let g := fmul p.y p.y
  let d := fmul p.z p.z
  let b := fmul p.x g
  let l := fmul 3 (fmul (fsub p.x d) (p.x + d))
  let x := fsub (fmul l l) (8 * b)
  ⟨x, fsub (fmul l (fsub (4 * b) x)) (8 * fmul g g), fmul 2 (fmul p.y p.z)⟩

/-- Adding two points. -/
def ecAdd (p q : EcPoint) : EcPoint :=
  if p.z = 0 then q
  else if q.z = 0 then p
  else
    let a := fmul p.z p.z
    let b := fmul q.z q.z
    let u := fmul p.x b
    let s := fmul p.y (fmul q.z b)
    let h := fsub (fmul q.x a) u
    let r := fsub (fmul q.y (fmul p.z a)) s
    if h = 0 then (if r = 0 then ecDbl p else .inf)
    else
      let h2 := fmul h h
      let h3 := fmul h h2
      let v := fmul u h2
      let x := fsub (fsub (fmul r r) h3) (2 * v)
      ⟨x, fsub (fmul r (fsub v x)) (fmul s h3), fmul h (fmul p.z q.z)⟩

/-- The `n` low bits of a scalar times a point. -/
def ecMul : Nat → Nat → EcPoint → EcPoint
  | 0, _, _ => .inf
  | n + 1, k, p =>
    let r := ecMul n (k / 2) (ecDbl p)
    if k % 2 = 1 then ecAdd p r else r

/-- A public key is a point of the curve. -/
def onCurve (x y : Nat) : Bool :=
  x < p384P && y < p384P && y * y % p384P == fsub (x * x % p384P * x + p384B) (3 * x)

/-- The verification of a signature over a message hash: key x then y, signature r then s, 48 bytes each, big-endian as the cited
standards write them (R9). (PRESUMED, log 78) -/
def ecdsaVerify (key sig hash : Bytes) : Bool :=
  let x := beNat (slice key 0 48)
  let y := beNat (slice key 48 48)
  let r := beNat (slice sig 0 48)
  let t := beNat (slice sig 48 48)
  let w := invMod p384N t
  onCurve x y && 1 ≤ r && r < p384N && 1 ≤ t && t < p384N
    && (let q := ecAdd (ecMul 384 (beNat hash * w % p384N) ⟨p384G.1, p384G.2, 1⟩) (ecMul 384 (r * w % p384N) ⟨x, y, 1⟩)
        q.z != 0 && fmul q.x (invMod p384P (q.z * q.z)) % p384N == r)

end Sys2Proof.Machine
end

