-- ==== Sys2Proof/Machine/Flags.lean ====
section
/-! DEFINITION. The lands and status flags that the package shows: READY, FAULT_N, THERM_N, GUARD_FAULT_N and GUARD_FAULT (spec/12 R428;
spec/14 R471; spec/15 R488; spec/18 R548). -/

namespace Sys2Proof.Machine

/-- Driving READY; a change raises an in-band interrupt (R428). -/
def setReady (b : Bool) (s : State) : State :=
  if s.lands.ready = some b then s
  else { s with lands := { s.lands with ready := some b }, ibis := s.ibis ++ [0] }

/-- Asserting FAULT_N, which is active low, with MSI-X vector 4 (R428, Table 12.9). (DEDUCED, log 47) -/
def assertFault (s : State) : State :=
  if s.lands.faultN = some false then s
  else raiseMsix 4 { s with lands := { s.lands with faultN := some false }, ibis := s.ibis ++ [1] }

/-- Driving THERM_N (R428, R488). -/
def setTherm (asserted : Bool) (s : State) : State :=
  if s.lands.thermN = some (!asserted) then s
  else { s with lands := { s.lands with thermN := some (!asserted) }, ibis := s.ibis ++ [2] }

/-- GUARD_FAULT_N as the package drives it (R471); none while READY is not driven. -/
def guardFaultN (s : State) : Option Bool :=
  s.lands.ready.map fun r =>
    r && rdb s fSvCtlEn 0 && rdb s fMonEn 0 && !rdb s fGuardFault 0 && !rdb s fTrip 0 && !rdb s fMonFail 0
      && !rdb s fLandTest 0

/-- Setting GUARD_FAULT with its cause (R360), with MSI-X vector 5. (DEDUCED, log 47) -/
def setGuardFault (cause : Nat) (s : State) : State :=
  raiseMsix 5 (wr fGfStatCause 0 cause (wr fGuardFault 0 1 s))

end Sys2Proof.Machine
end

