-- ==== Sys2Proof/Machine/Xce.lean ====
section
/-! DEFINITION. The exchange engine, LFETCH, the commit of signals, PHASE and the acceptance of writes (spec/05 R167 to
R172, R190 to R198; spec/04 R129; spec/07 R249). -/

namespace Sys2Proof.Machine

/-! ### SIGNAL_COMMIT (R147, R168) -/

/-- The remote address of a fabric access in the target's own map (R230, Table 11.3). -/
def remoteAddr (reg off : Nat) : Nat := reg * 2 ^ 52 + off

/-- Handing a committed signal to the fabric as an ATOMIC, or to a station as a 64-bit fetch-add on the location that
holds the word (R167, R215). (DEDUCED, log 34) -/
def commitFar (c : CoreId) (e : Engine) (i : Nat) (p : Pend) (va : BitVec 56) (amt : BitVec 32) (s : State) : State :=
  match regionHere s va with
  | some (.rstk h x y z off) =>
    let (s1, id) := openTxn ⟨c, p.ctx, kAtomic, (x, y, z), remoteAddr h.val off, none, collEpoch s c, none,
      some (amt.toNat, 0), none, none, false, 0⟩ s
    modPend c i (fun q => { q with op := .fabric id }) s1
  | some (.rund x y z off) =>
    let (s1, id) := openTxn ⟨c, p.ctx, kAtomic, (x, y, z), remoteAddr 2 off, none, collEpoch s c, none,
      some (amt.toNat, 0), none, none, false, 0⟩ s
    modPend c i (fun q => { q with op := .fabric id }) s1
  | some (.stn handle off) =>
    match stnFault s p.ctx handle off 4 .atomic with
    | some code => engFault c e code 0 va.toNat s
    | none =>
      let h := handleOf (htBytes s handle)
      let a := h.rva + off
      let add := if a / 4 % 2 = 1 then amt.toInt * 2 ^ 32 else amt.toInt
      match coreSend c p.ctx h 3 (a - a % 8) 8 (toLe 8 (unsigned 64 add)) (.coreWrite c) none s with
      | (s1, some id) => modPend c i (fun q => { q with op := .station id }) s1
      | (s1, none) => dropPend c i s1
  | _ => s

/-- SIGNAL_COMMIT (R168): the first signal of the engine that has not committed, once all before it is accepted. -/
def execSignalCommit (c : CoreId) (e : Engine) (s : State) : Out :=
  .next (match nextCommit (core s c) e with
    | none => s
    | some (i, p) =>
      if (core s c).forced || !commitReady (core s c) e i p then s
      else
        match p.op with
        | .signal va w amt _ k => commitLocal c i p va w amt k s
        | .farSignal va amt _ => commitFar c e i p va amt s
        | _ => s)

/-! ### PHASE (R172, R494) -/

/-- Microseconds in KCLK cycles. -/
def usK (n : Nat) : Nat := n * 800

/-- PHASE (R172): the notice opens a guard window; one on a grove that the thermal loop still holds until 101 °C, or in thermal shutdown, is
dropped (R496). -/
def execPhase (c : CoreId) (e : Engine) (s : State) : Out :=
  .next (onRepeat c e 0x07 s fun d l k rep op =>
    match op with
    | .phase lead level dur =>
      let g := coreGrove c
      issue c e d l k rep none [] s fun t =>
        if (pwGrove t g).hot || t.life == .shutdown then bump fPhaseDrop 0 1 t
        else
          let w : Guard := ⟨level, t.time + usK (lead - 10), t.time + usK (lead + dur), false⟩
          modPw g (fun p => { p with windows := p.windows ++ [w] }) t
    | _ => s)

/-! ### Blocks out and in -/

/-- The addresses of `n` blocks of an operand: stride 2,048, in a station window the images' own (R157, R405). -/
def blockVas (va : BitVec 56) (n : Nat) : List (BitVec 56) := unitVas va 2048 n

/-- Whether an address lies in a station window. -/
def isStn (va : BitVec 56) : Bool := va.toNat / 2 ^ 52 == 8

/-- The check of an operand of `n` blocks: every block, of a station operand its first address. (DEDUCED, log 14) -/
def checkBlocks (s : State) (c : Nat) (a : Allowed) (pos : Nat) (va : BitVec 56) (n : Nat) : Option IssueFault :=
  if isStn va then checkOpd s c a 2048 pos va else checkUnits s c a 2048 pos (blockVas va n)

/-- Regions a block may be sent to (Table 5.5: any writable region); an ACC window counts among them, which the spec does not say.
(DESIGN CHOICE, log 99) -/
def putRegions : Allowed := { stk := true, und := true, leaf := true, acc := true, remote := true, stn := true }

/-- The regions of an XGET's destination (Table 5.5). -/
def getDst : Allowed := { stk := true, und := true, leaf := true }

/-- A guarded copy that runs an invocation (R357). -/
def Query.copyOf (q : Query) (inv : BitVec 32) : Bool :=
  q.inv == inv && q.role != 0 && (match q.stage with | .running _ => true | _ => false)

/-- Recording the digest of a block that a guarded copy writes to its staging area (R357): PAR_2 gives its place, PAR_1 its
length. -/
def noteDigest (c : CoreId) (va : Nat) (b : Blk) (s : State) : State :=
  match s.serve, (core s c).run with
  | some v, some (d, _) =>
    let base := (d.par 2).toNat % 2 ^ 56
    if some d.ctx = s.sctx ∧ base ≤ va ∧ va < base + 2048 * bits (d.par 1).toNat 16 16 then
      let g := coreGrove c
      { s with serve := some { v with queries := tset v.queries g ((tget v.queries g []).map fun q =>
          if q.copyOf d.invSeq then { q with digests := q.digests ++ [crc32c (b.pay ++ b.side)] } else q) } }
    else s
  | _, _ => s

/-- Handing a whole block over as a plain write, once the ride transfer `pre` has brought it to the core's half. -/
def putBlock (c : CoreId) (e : Engine) (ctx : CtxId) (r : Nat) (va : Nat) (l : Loc) (b : Blk) (pre : Option Nat) (s : State) : State :=
  let (s1, ride) := rideFor c ctx l (rideBlock (l.addr 0) b) pre s
  pendAdd c ⟨ctx, e, r, ride, .put l b⟩ (noteDigest c va b s1)

/-- An accumulate of a repeat: stream, first SEQ of the repeat, and the SEQ after it. -/
structure AccRun where
  strm : Nat
  seq  : Nat
  next : Nat
deriving DecidableEq, Repr

/-- Sending blocks, plain or accumulating, to the targets of a repeat, block `i` first, once the ride transfer `pre` has brought them to
the core's half. -/
def sendBlocks (c : CoreId) (ctx : CtxId) (r : Nat) (acc : Option AccRun) (port pre : Option Nat) :
    Nat → List (BitVec 56 × Target × Blk) → State → State
  | _, [], s => s
  | i, (va, t, b) :: l, s =>
    let s1 := match t, acc with
      | .here p _, none => putBlock c .xce ctx r va.toNat p b pre s
      | .here (.stk h n) _, some a =>
        let q := (a.seq + i) % 2 ^ 32
        sendAccum c ctx h n b a.strm q pre (pendAdd c ⟨ctx, .xce, r, none, .accum h n b a.strm q ⟨.sent, none⟩⟩ s)
      | .remote reg x y z off, none =>
        let (s1, id) := openTxn ⟨c, ctx, kWrite, (x, y, z), remoteAddr reg off, none, collEpoch s c, some b, none, port, pre, false, 0⟩ s
        pendAdd c ⟨ctx, .xce, r, none, .fabric id⟩ s1
      | .remote reg x y z off, some a =>
        let q := (a.seq + i) % 2 ^ 32
        let (s1, id) := openTxn ⟨c, ctx, kAccum, (x, y, z), remoteAddr reg off, none, collEpoch s c, some b,
          some (a.strm, q), port, pre, false, 0⟩ s
        pendAdd c ⟨ctx, .xce, r, none, .farAccum id a.strm q ⟨.sent, none⟩⟩ s1
      | _, _ => s
    sendBlocks c ctx r acc port pre (i + 1) l s1

/-- The dies that local accumulates of a repeat reach. -/
def diesOf (l : List (BitVec 56 × Target × Blk)) : List Nat :=
  (l.filterMap fun x => match x.2.1 with | .here (.stk h n) _ => some (dieOf h n) | _ => none).dedup

/-- The packages that remote accumulates of a repeat reach. -/
def farOf (l : List (BitVec 56 × Target × Blk)) : List (Nat × Nat × Nat) :=
  (l.filterMap fun x => match x.2.1 with | .remote _ a b d _ => some (a, b, d) | _ => none).dedup

/-- Registering an accumulating repeat as unsettled (R253). -/
def openAcc (c : CoreId) (r : Nat) (a : AccRun) (l : List (BitVec 56 × Target × Blk)) (s : State) : State :=
  modCore c (fun x => { x with accRpts := x.accRpts ++ [⟨r, a.strm, a.seq, a.next, l.length, diesOf l, farOf l⟩] }) s

/-- The faults of an accumulate's targets (R194, R276): ACC_TARGET with the block's format, ACC_PAGE of a BX8 block whose
target is no part 0. (DEDUCED, log 33) -/
def accFault : List (BitVec 56 × Target × Blk) → Option IssueFault
  | [] => none
  | (va, t, b) :: l =>
    if b.fmt ≠ 4 ∧ b.fmt ≠ 2 then some (fcAccTarget, b.fmt, va.toNat)
    else
      match t with
      | .here (.stk _ n) _ => if b.fmt = 2 ∧ bits n 3 2 ≠ 0 then some (fcAccPage, 4, va.toNat) else accFault l
      | .remote reg _ _ _ _ => if reg ≤ 1 then accFault l else some (fcAccTarget, b.fmt, va.toNat)
      | _ => some (fcAccTarget, b.fmt, va.toNat)

/-- SEQ of the first block of a repeat (R195): `n` is NB, or 4,096 for PERMUTE. -/
def seqBase (d : Desc) (k : Ctl) (rep seqp n : Nat) : Nat :=
  ((d.par seqp).toNat % 2 ^ 32 + (k.chunk.toNat * (rep + 1) + k.rep) * n) % 2 ^ 32

/-- The accumulate run of a repeat. -/
def accRun (s : State) (c : CoreId) (d : Desc) (k : Ctl) (rep strm seqp n : Nat) : AccRun :=
  let q := seqBase d k rep seqp n
  ⟨streamId d.ctx ((lcOf s c).getD 0) strm, q, (q + n) % 2 ^ 32⟩

/-- Where the blocks of a repeat go, resolved under a context; faults and absent pages as for any operand. -/
abbrev Dsts := State → State × Placed

/-- One XCE repeat that sends the blocks at `src` to places that `dst` resolves: read, checks on accumulates, control
moved on, blocks handed over. `who` is the context whose pages the destination needs. -/
def sendRepeat (c : CoreId) (d : Desc) (l : ListSet) (k : Ctl) (rep : Nat) (os : List Opd) (srcPos : Nat) (src : BitVec 56)
    (n : Nat) (dva : BitVec 56) (who : CtxId) (dst : Dsts) (acc : Option AccRun) (port : Option Nat) (s : State) : State :=
  match resolveAll c d.ctx .read srcPos (blockVas src n) s with
  | (s1, .fault code det a) => engFault c .xce code det a s1
  | (s1, .absent page) => stallOn c .xce d.ctx page s1
  | (s1, .all ss) =>
    match dst s1 with
    | (s2, .fault code det a) => engFault c .xce code det a s2
    | (s2, .absent page) => stallOn c .xce who page s2
    | (s2, .all ds) =>
      match fetchAll d.ctx ss s2 with
      | (s3, .bad p) => corruptFault c .xce src.toNat p s3
      | (s3, .ok bs) =>
        let items := (blockVas dva n).zip (ds.zip bs)
        match if acc.isSome then accFault items else none with
        | some (code, det, a) => engFault c .xce code det a s3
        | none =>
          issue c .xce d l k rep none os s3 fun s4 =>
            let (s5, pre) := crossReads c d.ctx ss bs none s4
            let (s6, r) := newRpt c s5
            match acc with
            | none => sendBlocks c d.ctx r none port pre 0 items s6
            | some a => if items.isEmpty then s6 else sendBlocks c d.ctx r (some a) port pre 0 items (openAcc c r a items s6)

/-- Sending blocks to a station as one RDMA WRITE of their images (R405). -/
def stnPut (c : CoreId) (d : Desc) (l : ListSet) (k : Ctl) (rep : Nat) (os : List Opd) (src : BitVec 56) (n : Nat)
    (dva : BitVec 56) (s : State) : State :=
  let handle := bits dva.toNat 40 12
  let off := dva.toNat % 2 ^ 40
  match stnFault s d.ctx handle off (2184 * n) .write with
  | some code => engFault c .xce code (if code = fcRegion then 1 else 0) dva.toNat s
  | none =>
    match resolveAll c d.ctx .read 0 (blockVas src n) s with
    | (s1, .fault code det a) => engFault c .xce code det a s1
    | (s1, .absent page) => stallOn c .xce d.ctx page s1
    | (s1, .all ss) =>
      match fetchAll d.ctx ss s1 with
      | (s2, .bad p) => corruptFault c .xce src.toNat p s2
      | (s2, .ok bs) =>
        issue c .xce d l k rep none os s2 fun s3 =>
          let (s4, pre) := crossReads c d.ctx ss bs none s3
          let (s5, r) := newRpt c s4
          let h := handleOf (htBytes s handle)
          match coreSend c d.ctx h 0 (h.rva + off) (2184 * n) (bs.flatMap blkImage) (.coreWrite c) pre s5 with
          | (s6, some id) => pendAdd c ⟨d.ctx, .xce, r, none, .station id⟩ s6
          | (s6, none) => s6

/-- XPUT (R191, R194). -/
def execXput (c : CoreId) (s : State) : Out :=
  .next (onRepeat c .xce 0x40 s fun d l k rep op =>
    match op with
    | .xput src dst n accum strm seqp =>
      let sva := k.opAddr src
      let dva := k.opAddr dst
      match firstFault [checkBlocks s c anyLocal 0 sva n, checkBlocks s c putRegions 1 dva n] with
      | some (code, det, a) => engFault c .xce code det a s
      | none =>
        if isStn dva && !accum then stnPut c d l k rep [src, dst] sva n dva s
        else
          let run := if accum then some (accRun s c d k rep strm seqp n) else none
          sendRepeat c d l k rep [src, dst] 0 sva n dva d.ctx
            (resolveAll c d.ctx (if accum then .accum else .write) 1 (blockVas dva n)) run none s
    | _ => s)

/-- Regions of a destination read in the target's own map (Table 5.5). -/
def farDst : Allowed := { stk := true, und := true, leaf := true }

/-- The check of such a destination at issue. -/
def farCheck (pos : Nat) (va : BitVec 56) : Option IssueFault :=
  if va.toNat % 2048 ≠ 0 then some (fcAlign, pos, va.toNat)
  else
    match regionOf va with
    | some (.stk ..) => none
    | some (.und ..) => none
    | some (.leaf false _ _) => none
    | _ => some (fcRegion, pos, va.toNat)

/-- The destination of a SHIFT or PERMUTE in this package itself: translated under RCTX (R192); a fault counts as an ACK
of STATUS 4. -/
def ownDst (c : CoreId) (want : Want) (va : BitVec 56) (n : Nat) : Dsts := fun s =>
  resolveAll c (asCtx (rd s fRctx 0)) want 1 (blockVas va n) s

/-- The destination of a SHIFT or PERMUTE in another package. -/
def otherDst (tgt : Coord) (va : BitVec 56) (n : Nat) : Dsts := fun s =>
  (s, .all ((blockVas va n).map fun v => .remote (v.toNat / 2 ^ 52) tgt.1 tgt.2.1 tgt.2.2 (v.toNat % 2 ^ 52)))

/-- SHIFT (R192). -/
def execShift (c : CoreId) (s : State) : Out :=
  .next (onRepeat c .xce 0x42 s fun d l k rep op =>
    match op with
    | .shift src dst n axis accum strm seqp =>
      let sva := k.opAddr src
      let dva := k.opAddr dst
      match firstFault [checkBlocks s c anyLocal 0 sva n, firstFault ((blockVas dva n).map (farCheck 1))] with
      | some (code, det, a) => engFault c .xce code det a s
      | none =>
        let tgt := neighbour s axis
        let run := if accum then some (accRun s c d k rep strm seqp n) else none
        let dsts := if tgt = ownCoord s then ownDst c (if accum then .accum else .write) dva n else otherDst tgt dva n
        sendRepeat c d l k rep [src, dst] 0 sva n dva (asCtx (rd s fRctx 0)) dsts run (some axis) s
    | _ => s)

/-- A PERMUTE table entry (Table 5.15). -/
structure PermEnt where
  dst  : BitVec 56
  ofs  : Nat
  nblk : Nat
  tgt  : Coord
  acc  : Bool
  good : Bool
deriving DecidableEq, Repr

/-- Reading a PERMUTE entry; `good` says that its coordinates lie in the torus and its reserved fields are zero.
(DEDUCED, log 33) -/
def permEnt (s : State) (b : Bytes) : PermEnt where
  dst := BitVec.ofNat 56 (fieldAt b 0 7)
  ofs := fieldAt b 8 4
  nblk := fieldAt b 12 2
  tgt := (fieldAt b 14 1, fieldAt b 15 1, fieldAt b 16 1)
  acc := bit (fieldAt b 17 1) 0
  good := inTorus s (fieldAt b 14 1) (fieldAt b 15 1) (fieldAt b 16 1) && fieldAt b 7 1 == 0 && fieldAt b 17 1 / 2 == 0
    && allZero (slice b 18 14) && fieldAt b 12 2 ≤ 4096

/-- PERMUTE (R193). (DEDUCED, log 33; DEDUCED, log 96) -/
def execPermute (c : CoreId) (s : State) : Out :=
  .next (onRepeat c .xce 0x43 s fun d l k rep op =>
    match op with
    | .permute tbl src strm seqp =>
      let tva := k.opAddr tbl
      match firstFault [checkOpd s c anyLocal 32 0 tva, checkOpd s c anyLocal 2048 1 (k.opAddr src)] with
      | some (code, det, a) => engFault c .xce code det a s
      | none =>
        match resolve c d.ctx .read 0 tva s with
        | (s1, .fault code det) => engFault c .xce code det tva.toNat s1
        | (s1, .absent page) => stallOn c .xce d.ctx page s1
        | (s1, .here p off) =>
          match blkFetch d.ctx p s1 with
          | (s2, .bad) => corruptFault c .xce tva.toNat p s2
          | (s2, .ok tb) =>
            let e := permEnt s2 (slice tb.pay off 32)
            let sva := k.opAddr src + BitVec.ofNat 56 (e.ofs * 2048)
            if !e.good then engFault c .xce fcPermEntry k.rep tva.toNat s2
            else
              match firstFault [checkBlocks s2 c anyLocal 1 sva e.nblk, firstFault ((blockVas e.dst e.nblk).map (farCheck 2))] with
              | some (code, det, a) => engFault c .xce code det a s2
              | none =>
                let run := if e.acc then some (accRun s2 c d k rep strm seqp 4096) else none
                let dsts := if e.tgt = ownCoord s2 then ownDst c (if e.acc then .accum else .write) e.dst e.nblk
                  else otherDst e.tgt e.dst e.nblk
                sendRepeat c d l k rep [tbl, src] 1 sva e.nblk e.dst (asCtx (rd s2 fRctx 0)) dsts run none s2
        | (s1, _) => s1
    | _ => s)

/-! ### XGET and LFETCH (R190, R191) -/

/-- Regions of an XGET's source (Table 5.5: any readable region). -/
def getRegions : Allowed := { stk := true, und := true, leaf := true, acc := true, remote := true, stn := true }

/-- The places of a list of targets. -/
def placesOf (ts : List Target) : List Loc := ts.filterMap fun t => match t with | .here l _ => some l | _ => none

/-- Reading a station's images into places as one RDMA READ (R405). -/
def stnGet (c : CoreId) (e : Engine) (d : Desc) (l : ListSet) (k : Ctl) (rep : Nat) (os : List Opd) (sva : BitVec 56)
    (dst : List Loc) (s : State) : State :=
  let handle := bits sva.toNat 40 12
  let off := sva.toNat % 2 ^ 40
  let n := 2184 * dst.length
  match stnFault s d.ctx handle off n .read with
  | some code => engFault c e code 0 sva.toNat s
  | none =>
    issue c e d l k rep none os s fun s1 =>
      let (s2, r) := newRpt c s1
      let h := handleOf (htBytes s handle)
      match coreSend c d.ctx h 2 (h.rva + off) n [] (.coreRead c d.ctx dst) none s2 with
      | (s3, some id) => noteFetch c e r k (pendAdd c ⟨d.ctx, e, r, none, .station id⟩ s3)
      | (s3, none) => s3

/-- Taking blocks in: from this package as plain writes, from other packages by READ_REQs, each with its landing place. -/
def takeBlocks (c : CoreId) (ctx : CtxId) (r : Nat) : List (BitVec 56 × Target × Loc) → List Blk → State → State
  | (_, .remote reg x y z off, p) :: l, bs, s =>
    let (s1, id) := openTxn ⟨c, ctx, kReadReq, (x, y, z), remoteAddr reg off, some p, collEpoch s c, none, none, none, none, false, 0⟩ s
    takeBlocks c ctx r l bs (pendAdd c ⟨ctx, .xce, r, none, .fabric id⟩ s1)
  | (va, .here q _, p) :: l, b :: bs, s =>
    let (s1, pre) := rideRead c ctx q (rideBlock (q.addr 0) b) s
    takeBlocks c ctx r l bs (putBlock c .xce ctx r va.toNat p b pre s1)
  | _ :: l, bs, s => takeBlocks c ctx r l bs s
  | [], _, s => s

/-- XGET (R191). -/
def execXget (c : CoreId) (s : State) : Out :=
  .next (onRepeat c .xce 0x41 s fun d l k rep op =>
    match op with
    | .xget src dst n =>
      let sva := k.opAddr src
      let dva := k.opAddr dst
      match firstFault [checkBlocks s c getRegions 0 sva n, checkBlocks s c getDst 1 dva n] with
      | some (code, det, a) => engFault c .xce code det a s
      | none =>
        match resolveAll c d.ctx .write 1 (blockVas dva n) s with
        | (s1, .fault code det a) => engFault c .xce code det a s1
        | (s1, .absent page) => stallOn c .xce d.ctx page s1
        | (s1, .all ds) =>
          if isStn sva then stnGet c .xce d l k rep [src, dst] sva (placesOf ds) s1
          else
            match resolveAll c d.ctx .read 0 (blockVas sva n) s1 with
            | (s2, .fault code det a) => engFault c .xce code det a s2
            | (s2, .absent page) => stallOn c .xce d.ctx page s2
            | (s2, .all ss) =>
              match fetchAll d.ctx ss s2 with
              | (s3, .bad p) => corruptFault c .xce sva.toNat p s3
              | (s3, .ok bs) =>
                issue c .xce d l k rep none [src, dst] s3 fun s4 =>
                  let (s5, r) := newRpt c s4
                  noteFetch c .xce r k (takeBlocks c d.ctx r ((blockVas dva n).zip (ss.zip (placesOf ds))) bs s5)
    | _ => s)

/-- Regions of LFETCH's source (Table 5.5). -/
def fetchRegions : Allowed := { stk := true, und := true, leaf := true, acc := true, stn := true }

/-- Landing blocks in the core's own leaf store. -/
def landLeaf : List Loc → List Blk → State → State
  | l :: ls, b :: bs, s => landLeaf ls bs (wakeRange (l.addr 0) 2048 (blkLand l b s))
  | _, _, s => s

/-- An LDE read of a station, or an LFETCH's read of the other half, is outstanding. (DEDUCED, log 34) -/
def ldeReading (x : Core) : Bool :=
  x.pend.any fun p => p.eng == .lde && match p.op with | .station _ => true | .put .. => true | _ => false

/-- The blocks of an LFETCH repeat that reads some of them from the other half: writes of the core's own leaf store that wait for the
ride and land in list order (R28, R190). (DESIGN CHOICE, log 97) -/
def leafLater (c : CoreId) (ctx : CtxId) (r : Nat) (pre : Option Nat) : List Loc → List Blk → State → State
  | l :: ls, b :: bs, s => leafLater c ctx r pre ls bs (pendAdd c ⟨ctx, .lde, r, pre, .put l b⟩ s)
  | _, _, s => s

/-- What an LFETCH repeat does with its blocks: into leaf store at once, or once the ride has brought them. -/
def leafTake (c : CoreId) (ctx : CtxId) (k : Ctl) (ss : List Target) (ds : List Loc) (bs : List Blk) (s : State) : State :=
  match crossReads c ctx ss bs none s with
  | (s1, none) => landLeaf ds bs s1
  | (s1, some id) =>
    let (s2, r) := newRpt c s1
    noteFetch c .lde r k (leafLater c ctx r (some id) ds bs s2)

/-- LFETCH (R190): blocks into the own leaf store, in list order; blocks read ahead are used where they are held. It feeds no MXE repeat, so
its faults and stalls delay no cut (R149). (DEDUCED, log 34) -/
def execLfetch (c : CoreId) (s : State) : Out :=
  .next (onRepeat c .lde 0x33 s fun d l k rep op =>
    match op with
    | .lfetch src dst n =>
      let sva := k.opAddr src
      let dva := k.opAddr dst
      if ldeReading (core s c) || aheadOnWay s (core s c) k sva then s
      else
        match firstFault [checkBlocks s c fetchRegions 0 sva n, checkBlocks s c { ownLeaf := true } 1 dva n] with
        | some (code, det, a) => engFault c .lde code det a s
        | none =>
          match resolveAll c d.ctx .write 1 (blockVas dva n) s with
          | (s1, .fault code det a) => engFault c .lde code det a s1
          | (s1, .absent page) => stallOn c .lde d.ctx page s1
          | (s1, .all ds) =>
            if isStn sva then
              match aheadFor (core s1 c) k sva with
              | some a => issue c .lde d l k rep none [src, dst] s1 fun s2 =>
                  landLeaf (placesOf ds) a.blks (modCore c (fun x => { x with ahead := aheadLeft x k }) s2)
              | none => stnGet c .lde d l k rep [src, dst] sva (placesOf ds) (modCore c (fun x => { x with ahead := aheadLeft x k }) s1)
            else
              match resolveAll c d.ctx .read 0 (blockVas sva n) s1 with
              | (s2, .fault code det a) => engFault c .lde code det a s2
              | (s2, .absent page) => stallOn c .lde d.ctx page s2
              | (s2, .all ss) =>
                let (s3, r) := match aheadFor (core s2 c) k sva with
                  | some a => (s2, FetchedAll.ok a.blks)
                  | none => fetchAll d.ctx ss s2
                match r with
                | .bad p => corruptFault c .lde sva.toNat p s3
                | .ok bs =>
                  issue c .lde d l k rep none [src, dst] s3 fun s4 =>
                    leafTake c d.ctx k ss (placesOf ds) bs (modCore c (fun x => { x with ahead := aheadLeft x k }) s4)
    | _ => s)

/-! ### Run-ahead (R260 to R262) -/

/-- Reading a station's images ahead (R260): the RDMA READ is all that another party sees; where the access would fault, nothing is sent. -/
def stnAhead (c : CoreId) (d : Desc) (k : Ctl) (va : BitVec 56) (n : Nat) (s : State) : State :=
  let handle := bits va.toNat 40 12
  let off := va.toNat % 2 ^ 40
  let h := handleOf (htBytes s handle)
  if (stnFault s d.ctx handle off (2184 * n) .read).isSome then s
  else
    match coreSend c d.ctx h 2 (h.rva + off) (2184 * n) [] (.aheadRead c) none s with
    | (s1, some id) => modCore c (fun y => { y with ahead := y.ahead ++ [⟨k.pc, k.rep, k.chunk, va, [], some id, []⟩] }) s1
    | (s1, none) => s1

/-- RUN_AHEAD_READ (R260 to R262): one repeat ahead is read; anything that would raise or count leaves no trace but the
translation caches. (DEDUCED, log 30) -/
def execRunAheadRead (c : CoreId) (s : State) : Out :=
  let x := core s c
  .next (match x.run with
    | none => s
    | some (d, l) =>
      if x.forced || x.ldeE.wait.isSome || 8 ≤ x.ahead.length then s
      else
        match lookAhead x d l 8 x.ldeE.ctl [] with
        | none => s
        | some (k, va, n, dsts) =>
          let vas := unitVas va 2048 n
          if isStn va then stnAhead c d k va n s
          else if (checkUnits s c anyLocal 2048 0 vas).isSome then s
          else
            match resolveAll c d.ctx .read 0 vas s with
            | (s1, .all ts) =>
              if aheadWaits s1 c dsts ts then s1
              else
                match peekAll s1 d.ctx ts with
                | some bs =>
                  modCore c (fun y => { y with ahead := y.ahead ++ [⟨k.pc, k.rep, k.chunk, va, pagesOf s vas, none, bs⟩] }) s1
                | none => s1
            | (s1, _) => s1)

/-! ### WRITE_ACCEPTED (R31, R129, R249, R437) -/

/-- A VXE write of part of an understorey block: merged, its tag formed (R437). -/
def patchBlock (ctx : CtxId) (l : Loc) (off : Nat) (pay : Bytes) (exps : List (Nat × Byte)) (fmt : Nat) (s : State) : State :=
  let b := blkStored s l
  let p := splice b.pay off pay
  let e := cleanSide fmt (exps.foldl (fun t x => t.set x.1 x.2) b.side)
  blkStore l ⟨p, e, formTag fmt (genOf s ctx) l.term p e⟩ s

/-- Landing a whole block at its place: poison lifted, watchers woken. -/
def landPut (l : Loc) (b : Blk) (s : State) : State :=
  let s1 := blkLand l b s
  let s2 := match l with
    | .stk h n => poisonDel h n s1
    | _ => s1
  wakeRange (l.addr 0) 2048 s2

/-- The place a pending plain write goes to. -/
def putPlace : POp → Option Loc
  | .put l _ => some l
  | .patch l _ _ _ _ => some l
  | _ => none

/-- An earlier write of the core to the same place has not landed. (DEDUCED, log 27) -/
def putBefore (x : Core) (k : Nat) (l : Loc) : Bool := (x.pend.take k).any fun p => putPlace p.op == some l

/-- The home of a place has taken a write: its acceptance returns to the issuing engine, over the ride in the escape class where that is
of the other half (R564). -/
def acceptBack (c : CoreId) (k : Nat) (l : Loc) (s : State) : State :=
  match rideBack l.half c s with
  | (s1, none) => dropPend c k s1
  | (s1, some id) => modPend c k (fun p => { p with ride := some id, op := .landed }) s1

/-- WRITE_ACCEPTED (R129, R168, R564): a plain write that has arrived lands, and its acceptance returns; one that has come back over the
ride ends the operation. (DEDUCED, log 27) -/
def execWriteAccepted (c : CoreId) (k : Nat) (s : State) : Out :=
  .next (match (core s c).pend[k]? with
    | none => s
    | some p =>
      if !rideArrived s p.ride then s
      else
        match p.op with
        | .put l b => if putBefore (core s c) k l then s else acceptBack c k l (coreAsk c p.ctx .write none l (landPut l b s))
        | .patch l off pay exps fmt =>
          if putBefore (core s c) k l then s
          else acceptBack c k l (wakeRange (l.addr off) pay.length (patchBlock p.ctx l off pay exps fmt s))
        | .landed => dropPend c k s
        | _ => s)

end Sys2Proof.Machine
end

