-- ==== Sys2Proof/Machine/Outside.lean ====
section
/-! DEFINITION. What the device shows outside: lands (spec/14 R471, spec/18 R548), completions of job and query rings
(spec/12 R424, spec/10 R341), the serving record, the ends of queries, and PEER_LOST (spec/11 R394, R395). -/

namespace Sys2Proof.Machine

/-! ### Job rings (R416, R424, R432) -/

/-- The handle entry of a job ring. -/
def ringHandle (s : State) (ring : Nat) : Nat := rd s fJrCtlHandle ring

/-- A job ring's submitter can be reached: the ring has not stopped and its entry is live. -/
def ringUp (s : State) (ring : Nat) : Bool :=
  let h := handleOf (htBytes s (ringHandle s ring))
  !s.ringHeld.contains ring && h.valid && !h.bad

/-- Sending one job completion: by WRITE with immediate SEQ, or by a PCIe write and MSI-X vector n (R424). -/
def cplSend (ring seq : Nat) (b : Bytes) (s : State) : State :=
  let k := tget s.cplCount ring 0
  let n := 2 ^ (rd s fLogEnt ring + 1)
  let c := slice b 0 8 ++ toLe 1 (bnat (k / n % 2 == 0)) ++ b.drop 9
  let hd := ringHandle s ring
  let sp := (handleOf (htBytes s hd)).port == 2
  let (s1, _) := stnSend hd (rd s fCplOfs ring + 32 * (k % n)) (if sp then 0 else 1) 32 c seq .report s
  let s2 := { s1 with cplCount := tset s1.cplCount ring (k + 1) }
  if sp then raiseMsix ring s2 else s2

/-- Sending the completions that have waited for their ring. (DESIGN CHOICE, log 40; DEDUCED, log 88) -/
def cplFlush (ring : Nat) (s : State) : State :=
  if ringUp s ring then
    let mine := s.cplWait.filter fun c => c.1 == ring
    mine.foldl (fun t c => cplSend ring c.2.1 c.2.2 t) { s with cplWait := s.cplWait.filter fun c => c.1 != ring }
  else s

/-- Event codes of Table 12.7. -/
def evStarted : Nat := 1
/-- ENDED -/
def evEnded : Nat := 2
/-- REJECTED -/
def evRejected : Nat := 3
/-- Status codes of Table 12.7. -/
def stOk : Nat := 0
/-- BAD_DESCRIPTOR -/
def stBad : Nat := 1
/-- LOAD_FAULT -/
def stLoad : Nat := 2
/-- TORUS_MISWIRE -/
def stMiswire : Nat := 3
/-- PEER_LOST -/
def stPeer : Nat := 4
/-- SKIP_LIMIT -/
def stSkip : Nat := 5
/-- CANCELLED -/
def stCancelled : Nat := 6
/-- DEVICE_RETIRED -/
def stRetired : Nat := 7
/-- CONTEXT_FAULT -/
def stCtxFault : Nat := 8
/-- QUEUE_FULL -/
def stFull : Nat := 9

/-- A job completion (Table 12.7), sent or kept until its ring can take it. -/
def jobCpl (ring : Nat) (desc : Bytes) (event status detail : Nat) (s : State) : State :=
  let b := slice desc 0 4 ++ slice desc 6 2 ++ toLe 1 event ++ toLe 1 status ++ zeros 8 ++ toLe 8 s.time ++ toLe 4 detail
    ++ slice desc 108 4
  cplFlush ring { s with cplWait := s.cplWait ++ [(ring, fieldAt desc 0 4, b)] }

/-! ### The serving record (Tables 10.1 to 10.3) -/

/-- Time in ps. -/
def nowPs (s : State) : Nat := s.time * 1250

/-- A query ring record (Table 10.3). -/
structure RingRec where
  va      : Nat
  entries : Nat
  port    : Nat
  admitBy : Nat
  lane    : Nat
  rtt     : Nat
  qpn     : Nat
  cpl     : Nat
  cplEnt  : Nat
deriving DecidableEq, Repr

/-- The record of ring n. -/
def svRing (v : Serve) (n : Nat) : RingRec :=
  let b := slice v.rcd (64 + 64 * n) 64
  ⟨fieldAt b 0 8, fieldAt b 8 2, fieldAt b 10 1, fieldAt b 11 1, fieldAt b 12 4, fieldAt b 16 4, fieldAt b 20 3,
    fieldAt b 24 8, fieldAt b 32 2⟩

/-- NPROG, NRING, FWD_LSID, PUB_LSID. -/
def svNprog (v : Serve) : Nat := fieldAt v.rcd 4 1
/-- NRING -/
def svNring (v : Serve) : Nat := fieldAt v.rcd 5 1
/-- FWD_LSID -/
def svFwd (v : Serve) : Nat := fieldAt v.rcd 12 2
/-- PUB_LSID -/
def svPub (v : Serve) : Nat := fieldAt v.rcd 14 2
/-- SLOT_OFS of an epoch's weight slot. -/
def svSlot (v : Serve) (epoch : Nat) : Nat := fieldAt v.rcd (32 + 4 * (epoch % 2)) 4
/-- STAGE_OFS -/
def svStage (v : Serve) : Nat := fieldAt v.rcd 40 4

/-- A query ring's life. -/
def qring (v : Serve) (n : Nat) : QRing := tget v.rings n QRing.reset

/-- Changing serving. -/
def modServe (f : Serve → Serve) (s : State) : State :=
  match s.serve with
  | some v => { s with serve := some (f v) }
  | none => s

/-- Changing a query ring. -/
def modQring (n : Nat) (f : QRing → QRing) (s : State) : State :=
  modServe (fun v => { v with rings := tset v.rings n (f (qring v n)) }) s

/-- The queries of a grove. -/
def queriesOf (v : Serve) (g : Nat) : List Query := tget v.queries g []

/-- Changing the queries of a grove. -/
def modQueries (g : Nat) (f : List Query → List Query) (s : State) : State :=
  modServe (fun v => { v with queries := tset v.queries g (f (queriesOf v g)) }) s

/-- A query invocation of a number stands on a core, queued, taken or running. -/
def hasInv (x : Core) (inv : BitVec 32) (ctx : Option CtxId) : Bool :=
  let is (d : Desc) : Bool := d.invSeq == inv && some d.ctx == ctx
  x.queue.any is || (match x.taken with | some (d, _) => is d | none => false)
    || (match x.run with | some (d, _) => is d | none => false)

/-- A core stopped in the middle of an invocation that is given up: idle, nothing saved. (DEDUCED, log 43) -/
def abandonCore (x : Core) : Core :=
  { x with
    run := none
    forced := false
    late := false
    stopped := []
    mxeE := Eng.reset
    vxeE := Eng.reset
    ldeE := Eng.reset
    xceE := Eng.reset
    mxe := Mxe.reset
    vq := []
    vred := none
    deliv := []
    rewinds := []
    ahead := []
    pend := []
    fetches := []
    accRpts := []
    mons := x.mons.map fun m => match m.st with | .active _ => { m with st := .warm } | _ => m }

/-- Giving up the invocations of a query on its grove. (DEDUCED, log 43) -/
def dropInv (g : Nat) (inv : BitVec 32) (s : State) : State :=
  (groveCores g).foldl (fun t c => modCore c (fun x =>
    let x1 := { x with
      queue := x.queue.filter fun d => !(d.invSeq == inv && some d.ctx == s.sctx)
      saved := x.saved.filter fun r => !(r.kind == 2 && r.invSeq == inv && some r.ctx == s.sctx)
      taken := match x.taken with
        | some (d, l) => if d.invSeq = inv ∧ some d.ctx = s.sctx then none else some (d, l)
        | none => none }
    if runsInv x inv s.sctx then abandonCore x1 else x1) (noCut c t)) s
where
  /-- A core that gives up its invocation has no cut left to save. -/
  noCut (c : Nat) (t : State) : State :=
    match s.sctx with
    | some ctx => if runsInv (core t c) inv s.sctx then modCtx ctx (fun y => { y with cuts := y.cuts.filter (· != c) }) t else t
    | none => t

/-- Clearing one half's monitor entry of a descriptor (R469). -/
def monClear (h ring n : Nat) (s : State) : State :=
  { s with monitors := s.monitors.filter fun e => !(e.half == h && e.ring == ring && e.n == n) }

/-- Clearing the monitors' entries of a descriptor: HALF_0's at once, HALF_1's when the event has crossed the ride in the escape class
(R469). -/
def disarm (ring n : Nat) (s : State) : State :=
  if s.monitors.any (fun e => e.ring == ring && e.n == n) || s.rideNext.any (fun r => match r.act with | .monArm k _ _ _ => k == ring | _ => false) then
    let (s1, x) := rideSend 0 rideEscape (rideWord ring n) (monClear 0 ring n s)
    rideWait x (.monClear ring n) s1
  else s

/-- A query completion (Table 10.5), written at its entry on the ring's queue pair (R341). -/
def queryCpl (ring n tag epoch status outcome runner tdb : Nat) (s : State) : State :=
  match s.serve with
  | none => s
  | some v =>
    let r := svRing v ring
    let k := (qring v ring).cpls
    let ent := max r.cplEnt 1
    let b := toLe 4 tag ++ toLe 4 epoch ++ toLe 1 status ++ toLe 1 (bnat (k / ent % 2 == 0) + 2 * outcome) ++ toLe 2 runner
      ++ toLe 4 (min ((nowPs s - tdb) / 1000) 0xFFFFFFFF)
    let h := handleOf (htBytes s (bits r.cpl 40 12))
    let use : RdmaFor := if status = 0 ∨ status = 8 then .result ring n else .report
    let (s1, _) := rdmaSend r.port r.qpn 0 (h.rva + r.cpl % 2 ^ 40 + 16 * (k % ent)) h.rkey 16 b 0 use s
    disarm ring n (modQring ring (fun q => { q with cpls := k + 1 }) s1)

/-- The distinct descriptors of a list of queries. -/
def queryIds (l : List Query) : List (Nat × Nat) := (l.map fun q => (q.ring, q.n)).dedup

/-- Ending queries as UNDELIVERED: their invocations are given up, their monitor entries cleared, each counted once
(R356, R422, R423). (DEDUCED, log 43) -/
def undeliver (p : Query → Bool) (s : State) : State :=
  match s.serve with
  | none => s
  | some v =>
    let gone := v.queries.flatMap fun e => (e.2.filter p).map fun q => (e.1, q)
    let ids := queryIds (gone.map (·.2))
    let s1 := gone.foldl (fun t e => dropInv e.1 e.2.inv t) s
    let s2 := ids.foldl (fun t i => disarm i.1 i.2 t) (bump fUndelivered 0 ids.length s1)
    modServe (fun v => { v with queries := v.queries.map fun e => (e.1, e.2.filter fun q => !p q) }) s2

/-- Invalidating the handle entries of a queue pair, or of the steward port (R407). -/
def dropHandles (p : Handle → Bool) (s : State) : State :=
  (List.range 4096).foldl (fun t n =>
    let b := htBytes t n
    let h := handleOf b
    if h.valid && p h then htPut n (toLe 1 (fieldAt b 0 1 - 1) ++ b.drop 1) t else t) s

/-! ### Contexts and jobs end -/

/-- The operations of a context on outside memory and in the fabric. -/
def ctxOps (s : State) (ctx : CtxId) : List Nat :=
  s.cores.flatMap fun e => e.2.pend.filterMap fun p =>
    match p.op with | .station id => if p.ctx = ctx then some id else none | _ => none

/-- A core from which a context is removed: its invocations, records and data go; leaf store and ACC read zero. -/
def purgeCore (ctx : CtxId) (c : Nat) (s : State) : State :=
  let x := core s c
  let x1 := { x with
    queue := x.queue.filter fun d => d.ctx != ctx
    saved := x.saved.filter fun r => r.ctx != ctx
    resident := x.resident.filter fun l => l.ctx != ctx
    taken := match x.taken with | some (d, l) => if d.ctx = ctx then none else some (d, l) | none => none }
  let x2 := if runsCtx x ctx then abandonCore x1
    else { x1 with
      pend := x1.pend.filter fun p => p.ctx != ctx
      accRpts := x1.accRpts.filter fun r => r.strm / 2 ^ 13 != ctx.val }
  let s1 := setCore c x2 s
  if x.owner = some ctx then clearStores (asCore c) s1 else s1

/-- Destroying a context (R257): its invocations, records, accumulates, transfers, restores and translations go with it.
`keep` leaves its page tables for held memory (R397). (DEDUCED, log 42) -/
def destroyCtx (keep : Bool) (ctx : CtxId) (s : State) : State :=
  let ids := ctxOps s ctx
  let s1 := (s.cores.map (·.1)).foldl (fun t c => purgeCore ctx c t) s
  let dead := (s1.txns.filter fun e => e.2.ctx == ctx).map (·.1)
  let s2 := { s1 with
    rdma := s1.rdma.filter fun o => !ids.contains o.id
    txns := s1.txns.filter fun e => e.2.ctx != ctx
    inject := s1.inject.map fun e => (e.1, e.2.filter fun n => !dead.contains n)
    restores := s1.restores.map fun e => (e.1, e.2.filter fun r => r.ctx != ctx)
    dies := s1.dies.map fun e => (e.1, { e.2 with
      admitted := e.2.admitted.filter fun m => m.ctx != ctx
      floorsIn := e.2.floorsIn.filter fun f => f.ctx != ctx
      job := match e.2.job with | some j => if j.ctx = ctx then none else some j | none => none })
    groves := s1.groves.map fun e => (e.1, { e.2 with
      quiet := e.2.quiet.filter fun q => q.1 != ctx
      tlb := { small := e.2.tlb.small.filter fun t => t.ctx != ctx
               large := e.2.tlb.large.filter fun t => t.ctx != ctx
               ptrs := e.2.tlb.ptrs.filter fun t => t.ctx != ctx } })
    accs := s1.accs.filter fun e => e.1 % 16 != ctx.val
    ctxs := tset s1.ctxs ctx Ctx.reset }
  if keep then s2
  else wr fPtRootEn (3 * ctx.val) 0 (wr fPtRootEn (3 * ctx.val + 1) 0 (wr fPtRootEn (3 * ctx.val + 2) 0 s2))

/-- Ports DARK, TOR_ID invalid (R387, R400, R418). (DEDUCED, log 42) -/
def unbindTorus (s : State) : State :=
  let s1 := (List.range 6).foldl (fun t p =>
    modPort p (fun _ => TorusPort.reset) (wr fTpCtlEn p 0 (wr fState p 0 (wr fWidth p 0 (wr fGroups p 0 t))))) s
  { wr fValid 0 0 s1 with arrived := [], peerLost := false, epochTop := none }

/-- Releasing what a job holds besides its contexts: handles, windows, queue pairs, ports, records; the stack pages too
unless they are held. (DEDUCED, log 42) -/
def releaseJob (j : Job) (s : State) : State :=
  let s1 := (List.range j.nhandle).foldl (fun t n => htPut n (zeros 32) t) s
  let s2 := unbindTorus s1
  { wr fSvCtlEn 0 0 s2 with
    qps := s2.qps.filter fun e => !j.qps.contains e.1
    iws := []
    job := none
    train := none
    serve := none
    sctx := none
    freePg := match s2.hold with | some h => h.top | none => [0, 0]
    freeTbl := match s2.hold with | some h => h.tbl | none => 0 }

/-- Queries that a fault of the serving context has ended and that have no completion yet: an unguarded one is FAILED, a guarded one is
GUARD_ERROR, for no adjudicator can run once the job ends (R354, R360). (DEDUCED, log 43) -/
def endStruck (s : State) : State :=
  match s.serve with
  | none => s
  | some v =>
    let struck := (v.queries.flatMap (·.2)).filter fun q => q.stage == .failed
    let s1 := (queryIds struck).foldl (fun t i =>
      match struck.find? fun q => q.ring == i.1 && q.n == i.2 with
      | none => t
      | some q =>
        let t1 := if q.role = 0 then t else bump fGuardErrors 0 1 (setGuardFault 1 t)
        queryCpl q.ring q.n (fieldAt q.desc 8 4) q.epoch (if q.role = 0 then 7 else 6) 0 0 q.tdb t1) s
    modServe (fun w => { w with queries := w.queries.map fun e =>
      (e.1, e.2.filter fun q => !(queryIds struck).contains (q.ring, q.n)) }) s1

/-! ### The job record (R507) -/

/-- A phase of a training step as the job record gives it. -/
def TPhase.code : TPhase → Nat
  | .between => 0
  | .work => 1
  | .stats => 2
  | .update => 3

/-- The job record that SCH keeps: the job's ring, state and contexts, then the training step's phase, marks and numbers, then the epoch
being published; the spec gives it no layout. (DESIGN CHOICE, log 103) -/
def jobRecord (s : State) : Bytes :=
  let j := match s.job with
    | some j => toLe 1 1 ++ toLe 1 j.ring.val ++ toLe 1 (bnat j.started) ++ toLe 1 (bnat j.adopted.isSome)
        ++ toLe 2 (fieldAt j.desc 6 2) ++ toLe 2 ((j.ctxs.map fun c => 2 ^ c.val).sum)
    | none => zeros 8
  let t := match s.train with
    | some t => toLe 1 t.phase.code ++ toLe 1 (bnat t.again + 2 * bnat t.zeroed + 4 * bnat t.scanned + 8 * bnat t.marked) ++ toLe 1 t.mirror
        ++ toLe 1 t.vote ++ toLe 4 t.runs ++ toLe 8 t.step ++ toLe 8 t.begun ++ toLe 8 (fieldAt t.status 8 8) ++ toLe 4 t.jobSeq
        ++ toLe 4 t.m
    | none => zeros 40
  let e := match s.serve with
    | some v => toLe 4 v.pub ++ toLe 4 v.pubLeft.length ++ toLe 8 s.invCtr
    | none => zeros 16
  j ++ t ++ e

/-- Where SCH keeps the job record: in HALF_0's stack memory, on a page that no context maps. -/
def jobRecBlk : Nat := schBlk 2

/-- SCH writes what has changed of the running job to the job record, before what the change describes takes effect (R507). -/
def jobRecPut (s : State) : State := stkPatch 0 (jobRecBlk * 2048) (jobRecord s) 0 s

/-- The newest update whose jobs over the own shard are all done (R310, R330). -/
def heldStep (s : State) : Nat :=
  match s.train with
  | none => 0
  | some t =>
    let busy := t.phase == .update && fieldAt t.status 18 1 ≤ 1 && t.jobs.any fun j => fieldAt j.desc 0 1 == 3 && j.st != 1
    fieldAt t.status 8 8 - bnat busy

/-- Removing the cells of a range of blocks: they read as zero blocks of format 7. (DEDUCED, log 42) -/
def wipeBlocks (lo hi : Nat) (s : State) : State :=
  { s with mem := s.mem.filter fun c => c.1 < lo * 4096 || hi * 4096 ≤ c.1 }

/-- Held memory is wiped and no longer held; its contexts' tables are gone (R397). -/
def dropHold (h : Hold) (s : State) : State :=
  let wipe (x : Half) (t : State) : State := wipeBlocks (Loc.stk x 0).key ((Loc.stk x 0).key + 1024 * lget h.top x.val 0) t
  let s1 := h.ctxs.foldl (fun (t : State) (c : CtxId) =>
    if (ctxSt t c).live then t
    else wr fPtRootEn (3 * c.val) 0 (wr fPtRootEn (3 * c.val + 1) 0 (wr fPtRootEn (3 * c.val + 2) 0 t))) s
  { wipe 1 (wipe 0 s1) with hold := none }

/-- Ending the running job (R422, R424): every query ends UNDELIVERED, the completion is written, everything the job holds
is released; `held` keeps its memory under R397 and ends an earlier hold. (DESIGN CHOICE, log 40; DEDUCED, log 42) -/
def endJob (status detail : Nat) (held : Bool) (s : State) : State :=
  match s.job with
  | none => s
  | some j =>
    let s1 := undeliver (fun _ => true) (endStruck s)
    let s2 := jobCpl j.ring j.desc (if j.started then evEnded else evRejected) status detail s1
    let s3 := j.ctxs.foldl (fun t c => destroyCtx held c t) s2
    let s4 := if held then { (match s3.hold with | some h => dropHold h s3 | none => s3) with hold := some ⟨fieldAt j.desc 6 2, j.ctxs, s3.time, s3.freePg, s3.freeTbl, heldStep s⟩ } else s3
    jobRecPut (releaseJob j s4)

/-! ### PEER_LOST (R394, R395, R400) -/

/-- Sending ABORT on every UP port but one; the first ABORT of a tag only. -/
def sendAborts (cause : Nat) (origin : Coord) (except : Option Nat) (s : State) : State :=
  let tag := jobTag s
  if s.aborted.contains tag then s
  else
    let arg := toLe 1 cause ++ toLe 1 origin.1 ++ toLe 1 origin.2.1 ++ toLe 1 origin.2.2
    (List.range 6).foldl (fun t p =>
      if portState t p = 3 ∧ some p ≠ except then
        outputXfer (portHalf p) p (vlFor t 0 none p)
          (xferHdr kAbort none tag (ownCoord t) (neighbour t p) 0 arg 0) t
      else t) { s with aborted := s.aborted ++ [tag] }

/-- Credits for the flits of a transfer dropped or taken; an idle flit returns them. -/
def freeCredits (port vl n : Nat) (s : State) : State :=
  portIdle port (modPort port (fun r => { r with freed := lset r.freed vl ((lget r.freed vl 0 + n) % 4096) }) s)

/-- Flits of a received transfer. -/
def Arr.flits (a : Arr) : Nat := if a.blk.isSome then 9 else 1

/-- PEER_LOST (R395): contexts fault 0x30, ABORT goes out, EP_FLOOR rises, further transfers are dropped, PL_STAT is
set. -/
def peerLostOp (cause : Nat) (port : Option Nat) (origin : Coord) (except : Option Nat) (s : State) : State :=
  match s.job with
  | none => s
  | some j =>
    if s.peerLost || !rdb s fValid 0 then s
    else
      let p := port.getD 0xFF
      let s1 := j.ctxs.foldl (fun (t : State) (c : CtxId) =>
        if (ctxSt t c).live then ctxFault c fcPeerLost p (Site.bare 7 0) none t else t) s
      let s2 := sendAborts cause origin except s1
      let s3 := wr fEpFloor 0 (match s2.epochTop with | some e => (e + 1) % 2 ^ 32 | none => rd s2 fEpFloor 0) s2
      let s4 := s3.arrived.foldl (fun t a =>
        if fieldAt a.hdr 9 1 = kAbort then t else freeCredits a.port a.vl a.flits t) s3
      let s5 := wr fOrigin 0 (origin.1 + 16 * origin.2.1 + 256 * origin.2.2)
        (wr fPort 0 p (wr fPlStatCause 0 cause (wr fPeerLost 0 1 s4)))
      { s5 with peerLost := true, arrived := s5.arrived.filter fun a => fieldAt a.hdr 9 1 == kAbort }

end Sys2Proof.Machine
end

