-- ==== Sys2Proof/Machine/MillRing.lean ====
section
/-! DEFINITION. Mill jobs as SCH builds and submits them: descriptors (spec/08 R284), the places of the job rings, jobs of the
training step and their second run (spec/09 R309, R314, R319 to R322, spec/08 R292). -/

namespace Sys2Proof.Machine

/-! ### Descriptors (Table 8.2) -/

/-- An array slot: BASE, USED, WB. -/
def arrSlot (base : Nat) (used wb : Bool) : Nat := base % 2 ^ 28 + bnat used * 2 ^ 28 + bnat wb * 2 ^ 29

/-- BASE of an array slot. -/
def slotBase (a : Nat) : Nat := bits a 0 28
/-- USED of an array slot. -/
def slotUsed (a : Nat) : Bool := bit a 28
/-- WB of an array slot. -/
def slotWb (a : Nat) : Bool := bit a 29

/-- KIND codes. -/
def mkCustom : Nat := 3
/-- SCAN -/
def mkScan : Nat := 4
/-- ZERO -/
def mkZero : Nat := 5

/-- What SCH puts into a mill job descriptor, but for JOB_SEQ. -/
structure MillReq where
  kind   : Nat
  ctx    : CtxId
  flags  : Nat
  nops   : Nat
  start  : Nat
  ngroup : Nat
  arrays : List Nat
  ks     : List Nat
  srbase : Nat
  cprog  : Nat
deriving DecidableEq, Repr

/-- The 128 bytes of a mill job descriptor. -/
def MillReq.bytes (r : MillReq) (seq : Nat) : Bytes :=
  toLe 1 r.kind ++ toLe 1 r.ctx.val ++ toLe 1 r.flags ++ toLe 1 r.nops ++ toLe 4 r.ngroup ++ toLe 4 r.start ++ toLe 4 seq
    ++ (List.range 8).flatMap (fun n => toLe 4 (lget r.arrays n 0)) ++ (List.range 16).flatMap (fun n => toLe 4 (lget r.ks n 0))
    ++ toLe 8 r.srbase ++ toLe 4 r.cprog ++ zeros 4

/-! ### Job rings; where SCH puts them is the model's choice -/

/-- The block of the update program that SCH builds. -/
def progBlk : Nat := schBlk 0

/-- Giving every die its job ring and completion ring, both empty. (DESIGN CHOICE, log 41) -/
def placeRings (s : State) : State :=
  (List.range 16).foldl (fun t d =>
    let b := schBlk (8 + 8 * (d % 8))
    wr fMjBase d b (wr fMjTail d (rd t fMjHead d) (wr fMcBase d (b + 4) (wr fMcTail d (rd t fMcHead d) t)))) s

/-- Writing a descriptor at MJ_TAIL of a die and ringing. (DEDUCED, log 53) -/
def mjSubmit (d : Nat) (ctx : CtxId) (b : Bytes) (s : State) : State :=
  let n := rd s fMjTail d
  let s1 := stkPatch (halfOf (d / 8)) ((rd s fMjBase d + n / 16) * 2048 + n % 16 * 128) b (genOf s ctx)
    (unitAsk ctx (.short 128) (.stk (halfOf (d / 8)) (rd s fMjBase d + n / 16)) s)
  wr fMjTail d ((n + 1) % 64) s1

/-! ### Jobs of the training step -/

/-- Changing training. -/
def modTrain (f : Train → Train) (s : State) : State :=
  match s.train with
  | some t => { s with train := some (f t) }
  | none => s

/-- Submitting a job to the eight dies of a half; one over no group is not submitted. -/
def trainSubmit (h : Nat) (r : MillReq) (s : State) : State :=
  match s.train with
  | none => s
  | some t =>
    if r.ngroup = 0 then s
    else
      let b := r.bytes t.jobSeq
      let ds := (List.range 8).map fun k => 8 * h + k
      let s1 := modTrain (fun x => { x with
        jobSeq := (x.jobSeq + 1) % 2 ^ 32
        jobs := x.jobs ++ ds.map fun d => ⟨d, t.jobSeq, b, false, 0, []⟩ }) s
      ds.foldl (fun u d => mjSubmit d t.ctx b u) (jobRecPut s1)

/-- Every job submitted has ended with STATUS 0. -/
def jobsDone (t : Train) : Bool := t.jobs.all fun j => j.st == 1

/-- The descriptor that finishes a job from a die's NEXT (R292). -/
def jobRest (b : Bytes) (next : Nat) : Bytes :=
  let e := fieldAt b 8 4 + fieldAt b 4 4
  splice b 4 (toLe 4 (e - next) ++ toLe 4 next)

/-- Submitting a job of one die again from NEXT. -/
def jobAgain (j : TJob) (second : Bool) (s : State) : State :=
  match s.train with
  | none => s
  | some t =>
    let b := jobRest j.desc (fieldAt j.cpl 12 4)
    modTrain (fun x => { x with jobs := x.jobs.map fun k =>
      if k.die = j.die ∧ k.seq = j.seq then { k with desc := b, second := second, st := 0 } else k }) (mjSubmit j.die t.ctx b s)

/-- Packages of the torus. -/
def ranks (s : State) : Nat := (dims s).1 * (dims s).2.1 * (dims s).2.2

/-- The rank of this package (R306). -/
def ownRank (s : State) : Nat :=
  rd s fX 0 + (dims s).1 * (rd s fY 0 + (dims s).2.1 * rd s fZ 0)

/-- Setting how a training job stands. -/
def jobSt (d seq st : Nat) (cpl : Bytes) (s : State) : State :=
  modTrain (fun x => { x with jobs := x.jobs.map fun k => if k.die = d ∧ k.seq = seq then { k with st := st, cpl := cpl } else k }) s

/-- The shard passes to the buddy when a job has failed twice (R322, R452), and its groups are then among those that RB_ZERO zeroes
(R321); without a buddy the job ends. (DEDUCED, log 49) -/
def shardFails (s : State) : State :=
  match s.train with
  | none => s
  | some t =>
    if ranks s = 1 ∨ fieldAt t.rcd 9 1 = 0 then endJob stCtxFault 0x15 false s
    else if t.expelled.contains (ownRank s) then s
    else modTrain (fun x => { x with expelled := x.expelled ++ [ownRank s], mirror := 0, mirrorOps := [], zeroed := false }) s

/-- KIND of a submitted job. -/
def TJob.kind (j : TJob) : Nat := fieldAt j.desc 0 1

/-- A running SCH takes a completion record of a die (R292, R293, R322). A ZERO job that has failed twice stays undone, so no further step begins
on the package (R321); any other job's part is the new owner's. (DEDUCED, log 49) -/
def trainCpl (d : Nat) (cpl : Bytes) (s : State) : State :=
  let s0 := if schUp s then wr fMcTail d (rd s fMcHead d) s else s
  match schTrain s with
  | none => s0
  | some t =>
    match t.jobs.find? fun j => j.die == d && j.seq == fieldAt cpl 4 4 && j.st == 0 with
    | none => s0
    | some j =>
      match fieldAt cpl 8 1 with
      | 0 => jobSt d j.seq 1 cpl s0
      | 1 => jobSt d j.seq 2 cpl s0
      | _ =>
        if !j.second then jobAgain { j with cpl := cpl } true (jobSt d j.seq 0 cpl s0)
        else if j.kind = mkZero then shardFails (jobSt d j.seq 3 cpl s0)
        else shardFails (modTrain (fun x => { x with jobs := x.jobs.erase j }) s0)

/-- The completion records of a die that SCH has not taken. -/
def mcWaiting (s : State) (d : Nat) : List Bytes :=
  let t := rd s fMcTail d
  (List.range ((rd s fMcHead d + 64 - t) % 64)).map fun i =>
    let n := (t + i) % 64
    stkRead s (halfOf (d / 8)) ((rd s fMcBase d + n / 32) * 2048 + n % 32 * 64) 64

/-- Jobs that a fault of their context stopped are finished once it is cleared (R292). -/
def resumeJobs (ctx : CtxId) (s : State) : State :=
  match s.train with
  | none => s
  | some t =>
    if t.ctx = ctx then (t.jobs.filter fun j => j.st == 2).foldl (fun u j => jobAgain j j.second u) s else s

/-! ### The plan and the shards (R308, R309) -/

/-- Base block of array k in a half. -/
def planBase (t : Train) (k h : Nat) : Nat := fieldAt t.plan (4 * k + 64 * h) 4
/-- GS0 -/
def planGs0 (t : Train) : Nat := fieldAt t.plan 128 4
/-- SS0 -/
def planSs0 (t : Train) : Nat := fieldAt t.plan 132 4
/-- G -/
def trainG (t : Train) : Nat := fieldAt t.rcd 68 4

/-- The first group of a rank's shard: g with floor(g P / G) = r. -/
def shardFirst (g p r : Nat) : Nat := ceilDiv (r * g) p

/-- Groups of a rank's shard. -/
def shardCount (g p r : Nat) : Nat := shardFirst g p (r + 1) - shardFirst g p r

/-- The buddy of a rank. -/
def buddy (p r : Nat) : Nat := (r + p / 2) % p

/-- Groups of WCOPY and RB in a half. -/
def halfGroups (t : Train) (h : Nat) : Nat :=
  let g := trainG t
  let n := min (planGs0 t) g
  if h = 0 then n else g - n

/-- The first block of groups of a mill-layout array from group `i` on. -/
def groupBase (b i : Nat) : Nat := b + 32 * (i / 8)

/-- Binding statistic set 0 of every die to the context and its RB blocks (R314). -/
def bindStats (s : State) : State :=
  match s.train with
  | none => s
  | some t =>
    (List.range 16).foldl (fun u d =>
      let h := d / 8
      let n := halfGroups t h
      let i := 4 * d
      wr fCtx i t.ctx.val (wr fSsCtlEn i (bnat (0 < n)) (wr fIncMask i 0x00FF (wr fFinMask i 0x8000
        (wr fLo i (planBase t 1 h) (wr fHi i (planBase t 1 h + 32 * ceilDiv n 8 - 1) u)))))) s

end Sys2Proof.Machine
end

