-- ==== Sys2Proof/Machine/Jobs.lean ====
section
/-! DEFINITION. Job rings and jobs: START, CANCEL, RING_RESET (spec/12 R416 to R424; spec/09 R307 to R309; spec/10 R331 to
R333; spec/17 R536), and the end of held memory (spec/11 R397). -/

namespace Sys2Proof.Machine

/-! ### Submitter memory and device records -/

/-- One byte of submitter memory. -/
def subByte (mem : Submem) (a : Nat) : Byte :=
  match mem.find? fun c => c.1 ≤ a && a < c.1 + c.2.length with
  | some (o, b) => lget b (a - o) 0
  | none => 0

/-- Bytes of submitter memory at a window offset. -/
def subRead (mem : Submem) (a n : Nat) : Bytes := (List.range n).map fun i => subByte mem (a + i)

/-- The place of a device address under a context, as SCH reads it. -/
def schPlace (ctx : CtxId) (va : Nat) (s : State) : Option (Loc × Nat) :=
  match mappedOf (BitVec.ofNat 56 va) with
  | none => none
  | some (reg, off) =>
    match (walk s ctx reg off).1 with
    | .page e => if pteRes e then some (placeOf reg off e) else none
    | .invalid _ _ => none

/-- SCH reads `k` whole blocks from the block of a device address on. -/
def schBlocks (ctx : CtxId) : Nat → Nat → State → State × Option Bytes
  | 0, _, s => (s, some [])
  | k + 1, va, s =>
    match schPlace ctx va s with
    | none => (s, none)
    | some (l, _) =>
      match blkFetch ctx l (unitAsk ctx .read l s) with
      | (s1, .bad) => (s1, none)
      | (s1, .ok b) =>
        match schBlocks ctx k (va + 2048) s1 with
        | (s2, some r) => (s2, some (b.pay ++ r))
        | (s2, none) => (s2, none)

/-- SCH reads `n` bytes of device memory. -/
def schRead (ctx : CtxId) (va n : Nat) (s : State) : State × Option Bytes :=
  let o := va % 2048
  match schBlocks ctx (ceilDiv (o + n) 2048) (va - o) s with
  | (s1, some b) => (s1, some (slice b o n))
  | (s1, none) => (s1, none)

/-- The format of the block at a device address. -/
def schFmt (ctx : CtxId) (va : Nat) (s : State) : Option Nat := (schPlace ctx va s).map fun p => (blkStored s p.1).fmt

/-- SCH writes one whole block of format 7. -/
def schWrite (ctx : CtxId) (va : Nat) (b : Bytes) (s : State) : State :=
  match schPlace ctx va s with
  | none => s
  | some (l, _) =>
    let pay := slice b 0 2048
    let s1 := blkStore l ⟨pay, zeros 128, formTag 7 (genOf s ctx) l.term pay (zeros 128)⟩ (unitAsk ctx .write l s)
    let s2 := match l with | .stk h n => poisonDel h n s1 | _ => s1
    wakeRange (l.addr 0) 2048 s2

/-! ### Table building (R233 to R235, R419); where SCH puts tables and pages is the model's choice -/

/-- The first table's physical offset in HALF_0. (DESIGN CHOICE, log 41) -/
def tblBase : Nat := 184000 * 2 ^ 21

/-- Stack pages of a half that jobs may take. (DESIGN CHOICE, log 41) -/
def jobPages : Nat := 183000

/-- A fresh zeroed 4 KiB table. (DESIGN CHOICE, log 41) -/
def tblAlloc (ctx : CtxId) (s : State) : State × Nat :=
  let p := tblBase + s.freeTbl * 4096
  let z (b : Nat) (t : State) : State :=
    let l := Loc.stk 0 b
    blkStore l ⟨zeros 2048, zeros 128, formTag 7 (genOf s ctx) l.term (zeros 2048) (zeros 128)⟩ (unitAsk ctx .write l t)
  ({ z (p / 2048 + 1) (z (p / 2048) s) with freeTbl := s.freeTbl + 1 }, p)

/-- The root table of a tree, made when absent. -/
def rootTbl (ctx : CtxId) (reg : Nat) (s : State) : State × Nat :=
  let r := 3 * ctx.val + reg
  if rdb s fPtRootEn r then (s, rd s fRoot r * 256)
  else
    let (s1, p) := tblAlloc ctx s
    (wr fRoot r (p / 256) (wr fRootHalf r 0 (wr fPtRootEn r 1 s1)), p)

/-- The next table below an entry, made when absent. -/
def nextTbl (ctx : CtxId) (table level off : Nat) (s : State) : State × Nat :=
  let e := pteAt s 0 table level off
  if bit e 0 then (s, pteFrame e * 256)
  else
    let (s1, p) := tblAlloc ctx s
    (stkPatch 0 (table + 8 * pteIndex level off) (toLe 8 (3 + p / 256 * 2 ^ 16)) (genOf s ctx) s1, p)

/-- Writing a page entry, with the tables above it. -/
def mapPte (ctx : CtxId) (reg off e : Nat) (s : State) : State :=
  let (s1, t0) := rootTbl ctx reg s
  let (s2, t1) := nextTbl ctx t0 0 off s1
  if reg ≤ 1 then stkPatch 0 (t1 + 8 * pteIndex 1 off) (toLe 8 e) (genOf s ctx) s2
  else
    let (s3, t2) := nextTbl ctx t1 1 off s2
    stkPatch 0 (t2 + 8 * pteIndex 2 off) (toLe 8 e) (genOf s ctx) s3

/-- A page entry. -/
def pteMake (w : Bool) (fmt rclass own frame : Nat) : Nat :=
  1 + 2 + 4 * bnat w + 8 + 16 * own + 256 * fmt + 4096 * rclass + 65536 * frame

/-- Mapping one page of a load entry: a page already mapped keeps its place and takes the later entry's rights.
(DESIGN CHOICE, log 41) -/
def mapPage (ctx : CtxId) (reg page : Nat) (w : Bool) (fmt rclass : Nat) (s : State) : State × Bool :=
  let off := page * (if reg ≤ 1 then 2 ^ 21 else 2 ^ 16)
  match (walk s ctx reg off).1 with
  | .page e => (mapPte ctx reg off (pteMake w fmt rclass (pteOwn e).val (pteFrame e)) s, true)
  | .invalid _ _ =>
    if reg ≤ 1 then
      let n := lget s.freePg reg 0
      if jobPages ≤ n then (s, false)
      else (mapPte ctx reg off (pteMake w fmt rclass reg n) { s with freePg := lset s.freePg reg (n + 1) }, true)
    else if 2 ^ 18 ≤ page ∨ 16 < bits page 8 5 then (s, false)
    else (mapPte ctx 2 off (pteMake w fmt rclass (page / 2 ^ 17) (page % 2 ^ 17)) s, true)

/-- Mapping `k` pages from a page on. -/
def mapPages (ctx : CtxId) (reg : Nat) (w : Bool) (fmt rclass : Nat) : Nat → Nat → State → State × Bool
  | 0, _, s => (s, true)
  | k + 1, page, s =>
    match mapPage ctx reg page w fmt rclass s with
    | (s1, true) => mapPages ctx reg w fmt rclass k (page + 1) s1
    | r => r

/-! ### The load list (R419) -/

/-- Landing one block image of a load at its place (R406, R442): a failing image has no better copy, since every read of
submitter memory in the command gives the same bytes. (DEDUCED, log 29; DESIGN CHOICE, log 41) -/
def loadBlock (ctx : CtxId) (va : Nat) (img : Bytes) (s : State) : State × Bool :=
  match schPlace ctx va s with
  | none => (s, false)
  | some (l, _) =>
    let b := blkOfImage img
    match landCheck b 0 with
    | .failed counted => (dataEvent (some l.unit) (bump fChkFault 0 (if counted then 3 else 0) s), false)
    | .accepted _ _ =>
      let s1 := blkLand l b (unitAsk ctx .write l s)
      ((match l with | .stk h n => poisonDel h n s1 | _ => s1), true)

/-- A zero block of a format at its place (R419). -/
def zeroBlock (ctx : CtxId) (va fmt : Nat) (s : State) : State × Bool :=
  match schPlace ctx va s with
  | none => (s, false)
  | some (l, _) =>
    let s1 := blkStore l ⟨zeros 2048, zeros 128, formTag fmt (genOf s ctx) l.term (zeros 2048) (zeros 128)⟩ (unitAsk ctx .write l s)
    ((match l with | .stk h n => poisonDel h n s1 | _ => s1), true)

/-- Filling `k` blocks. -/
def fillBlocks (ctx : CtxId) (fmt : Nat) (mem : Submem) (src : Nat) : Nat → Nat → Nat → State → State × Bool
  | 0, _, _, s => (s, true)
  | k + 1, i, va, s =>
    match (if src = 0 then zeroBlock ctx va fmt s else loadBlock ctx va (subRead mem (src + 2184 * i) 2184) s) with
    | (s1, true) => fillBlocks ctx fmt mem src k (i + 1) (va + 2048) s1
    | r => r

/-- A load entry is well formed for a job's contexts. (DESIGN CHOICE, log 41) -/
def loadOk (ctxs : List CtxId) (b : Bytes) : Bool :=
  let f := fieldAt b 2 1
  let va := fieldAt b 4 7
  let reg := va / 2 ^ 52
  let n := fieldAt b 12 4
  fieldAt b 0 1 < 16 && ctxs.contains (asCtx (fieldAt b 0 1)) && fieldAt b 1 1 < 4 && fieldAt b 3 1 < 16 && reg ≤ 2
    && va % 2048 == 0 && fieldAt b 11 1 == 0 && allZero (slice b 24 8) && (f ≤ 7 || (f == 15 && fieldAt b 16 8 != 0))
    && (mappedOf (BitVec.ofNat 56 va)).isSome && va % 2 ^ 39 + 2048 * n ≤ 2 ^ 39

/-- One load entry: pages mapped, range filled unless adopted memory holds it. -/
def loadEntry (ctxs : List CtxId) (adopted : Bool) (mem : Submem) (b : Bytes) (s : State) : State × Bool :=
  let ctx := asCtx (fieldAt b 0 1)
  let fl := fieldAt b 1 1
  let va := fieldAt b 4 7
  let reg := va / 2 ^ 52
  let off := va % 2 ^ 39
  let n := fieldAt b 12 4
  let sz := if reg ≤ 1 then 2 ^ 21 else 2 ^ 16
  if !loadOk ctxs b then (s, false)
  else if n = 0 then (s, true)
  else
    match mapPages ctx reg (bit fl 0) (fieldAt b 2 1) (fieldAt b 3 1) ((off + 2048 * n - 1) / sz - off / sz + 1) (off / sz) s with
    | (s1, true) =>
      if bit fl 1 && adopted then (s1, true) else fillBlocks ctx (fieldAt b 2 1) mem (fieldAt b 16 8) n 0 va s1
    | r => r

/-- The load list from entry `i` on; a failure names its entry. -/
def loadList (ctxs : List CtxId) (adopted : Bool) (mem : Submem) (at_ : Nat) : Nat → Nat → State → State × Option Nat
  | 0, _, s => (s, none)
  | k + 1, i, s =>
    match loadEntry ctxs adopted mem (subRead mem (at_ + 32 * i) 32) s with
    | (s1, true) => loadList ctxs adopted mem at_ k (i + 1) s1
    | (s1, false) => (s1, some i)

/-! ### Lists of step 1 (R404, R408, R410, R421, R426, R541) -/

/-- A queue-pair entry (Table 12.6) of a job is well formed. -/
def qpOk (b : Bytes) : Bool :=
  fieldAt b 0 1 ≤ 1 && fieldAt b 1 1 < 8 && fieldAt b 4 1 < 64 && 1 ≤ fieldAt b 5 1 && fieldAt b 5 1 ≤ 31
    && fieldAt b 6 1 < 64 && 0x11 ≤ fieldAt b 7 3 && fieldAt b 7 3 ≤ 0x40F && fieldAt b 19 1 == 0 && allZero (slice b 26 6)
    && allZero (slice b 48 16)

/-- A queue pair made ready-to-send from its entry. -/
def qpOpen (b : Bytes) : Qp := ⟨b, false, fieldAt b 13 3, fieldAt b 16 3, 0, 0, none⟩

/-- An inbound entry (Table 12.3) is well formed (R408, R410). -/
def iwOk (b : Bytes) : Bool :=
  let k := fieldAt b 0 1
  let va := fieldAt b 8 7
  let ok : Bool := match regionOf (BitVec.ofNat 56 va) with
    | some (.stk ..) => true
    | some (.und ..) => true
    | some (.leaf self _ _) => !self
    | some (.acc self _ _) => !self
    | _ => false
  (k == 1 || (k == 2 && va % 2048 == 0)) && fieldAt b 1 1 < 8 && fieldAt b 2 1 < 8 && fieldAt b 3 1 < 16
    && fieldAt b 6 1 < 16 && fieldAt b 7 1 ≤ 16 && fieldAt b 15 1 == 0
    && allZero (slice b 24 8) && ok

/-- A handle entry is pinned (R541). -/
def pinned (s : State) (n : Nat) : Bool :=
  ((List.range 4).any fun r => rdb s fJrCtlEn r && rd s fJrCtlHandle r == n) || (rdb s fBusy 0 && rd s fUpdCtlHandle 0 == n)

/-- An entry of the context records (Table 12.12) is in range (R421). -/
def ctxRecOk (b : Bytes) : Bool :=
  let lo := fieldAt b 16 5 * 2 ^ 16
  let n := fieldAt b 21 2 * 2 ^ 16
  fieldAt b 8 1 ≤ 239 && allZero (slice b 9 7) && fieldAt b 23 1 == 0 && allZero (slice b 26 6)
    && (n == 0 || lo + n ≤ 3 * 2 ^ 52)

/-- Writing a context's entry of the context records into its registers (R421, R536). -/
def ctxRecPut (ctx : CtxId) (b : Bytes) (s : State) : State :=
  wr fKey ctx (fieldAt b 0 8) (wr fSavePg ctx (fieldAt b 8 1) (wr fExtBase ctx (fieldAt b 16 5)
    (wr fExtPages ctx (fieldAt b 21 2) (wr fExtWaitLimit ctx (fieldAt b 24 2) s))))

/-- A context joins a job (R438, R536): GEN advances, counters zero, its tables empty unless held ones are adopted, its
fault queue and free-frame ring placed. (DESIGN CHOICE, log 41; DEDUCED, log 42) -/
def createCtx (adopted : Bool) (ctx : CtxId) (s : State) : State :=
  let n := ctx.val
  let s1 := wr fGen n ((rd s fGen n + 1) % 4096) s
  let s2 := regWrite .acntA n 0 (regWrite .acntB n 0 s1)
  let s3 := if adopted then s2 else regWrite .ptRoot (3 * n) 0 (regWrite .ptRoot (3 * n + 1) 0 (regWrite .ptRoot (3 * n + 2) 0 s2))
  let q := (jobPages + n) * 2 ^ 7
  let s4 := wr fFqBase n q (regWrite .faultQ n 0 (wr fUfBase n (q + 1) (regWrite .ufree n 0 s3)))
  { s4 with ctxs := tset s4.ctxs n { Ctx.reset with live := true } }

/-! ### The training record (R307, R309, R447, R448) -/

/-- The ranges of the training record. -/
def trainRecOk (p : Nat) (b : Bytes) : Bool :=
  let kind := fieldAt b 4 1
  let mmax := fieldAt b 14 2
  fieldAt b 0 4 == 0x54524E52 && 1 ≤ kind && kind ≤ 3 && (fieldAt b 5 1 == 4 || fieldAt b 5 1 == 2) && fieldAt b 6 1 ≤ 2
    && 1 ≤ fieldAt b 7 1 && fieldAt b 7 1 ≤ 15 && fieldAt b 8 1 ≤ 15 && fieldAt b 9 1 ≤ 1 && (fieldAt b 9 1 == 0 || p != 1)
    && 1 ≤ fieldAt b 10 2 && 1 ≤ fieldAt b 12 2 && fieldAt b 12 2 ≤ mmax && mmax ≤ 1024
    && fieldAt b 12 2 ≤ fieldAt b 16 2 && fieldAt b 16 2 ≤ mmax && 1 ≤ fieldAt b 20 4 && 1 ≤ fieldAt b 64 4
    && fieldAt b 88 2 ≤ 256 && (if kind = 3 then 1 ≤ fieldAt b 90 1 && fieldAt b 90 1 ≤ 32 else fieldAt b 90 1 == 0)
    && fieldAt b 91 1 == 0 && allZero (slice b 124 1924)

/-- MECH of the plan block (Table 13.6). -/
def planMech (plan : Bytes) : Nat := fieldAt plan 136 1

/-- The integrity settings of the plan block (Table 13.6, R448). -/
def planOk (p mirror : Nat) (b : Bytes) : Bool :=
  let m := planMech b
  m ≤ 2 && (if m = 1 then 1 ≤ fieldAt b 137 1 && fieldAt b 137 1 ≤ 3 else fieldAt b 137 1 == 0)
    && (if m = 2 then 1 ≤ fieldAt b 138 2 && fieldAt b 138 2 ≤ 1024 else fieldAt b 138 2 == 0)
    && allZero (slice b 140 4) && (m == 0 || mirror == 1) && (m != 2 || 3 ≤ p)

/-- Reading the training record, its plan and the status block, and beginning training: M is M_INIT, statistic sets and mill rings
are bound (R307, R313, R314). (DEDUCED, log 38; DEDUCED, log 48) -/
def trainBegin (ctx : CtxId) (va : Nat) (s : State) : State × Bool :=
  match schRead ctx va 2048 s with
  | (s1, none) => (s1, false)
  | (s1, some r) =>
    if schFmt ctx va s != some 7 || !trainRecOk (ranks s) r then (s1, false)
    else
      match schRead ctx (fieldAt r 116 8) 2048 s1 with
      | (s2, none) => (s2, false)
      | (s2, some p) =>
        if !planOk (ranks s) (fieldAt r 9 1) p then (s2, false)
        else
          match schRead ctx (fieldAt r 72 8) 2048 s2 with
          | (s3, none) => (s3, false)
          | (s3, some b) =>
            let t : Train := {
              rcd := r, plan := p, status := b, ctx := ctx, phase := .between, step := fieldAt b 0 8, begun := 0
              m := fieldAt r 16 2, todo := [], marks := [], again := false, units := 0, samples := 0, marked := false
              lastCode := 0, runs := 0, expelled := [], mirror := 0, mirrorOps := [], zeroed := false, scanned := false
              vote := 0, record := [], jobs := [], jobSeq := 0, ks := [] }
            (bindStats (placeRings { s3 with train := some t }), true)

/-! ### The serving record (R331 to R333, R363) -/

/-- Bits set in the low `n` bits. -/
def popcount (n v : Nat) : Nat := ((List.range n).filter fun i => bit v i).length

/-- The greatest CCLK divider of the grade (Table 18.9). -/
def gradeMax (s : State) : Nat := if s.fuses.grade = 2 then 52 else 56

/-- The rules of SV_K and the glade (R331, R332). (DEDUCED, log 66) -/
def svRules (s : State) (shared : Bool) (k g0 g1 : Nat) : Bool :=
  let n := popcount 16 g0
  24 ≤ k && k ≤ gradeMax s && (!shared || 35 ≤ k) && popcount 16 g1 == n && (n == 0 || n == 2 || n == 4 || n == 8)

/-- A ring record is well formed (Table 10.3, R333); the ring lies within one column of the admitting grove. -/
def ringOk (glade : Nat) (b : Bytes) : Bool :=
  let e := fieldAt b 8 2
  let lane := fieldAt b 12 4
  let a := fieldAt b 11 1
  let off := fieldAt b 0 8 % 2 ^ 52
  fieldAt b 0 8 % 64 == 0 && fieldAt b 0 8 / 2 ^ 52 == 2 && off / 2 ^ 29 == a && off / 2 ^ 24 % 32 ≤ 16 && off % 2 ^ 24 + 64 * e ≤ 2 ^ 24 && (e == 16 || e == 32 || e == 64 || e == 128 || e == 256)
    && fieldAt b 10 1 ≤ 1 && a < 32 && bit lane a && a / 16 == fieldAt b 10 1 && Nat.land lane glade == lane
    && fieldAt b 23 1 == 0 && fieldAt b 24 8 / 2 ^ 52 == 8 && fieldAt b 24 8 % 16 == 0 && e ≤ fieldAt b 32 2
    && allZero (slice b 34 30)

/-- Lanes are disjoint. -/
def lanesOk : List Nat → Bool
  | [] => true
  | l :: ls => ls.all (fun m => Nat.land l m == 0) && lanesOk ls

/-- The serving record is in range (R331). -/
def serveRecOk (s : State) (ctxs : List CtxId) (b : Bytes) : Bool :=
  let g0 := fieldAt b 8 2
  let g1 := fieldAt b 10 2
  let n := fieldAt b 5 1
  let rs := (List.range n).map fun i => slice b (64 + 64 * i) 64
  fieldAt b 0 4 == 0x53565252 && 1 ≤ fieldAt b 4 1 && fieldAt b 4 1 ≤ 64 && 1 ≤ n && n ≤ 16 && fieldAt b 6 1 ≤ 1
    && svRules s (bit (fieldAt b 6 1) 0) (fieldAt b 7 1) g0 g1 && fieldAt b 16 1 < 16
    && ctxs.contains (asCtx (fieldAt b 16 1)) && allZero (slice b 17 7) && allZero (slice b 44 20)
    && allZero (slice b 1088 960) && rs.all (ringOk (g0 + g1 * 2 ^ 16)) && lanesOk (rs.map fun r => fieldAt r 12 4)

/-- The program table is in range (Table 10.2). -/
def progsOk (n : Nat) (b : Bytes) : Bool :=
  (List.range n).all fun i =>
    fieldAt b (16 * i + 6) 1 ≤ 1 && fieldAt b (16 * i + 7) 1 == 0
      && (!bit (fieldAt b (16 * i + 6) 1) 0 || fieldAt b (16 * i + 4) 2 ≤ 256)

/-- Reading the serving record and program table, and loading SV_CTL (R363). (DEDUCED, log 38) -/
def serveBegin (ctx : CtxId) (ctxs : List CtxId) (va : Nat) (s : State) : State × Bool :=
  match schRead ctx va 2048 s with
  | (s1, none) => (s1, false)
  | (s1, some r) =>
    if schFmt ctx va s != some 7 || !serveRecOk s ctxs r then (s1, false)
    else
      match schRead ctx (fieldAt r 24 8) (16 * fieldAt r 4 1) s1 with
      | (s2, none) => (s2, false)
      | (s2, some p) =>
        if !progsOk (fieldAt r 4 1) p then (s2, false)
        else
          let s3 := wr fGlade0 0 (fieldAt r 8 2) (wr fGlade1 0 (fieldAt r 10 2) (wr fSvK 0 (fieldAt r 7 1)
            (wr fShared 0 (fieldAt r 6 1) (wr fSvCtlEn 0 1 (wr fEpochPub 0 0 s2)))))
          ({ s3 with serve := some ⟨r, p, [], [], 0, []⟩, sctx := some (asCtx (fieldAt r 16 1)) }, true)

/-! ### START (R416 to R418) -/

/-- The contexts that a CTXS field names. -/
def ctxsOf (n : Nat) : List CtxId := ((List.range 16).filter fun i => bit n i).map asCtx

/-- The descriptor's own ranges (Table 12.4). -/
def startOk (b : Bytes) : Bool :=
  let fl := fieldAt b 5 1
  fl < 8 && fieldAt b 6 2 != 0 && fieldAt b 8 2 != 0 && allZero (slice b 10 6) && fieldAt b 23 1 == 0
    && fieldAt b 16 1 ≤ fieldAt b 19 1 && fieldAt b 17 1 ≤ fieldAt b 20 1 && fieldAt b 18 1 ≤ fieldAt b 21 1
    && fieldAt b 19 1 ≤ 15 && fieldAt b 20 1 ≤ 15 && fieldAt b 21 1 ≤ 31 && 1 ≤ fieldAt b 22 1 && fieldAt b 22 1 ≤ 3
    && (bit fl 1 || fieldAt b 32 8 == 0) && (bit fl 2 || fieldAt b 40 8 == 0)
    && 1 ≤ fieldAt b 64 4 && fieldAt b 64 4 ≤ 65536 && fieldAt b 68 4 ≤ 4096 && fieldAt b 80 4 ≤ 255
    && fieldAt b 92 4 ≤ 2048 && fieldAt b 106 2 == 0 && allZero (slice b 128 128)

/-- Reading a list of fixed-size entries. -/
def subList (mem : Submem) (at_ size n : Nat) : List Bytes := (List.range n).map fun i => subRead mem (at_ + size * i) size

/-- A port starts training (R368): verdicts and link state begin afresh. (DEDUCED, log 56) -/
def startTrain (p : Nat) (s : State) : State :=
  modPort p (fun _ => { TorusPort.reset with since := s.time })
    (wr fState p 1 (wr fRetrain p 0 (wr fWidth p 0 (wr fGroups p 0 (wr fLaneBad p 0 s)))))

/-- A port goes DARK (Table 11.1). -/
def darkPort (p : Nat) (s : State) : State :=
  modPort p (fun _ => TorusPort.reset) (wr fState p 0 (wr fWidth p 0 (wr fGroups p 0 s)))

/-- Writing TOR_ID and enabling the ports of every dimension above 1 (R385); those of the others are DARK (R387).
(DEDUCED, log 38; DEDUCED, log 56) -/
def bindTorus (desc : Bytes) (rctx : CtxId) (s : State) : State :=
  let f (i : Nat) : Nat := fieldAt desc i 1
  let s1 := wr fX 0 (f 16) (wr fY 0 (f 17) (wr fZ 0 (f 18) (wr fDxm1 0 (f 19) (wr fDym1 0 (f 20) (wr fDzm1 0 (f 21) s)))))
  let s2 := wr fJobTag 0 (fieldAt desc 6 2) (wr fRctx 0 rctx (wr fValid 0 1 (wr fEpFloor 0 0 s1)))
  (List.range 6).foldl (fun t p =>
    let t1 := wr fMinWidth p (f 22) t
    if f (19 + p / 2) = 0 then darkPort p (wr fTpCtlEn p 0 t1) else startTrain p (wr fTpCtlEn p 1 t1)) s2

/-- Ports that the job needs. -/
def jobPorts (s : State) : List Nat := (List.range 6).filter fun p => rdb s fTpCtlEn p

/-- Every enabled port is UP at its least width (R385). (DEDUCED, log 53) -/
def portsUp (s : State) : Bool := (jobPorts s).all fun p => portState s p == 3 && rd s fMinWidth p ≤ rd s fWidth p

/-- The lowest context of a job. (DEDUCED, log 38) -/
def Job.ctx (j : Job) : CtxId := (j.ctxs.head?).getD 0

/-- Steps 4 and 5 of R418, once the ports are up: the records, and STARTED. (DEDUCED, log 53) -/
def jobGo (s : State) : State :=
  match s.job with
  | none => s
  | some j =>
    if j.started || !portsUp s then s
    else
      let fl := fieldAt j.desc 5 1
      match (if bit fl 1 then trainBegin j.ctx (fieldAt j.desc 32 8) s else (s, true)) with
      | (s1, false) => endJob stBad 0 false s1
      | (s1, true) =>
        match (if bit fl 2 then serveBegin j.ctx j.ctxs (fieldAt j.desc 40 8) s1 else (s1, true)) with
        | (s2, false) => endJob stBad 0 false s2
        | (s2, true) => jobCpl j.ring j.desc evStarted stOk 0 (jobRecPut { s2 with job := some { j with started := true } })

/-- Reading and writing the context records (R421), under the lowest context once the load list has mapped it.
(DEDUCED, log 38) -/
def loadCtxRecs (j : Job) (s : State) : State × Bool :=
  let va := fieldAt j.desc 120 8
  if va = 0 then (j.ctxs.foldl (fun t c => ctxRecPut c (zeros 32) t) s, true)
  else
    match schRead j.ctx va 512 s with
    | (s1, none) => (s1, false)
    | (s1, some b) =>
      if schFmt j.ctx va s == some 7 && j.ctxs.all (fun c => ctxRecOk (slice b (32 * c.val) 32)) then
        (j.ctxs.foldl (fun t c => ctxRecPut c (slice b (32 * c.val) 32) t) s1, true)
      else (s1, false)

/-- Running a START that no other job keeps waiting (R418). -/
def runStart (ring : Fin 4) (desc : Bytes) (mem : Submem) (s : State) : State :=
  if rdb s fRetired 0 then jobCpl ring desc evRejected stRetired 0 s
  else if !startOk desc then jobCpl ring desc evRejected stBad 0 s
  else
    let qps := subList mem (fieldAt desc 96 8) 64 (fieldAt desc 92 4)
    let hts := subList mem (fieldAt desc 72 8) 32 (fieldAt desc 68 4)
    let ins := subList mem (fieldAt desc 84 8) 32 (fieldAt desc 80 4)
    let ctxs := ctxsOf (fieldAt desc 8 2)
    if !(qps.all qpOk && ((List.range hts.length).all fun n => !pinned s n) && hts.all (fun b => !(handleOf b).bad)
        && ins.all iwOk) then jobCpl ring desc evRejected stBad 0 s
    else
      let heldT : Option Nat := match s.hold with
        | some h => if bit (fieldAt desc 5 1) 0 && h.tag == fieldAt desc 104 2 then some h.tstep else none
        | none => none
      let adopted : Bool := heldT.isSome
      let keys := qps.map fun b => qpKey (fieldAt b 0 1) (fieldAt b 7 3)
      let j : Job := ⟨ring, desc, false, ctxs, keys, hts.length, heldT⟩
      let s1 := { s with
        job := some j
        hold := if adopted then none else s.hold
        qps := (keys.zip qps).foldl (fun t e => tset t e.1 (qpOpen e.2)) s.qps
        iws := (ins.zipIdx).map fun e => (e.2 + 1, e.1) }
      let s2 := (hts.zipIdx).foldl (fun t e => htPut e.2 e.1 t) (jobRecPut s1)
      let s3 := ctxs.foldl (fun t c => createCtx adopted c t) s2
      match loadList ctxs adopted mem (fieldAt desc 56 8) (fieldAt desc 64 4) 0 s3 with
      | (s4, some i) => endJob stLoad i false s4
      | (s4, none) =>
        match loadCtxRecs j s4 with
        | (s5, false) => endJob stBad 0 false s5
        | (s5, true) => jobGo (bindTorus desc j.ctx s5)

/-- The next unread descriptor of a ring that SCH may serve (R416). -/
def unread (s : State) (ring : Nat) : Bool :=
  rdb s fJrCtlEn ring && ringUp s ring && serialBelow (rd s fTaken ring) (rd s fDbCount ring)

/-- The ring SCH serves first: the earliest latest doorbell, then the lower index (R416). -/
def firstRing (s : State) : Option Nat :=
  ((List.range 4).filter (unread s)).foldl (fun a r =>
    match a with
    | none => some r
    | some b => if tget s.ringSeen r 0 < tget s.ringSeen b 0 then some r else some b) none

/-- The descriptor that SCH reads next from a ring, when it is this ring's turn. -/
def nextDesc (s : State) (ring : Fin 4) (mem : Submem) : Option Bytes :=
  if firstRing s = some ring.val then
    some (subRead mem (rd s fRingOfs ring + 256 * (rd s fTaken ring % 2 ^ rd s fLogEnt ring)) 256)
  else none

/-- A descriptor has been read. -/
def takeDesc (ring : Nat) (s : State) : State := wr fTaken ring ((rd s fTaken ring + 1) % 2 ^ 32) s

/-- A descriptor carries its own number. (DEDUCED, log 39) -/
def seqOk (s : State) (ring : Nat) (b : Bytes) : Bool := fieldAt b 0 4 == rd s fTaken ring

/-- SCH serves job rings: it runs, no clearing runs and the test port is closed (R525); booted and not between the loss of a half and
its return, or retired, when it answers that it is (R461). -/
def inService (s : State) : Bool :=
  s.life == .up && !(proc s 3).restarting && !rdb s fOpen 0 && !rdb s fClearing 0
    && (s.lands.ready == some true || rdb s fRetired 0)

/-- JOB_START (R416 to R421): with no job running, the START that waits longest on the ring; else the ring's next
descriptor, which is kept waiting while another job runs, up to 16. A descriptor of a reserved KIND or another number is
rejected. (DESIGN CHOICE, log 11; DEDUCED, log 39; DESIGN CHOICE, log 40) -/
def execJobStart (ring : Fin 4) (mem : Submem) (s : State) : Out :=
  .next (
    if !inService s then s
    else
      match s.job, s.waitJobs with
      | none, w :: ws => if w.ring = ring then runStart ring w.desc mem { s with waitJobs := ws } else s
      | _, _ =>
        match nextDesc s ring mem with
        | none => s
        | some b =>
          let k := fieldAt b 4 1
          if !seqOk s ring b ∨ k = 0 ∨ 3 < k then jobCpl ring b evRejected stBad 0 (takeDesc ring s)
          else if k ≠ 1 then s
          else if s.job.isNone then runStart ring b mem (takeDesc ring s)
          else if 16 ≤ s.waitJobs.length then jobCpl ring b evRejected stFull 0 (takeDesc ring s)
          else { takeDesc ring s with waitJobs := s.waitJobs ++ [⟨ring, b⟩] })

/-! ### CANCEL and RING_RESET (R422, R423) -/

/-- The reserved fields of a CANCEL or RING_RESET are zero (Table 12.4). -/
def reservedZero (b : Bytes) : Bool :=
  fieldAt b 5 1 < 8 && allZero (slice b 11 5) && fieldAt b 23 1 == 0 && fieldAt b 106 2 == 0 && allZero (slice b 128 128)

/-- JOB_CANCEL (R422): the running job's completion is ENDED, also before its STARTED. A CANCELLED completion of a waiting job is ENDED with status CANCELLED.
(DESIGN CHOICE, log 40) -/
def execJobCancel (ring : Fin 4) (mem : Submem) (s : State) : Out :=
  .next (
    if !inService s then s
    else
      match nextDesc s ring mem with
      | none => s
      | some b =>
        if fieldAt b 4 1 ≠ 2 ∨ !seqOk s ring b then s
        else
          let s1 := takeDesc ring s
          let tag := fieldAt b 6 2
          if !reservedZero b || fieldAt b 10 1 != 0 then jobCpl ring b evRejected stBad 0 s1
          else
            let mine (d : Bytes) : Bool := fieldAt d 6 2 == tag
            if s1.job.any fun j => mine j.desc then
              endJob stCancelled 0 false { s1 with job := s1.job.map fun j => { j with started := true } }
            else
              match s1.waitJobs.find? fun w => mine w.desc with
              | some w =>
                jobCpl w.ring w.desc evEnded stCancelled 0 { s1 with waitJobs := s1.waitJobs.erase w }
              | none => jobCpl ring b evRejected stBad 0 s1)

/-! ### Held memory (R397) -/

/-- HOLD_EXPIRE (R397): HOLD_S seconds after PEER_LOST the held stack memory is wiped and freed. -/
def execHoldExpire (s : State) : Out :=
  .next (match s.hold with
    | none => s
    | some h =>
      if s.time < h.since + rd s fHoldS 0 * 800000000 ∨ !schUp s then s
      else
        let s2 := dropHold h s
        if s2.job.isNone then { s2 with freePg := [0, 0], freeTbl := 0 } else s2)

end Sys2Proof.Machine
end

