-- ==== Sys2Proof/Machine/Integ.lean ====
section
/-! DEFINITION. Integrity: landings, units under observation, self-tests, spares, retirement, the health history and the
clearing of faults (spec/13), the loss of a stack (spec/07 R267, R268), the patrol scrub (spec/08 R273), the failed ride
(spec/01 R40). -/

namespace Sys2Proof.Machine

/-! ### The health history (R463, R464); the layout of a record is the model's choice -/

/-- Flash offset of the history (Table 12.10). -/
def histBase : Nat := 0x3000000

/-- Records in the history. -/
def histSize : Nat := 262144

/-- Records in a 64 KiB sector. -/
def histSector : Nat := 2048

/-- The code of a unit in a record. (DESIGN CHOICE, log 46) -/
def unitCode : HwUnit → Nat
  | .core c => c.val
  | .grove g => 0x400 + g.val
  | .mill d => 0x800 + d.val

/-- The unit of a code. -/
def unitOf (n : Nat) : Option HwUnit :=
  if n < 544 then some (.core (asCore n))
  else if 0x400 ≤ n ∧ n < 0x420 then some (.grove (asGrove (n - 0x400)))
  else if 0x800 ≤ n ∧ n < 0x810 then some (.mill (asDie (n - 0x800)))
  else none

/-- Kinds of history records: an event of class c is `0x10 + c` (0 CHECK, 1 TRANSIT, 2 DATA, 3 COMPUTE). -/
def hkObserve : Nat := 2
/-- end of observation -/
def hkObserveEnd : Nat := 3
/-- spare replacement -/
def hkSpare : Nat := 4
/-- disagreement -/
def hkDisagree : Nat := 5
/-- stale view -/
def hkStale : Nat := 6
/-- retirement -/
def hkRetire : Nat := 7
/-- acknowledgement of a retirement -/
def hkAck : Nat := 8
/-- hourly counters -/
def hkHourly : Nat := 9
/-- thermal shutdown (R489) -/
def hkThermal : Nat := 10
/-- clearing begun (R524) -/
def hkClearBegun : Nat := 11
/-- clearing done -/
def hkClearDone : Nat := 12

/-- A history record: kind, unit, number, time, data. (DESIGN CHOICE, log 46) -/
def histRec (kind unit num time : Nat) (data : Bytes) : Bytes :=
  toLe 1 kind ++ zeros 1 ++ toLe 2 unit ++ toLe 4 num ++ toLe 8 time ++ slice data 0 16

/-- Writing one record at the next place. (DESIGN CHOICE, log 46) -/
def histPut (kind unit : Nat) (data : Bytes) (s : State) : State :=
  { flashWrite (histBase + 32 * (s.histPos % histSize)) (histRec kind unit s.histPos s.time data) s with
    histPos := s.histPos + 1 }

/-- Places of the history that hold a record, rising: an erased place reads 0xFF. -/
def histPlaces (s : State) : List Nat :=
  ((s.flash.filter fun c => histBase ≤ c.1 && c.1 < histBase + 32 * histSize).map fun c => (c.1 - histBase) / 32).dedup

/-- The record at a place. -/
def histAt (s : State) (i : Nat) : Bytes := flashRead s (histBase + 32 * i) 32

/-- The number of the newest record; none in an empty history. -/
def histNewest (s : State) : Option Nat :=
  (histPlaces s).foldl (fun m i =>
    let n := fieldAt (histAt s i) 4 4
    match m with | none => some n | some k => some (max k n)) none

/-- The records, oldest first. -/
def histRecs (s : State) : List Bytes :=
  match histNewest s with
  | none => []
  | some n =>
    let l := histPlaces s
    ((l.filter fun i => n % histSize < i) ++ l.filter fun i => i ≤ n % histSize).map fun i => histAt s i

/-- What a boot takes from the history (R464, R501 step 3): slots left out by grove, units under observation, stale views,
retirement, whether it is acknowledged, a clearing that has begun and is not done. -/
structure Health where
  slots    : Table Nat
  observed : List (HwUnit × Nat)
  stale    : List HwUnit
  retired  : Option Nat
  acked    : Bool
  clearing : Bool
deriving DecidableEq, Repr

/-- An empty history. -/
def Health.empty : Health := ⟨[], [], [], none, false, false⟩

/-- One record read. -/
def Health.take (h : Health) (b : Bytes) : Health :=
  let k := fieldAt b 0 1
  let u := unitOf (fieldAt b 2 2)
  let c := fieldAt b 2 2
  if k = hkSpare then { h with slots := tset h.slots (c / 17 % 32) (c % 17) }
  else if k = hkObserve then
    match u with
    | some u => { h with observed := (h.observed.filter fun o => o.1 != u) ++ [(u, fieldAt b 16 8)] }
    | none => h
  else if k = hkObserveEnd then { h with observed := h.observed.filter fun o => some o.1 != u }
  else if k = hkStale then
    match u with
    | some u => if h.stale.contains u then h else { h with stale := h.stale ++ [u] }
    | none => h
  else if k = hkRetire then { h with retired := some (fieldAt b 16 1), acked := false }
  else if k = hkAck then { h with acked := true }
  else if k = hkClearBegun then { h with clearing := true }
  else if k = hkClearDone then { h with clearing := false }
  else h

/-- The health that the flash records. -/
def healthOf (s : State) : Health := (histRecs s).foldl Health.take Health.empty

/-- What the summary ahead of an erased sector repeats: spares in use, units under observation, stale views, retirement with its
acknowledgement, an unfinished clearing. (DESIGN CHOICE, log 46) -/
def histSummary (s : State) : List (Nat × Nat × Bytes) :=
  ((List.range 32).filterMap fun g =>
      if (grove s g).slotOut.val = 16 then none else some (hkSpare, 17 * g + (grove s g).slotOut.val, []))
    ++ s.observed.map (fun o => (hkObserve, unitCode o.1, toLe 8 o.2))
    ++ s.stale.map (fun u => (hkStale, unitCode u, []))
    ++ (if rdb s fRetired 0 then [(hkRetire, 0xFFFF, toLe 1 (rd s fRetCause 0))] else [])
    ++ (if rdb s fRetired 0 && (healthOf s).acked then [(hkAck, 0xFFFF, [])] else [])
    ++ (if s.clearing.isSome then [(hkClearBegun, 0xFFFF, [])] else [])

/-- Writing a record, with the turn of a sector before it where one begins over an older one (R463); refused while SEC, the only
writer of the flash (R429), restarts (R512), but for a retirement, its acknowledgement and a thermal shutdown, which wait and persist (R462, R489). (DESIGN CHOICE, log 46; DEDUCED, log 81) -/
def histWrite (kind unit : Nat) (data : Bytes) (s : State) : State :=
  let i := s.histPos % histSize
  let s1 :=
    if i % histSector = 0 ∧ histSize ≤ s.histPos then
      let lo := histBase + 32 * i
      let s0 := { s with flash := s.flash.filter fun c => c.1 < lo || lo + 32 * histSector ≤ c.1 }
      (histSummary s).foldl (fun t r => histPut r.1 r.2.1 r.2.2 t) s0
    else s
  if (proc s 0).restarting then
    if kind = hkRetire ∨ kind = hkAck ∨ kind = hkThermal then { s with histWait := s.histWait ++ [(kind, unit, data)] } else s
  else histPut kind unit data s1

/-- The records that have waited for SEC are written, oldest first. (DEDUCED, log 80) -/
def histFlush (s : State) : State :=
  s.histWait.foldl (fun t r => histWrite r.1 r.2.1 r.2.2 t) { s with histWait := [] }

/-- Recording an event, at most one of each class per unit per second (R464). -/
def histEvent (cls unit : Nat) (s : State) : State :=
  let sec := s.time / 800000000
  if s.histSeen.contains (cls, unit, sec) then s
  else
    histWrite (0x10 + cls) unit []
      { s with histSeen := (s.histSeen.filter fun e => e.2.2 == sec) ++ [(cls, unit, sec)] }

/-! ### Retirement (R460, R461) -/

/-- Every context that exists. -/
def liveCtxs (s : State) : List CtxId := ctxsOf 0xFFFF |>.filter fun c => (ctxSt s c).live

/-- The device retires (R461): causes 1, 3 and 4 fault every context, the others destroy them. (DEDUCED, log 47) -/
def retire (cause detail : Nat) (s : State) : State :=
  if rdb s fRetired 0 then s
  else
    let s1 := logWrite 0x010C srcSch (toLe 1 cause)
      (histWrite hkRetire 0xFFFF (toLe 1 cause) (wr fRetCause 0 cause (wr fRetired 0 1 s)))
    let s2 := setReady false (assertFault s1)
    let cs := liveCtxs s2
    let s3 :=
      if cause = 1 then cs.foldl (fun t c => ctxFault c fcStackLost detail (Site.bare 7 0) none t) s2
      else if cause = 3 ∨ cause = 4 then cs.foldl (fun t c => ctxFault c fcHalfLost detail (Site.bare 7 0) none t) s2
      else cs.foldl (fun t c => destroyCtx false c t) s2
    let s4 := peerLostOp 3 none (ownCoord s3) none s3
    { endJob stRetired 0 false s4 with hold := none }

/-! ### Spares (R456, R457) -/

/-- The place that a swap of two columns of a grove gives a block key. -/
def swapKey (h g a b : Nat) (k : Nat) : Nat :=
  let i := k % 2 ^ 28
  if k / 2 ^ 29 = 2 ∧ k / 2 ^ 28 % 2 = h ∧ i / 2 ^ 18 % 16 = g then
    let col := i / 2 ^ 13 % 32
    if col = a then k - a * 2 ^ 13 + b * 2 ^ 13 else if col = b then k - b * 2 ^ 13 + a * 2 ^ 13 else k
  else k

/-- The place that a swap gives an understorey block. -/
def swapLoc (h g a b : Nat) : Loc → Loc
  | .und x f n =>
    let k := swapKey h g a b (Loc.und x f n).key
    .und x (k % 2 ^ 28 / 32) n
  | l => l

/-- A pending operation after a swap of columns. -/
def swapOp (h g a b : Nat) : POp → POp
  | .put l k => .put (swapLoc h g a b l) k
  | .patch l o p e f => .patch (swapLoc h g a b l) o p e f
  | .signal va w amt st k => .signal va (swapKey h g a b (w / 4096) * 4096 + w % 4096) amt st k
  | op => op

/-- Blocks of two columns that hold something else than at boot. -/
def swapKeys (h g a b : Nat) (s : State) : List Nat :=
  ((s.mem.map fun c => c.1 / 4096).dedup.filter fun k => swapKey h g a b k != k).map fun k => min k (swapKey h g a b k)

/-- Writing contents of one block key to another: a landing whose tag is re-formed (R435, R441). A block that fails keeps its failing tag,
and counts as a DATA event of its grove. (DEDUCED, log 47) -/
def keyMove (u : HwUnit) (b : Bytes) (src dst : Nat) (s : State) : State :=
  let s1 := match landCheck (blkOfImage b) (termOfKey src) with
    | .accepted _ false => s
    | .accepted _ true => unitNote 0 (some u) (logWrite 0x0106 srcHw (toLe 8 (termOfKey dst)) (bump fChkRepaired 0 1 s))
    | .failed counted => dataEvent (some u) (bump fChkFault 0 (if counted then 3 else 0) s)
  memWrite (dst * 4096) (b.take 2176 ++ toLe 8 (reformTag (leNat (slice b 2176 8)) (termOfKey src) (termOfKey dst))) s1

/-- Exchanging the contents of two columns (R457 step 2). -/
def swapColumns (h g a b : Nat) (s : State) : State :=
  (swapKeys h g a b s).dedup.foldl (fun t k =>
    let j := swapKey h g a b k
    let x := memRead t (k * 4096) 2184
    let y := memRead t (j * 4096) 2184
    keyMove (.grove (asGrove (16 * h + g))) y j k (keyMove (.grove (asGrove (16 * h + g))) x k j t)) s

/-- The understorey page entries of a context: virtual page, half and physical offset of the entry, entry. -/
def undPtes (s : State) (ctx : CtxId) : List (Nat × Half × Nat × Nat) :=
  let r := 3 * ctx.val + 2
  if !rdb s fPtRootEn r then []
  else
    let h0 := halfOf (rd s fRootHalf r)
    let t0 := rd s fRoot r * 256
    (List.range 512).flatMap fun i =>
      let e0 := leNat (stkRead s h0 (t0 + 8 * i) 8)
      if !bit e0 0 || bit e0 3 then []
      else
        (List.range 512).flatMap fun j =>
          let e1 := leNat (stkRead s (pteOwn e0) (pteFrame e0 * 256 + 8 * j) 8)
          if !bit e1 0 || bit e1 3 then []
          else
            (List.range 32).filterMap fun k =>
              let p := pteFrame e1 * 256 + 8 * k
              let e := leNat (stkRead s (pteOwn e1) p 8)
              if bit e 0 && pteRes e then some (i * 2 ^ 14 + j * 32 + k, pteOwn e1, p, e) else none

/-- Rewriting every entry of a context that names either column, with TLB_INV (R457 step 3). -/
def swapPtes (h g a b : Nat) (ctx : CtxId) (s : State) : State :=
  (undPtes s ctx).foldl (fun t e =>
    let f := pteFrame e.2.2.2
    if (pteOwn e.2.2.2).val = h ∧ f / 2 ^ 13 % 16 = g ∧ (f / 2 ^ 8 % 32 = a ∨ f / 2 ^ 8 % 32 = b) then
      let n := if f / 2 ^ 8 % 32 = a then f - a * 2 ^ 8 + b * 2 ^ 8 else f - b * 2 ^ 8 + a * 2 ^ 8
      tlbInvAll ctx 2 (e.1 * 65536) (stkPatch e.2.1 e.2.2.1 (toLe 8 (putBits e.2.2.2 16 36 n)) (genOf t ctx) t)
    else t) s

/-- The descriptor that resumes a kind 2 record of a core (R150). -/
def resumeDesc (s : State) (c : CoreId) (r : Saved) : Desc :=
  { headerDesc r.ctx (saveGet s c r.ctx 0 1) with invSeq := r.invSeq, resume := true }

/-- Streaming the descriptors that resume the kind 2 records of a core that a test picks. -/
def resumeCore (p : Saved → Bool) (c : Nat) (s : State) : State :=
  ((core s c).saved.filter fun r => r.kind == 2 && p r).foldl (fun t r =>
    match lcOf t c with
    | some lc => enqueue lc (resumeDesc t (asCore c) r) t
    | none => t) s

/-- Everything of a core that belongs to its logical number, moved to another slot whose stores are clear. -/
def moveCore (a b : Nat) (s : State) : State :=
  let x := core s a
  setCore a { Core.reset with openFmt := x.openFmt }
    (setCore b { x with openFmt := openAll, owner := none, shown := false, accVoid := false } s)

/-- The steps of a replacement that follow the cut (R457 steps 2 to 5). -/
def swapIn (c : CoreId) (s : State) : State :=
  let g := coreGrove c
  let a := coreSlot c
  let h := g / 16
  let m := g % 16
  let spare := 17 * g + 16
  let s2 := swapColumns h m a 16 { s with replacing := s.replacing.erase c }
  let s3 := (liveCtxs s2).foldl (fun t x => swapPtes h m a 16 x t) s2
  let f (w : Nat) : Nat := swapKey h m a 16 (w / 4096) * 4096 + w % 4096
  let s4 := { s3 with
    cores := s3.cores.map fun e => (e.1, { e.2 with
      pend := e.2.pend.map fun p => { p with op := swapOp h m a 16 p.op }
      mons := e.2.mons.map fun k => { k with word := f k.word } })
    watches := s3.watches.map fun w => { w with word := f w.word, home := homeOf (f w.word) } }
  let s5 := modGrove g (fun x => { x with slotOut := ⟨a % 17, Nat.mod_lt _ (by decide)⟩ }) (moveCore c spare s4)
  let s6 := histWrite hkSpare c.val [] (wr fSparesUsed 0 (min (rd s5 fSparesUsed 0 + 1) 32) s5)
  resumeCore (fun _ => true) spare s6

/-- Replacing a core by its grove's spare (R457): it is cut as under FORCE, so a running ACC_ADD repeat completes first, and the rest follows
its save record; live data of an idle core is saved as kind 1. (DEDUCED, log 99) -/
def replaceCore (c : CoreId) (s : State) : State :=
  if s.replacing.contains c then s
  else
    let s1 := modCore c forceCore s
    match (core s1 c).run with
    | some (d, _) =>
      if cutSettled s1 c then swapIn c (saveCut c d s1) else { s1 with replacing := s1.replacing ++ [c] }
    | none =>
      match (core s1 c).owner with
      | some o => swapIn c (saveLive c o s1)
      | none => swapIn c s1

/-- SAVE_KIND2 (R145 to R148): the record is written and PREEMPT_DONE reported; a replacement that waited for it goes on (R457). -/
def execSaveKind2 (c : CoreId) (s : State) : Out :=
  .next (match (core s c).run with
    | none => s
    | some (d, _) => if !(core s c).forced || !cutSettled s c then s else
      let s1 := saveCut c d s
      if s.replacing.contains c then swapIn c s1 else s1)

/-- The grove's spare is still to be had: not in use, not promised to a core whose cut is under way, not out of service. -/
def spareFree (s : State) (g : Nat) : Bool :=
  (grove s g).slotOut.val == 16 && !s.outOfSvc.contains (.core (asCore (17 * g + 16)))
    && !s.replacing.any fun c => coreGrove c == g

/-- Two cores of a grove that need its spare in one cycle: the lower slot has it, whichever came first (R466). The device retires in either
case, so what is left is the slot that the next boot leaves out. -/
def spareTie (c : CoreId) (s : State) : State :=
  let g := coreGrove c
  match (grove s g).spareAt with
  | some (t, a) =>
    if t = s.time ∧ coreSlot c < a then
      histWrite hkSpare c.val [] (modGrove g (fun x => { x with slotOut := ⟨coreSlot c % 17, Nat.mod_lt _ (by decide)⟩ })
        { s with replacing := s.replacing.filter fun k => coreGrove k != g })
    else s
  | none => s

/-- A second event of a unit, or a failed self-test (R456). A spare that fails before it is used leaves its grove without
one. -/
def secondEvent (u : HwUnit) (s : State) : State :=
  match u with
  | .grove _ => retire 5 0 s
  | .mill _ => retire 6 0 s
  | .core c =>
    let g := coreGrove c
    if s.replacing.contains c then s
    else if (lcOf s c).isNone then (if s.outOfSvc.contains u then s else { s with outOfSvc := s.outOfSvc ++ [u] })
    else if spareFree s g then replaceCore c (modGrove g (fun x => { x with spareAt := some (s.time, coreSlot c) }) s)
    else spareTie c (retire 7 0 s)

/-! ### Observation (R455) -/

/-- 86,400 s in KCLK cycles. (DEDUCED, log 45) -/
def dayK : Nat := 86400 * 800000000

/-- Setting the units under observation and OBSERVED. -/
def setObserved (l : List (HwUnit × Nat)) (s : State) : State := wr fObserved 0 (min l.length 255) { s with observed := l }

/-- What an event of class COMPUTE or DATA of time `at_` on a unit leads to (R455, R456, R466). (DEDUCED, log 44) -/
def unitEvent (at_ : Nat) (u : HwUnit) (s : State) : State :=
  if s.disagree.contains u then secondEvent u { s with disagree := s.disagree.erase u, katOn := s.katOn.erase u }
  else
    match s.observed.find? fun o => o.1 == u with
    | some (_, t) =>
      if at_ ≤ t + dayK then secondEvent u s
      else
        histWrite hkObserve (unitCode u) (toLe 8 at_) (setObserved ((s.observed.filter fun o => o.1 != u) ++ [(u, at_)]) s)
    | none => histWrite hkObserve (unitCode u) (toLe 8 at_) (setObserved (s.observed ++ [(u, at_)]) s)

/-- SCH takes one integrity event: the history records it, and one of class COMPUTE or DATA concerns its unit (Table 13.4, R464). -/
def takeEvent (e : Nat × Option HwUnit × Nat) (s : State) : State :=
  let s1 := histEvent e.1 ((e.2.1.map unitCode).getD 0xFFFF) s
  match e.2.1 with
  | some u => if 2 ≤ e.1 then unitEvent e.2.2 u s1 else s1
  | none => s1

/-- SCH, while it runs, takes the integrity events that wait, oldest first. (DEDUCED, log 44) -/
def unitEvents (s : State) : State := if schUp s then s.unitEvs.foldl (fun t e => takeEvent e t) { s with unitEvs := [] } else s

/-- OBSERVATION_END (R455). (DEDUCED, log 45) -/
def execObservationEnd (u : HwUnit) (s0 : State) : Out :=
  let s := unitEvents s0
  .next (match s.observed.find? fun o => o.1 == u with
    | some (_, t) =>
      if t + dayK < s.time then
        histWrite hkObserveEnd (unitCode u) [] (setObserved (s.observed.filter fun o => o.1 != u) s)
      else s
    | none => s)

/-- Marking the training step for an event that counts in replay mode only (Table 13.4). -/
def markReplay (s : State) : State :=
  match s.train with
  | some t => if planMech t.plan = 1 then markStep none s else s
  | none => s

/-- SHADOW_FILL (R92 to R94, R109): one row; a refill counts FILL_RETRY; a second mismatch is ABFT_MISMATCH of kind FILL.
The fill belongs to no MXE repeat; its fault record names PC, REP and CHUNK where the MXE stands, which the spec does not say.
(DESIGN CHOICE, log 99) -/
def execShadowFill (c : CoreId) (readErr : Int) (s : State) : Out :=
  let ctx := runCtx s c
  .next (match fillStep (core s c).mxe readErr with
    | .idle => s
    | .row m n => count ctx n (modMxe c (fun _ => m) s)
    | .done m n cured =>
      let s1 := count ctx n (modMxe c (fun _ => m) s)
      if cured then unitEvents (markReplay (computeEvent (.core c) s1)) else s1
    | .retry m n => bump fFillRetry c 1 (count ctx n (modMxe c (fun _ => m) s))
    | .fail => abft c 3 (core s c).mxeE.ctl s)

/-! ### Landings (R440 to R443) -/

/-- The place that KIND, HALF and INDEX of Table 13.2 name, where there is one; KIND 0 is a block in transit. -/
def placeOfTerm (h : Half) (kind index : Nat) : Option (Option Loc) :=
  match kind with
  | 0 => some none
  | 1 => if index < 188743680 then some (some (.stk h index)) else none
  | 2 => if index < 2 ^ 22 ∧ index / 2 ^ 13 % 32 ≤ 16 then some (some (.und h (index / 32) (index % 32))) else none
  | _ =>
    let slot := index / 256 % 32
    if index < 2 ^ 17 ∧ slot ≤ 16 then
      let c := asCore (17 * (16 * h.val + index / 8192) + slot)
      some (some (if kind = 3 then .leaf c (index % 256) else .acc c (index % 256)))
    else none

/-- Landing copies one after another: the copy accepted with its tag, how many failed before it, and what CHK_FAULT
counts. (DEDUCED, log 29) -/
def landCopies (term : Nat) : List Bytes → Nat → Nat → Option (Blk × Bool × Nat) × Nat × Nat
  | [], n, f => (none, n, f)
  | b :: bs, n, f =>
    let k := blkOfImage b
    match landCheck k term with
    | .accepted t rep => (some ({ k with tag := BitVec.ofNat 64 t }, rep, t), n, f)
    | .failed counted => landCopies term bs (n + 1) (f + bnat counted)

/-- LANDING (R441 to R443): a block lands at a place of this package, or, of KIND 0, in transit; `copies` are the copies
that its source gives, of which the first that is accepted is stored. (DEDUCED, log 13) -/
def execLanding (h : Half) (kind : Fin 5) (index : Nat) (ctx : CtxId) (copies : List Bytes) (s : State) : Out :=
  match placeOfTerm h kind index with
  | none => .fault .outsideStore
  | some place =>
    let term := match place with | some l => l.term | none => 0
    let ok : Bool := copies.length ≤ 3 && copies.all fun b => b.length == 2184
    match landCopies term copies 0 0 with
    | (some (k, rep, _), n, f) =>
      if !ok then .refused .badOperand
      else
        let u := place.map Loc.unit
        let s1 := bump fChkFault 0 f (if n = 0 then s else transitEvent u s)
        let s2 := unitEvents (if rep then noteRepaired place s1 else s1)
        .next (match place with
          | none => s2
          | some l =>
            let s3 := wakeRange (l.addr 0) 2048 (blkStore l (match l with | .acc .. => accForm l k | _ => k) s2)
            match l with
            | .stk x b => poisonDel x b s3
            | .leaf c b => modCore c (fun x => { x with openFmt := tdel x.openFmt b }) s3
            | .acc c b => modCore c (fun x => { x with openFmt := tdel x.openFmt (256 + b) }) s3
            | .und .. => s3)
    | (none, n, f) =>
      if !ok || n != 3 then .refused .badOperand
      else
        let s1 := dataEvent (place.map Loc.unit) (bump fChkFault 0 f s)
        let s2 := match place with
          | some (.stk x b) => poisonAdd x b s1
          | _ => s1
        let det := match place with | some l => l.index | none => 0
        .next (
          if (ctxSt s ctx).live then ctxFault ctx fcCorrupt det (Site.bare (if kind = 1 then 6 else 7) 0) none s2
          else unitEvents s2)

/-- The block of a channel that lies in a row, by place in the row (R232). -/
def blockAt (d ch row : Nat) : Nat :=
  let k := Nat.xor ch (row / 8 % 32)
  row * 256 + k * 8 + Nat.xor (Nat.xor (d % 8) (row % 8)) (row / 2 ^ 8 % 8)

/-- Rows of a channel (R232). -/
def rowCount : Nat := 737280

/-- PATROL_SCRUB (R273): the next block of a channel is read and checked; a failure is a DATA event of the mill with a
DATA record, and no context faults. -/
def execPatrolScrub (d : Die) (ch : Fin 32) (s : State) : Out :=
  let row := tget (die s d).scrub ch 0
  let l := Loc.stk (dieHalf d) (blockAt d ch row)
  let s0 := millAsks .read (dieHalf d) [blockAt d ch row]
    (modDie d (fun x => { x with scrub := tset x.scrub ch ((row + 1) % rowCount) }) s)
  .next (match blkFetch 0 l s0 with
    | (s1, .ok _) => s1
    | (s1, .bad) => unitEvents (logWrite 0x0106 srcHw (toLe 8 l.term) s1))

/-! ### Loss of a stack, failure of the ride -/

/-- 65,536 SCLK cycles in KCLK cycles, rounded up: a slot of 32 SCLK cycles lasts 32 ns. (DEDUCED, log 35) -/
def silentLimit : Nat := 52429

/-- A channel of a die has left its requests without an answer for the limit of R267. -/
def channelSilent (s : State) (d : Nat) : Bool := (die s d).silent.any fun e => decide (e.2 + silentLimit ≤ s.time)

/-- STACK_LOST (R267, R268): a link signal and an internal error come from outside; a silent channel is one whose limit has passed. -/
def execStackLost (d : Die) (why : LossKind) (s : State) : Out :=
  .next (if (die s d).lost || (why == .silentChannel && !channelSilent s d) then s
    else retire 1 (d.val / 8 * 16 + d.val % 8) (modDie d (fun x => { x with lost := true }) s))

/-- RIDE_FAILED (R40): eight replays of the same flit have failed. -/
def execRideFailed (h : Half) (s : State) : Out :=
  .next (if rideSpent s.time (rideEnd s h) then retire 2 0 s else s)

/-! ### Clearing of context faults (R446, R447, R354) -/

/-- The invocations of the queries that a fault has ended are given up (R354). (DEDUCED, log 43) -/
def failQueries (s : State) : State :=
  match s.serve with
  | none => s
  | some v => v.queries.foldl (fun t e => (e.2.filter fun q => q.stage == .failed).foldl (fun u q => dropInv e.1 q.inv u) t) s

/-- The logical cores of a grove. -/
def groveLcs (g : Nat) : List Nat := (List.range 16).map fun i => 16 * g + i

/-- The address of a grove's staging area: the column of its first slot at STAGE_OFS, where the understorey of the serving
context is mapped page by frame. -/
def stageVa (v : Serve) (g : Nat) : Nat :=
  2 * 2 ^ 52 + (g / 16) * 2 ^ 33 + (g % 16) * 2 ^ 29 + svStage v

/-- The invocation of a query, or of the forwarding of its staged result (R347, Table 10.8, R358). -/
def queryDesc (s : State) (v : Serve) (g : Nat) (q : Query) (fwd : Bool) : Desc :=
  let d := q.desc
  let out := if !fwd ∧ q.role ≠ 0 then stageVa v g else fieldAt d 32 8
  let inp := if fwd then stageVa v g else fieldAt d 16 8
  { lsid := if fwd then svFwd v else fieldAt v.progs (16 * fieldAt d 4 2) 2
    ctx := (s.sctx).getD 0
    chunks := 1
    invSeq := q.inv
    prio := true
    preload := false
    resume := false
    image := match s.job with | some j => BitVec.ofNat 56 (fieldAt j.desc 24 8) | none => 0
    pars := [BitVec.ofNat 64 inp, BitVec.ofNat 64 (fieldAt d 24 2 + fieldAt d 26 2 * 2 ^ 16), BitVec.ofNat 64 out,
      BitVec.ofNat 64 (svSlot v q.epoch), BitVec.ofNat 64 (fieldAt d 40 8), BitVec.ofNat 64 q.epoch]
    flaw := none }

/-- Writing a query's invocation into each logical core of its grove (R347). (DESIGN CHOICE, log 61) -/
def writeQuery (v : Serve) (g : Nat) (q : Query) (fwd : Bool) (s : State) : State :=
  (groveLcs g).foldl (fun t lc => enqueue lc (queryDesc s v g q fwd) t) s

/-- Queued queries and forwards whose entries a cut discarded are written again (R354). -/
def requeueQueries (s : State) : State :=
  match s.serve with
  | none => s
  | some v =>
    v.queries.foldl (fun t e =>
      e.2.foldl (fun u q =>
        let again (l : List Nat) (fwd : Bool) : State :=
          l.foldl (fun w lc =>
            if hasInv (core w (physOf w lc)) q.inv w.sctx then w else enqueue lc (queryDesc w v e.1 q fwd) w) u
        match q.stage with
        | .running l => again l false
        | .forwarding l => again l true
        | _ => u) t) s

/-- Clearing a fault (R438, R446). -/
def clearCtx (ctx : CtxId) (s : State) : State :=
  let s1 := modCtx ctx (fun x => { x with fault := none, cuts := [], second := [] }) s
  let s2 := wr fGen ctx ((rd s1 fGen ctx + 1) % 4096) s1
  let s3 := (s2.cores.map (·.1)).foldl (fun t c => resumeCore (fun r => r.ctx == ctx) c t) s2
  let s4 := resumeJobs ctx s3
  if s4.sctx = some ctx then requeueQueries s4 else s4

/-! ### Self-tests and views (R454, R456, R458, R459) -/

/-- Seconds in KCLK cycles. -/
def secK (n : Nat) : Nat := n * 800000000

/-- The interval of a unit's self-test (R454, R455). -/
def katInterval (s : State) (u : HwUnit) : Nat := if s.observed.any fun o => o.1 == u then secK 10 else secK 600

/-- When a unit was last self-tested; boot tests every unit. -/
def katLastOf (s : State) (u : HwUnit) : Nat :=
  match s.katLast.find? fun e => e.1 == u with
  | some (_, t) => t
  | none => 0

/-- A unit can be self-tested now: a core at an invocation boundary, a glade grove with no queued query (R454). -/
def katFree (s : State) : HwUnit → Bool
  | .core c => (core s c).run.isNone
  | .grove g => match s.serve with | some v => (queriesOf v g).isEmpty | none => true
  | .mill _ => true

/-- KAT_RUN (R454). -/
def execKatRun (u : HwUnit) (s : State) : Out :=
  .next (
    if !schUp s || s.katOn.contains u || !katFree s u || decide (s.time < katLastOf s u + katInterval s u) then s
    else { s with katOn := s.katOn ++ [u] })

/-- Cores of a unit. -/
def unitCores : HwUnit → List Nat
  | .core c => [c.val]
  | .grove g => groveCores g
  | .mill _ => []

/-- KAT_RESULT (R456, R459). (DEDUCED, log 44) -/
def execKatResult (u : HwUnit) (pass : Bool) (s : State) : Out :=
  .next (
    if !s.katOn.contains u then s
    else
      let s1 := { s with
        katOn := s.katOn.erase u
        katLast := (s.katLast.filter fun e => e.1 != u) ++ [(u, s.time)]
        disagree := s.disagree.erase u }
      if pass then
        if s.disagree.contains u then
          let s2 := histWrite hkStale (unitCode u) [] { s1 with outOfSvc := s1.outOfSvc.erase u, stale := s1.stale ++ [u] }
          (unitCores u).foldl (fun t c => resumeCore (fun r => (ctxSt t r.ctx).fault.isNone) c t) s2
        else s1
      else secondEvent u (histEvent 3 (unitCode u) (wr fEvent 0 1 (bump fCompEvent 0 1 (bump fKatFail 0 1 s1)))))

/-- A view as a code in a DISAGREE record. -/
def viewCode : UnitView → Nat
  | .working => 0
  | .offOrFailed => 1

/-- VIEW_COMPARE (R458, R459): a stale view is left out. -/
def execViewCompare (u : HwUnit) (mgmt data : UnitView) (s : State) : Out :=
  .next (
    if !schUp s || mgmt = data || s.stale.contains u || s.disagree.contains u then s
    else
      let s1 := histWrite hkDisagree (unitCode u) (toLe 1 (viewCode mgmt) ++ toLe 1 (viewCode data)) (bump fDisagree 0 1 s)
      let s2 := logWrite 0x0105 srcSch
        (toLe 2 (unitCode u) ++ toLe 1 (viewCode mgmt) ++ toLe 1 (viewCode data) ++ zeros 4 ++ toLe 8 s.time) s1
      let s3 := (unitCores u).foldl (fun t c => modCore c forceCore t) s2
      { s3 with
        outOfSvc := s3.outOfSvc ++ [u]
        disagree := s3.disagree ++ [u]
        katOn := if s3.katOn.contains u then s3.katOn else s3.katOn ++ [u] })

/-! ### Acknowledgement and hourly record (R462, R463) -/

/-- The effect of RETIRE_ACK once written: recorded while RETIRED, ignored otherwise. -/
def retireAckOp (s : State) : State :=
  let s1 := wr fRetireAck 0 0 s
  if rdb s fRetired 0 then histWrite hkAck 0xFFFF [] s1 else s1

/-- A write of INT_STAT. -/
def intStatPut (w : RegWr) (s : State) : State :=
  let s1 := (regPut .intStat 0 w s).1
  if started fRetireAck 0 s s1 then retireAckOp s1 else s1

/-- RETIRE_ACK (R462). (DEDUCED, log 80) -/
def execRetireAck (w : RegWr) (s : State) : Out := .next (intStatPut w s)

/-- HISTORY_HOURLY (R463). -/
def execHistoryHourly (s : State) : Out :=
  .next (
    if s.time < s.histHour + secK 3600 then s
    else
      histWrite hkHourly 0xFFFF (toLe 8 (regRead s .intCntA 0) ++ toLe 8 (regRead s .intCntB 0)) { s with histHour := s.time })

end Sys2Proof.Machine
end

