-- ==== Sys2Proof/Machine/Torus.lean ====
section
/-! DEFINITION. The torus ports and the fabric: widths, training, flits and retry, transfers and their answers, ABORT (spec/11
R364 to R400). -/

namespace Sys2Proof.Machine

/-! ### Widths and states (R365 to R368) -/

/-- 40 µs in KCLK cycles. -/
def resizeLimit : Nat := 32000

/-- 500 ms in KCLK cycles. -/
def trainLimit : Nat := 400000000

/-- 4,096 TLCLK cycles in KCLK cycles, rounded up (R372). -/
def portAckLimit : Nat := 2098

/-- 3,125 TLCLK cycles in KCLK cycles (R369). -/
def linkLimit : Nat := 1600

/-- A lane group is healthy: none of its lanes under a bad verdict, not fenced, not found bad by replays (R366, R373). -/
def groupHealthy (s : State) (p n : Nat) : Bool :=
  bits (rd s fLaneBad p) (4 * n) 4 == 0 && !bit (rd s fGroupFence p) n && !bit (tport s p).badGroups.toNat n

/-- The healthy groups, lowest first. -/
def healthyGroups (s : State) (p : Nat) : List Nat := (List.range 4).filter (groupHealthy s p)

/-- The width code that a number of healthy groups allows (R365). -/
def widthFor (n : Nat) : Nat := if 4 ≤ n then 3 else if 2 ≤ n then 2 else if 1 ≤ n then 1 else 0

/-- Groups of a width code. -/
def widthGroups (w : Nat) : Nat := match w with | 0 => 0 | 1 => 1 | 2 => 2 | _ => 4

/-- A set of groups as bits. -/
def groupMask (l : List Nat) : Nat := (l.map fun n => 2 ^ n).sum

/-- Setting the width of a port: the lowest-numbered healthy groups. -/
def setWidth (p w : Nat) (s : State) : State :=
  wr fWidth p w (wr fGroups p (groupMask ((healthyGroups s p).take (widthGroups w))) s)

/-- The states between DARK and DOWN. -/
def portLive (s : State) (p : Nat) : Bool := 1 ≤ portState s p && portState s p ≤ 4

/-- A port goes DOWN (R368). -/
def portDown (p : Nat) (s : State) : State := wr fState p 5 (wr fWidth p 0 (wr fGroups p 0 s))

/-- A port goes DOWN and its job loses the peer (R394). -/
def portLose (p : Nat) (s : State) : State :=
  let s1 := portDown p s
  peerLostOp 1 (some p) (ownCoord s1) none s1

/-- A link whose group became unhealthy: RESIZE, or DOWN when no group is healthy (R367, R368); a verdict during a RESIZE
joins it (R400). (DEDUCED, log 56) -/
def beginResize (p : Nat) (s : State) : State :=
  if (healthyGroups s p).isEmpty then portLose p s
  else if portState s p = 3 then modPort p (fun r => { r with since := s.time }) (wr fState p 4 s)
  else s

/-- LANE_BAD_VERDICT (R366, R367): the verdict stands; a group in use that becomes unhealthy starts a RESIZE. Four
uncorrectable codewords raise UNCORR by four. (DEDUCED, log 55) -/
def execLaneBadVerdict (p : TPort) (lane : Fin 16) (why : LaneFault) (s : State) : Out :=
  .next (
    if !portLive s p then s
    else
      let s1 := if why = .uncorrectable then bump fUncorr p 4 s else s
      let s2 := wr fLaneBad p (Nat.lor (rd s1 fLaneBad p) (2 ^ lane.val)) s1
      if 3 ≤ portState s2 p ∧ bit (rd s2 fGroups p) (lane.val / 4) then beginResize p s2 else s2)

/-- Sending every unacknowledged flit again, from the oldest (R39, R367). (DESIGN CHOICE, log 57) -/
def portReplayAll (p : Nat) (s : State) : State :=
  modPort p (fun r => { r.retry.foldl (fun q e => portPut e.1 e.2 q) r with ackSince := s.time }) s

/-- TORUS_RESIZE_DONE (R367): the link resumes at the widest width its healthy groups allow, never wider than before, and
replays; with no healthy group left, for one may have been fenced, it goes DOWN. -/
def execTorusResizeDone (p : TPort) (s : State) : Out :=
  .next (
    if portState s p ≠ 4 ∨ (tport s p).since + resizeLimit < s.time then s
    else
      let w := min (widthFor (healthyGroups s p).length) (rd s fWidth p)
      if w = 0 then portLose p s
      else
      let s1 := if w = rd s fWidth p then s else bump fResizes p 1 s
      let s2 := wr fState p 3 (setWidth p w s1)
      let s3 := portReplayAll p (modPort p (fun r => { r with goodSince := s.time }) s2)
      torusPump p (tport s3 p).queue.length s3)

/-- TORUS_RESIZE_TIMEOUT (R368). -/
def execTorusResizeTimeout (p : TPort) (s : State) : Out :=
  .next (if portState s p = 4 ∧ (tport s p).since + resizeLimit ≤ s.time then portLose p s else s)

/-- The package knows that a port's dimension has size 1 (R387). -/
def aloneOn (s : State) (p : Nat) : Bool :=
  rdb s fValid 0 && (match p / 2 with | 0 => (dims s).1 | 1 => (dims s).2.1 | _ => (dims s).2.2) == 1

/-- A write of TP_CTL_p and what follows: EN from 0 to 1 or RETRAIN on a DOWN or DARK port starts TRAIN, but a port of a dimension of size
1 stays DARK (R387); EN from 1 to 0 makes the port DARK. (DEDUCED, log 56) -/
def tpCtlWrite (p : TPort) (w : RegWr) (s : State) : State :=
  match regPut .tpCtl p w s with
  | (s1, false) => s1
  | (s1, true) =>
    if aloneOn s1 p then wr fRetrain p 0 s1
    else if !rdb s fTpCtlEn p && rdb s1 fTpCtlEn p then startTrain p s1
    else if rdb s fTpCtlEn p && !rdb s1 fTpCtlEn p then darkPort p s1
    else if rdb s1 fRetrain p && (portState s1 p == 0 || portState s1 p == 5) then startTrain p s1
    else s1

/-- TP_ENABLE (R368, R385). -/
def execTpEnable (p : TPort) (w : RegWr) (s : State) : Out := .next (tpCtlWrite p w s)

/-- TP_RETRAIN (R368, Table 11.9). -/
def execTpRetrain (p : TPort) (w : RegWr) (s : State) : Out := .next (tpCtlWrite p w s)

/-- The payload of an identity flit: JOB_TAG, X, Y, Z, port code; the spec names its contents, not their places.
(DESIGN CHOICE, log 54) -/
def identPay (s : State) (p : Nat) : Bytes :=
  let o := ownCoord s
  slice (toLe 2 (jobTag s) ++ toLe 1 o.1 ++ toLe 1 o.2.1 ++ toLe 1 o.2.2 ++ toLe 1 p) 0 248

/-- TORUS_TRAIN_DONE (R368, R386): the healthy groups have trained; the port enters CHECK and sends its identity.
(DESIGN CHOICE, log 54) -/
def execTorusTrainDone (p : TPort) (s : State) : Out :=
  .next (
    if portState s p ≠ 1 ∨ (healthyGroups s p).isEmpty then s
    else
      let s1 := wr fState p 2 (setWidth p (widthFor (healthyGroups s p).length) s)
      modPort p (portPut (-1) ⟨0, 6, identPay s p⟩) s1)

/-- TORUS_TRAIN_TIMEOUT (R368). -/
def execTorusTrainTimeout (p : TPort) (s : State) : Out :=
  .next (if portState s p = 1 ∧ (tport s p).since + trainLimit ≤ s.time then portLose p s else s)

/-- A flit's CRC holds. -/
def flitGood (flit : Bytes) : Bool := crc32c (flit.take 252) == leNat (flit.drop 252)

/-- An identity that a port accepts (R386). (DESIGN CHOICE, log 54) -/
def identOk (s : State) (p : Nat) (pay : Bytes) : Bool :=
  fieldAt pay 0 2 == jobTag s && fieldAt pay 5 1 == (if p % 2 = 0 then p + 1 else p - 1)
    && (let c := (fieldAt pay 2 1, fieldAt pay 3 1, fieldAt pay 4 1)
        c == neighbour s p || c == neighbour s (if p % 2 = 0 then p + 1 else p - 1))

/-- TORUS_IDENTITY (R386). (DESIGN CHOICE, log 54) -/
def execTorusIdentity (p : TPort) (flit : Bytes) (s : State) : Out :=
  if flit.length ≠ 256 then .refused .badOperand
  else
    .next (
      if portState s p ≠ 2 || !flitGood flit || bits (leNat (flit.take 4)) 24 4 != 6 then s
      else
        let pay := slice flit 4 248
        let s1 := wr fNbr p (fieldAt pay 2 1 % 16 + 16 * (fieldAt pay 3 1 % 16) + 256 * (fieldAt pay 4 1 % 32)) s
        if identOk s p pay then
          let s2 := jobGo (modPort p (fun r => { r with goodSince := s.time }) (wr fState p 3 s1))
          torusPump p (tport s2 p).queue.length s2
        else if s.job.any fun j => j.started then portLose p s1
        else endJob stMiswire 0 false (portDown p s1))

/-! ### Receiving flits (R371, R372, R381) -/

/-- An ACK covers the retry buffer up to its flit. -/
def portAck (now : Nat) (ack : BitVec 12) (r : TorusPort) : TorusPort :=
  match r.retry.findIdx? (fun e => e.1 == ack) with
  | none => r
  | some i => { r with retry := r.retry.drop (i + 1), replays := 0, ackSince := now }

/-- The counts of a CRD field. -/
def portCrd (pay : Bytes) (r : TorusPort) : TorusPort :=
  { r with crd := (List.range 6).map fun vl => bits (fieldAt pay 0 9) (12 * vl) 12 }

/-- The receiver starts discarding and asks once for a replay (R38). (DESIGN CHOICE, log 57) -/
def portReject (r : TorusPort) : TorusPort :=
  if r.discarding then r else portPut (r.nextSeq - 1) ⟨0, 4, zeros 248⟩ { r with discarding := true }

/-- What a receiver does with a flit whose CRC is good, and whether it is the next data flit. A flit of a reserved TYPE or VL is treated
as one of bad CRC, a data flit already received and an identity flit are dropped, and a replay request counts as a good flit of R369.
(DESIGN CHOICE, log 57) -/
def portTake (now : Nat) (hd : Nat) (pay : Bytes) (r : TorusPort) : TorusPort × Bool :=
  let typ := bits hd 24 4
  let seq := BitVec.ofNat 12 (bits hd 0 12)
  let ack := BitVec.ofNat 12 (bits hd 12 12)
  if typ = 0 then
    if r.discarding then (r, false) else ({ portCrd pay (portAck now ack r) with goodSince := now }, false)
  else if typ = 4 then
    if r.discarding then (r, false) else ({ r with gotReplay := some ack, goodSince := now }, false)
  else if typ = 6 then (r, false)
  else if 6 < typ ∨ 6 ≤ bits hd 28 4 then (portReject r, false)
  else
    let gap := (seq - (r.lastGood + 1)).toNat
    if gap = 0 then
      let r1 := portAck now ack r
      let r2 := if hasCrd typ then portCrd pay r1 else r1
      ({ r2 with lastGood := seq, discarding := false, goodSince := now }, true)
    else if gap < 2048 then (portReject r, false)
    else (r, false)

/-- A transfer from its flits: header, block, bytes after the header; none when its KIND does not go with their number
(Table 11.4). -/
def arrOf (p : TPort) (vl : Nat) (b : Bytes) : Option Arr :=
  let hdr := slice b 0 48
  let k := fieldAt hdr 9 1
  if b.length = 2232 then
    if k = kWrite ∨ k = kAccum ∨ k = kReadRsp then
      some ⟨p, vl, hdr, some ⟨slice b 48 2048, slice b 2096 128, BitVec.ofNat 64 (fieldAt b 2224 8)⟩, [], none⟩
    else none
  else if k = kReadReq ∨ k = kReadRsp ∨ k = kAtomic ∨ k = kAck ∨ k = kFloor ∨ k = kAbort then
    some ⟨p, vl, hdr, none, b.drop 48, none⟩
  else none

/-- KIND of a transfer. -/
def Arr.kind (a : Arr) : Nat := fieldAt a.hdr 9 1
/-- EPOCH where EPOCHED is set. -/
def Arr.epoch (a : Arr) : Option Nat := if bit (fieldAt a.hdr 10 1) 0 then some (fieldAt a.hdr 28 4) else none
/-- JOB_TAG -/
def Arr.tag (a : Arr) : Nat := fieldAt a.hdr 12 2
/-- SRC -/
def Arr.src (a : Arr) : Coord := (fieldAt a.hdr 14 1, fieldAt a.hdr 15 1, fieldAt a.hdr 16 1)
/-- TGT -/
def Arr.tgt (a : Arr) : Coord := (fieldAt a.hdr 17 1, fieldAt a.hdr 18 1, fieldAt a.hdr 19 1)
/-- ADDR -/
def Arr.addr (a : Arr) : BitVec 56 := BitVec.ofNat 56 (fieldAt a.hdr 20 7)
/-- A field of ARG, by its bytes in the header. -/
def Arr.arg (a : Arr) (off n : Nat) : Nat := fieldAt a.hdr off n
/-- TXN -/
def Arr.txn (a : Arr) : Nat := fieldAt a.hdr 44 4

/-- The transfer is of the bound job. -/
def ofJob (s : State) (a : Arr) : Bool := rdb s fValid 0 && a.tag == jobTag s

/-- A FLOOR notice for this package: to every mill, into reserved staging (R255, R383); to the mills of the half that does not drive
the port it crosses the ride (R29). (DEDUCED, log 60) -/
def takeFloor (a : Arr) (s : State) : State :=
  if !ofJob s a then s
  else
    let (s1, x) := rideSend (portHalf a.port) (torusRideClass (a.vl / 2)) a.hdr s
    (List.range 16).foldl (fun t d =>
      let ride := if d / 8 = (portHalf a.port).val then none else some x
      modDie d (fun e => { e with floorsIn := e.floorsIn ++ [⟨asCtx (rd s fRctx 0), a.arg 32 4 % 2 ^ 17, a.arg 40 4, ride⟩] }) t) s1

/-- A transfer has arrived whole: a malformed one or one of a reserved KIND is discarded and counted (R375); after PEER_LOST
everything of the job but ABORT is dropped (R395). (DEDUCED, log 55) -/
def takeArr (p : TPort) (vl n : Nat) (a : Option Arr) (s : State) : State :=
  match a with
  | none => freeCredits p vl n (bump fUncorr p 1 s)
  | some a =>
    let s1 := seeEpoch a.epoch s
    if s1.peerLost && ofJob s1 a && a.kind != kAbort then freeCredits p vl n s1
    else if a.kind = kFloor ∧ a.tgt = ownCoord s1 then freeCredits p vl n (takeFloor a s1)
    else { s1 with arrived := s1.arrived ++ [a] }

/-- The next data flit joins its transfer. -/
def takeData (p : TPort) (f : TFlit) (s : State) : State :=
  let got := tget (tport s p).rx f.vl []
  let put (l : List TFlit) (t : State) : State := modPort p (fun r => { r with rx := tset r.rx f.vl l }) t
  match f.typ with
  | 5 => takeArr p f.vl (got.length + 1) (if got.isEmpty then arrOf p f.vl f.pay else none) (put [] s)
  | 1 => if got.isEmpty then put [f] s else takeArr p f.vl got.length none (put [f] s)
  | 2 => if got.isEmpty || 8 ≤ got.length then takeArr p f.vl (got.length + 1) none (put [] s) else put (got ++ [f]) s
  | _ =>
    takeArr p f.vl (got.length + 1)
      (if got.length = 8 then arrOf p f.vl ((got ++ [f]).flatMap (·.pay)) else none) (put [] s)

/-- TORUS_FLIT_RECEIVE (R371, R372, R381). -/
def execTorusFlitReceive (p : TPort) (flit : Bytes) (s : State) : Out :=
  if flit.length ≠ 256 then .refused .badOperand
  else
    .next (
      if portState s p ≠ 3 then s
      else if !flitGood flit then modPort p portReject s
      else
        let hd := leNat (flit.take 4)
        let pay := slice flit 4 248
        let (r, took) := portTake s.time hd pay (tport s p)
        let s1 := modPort p (fun _ => r) s
        let s2 := if took then portIdle p (takeData p ⟨bits hd 28 4, bits hd 24 4, pay⟩ s1) else s1
        torusPump p (tport s2 p).queue.length s2)

/-! ### Replays (R372, R373, R369) -/

/-- The eighth replay of the oldest flit has failed too: its ACK is overdue, or a further replay has been asked for (R373). -/
def portSpent (now : Nat) (r : TorusPort) : Bool :=
  8 ≤ r.replays && !r.retry.isEmpty && (r.gotReplay.isSome || r.ackSince + portAckLimit ≤ now)

/-- TORUS_REPLAY (R39, R372): on a replay request taken, or when the oldest flit has waited too long for its ACK; after eight replays of
one flit there is no ninth (R373). Each replay starts the limit afresh. (DESIGN CHOICE, log 57) -/
def execTorusReplay (p : TPort) (timeout : Bool) (s : State) : Out :=
  let r := tport s p
  let go (q : TorusPort) : State :=
    if q.retry.isEmpty then modPort p (fun _ => q) s
    else if 8 ≤ q.replays then s
    else portReplayAll p (bump fReplays p 1 (modPort p (fun _ => { q with replays := q.replays + 1 }) s))
  .next (
    if portState s p ≠ 3 then s
    else if timeout then (if !r.retry.isEmpty && r.ackSince + portAckLimit ≤ s.time then go r else s)
    else
      match r.gotReplay with
      | none => s
      | some a => go { portAck s.time a r with gotReplay := none })

/-- TORUS_REPLAY_FAIL (R373): eight replays of the same flit have failed; `badGroups` are the groups that delivered an
uncorrectable codeword since it was first sent. -/
def execTorusReplayFail (p : TPort) (badGroups : BitVec 4) (s : State) : Out :=
  let r := tport s p
  .next (
    if portState s p ≠ 3 ∨ !portSpent s.time r then s
    else if badGroups = 0 ∨ rd s fWidth p = 1 then portLose p s
    else beginResize p (modPort p (fun q => { q with badGroups := q.badGroups ||| badGroups, replays := 0, gotReplay := none }) s))

/-- TORUS_LINK_TIMEOUT (R369). -/
def execTorusLinkTimeout (p : TPort) (s : State) : Out :=
  .next (if portState s p = 3 ∧ (tport s p).goodSince + linkLimit ≤ s.time then portLose p s else s)

/-! ### Transfers that have arrived -/

/-- An earlier transfer of the same class, source and target has arrived (R378). (DEDUCED, log 58) -/
def arrBehind (s : State) (k : Nat) (a : Arr) : Bool :=
  (s.arrived.take k).any fun b => b.vl / 2 == a.vl / 2 && b.src == a.src && b.tgt == a.tgt

/-- A received transfer whose turn it is: for this package, or passing through. (DEDUCED, log 58) -/
def arrTurn (s : State) (k : Nat) (own : Bool) : Option Arr :=
  match s.arrived[k]? with
  | none => none
  | some a => if (a.tgt == ownCoord s) == own && !arrBehind s k a then some a else none

/-- A received transfer is done with: its buffer is free. (DESIGN CHOICE, log 57) -/
def arrDone (k : Nat) (a : Arr) (s : State) : State :=
  freeCredits a.port a.vl a.flits { s with arrived := ldrop s.arrived k }

/-- Bytes of a received transfer, as it is passed on. -/
def Arr.bytes (a : Arr) : Bytes := match a.blk with | none => a.hdr ++ a.rest | some b => xferBytes a.hdr (some b)

/-- TRANSFER_FORWARD (R379, R380, R29). -/
def execTransferForward (k : Nat) (s : State) : Out :=
  .next (match arrTurn s k false with
    | none => s
    | some a =>
      match route s a.tgt with
      | none => s
      | some out =>
        outputXfer (portHalf a.port) out (vlFor s (a.vl / 2) (some (a.port.val, a.vl)) out) a.bytes (arrDone k a s))

/-- A transfer's crossing of the ride to a half (R29): over, or begun. -/
def arrCross (k : Nat) (a : Arr) (h : Nat) (s : State) : State × Bool :=
  if h = (portHalf a.port).val then (s, true)
  else
    match a.ride with
    | some id => (s, s.rideDone.contains id)
    | none =>
      let (s1, id) := rideSend (portHalf a.port) (torusRideClass (a.vl / 2)) a.bytes s
      ({ s1 with arrived := lset s1.arrived k { a with ride := some id } }, false)

/-- The answer to a request that ends without data: an ACK, or a READ_RSP of STATUS 4 with CODE and DETAIL at the places of
an ACK's. It leaves from the half that served the request (R29). (DEDUCED, log 59) -/
def answer (h : Half) (a : Arr) (status : Nat) (sat : Bool) (code detail : Nat) (s : State) : State :=
  if a.kind = kReadReq ∧ status = 4 then
    sendXfer h 0 a.src
      (xferHdr kReadRsp none a.tag (ownCoord s) a.src 0 (toLe 1 4 ++ zeros 9 ++ toLe 2 code) a.txn ++ toLe 4 detail) none s
  else
    let acc : Bool := a.kind == kAccum
    sendAck h a.tag a.src a.txn (if acc then a.arg 32 4 else 0) (if acc then a.arg 36 4 else 0) status sat code detail s

/-- Bytes to which a request's ADDR must be aligned. -/
def reqAlign (kind : Nat) : Nat := if kind = kAtomic then 4 else 2048

/-- What a request wants of the place. -/
def reqWant (kind : Nat) : Want := if kind = kReadReq then .read else if kind = kAccum then .accum else .write

/-- ADDR resolved under RCTX on the first grove of the port's half (R230, R376). (DEDUCED, log 59) -/
def reqResolve (a : Arr) (s : State) : State × Target :=
  match regionOf a.addr with
  | some (.leaf true _ _) => (s, .fault fcRegion 0)
  | some (.acc true _ _) => (s, .fault fcRegion 0)
  | some (.rstk ..) => (s, .fault fcRegion 0)
  | some (.rund ..) => (s, .fault fcRegion 0)
  | some (.stn ..) => (s, .fault fcRegion 0)
  | none => (s, .fault fcRegion 0)
  | some _ =>
    if a.addr.toNat % reqAlign a.kind ≠ 0 then (s, .fault fcAlign 0)
    else resolve (17 * (16 * (portHalf a.port).val)) (asCtx (rd s fRctx 0)) (reqWant a.kind) 0 a.addr s

/-- Applying a request at its place and answering it (R376 steps 3 and 4); an accumulate is answered by its mill.
(DEDUCED, log 59) -/
def reqApply (a : Arr) (l : Loc) (off : Nat) (s : State) : State :=
  let rctx := asCtx (rd s fRctx 0)
  match a.blk with
  | some b =>
    match landCheck b 0 with
    | .failed counted => answer l.half a 4 false fcCorrupt l.index (dataEvent (some l.unit) (bump fChkFault 0 (bnat counted) s))
    | .accepted _ _ =>
      if a.kind = kAccum then
        match accFault [(a.addr, .here l off, b)], l with
        | some (code, det, _), _ => answer l.half a 4 false code det s
        | none, .stk h n =>
          let m : AccMsg := ⟨.pkg a.src.1 a.src.2.1 a.src.2.2 a.txn, rctx, none, n, b, a.arg 32 4 % 2 ^ 17, a.arg 36 4, a.arg 40 4⟩
          modAcc (dieOf h n) rctx (fun x => { x with intake := x.intake ++ [m] }) s
        | none, _ => answer l.half a 4 false fcAccTarget b.fmt s
      else answer l.half a 0 false 0 0 (farAsk rctx .write l (landPut l b s))
  | none =>
    if a.kind = kAtomic then
      let (s1, sat) := wordAdd (l.addr off) (signed 32 (a.arg 32 4)) (farAsk rctx .signal l s)
      answer l.half a 0 sat 0 0 s1
    else
      match blkFetch rctx l (farAsk rctx .read l s) with
      | (s1, .bad) => answer l.half a 4 false fcCorrupt l.index s1
      | (s1, .ok b) =>
        sendXfer l.half 0 a.src
          (xferHdr kReadRsp none (jobTag s1) (ownCoord s1) a.src 0 (zeros 12) a.txn) (some b) s1

/-- An EPOCHED request is stale (R390). -/
def staleReq (s : State) (a : Arr) : Bool :=
  match a.epoch with
  | some e => serialBelow e (rd s fEpFloor 0)
  | none => false

/-- A request kind of Table 11.4. -/
def isRequest (kind : Nat) : Bool := kind == kWrite || kind == kAccum || kind == kReadReq || kind == kAtomic

/-- TRANSFER_REQUEST (R376, R390). (DEDUCED, log 59) -/
def execTransferRequest (k : Nat) (s : State) : Out :=
  .next (match arrTurn s k true with
    | none => s
    | some a =>
      if !isRequest a.kind then s
      else if !ofJob s a then answer (portHalf a.port) a 4 false fcRegion 0 (arrDone k a s)
      else if staleReq s a then
        let s1 := bump fStaleDrop 0 1 (arrDone k a s)
        sendAck (portHalf a.port) a.tag a.src a.txn (if a.kind = kAccum then a.arg 32 4 else 0) (if a.kind = kAccum then a.arg 36 4 else 0) 3 false 0 0 s1
      else
        match reqResolve a s with
        | (s1, .fault code det) => answer (portHalf a.port) a 4 false code det (arrDone k a s1)
        | (s1, .absent page) => queueRestore (asCtx (rd s fRctx 0)) page s1
        | (s1, .here l off) =>
          match arrCross k a l.half.val s1 with
          | (s2, false) => s2
          | (s2, true) => reqApply a l off (arrDone k a s2)
        | (s1, _) => answer (portHalf a.port) a 4 false fcRegion 0 (arrDone k a s1))

/-! ### Answers at the issuer (R377) -/

/-- A transaction outstanding. -/
def txnOf (s : State) (id : Nat) : Option Txn := (s.txns.find? fun e => e.1 == id).map (·.2)

/-- The position of a transaction's operation among its core's. -/
def txnPend (s : State) (t : Txn) (id : Nat) : Nat :=
  (core s t.core).pend.findIdx fun p => match p.op with
    | .fabric n => n == id
    | .farAccum n _ _ _ => n == id
    | _ => false

/-- The remote address of a transaction in the issuer's map (Table 7.1). (DEDUCED, log 59) -/
def txnVa (t : Txn) : Nat :=
  (5 + t.addr / 2 ^ 52) * 2 ^ 52 + t.tgt.2.2 * 2 ^ 47 + t.tgt.2.1 * 2 ^ 43 + t.tgt.1 * 2 ^ 39 + t.addr % 2 ^ 39

/-- A transaction faults its context with a returned code and detail: UNIT 3 and the remote address (R377).
(DEDUCED, log 13) -/
def txnFault (t : Txn) (code detail : Nat) (s : State) : State :=
  ctxFault t.ctx code detail (if runsCtx (core s t.core) t.ctx then engSite s t.core .xce (txnVa t) else Site.bare 3 (txnVa t))
    (some (t.core.val, .xce)) s

/-- A transaction and its operation end. -/
def txnEnd (id : Nat) (t : Txn) (s : State) : State := dropPend t.core (txnPend s t id) (closeTxn id s)

/-- A refused accumulate gives back its ACK slot and waits to be sent again. -/
def txnRefused (id : Nat) (t : Txn) (s : State) : State :=
  let s1 := closeTxn id s
  accAcked t.core (txnPend s t id) 2 { s1 with txns := tset s1.txns id { t with sent := false } }

/-- What an ACK does to its transaction. (DEDUCED, log 59) -/
def ackTxn (a : Arr) (id : Nat) (t : Txn) (s : State) : State :=
  let s1 := if bit (a.arg 41 1) 0 then noteSat t.ctx (txnVa t) s else s
  match a.arg 40 1 with
  | 4 => txnFault t (a.arg 42 2) (fieldAt a.rest 0 4) (txnEnd id t s1)
  | 2 => if t.kind = kAccum then txnRefused id t s1 else s1
  | st =>
    if t.kind = kAccum then accAcked t.core (txnPend s1 t id) (if st = 0 then 0 else 1) (closeTxn id s1)
    else txnEnd id t s1

/-- TRANSFER_ACK (R377, R279, R29): the ACK is matched by its TXN, once it has crossed the ride to an issuing core of the other half; one
that matches nothing is discarded. -/
def execTransferAck (k : Nat) (s : State) : Out :=
  .next (match arrTurn s k true with
    | none => s
    | some a =>
      if a.kind ≠ kAck then s
      else
        let s1 := arrDone k a s
        if !ofJob s a then s1
        else
          match txnOf s1 a.txn with
          | none => s1
          | some t =>
            match arrCross k a (coreHalf t.core) s with
            | (s2, false) => s2
            | (s2, true) =>
              let s3 := arrDone k a s2
              if t.sent && (t.kind != kReadReq || a.arg 40 1 == 3) then ackTxn a a.txn t s3 else s3)

/-- Landing the block of a READ_RSP (R441, R442): a failing one is read again, at most twice. (DEDUCED, log 59) -/
def landRsp (id : Nat) (t : Txn) (l : Loc) (b : Blk) (s : State) : State :=
  match landCheck b 0 with
  | .accepted _ _ => txnEnd id t (landPut l b (if t.tries = 0 then s else transitEvent (some l.unit) s))
  | .failed counted =>
    let s1 := bump fChkFault 0 (bnat counted) s
    if t.tries < 2 then injectTxn id { t with tries := t.tries + 1 } s1
    else txnFault t fcCorrupt l.index (txnEnd id t (dataEvent (some l.unit) s1))

/-- READ_RSP (R376): data for the landing place of an XGET, or the target's fault; the answer of a read that a cut has abandoned is
discarded (R145). -/
def execReadRsp (k : Nat) (s : State) : Out :=
  .next (match arrTurn s k true with
    | none => s
    | some a =>
      if a.kind ≠ kReadRsp then s
      else
        match ofJob s a, txnOf s a.txn with
        | true, some t =>
          if (core s t.core).pend.length ≤ txnPend s t a.txn then closeTxn a.txn (arrDone k a s)
          else
          match t.dst, a.blk with
          | some l, some b =>
            match arrCross k a l.half.val s with
            | (s1, false) => s1
            | (s1, true) => landRsp a.txn t l b (arrDone k a s1)
          | some _, none => txnFault t (a.arg 42 2) (fieldAt a.rest 0 4) (txnEnd a.txn t (arrDone k a s))
          | none, _ => arrDone k a s
        | _, _ => arrDone k a s)

/-! ### ABORT (R394, R395, R400) -/

/-- The ABORTs of the job that wait, with their ports. (DEDUCED, log 60) -/
def abortsWaiting (s : State) : List Arr := s.arrived.filter fun a => a.kind == kAbort && ofJob s a && a.tgt == ownCoord s

/-- The ABORT on the lowest port. -/
def firstAbort (l : List Arr) : Option Arr :=
  l.foldl (fun m a => match m with | none => some a | some b => some (if a.port < b.port then a else b)) none

/-- ABORT_RECEIVE (R395, R400): of ABORTs that wait together the one on the lowest port counts and the others are dropped.
(DEDUCED, log 60) -/
def execAbortReceive (k : Nat) (s : State) : Out :=
  .next (match arrTurn s k true with
    | none => s
    | some a =>
      if a.kind ≠ kAbort then s
      else if !ofJob s a then arrDone k a s
      else
        match firstAbort (abortsWaiting s) with
        | none => s
        | some m =>
          let s1 := (abortsWaiting s).foldl (fun t b => freeCredits b.port b.vl b.flits t)
            { s with arrived := s.arrived.filter fun b => !(abortsWaiting s).contains b }
          peerLostOp 2 (some m.port) (m.arg 33 1, m.arg 34 1, m.arg 35 1) (some m.port) s1)

end Sys2Proof.Machine
end

