-- ==== Sys2Proof/Machine/Serve.lean ====
section
/-! DEFINITION. Serving: admission, the ends of queries, guarded queries, epochs, the serving registers (spec/10 R331 to R363),
and the end of an invocation (spec/04 R129). -/

namespace Sys2Proof.Machine

/-! ### Admission (R339, R343, R344, R353) -/

/-- A grove is available for admission (R353, R457, R511): in service with its cores, its GST running, and not held below SV_K by
a protective action. (DEDUCED, log 62) -/
def groveAvail (s : State) (g : Nat) : Bool :=
  !s.outOfSvc.contains (.grove (asGrove g))
    && (groveCores g).all (fun c => (lcOf s c).isNone || !s.outOfSvc.contains (.core (asCore c)))
    && !(s.replacing.any fun c => coreGrove c == g)
    && gstUp s g
    && !(rdb s fPolicyOverridden g && decide (rd s fKNow g < rd s fSvK 0))

/-- Grove `g` is in a set of groves given as bits. -/
def inLane (lane g : Nat) : Bool := bit lane g

/-- The groves of a set, lowest bit first. -/
def laneGroves (lane : Nat) : List Nat := (List.range 32).filter (inLane lane)

/-- A ring is guard-capable (R333). -/
def guardCapable (l : List Nat) : Bool := l.any (· < 16) && l.any (16 ≤ ·) && decide (3 ≤ l.length)

/-- An operation of a grove's cores on outside memory that has not left yet is withdrawn. -/
def dropUnsent (g : Nat) (s : State) : State :=
  let mine (o : RdmaOp) : Bool := match o.use with | .coreWrite c => decide (coreGrove c = g) && o.sends == 0 | _ => false
  { s with
    rdma := s.rdma.filter fun o => !mine o
    rideNext := s.rideNext.filter fun r => match r.act with | .toPort o => !mine o | _ => true }

/-- busy of a grove: the latest worst-case finish among its queries, zero when it has none. (DEDUCED, log 62) -/
def busyOf (v : Serve) (g : Nat) : Nat := (queriesOf v g).foldl (fun m q => max m q.fin) 0

/-- A serving program entry (Table 10.2). -/
structure Prog where
  lsid   : Nat
  inMax  : Nat
  outMax : Nat
  guardOk : Bool
  cost   : Nat
deriving DecidableEq, Repr

/-- Program `n`. -/
def svProg (v : Serve) (n : Nat) : Prog :=
  let b := slice v.progs (16 * n) 16
  ⟨fieldAt b 0 2, fieldAt b 2 2, fieldAt b 4 2, bit (fieldAt b 6 1) 0, fieldAt b 8 4⟩

/-- GUARD of a query descriptor. -/
def qGuard (d : Bytes) : Bool := bit (fieldAt d 6 1) 0

/-- A station-window address of blocks. -/
def stnBlocks (a : Nat) : Bool := a / 2 ^ 52 == 8 && a % 2048 == 0

/-- A query descriptor is valid under R339. -/
def queryOk (v : Serve) (r : RingRec) (n : Nat) (d : Bytes) : Bool :=
  let p := svProg v (fieldAt d 4 2)
  let budget := fieldAt d 12 4
  let i := fieldAt d 24 2
  let o := fieldAt d 26 2
  fieldAt d 0 4 == n && fieldAt d 6 1 < 2 && fieldAt d 7 1 == 0 && fieldAt d 28 4 == 0 && allZero (slice d 48 16)
    && fieldAt d 4 2 < svNprog v && budget != 0 && stnBlocks (fieldAt d 16 8) && stnBlocks (fieldAt d 32 8)
    && 1 ≤ i && i ≤ p.inMax && 1 ≤ o && o ≤ p.outMax
    && (!qGuard d || (budget ≤ 49000 && p.guardOk && guardCapable (laneGroves r.lane)))

/-- svc in ps (R343); the CCLK term is rounded up to a whole ps. (DEDUCED, log 62) -/
def svcPs (svK rtt inBlks outBlks cost : Nat) (shared : Bool) (svCut : Nat) : Nat :=
  let bi := inBlks * 2184
  let bo := outBlks * 2184
  let e := ceilDiv bi 128 + ceilDiv bi 4096 + ceilDiv bo 128 + ceilDiv bo 4096
  758880 + 1000 * rtt + 1280 * e + ceilDiv ((20 + cost) * 40000) svK + (if shared then 1000 * svCut else 0)

/-- What admission decides. -/
inductive Admit where
  | reject (status : Nat)
  | one (g fin : Nat)
  | three (a b k finA finB finK : Nat)
deriving DecidableEq, Repr

/-- The grove of a list with the least key; ties to the first. (DEDUCED, log 62) -/
def leastBy (f : Nat → Nat) : List Nat → Option Nat
  | [] => none
  | g :: gs => some (gs.foldl (fun m x => if f x < f m then x else m) g)

/-- The decision of R343 on a valid descriptor once an epoch is published: the clock, the service time, the deadline and SV_CMP in
ps, the lane's available groves, those with a free entry, busy, and the admitting half. -/
def admitWith (now s dl tdb cmp : Nat) (guard : Bool) (av c : List Nat) (busy : Nat → Nat) (half : Nat) : Admit :=
  if c.isEmpty then .reject (if av.isEmpty then 5 else 4)
  else if !guard then
    match leastBy (fun g => max now (busy g)) c with
    | none => .reject 5
    | some g => if dl < max now (busy g) + s then .reject 1 else .one g (max now (busy g) + s)
  else
    match leastBy busy (c.filter fun g => g / 16 == half), leastBy busy (c.filter fun g => g / 16 != half) with
    | some a, some b =>
      match leastBy busy (c.filter fun g => g != a && g != b) with
      | some k =>
        let fa := max now (busy a) + s
        let fb := max now (busy b) + s
        let fk := max (max fa fb + cmp) (busy k) + s + cmp
        if min dl (tdb + 49000000) < fk then .reject 1 else .three a b k fa fb fk
      | none => .reject (if guardCapable av then 4 else 5)
    | _, _ => .reject (if guardCapable av then 4 else 5)

/-- The decision on descriptor n of a ring whose doorbell came at `tdb` (R343). -/
def admitDecide (s : State) (v : Serve) (r : RingRec) (n tdb : Nat) (d : Bytes) : Admit :=
  if !queryOk v r n d then .reject 2
  else if rd s fEpochPub 0 = 0 then .reject 3
  else
    let av := (laneGroves r.lane).filter (groveAvail s)
    let c := av.filter fun g => (queriesOf v g).length < 8
    let svc := svcPs (rd s fSvK 0) r.rtt (fieldAt d 24 2) (fieldAt d 26 2) (svProg v (fieldAt d 4 2)).cost (rdb s fShared 0)
      (rd s fSvCut 0)
    admitWith (nowPs s) svc (tdb + 1000 * fieldAt d 12 4) tdb (1000 * rd s fSvCmp 0) (qGuard d) av c (busyOf v) (r.admitBy / 16 % 2)

/-- The doorbell time of the next descriptor of a ring: that of the first count that covers it. -/
def nextMark (q : QRing) : Option Nat := (q.marks.find? fun m => serialBelow q.expected m.1).map (·.2)

/-- Rings that a grove admits and that have an undecided descriptor, with its doorbell time. -/
def undecided (v : Serve) (g : Nat) : List (Nat × Nat) :=
  (List.range (svNring v)).filterMap fun n =>
    let q := qring v n
    if (svRing v n).admitBy % 32 = g ∧ !q.stopped then (nextMark q).map fun t => (n, t) else none

/-- The ring a GST serves next: the earliest undecided doorbell, then the lower ring. -/
def nextRing (v : Serve) (g : Nat) : Option (Nat × Nat) :=
  (undecided v g).foldl (fun m x => match m with | none => some x | some y => some (if x.2 < y.2 then x else y)) none

/-- A descriptor of a query ring is consumed (R263, R344): counts that announced nothing further go. -/
def consume (ring : Nat) (s : State) : State :=
  modQring ring (fun q =>
    let e := (q.expected + 1) % 2 ^ 32
    { q with expected := e, marks := q.marks.filter fun m => serialBelow e m.1 }) s

/-- With SHARED set, a grove that runs other invocations is cut, never one that runs a query or a forward (R348). (DEDUCED, log 65) -/
def sharedCut (g : Nat) (s : State) : State :=
  if rdb s fShared 0 && !runsQuery g s then
    (groveCores g).foldl (fun t c =>
      match (core t c).run with
      | some (d, _) => if some d.ctx = t.sctx then t else modCore c forceCore t
      | none => t) s
  else s

/-- One accepted query or copy enters a grove's queue; all but an adjudicator are written to its cores (R347). -/
def commitOn (ring n : Nat) (d : Bytes) (tdb : Nat) (inv : BitVec 32) (role g fin : Nat) (s : State) : State :=
  let q : Query := { ring := ring, n := n, desc := d, tdb := tdb, dl := tdb + 1000 * fieldAt d 12 4, epoch := rd s fEpochPub 0
                     inv := inv, role := role, fin := fin, stage := if role = 3 then .held else .running (groveLcs g)
                     digests := [], outcome := 0, missed := false }
  let s1 := modQueries g (fun l => l ++ [q]) s
  if role = 3 then s1
  else
    match s1.serve with
    | some v => writeQuery v g q false (sharedCut g s1)
    | none => s1

/-- The GST's read of a ring descriptor, through its grove's translation unit (R238): a page that is off-loaded is restored first (R242), and
a fault or a block that fails its landing faults the serving context; then there is no descriptor yet. (DEDUCED, log 62) -/
def ringRead (g : Grove) (va : Nat) (s : State) : State × Option Bytes :=
  let ctx := (s.sctx).getD 0
  let site := Site.bare 4 va
  if (ctxSt s ctx).fault.isSome then (s, none)
  else
    match mappedOf (BitVec.ofNat 56 va) with
    | none => (ctxFault ctx fcRegion 0 site none s, none)
    | some (reg, off) =>
      match resolveMapped g ctx .read reg off s with
      | (s1, .here l o) =>
        match blkFetch ctx l (unitAsk ctx (.short 64) l s1) with
        | (s2, .ok b) => (s2, some (slice b.pay o 64))
        | (s2, .bad) => (ctxFault ctx fcCorrupt l.index site none s2, none)
      | (s1, .absent page) => (queueRestore ctx page s1, none)
      | (s1, .fault code det) => (ctxFault ctx code det site none s1, none)
      | (s1, _) => (s1, none)

/-- ADMISSION (R339, R343 to R345): the admitting grove decides its next descriptor. INV_SEQ of a query is the model's counter.
(DEDUCED, log 62) -/
def execAdmission (g : Grove) (s : State) : Out :=
  .next (match s.serve with
    | none => s
    | some v =>
      if !rdb s fSvCtlEn 0 || !gstUp s g then s
      else
        match nextRing v g with
        | none => s
        | some (ring, tdb) =>
          let r := svRing v ring
          let n := (qring v ring).expected
          match ringRead g (r.va + 64 * (n % max r.entries 1)) s with
          | (s0, none) => s0
          | (s0, some d) =>
          let s1 := consume ring s0
          let inv := BitVec.ofNat 32 s1.invCtr
          let go (t : State) : State := bump fAccepted 0 1 { t with invCtr := t.invCtr + 1 }
          match admitDecide s v r n tdb d with
          | .reject st => queryCpl ring n (fieldAt d 8 4) 0 st 0 0 tdb (bump fRejected 0 1 s1)
          | .one h fin => go (commitOn ring n d tdb inv 0 h fin s1)
          | .three a b k fa fb fk =>
            go (commitOn ring n d tdb inv 3 k fk (commitOn ring n d tdb inv 2 b fb (commitOn ring n d tdb inv 1 a fa s1))))

/-! ### The ends of queries (R341, R350, R352, R354, R360) -/

/-- One grove's queue has lost entries; once it is empty the cut work of the grove resumes (R348). (DEDUCED, log 65) -/
def resumeGrove (g : Nat) (s : State) : State :=
  match s.serve with
  | none => s
  | some v =>
    if rdb s fShared 0 && (queriesOf v g).isEmpty then
      (groveCores g).foldl (fun t c =>
        let x := core t c
        let waits (r : Saved) : Bool := (x.queue.any fun d => d.resume && d.ctx == r.ctx)
          || (match x.taken with | some (d, _) => d.resume && d.ctx == r.ctx | none => false)
        resumeCore (fun r => some r.ctx != t.sctx && (ctxSt t r.ctx).fault.isNone && !waits r) c t) s
    else s

/-- Removing every entry of a query, on all groves that hold one. -/
def dropQuery (q : Query) (s : State) : State :=
  match s.serve with
  | none => s
  | some v =>
    let gs := (v.queries.filter fun e => e.2.any fun p => p.ring == q.ring && p.n == q.n).map (·.1)
    gs.foldl (fun t g => resumeGrove g (modQueries g (fun l => l.filter fun p => !(p.ring == q.ring && p.n == q.n)) t)) s

/-- RUNNER of a grove. -/
def runnerOf (g : Nat) : Nat := g % 16 + g / 16 * 16

/-- Queries end UNDELIVERED; the cut work of a grove that runs none any more resumes (R348, R356). -/
def undeliverOn (p : Query → Bool) (s : State) : State :=
  match s.serve with
  | none => s
  | some v =>
    ((v.queries.filter fun e => e.2.any p).map (·.1)).foldl (fun t g => resumeGrove g t) (undeliver p s)

/-- A query ends with a completion. (DEDUCED, log 63) -/
def endQuery (q : Query) (status runner : Nat) (s : State) : State :=
  queryCpl q.ring q.n (fieldAt q.desc 8 4) q.epoch status (if status = 0 then q.outcome else 0) runner q.tdb (dropQuery q s)

/-- A forward under way stops: its result is not sent (R360). -/
def stopForward (q : Query) (s : State) : State :=
  match s.serve with
  | none => s
  | some v => v.queries.foldl (fun t e =>
      e.2.foldl (fun u p =>
        match p.stage with
        | .forwarding _ => if p.ring = q.ring ∧ p.n = q.n then dropUnsent e.1 (dropInv e.1 p.inv u) else u
        | _ => u) t) s

/-- GUARD_ERROR (R360): no majority (cause 1) or a missed deadline (cause 2); no result. (DEDUCED, log 63) -/
def guardError (q : Query) (cause : Nat) (s : State) : State :=
  bump fGuardErrors 0 1 (setGuardFault cause (endQuery q 6 0 (stopForward q s)))

/-- The deadline of a query has passed: the KCLK cycle of the deadline itself is in time (R352). (DEDUCED, log 63) -/
def pastDeadline (s : State) (q : Query) : Bool := decide (q.dl / 1250 < s.time)

/-- Counting a miss (R352); the content of the record is ring, SEQ, TAG, grove and deadline. (DEDUCED, log 52) -/
def countMiss (g : Nat) (q : Query) (s : State) : State :=
  let s1 := logWrite 0x0104 (gstCode g)
    (toLe 4 q.ring ++ toLe 4 q.n ++ toLe 4 (fieldAt q.desc 8 4) ++ toLe 4 g ++ toLe 8 q.dl) (bump fDeadlineMiss 0 1 s)
  modServe (fun v => { v with queries := v.queries.map fun e =>
    (e.1, e.2.map fun p => if p.ring = q.ring ∧ p.n = q.n then { p with missed := true } else p) }) s1

/-- Entry k of a grove's queue, as its running GST sees it. -/
def queryAt (s : State) (g k : Nat) : Option Query :=
  match s.serve with
  | some v => if gstUp s g then (queriesOf v g)[k]? else none
  | none => none

/-- DEADLINE_MISS (R352, R360). -/
def execDeadlineMiss (g : Grove) (k : Nat) (s : State) : Out :=
  .next (match queryAt s g k with
    | none => s
    | some q =>
      if q.missed || !pastDeadline s q then s
      else
        let s1 := countMiss g q s
        if q.role = 0 then s1 else guardError q 2 s1)

/-- A core has sent the last of an invocation: every engine has finished, and each of its outside writes has been transmitted (R350); a core
that has ended it is no longer in the query's list. -/
def flushed (s : State) (lc : Nat) (q : Query) : Bool :=
  let x := core s (physOf s lc)
  runsInv x q.inv s.sctx && allFinished x && x.pend.all fun p =>
    match p.op with
    | .station id => s.rdma.all fun o => o.id != id || o.sends != 0
    | _ => true

/-- A logical core of a query's grove has rejected its invocation. -/
def invRejected (s : State) (lcs : List Nat) (inv : BitVec 32) : Bool :=
  s.reports.any fun r => match r with
    | .invReject lc seq _ => seq == inv && lcs.contains lc
    | _ => false

/-- How a query or copy stands: its result is out, it failed, or it still runs. -/
def queryOut (s : State) (_g : Nat) (q : Query) : Bool :=
  match q.stage with
  | .running l => l.all fun lc => flushed s lc q
  | .forwarding l => l.all fun lc => flushed s lc q
  | .ended => true
  | _ => false

/-- A query or copy has failed: by a fault, or because a core rejected its invocation (R354). (DEDUCED, log 63) -/
def queryFailed (s : State) (g : Nat) (q : Query) : Bool :=
  q.stage == .failed || invRejected s (groveLcs g) q.inv

/-- The copy of a query that has a role, with its grove. -/
def copyOfRole (s : State) (q : Query) (role : Nat) : Option (Nat × Query) :=
  match s.serve with
  | none => none
  | some v => firstSome (v.queries.map fun e =>
      (e.2.find? fun p => p.ring == q.ring && p.n == q.n && p.role == role).map fun p => (e.1, p))

/-- A guarded query of which only one copy, the forwarding one, is left. -/
def lastCopy (s : State) (q : Query) : Bool :=
  [1, 2, 3].all fun r => r == q.role || (copyOfRole s q r).isNone

/-- QUERY_COMPLETE (R341, R350, R352, R354): the result of an unguarded query or of a forward has been transmitted, or an
unguarded query or a forward has failed. (DEDUCED, log 63) -/
def execQueryComplete (g : Grove) (k : Nat) (s : State) : Out :=
  .next (match queryAt s g k with
    | none => s
    | some q =>
      let fwd : Bool := match q.stage with | .forwarding _ => true | _ => false
      let late := pastDeadline s q
      let s1 := if late && !q.missed then countMiss g q s else s
      if q.role = 0 then
        if queryFailed s g q then endQuery q 7 0 (dropInv g q.inv s1)
        else if queryOut s g q then endQuery q (if late then 8 else 0) (runnerOf g) s1
        else s
      else if !fwd then (if q.stage == .failed && lastCopy s q then guardError q 1 s1 else s)
      else if late || queryFailed s g q then guardError q (if late then 2 else 1) s1
      else if queryOut s g q then endQuery q 0 (runnerOf g) s1
      else s)

/-! ### Guarded queries (R357 to R361) -/

/-- A copy has ended, well or by a fault. -/
def copyOver (s : State) (c : Nat × Query) : Bool := c.2.stage == .ended || queryFailed s c.1 c.2

/-- Two copies that ended agree (R357). -/
def copiesAgree (s : State) (a b : Nat × Query) : Bool :=
  !queryFailed s a.1 a.2 && !queryFailed s b.1 b.2 && a.2.stage == .ended && b.2.stage == .ended && a.2.digests == b.2.digests

/-- Setting how one copy stands. -/
def setCopy (g : Nat) (q : Query) (st : QStage) (outcome : Nat) (s : State) : State :=
  modQueries g (fun l => l.map fun p =>
    if p.ring = q.ring ∧ p.n = q.n then { p with stage := st, outcome := outcome } else p) s

/-- Removing the other copies of a query. -/
def dropOthers (g : Nat) (q : Query) (s : State) : State :=
  match s.serve with
  | none => s
  | some v =>
    let gs := (v.queries.filter fun e => e.1 != g && e.2.any fun p => p.ring == q.ring && p.n == q.n).map (·.1)
    gs.foldl (fun t h => resumeGrove h (modQueries h (fun l => l.filter fun p => !(p.ring == q.ring && p.n == q.n)) t)) s

/-- The GST of a copy forwards the staged result (R358, R359). (DEDUCED, log 63) -/
def forwardCopy (c : Nat × Query) (outcome : Nat) (s : State) : State :=
  let s1 := dropOthers c.1 c.2 (setCopy c.1 c.2 (.forwarding (groveLcs c.1)) outcome s)
  match s1.serve with
  | some v => writeQuery v c.1 c.2 true s1
  | none => s1

/-- GUARD_COMPARE (R358, R359): the k-th query of grove g is copy A; both copies are over. -/
def execGuardCompare (g : Grove) (k : Nat) (s : State) : Out :=
  .next (match queryAt s g k with
    | none => s
    | some q =>
      match copyOfRole s q 2, copyOfRole s q 3 with
      | some b, some c =>
        let a := (g.val, q)
        if q.role ≠ 1 || c.2.stage != .held || !copyOver s a || !copyOver s b then s
        else if pastDeadline s q then guardError q 2 (if q.missed then s else countMiss g q s)
        else if copiesAgree s a b then forwardCopy a 1 s
        else
          let s1 := bump fGuardMismatch 0 1 (setCopy c.1 c.2 (.running (groveLcs c.1)) 0 s)
          match s1.serve with
          | some v => writeQuery v c.1 c.2 false (sharedCut c.1 s1)
          | none => s1
      | _, _ => s)

/-- GUARD_MAJORITY_COMPARE (R359, R360): the k-th query of grove g is copy C, and it is over. -/
def execGuardMajorityCompare (g : Grove) (k : Nat) (s : State) : Out :=
  .next (match queryAt s g k with
    | none => s
    | some q =>
      match copyOfRole s q 1, copyOfRole s q 2 with
      | some a, some b =>
        let c := (g.val, q)
        if q.role ≠ 3 || q.stage == .held || !copyOver s c then s
        else if pastDeadline s q then guardError q 2 (if q.missed then s else countMiss g q s)
        else if copiesAgree s a b || copiesAgree s a c then forwardCopy a 2 s
        else if copiesAgree s b c then forwardCopy b 2 s
        else guardError q 1 s
      | _, _ => s)

/-! ### The end of an invocation (R129) -/

/-- A logical core has ended the invocation of a query: the copy or forward is over with its last core. -/
def endQueryCore (lc : Nat) (inv : BitVec 32) (s : State) : State :=
  modQueries (lc / 16) (fun l => l.map fun q =>
    if q.inv = inv then
      match q.stage with
      | .running m => { q with stage := if (m.erase lc).isEmpty then .ended else .running (m.erase lc) }
      | .forwarding m => { q with stage := .forwarding (m.erase lc) }
      | _ => q
    else q) s

/-- The context of publications: the training context, else the job's lowest one. (DEDUCED, log 64) -/
def pubCtx (s : State) : CtxId :=
  match s.train, s.job with
  | some t, _ => t.ctx
  | none, some j => j.ctx
  | none, none => 0

/-- INVOCATION_END (R129). -/
def execInvocationEnd (c : CoreId) (s : State) : Out :=
  .next (match (core s c).run with
    | none => s
    | some (d, l) =>
      if !invDone (core s c) d then s
      else
        let s1 := modCore c (fun x => (endCore x d l).stirred d.ctx s.time) s
        match lcOf s c with
        | none => s1
        | some lc =>
          let s2 := if some d.ctx = s.sctx then endQueryCore lc d.invSeq s1 else s1
          if d.ctx = pubCtx s ∧ schUp s then modServe (fun v => { v with pubLeft := v.pubLeft.erase (lc, d.invSeq) }) s2 else s2)

/-! ### Epochs (R334 to R336) -/

/-- The logical cores outside the glade: those that publish. (DEDUCED, log 64) -/
def trainingCores (s : State) : List Nat :=
  let glade := rd s fGlade0 0 + 2 ^ 16 * rd s fGlade1 0
  (List.range 512).filter fun lc => !bit glade (lc / 16)

/-- A publishing invocation (R334). -/
def pubDesc (s : State) (v : Serve) (e : Nat) (inv : BitVec 32) : Desc :=
  { lsid := svPub v
    ctx := pubCtx s
    chunks := 1
    invSeq := inv
    prio := false
    preload := false
    resume := false
    image := match s.job with | some j => BitVec.ofNat 56 (fieldAt j.desc 24 8) | none => 0
    pars := [BitVec.ofNat 64 e, BitVec.ofNat 64 (svSlot v e)]
    flaw := none }

/-- EPOCH_PUBLISH (R334, R336): epoch E + 1, once no query bound to E − 1 is queued or running and no publication runs.
(DESIGN CHOICE, log 61; DEDUCED, log 64) -/
def execEpochPublish (s : State) : Out :=
  .next (match s.serve with
    | none => s
    | some v =>
      let e := rd s fEpochPub 0
      if !schUp s ∨ v.pub ≠ 0 ∨ v.queries.any (fun x => x.2.any fun q => q.epoch + 1 == e) then s
      else
        let inv := BitVec.ofNat 32 s.invCtr
        let lcs := trainingCores s
        lcs.foldl (fun t lc => enqueue lc (pubDesc s v (e + 1) inv) t) <| jobRecPut
          (modServe (fun v => { v with pub := e + 1, pubLeft := lcs.map fun lc => (lc, inv) })
            { s with invCtr := s.invCtr + 1 }))

/-- A core still holds a publishing invocation, queued, taken, running or cut. -/
def holdsPub (s : State) (ctx : CtxId) (p : Nat × BitVec 32) : Bool :=
  let x := core s (physOf s p.1)
  hasInv x p.2 (some ctx) || x.saved.any fun r => r.kind == 2 && r.ctx == ctx && r.invSeq == p.2

/-- EPOCH_ORDER (R334): every publishing invocation has ended, a rejected one counting as ended; one that a cut discarded is
streamed again. (DESIGN CHOICE, log 61) -/
def execEpochOrder (s : State) : Out :=
  .next (match s.serve with
    | none => s
    | some v =>
      let left := v.pubLeft.filter fun p => !invRejected s [p.1] p.2
      if !schUp s ∨ v.pub = 0 then s
      else if left.isEmpty then modServe (fun v => { v with pub := 0, pubLeft := [] }) (wr fEpochPub 0 v.pub s)
      else
        left.foldl (fun t p =>
          let d := pubDesc t v v.pub p.2
          if holdsPub t d.ctx p then t else enqueue p.1 d t) s)

/-! ### A ring is set up again (R423), a fault of a context is cleared (R446) -/

/-- The queue pair of a query ring returns to ready-to-send with its entry's PSNs. -/
def qpReset (key : Nat) (s : State) : State :=
  match s.qps.find? fun e => e.1 == key with
  | some (_, q) => { s with
      qps := tset s.qps key (qpOpen q.entry)
      rdma := s.rdma.filter fun o => qpKey o.port o.qpn != key }
  | none => s

/-- RING_RESET (R423). (DEDUCED, log 39) -/
def execRingReset (ring : Fin 4) (mem : Submem) (s : State) : Out :=
  .next (
    if !inService s then s
    else
      match nextDesc s ring mem with
      | none => s
      | some b =>
        if fieldAt b 4 1 ≠ 3 ∨ !seqOk s ring b then s
        else
          let s1 := takeDesc ring s
          let n := fieldAt b 10 1
          match s1.serve with
          | none => jobCpl ring b evRejected stBad 0 s1
          | some v =>
            if !reservedZero b || svNring v ≤ n then jobCpl ring b evRejected stBad 0 s1
            else
              let r := svRing v n
              let s2 := qpReset (qpKey r.port r.qpn) (undeliverOn (fun q => q.ring == n) s1)
              jobCpl ring b evStarted stOk 0 (modQring n (fun q => { q with count := 0, marks := [], expected := 0, stopped := false }) s2))

/-- FAULT_CLEAR (R446): every cut of the fault is done; SCH takes the events that wait and acts by the code of Table 13.5. -/
def execFaultClear (ctx : CtxId) (s : State) : Out :=
  let x := ctxSt s ctx
  .next (match x.fault with
    | none => s
    | some (code, _) =>
      if !x.cuts.isEmpty || !schUp s then s
      else if code = fcAbft ∨ code = fcResidue ∨ code = fcCorrupt then
        let s0 := if s.sctx = some ctx then failQueries s else s
        let s1 := markStep (some code) s0
        let s2 := unitEvents s1
        if (ctxSt s2 ctx).fault.isSome then clearCtx ctx s2 else s2
      else if code = fcPeerLost then endJob stPeer 0 true s
      else if code = fcHalfLost ∨ code = fcStackLost then s
      else endJob stCtxFault code false s)

/-! ### Serving registers (R363) -/

/-- A write of SV_CTL: settings that break their rules leave EN 0. (DEDUCED, log 66) -/
def svCtlPut (w : RegWr) (s : State) : State :=
  match regPut .svCtl 0 w s with
  | (s1, false) => s1
  | (s1, true) =>
    if svRules s1 (rdb s1 fShared 0) (rd s1 fSvK 0) (rd s1 fGlade0 0) (rd s1 fGlade1 0) then s1 else wr fSvCtlEn 0 0 s1

/-- SV_CTL_WRITE (R363). -/
def execSvCtlWrite (w : RegWr) (s : State) : Out := .next (svCtlPut w s)

/-- A write of SV_TIME: SV_CUT keeps its value where the written one is below 2,000. -/
def svTimePut (w : RegWr) (s : State) : State :=
  let (s1, ok) := regPut .svTime 0 w s
  if ok && decide (rd s1 fSvCut 0 < 2000) then wr fSvCut 0 (rd s fSvCut 0) s1 else s1

/-- SV_TIME_WRITE (R363). -/
def execSvTimeWrite (w : RegWr) (s : State) : Out := .next (svTimePut w s)

end Sys2Proof.Machine
end

