-- ==== Sys2Proof/Machine/Ports.lean ====
section
/-! DEFINITION. Doorbells, inbound windows, queue pairs, handle entries, the steward port and the management buses (spec/12 R402 to
R432, R566; spec/06 R213 to R216; spec/10 R355, R356; spec/14 R469; spec/17 R540, R541). -/

namespace Sys2Proof.Machine

/-! ### Queue pairs in error (R356, R407, R411) -/

/-- The port code of a face (Table 12.2). -/
def faceCode : Face → Nat
  | .cpa => 0
  | .cpb => 1
  | .sp => 2

/-- A queue pair can be used: an entry names it and it is not in the error state (R425). -/
def qpLive (s : State) (port qpn : Nat) : Bool := !(qpOf s port qpn).err

/-- The query rings of the serving record on a queue pair. -/
def qpRings (s : State) (port qpn : Nat) : List Nat :=
  match s.serve with
  | none => []
  | some v => (List.range (svNring v)).filter fun n => (svRing v n).port == port && (svRing v n).qpn == qpn

/-- The core and position of the operation that an outside operation serves. -/
def stationPend (s : State) (id : Nat) : Option (CoreId × Nat × Pend) :=
  firstSome (s.cores.map fun e =>
    let i := e.2.pend.findIdx fun p => p.op == .station id
    e.2.pend[i]?.map fun p => (asCore e.1, i, p))

/-- The WAIT that awaits an operation's answer: core, context, engine. -/
def stationWait (s : State) (o : RdmaOp) : Option (CoreId × CtxId × Engine) :=
  match o.use with
  | .waitRead c e =>
    match (core s c).run, ((core s c).eng e).wait with
    | some (d, _), some w => if w.reading = some o.id then some (c, d.ctx, e) else none
    | _, _ => none
  | _ => none

/-- What the failure of an engine's outside access brings about. -/
def failAt (query : Bool) (o : RdmaOp) (c : CoreId) (ctx : CtxId) (e : Engine) (s : State) : State :=
  if query && some ctx == s.sctx then
    match (core s c).run with
    | some (d, _) => if d.ctx = ctx then dropInv (coreGrove c) d.invSeq s else s
    | none => s
  else ctxFault ctx fcRegion (bnat (o.kind != 2)) (engSite s c e 0) (some (c.val, e)) s

/-- What a read made ahead held or awaited under an operation is discarded (R261). -/
def dropAhead (id : Nat) (s : State) : State :=
  { s with cores := s.cores.map fun e => (e.1, { e.2 with ahead := e.2.ahead.filter fun r => r.op != some id }) }

/-- An outside operation fails: the access of a core faults its context OPERAND_REGION (R407), that of a query is given up
(R356). (DEDUCED, log 71) -/
def failOp (query : Bool) (o : RdmaOp) (s : State) : State :=
  let s1 := { s with rdma := s.rdma.filter fun x => x.id != o.id }
  match stationPend s1 o.id, stationWait s1 o with
  | some (c, i, p), _ => failAt query o c p.ctx p.eng (dropPend c i s1)
  | none, some (c, ctx, e) => failAt query o c ctx e s1
  | none, none => dropAhead o.id s1

/-- Queries of a failing queue pair whose completion has been sent and not acknowledged. (DEDUCED, log 43) -/
def lostResults (s : State) (port qpn : Nat) : Nat :=
  ((s.rdma.filter fun o => o.port == port && o.qpn == qpn).filterMap fun o =>
    match o.use with | .result r n => some (r, n) | _ => none).dedup.length

/-- A queue pair enters the error state: its handle entries lose VALID, what is in flight fails, and the queries of a query
ring on it end UNDELIVERED while the ring stops (R356, R407). -/
def qpError (port qpn : Nat) (s : State) : State :=
  let rs := qpRings s port qpn
  let s1 := { s with qps := tset s.qps (qpKey port qpn) { qpOf s port qpn with err := true } }
  let s2 := dropHandles (fun h => h.port == port && h.qpn == qpn) s1
  let s3 := if rs.isEmpty then s2
    else rs.foldl (fun t n => modQring n (fun q => { q with stopped := true }) t)
      (undeliverOn (fun q => rs.contains q.ring) (bump fUndelivered 0 (lostResults s port qpn) s2))
  (s.rdma.filter fun o => o.port == port && o.qpn == qpn).foldl (fun t o => failOp (!rs.isEmpty) o t) s3

/-- Sending a reply. -/
def reply (r : Reply) (s : State) : State := { s with replies := s.replies ++ [r] }

/-- A refused inbound access (R411): on the steward port a posted write is dropped, every other access draws a Completer Abort. -/
def refuseIn (posted : Bool) (face : Face) (qpn : Nat) (s : State) : State :=
  let s1 := bump fInRefused 0 1 s
  match face with
  | .sp => if posted then s1 else reply .abort s1
  | _ => qpError (faceCode face) qpn (reply (.nakAccess face qpn) s1)

/-- Whether an access reaches the device at all: the port's link is up (R24), and a client frame names a live queue pair (R425). -/
def faceUp (face : Face) (qpn : Nat) (s : State) : Bool :=
  match face with
  | .sp => s.spUp
  | _ => linkUp s (faceCode face) && qpLive s (faceCode face) qpn

/-- What becomes of an access that does not: nothing comes in on a link that is down; a frame for a dead queue pair is counted. -/
def faceDrop (face : Face) (s : State) : State :=
  match face with
  | .sp => s
  | _ => if linkUp s (faceCode face) then bump fCpDrop 0 1 s else s

/-! ### Doorbells (R412 to R415, R469) -/

/-- Arming a half's safety monitor for `n` descriptors of a ring from number `from_` on; it holds 256 entries for each ring (R469).
(DEDUCED, log 72) -/
def monArm (h ring from_ n tdb : Nat) (s : State) : State :=
  let held := (s.monitors.filter fun e => e.half == h && e.ring == ring).length
  { s with monitors := s.monitors ++ (List.range (min n (256 - held))).map fun i => ⟨h, ring, (from_ + i) % 2 ^ 32, tdb⟩ }

/-- Arming both monitors for the descriptors that a doorbell announces: HALF_0's at once, HALF_1's when the event has crossed the ride in the
escape class (R469). -/
def armMonitors (ring from_ n : Nat) (s : State) : State :=
  if rdb s fMonEn 0 && bit (rd s fRings 0) ring then
    let (s1, x) := rideSend 0 rideEscape (rideWord ring n) (monArm 0 ring from_ n s.time s)
    rideWait x (.monArm ring from_ n s.time) s1
  else s

/-- A count reaches a job ring's word: one that goes back is ignored. -/
def jobBell (ring cnt : Nat) (s : State) : State :=
  if serialBelow (rd s fDbCount ring) cnt then
    { wr fDbCount ring cnt s with ringSeen := tset s.ringSeen ring s.time }
  else s

/-- A count reaches a query ring's word. -/
def queryBell (ring cnt : Nat) (s : State) : State :=
  match s.serve with
  | none => s
  | some v =>
    let old := (qring v ring).count
    if serialBelow old cnt then
      armMonitors ring old (cumSub cnt old)
        (modQring ring (fun q => { q with count := cnt, marks := q.marks ++ [(cnt, nowPs s)] }) s)
    else s
where
  /-- How far one count is ahead of another. -/
  cumSub (a b : Nat) : Nat := (a + 2 ^ 32 - b) % 2 ^ 32

/-- A face may ring a page: DBP_0 by the steward port or the queue pair of an enabled job ring's handle, DBP_(1 + n) by ring n's
queue pair (R413). -/
def mayRing (s : State) (face : Face) (qpn page : Nat) : Bool :=
  if page = 0 then
    face == .sp || (List.range 4).any fun n =>
      let h := handleOf (htBytes s (ringHandle s n))
      rdb s fJrCtlEn n && h.valid && h.port == faceCode face && h.qpn == qpn
  else
    match s.serve with
    | none => false
    | some v => face != .sp && page ≤ svNring v && (svRing v (page - 1)).port == faceCode face && (svRing v (page - 1)).qpn == qpn

/-- A count rings a word of a page. -/
def ringWord (page word cnt : Nat) (s : State) : State := if page = 0 then jobBell word cnt s else queryBell (page - 1) cnt s

/-- A write to a doorbell page (R413). (DEDUCED, log 69) -/
def bellWrite (face : Face) (qpn page off : Nat) (data : Bytes) (s : State) : State :=
  let cnt := fieldAt data 0 8
  if data.length = 8 ∧ off % 8 = 0 ∧ cnt < 2 ^ 32 ∧ off ≤ (if page = 0 then 0x18 else 0) ∧ mayRing s face qpn page then
    ringWord page (off / 8) cnt s
  else bump fDbStray 0 1 s

/-- The acknowledgement of a client frame. -/
def ackFace (face : Face) (qpn : Nat) (s : State) : State :=
  match face with
  | .sp => s
  | _ => reply (.ack face qpn) s

/-- DOORBELL_WRITE (R413): pages 0 to 16 of the doorbell window. (DEDUCED, log 69) -/
def execDoorbellWrite (face : Face) (qpn page off : Nat) (data : Bytes) (s : State) : Out :=
  .next (
    if !faceUp face qpn s then faceDrop face s
    else if 16 < page ∨ 4096 ≤ off then refuseIn true face qpn s
    else ackFace face qpn (bellWrite face qpn page off data s))

/-! ### Inbound windows (R408 to R411) -/

/-- An inbound entry (Table 12.3) as its fields. -/
structure InWin where
  kind  : Nat
  r     : Bool
  w     : Bool
  atom  : Bool
  ports : Nat
  ctx   : CtxId
  key   : Nat
  dbp   : Nat
  dva   : Nat
  len   : Nat
  qpn   : Nat
deriving DecidableEq, Repr

/-- The window of a number; none where none is loaded. -/
def inWin (s : State) (n : Nat) : Option InWin :=
  (s.iws.find? fun e => e.1 == n).map fun e =>
    let b := e.2
    let f := fieldAt b 1 1
    ⟨fieldAt b 0 1, bit f 0, bit f 1, bit f 2, fieldAt b 2 1, asCtx (fieldAt b 3 1), fieldAt b 4 3, fieldAt b 7 1, fieldAt b 8 7,
      fieldAt b 16 5, fieldAt b 21 3⟩

/-- The access that an outside party wants. -/
inductive InWant where
  | read | write | atomic
deriving DecidableEq, Repr

/-- The window through which an access of `n` bytes may go (R408 to R411). (DEDUCED, log 69) -/
def inAllowed (s : State) (a : Inbound) (n : Nat) (want : InWant) : Option InWin :=
  (inWin s a.win).filter fun w =>
    bit w.ports (faceCode a.face) && (a.face == .sp || w.key == a.key)
      && (w.qpn == 0 || (a.face != .sp && w.qpn == a.qpn))
      && (match want with | .read => w.r | .write => w.w | .atomic => w.atom && w.kind == 1)
      && a.off + n ≤ (if a.face = .sp then min w.len (2 ^ 28) else w.len)
      && (w.kind == 1 || (a.off % 2184 == 0 && n % 2184 == 0))

/-- The first core of the half that a face's port belongs to: its grove's unit translates. (DEDUCED, log 68) -/
def faceCore (face : Face) : Nat := match face with | .cpb => 272 | _ => 0

/-- What resolving the blocks of an access leads to. -/
inductive InPlaces where
  | ok (l : List (Loc × Nat)) | absent (ctx : CtxId) (page : Nat) | bad
deriving DecidableEq, Repr

/-- Resolving addresses for an inbound access, each to a block and offset (R411). (DEDUCED, log 68) -/
def inResolve (a : Inbound) (w : InWin) (want : Want) : List Nat → State → State × InPlaces
  | [], s => (s, .ok [])
  | va :: vs, s =>
    match resolve (faceCore a.face) w.ctx want 0 (BitVec.ofNat 56 va) s with
    | (s1, .here l o) =>
      match inResolve a w want vs s1 with
      | (s2, .ok ls) => (s2, .ok ((l, o) :: ls))
      | r => r
    | (s1, .absent page) => (s1, .absent w.ctx page)
    | (s1, _) => (s1, .bad)

/-- The block pieces of a byte range: address and length of each. -/
def pieces : Nat → Nat → Nat → List (Nat × Nat)
  | 0, _, _ => []
  | f + 1, va, n =>
    if n = 0 then []
    else
      let k := min n (2048 - va % 2048)
      (va, k) :: pieces f (va + k) (n - k)

/-- The pieces of an access: bytes of a RAW window, whole blocks of an IMAGE window. -/
def inPieces (w : InWin) (off n : Nat) : List (Nat × Nat) :=
  if w.kind = 1 then pieces (n / 2048 + 2) (w.dva + off) n
  else (List.range (n / 2184)).map fun i => (w.dva + 2048 * (off / 2184 + i), 2048)

/-- A block that an inbound access cannot land: a DATA event with its record, no context faults (R411); the event falls to the window's
context, so it marks a training step (R449). (DEDUCED, log 44) -/
def inCorrupt (l : Loc) (s : State) : State := unitEvents (markStep none (logWrite 0x0106 srcHw (toLe 8 l.term) s))

/-- FMT that a block holds, open or closed. -/
def fmtHeld (s : State) (l : Loc) : Nat :=
  match openOf s l with
  | some (_, _, f) => f
  | none => (blkStored s l).fmt

/-- Bytes merged into a block of format 7 that has been read (R409). (DEDUCED, log 67) -/
def mergeInto (ctx : CtxId) (l : Loc) (off : Nat) (d : Bytes) (b : Blk) (s : State) : State :=
  let p := splice b.pay off d
  wakeRange (l.addr off) d.length (blkStore l ⟨p, b.side, formTag 7 (genOf s ctx) l.term p b.side⟩ s)

/-- Bytes that have crossed the ride merge into their block (R409). (DEDUCED, log 67) -/
def rawMerge (ctx : CtxId) (l : Loc) (off : Nat) (d : Bytes) (s : State) : State :=
  match blkFetch ctx l s with
  | (s1, .bad) => inCorrupt l s1
  | (s1, .ok b) => mergeInto ctx l off d b s1

/-- The half whose port an outside access comes through (R23). -/
def faceHalf (face : Face) : Half := extHalf (faceCode face)

/-- Part of an inbound write goes to its place: at once in the half of its port, else it crosses the ride and lands when it arrives (R28).
The number of the ride transfer, if any. (DESIGN CHOICE, log 97) -/
def inSend (a : Inbound) (w : InWin) (l : Loc) (b : Bytes) (act : RideDo) (now : State → State) (s : State) : State × Option Nat :=
  let kind : SKind := if w.kind = 1 then .merge else .write
  if l.half = faceHalf a.face then (farAsk w.ctx kind l (now s), none)
  else
    let (s1, x) := rideSend (faceHalf a.face) (rideClass s w.ctx false) b s
    (rideWait x act (stkAsk (portClass s1 w.ctx true) kind whoFabric false (some x) l s1), some x)

/-- Writing the pieces of an access in order until one fails; the last ride transfer that carries one. (DEDUCED, log 67) -/
def inWriteAll (a : Inbound) (w : InWin) : List ((Loc × Nat) × Nat) → Bytes → Option Nat → State → State × Option (Option Nat)
  | [], _, x, s => (s, some x)
  | ((l, o), k) :: ls, d, x, s =>
    if w.kind = 1 then
      match blkFetch w.ctx l s with
      | (s1, .bad) => (inCorrupt l s1, none)
      | (s1, .ok b) =>
        let (s2, y) := inSend a w l (rideWord (l.addr o) k ++ d.take k) (.merge w.ctx l o (d.take k))
          (mergeInto w.ctx l o (d.take k) b) (if l.half = faceHalf a.face then s1 else s)
        inWriteAll a w ls (d.drop k) (y.orElse fun _ => x) s2
    else
      let b := blkOfImage d
      match landCheck b 0 with
      | .accepted _ _ =>
        let (s1, y) := inSend a w l (rideBlock (l.addr 0) b) (.land l b) (landPut l b) s
        inWriteAll a w ls (d.drop 2184) (y.orElse fun _ => x) s1
      | .failed _ => (s, none)

/-- How an inbound access ended; one that crosses the ride ends when its completion has come back. -/
inductive InDone where
  | done | refused | waits (ctx : CtxId) (page : Nat) | crosses (id : Nat)
deriving DecidableEq, Repr

/-- An inbound write (R409 to R411). (DEDUCED, log 67) -/
def inWrite (a : Inbound) (data : Bytes) (s : State) : State × InDone :=
  match inAllowed s a data.length .write with
  | none => (refuseIn true a.face a.qpn s, .refused)
  | some w =>
    let ps := inPieces w a.off data.length
    match inResolve a w .write (ps.map (·.1)) s with
    | (s1, .bad) => (refuseIn true a.face a.qpn s1, .refused)
    | (s1, .absent ctx page) => (s1, .waits ctx page)
    | (s1, .ok ls) =>
      if w.kind = 1 ∧ ls.any (fun l => fmtHeld s1 l.1 != 7) then (refuseIn true a.face a.qpn s1, .refused)
      else
        match inWriteAll a w (ls.zip (ps.map (·.2))) data none s1 with
        | (s2, some none) => (ackFace a.face a.qpn s2, .done)
        | (s2, some (some x)) =>
          let (s3, id) := rideLater (some x) (otherHalf (faceHalf a.face)) rideEscape (rideWord 0 0) s2
          (if a.face = .sp then s3 else rideWait id (.reply (.ack a.face a.qpn)) s3, .crosses id)
        | (s2, none) => (refuseIn true a.face a.qpn s2, .refused)

/-- Reading the pieces of an access in order until one fails. -/
def inReadAll (w : InWin) : List ((Loc × Nat) × Nat) → State → State × Option Bytes
  | [], s => (s, some [])
  | ((l, o), k) :: ls, s =>
    match blkFetch w.ctx l s with
    | (s1, .bad) => (inCorrupt l s1, none)
    | (s1, .ok b) =>
      match inReadAll w ls s1 with
      | (s2, some r) => (s2, some ((if w.kind = 1 then slice b.pay o k else blkImage b) ++ r))
      | (s2, none) => (s2, none)

/-- The addend of a fetch-add as a signed 32-bit amount; none where a 64-bit one is out of range (R213). -/
def faddAmount (wide : Bool) (addend : BitVec 64) : Option Int :=
  if wide then
    if -2 ^ 31 ≤ addend.toInt ∧ addend.toInt ≤ 2 ^ 31 - 1 then some addend.toInt else none
  else some (signed 32 (addend.toNat % 2 ^ 32))

/-- What a station's fetch-add leads to: its word, a page to restore, or a refusal. -/
inductive FaddAt where
  | at_ (f : FAdd) | absent (ctx : CtxId) (page : Nat) | refused
deriving DecidableEq, Repr

/-- A station's fetch-add checked and resolved (R213, R411): client ports carry 64-bit operations only. -/
def faddAt (a : Inbound) (wide : Bool) (addend : BitVec 64) (s : State) : State × FaddAt :=
  let n := if wide then 8 else 4
  match inAllowed s a n .atomic, faddAmount wide addend with
  | some w, some amt =>
    if (w.dva + a.off) % n ≠ 0 then (s, .refused)
    else
      match inResolve a w .write [w.dva + a.off] s with
      | (s1, .ok [(l, o)]) => (s1, .at_ ⟨a.face, a.qpn, n, w.ctx, w.dva + a.off, l.addr o, amt⟩)
      | (s1, .absent ctx page) => (s1, .absent ctx page)
      | (s1, _) => (s1, .refused)
  | _, _ => (s, .refused)

/-- The half of the word of a fetch-add. -/
def FAdd.half (f : FAdd) : Half := halfOf (f.word / 4096 / 2 ^ 28)

/-- The answer to a fetch-add: the word's previous value, over the ride where its port belongs to the other half. (DESIGN CHOICE, log 97) -/
def faddReply (f : FAdd) (old : Nat) (s : State) : State :=
  let r : Reply := .data f.face f.qpn (toLe f.n old)
  if f.half = faceHalf f.face then reply r s
  else
    let (s1, x) := rideSend f.half (rideClass s f.ctx false) (rideWord f.va old) s
    rideWait x (.reply r) s1

/-- A fetch-add applied alone at its word (R199, R214). -/
def faddApply (f : FAdd) (s : State) : State :=
  let old := wordRead s f.word
  let (s1, sat) := wordAdd f.word f.amt (farAsk f.ctx .signal (wordLoc f.word) s)
  faddReply f old (if sat then noteSat f.ctx f.va s1 else s1)

/-- An outside access that meets an off-loaded page waits: the restore is queued, and the access is made again when a restore is done
(R242, R411). (DESIGN CHOICE, log 68) -/
def holdIn (r : InReq) (ctx : CtxId) (page : Nat) (s : State) : State :=
  let s1 := queueRestore ctx page s
  { s1 with inHeld := s1.inHeld ++ [r] }

/-- An inbound read (R409 to R411): its bytes leave in one answer, over the ride where they lie in the other half (R28). -/
def inRead (a : Inbound) (len : Nat) (s : State) : State :=
  match inAllowed s a len .read with
  | none => refuseIn false a.face a.qpn s
  | some w =>
    let ps := inPieces w a.off len
    match inResolve a w .read (ps.map (·.1)) s with
    | (s1, .bad) => refuseIn false a.face a.qpn s1
    | (s1, .absent ctx page) => holdIn (.read a len) ctx page s1
    | (s1, .ok ls) =>
      match inReadAll w (ls.zip (ps.map (·.2))) s1 with
      | (s20, some d) =>
        let s2 := ls.foldl (fun t l => farAsk w.ctx .read l.1 t) s20
        if ls.all fun l => l.1.half == faceHalf a.face then reply (.data a.face a.qpn d) s2
        else
          let cls := rideClass s2 w.ctx false
          let (s3, q) := rideSend (faceHalf a.face) cls (rideWord (w.dva + a.off) len) s2
          let (s4, id) := rideLater (some q) (otherHalf (faceHalf a.face)) cls (rideWord (w.dva + a.off) len ++ d) s3
          rideWait id (.reply (.data a.face a.qpn d)) s4
      | (s2, none) => refuseIn false a.face a.qpn s2

/-- A write with immediate (R414): once the data has landed the window's doorbell page rings. -/
def inWriteImm (a : Inbound) (data : Bytes) (imm : BitVec 32) (s : State) : State :=
  match inWrite a data s with
  | (s1, .done) =>
    match inWin s a.win with
    | some w => if w.dbp = 0 then s1 else bellWrite a.face a.qpn w.dbp 0 (toLe 8 imm.toNat) s1
    | none => s1
  | (s1, .crosses id) =>
    match inWin s a.win with
    | some w => if w.dbp = 0 then s1 else rideWait id (.bell a.face a.qpn w.dbp (toLe 8 imm.toNat)) s1
    | none => s1
  | (s1, .waits ctx page) => holdIn (.writeImm a data imm) ctx page s1
  | (s1, .refused) => s1

/-- A station's fetch-add (R213, R214): a word of the half of its port takes the addend now, one of the other half once it has crossed
the ride. -/
def inFadd (a : Inbound) (wide : Bool) (addend : BitVec 64) (s : State) : State :=
  match faddAt a wide addend s with
  | (s1, .at_ f) =>
    if f.half = faceHalf a.face then faddApply f s1
    else
      let (s2, x) := rideSend (faceHalf a.face) (rideClass s1 f.ctx false) (rideWord f.va (unsigned 32 f.amt)) s1
      rideWait x (.fetchAdd f) s2
  | (s1, .absent ctx page) => holdIn (.fadd a wide addend) ctx page s1
  | (s1, .refused) => refuseIn false a.face a.qpn s1

/-- The face and queue pair of an outside access. -/
def InReq.who : InReq → Face × Nat
  | .write a _ | .writeImm a _ _ | .read a _ | .fadd a _ _ => (a.face, a.qpn)

/-- An outside access that has reached the device. -/
def inServe (r : InReq) (s : State) : State :=
  match r with
  | .write a data =>
    match inWrite a data s with
    | (s1, .waits ctx page) => holdIn r ctx page s1
    | (s1, _) => s1
  | .writeImm a data imm => inWriteImm a data imm s
  | .read a len => inRead a len s
  | .fadd a wide addend => inFadd a wide addend s

/-- Every held outside access is made again, oldest first; one whose link or queue pair is gone is dropped. (DESIGN CHOICE, log 68) -/
def inAgain (s : State) : State :=
  s.inHeld.foldl (fun t r => if faceUp r.who.1 r.who.2 t then inServe r t else faceDrop r.who.1 t) { s with inHeld := [] }

/-- A key and offset of the doorbell window that name one of its 17 pages (R412). -/
def bellHit (s : State) (a : Inbound) : Bool := (a.face == .sp || a.key == rd s fDbKey 0) && a.off < 17 * 4096

/-- INBOUND_WRITE (R409 to R411); window 0 is the doorbell window. -/
def execInboundWrite (a : Inbound) (data : Bytes) (s : State) : Out :=
  .next (
    if !faceUp a.face a.qpn s then faceDrop a.face s
    else if a.win = 0 then
      if a.face ≠ .sp && bellHit s a then
        ackFace a.face a.qpn (bellWrite a.face a.qpn (a.off / 4096) (a.off % 4096) data s)
      else refuseIn true a.face a.qpn s
    else inServe (.write a data) s)

/-- INBOUND_READ (R409 to R411, R413): a read of a doorbell page is discarded and counted. (DEDUCED, log 69) -/
def execInboundRead (a : Inbound) (len : Nat) (s : State) : Out :=
  .next (
    if !faceUp a.face a.qpn s then faceDrop a.face s
    else if a.win = 0 then if bellHit s a then bump fDbStray 0 1 s else refuseIn false a.face a.qpn s
    else inServe (.read a len) s)

/-- WRITE_WITH_IMMEDIATE (R414): a client port's. -/
def execWriteWithImmediate (a : Inbound) (data : Bytes) (imm : BitVec 32) (s : State) : Out :=
  .next (
    if a.face = .sp then s
    else if !faceUp a.face a.qpn s then faceDrop a.face s
    else inServe (.writeImm a data imm) s)

/-- STATION_FETCH_ADD (R213, R214): client ports carry 64-bit operations only. (DEDUCED, log 70) -/
def execStationFetchAdd (a : Inbound) (wide : Bool) (addend : BitVec 64) (s : State) : Out :=
  .next (
    if a.face ≠ .sp ∧ !wide then s
    else if !faceUp a.face a.qpn s then faceDrop a.face s
    else inServe (.fadd a wide addend) s)

/-- RESTORE (R242, R243, R245): the next queued restore in order of RCLASS and age; the outside accesses that wait are made again. -/
def execRestore (h : Half) (s : State) : Out :=
  let q := restoreQ s h
  let copying (r : Restore) : Bool :=
    (restoreQ s 0 ++ restoreQ s 1).any fun p => p.ctx == r.ctx && p.page == r.page && (match p.job with | .copy .. => true | _ => false)
  .next (match pickRestore (fun r => r.job == .restore && !copying r) q with
    | none => s
    | some i =>
      match q[i]? with
      | some r => inAgain (restorePage r (setRestoreQ h (ldrop q i) s))
      | none => s)

/-! ### Answers to the device's own operations (R216, R355, R442) -/

/-- The oldest operation that has left on a queue pair, or on the steward port, and is outstanding. -/
def oldestOp (s : State) (port qpn : Nat) : Option RdmaOp :=
  s.rdma.find? fun o => o.port == port && (port == 2 || o.qpn == qpn) && o.sends != 0

/-- The images of a read. -/
def imagesOf : Nat → Bytes → List Blk
  | 0, _ => []
  | n + 1, b => blkOfImage b :: imagesOf n (b.drop 2184)

/-- The first image that fails its check: its position and whether CHK_FAULT counts it. -/
def badImage : List Blk → Nat → Option (Nat × Bool)
  | [], _ => none
  | b :: bs, i =>
    match landCheck b 0 with
    | .accepted _ _ => badImage bs (i + 1)
    | .failed counted => some (i, counted)

/-- Landing images at their places. -/
def landAll : List Loc → List Blk → State → State
  | l :: ls, b :: bs, s => landAll ls bs (landPut l b s)
  | _, _, s => s

/-- Sending an operation again. -/
def resend (o : RdmaOp) (s : State) : State :=
  portOut o { s with
    rdma := if s.rdma.any fun x => x.id == o.id then s.rdma.map (fun x => if x.id = o.id then o else x) else s.rdma ++ [o] }

/-- An operation is done: it is no longer outstanding, and what it served is accepted. -/
def opDone (o : RdmaOp) (s : State) : State :=
  let s1 := { s with rdma := s.rdma.filter fun x => x.id != o.id }
  match stationPend s1 o.id with
  | some (c, i, _) => dropPend c i s1
  | none => s1

/-- The images of a core's read have come: they land, or the read is made again, at most twice (R442). -/
def readDone (o : RdmaOp) (ctx : CtxId) (dst : List Loc) (data : Bytes) (s : State) : State :=
  let bs := imagesOf dst.length data
  match badImage bs 0 with
  | none => opDone o (landAll dst bs (if o.tries = 0 then s else transitEvent (dst[0]?.map Loc.unit) s))
  | some (i, counted) =>
    let s1 := bump fChkFault 0 (bnat counted) s
    if o.tries < 2 then resend { o with tries := o.tries + 1, sends := 1, sentAt := s.time } s1
    else
      match stationPend s1 o.id, dst[i]? with
      | some (c, _, p), some l =>
        opDone o (ctxFault ctx fcCorrupt l.index (engSite s1 c p.eng 0) (some (c.val, p.eng)) (dataEvent (some l.unit) s1))
      | _, _ => opDone o (dataEvent (dst[i]?.map Loc.unit) s1)

/-- The images of a read made ahead have come: they are held for their repeat, or discarded where one fails its check (R261). -/
def aheadDone (o : RdmaOp) (c : CoreId) (data : Bytes) (s : State) : State :=
  let bs := imagesOf (o.len / 2184) data
  let s1 := { s with rdma := s.rdma.filter fun x => x.id != o.id }
  match badImage bs 0 with
  | none => modCore c (fun x => { x with ahead := x.ahead.map fun r => if r.op = some o.id then { r with op := none, blks := bs } else r }) s1
  | some _ => dropAhead o.id s1

/-- The answer of a WAIT's read of a station word reaches its engine, if the WAIT still awaits it (R217). -/
def waitStationDone (o : RdmaOp) (data : Bytes) (s : State) : State :=
  match stationWait s o with
  | some (c, _, e) =>
    match ((core s c).eng e).wait with
    | some w => if goesOn (core s c) e then waitAnswer c e { w with reading := none } (BitVec.ofNat 32 (fieldAt data 0 4)) s else s
    | none => s
  | none => s

/-- An operation's answer has reached what it served; the answer of a read that a cut has abandoned is discarded (R145). -/
def finishOp (o : RdmaOp) (data : Bytes) (s : State) : State :=
  match o.use with
  | .coreRead _ ctx dst => if (stationPend s o.id).isSome then readDone o ctx dst data s else opDone o s
  | .waitRead .. => waitStationDone o data (opDone o s)
  | .aheadRead c => aheadDone o c data s
  | _ => opDone o s

/-- The core that an operation serves. -/
def RdmaOp.core (o : RdmaOp) : Option CoreId :=
  match o.use with
  | .coreWrite c => some c
  | .coreRead c _ _ => some c
  | .waitRead c _ => some c
  | .aheadRead c => some c
  | _ => none

/-- An operation is answered at its port: the answer returns to the core it serves, over the ride where that is of the other half
(R29, R564); an acknowledgement in the escape class, a read's data as general traffic. (DESIGN CHOICE, log 97) -/
def answerOp (o : RdmaOp) (data : Bytes) (s : State) : State :=
  match o.core with
  | none => finishOp o data s
  | some c =>
    if coreHalf c = (extHalf o.port).val then finishOp o data s
    else
      let (s1, x) := rideSend (extHalf o.port) (if data.isEmpty then rideEscape else 3) (zeros 48 ++ data)
        { s with rdma := s.rdma.filter fun x => x.id != o.id }
      rideWait x (.opDone o data) s1

/-- The held operations of a queue pair, or of the steward port, leave as far as they may. -/
def qpPump (port qpn : Nat) (s : State) : State :=
  (s.rdma.filter fun o => o.port == port && (port == 2 || o.qpn == qpn)).foldl (fun t o =>
    if atPort t o && !opHeld t o then resend { o with sends := 1, sentAt := t.time } t else t) s

/-- RDMA_ACK_RECEIVE (R216): the oldest operation outstanding is acknowledged or answered; a read's answer carries its bytes. -/
def execRdmaAckReceive (p : Fin 3) (qpn : Nat) (data : Bytes) (s : State) : Out :=
  match (oldestOp s p qpn).filter fun _ => linkUp s p with
  | none => .next s
  | some o =>
    match o.use with
    | .coreRead .. => if data.length ≠ o.len then .refused .badOperand else .next (qpPump p qpn (answerOp o data s))
    | .waitRead .. => if data.length ≠ o.len then .refused .badOperand else .next (qpPump p qpn (answerOp o data s))
    | .aheadRead .. => if data.length ≠ o.len then .refused .badOperand else .next (qpPump p qpn (answerOp o data s))
    | _ => .next (qpPump p qpn (answerOp o [] s))

/-- The local ACK timeout code of a queue pair: 2 on that of a query ring (R355), else its entry's. (DEDUCED, log 71) -/
def ackCode (s : State) (port qpn : Nat) : Nat :=
  if (qpRings s port qpn).isEmpty then fieldAt (qpOf s port qpn).entry 5 1 else 2

/-- The local ACK timeout of a queue pair in KCLK cycles, rounded up: 4.096 µs × 2^code. -/
def ackTimeout (s : State) (port qpn : Nat) : Nat := ceilDiv (32768 * 2 ^ ackCode s port qpn) 10

/-- The retry count of a queue pair: 2 on that of a query ring (R355), else its entry's. (DEDUCED, log 71) -/
def retryCount (s : State) (port qpn : Nat) : Nat :=
  if (qpRings s port qpn).isEmpty then bits (fieldAt (qpOf s port qpn).entry 6 1) 0 3 else 2

/-- QP_RETRY_TIMEOUT (R355, R356, R407). -/
def execQpRetryTimeout (p : CPort) (qpn : Nat) (s : State) : Out :=
  let q := qpOf s p qpn
  .next (match oldestOp s p qpn with
    | none => s
    | some o =>
      if q.err || decide (s.time < o.sentAt + ackTimeout s p qpn) then s
      else if o.sends ≤ retryCount s p qpn then resend { o with sends := o.sends + 1, sentAt := s.time } s
      else qpError p qpn s)

/-! ### Frames (R425, Table 12.8) -/

/-- 50 µs in KCLK cycles. -/
def cnpGap : Nat := 40000

/-- 100 µs in KCLK cycles. (DEDUCED, log 70) -/
def rateRecovery : Nat := 80000

/-- The face of a client port. -/
def portFace (p : CPort) : Face := if p = 0 then .cpa else .cpb

/-- Changing a queue pair. -/
def modQp (port qpn : Nat) (f : Qp → Qp) (s : State) : State :=
  { s with qps := tset s.qps (qpKey port qpn) (f (qpOf s port qpn)) }

/-- CLIENT_FRAME_RECEIVE (R425): drops, the CNP on ECN-CE, and the NAK of an operation that is not supported; the accesses that a
frame carries are the commands of their own rows. (DEDUCED, log 70) -/
def execClientFrameReceive (p : CPort) (f : Frame) (s : State) : Out :=
  .next (
    if !linkUp s p then s
    else if !f.roce || !qpLive s p f.qpn then bump fCpDrop 0 1 s
    else
      let q := qpOf s p f.qpn
      let due : Bool := match q.cnpSent with | none => true | some t => t + cnpGap ≤ s.time
      let s1 := if f.ecn && due then reply (.cnp p f.qpn) (modQp p f.qpn (fun q => { q with cnpSent := some s.time }) s) else s
      if f.op = 4 ∨ f.op = 5 ∨ f.op = 7 then reply (.nakRequest (portFace p) f.qpn) s1 else s1)

/-- CNP_RECEIVE (Table 12.8): the rate halves, recovered over 100 µs, unless IGNORE_CNP is set. (DEDUCED, log 70) -/
def execCnpReceive (p : CPort) (qpn : Nat) (s : State) : Out :=
  .next (
    if !linkUp s p then s
    else if !qpLive s p qpn then bump fCpDrop 0 1 s
    else if bit (fieldAt (qpOf s p qpn).entry 1 1) 2 then s
    else modQp p qpn (fun q =>
      { q with halved := if q.halved = 0 ∨ q.cnpAt + rateRecovery ≤ s.time then 1 else q.halved + 1, cnpAt := s.time }) s)

/-! ### Staged entries (R566, R540, R541) -/

/-- A write of MQP_p_k with k below 7, or of HT_n_k with k below 3, goes to staging. (DEDUCED, log 71) -/
def stagePut (ht : Bool) (i : Nat) (w : RegWr) (s : State) : State :=
  let k := if ht then RegKind.ht else RegKind.mqp
  if badWidth w then setupErr (k.off i) w.path 3 s
  else
    let t := if ht then s.htStage else s.mqpStage
    let v := BitVec.ofNat 64 (regPutVal k w (tget t i 0).toNat)
    if ht then { s with htStage := tset t i v } else { s with mqpStage := tset t i v }

/-- A queue-pair entry with its reserved fields zero (R12, Table 12.6). -/
def qpClean (b : Bytes) : Bytes :=
  slice b 0 1 ++ toLe 1 (fieldAt b 1 1 % 8) ++ slice b 2 2 ++ toLe 1 (fieldAt b 4 1 % 64) ++ slice b 5 1 ++ toLe 1 (fieldAt b 6 1 % 64)
    ++ slice b 7 12 ++ zeros 1 ++ slice b 20 6 ++ zeros 6 ++ slice b 32 16 ++ zeros 16

/-- A handle entry with its reserved fields zero (R12, Table 12.2). -/
def htClean (b : Bytes) : Bytes := toLe 1 (fieldAt b 0 1 % 16) ++ slice b 1 6 ++ zeros 1 ++ slice b 8 17 ++ zeros 7

/-- The management entry that a commit makes live: LQPN is 0x10, reserved fields read zero. -/
def mqpEntry (s : State) (p : Nat) (last : Nat) : Bytes :=
  qpClean <| splice ((List.range 7).flatMap (fun k => toLe 8 (tget s.mqpStage (8 * p + k) 0).toNat) ++ toLe 8 last) 7 (toLe 3 0x10)

/-- A write of MQP_p_7. (DEDUCED, log 71) -/
def mqpPut (p : CPort) (w : RegWr) (s : State) : State :=
  let i := 8 * p.val + 7
  if badWidth w then setupErr (RegKind.mqp.off i) w.path 3 s
  else
    let b := mqpEntry s p (regPutVal .mqp w (tget s.mqpStage i 0).toNat)
    let s1 := (List.range 8).foldl (fun t k => regWrite .mqp (8 * p.val + k) (fieldAt b (8 * k) 8) t)
      { s with mqpStage := tset s.mqpStage i (BitVec.ofNat 64 (fieldAt b 56 8)) }
    { s1 with
      qps := tset s1.qps (qpKey p 0x10) (qpOpen b)
      rdma := s1.rdma.filter fun o => !(o.port == p.val && o.qpn == 0x10) }

/-- MQP_COMMIT (R566). -/
def execMqpCommit (p : CPort) (w : RegWr) (s : State) : Out := .next (mqpPut p w s)

/-- A write of HT_n_3: refused by width, by ownership when the entry would change, when pinned, or when malformed and VALID;
reserved fields of an entry without VALID read zero (R12). -/
def htPutLive (n : Nat) (w : RegWr) (s : State) : State :=
  let i := 4 * n + 3
  let off := RegKind.ht.off i
  let last := regPutVal .ht w (tget s.htStage i 0).toNat
  let b := (List.range 3).flatMap (fun k => toLe 8 (tget s.htStage (4 * n + k) 0).toNat) ++ toLe 8 last
  if badWidth w then setupErr off w.path 3 s
  else if w.path != .sch && jobOwned s .ht i && b != htBytes s n then setupErr off w.path 2 s
  else if pinned s n then setupErr off w.path 4 s
  else if (handleOf b).bad && (handleOf b).valid then setupErr off w.path 5 s
  else htPut n (htClean b) { s with htStage := tset s.htStage i (BitVec.ofNat 64 last) }

/-- HT_COMMIT (R540, R541). -/
def execHtCommit (n : Fin 4096) (w : RegWr) (s : State) : Out := .next (htPutLive n w s)

/-! ### Steward port and management buses (R427, R428, R407) -/

/-- The steward link goes down: handle entries that use it lose VALID, accesses in flight through them fault. -/
def stewardDown (s : State) : State :=
  let s1 := dropHandles (fun h => h.port == 2) { s with spUp := false }
  (s1.rdma.filter fun o => o.port == 2).foldl (fun t o => failOp false o t) s1

/-- Job rings on the steward port. (DEDUCED, log 71) -/
def stewardRings (s : State) : List Nat :=
  (List.range 4).filter fun n =>
    let h := handleOf (htBytes s (ringHandle s n))
    rdb s fJrCtlEn n && h.valid && h.port == 2

/-- PERST (R427, R407, R432): PERST_N falls; job rings on the port stop until their EN is written. (DEDUCED, log 71) -/
def execPerst (s : State) : Out :=
  .next (stewardDown { s with ringHeld := s.ringHeld ++ (stewardRings s).filter fun n => !s.ringHeld.contains n })

/-- I3C_ENTDAA (R428). (PRESUMED, log 92) -/
def execI3cEntdaa (bus : Fin 2) (addr : BitVec 7) (s : State) : Out :=
  .next (if s.life == .off || s.life == .inReset then s else { s with i3cAddr := lset s.i3cAddr bus (some addr) })

end Sys2Proof.Machine
end

