-- ==== Sys2Proof/Machine/Monitor.lean ====
section
/-! DEFINITION. The safety monitors and the tests of the safe-state output (spec/14 R469 to R473). -/

namespace Sys2Proof.Machine

/-- Life of a monitor entry in KCLK cycles (R469). (DEDUCED, log 72) -/
def monLimit : Nat := 39984

/-- The oldest entry of a half's monitor and a ring that has expired: the KCLK cycle of its expiry still belongs to a completion
(R470). (DEDUCED, log 72) -/
def expiredEntry (s : State) (h ring : Nat) : Option MonEntry :=
  s.monitors.find? fun e => e.half == h && e.ring == ring && decide (e.tdb + monLimit < s.time)

/-- MONITOR_TRIP (R470): TRIP and RING are set and TRIPS counts, so GUARD_FAULT_N goes low (R471). -/
def execMonitorTrip (h : Half) (ring : Fin 16) (s : State) : Out :=
  .next (match expiredEntry s h ring with
    | none => s
    | some e => bump fTrips 0 1 (wr fRing 0 ring (wr fTrip 0 1 { s with monitors := s.monitors.erase e })))

/-- The test of a monitor is due (R472). -/
def monTestDue (s : State) (h : Nat) : Bool := decide (lget s.monTest h 0 + secK 3600 ≤ s.time)

/-- MONITOR_TEST (R472): SEC's periodic test of one monitor; SEC must run. -/
def execMonitorTest (h : Half) (tripped : Bool) (s : State) : Out :=
  .next (
    if !monTestDue s h || (proc s 0).restarting then s
    else
      let s1 := { s with monTest := lset s.monTest h s.time }
      if tripped then s1 else wr fMonFail 0 1 s1)

/-- A write of SAFE_CTL; LAND_TEST starts the land test. -/
def safeCtlPut (w : RegWr) (s : State) : State :=
  let s1 := (regPut .safeCtl 0 w s).1
  if started fLandTest 0 s s1 then { s1 with landTest := some s.time } else s1

/-- LAND_TEST (R472). -/
def execLandTest (w : RegWr) (s : State) : Out := .next (safeCtlPut w s)

/-- 100 µs in KCLK cycles. -/
def landTestTime : Nat := 80000

/-- LAND_TEST_END (R472). -/
def execLandTestEnd (s : State) : Out :=
  .next (match s.landTest with
    | some t => if t + landTestTime ≤ s.time then wr fLandTest 0 0 { s with landTest := none } else s
    | none => s)

end Sys2Proof.Machine
end

