-- ==== Sys2Proof/Machine/Power.lean ====
section
/-! DEFINITION. Power, clocks and heat: the frequency, droop, cap and thermal loops, bounds, PHASE windows (spec/15 R478 to R500,
spec/16 R510). -/

namespace Sys2Proof.Machine

/-! ### Bounds (R490 to R492) -/

/-- A grove is of the glade while serving is enabled. -/
def gladeOn (s : State) (g : Nat) : Bool :=
  rdb s fSvCtlEn 0 && bit (rd s fGlade0 0 + 2 ^ 16 * rd s fGlade1 0) g

/-- The floor of a grove (R490). -/
def floorK (s : State) (g : Nat) : Nat := if gladeOn s g then max (rd s fFminK g) (rd s fSvK 0) else rd s fFminK g

/-- The ceiling of a grove (R490). -/
def ceilK (s : State) (g : Nat) : Nat := if gladeOn s g then max (rd s fFmaxK g) (rd s fSvK 0) else rd s fFmaxK g

/-- BOUND of a grove's floor (Table 15.5). -/
def boundOf (s : State) (g : Nat) : Nat := if gladeOn s g && decide (rd s fFminK g < rd s fSvK 0) then 2 else 1

/-- The PWR of a grove's half runs. -/
def pwrRuns (s : State) (h : Nat) : Bool := s.life == .up && !(proc s (1 + h)).restarting

/-- POLICY_OVERRIDDEN, BOUND, REASON and OVR_SEEN after a grove's k or limits have changed (R491, R499): set while a limit holds the
grove below its floor, kept until it is back. -/
def policy (g : Nat) (s : State) : State :=
  let p := pwGrove s g
  let f := floorK s g
  if f ≤ rd s fKNow g then wr fPolicyOverridden g 0 (wr fBound g 0 (wr fReason g 0 s))
  else if p.thermK < f ∨ p.capK < f then
    wr fOvrSeen g 1 (wr fPolicyOverridden g 1 (wr fBound g (boundOf s g) (wr fReason g (if p.thermK < f then 1 else 4) s)))
  else s

/-! ### Voltage (R481, R494, R495) -/

/-- The guard level in force: the greatest of the open windows, 15 on a glade grove (R493, R495). -/
def guardLevel (s : State) (g : Nat) : Nat :=
  if gladeOn s g then 15 else ((pwGrove s g).windows.filter (·.isOpen)).foldl (fun m w => max m w.level) 0

/-- The voltage of a grove in mV for its k and guard; the guard does not rise while a rail's current limit stretches the grove (R499).
(DESIGN CHOICE, log 6) -/
def setVolt (g : Nat) (s : State) : State :=
  modPw g (fun p =>
    let n := if p.rail then min p.guard (guardLevel s g) else guardLevel s g
    { p with guard := n, volt := Config.fusedVoltage g (rd s fKNow g) + 6 * n }) s

/-- Setting a grove's divider. -/
def setK (g k : Nat) (s : State) : State := policy g (setVolt g (wr fKNow g k s))

/-! ### The frequency loop (R480 to R484) -/

/-- The k that a grove moves toward: the least of its ceilings. (DEDUCED, log 73) -/
def targetK (s : State) (g : Nat) : Nat := min (ceilK s g) (min (pwGrove s g).capK (pwGrove s g).thermK)

/-- One step of 1 to 8 toward a target (R481). -/
def stepK (k t : Nat) : Nat := if k < t then min t (k + 8) else max t (k - 8)

/-- FREQ_DECISION (R480, R481, R484). -/
def execFreqDecision (g : Grove) (s : State) : Out :=
  let k := rd s fKNow g
  let t := targetK s g
  .next (
    if !pwrRuns s (g / 16) then s
    else if k = t then policy g (setVolt g s)
    else if (pwGrove s g).droop || (pwGrove s g).held then wr fPending g 1 s
    else setK g (stepK k t) s)

/-- A grove's clock stretches: one event however many causes meet (R483, R499). (DEDUCED, log 75) -/
def stretch (g : Nat) (s : State) : State :=
  if rdb s fStretch g then s else bump fDroops g 1 (wr fStretch g 1 s)

/-- DROOP_DETECT (R483, R484). (DEDUCED, log 75) -/
def execDroopDetect (g : Grove) (s : State) : Out :=
  .next (stretch g (modPw g (fun p => { p with droop := true, held := true }) s))

/-- RAIL_CURRENT_TRIP (R483): every grove that the rail feeds. (DEDUCED, log 75) -/
def execRailCurrentTrip (fed : List Grove) (s : State) : Out := .next (fed.foldl (fun (t : State) (g : Grove) => stretch g (modPw g (fun p => { p with rail := true }) t)) s)

/-- STRETCH_END (R483): the line has been clear for 16 delivered cycles; a guard that a current limit held back takes effect (R499). -/
def execStretchEnd (g : Grove) (s : State) : Out :=
  .next (if !rdb s fStretch g then s
    else
      let held := (pwGrove s g).rail
      let s1 := wr fStretch g 0 (modPw g (fun p => { p with droop := false, rail := false }) s)
      if held then setVolt g s1 else s1)

/-- STEP_HOLD_END (R484): the line has been clear for 512 delivered cycles. -/
def execStepHoldEnd (g : Grove) (s : State) : Out :=
  .next (if (pwGrove s g).droop then s else wr fPending g 0 (modPw g (fun p => { p with held := false }) s))

/-! ### Cap (R486, R487, R510) -/

/-- The 32 groves. -/
def allGroves : List Nat := List.range 32

/-- The least k of any divider (R492). (DEDUCED, log 73) -/
def leastK : Nat := 24

/-- Lowering a grove's cap ceiling one below the k it allows. (DEDUCED, log 73) -/
def lowerCap (g : Nat) (s : State) : State :=
  modPw g (fun p => { p with capK := max leastK (targetK s g - 1) }) s

/-- Power above PCAP: groves above their floor are lowered; once none is, every grove is, glade groves last.
(DEDUCED, log 73) -/
def capLower (s : State) : State :=
  let above := allGroves.filter fun g => decide (floorK s g < targetK s g)
  let low := allGroves.filter fun g => decide (leastK < targetK s g)
  let plain := low.filter fun g => !gladeOn s g
  (if above.isEmpty then (if plain.isEmpty then low else plain) else above).foldl (fun t g => lowerCap g t) s

/-- Power below 0.98 × PCAP: each grove below its other ceilings is raised by 1. (DEDUCED, log 73) -/
def capRaise (s : State) : State :=
  allGroves.foldl (fun t g =>
    let o := min (ceilK s g) (pwGrove s g).thermK
    if (pwGrove s g).capK < o then modPw g (fun p => { p with capK := p.capK + 1 }) t else t) s

/-- The cap loop holds some grove below its other ceilings. -/
def capHolds (s : State) : Bool :=
  allGroves.any fun g => decide ((pwGrove s g).capK < min (ceilK s g) (pwGrove s g).thermK)

/-- CAP_LOOP (R486): the leading PWR compares the input power with PCAP. (DEDUCED, log 73) -/
def execCapLoop (watts : Nat) (s : State) : Out :=
  .next (
    if !pwrRuns s 0 then s
    else
      let s0 := wr fPNow 0 (min watts 4095) s
      let cap := rd s fPcap 0
      let s1 := if cap < watts then capLower s0 else if 100 * watts < 98 * cap then capRaise s0 else s0
      wr fCapActive 0 (bnat (decide (cap < watts) || capHolds s1)) s1)

/-- The grade cap (Table 0.1). -/
def gradeCap (s : State) : Nat := if s.fuses.grade = 2 then 2000 else 2400

/-- A write of PW_CTL: PCAP stops at the grade cap (R487). -/
def pwCtlPut (w : RegWr) (s : State) : State :=
  let (s1, ok) := regPut .pwCtl 0 w s
  if ok && decide (gradeCap s1 < rd s1 fPcap 0) then wr fPcap 0 (gradeCap s1) s1 else s1

/-- PW_CTL_WRITE (R487). -/
def execPwCtlWrite (w : RegWr) (s : State) : Out := .next (pwCtlPut w s)

/-- A value of FMIN_K or FMAX_K in range (R492). -/
def kInRange (s : State) (k : Nat) : Bool := 24 ≤ k && k ≤ gradeMax s

/-- A write of GRV_PCTL_n, judged field by field and then as a pair (R492). -/
def grvPctlPut (n : Grove) (w : RegWr) (s : State) : State :=
  let (s1, ok) := regPut .grvPctl n w s
  let pick (f : Fld) : Nat := if kInRange s (rd s1 f n) then rd s1 f n else rd s f n
  let lo := pick fFminK
  let hi := pick fFmaxK
  if !ok then s1
  else if hi < lo then wr fFminK n (rd s fFminK n) (wr fFmaxK n (rd s fFmaxK n) s1)
  else wr fFminK n lo (wr fFmaxK n hi s1)

/-- GRV_PCTL_WRITE (R492). -/
def execGrvPctlWrite (n : Grove) (w : RegWr) (s : State) : Out := .next (grvPctlPut n w s)

/-- CAP_GUARD (R510): while PWR_h restarts and the power exceeds PCAP, every grove of the half runs at k = 24. -/
def execCapGuard (h : Half) (watts : Nat) (s : State) : Out :=
  .next (
    if !(proc s (1 + h)).restarting || decide (watts ≤ rd s fPcap 0) then s
    else
      (List.range 16).foldl (fun t i =>
        let g := 16 * h.val + i
        let t1 := setVolt g (wr fKNow g leastK (modPw g (fun p => { p with capK := leastK }) t))
        wr fOvrSeen g 1 (wr fPolicyOverridden g 1 (wr fBound g (boundOf t1 g) (wr fReason g 4 t1)))) s)

/-! ### Heat (R488, R489) -/

/-- What is left once every domain but CTL and PLL has lost its power: registers, time base, lands, fuses, flash, log.
(DEDUCED, log 74) -/
def loseDomains (s : State) : State :=
  { State.reset with
    pending := s.pending
    time := s.time
    pwrOk := s.pwrOk
    pkgRstN := s.pkgRstN
    life := s.life
    lands := s.lands
    fuses := s.fuses
    regs := s.regs
    flash := s.flash
    logMem := s.logMem
    logSmall := s.logSmall
    logFull := s.logFull
    msix := s.msix
    ibis := s.ibis
    i3cAddr := s.i3cAddr
    replies := s.replies
    rdmaOut := s.rdmaOut
    observed := s.observed
    stale := s.stale
    histPos := s.histPos
    histSeen := s.histSeen
    histHour := s.histHour
    histWait := s.histWait
    nonces := s.nonces
    losses := s.losses
    halfPh := s.halfPh }

/-- A thermal shutdown (R489): every port goes dark, nothing runs until a package reset. (DEDUCED, log 74) -/
def thermalShutdown (s : State) : State :=
  let s1 := histWrite hkThermal 0xFFFF [] (logWrite 0x0107 (1) [] s)
  let s2 := wr fTherm 0 1 (setTherm true (assertFault (setReady false s1)))
  { unbindTorus (loseDomains s2) with life := .shutdown }

/-- The highest of a list. -/
def hottest (l : List Nat) : Nat := l.foldl max 0

/-- What the loop does on one grove at a reading of its hottest sensor (R488): the 105 °C action is hardware's, the 103 °C steps are
PWR's. (DEDUCED, log 74) -/
def thermGrove (g tj : Nat) (s : State) : State :=
  let s0 := wr fTj g (min tj 255) s
  let p := pwGrove s0 g
  if 105 ≤ tj then setK g leastK (modPw g (fun p => { p with thermK := leastK, hot := true, very := true }) s0)
  else if tj ≤ 101 then policy g (modPw g (fun p => { p with thermK := 63, hot := false, very := false }) s0)
  else if p.very then s0
  else if (103 ≤ tj ∨ p.hot) ∧ pwrRuns s0 (g / 16) then
    modPw g (fun p => { p with thermK := max leastK (targetK s0 g - 1), hot := true }) s0
  else s0

/-- THERMAL_LOOP (R488, R489): the hottest sensor of each grove, of each base die, and of each stack.
(DEDUCED, log 74) -/
def execThermalLoop (tj tdie tdram : List Nat) (s : State) : Out :=
  if tj.length ≠ 32 ∨ tdie.length ≠ 16 ∨ tdram.length ≠ 16 then .refused .badOperand
  else
    .next (
      if s.life ≠ .up then s
      else
        let all := hottest (tj ++ tdie)
        let s0 := wr fTjMax 0 (min all 255) (wr fTdramMax 0 (min (hottest tdram) 255) s)
        if 112 ≤ all ∨ 100 ≤ hottest tdram then thermalShutdown s0
        else
          let s1 := (tj.zipIdx).foldl (fun t e => thermGrove e.2 e.1 t) s0
          if 105 ≤ hottest tj then wr fTherm 0 1 (setTherm true s1)
          else if all ≤ 101 then wr fTherm 0 0 (setTherm false s1)
          else s1)

/-! ### PHASE windows (R494 to R496) -/

/-- PHASE_WINDOW_OPEN (R495, R496): the next window that is due; `watts` is the input power its guard would lead to. -/
def execPhaseWindowOpen (g : Grove) (watts : Nat) (s : State) : Out :=
  let ws := (pwGrove s g).windows
  let i := ws.findIdx fun w => !w.isOpen && w.opens ≤ s.time
  .next (match ws[i]? with
    | none => s
    | some w =>
      if !pwrRuns s (g / 16) then s
      else if rd s fPcap 0 < watts then
        bump fPhaseDrop 0 1 (modPw g (fun p => { p with windows := ldrop ws i }) s)
      else setVolt g (modPw g (fun p => { p with windows := lset ws i { w with isOpen := true } }) s))

/-- PHASE_WINDOW_CLOSE (R494): windows whose end has come. -/
def execPhaseWindowClose (g : Grove) (s : State) : Out :=
  .next (setVolt g (modPw g (fun p => { p with windows := p.windows.filter fun w => decide (s.time < w.closes) }) s))

end Sys2Proof.Machine
end

