-- ==== Sys2Proof/Machine/Boot.lean ====
section
/-! DEFINITION. Boot, images, firmware processors, in-service update, the loss of a half, and the clearing (spec/16 R501 to R527). -/

namespace Sys2Proof.Machine

/-! ### Images (R504, R505) -/

/-- The slot's place in the flash (Table 12.10): 1 A, 2 B. -/
def imgBase (slot : Nat) : Nat := (slot - 1) * 0x1800000

/-- Bytes of an image slot: 24 MiB. -/
def imgSize : Nat := 0x1800000

/-- Reads bytes of an image: offset, length. -/
abbrev Reader := Nat → Nat → Bytes

/-- The image of a flash slot. -/
def flashImg (s : State) (slot : Nat) : Reader := fun o n => flashRead s (imgBase slot + o) n

/-- The manifest of an image. -/
def manifest (r : Reader) : Bytes := r 0 4096

/-- SVN of a manifest (Table 16.2). -/
def manSvn (m : Bytes) : Nat := fieldAt m 10 4
/-- BUILD -/
def manBuild (m : Bytes) : Nat := fieldAt m 14 4
/-- HV_WRITE -/
def manHvNew (m : Bytes) : Nat := fieldAt m 6 2
/-- HV_READ_MIN -/
def manHvMin (m : Bytes) : Nat := fieldAt m 8 2
/-- KEY_IDX -/
def manKey (m : Bytes) : Nat := fieldAt m 18 1
/-- REVOKE -/
def manRevoke (m : Bytes) : Nat := fieldAt m 19 1

/-- Component entry `i`. -/
def compAt (m : Bytes) (i : Nat) : Bytes := slice m (128 + 64 * i) 64

/-- The seven entries in use. -/
def comps (m : Bytes) : List Bytes := (List.range 7).map (compAt m)

/-- The entry of a component ID. -/
def compOf (m : Bytes) (id : Nat) : Bytes := ((comps m).find? fun e => fieldAt e 0 1 == id).getD (zeros 64)

/-- First and one past the last byte of a component. -/
def compRange (e : Bytes) : Nat × Nat := (fieldAt e 4 4, fieldAt e 4 4 + fieldAt e 8 4)

/-- A component entry is laid out as given and lies within the image. (DEDUCED, log 79) -/
def compForm (e : Bytes) : Bool :=
  allZero (slice e 1 3) && allZero (slice e 12 4) && (compRange e).1 % 4096 == 0 && 4096 ≤ (compRange e).1
    && (compRange e).2 ≤ imgSize

/-- No two components overlap. (DEDUCED, log 79) -/
def compsApart : List Bytes → Bool
  | [] => true
  | e :: es =>
    es.all (fun f => (compRange e).2 ≤ (compRange f).1 || (compRange f).2 ≤ (compRange e).1) && compsApart es

/-- The SHA-384 of a component as read equals its entry's digest. -/
def compHash (r : Reader) (e : Bytes) : Bool := sha384 (r (compRange e).1 (fieldAt e 8 4)) == slice e 16 48

/-- A SHA-384 as the fuses hold it. (PRESUMED, log 78) -/
def hashBits (h : Bytes) : BitVec 384 := BitVec.ofNat 384 (leNat h)

/-- The manifest checks of R504: fields, layout, key, signature, SVN. (DEDUCED, log 79) -/
def manifestOk (s : State) (m : Bytes) : Bool :=
  fieldAt m 0 4 == 0x4D4E4654 && fieldAt m 4 2 == 1 && fieldAt m 20 1 == 7 && allZero (slice m 21 11)
    && allZero (slice m 736 3360) && allZero (compAt m 7) && manSvn m ≤ 64 && manKey m ≤ 3 && manRevoke m < 16
    && (comps m).all compForm && [1, 2, 3, 4, 5, 6, 7].all (fun id => (comps m).any fun e => fieldAt e 0 1 == id)
    && compsApart (comps m) && s.fuses.svnMin.toNat ≤ manSvn m && !bit s.fuses.keyRev.toNat (manKey m)
    && hashBits (sha384 (slice m 32 96)) == lget s.fuses.keys (manKey m) 0
    && ecdsaVerify (slice m 32 96) (slice m 640 96) (sha384 (slice m 0 640))

/-- A valid image (R504). -/
def imgValid (s : State) (r : Reader) : Bool := manifestOk s (manifest r) && (comps (manifest r)).all (compHash r)

/-- The image that boots, and FAIL (R505, Table 16.9): the higher SVN, then BUILD, a tie to A, else the other one.
(DEDUCED, log 77) -/
def chooseImage (s : State) : Option (Nat × Nat) :=
  let a := manifest (flashImg s 1)
  let b := manifest (flashImg s 2)
  if manSvn a < manSvn b ∨ (manSvn a = manSvn b ∧ manBuild a < manBuild b) then
    if imgValid s (flashImg s 2) then some (2, 0) else if imgValid s (flashImg s 1) then some (1, 0) else none
  else if imgValid s (flashImg s 1) then some (1, 0)
  else if imgValid s (flashImg s 2) then some (2, 1)
  else none

/-- FW_VER_c and FW_DIG_c_k of a component of an image. -/
def fwPut (slot : Nat) (m : Bytes) (c : Nat) (s : State) : State :=
  let s1 := wr fSvn (c - 1) (manSvn m) (wr fPend (c - 1) 0 (wr fBuild (c - 1) (manBuild m) (wr fFwVerSlot (c - 1) slot s)))
  (List.range 6).foldl (fun t k => wr fDigest (6 * (c - 1) + k) (fieldAt (compOf m c) (16 + 8 * k) 8) t) s1

/-! ### Boot (R501 to R503, R525) -/

/-- Sources of log entries (Table 16.6): SEC. -/
def srcSec : Nat := 0

/-- The trace point at the end of a boot step; SCH writes it from step 9 on. (DEDUCED, log 77) -/
def stepTrace (n : Nat) (s : State) : State := logWrite 0x0001 (if n ≤ 8 then srcSec else srcSch) (toLe 1 n) s

/-- A boot step has completed. -/
def stepDone (n : Nat) (s : State) : State := stepTrace n (wr fStep 0 n s)

/-- A boot step has failed: FAIL and FAIL_STEP keep the first failure; trace point 0x0002 carries BOOT_STAT.
(DEDUCED, log 77) -/
def stepFail (fail n : Nat) (s : State) : State :=
  let s1 := if rd s fFailStep 0 = 0 then wr fFail 0 fail (wr fFailStep 0 n s) else s
  logWrite 0x0002 (if n ≤ 8 then srcSec else srcSch) (toLe 8 (regRead s1 .bootStat 0)) s1

/-- Drawing a nonce (before Table 16.8). (DESIGN CHOICE, log 9) -/
def drawNonce (s : State) : State :=
  let v := (Config.nonce s.nonces).toNat
  (List.range 4).foldl (fun t k => wr fNonce k (bits v (64 * k) 64) t) { s with nonces := s.nonces + 1 }

/-- Step 1: power stands, the time base starts, fuses and keys are read. (DESIGN CHOICE, log 76) -/
def bootStart (s : State) : State :=
  let s1 := { s with
    pwrOk := true, pkgRstN := true, life := .up, time := 0, keyStore := true
    lands := ⟨some false, some true, some true⟩ }
  let s2 := wr fIdLo 0 (s.fuses.deviceId.toNat % 2 ^ 64) (wr fIdHi 0 (s.fuses.deviceId.toNat / 2 ^ 64) (wr fGrade 0 s.fuses.grade s1))
  stepDone 1 (drawNonce (wr fSvnMin 0 s.fuses.svnMin.toNat (wr fKeyRev 0 s.fuses.keyRev.toNat s2)))

/-- What step 3 takes from the health history. (DESIGN CHOICE, log 76; DEDUCED, log 80) -/
def bootHealth (s : State) : State :=
  let s0 := histFlush { s with histPos := match histNewest s with | some n => n + 1 | none => 0 }
  let h := healthOf s0
  let s1 := s0
  let s2 := h.slots.foldl (fun t e => modGrove e.1 (fun x => { x with slotOut := ⟨e.2 % 17, Nat.mod_lt _ (by decide)⟩ }) t) s1
  let s3 := wr fSparesUsed 0 ((h.slots.filter fun e => e.2 != 16).length) (setObserved h.observed { s2 with stale := h.stale })
  let s4 := match h.retired with
    | some c => if h.acked then s3 else assertFault (wr fRetCause 0 c (wr fRetired 0 1 s3))
    | none => s3
  stepDone 3 (if rdb s4 fHlSticky 0 then wr fHlSticky 0 0 (retire 3 0 s4) else s4)

/-- Step 4: the dividers at which domains come up. (DESIGN CHOICE, log 76) -/
def bootPower (s : State) : State := stepDone 4 ((List.range 32).foldl (fun t g => setVolt g (wr fKNow g leastK t)) s)

/-- Every store of the device that holds data is zero, every queue empty; translation units, slots left out and link state stay
(R524 step 4). (DEDUCED, log 86) -/
def eraseStores (s : State) : State :=
  { s with
    mem := []
    logMem := []
    cores := []
    groves := s.groves.map fun e => (e.1, { GroveSt.reset with slotOut := e.2.slotOut, abft := e.2.abft })
    ctxs := []
    cutNotes := []
    rideNext := []
    fadds := []
    inHeld := []
    invWaits := []
    replacing := []
    watches := []
    drops := []
    restores := []
    poison := []
    reports := []
    sctx := none
    accs := []
    dies := s.dies.map fun e => (e.1, { DieSt.reset with table := e.2.table, clock := e.2.clock, lost := e.2.lost })
    stkReqs := []
    arrived := []
    txns := []
    inject := []
    rdma := []
    iws := []
    waitJobs := []
    hold := none
    cplWait := []
    ringSeen := []
    freePg := [0, 0]
    freeTbl := 0
    train := none
    serve := none
    monitors := [] }

/-- The end of a clearing: the done record and trace point (R524 step 6). (DEDUCED, log 52) -/
def clearDone (s : State) : State := logWrite 0x0109 srcSec (toLe 1 1) (histWrite hkClearDone 0xFFFF [] s)

/-- A clearing that a boot repeats (R525): the test port stays closed. (DEDUCED, log 86) -/
def bootClear (fail : Bool) (s : State) : State := if fail then retire 8 0 s else clearDone (eraseStores s)

/-- Steps 10 to 12: self-tests of every unit, ports, READY. (DEDUCED, log 77) -/
def bootEnd (o : BootOutcome) (s : State) : State :=
  let s1 := if o.monFail = 0 then s else wr fMonFail 0 1 s
  if !o.katFail.isEmpty then retire 8 0 (stepFail 3 10 (bump fKatFail 0 o.katFail.length s1))
  else
    let s2 := stepDone 11 { stepDone 10 s1 with cpUp := [true, true] }
    stepDone 12 (if rdb s2 fRetired 0 then s2 else setReady true s2)

/-- Steps 6 and 7, and what follows when both succeed. (DEDUCED, log 77) -/
def bootTrain (o : BootOutcome) (s : State) : State :=
  let low := o.stackFail.toNat % 256 ≠ 0
  let s1 := if o.stackFail = 0 then stepDone 6 s else stepFail 3 6 { s with logSmall := decide low }
  let s2 := if o.rideFail then stepFail 3 7 s1 else stepDone 7 s1
  if o.stackFail ≠ 0 ∨ o.rideFail then retire 8 0 (stepDone 9 (stepDone 8 s2))
  else
    let s3 := if (healthOf s2).clearing then bootClear o.clearFail s2 else s2
    bootEnd o (stepDone 9 (stepDone 8 s3))

/-- The boot from power-good (R501 to R503). (DESIGN CHOICE, log 76) -/
def boot (o : BootOutcome) (s : State) : State :=
  let s1 := bootStart s
  match chooseImage s1 with
  | none => { stepFail 2 2 (assertFault s1) with life := .stopped }
  | some (slot, fail) =>
    let m := manifest (flashImg s1 slot)
    let s2 := [1, 2, 3, 4, 5, 6, 7].foldl (fun t c => fwPut slot m c t) (wr fBootStatSlot 0 slot (wr fFail 0 fail s1))
    bootTrain o (stepDone 5 (bootPower (bootHealth (stepDone 2 s2))))

/-- POWER_GOOD (R501): the later of PWR_OK and PKG_RST_N rises. (DESIGN CHOICE, log 11; DESIGN CHOICE, log 76) -/
def execPowerGood (o : BootOutcome) (s : State) : Out :=
  .next (if s.life = .off ∨ s.life = .inReset then boot o s else s)

/-- SVN_COMMIT written (R506); refused while SEC restarts (R512). The fuses hold 7 bits; the SVN of a valid image is at most 64.
(DEDUCED, log 81; DESIGN CHOICE, log 82) -/
def svnCommitOp (s : State) : State :=
  let s1 := wr fSvnCommit 0 0 s
  if (proc s 0).restarting then s1
  else
    let m := manifest (flashImg s (rd s fBootStatSlot 0))
    let v := max s.fuses.svnMin.toNat (min (manSvn m) 127)
    let k := (List.range 4).foldl (fun a i => if bit (manRevoke m) i && i != manKey m then Nat.lor a (2 ^ i) else a) s.fuses.keyRev.toNat
    wr fSvnMin 0 v (wr fKeyRev 0 k
      { s1 with fuses := { s.fuses with svnMin := BitVec.ofNat 7 v, keyRev := BitVec.ofNat 4 k } })

/-- A write of SVN_CTL. -/
def svnPut (w : RegWr) (s : State) : State :=
  let s1 := (regPut .svnCtl 0 w s).1
  if started fSvnCommit 0 s s1 then svnCommitOp s1 else s1

/-- SVN_COMMIT (R506). -/
def execSvnCommit (w : RegWr) (s : State) : Out := .next (svnPut w s)

/-! ### Coppice restart (R508 to R512) -/

/-- An update ends: BUSY falls, RESULT and trace point 0x010A (R513, R514, R526). (DEDUCED, log 52) -/
def endUpdate (step result : Nat) (s : State) : State :=
  logWrite 0x010A srcSec (toLe 1 step ++ toLe 1 result) (wr fBusy 0 0 (wr fResult 0 result { s with update := none }))

/-- A restart begins (R509): cause 0 watchdog, 1 request. (DEDUCED, log 52) -/
def restartProc (p cause : Nat) (s : State) : State :=
  logWrite 0x010B srcSec (toLe 1 p ++ toLe 1 cause)
    (bump fCrCtlCount 0 1 (modProc p (fun x => { x with restarting := true }) s))

/-- A processor whose turn to switch it is. -/
def switching (s : State) (p : Nat) : Bool := match s.update with | some u => u.left.head? == some p | none => false

/-- WATCHDOG_EXPIRY (R508, R526): one that meets the processor's switch rolls the update back. (DEDUCED, log 81) -/
def execWatchdogExpiry (proc_ : Fin 36) (s : State) : Out :=
  .next (
    if (proc s proc_).restarting then s
    else
      let s1 := restartProc proc_ 0 s
      if switching s proc_ then endUpdate 4 3 s1 else s1)

/-- CR_CTL.REQ written (R508, R526). (DEDUCED, log 81) -/
def crReq (s : State) : State :=
  let s1 := wr fReq 0 0 s
  let p := rd s fProc 0
  if 36 ≤ p ∨ ((p = 0 ∨ p = 3) ∧ s.job.isSome) then wr fRefused 0 1 s1
  else if (proc s p).restarting then s1
  else restartProc p 1 s1

/-- A write of CR_CTL. -/
def crPut (w : RegWr) (s : State) : State :=
  let s1 := (regPut .crCtl 0 w s).1
  if started fReq 0 s s1 then crReq s1 else s1

/-- COPPICE_RESTART_REQUEST (R508). -/
def execCoppiceRestartRequest (w : RegWr) (s : State) : Out := .next (crPut w s)

/-- The unguarded queries that a grove's GST has accepted or runs. (DEDUCED, log 84) -/
def gstPlain (v : Serve) (g : Nat) : List (Nat × Query) :=
  v.queries.flatMap fun e => (e.2.filter fun q => q.role == 0 && (e.1 == g || (svRing v q.ring).admitBy % 32 == g)).map fun q => (e.1, q)

/-- A GST runs again (R511): its unguarded queries end FAILED, its guarded copies count as failed. (DEDUCED, log 84) -/
def gstBack (g : Nat) (s : State) : State :=
  match s.serve with
  | none => s
  | some v =>
    let s1 := (gstPlain v g).foldl (fun t e => endQuery e.2 7 0 (dropInv e.1 e.2.inv t)) s
    let held := (queriesOf v g).filter fun q => q.role != 0
    let s2 := held.foldl (fun t q => dropInv g q.inv t) s1
    modQueries g (fun l => l.map fun q => if q.role = 0 then q else { q with stage := .failed }) s2

/-- What SEC verifies before it resumes (R512): the running image's manifest and SEC component. -/
def secOk (s : State) : Bool :=
  let r := flashImg s (rd s fBootStatSlot 0)
  manifestOk s (manifest r) && compHash r (compOf (manifest r) 1)

/-- A restarted SCH reconciles its job record with the mill rings and with the invocation queues (R507): it takes the completions that
stand in the rings, and a publishing invocation that a core has ended is no longer awaited. (DESIGN CHOICE, log 103) -/
def schBack (s : State) : State :=
  let s1 := (List.range 16).foldl (fun t d => (mcWaiting s d).foldl (fun u b => trainCpl d b u) t) s
  modServe (fun v => { v with pubLeft := v.pubLeft.filter fun p =>
    !((core s1 (physOf s1 p.1)).ended.any fun e => e.invSeq == p.2 && e.ctx == pubCtx s) }) s1

/-- COPPICE_RESTART_DONE (R507, R508, R511, R512). -/
def execCoppiceRestartDone (proc_ : Fin 36) (s : State) : Out :=
  let p := proc_.val
  .next (
    if !(proc s p).restarting || (p == 0 && !secOk s) then s
    else
      let s1 := modProc p (fun x => { x with restarting := false }) s
      if p = 0 then histFlush s1 else if p = 3 then schBack s1 else if 4 ≤ p then gstBack (p - 4) s1 else s1)

/-! ### In-service update (R513 to R515) -/

/-- Bytes of the new image through the handle, as the command carries them. -/
def updImg (s : State) (image : Submem) : Reader := fun o n => subRead image (rd s fOfs 0 + o) n

/-- SEC can read the whole image through the handle. (DEDUCED, log 83) -/
def updReadable (s : State) (m : Bytes) : Bool :=
  let h := handleOf (htBytes s (rd s fUpdCtlHandle 0))
  h.valid && !h.bad && h.r
    && decide (rd s fOfs 0 + ((comps m).map fun e => (compRange e).2).foldl max 4096 ≤ h.len)

/-- Writing an image into a slot: the slot is erased, then manifest and components are written. -/
def writeSlot (slot : Nat) (r : Reader) (s : State) : State :=
  let lo := imgBase slot
  let m := manifest r
  let s1 := { s with flash := s.flash.filter fun c => c.1 < lo || lo + imgSize ≤ c.1 }
  (comps m).foldl (fun t e => flashWrite (lo + (compRange e).1) (r (compRange e).1 (fieldAt e 8 4)) t) (flashWrite lo m s1)

/-- The order in which processors switch (R513 step 4). (DEDUCED, log 83) -/
def switchOrder : List Nat := [2, 1] ++ (List.range 32).map (4 + ·) ++ [3, 0]

/-- UPD_CTL.START written: refused while SEC restarts, ignored while an update runs; else SEC reads, verifies, writes and stages
the image. (DEDUCED, log 81) -/
def updStartOp (image : Submem) (s : State) : State :=
  let s1 := wr fStart 0 0 s
  if rdb s fBusy 0 then s1
  else if (proc s 0).restarting then wr fResult 0 2 s1
  else
    let r := updImg s image
    let m := manifest r
    if !(updReadable s m && imgValid s r) then endUpdate 2 2 s1
    else
      let slot := 3 - rd s fBootStatSlot 0
      let s2 := writeSlot slot r s1
      let s3 := (List.range 7).foldl (fun t c => wr fPend c 1 t) s2
      let s4 := { s3 with update := some ⟨slot, manHvMin m, manHvNew m, switchOrder⟩, procs := s3.procs.map fun e => (e.1, { e.2 with switched := false }) }
      logWrite 0x010A srcSec (toLe 1 3 ++ toLe 1 0) (wr fBusy 0 1 (wr fResult 0 0 s4))

/-- A write of UPD_CTL. -/
def updPut (w : RegWr) (image : Submem) (s : State) : State :=
  let s1 := (regPut .updCtl 0 w s).1
  if started fStart 0 s s1 then updStartOp image s1 else s1

/-- UPDATE_START (R513, R515). -/
def execUpdateStart (w : RegWr) (image : Submem) (s : State) : Out := .next (updPut w image s)

/-- The handover record that the old image writes (Table 16.5). -/
def handover (s : State) (p : Nat) (body : Bytes) : Bytes :=
  let m := manifest (flashImg s (rd s fBootStatSlot 0))
  toLe 4 0x48444F56 ++ toLe 1 p ++ zeros 1 ++ toLe 2 (manHvNew m) ++ toLe 4 (manSvn m) ++ toLe 4 (manBuild m) ++ toLe 8 s.time
    ++ toLe 4 body.length ++ toLe 4 (crc32c body) ++ zeros 32 ++ body

/-- The new image takes a handover record (R514). -/
def handoverOk (u : Update) (b : Bytes) : Bool :=
  u.hvMin ≤ fieldAt b 6 2 && fieldAt b 6 2 ≤ u.hvNew && fieldAt b 28 4 == crc32c (slice b 64 (fieldAt b 24 4))

/-- A processor's quiescent point (Table 16.4), as far as it shows between commands: a GST's grove holds no query. -/
def quiescent (s : State) (p : Nat) : Bool :=
  !(proc s p).restarting && (p < 4 || (match s.serve with | some v => (queriesOf v (p - 4)).isEmpty | none => true))

/-- The components that are active once a processor has switched: PWR with PWR_0, GST with the last grove's, SCH's own, and SEC's
with those that no processor runs. (DEDUCED, log 83) -/
def compsOfProc (p : Nat) : List Nat :=
  if p = 1 then [2] else if p = 35 then [4] else if p = 3 then [3] else if p = 0 then [1, 5, 6, 7] else []

/-- FIRMWARE_SWITCH (R513 step 4, R514): the processor whose turn it is, at its quiescent point. (DEDUCED, log 83) -/
def execFirmwareSwitch (proc_ : Fin 36) (body : Bytes) (s : State) : Out :=
  let p := proc_.val
  if 65536 < body.length then .refused .badOperand
  else
    .next (match s.update with
      | none => s
      | some u =>
        if u.left.head? ≠ some p ∨ quiescent s p = false then s
        else if !handoverOk u (handover s p body) then endUpdate 4 3 s
        else
          let m := manifest (flashImg s u.slot)
          let s1 := (compsOfProc p).foldl (fun t c => fwPut u.slot m c t) (modProc p (fun x => { x with switched := true }) s)
          let s2 := { s1 with update := some { u with left := u.left.drop 1 } }
          if (u.left.drop 1).isEmpty then endUpdate 4 1 (wr fBootStatSlot 0 u.slot s2) else s2)

/-! ### Losing a half (R516 to R519) -/

/-- Half of a pending operation's target; none for one that stays outside the package's memory. -/
def POp.half : POp → Option Nat
  | .put l _ => some (l.key / 2 ^ 28 % 2)
  | .patch l _ _ _ _ => some (l.key / 2 ^ 28 % 2)
  | .signal _ w _ _ _ => some (w / 4096 / 2 ^ 28 % 2)
  | .accum h _ _ _ _ _ => some h.val
  | _ => none

/-- Raising the firebreak in a half (R516). (DEDUCED, log 85) -/
def raiseFirebreak (h : Half) (s : State) : State :=
  let cross (c : Nat) (p : Pend) : Bool :=
    p.op == .landed || !rideArrived s p.ride || (match p.op.half with
      | some t => t != coreHalf c
      | none => false)
  let s1 := modRide h.val (fun r => { r with down := true, ready := [], retry := [], resend := none, wire := [], askReplay := false, gotReplay := none }) s
  let onRide (o : RdmaOp) : Bool := s1.rideNext.any fun n => match n.act with | .toPort x => x.id == o.id | .opDone x _ => x.id == o.id | _ => false
  let lost : List POp := ((s1.rdma.filter onRide).map fun o => .station o.id)
    ++ s1.rideNext.filterMap fun n => match n.act with | .opDone x _ => some (.station x.id) | _ => none
  let s2 := { s1 with
    cores := s1.cores.map fun e => (e.1, { e.2 with pend := e.2.pend.filter fun p => !cross e.1 p && !lost.contains p.op })
    rdma := s1.rdma.filter fun o => !onRide o
    watches := s1.watches.filter fun w => w.home.half.val == coreHalf w.core
    rideNext := []
    stkReqs := s1.stkReqs.filter fun a => rideArrived s a.ride
    halfPh := .firebreak }
  wr fFirebreak 0 1 (setReady false s2)

/-- A package's port is dead: it goes DOWN. -/
def killPorts (h : Half) (s : State) : State :=
  (List.range 6).foldl (fun t p => if portHalf p = h ∧ portState t p ≠ 0 then portDown p t else t) s

/-- The stores and units of HALF_1 after its reset: memory zero, cores, groves and dies at reset; slots left out stay. -/
def resetHalf1 (s : State) : State :=
  { s with
    mem := s.mem.filter fun c => c.1 / 2 ^ 40 % 2 == 0
    cores := s.cores.filter fun e => e.1 < 272
    groves := s.groves.map fun e => if e.1 < 16 then e else (e.1, { GroveSt.reset with slotOut := e.2.slotOut })
    dies := s.dies.filter fun e => e.1 < 8
    stkReqs := s.stkReqs.filter fun a => a.die < 8
    accs := s.accs.filter fun e => e.1 < 128
    poison := s.poison.filter fun e => e.1 < 8
    restores := s.restores.filter fun e => e.1 = 0
    watches := s.watches.filter fun w => coreHalf w.core == 0 && w.home.half == 0
    drops := s.drops.filter fun d => coreHalf d.1 == 0
    monitors := s.monitors.filter fun e => e.half = 0 }

/-- What a half's loss stops: an update ends with RESULT 3, a clearing stops (R526). (DEDUCED, log 85) -/
def lossStops (s : State) : State :=
  let s1 := if s.update.isSome then endUpdate 4 3 s else s
  wr fClearing 0 0 { s1 with clearing := none }

/-- HALF_1 is lost (R518). (DEDUCED, log 52; DEDUCED, log 85) -/
def loseHalf1 (s : State) : State :=
  let s1 := killPorts 1 (lossStops s)
  let s2 := (liveCtxs s1).foldl (fun t c => ctxFault c fcHalfLost 1 (Site.bare 7 0) none t) s1
  let s3 := endJob stPeer 0 false (peerLostOp 3 none (ownCoord s2) none s2)
  let ls := (s3.losses.filter fun t => s3.time < t + dayK) ++ [s3.time]
  let s4 := wr fHalf1Losses 0 (min ls.length 3) { s3 with losses := ls, hold := none }
  if 3 ≤ ls.length then retire 4 1 { s4 with halfPh := .waiting } else { resetHalf1 s4 with halfPh := .rebooting }

/-- The queries of the rings that GSTs of HALF_1 serve, with one entry for each. (DEDUCED, log 85) -/
def half1Queries (v : Serve) : List Query :=
  let l := v.queries.flatMap fun e => e.2.filter fun q => (svRing v q.ring).admitBy / 16 % 2 == 1
  l.filter fun q => q.role == 0 || q.role == 1 || !(l.any fun p => p.ring == q.ring && p.n == q.n && p.role == 1)

/-- HALF_0 is lost, as HALF_1 acts (R519). (DEDUCED, log 85) -/
def loseHalf0 (s : State) : State :=
  let s1 := killPorts 0 (lossStops s)
  let s2 := { s1 with cores := s1.cores.map fun (e : Nat × Core) => if coreHalf e.1 = 1 then (e.1, { e.2 with forced := true }) else e }
  let s3 := match s2.serve with
    | none => s2
    | some v =>
      let ended := (half1Queries v).foldl (fun (t : State) (q : Query) =>
        if (copyOfRole t q q.role).isNone then t else if q.role = 0 then endQuery q 7 0 t else guardError q 1 t) s2
      modServe (fun v => { v with rings := (List.range (svNring v)).foldl (fun r n =>
        if (svRing v n).admitBy / 16 % 2 = 1 then tset r n { tget r n QRing.reset with stopped := true } else r) v.rings }) ended
  wr fHlSticky 0 1 (assertFault (sendAborts 3 (ownCoord s3) none { s3 with halfPh := .waiting }))

/-- HALF_QUERY (R517): half `h` has raised the firebreak and queries the other half. (DEDUCED, log 45) -/
def execHalfQuery (h : Half) (a : HalfAnswer) (s : State) : Out :=
  .next (
    if s.halfPh ≠ .firebreak ∨ (rideEnd s h.val).down = false then s
    else if a = .clockedOutOfReset then { retire 2 0 s with halfPh := .waiting }
    else
      let s1 := logWrite 0x0108 (if h = 0 then srcSec else srcHw) (toLe 1 (1 - h.val)) s
      if h = 0 then loseHalf1 s1 else loseHalf0 s1)

/-- FIREBREAK_LOWER (R518): HALF_1 has been reset and has repeated steps 4 to 8 and 10. (DEDUCED, log 85) -/
def execFirebreakLower (katFail : List HwUnit) (s : State) : Out :=
  .next (
    if s.halfPh ≠ .rebooting then s
    else
      let s1 := [4, 5, 6, 7, 8].foldl (fun t n => stepTrace n t) s
      if !katFail.isEmpty then retire 8 0 { bump fKatFail 0 katFail.length s1 with halfPh := .waiting }
      else
        let s2 := { stepTrace 10 s1 with ride := [{ RideEnd.reset with goodSince := s.time }, { RideEnd.reset with goodSince := s.time }], halfPh := .whole }
        let s3 := wr fFirebreak 0 0 s2
        if rdb s3 fRetired 0 || rdb s3 fOpen 0 then s3 else setReady true s3)

/-! ### The clearing (R523 to R526) -/

/-- The nonce as OPEN_NONCE_0 to OPEN_NONCE_3 show it. -/
def nonceBytes (s : State) : Bytes := (List.range 4).flatMap fun k => toLe 8 (rd s fNonce k)

/-- The checks of an opening token (R523). -/
def tokenOk (s : State) (b : Bytes) : Bool :=
  fieldAt b 0 4 == 0x4F50454E && fieldAt b 4 1 < 4 && allZero (slice b 5 3) && fieldAt b 8 16 == s.fuses.deviceId.toNat
    && slice b 24 32 == nonceBytes s && allZero (slice b 248 264) && hashBits (sha384 (slice b 56 96)) == s.fuses.debugKey
    && ecdsaVerify (slice b 56 96) (slice b 152 96) (sha384 (slice b 0 152))

/-- OPENING_TOKEN (R512, R523, R524): refused while SEC restarts; an accepted token begins the clearing.
(DEDUCED, log 52; DEDUCED, log 81) -/
def execOpeningToken (token : Bytes) (s : State) : Out :=
  if token.length ≠ 512 then .refused .badOperand
  else
    .next (
      if s.life ≠ .up ∨ (proc s 0).restarting ∨ s.clearing.isSome then s
      else
        drawNonce (
          if tokenOk s token then
            logWrite 0x0109 srcSec (toLe 1 0) (histWrite hkClearBegun 0xFFFF []
              (wr fClearing 0 1 { s with clearing := some (BitVec.ofNat 2 (fieldAt token 4 1)) }))
          else bump fAttempts 0 1 (wr fTokenBad 0 1 s)))

/-- Steps 1 and 2 of the clearing: service ends, ports DARK, handles and windows invalid. -/
def clearService (s : State) : State :=
  let s1 := endJob stCancelled 0 false (setReady false s)
  dropHandles (fun _ => true) (unbindTorus { s1 with iws := [] })

/-- CLEARING (R524, R526): it waits while an update runs; a readback failure retires the device. (DEDUCED, log 86) -/
def execClearing (readbackOk : Bool) (s : State) : Out :=
  .next (match s.clearing with
    | none => s
    | some scope =>
      if s.update.isSome then s
      else
        let s1 := { clearService s with keyStore := false, clearing := none }
        let s2 := wr fClearing 0 0 (wr fLogHead 0 0 (wr fLogTail 0 0 { eraseStores s1 with logFull := false }))
        if readbackOk then wr fOpen 0 1 (wr fScope 0 scope.toNat (clearDone s2)) else retire 8 0 s2)

end Sys2Proof.Machine
end

