-- ==== Sys2Proof/Machine/Setup.lean ====
section
/-! DEFINITION. The set-up space: writes of registers, the read of SETUP_ERR, what a read returns (spec/17 R528 to R541). -/

namespace Sys2Proof.Machine

/-- What a read of a register returns (R532): the log ring's and the history's windows and the time base are formed at the read
(R521, R522, R464); every other register reads as it is held. (DEDUCED, log 87) -/
def regView (s : State) (k : RegKind) (i : Nat) : Nat :=
  match k with
  | .logTime => s.time % 2 ^ 64
  | .logData => fieldAt (logRead s (rd s fIdx 0) 64) (8 * i) 8
  | .histData => fieldAt (histAt s (rd s fIndex 0)) (8 * i) 8
  | .arbCtl => putBits (regRead s .arbCtl i) 16 6 ((die s i).clock % 64)
  | k => regRead s k i

/-- A write of JR_CTL_n: one that leaves EN at 1 serves again a ring that had stopped (R432), and sends the completions that wait.
(DEDUCED, log 88) -/
def jrCtlPut (n : Nat) (w : RegWr) (s : State) : State :=
  match regPut .jrCtl n w s with
  | (s1, false) => s1
  | (s1, true) =>
    if rdb s1 fJrCtlEn n && w.part != .high then cplFlush n { s1 with ringHeld := s1.ringHeld.filter (· != n) } else s1

/-- A write of CTX_SAVE: SAVE_PG above 239 leaves the field unchanged (R539). -/
def ctxSavePut (n : Nat) (w : RegWr) (s : State) : State :=
  match regPut .ctxSave n w s with
  | (s1, false) => s1
  | (s1, true) => if 239 < rd s1 fSavePg n then wr fSavePg n (rd s fSavePg n) s1 else s1

/-- CTX_SAVE_WRITE (R539). -/
def execCtxSaveWrite (n : CtxId) (w : RegWr) (s : State) : Out := .next (ctxSavePut n w s)

/-- A number as a client port. -/
def asCPort (n : Nat) : CPort := ⟨n % 2, Nat.mod_lt _ (by decide)⟩

/-- A number as a torus port. -/
def asTPort (n : Nat) : TPort := ⟨n % 6, Nat.mod_lt _ (by decide)⟩

/-- A write of LOG_PTR: moving LOG_TAIL acknowledges entries, to LOG_HEAD all of them (R522). -/
def logPtrPut (w : RegWr) (s : State) : State :=
  match regPut .logPtr 0 w s with
  | (s1, false) => s1
  | (s1, true) => if w.part = .high then s1 else { s1 with logFull := false }

/-- A write to the register at a mapped offset: a register whose write does more than its access types say takes the operation of its
own row. -/
def regWriteAt (k : RegKind) (i : Nat) (w : RegWr) (s : State) : State :=
  match k with
  | .svnCtl => svnPut w s
  | .updCtl => updPut w [] s
  | .crCtl => crPut w s
  | .intStat => intStatPut w s
  | .safeCtl => safeCtlPut w s
  | .svCtl => svCtlPut w s
  | .svTime => svTimePut w s
  | .pwCtl => pwCtlPut w s
  | .grvPctl => grvPctlPut (asGrove i) w s
  | .jrCtl => jrCtlPut i w s
  | .mqp => if i % 8 = 7 then mqpPut (asCPort (i / 8)) w s else stagePut false i w s
  | .ht => if i % 4 = 3 then htPutLive (i / 4) w s else stagePut true i w s
  | .tpCtl => tpCtlWrite (asTPort i) w s
  | .ctxSave => ctxSavePut i w s
  | .logPtr => logPtrPut w s
  | .ssCtl => ssCtlPut i w s
  | .arbCtl => arbCtlPut i w s
  | k => (regPut k i w s).1

/-- A write at an offset of the set-up space (R528 to R530); beyond it no setup register lies.
(DEDUCED, log 83; DEDUCED, log 87) -/
def setupWrite (off : Nat) (w : RegWr) (s : State) : State :=
  if 0x80000 ≤ off then s
  else if off % 8 ≠ 0 then setupErr off w.path 3 s
  else
    match regAt off with
    | none => setupErr off w.path 1 s
    | some (k, i) => regWriteAt k i w s

/-- REGISTER_WRITE (R529, R530, R532, R535). (DEDUCED, log 87) -/
def execRegisterWrite (off : Nat) (w : RegWr) (s : State) : Out := .next (setupWrite off w s)

/-- SETUP_ERR_READ (R532): the value returns on the path, and the fields are zero after it. (DEDUCED, log 87) -/
def execSetupErrRead (path : Path) (s : State) : Out :=
  .next (regWrite .setupErr 0 0 (reply (.setup path (BitVec.ofNat 64 (regRead s .setupErr 0))) s))

/-! ### The steward port's configuration space (R542) -/

/-- The items of Table 17.5 that are numbers. -/
inductive ConfigItem where
  | vendor | device | revision | classCode | subVendor | subsystem | headerType | serial | msixTable | msixPending
deriving DecidableEq, Repr

/-- Table 17.5: what a read of the configuration space finds, from the fuses and DEV_ID_0. -/
def configItem (s : State) : ConfigItem → Nat
  | .vendor | .subVendor => 0x1F6A
  | .device => 0x2416
  | .revision => 0xA1
  | .classCode => 0x120000
  | .subsystem => if s.fuses.grade = 2 then 0x000B else 0x000A
  | .headerType => 0
  | .serial => regRead s .devId0 0
  | .msixTable => 0xF0000
  | .msixPending => 0xF8000

end Sys2Proof.Machine
end

