-- ==== Sys2Proof/Machine/LandCmds.lean ====
section
/-! DEFINITION. Lands and links: power, package reset, light, the steward and client links (spec/01 R24, R41; spec/12 R407, R427;
spec/16 R516; spec/18 R548 to R556), and standstill (spec/06 R219 to R222). -/

namespace Sys2Proof.Machine

/-! ### Ride and light -/

/-- 3,200 FCLK cycles in KCLK cycles. -/
def rideDownLimit : Nat := 1600

/-- RIDE_DOWN (R41, R516): a receiver that has taken no good flit for 3,200 FCLK cycles raises the firebreak.
(DESIGN CHOICE, log 89) -/
def execRideDown (h : Half) (s : State) : Out :=
  let r := rideEnd s h.val
  .next (if s.life = .up ∧ r.down = false ∧ r.goodSince + rideDownLimit ≤ s.time then raiseFirebreak h s else s)

/-- A torus port on which flits can flow, or that resizes: loss of its light takes it DOWN; one in TRAIN goes DOWN at its own limit
(R562). (DESIGN CHOICE, log 89) -/
def litPort (s : State) (p : Nat) : Bool := portState s p == 2 || portState s p == 3 || portState s p == 4

/-- A client port reports link down. -/
def clientDown (cp : Nat) (s : State) : State := { s with cpUp := lset s.cpUp cp false }

/-- LOSS_OF_LIGHT (R24, R551): LS_0 feeds HALF_0's ports XN, YN, ZN and CPA, LS_1 HALF_1's XP, YP, ZP and CPB (Table 1.2).
(DESIGN CHOICE, log 89) -/
def execLossOfLight (ls : Fin 2) (s : State) : Out :=
  .next (((List.range 6).filter fun p => portHalf p == ls && litPort s p).foldl (fun t p => portLose p t) (clientDown ls.val s))

/-- CLIENT_LINK_DOWN (R24): a fibre fault of one client port. (DESIGN CHOICE, log 89) -/
def execClientLinkDown (cp : CPort) (s : State) : Out := .next (clientDown cp.val s)

/-- STEWARD_LINK_DOWN (R407). -/
def execStewardLinkDown (s : State) : Out := .next (stewardDown s)

/-- STEWARD_LINK_UP (R502). -/
def execStewardLinkUp (s : State) : Out :=
  .next (if s.life = .off ∨ s.life = .inReset then s else { s with spUp := true })

/-! ### Power and reset (R548, R554 to R556) -/

/-- What outlasts a reset: fuses, flash, nonces drawn, the model's counter, what has left the device, the waiting commands, records that wait for SEC (R462).
(DEDUCED, log 90) -/
def afterReset (s : State) : State :=
  { State.reset with
    pending := s.pending
    fuses := s.fuses
    flash := s.flash
    nonces := s.nonces
    msix := s.msix
    ibis := s.ibis
    replies := s.replies
    rdmaOut := s.rdmaOut
    histWait := s.histWait }

/-- Every domain is off, the lands are high impedance. (DEDUCED, log 90) -/
def powerOff (s : State) : State := afterReset s

/-- PWR_OK_FALL (R554). -/
def execPwrOkFall (s : State) : Out := .next (powerOff s)

/-- VIN_BROWNOUT (R555): as if PWR_OK had fallen. -/
def execVinBrownout (s : State) : Out := .next (powerOff s)

/-- PKG_RESET (R556): reset with power standing; HL_STICKY stays. (DEDUCED, log 90) -/
def execPkgReset (s : State) : Out :=
  .next (
    if !s.pwrOk then s
    else wr fHlSticky 0 (rd s fHlSticky 0) { afterReset s with pwrOk := true, life := .inReset })

/-! ### Standstill (R219 to R222) -/

/-- An engine that belongs to a context: it runs an invocation of it and has not finished its last body. -/
def belongs (x : Core) (ctx : CtxId) (e : Engine) : Bool := runsCtx x ctx && (x.eng e).ctl.part != .finished

/-- KCLK cycles after which a grove's quiet counter reports (R219). -/
def quietLimit : Nat := 65536

/-- A core holds work of a context that could start, that awaits acceptance or resumption, or that its matrix engine has still to write. -/
def holdsWork (x : Core) (ctx : CtxId) : Bool :=
  x.pend.any (fun p => p.ctx == ctx) || x.saved.any (fun r => r.ctx == ctx && r.kind == 2)
    || (runsCtx x ctx && !x.mxe.passes.isEmpty)
    || (x.run.isNone && (x.queue.any (fun d => d.ctx == ctx) || (match x.taken with | some (d, _) => d.ctx == ctx | none => false)))

/-- An engine that belongs to a context waits, not externally, and has waited since 65,536 cycles before a time. -/
def stillEng (t : Nat) (y : Eng) : Bool :=
  match y.wait with
  | some w => !w.ext && decide (w.begin + quietLimit ≤ t)
  | none => false

/-- A core meets the conditions of a still context, and nothing has broken them in the 65,536 cycles before a time (R219). (DEDUCED, log 91) -/
def coreStill (s : State) (ctx : CtxId) (t c : Nat) : Bool :=
  let x := core s c
  !holdsWork x ctx && decide (tget x.stir ctx 0 + quietLimit ≤ t)
    && allEngines.all fun e => !belongs x ctx e || stillEng t (x.eng e)

/-- Some engine of a grove belongs to a context. -/
def groveHas (s : State) (ctx : CtxId) (g : Nat) : Bool := (groveCores g).any fun c => allEngines.any (belongs (core s c) ctx)

/-- GROVE_QUIET (R219): the grove's cores have met the conditions for 65,536 KCLK cycles without a break. -/
def execGroveQuiet (g : Grove) (ctx : CtxId) (s : State) : Out :=
  .next (
    if gstUp s g && (groveCores g).all (coreStill s ctx s.time) then
      modGrove g (fun x => { x with quiet := (x.quiet.filter fun q => q.1 != ctx) ++ [(ctx, s.time)] }) s
    else s)

/-- The grove's answer to CONFIRM: its counter has not restarted since its report; a grove in which no engine belongs to the context
counts as quiet (R219, R220). (DEDUCED, log 91) -/
def confirms (s : State) (ctx : CtxId) (g : Nat) : Bool :=
  match (grove s g).quiet.find? fun q => q.1 == ctx with
  | some q => (groveCores g).all (coreStill s ctx q.2)
  | none => !groveHas s ctx g && (groveCores g).all fun c => !holdsWork (core s c) ctx

/-- Every grove has reported, or counts as quiet. (DEDUCED, log 91) -/
def allReported (s : State) (ctx : CtxId) : Bool :=
  allGroves.all fun g => !groveHas s ctx g || (grove s g).quiet.any fun q => q.1 == ctx

/-- A write or signal addressed to the context's memory is in the ride, the fabric or a mill's intake; a whole block that crosses the ride
counts for every context. -/
def inFlight (s : State) (ctx : CtxId) : Bool :=
  (rd s fRctx 0 == ctx.val && !s.arrived.isEmpty) || (s.txns.any fun e => e.2.ctx == ctx)
    || (s.accs.any fun e => e.1 % 16 == ctx.val && !e.2.intake.isEmpty)
    || (s.dies.any fun e => e.2.admitted.any fun m => m.ctx == ctx)
    || (s.rideNext.any fun n => match n.act with | .land .. => true | .merge x .. => x == ctx | .fetchAdd f => f.ctx == ctx | _ => false)
    || (s.fadds.any fun f => f.ctx == ctx)

/-- One entry of the wait graph (Table 6.4). -/
def graphEntry (lc : Nat) (e : Engine) (d : Desc) (k : Ctl) (w : Waiting) : Bytes :=
  toLe 2 lc ++ toLe 1 (engCode e) ++ toLe 1 (bnat w.slot.isSome) ++ toLe 2 k.pc ++ toLe 2 k.rep ++ toLe 4 k.chunk.toNat
    ++ toLe 4 d.invSeq.toNat ++ toLe 7 w.va.toNat ++ toLe 1 w.cond.val ++ toLe 4 w.target.toNat ++ toLe 4 w.seen.toNat

/-- The entries, by LC and then by engine (R222). -/
def waitGraph (s : State) (ctx : CtxId) : List Bytes :=
  (List.range 512).flatMap fun lc =>
    let x := core s (physOf s lc)
    allEngines.filterMap fun e =>
      match x.run, (x.eng e).wait with
      | some (d, _), some w => if belongs x ctx e then some (graphEntry lc e d (x.eng e).ctl w) else none
      | _, _ => none

/-- The wait-graph record (Table 6.3). -/
def graphRecord (s : State) (ctx : CtxId) (es : List Bytes) : Bytes :=
  toLe 4 0x57475246 ++ toLe 1 ctx.val ++ zeros 1 ++ toLe 2 es.length ++ toLe 8 s.time ++ zeros 16 ++ es.flatMap id

/-- Forgetting a round of reports. -/
def dropRound (ctx : CtxId) (s : State) : State :=
  { s with groves := s.groves.map fun e => (e.1, { e.2 with quiet := e.2.quiet.filter fun q => q.1 != ctx }) }

/-- STANDSTILL_CONFIRM (R220 to R222): every grove has reported; the context faults STANDSTILL when all answers are yes, unless it has
faulted already. (DEDUCED, log 13; DEDUCED, log 91) -/
def execStandstillConfirm (ctx : CtxId) (s : State) : Out :=
  .next (
    if !schUp s || !allReported s ctx then s
    else
      let es := waitGraph s ctx
      let s1 := dropRound ctx s
      if (ctxSt s ctx).fault.isSome || !(ctxSt s ctx).live || es.isEmpty || inFlight s ctx || !allGroves.all (confirms s ctx) then s1
      else logWrite 0x0101 srcSch (graphRecord s ctx es) (ctxFault ctx fcStandstill es.length (Site.bare 7 0) none s1))

end Sys2Proof.Machine
end

