-- ==== Sys2Proof/Machine/Mill.lean ====
section
/-! DEFINITION. Mill jobs (spec/08 R284 to R295). -/

namespace Sys2Proof.Machine

/-! ### Programs (Tables 8.3 and 8.4) -/

/-- An operation word. -/
def opWord (op d a b c : Nat) : Nat := op * 2 ^ 27 + d * 2 ^ 23 + a * 2 ^ 18 + b * 2 ^ 13 + c * 2 ^ 8

/-- Source code of a constant. -/
def kSrc (n : Nat) : Nat := 16 + n

/-- sgdm. -/
def sgdmProg : List Nat :=
  [opWord 2 0 0 (kSrc 3) 0, opWord 3 0 (kSrc 2) 1 0, opWord 3 2 (kSrc 1) 2 0, opWord 3 1 (kSrc 0) 2 1]

/-- adamw; t in V_7, mh and u in V_8, vh, d and q in V_9. -/
def adamwProg : List Nat :=
  [opWord 2 0 0 (kSrc 9) 0, opWord 2 2 2 (kSrc 1) 0, opWord 3 2 (kSrc 2) 0 2, opWord 2 7 0 0 0, opWord 2 3 3 (kSrc 3) 0,
   opWord 3 3 (kSrc 4) 7 3, opWord 2 8 2 (kSrc 7) 0, opWord 2 9 3 (kSrc 8) 0, opWord 9 9 9 0 0, opWord 0 9 9 (kSrc 5) 0,
   opWord 11 9 9 0 0, opWord 2 8 8 9 0, opWord 3 8 (kSrc 6) 1 8, opWord 3 1 (kSrc 0) 8 1]

/-- An operation word is reserved (R288). -/
def opReserved (w : Nat) : Bool := 12 ≤ bits w 27 5 || bits w 0 8 != 0

/-- A source of an operation. -/
def opSrc (ks v : List Nat) (n : Nat) : Nat := if n < 16 then lget v n 0 else lget ks (n - 16) 0

/-- One operation on one element (R287, R288). -/
def opCalc (op a b c : Nat) : Nat × Cnt :=
  match op with
  | 9 => f32Sqrt a
  | 10 => f32Rsqrt a
  | 11 => f32Rcp a
  | _ => vewF32 op a b c

/-- A program on one element's V_0 to V_15. -/
def runProg (ks : List Nat) : List Nat → List Nat → List Nat × Cnt
  | [], v => (v, .zero)
  | w :: ws, v =>
    let (r, n) := opCalc (bits w 27 5) (opSrc ks v (bits w 18 5)) (opSrc ks v (bits w 13 5)) (opSrc ks v (bits w 8 5))
    let (v', n') := runProg ks ws (lset v (bits w 23 4) r)
    (v', n.add n')

/-! ### Descriptor checks (R286) -/

/-- Slots 0 to 6 of a descriptor that a test picks. -/
def slotsOf (p : Nat → Bool) (arrays : List Nat) : List Nat := (List.range 7).filter fun n => p (lget arrays n 0)

/-- USED and WB suit the KIND. (DEDUCED, log 51) -/
def slotsOk (kind : Nat) (arrays : List Nat) : Bool :=
  let u := slotsOf slotUsed arrays
  let w := slotsOf slotWb arrays
  match kind with
  | 1 => u == [0, 1, 2] && w == [1, 2]
  | 2 => u == [0, 1, 2, 3] && w == [1, 2, 3]
  | 3 => true
  | 4 => u == [0] && w == []
  | _ => u == [0] && (w == [] || w == [0])

/-- A descriptor that the mill runs. (DEDUCED, log 51) -/
def millOk (b : Bytes) (ops : List Nat) : Bool :=
  let k := fieldAt b 0 1
  let n := fieldAt b 3 1
  let arrays := wordsLe 4 8 (b.drop 16)
  1 ≤ k && k ≤ 5 && fieldAt b 1 1 < 16 && fieldAt b 2 1 < 16 && arrays.all (fun a => a / 2 ^ 30 == 0)
    && fieldAt b 120 4 < 2 ^ 28 && fieldAt b 124 4 == 0 && slotsOk k arrays
    && (if k = 3 then 1 ≤ n && n ≤ 32 && ops.all (fun w => !opReserved w) else n == 0)

/-- The job of a descriptor. -/
def jobOf (b : Bytes) (ops : List Nat) : MillJob where
  kind := fieldAt b 0 1
  ctx := asCtx (fieldAt b 1 1)
  flags := fieldAt b 2 1
  ngroup := fieldAt b 4 4
  start := fieldAt b 8 4
  jobSeq := fieldAt b 12 4
  arrays := wordsLe 4 8 (b.drop 16)
  ks := wordsLe 4 16 (b.drop 48)
  srbase := fieldAt b 112 8
  ops := match fieldAt b 0 1 with | 1 => sgdmProg | 2 => adamwProg | 3 => ops | _ => []
  next := fieldAt b 8 4
  groups := 0
  retries := 0
  nonfin := 0
  sq := 0
  digest := 0

/-! ### Groups (R274, R285) -/

/-- The blocks of group j of an FP32 array in mill layout. -/
def groupBlks (base j : Nat) : List Nat := (List.range 4).map fun q => base + 32 * (j / 8) + 8 * q + j % 8

/-- The block that decides which mill runs a group: part 0 of A_0, or the block of a SCAN. -/
def ownerBlk (x : MillJob) (j : Nat) : Nat :=
  let b := slotBase (lget x.arrays 0 0)
  if x.kind = mkScan then b + j else b + 32 * (j / 8) + j % 8

/-- The first group of a die's mill from `j` on; 16 groups in a row hold one of every stack. -/
def ownGroup (d : Die) (x : MillJob) : Nat → Nat → Option Nat
  | 0, _ => none
  | f + 1, j =>
    if x.start + x.ngroup ≤ j then none
    else if dieOf (d.val / 8) (ownerBlk x j) = d.val then some j
    else ownGroup d x f (j + 1)

/-- The next group of a die's mill. -/
def nextGroup (d : Die) (x : MillJob) : Option Nat := ownGroup d x 64 x.next

/-! ### Completion (R293, Table 8.5) -/

/-- A completion record. -/
def millRecord (d : Die) (x : MillJob) (status next : Nat) : Bytes :=
  toLe 4 0x4D4C434D ++ toLe 4 x.jobSeq ++ toLe 1 status ++ toLe 1 x.ctx.val ++ toLe 1 d.val ++ zeros 1 ++ toLe 4 next
    ++ toLe 4 x.groups ++ toLe 4 x.retries ++ toLe 4 x.nonfin ++ toLe 4 (sqToF32 x.sq) ++ toLe 16 x.digest ++ zeros 16

/-- Ending a job: the record at MC_HEAD, the report, and what SCH does on it. -/
def finishJob (d : Die) (x : MillJob) (status next : Nat) (s : State) : State :=
  let b := millRecord d x status next
  let n := rd s fMcHead d
  let s1 := stkPatch (dieHalf d) ((rd s fMcBase d + n / 32) * 2048 + n % 32 * 64) b (genOf s x.ctx)
    (millAsks (.short 64) (dieHalf d) [rd s fMcBase d + n / 32] s)
  let s2 := modDie d (fun e => { e with job := none }) (bumpWrap fMcHead d 1 s1)
  trainCpl d b (report (.millDone d b) s2)

/-- MJ_TAIL_WRITE: the write of MJ_RING; MJ_TAIL is the doorbell (Table 8.1). -/
def execMjTailWrite (d : Die) (w : RegWr) (s : State) : Out := .next (regPut .mjRing d w s).1

/-- The next descriptor of a job ring. -/
def mjDesc (s : State) (d : Die) : Bytes :=
  let n := rd s fMjHead d
  stkRead s (dieHalf d) ((rd s fMjBase d + n / 16) * 2048 + n % 16 * 128) 128

/-- MILL_JOB_START (R286, R288, R293): the next descriptor is taken and checked. (DEDUCED, log 51) -/
def execMillJobStart (d : Die) (s : State) : Out :=
  .next (
    if s.outOfSvc.contains (.mill d) || (die s d).job.isSome || (die s d).lost || rd s fMjHead d == rd s fMjTail d
        || (rd s fMcHead d + 1) % 64 == rd s fMcTail d then s
    else
      let b := mjDesc s d
      let s0 := wr fMjHead d ((rd s fMjHead d + 1) % 64) (millAsks (.short 128) (dieHalf d) [rd s fMjBase d + rd s fMjHead d / 16] s)
      let n := fieldAt b 3 1
      let s1 :=
        if fieldAt b 0 1 = mkCustom ∧ n ≤ 32 then millAsks (.short (4 * n)) (dieHalf d) [fieldAt b 120 4 % 2 ^ 28] s0 else s0
      if fieldAt b 0 1 = mkCustom ∧ n ≤ 32 then
        match millRead (asCtx (fieldAt b 1 1)) (dieHalf d) [fieldAt b 120 4 % 2 ^ 28] s1 with
        | (s2, none) => finishJob d (jobOf b []) 3 (fieldAt b 8 4) s2
        | (s2, some ks) =>
          let ops := wordsLe 4 n (ks.flatMap (·.pay))
          if millOk b ops then modDie d (fun e => { e with job := some (jobOf b ops) }) s2
          else finishJob d (jobOf b []) 4 (fieldAt b 8 4) s2
      else if millOk b [] then
        let x := jobOf b []
        let s2 := modDie d (fun e => { e with job := some x }) s1
        if (nextGroup d x).isNone then finishJob d x 0 (x.start + x.ngroup) s2 else s2
      else finishJob d (jobOf b []) 4 (fieldAt b 8 4) s1)

/-! ### One group (R287 to R290, R294, R295) -/

/-- The values of one array for a group. -/
def loadArray (ctx : CtxId) (h : Half) (base j : Nat) (s : State) : State × Option (List Nat) :=
  match millRead ctx h (groupBlks base j) s with
  | (s1, some ks) => (s1, some (ks.flatMap fun b => wordsLe 4 512 b.pay))
  | (s1, none) => (s1, none)

/-- V_0 to V_6 of a group as arrays; slots without USED are +0.0. -/
def loadAll (ctx : CtxId) (h : Half) (j : Nat) : List Nat → State → State × Option (List (List Nat))
  | [], s => (s, some [])
  | a :: as, s =>
    match (if slotUsed a then loadArray ctx h (slotBase a) j s else (s, some [])) with
    | (s1, none) => (s1, none)
    | (s1, some v) =>
      match loadAll ctx h j as s1 with
      | (s2, some vs) => (s2, some (v :: vs))
      | (s2, none) => (s2, none)

/-- The program over the 2,048 elements of a group: V_0 to V_15 of every element, and the counts. -/
def groupCalc (x : MillJob) (vs : List (List Nat)) : List (List Nat) × Cnt :=
  let rs := (List.range 2048).map fun e => runProg x.ks x.ops (vs.map (fun v => lget v e 0) ++ List.replicate 9 0)
  (rs.map (·.1), rs.foldl (fun a r => a.add r.2) .zero)

/-- Writing 2,048 values to the four blocks of a group. -/
def storeGroup (ctx : CtxId) (h : Half) (base j : Nat) (w : List Nat) (s : State) : State :=
  ((groupBlks base j).zipIdx).foldl (fun t b =>
    millWrite ctx h b.1 4 (f32Bytes ((w.drop (512 * b.2)).take 512)) (zeros 128) t) s

/-- Committing the writes of a group: arrays with WB, the BX8 block of BXOUT, and the zeros of ZERO_G or of KIND ZERO. -/
def commitGroup (x : MillJob) (h : Half) (j : Nat) (vs : List (List Nat)) (s : State) : State :=
  let col (n : Nat) : List Nat := vs.map fun v => lget v n 0
  let s1 := ((x.arrays.zipIdx).filter fun a => slotWb a.1 && x.kind != mkZero).foldl (fun t a =>
    storeGroup x.ctx h (slotBase a.1) j (col a.2) t) s
  let s2 :=
    if bit x.flags 0 then
      let (d, e, n) := toBxs 2 (.sr (rd s fKey x.ctx) (x.srbase + 2048 * j)) 64 0 ((col 1).map bxSrcF32)
      count x.ctx n (millWrite x.ctx h (slotBase (lget x.arrays 7 0) + j) 2 d e s1)
    else s1
  if bit x.flags 1 || x.kind == mkZero then
    storeGroup x.ctx h (slotBase (lget x.arrays 0 0)) j (List.replicate 2048 0) s2
  else s2

/-- What a SCAN adds for one block. -/
def scanBlock (x : MillJob) (j : Nat) (b : Blk) : MillJob :=
  let w := wordsLe 4 512 b.pay
  let x1 :=
    if bit x.flags 3 && b.fmt == 4 then
      { x with
        sq := x.sq + ((w.filter isFinite).map sqUnits).sum
        nonfin := min (x.nonfin + (w.filter fun v => !isFinite v).length) 0xFFFFFFFF }
    else x
  if bit x.flags 2 then
    { x1 with digest := (x1.digest + digestBlock (lget x.ks 1 0 * 2 ^ 32 + lget x.ks 0 0) ((x.srbase + j) % 2 ^ 64)
        (wordsLe 8 272 (b.pay ++ b.side))) % 2 ^ 128 }
  else x1

/-- The blocks of a group that its job reads. -/
def groupReads (x : MillJob) (j : Nat) : List Nat :=
  if x.kind = mkZero then []
  else if x.kind = mkScan then [slotBase (lget x.arrays 0 0) + j]
  else ((x.arrays.take 7).filter slotUsed).flatMap fun a => groupBlks (slotBase a) j

/-- The blocks of a group that its job writes. -/
def groupWrites (x : MillJob) (j : Nat) : List Nat :=
  ((x.arrays.filter fun a => slotWb a && x.kind != mkZero).flatMap fun a => groupBlks (slotBase a) j)
    ++ (if bit x.flags 0 then [slotBase (lget x.arrays 7 0) + j] else [])
    ++ (if bit x.flags 1 || x.kind == mkZero then groupBlks (slotBase (lget x.arrays 0 0)) j else [])

/-- What computing one group gives: the job and state with the group committed, or a block that failed its landing. -/
inductive GroupRun where
  | ok (x : MillJob) (s : State)
  | bad (b : Nat) (s : State)
deriving DecidableEq, Repr

/-- One group of a job, read and computed, its commit ready. (DEDUCED, log 51) -/
def runGroup (d : Die) (x : MillJob) (j : Nat) (s : State) : GroupRun :=
  let h := dieHalf d
  match millRead x.ctx h (groupReads x j) s with
  | (s1, none) => .bad (firstBad s x.ctx h (groupReads x j)) s1
  | (s1, some ks) =>
    if x.kind = mkScan then .ok (scanBlock x j (lget ks 0 ⟨[], [], 0⟩)) s1
    else if x.kind = mkZero then .ok x (commitGroup x h j [] s1)
    else
      match loadAll x.ctx h j (x.arrays.take 7) s with
      | (_, none) => .bad 0 s1
      | (s2, some vs) =>
        let (r, n) := groupCalc x vs
        .ok x (commitGroup x h j r (count x.ctx n s2))

/-- Every block of a list exists (R232). (DEDUCED, log 51) -/
def blksExist (l : List Nat) : Bool := l.all (· < 188743680)

/-- MILL_GROUP (R287 to R292): `dup1` and `dup2` say that the two lane copies differ on the first and on the second
computation. A group that names a block outside the half's stacks ends the job with STATUS 3. -/
def execMillGroup (d : Die) (dup1 dup2 : Bool) (s : State) : Out :=
  .next (match (die s d).job with
    | none => s
    | some x =>
      if s.outOfSvc.contains (.mill d) then s
      else
      match nextGroup d x with
      | none => finishJob d x 0 (x.start + x.ngroup) s
      | some j =>
        if (ctxSt s x.ctx).fault.isSome then finishJob d x 1 j s
        else if !blksExist (groupReads x j ++ groupWrites x j) then finishJob d x 3 j s
        else if dup1 && dup2 then unitEvents (markStep none (computeEvent (.mill d) (finishJob d x 2 j s)))
        else
          let s0 := millAsks .write (dieHalf d) (if x.kind = mkScan then [] else groupWrites x j) (millAsks .read (dieHalf d) (groupReads x j) s)
          match runGroup d x j s0 with
          | .bad b s1 =>
            let l := Loc.stk (dieHalf d) b
            ctxFault x.ctx fcCorrupt l.index (Site.bare 6 0) none (finishJob d x 3 j s1)
          | .ok y s1 =>
            let z := { y with next := j + 1, groups := y.groups + 1, retries := y.retries + bnat dup1 }
            let s2 := modDie d (fun e => { e with job := some z }) s1
            let s3 := if dup1 then unitEvents (markReplay (computeEvent (.mill d) s2)) else s2
            match (die s3 d).job with
            | none => s3
            | some _ => if (nextGroup d z).isNone then finishJob d z 0 (z.start + z.ngroup) s3 else s3)

end Sys2Proof.Machine
end

