-- ==== Sys2Proof/Machine/RideCmds.lean ====
section
/-! DEFINITION. What the arrival of a ride transfer brings about, and the ride's receiver (spec/01 R28, R29, R38, R564). -/

namespace Sys2Proof.Machine

/-- An operation has reached the half of its external port: it leaves once its queue pair may send it; a posted PCIe write is accepted as it leaves, and its acceptance
returns to the core. (DESIGN CHOICE, log 97) -/
def reachPort (op : RdmaOp) (s : State) : State :=
  if s.rdma.any fun x => x.id == op.id then
    let o := { op with sends := 1, sentAt := s.time }
    if opHeld s op then s
    else if o.port = 2 ∧ o.kind ≤ 1 then answerOp o [] (resend o s)
    else resend o s
  else s

/-- The answer of a WAIT's read of a word of the other half reaches its engine, if the WAIT still awaits it. -/
def waitBack (c : CoreId) (e : Engine) (id : Nat) (v : BitVec 32) (s : State) : State :=
  match ((core s c).eng e).wait with
  | some w => if w.back = some id ∧ goesOn (core s c) e then waitAnswer c e { w with back := none } v s else s
  | none => s

/-- What the arrival of a ride transfer brings about. (DESIGN CHOICE, log 97) -/
def rideAct (a : RideDo) (s : State) : State :=
  match a with
  | .send id h cls b => rideEmit id h cls b s
  | .waitRead c e id v => waitBack c e id v s
  | .toPort op => reachPort op s
  | .opDone op data => finishOp op data s
  | .land l b => landPut l b s
  | .merge ctx l off b => rawMerge ctx l off b s
  | .bell face qpn page b => bellWrite face qpn page 0 b s
  | .reply r => reply r s
  | .monArm ring from_ n tdb => monArm 1 ring from_ n tdb s
  | .monClear ring n => monClear 1 ring n s
  | .fetchAdd f => { s with fadds := s.fadds ++ [f] }

/-- A ride transfer has arrived: what waited for it comes about, in the order in which it began to wait. -/
def rideFinish (id : Nat) (s : State) : State :=
  (s.rideNext.filter fun n => n.after == id).foldl (fun t n => rideAct n.act t)
    { s with rideDone := s.rideDone ++ [id], rideNext := s.rideNext.filter fun n => n.after != id }

/-- RIDE_FLIT_RECEIVE (R38): the receiver of a half takes the oldest flit on the wire, changed by `mask`. -/
def execRideFlitReceive (h : Half) (mask : Bytes) (s : State) : Out :=
  if 256 < mask.length then .refused .badOperand
  else
    let o := otherHalf h
    match (rideEnd s o.val).wire with
    | [] => .next s
    | f :: rest =>
      let s1 := modRide o.val (fun r => { r with wire := rest }) s
      let raw := xorBytes f.raw mask
      if (rideEnd s1 h.val).down then .next s1
      else if crc32c (raw.take 252) ≠ leNat (raw.drop 252) then .next (modRide h.val rideReject s1)
      else
        let (r1, took) := rideTake s.time (leNat (raw.take 4)) (rideEnd s1 h.val)
        let s2 := modRide h.val (fun _ => r1) s1
        .next (if took && f.flit.last then rideFinish f.flit.xfer s2 else s2)

end Sys2Proof.Machine
end

