-- ==== Sys2Proof/Machine/SumCmds.lean ====
section
/-! DEFINITION. The signals that reach one word in one cycle, applied as one saturating sum (spec/06 R199 to R203, R213, R214; spec/11
R376). -/

namespace Sys2Proof.Machine

/-- A signal that takes part in a sum, with what its application brings about. -/
inductive SigPart where
  | core (c k : Nat) (ctx : CtxId)
  | remote (a : Arr) (l : Loc)
  | station (f : FAdd)
deriving DecidableEq, Repr

/-- A signal at its word: word, amount, and the signal. -/
structure SigHit where
  word : Nat
  amt  : Int
  part : SigPart
deriving DecidableEq, Repr

/-- A committed signal of a core that has arrived. -/
def coreHit (s : State) (c : CoreId) (k : Nat) : Option SigHit :=
  match (core s c).pend[k]? with
  | some p =>
    match p.op with
    | .signal _ w amt .committed _ => if rideArrived s p.ride then some ⟨w, amt.toInt, .core c.val k p.ctx⟩ else none
    | _ => none
  | none => none

/-- A remote ATOMIC whose turn it is, once it has crossed the ride to its word's half (R376). -/
def remoteHit (k : Nat) (s : State) : State × Option SigHit :=
  match arrTurn s k true with
  | none => (s, none)
  | some a =>
    if a.kind ≠ kAtomic ∨ !ofJob s a ∨ staleReq s a then (s, none)
    else
      match reqResolve a s with
      | (s1, .here l off) =>
        match arrCross k a l.half.val s1 with
        | (s2, true) => (s2, some ⟨l.addr off, signed 32 (a.arg 32 4), .remote a l⟩)
        | (s2, false) => (s2, none)
      | (s1, _) => (s1, none)

/-- A station's fetch-add at a word of the half of its port. -/
def stationHit (a : Inbound) (wide : Bool) (addend : BitVec 64) (s : State) : State × Option SigHit :=
  if (a.face ≠ .sp ∧ !wide) ∨ !faceUp a.face a.qpn s then (s, none)
  else
    match faddAt a wide addend s with
    | (s1, .at_ f) => (s1, if f.half = faceHalf a.face then some ⟨f.word, f.amt, .station f⟩ else none)
    | (s1, _) => (s1, none)

/-- One signal of a sum, none unless it is at its word. -/
def sigHit (r : SigRef) (s : State) : State × Option SigHit :=
  match r with
  | .core c k => (s, coreHit s c k)
  | .remote k => remoteHit k s
  | .station a wide addend => stationHit a wide addend s
  | .crossed k => (s, s.fadds[k]?.map fun f => ⟨f.word, f.amt, .station f⟩)

/-- The signals of a list of references, none unless every one is at its word. -/
def sigHits : List SigRef → State → State × Option (List SigHit)
  | [], s => (s, some [])
  | r :: l, s =>
    match sigHit r s with
    | (s1, none) => (s1, none)
    | (s1, some h) =>
      match sigHits l s1 with
      | (s2, some hs) => (s2, some (h :: hs))
      | (s2, none) => (s2, none)

/-- No reference stands twice. -/
def refsDistinct : List SigRef → Bool
  | [] => true
  | r :: l => !l.contains r && refsDistinct l

/-- The context of this package that a signal's saturation is reported to (R201, R214). -/
def SigPart.ctx : SigPart → Option CtxId
  | .core _ _ ctx => some ctx
  | .remote _ _ => none
  | .station f => some f.ctx

/-- What follows the application at one signal: its acknowledgement, ACK or answer. Each context hears of a saturation once (R201):
`told` lists those that have. -/
def sigDone (sat : Bool) (old : Nat) (h : SigHit) (told : List CtxId) (s : State) : State :=
  match h.part with
  | .core c k ctx => markApplied c k h.word (sat && !told.contains ctx) s
  | .remote a l => answer l.half a 0 sat 0 0 (freeCredits a.port a.vl a.flits s)
  | .station f => faddReply f old (if sat && !told.contains f.ctx then noteSat f.ctx f.va s else s)

/-- What follows the application at every signal, in order. -/
def sigsDone (sat : Bool) (old : Nat) : List SigHit → List CtxId → State → State
  | [], _, s => s
  | h :: hs, told, s => sigsDone sat old hs (told ++ h.part.ctx.toList) (sigDone sat old h told s)

/-- The requests and crossed fetch-adds that a sum takes leave their lists. -/
def sigsTake (hs : List SigHit) (s : State) : State :=
  hs.foldl (fun t h => match h.part with
    | .remote a _ => { t with arrived := t.arrived.filter fun b => !(b.src == a.src && b.txn == a.txn && b.kind == a.kind) }
    | .station f => { t with fadds := t.fadds.erase f }
    | .core .. => t) s

/-- A signal's read and write of its word's segment at a stack port (R272). -/
def sigAsk (h : SigHit) (s : State) : State :=
  let l := wordLoc h.word
  match h.part with
  | .core c _ ctx => coreAsk c ctx .signal none l s
  | .remote _ _ => farAsk (asCtx (rd s fRctx 0)) .signal l s
  | .station f => farAsk f.ctx .signal l s

/-- SIGNAL_APPLY (R199 to R201, R213, R376): all signals that reach one word in one cycle, from cores of either half, remote packages and
stations, as one saturating sum. (DEDUCED, log 27; DEDUCED, log 100) -/
def execSignalApply (refs : List SigRef) (s : State) : Out :=
  .next (match sigHits refs s with
    | (s1, some (h :: hs)) =>
      if refsDistinct refs && hs.all (fun g => g.word == h.word) then
        let old := wordRead s1 h.word
        let (s2, sat) := wordAdd h.word (hs.foldl (fun n g => n + g.amt) h.amt) ((h :: hs).foldl (fun t g => sigAsk g t) (sigsTake (h :: hs) s1))
        sigsDone sat old (h :: hs) [] s2
      else s
    | _ => s)

end Sys2Proof.Machine
end

