-- ==== Sys2Proof/Machine/Train.lean ====
section
/-! DEFINITION. The training step (spec/09 R306 to R330; suspect steps and the digest vote, spec/13 R449 to R453) and the writing
of invocations (spec/04 R126). -/

namespace Sys2Proof.Machine

/-! ### Fields of the training record (Table 9.1) -/

/-- A number of the training record. -/
def Train.f (t : Train) (off n : Nat) : Nat := fieldAt t.rcd off n
/-- A number of the status block. -/
def Train.st (t : Train) (off n : Nat) : Nat := fieldAt t.status off n
/-- UPD_KIND -/
def Train.kind (t : Train) : Nat := t.f 4 1
/-- MIRROR -/
def Train.mirrors (t : Train) : Bool := t.f 9 1 == 1
/-- TRAIN_KEY -/
def Train.key (t : Train) : Nat := t.f 40 8
/-- TSTEP -/
def Train.tstep (t : Train) : Nat := t.st 8 8

/-- Nothing of a context is queued, taken, running or cut on any core. -/
def ctxIdle (s : State) (ctx : CtxId) : Bool :=
  s.cores.all fun e =>
    !(e.2.queue.any fun d => d.ctx == ctx) && !(e.2.taken.any fun p => p.1.ctx == ctx) && !runsCtx e.2 ctx.val
      && !(e.2.saved.any fun r => r.ctx == ctx && r.kind == 2)

/-- Nothing that the package's reduce-scatter sends or receives under a context is outstanding (R315, R321). -/
def ctxQuiet (s : State) (ctx : CtxId) : Bool :=
  ctxIdle s ctx
    && (s.cores.all fun e => !(e.2.pend.any fun p => p.ctx == ctx))
    && (s.txns.all fun e => e.2.ctx != ctx)
    && (s.dies.all fun e => !(e.2.admitted.any fun m => m.ctx == ctx))
    && (s.accs.all fun e => e.1 % 16 != ctx.val || e.2.intake.isEmpty)

/-! ### Groups of a package (R308, R309, R452) -/

/-- The groups of a rank's shard in a half: index of the first in RB and WCOPY, and how many. -/
def shardSpan (t : Train) (p r h : Nat) : Nat × Nat :=
  let i := shardFirst (trainG t) p r
  let n := shardCount (trainG t) p r
  let k := min (planSs0 t) n
  if h = 0 then (i, k) else (i + k - planGs0 t, n - k)

/-- Ranks whose shards this package owns, each with the first array of its two state sets (R452). -/
def ownedRanks (t : Train) (p r : Nat) : List (Nat × Nat) :=
  if t.expelled.contains r then []
  else (r, 2) :: ((t.expelled.filter fun e => buddy p e == r && e != r).map fun e => (e, 8))

/-- A list of ranges without one range. -/
def lessSpan (a n : Nat) (l : List (Nat × Nat)) : List (Nat × Nat) :=
  l.flatMap fun x =>
    [(x.1, min (x.1 + x.2) a - x.1), (max x.1 (a + n), x.1 + x.2 - max x.1 (a + n))].filter fun y => y.2 != 0

/-- The groups of a half that this package does not own. -/
def foreignSpans (t : Train) (p r h : Nat) : List (Nat × Nat) :=
  (ownedRanks t p r).foldl (fun l o => lessSpan (shardSpan t p o.1 h).1 (shardSpan t p o.1 h).2 l) [(0, halfGroups t h)]

/-- A ZERO job over groups of RB. -/
def zeroReq (t : Train) (h : Nat) (x : Nat × Nat) : MillReq :=
  ⟨mkZero, t.ctx, 0, 0, x.1 % 8, x.2, [arrSlot (groupBase (planBase t 1 h) x.1) true false], [], 0, 0⟩

/-- Submitting requests of each half that a training state gives. -/
def submitAll (f : Train → Nat → List MillReq) (s : State) : State :=
  match s.train with
  | none => s
  | some t => [0, 1].foldl (fun u h => (f t h).foldl (fun v r => trainSubmit h r v) u) s

/-- ZERO over all RB groups (R330, R450). -/
def zeroAllRb (s : State) : State := submitAll (fun t h => [zeroReq t h (0, halfGroups t h)]) s

/-! ### Beginning a step (R313, R420, R450) -/

/-- CHUNKS of micro-batch m on a rank (R420). (DEDUCED, log 48) -/
def mbChunks (s : State) (t : Train) (m r : Nat) : Nat :=
  match s.job with
  | none => 0
  | some j =>
    match (schRead t.ctx (fieldAt j.desc 48 8 + 4 * (m * ranks s + r)) 4 s).2 with
    | some b => leNat b
    | none => 0

/-- Chunks of a rank's micro-batches. (DEDUCED, log 48) -/
def rankUnits (s : State) (t : Train) (r : Nat) : Nat := ((List.range t.m).map fun m => mbChunks s t m r).sum

/-- Ranks whose micro-batches this package runs (R450, R452). (DEDUCED, log 49) -/
def runRanks (t : Train) (p r : Nat) : List Nat :=
  if t.expelled.contains r then []
  else if t.again && planMech t.plan == 1 then
    (if t.marks.contains r then [] else [r]) ++ t.marks.filter fun e => buddy p e == r && e != r
  else [r]

/-- The key of R313. -/
def stepKey (t : Train) (step r : Nat) : Nat := mast t.key (step * 2 ^ 16 + r)

/-- The mirror of the latest update is complete (R312). -/
def mirrorDone (s : State) (t : Train) : Bool :=
  t.mirror == 0 || (t.mirror == 3 && t.mirrorOps.all fun n => !(s.txns.any fun e => e.1 == n))

/-- Steps that the job runs; 0 runs until CANCEL. -/
def jobSteps (s : State) : Nat := match s.job with | some j => fieldAt j.desc 112 8 | none => 0

/-- The step before is over on this package (R321, R322, R451). -/
def stepOver (s : State) (t : Train) : Bool :=
  (t.phase == .between || (t.phase == .update && (t.zeroed || ranks s == 1))) && jobsDone t && t.vote == 0 && ctxIdle s t.ctx

/-- A new step, or a step again. (DEDUCED, log 48) -/
def beginStep (s : State) (t : Train) : State :=
  let step := if t.again then t.step else t.step + 1
  let rs := runRanks t (ranks s) (ownRank s)
  let u := (rs.map (rankUnits s t)).sum
  wr fKey t.ctx (stepKey t step (rs.headD (ownRank s)))
    (jobRecPut { s with train := some { t with
      phase := .work
      step := step
      begun := t.begun + bnat !t.again
      todo := rs.drop 1
      marks := []
      again := false
      units := u
      samples := u * t.f 20 4
      marked := false
      lastCode := 0
      runs := if t.again then t.runs else 0
      zeroed := false
      scanned := false
      record := []
      jobs := [] } })

/-- TRAIN_STEP_START (R313): SR_KEY is set while no invocation of the context is queued or running. In a step whose package also
runs a marked rank's micro-batches, the key of that rank follows once its own have ended (R450). A job that has run STEPS steps
ends here when its last step is over. (DEDUCED, log 49; DESIGN CHOICE, log 50) -/
def execTrainStepStart (s : State) : Out :=
  .next (match schTrain s with
    | none => s
    | some t =>
      if stepOver s t then
        if jobSteps s ≠ 0 ∧ jobSteps s ≤ t.begun ∧ !t.again then
          if mirrorDone s t then endJob stOk 0 false s else s
        else if 2 ^ 48 ≤ t.step + 1 then s
        else beginStep s t
      else
        match t.todo with
        | [] => s
        | r :: rs =>
          if t.phase = .work ∧ ctxIdle s t.ctx then
            wr fKey t.ctx (stepKey t t.step r) { s with train := some { t with todo := rs } }
          else s)

/-! ### Statistics (R315) -/

/-- A step statistics record (Table 9.4). -/
def stepRecord (t : Train) (r sq f nf : Nat) : Bytes :=
  let e := t.expelled.contains r
  toLe 8 t.step ++ toLe 2 r ++ toLe 1 (bnat t.marked) ++ zeros 5 ++ toLe 8 sq ++ toLe 8 f ++ toLe 8 nf
    ++ toLe 4 (if e then 0 else t.units) ++ zeros 4 ++ toLe 8 (if e then 0 else t.samples) ++ zeros 8

/-- An FP64 sum of FP32 values in order. -/
def sumF32 (l : List Nat) : Nat := l.foldl (fun a b => f64Add a (f64OfF32 b)) 0

/-- SNAP of SS_0 on all 16 dies. -/
def snapAll (s : State) : State := (List.range 16).foldl (fun t d => snapSet d 0 t) s

/-- The sums of the 16 dies' read fields. -/
def statSums (s : State) : Nat × Nat × Nat :=
  let l := (List.range 16).map (4 * ·)
  (sumF32 (l.map (rd s fIncSq)), sumF32 (l.map (rd s fFinSq)), (l.map (rd s fNonfin)).sum)

/-- SCAN jobs with STATS over RB (R315 with P = 1). -/
def scanRb (s : State) : State :=
  submitAll (fun t h =>
    [⟨mkScan, t.ctx, 8, 0, 0, 32 * ceilDiv (halfGroups t h) 8, [arrSlot (planBase t 1 h) true false], [], 0, 0⟩]) s

/-- The record is formed and sent. -/
def sendRecord (sq f nf : Nat) (s : State) : State :=
  jobRecPut (modTrain (fun t => { t with phase := .stats, record := stepRecord t (ownRank s) sq f nf }) s)

/-- STATS_SNAPSHOT (R315): once phase 2 is over and the mirror of the latest update is complete (R312). On one package the SCAN
jobs are submitted first, and their completions give FIN_SQ and NONFIN. (DESIGN CHOICE, log 50) -/
def execStatsSnapshot (s : State) : Out :=
  .next (match schTrain s with
    | none => s
    | some t =>
      if t.phase ≠ .work ∨ !t.todo.isEmpty ∨ !ctxQuiet s t.ctx ∨ !mirrorDone s t then s
      else if ranks s ≠ 1 then
        let s1 := snapAll s
        sendRecord (statSums s1).1 (statSums s1).2.1 (statSums s1).2.2 s1
      else if !t.scanned then scanRb (modTrain (fun t => { t with scanned := true, jobs := [] }) s)
      else if jobsDone t then
        let s1 := snapAll s
        let f := sumF32 ((List.range 16).flatMap fun d => (t.jobs.filter fun j => j.die == d).map fun j => fieldAt j.cpl 28 4)
        sendRecord (statSums s1).1 f ((t.jobs.map fun j => fieldAt j.cpl 24 4).sum) s1
      else s)

/-! ### The norm check (R317) -/

/-- The sums over the ranks: S, F, UNITS and SAMPLES in FP64, and NONFIN. -/
structure Sums where
  s  : Nat
  f  : Nat
  nf : Nat
  u  : Nat
  n  : Nat
deriving DecidableEq, Repr

/-- Summing records in rank order. -/
def sumRecs (l : List Bytes) : Sums where
  s := l.foldl (fun a b => f64Add a (fieldAt b 16 8)) 0
  f := l.foldl (fun a b => f64Add a (fieldAt b 24 8)) 0
  nf := (l.map fun b => fieldAt b 32 8).sum
  u := l.foldl (fun a b => f64Add a (f64Nat (fieldAt b 40 4))) 0
  n := l.foldl (fun a b => f64Add a (f64Nat (fieldAt b 48 8))) 0

/-- A decision: LAST_DEC, the norm and the clip scale in FP64. -/
structure Decision where
  code  : Nat
  norm  : Nat
  scale : Nat
deriving DecidableEq, Repr

/-- The decision of R317. -/
def normCheck (t : Train) (x : Sums) : Decision :=
  let norm := f64Div (f64Sqrt x.f) x.n
  let mult := f64OfF32 (t.f 32 4)
  let clip := f64OfF32 (t.f 28 4)
  if 0 < x.nf then ⟨2, 0, 0⟩
  else if x.f = f64Inf false then ⟨3, norm, 0⟩
  else if f64Gt mult 0 && decide (t.f 24 4 ≤ t.tstep) && f64Gt norm (f64Mul mult (f64OfF32 (t.st 24 4))) then ⟨3, norm, 0⟩
  else if f64Gt clip 0 && f64Gt norm clip then ⟨1, norm, f64Div clip norm⟩
  else ⟨0, norm, f64Nat 1⟩

/-! ### The update (R318, R319) -/

/-- FP64 one. -/
def one64 : Nat := f64Nat 1

/-- The learning rate of an update (R318). -/
def lrOf (s : State) (t : Train) (tstep : Nat) : Nat :=
  match (schRead t.ctx (t.f 56 8 + 4 * min (tstep - 1) (t.f 64 4 - 1)) 4 s).2 with
  | some b => leNat b
  | none => 0

/-- K_0: minus the learning rate scaled with the samples of the step. -/
def k0Of (s : State) (t : Train) (tstep n : Nat) : Nat :=
  let q := f64Div n (f64Nat (t.f 48 8))
  let g := match t.f 6 1 with | 0 => one64 | 1 => f64Sqrt q | _ => q
  f32OfF64 (f64Neg (f64Mul (f64OfF32 (lrOf s t tstep)) g))

/-- 1 / (1 − β^t). -/
def biasOf (b tstep : Nat) : Nat := f32OfF64 (f64Div one64 (f64Sub one64 (f64Pow (f64OfF32 b) tstep)))

/-- 1 − β. -/
def restOf (b : Nat) : Nat := f32OfF64 (f64Sub one64 (f64OfF32 b))

/-- K_0 to K_15 of an update; a CUSTOM program gets those of ADAMW. -/
def updateKs (s : State) (t : Train) (tstep : Nat) (scale n : Nat) : List Nat :=
  let c := f32OfF64 (f64Div scale n)
  let b1 := t.f 100 4
  let b2 := t.f 104 4
  if t.kind = 1 then [k0Of s t tstep n, t.f 96 4, t.f 112 4, c]
  else [k0Of s t tstep n, b1, restOf b1, b2, restOf b2, t.f 108 4, t.f 112 4, biasOf b1 tstep, biasOf b2 tstep, c]

/-- The operation block of SGDM: W and M written to V_4 and V_5, then V_1 := V_4. (DEDUCED, log 51) -/
def sgdmBlock : List Nat :=
  [opWord 2 0 0 (kSrc 3) 0, opWord 3 0 (kSrc 2) 1 0, opWord 3 5 (kSrc 1) 2 0, opWord 3 4 (kSrc 0) 5 1, opWord 8 1 4 0 0]

/-- The operation block of ADAMW: W, M1 and M2 written to V_4, V_5 and V_6, then V_1 := V_4. (DEDUCED, log 51) -/
def adamwBlock : List Nat :=
  [opWord 2 0 0 (kSrc 9) 0, opWord 2 5 2 (kSrc 1) 0, opWord 3 5 (kSrc 2) 0 5, opWord 2 7 0 0 0, opWord 2 6 3 (kSrc 3) 0,
   opWord 3 6 (kSrc 4) 7 6, opWord 2 8 5 (kSrc 7) 0, opWord 2 9 6 (kSrc 8) 0, opWord 9 9 9 0 0, opWord 0 9 9 (kSrc 5) 0,
   opWord 11 9 9 0 0, opWord 2 8 8 9 0, opWord 3 8 (kSrc 6) 1 8, opWord 3 4 (kSrc 0) 8 1, opWord 8 1 4 0 0]

/-- The operation block that SCH builds. (DEDUCED, log 51) -/
def progOf (t : Train) : List Nat := if t.kind = 1 then sgdmBlock else adamwBlock

/-- Writing an operation block into both halves. -/
def putProg (ops : List Nat) (blk : Nat) (ctx : CtxId) (s : State) : State :=
  [0, 1].foldl (fun u h =>
    let l := Loc.stk (halfOf h) blk
    let pay := slice (ops.flatMap (toLe 4)) 0 2048
    blkStore l ⟨pay, zeros 128, formTag 7 (genOf u ctx) l.term pay (zeros 128)⟩ u) s

/-- The update job of one owned shard in a half (R319, R452); `tstep` is the update's number and `k` the first array of its two
state sets. (DEDUCED, log 51) -/
def updateReq (t : Train) (tstep : Nat) (ks : List Nat) (h : Nat) (x : Nat × Nat) (k : Nat) : MillReq :=
  let set (n : Nat) (wb : Bool) : List Nat :=
    (List.range 3).map fun q =>
      if q = 2 ∧ t.kind = 1 then 0 else arrSlot (planBase t (k + 3 * (n % 2) + q) h) (!wb) wb
  { kind := mkCustom
    ctx := t.ctx
    flags := 3
    nops := if t.kind = 3 then t.f 90 1 else (progOf t).length
    start := 0
    ngroup := x.2
    arrays := [arrSlot (groupBase (planBase t 1 h) x.1) true false] ++ set (tstep - 1) false ++ set tstep true
      ++ [arrSlot (planBase t 0 h + x.1) false false]
    ks := ks
    srbase := 0
    cprog := if t.kind = 3 then t.f 92 4 else progBlk }

/-- Issuing the update of every shard that the package owns. -/
def issueUpdate (tstep : Nat) (d : Decision) (n : Nat) (s : State) : State :=
  match s.train with
  | none => s
  | some t =>
    let ks := updateKs s t tstep d.scale n
    let s1 := modTrain (fun u => { u with ks := ks }) (if t.kind = 3 then s else putProg (progOf t) progBlk t.ctx s)
    submitAll (fun u h => (ownedRanks u (ranks s) (ownRank s)).map fun o =>
      updateReq u tstep ks h (shardSpan u (ranks s) o.1 h) o.2) s1

/-- ZERO jobs over the own shards' RB groups (R320). -/
def zeroOwn (s : State) : State :=
  submitAll (fun t h => (ownedRanks t (ranks s) (ownRank s)).map fun o => zeroReq t h (shardSpan t (ranks s) o.1 h)) s

/-! ### Bookkeeping (R323, R328) -/

/-- The ceiling of an FP64 value. -/
def ceil64 (a : Nat) : Int :=
  match f64Read a with
  | .num d _ => d.ceil
  | .inf false => 2 ^ 62
  | _ => 0

/-- Moving an average toward a new value by 2^−k in FP64. -/
def moveTo (old new k : Nat) : Nat := f64Add old (f64Div (f64Sub new old) (f64Nat (2 ^ k)))

/-- M for the next step (R328). -/
def steerM (t : Train) (noiseB n : Nat) : Nat :=
  let c := (ceil64 (f64Div (f64Mul (f64Mul (f64OfF32 (t.f 36 4)) (f64OfF32 noiseB)) (f64Nat t.m)) n)).toNat
  min (min (max c (max (t.f 12 2) (ceilDiv t.m 2))) (t.f 14 2)) (2 * t.m)

/-- The status block and M after the steering of an applied step (R328). -/
def steer (t : Train) (x : Sums) (b : Bytes) : Bytes × Nat :=
  if f64Gt (f64Nat 2) x.u then (b, t.m)
  else
    let num := f64Mul (f64Div x.n x.u) (f64Sub (f64Mul x.u x.s) x.f)
    let den := f64Sub x.f x.s
    let first := t.st 52 8 == 0 && t.st 60 8 == 0
    let en := if first then num else moveTo (t.st 52 8) num (t.f 8 1)
    let ed := if first then den else moveTo (t.st 60 8) den (t.f 8 1)
    let age := t.st 68 4 + 1
    let b1 := splice (splice (splice b 52 (toLe 8 en)) 60 (toLe 8 ed)) 68 (toLe 4 age)
    if t.f 18 2 ≠ 0 ∧ t.f 18 2 ≤ age ∧ f64Gt ed 0 then
      let nb := f32OfF64 (f64Div en ed)
      (splice (splice b1 32 (toLe 4 nb)) 68 (zeros 4), steerM t nb x.n)
    else (b1, t.m)

/-- Adding one to a 32-bit count of the status block. (DEDUCED, log 51) -/
def statBump (off : Nat) (b : Bytes) : Bytes := splice b off (toLe 4 (fieldAt b off 4 + 1))

/-- The status block and M after a decision (R323). -/
def statusAfter (t : Train) (x : Sums) (d : Decision) : Bytes × Nat :=
  let n32 := f32OfF64 d.norm
  let b := splice (splice (splice (splice t.status 0 (toLe 8 t.step)) 18 (toLe 1 d.code)) 20
    (toLe 4 (if d.code = 2 then 0 else n32))) 72 (toLe 4 t.units)
  if d.code = 2 then (statBump 48 (statBump 36 b), t.m)
  else if d.code = 3 then (statBump 48 (statBump 40 b), t.m)
  else
    let mean := if t.tstep = 0 then n32 else f32OfF64 (moveTo (f64OfF32 (t.st 24 4)) d.norm (t.f 7 1))
    let b1 := splice (splice (splice (splice b 8 (toLe 8 (t.tstep + 1))) 24 (toLe 4 mean)) 28 (toLe 4 (f32OfF64 d.scale))) 48 (zeros 4)
    steer t x (if d.code = 1 then statBump 44 b1 else b1)

/-- Every rank's record of the step is held, this package's among them. -/
def recordsHeld (s : State) (t : Train) (l : List Bytes) : Bool :=
  l.length == ranks s && ((l.zipIdx).all fun b => fieldAt b.1 0 8 == t.step && fieldAt b.1 8 2 == b.2)
    && lget l (ownRank s) [] == t.record

/-- The step is zeroed and executed again, or the job ends (R450). (DEDUCED, log 49) -/
def replayStep (t : Train) (l : List Bytes) (s : State) : State :=
  let lim := if planMech t.plan = 1 then fieldAt t.plan 137 1 else 1
  if lim < t.runs then endJob stCtxFault (if t.lastCode = 0 then 0x15 else t.lastCode) false s
  else
    zeroAllRb (jobRecPut <| modTrain (fun x => { x with
      phase := .between
      again := true
      runs := x.runs + 1
      jobs := x.jobs.filter fun j => j.st != 1
      marks := ((l.zipIdx).filter fun b => bit (fieldAt b.1 10 1) 0).map (·.2) }) s)

/-- The shard of this package has a mirror (R311, R452). -/
def hasMirror (s : State) (t : Train) : Bool :=
  t.mirrors && !t.expelled.contains (ownRank s) && !t.expelled.contains (buddy (ranks s) (ownRank s))

/-- Acting on a decision (R318 to R324, R328). (DEDUCED, log 52) -/
def decideStep (t : Train) (x : Sums) (s : State) : State :=
  let d := normCheck t x
  let (b, m) := statusAfter t x d
  let b1 := splice b 16 (toLe 2 m)
  let tstep := fieldAt b1 8 8
  let applied : Bool := d.code ≤ 1
  let s1 := schWrite t.ctx (t.f 72 8) b1 <| jobRecPut { s with train := some { t with
    phase := .update
    status := b1
    m := m
    jobs := t.jobs.filter fun j => j.st != 1
    mirror := if applied && hasMirror s t then 1 else 0
    mirrorOps := []
    vote := if applied && planMech t.plan == 2 && tstep % max (fieldAt t.plan 138 2) 1 == 0 then 1 else 0 } }
  if applied then issueUpdate tstep d x.n s1
  else
    let s2 := if d.code = 3 then
        logWrite 0x0103 srcSch (toLe 8 t.step ++ toLe 4 (f32OfF64 d.norm) ++ toLe 4 (t.st 24 4)) s1
      else s1
    if fieldAt b1 48 4 = t.f 10 2 then endJob stSkip 0 false s2
    else if jobSteps s ≠ 0 ∧ jobSteps s ≤ t.begun then endJob stOk 0 false s2
    else zeroOwn s2

/-- Shards of ranks whose update has failed twice pass to their buddies (R322, R452): the buddy runs the update over the groups of such
a shard with its mirror slots as the state sets. Where no live buddy stands by, the job ends. (DEDUCED, log 49) -/
def passShards (l : List Nat) (t : Train) (s : State) : State :=
  let p := ranks s
  let all := t.expelled ++ l
  if !t.mirrors || l.any fun e => all.contains (buddy p e) then endJob stCtxFault 0x15 false s
  else
    let s1 := modTrain (fun u => let v := { u with expelled := all }
      { v with mirror := if hasMirror s v then v.mirror else 0 }) s
    submitAll (fun u h => (l.filter fun e => buddy p e == ownRank s).map fun e =>
      updateReq u u.tstep u.ks h (shardSpan u p e h) 8) s1

/-- Other ranks whose record of the step has come with FLAGS [0] set and whose shards are still their own. -/
def failedRanks (s : State) (t : Train) (l : List Bytes) : List Nat :=
  (((l.zipIdx).filter fun b => bit (fieldAt b.1 10 1) 0).map (·.2)).filter fun e => e != ownRank s && !t.expelled.contains e

/-- Records that come again after the decision: an owner whose update has failed twice flags its own, and its shard passes to its buddy
(R322). (DESIGN CHOICE, log 50) -/
def lateRecords (t : Train) (l : List Bytes) (s : State) : State :=
  let out := failedRanks s t l
  if (ctxSt s t.ctx).fault.isSome || !jobsDone t || decide (1 < fieldAt t.status 18 1) || out.isEmpty then s else passShards out t s

/-- STEP_DECISION (R316, R317, R450): every rank's record is held; one flagged after the decision tells of a failed update (R322). -/
def execStepDecision (records : List Bytes) (s : State) : Out :=
  if records.any fun b => b.length != 64 then .refused .badOperand
  else
    .next (match schTrain s with
      | none => s
      | some t =>
        if !recordsHeld s t records then s
        else if t.phase = .update then lateRecords t records s
        else if t.phase ≠ .stats then s
        else if records.any fun b => bit (fieldAt b 10 1) 0 then replayStep t records s
        else decideStep t (sumRecs records) s)

/-! ### Mirrors and zeroing (R311, R321) -/

/-- Coordinates of a rank (R306). -/
def rankCoord (s : State) (r : Nat) : Coord :=
  let d := dims s
  (r % d.1, r / d.1 % d.2.1, r / (d.1 * d.2.1))

/-- The blocks of the new state set and the mirror blocks they go to, of both halves: half, source block, target block. -/
def mirrorBlocks (s : State) (t : Train) : List (Nat × Nat × Nat) :=
  let k := t.tstep % 2
  [0, 1].flatMap fun h =>
    (List.range (if t.kind = 1 then 2 else 3)).flatMap fun q =>
      (List.range (shardSpan t (ranks s) (ownRank s) h).2).flatMap fun j =>
        (groupBlks (planBase t (2 + 3 * k + q) h) j).zip (groupBlks (planBase t (8 + 3 * k + q) h) j) |>.map fun b => (h, b.1, b.2)

/-- Sending one mirror block as a WRITE. A source block that fails its landing faults the context (R442), and the mirror stays owed:
nothing more is sent, and COMMIT does not count it. -/
def mirrorSend (t : Train) (tgt : Coord) (x : Nat × Nat × Nat) (s : State) : State :=
  let l := Loc.stk (halfOf x.1) x.2.1
  if (ctxSt s t.ctx).fault.isSome then s
  else match blkFetch t.ctx l s with
  | (s1, .bad) =>
    modTrain (fun u => { u with mirror := 1 }) (ctxFault t.ctx fcCorrupt l.index (Site.bare 7 0) none s1)
  | (s1, .ok b) =>
    let (s2, n) := openTxn ⟨asCore (physOf s1 0), t.ctx, kWrite, tgt, remoteAddr x.1 (x.2.2 * 2048), none, none, some b, none, none, none, false, 0⟩ s1
    modTrain (fun u => { u with mirrorOps := u.mirrorOps ++ [n] }) s2

/-- Adding 1 to the buddy's COMMIT word. (DESIGN CHOICE, log 50) -/
def mirrorSignal (t : Train) (tgt : Coord) (s : State) : State :=
  let (s1, n) := openTxn ⟨asCore (physOf s 0), t.ctx, kAtomic, tgt, remoteAddr 0 (planBase t 14 0 * 2048), none, none, none, some (1, 0), none, none, false, 0⟩ s
  modTrain (fun u => { u with mirrorOps := [n], mirror := 3 }) s1

/-- MIRROR_WRITE (R311, R322): the command comes when every owner has committed the update. The new W, M1 and M2 leave for the mirror
slot, and once they are accepted, COMMIT is signalled. Nothing leaves while the context has a fault. (DESIGN CHOICE, log 50) -/
def execMirrorWrite (s : State) : Out :=
  .next (match schTrain s with
    | none => s
    | some t =>
      let tgt := rankCoord s (buddy (ranks s) (ownRank s))
      if (ctxSt s t.ctx).fault.isSome then s
      else if t.mirror = 1 ∧ jobsDone t then
        (mirrorBlocks s t).foldl (fun u x => mirrorSend t tgt x u) (modTrain (fun u => { u with mirror := 2, mirrorOps := [] }) s)
      else if t.mirror = 2 ∧ t.mirrorOps.all fun n => !(s.txns.any fun e => e.1 == n) then mirrorSignal t tgt s
      else s)

/-- RB_ZERO (R321): every transfer of phase 2 is accepted; the RB groups of other owners are zeroed. -/
def execRbZero (s : State) : Out :=
  .next (match schTrain s with
    | none => s
    | some t =>
      if t.phase = .between ∨ t.zeroed ∨ ranks s = 1 ∨ !t.todo.isEmpty ∨ !ctxQuiet s t.ctx then s
      else
        submitAll (fun u h => (foreignSpans u (ranks s) (ownRank s) h).map (zeroReq u h))
          (modTrain (fun u => { u with zeroed := true }) s))

/-! ### The digest vote (R451 to R453) -/

/-- SCAN jobs with DIGEST over WCOPY. -/
def scanWcopy (s : State) : State :=
  submitAll (fun t h =>
    let k := mast t.key (Nat.xor t.step (2 ^ 63))
    [⟨mkScan, t.ctx, 4, 0, 0, halfGroups t h, [arrSlot (planBase t 0 h) true false], [k % 2 ^ 32, k / 2 ^ 32],
      if h = 0 then 0 else min (planGs0 t) (trainG t), 0⟩]) s

/-- The package digest. -/
def packageDigest (t : Train) : Nat := (t.jobs.map fun j => fieldAt j.cpl 32 16).sum % 2 ^ 128

/-- A digest held by more than half. -/
def majorityOf (l : List Nat) : Option Nat := l.find? fun v => l.length < 2 * (l.filter (· == v)).length

/-- The vote on digests by rank. (DEDUCED, log 49) -/
def voteOn (t : Train) (p : Nat) (ds : List (Nat × Nat)) (s : State) : State :=
  match majorityOf (ds.map (·.2)) with
  | none => endJob stCtxFault 0x15 false s
  | some v =>
    let out := (ds.filter fun d => d.2 != v).map (·.1)
    let all := t.expelled ++ out
    if out.any (fun e => all.any fun x => x != e && buddy p x == e) || decide (p < all.length + 3) then endJob stCtxFault 0x15 false s
    else jobRecPut (modTrain (fun u => { u with expelled := all, vote := 0 }) s)

/-- DIGEST_VOTE (R451): the scans are submitted after phase 7; once they are done and every rank's digest is held, the vote falls.
(DESIGN CHOICE, log 50) -/
def execDigestVote (digests : List (Nat × BitVec 128)) (s : State) : Out :=
  .next (match schTrain s with
    | none => s
    | some t =>
      let r := ownRank s
      let out : Bool := t.expelled.contains r
      if t.vote = 1 ∧ jobsDone t ∧ ctxIdle s t.ctx then
        let s1 := modTrain (fun u => { u with vote := 2, jobs := [] }) s
        if out then s1 else scanWcopy s1
      else if t.vote = 2 ∧ jobsDone t then
        let ds := ((List.range (ranks s)).filter fun e => !t.expelled.contains e).map fun e =>
          (digests.find? fun d => d.1 == e).map fun d => (e, d.2.toNat)
        if ds.all (·.isSome) && (out || ds.contains (some (r, packageDigest t))) then voteOn t (ranks s) (ds.filterMap id) s else s
      else s)

/-! ### Restart (R330) -/

/-- The state after update `tr` of the own shard survives on this package: the newest committed update or the one before it, under a
step that has begun (R310, R330). A package that is new to the job, which adopted nothing, receives its shard from held memory of
others (R398). -/
def survives (j : Job) (t : Train) (tr step : Nat) : Bool :=
  match j.adopted with
  | none => true
  | some n => decide (tr ≤ n) && decide (n ≤ tr + 1) && decide (step ≤ t.st 0 8)

/-- The block of the program that copies. -/
def copyBlk : Nat := schBlk 1

/-- Building the own shard's WCOPY blocks from its W array after update `tr` (R330): a CUSTOM job with BXOUT whose program leaves V_1 as it
is. (DEDUCED, log 49) -/
def rebuildReq (t : Train) (tr : Nat) (h : Nat) (x : Nat × Nat) : MillReq where
  kind := mkCustom
  ctx := t.ctx
  flags := 1
  nops := 1
  start := 0
  ngroup := x.2
  arrays := [0, arrSlot (planBase t (2 + 3 * (tr % 2)) h) true false, 0, 0, 0, 0, 0, arrSlot (planBase t 0 h + x.1) false false]
  ks := []
  srbase := 0
  cprog := copyBlk

/-- The own shard's part of WCOPY, with the key of the step that made update `tr`. -/
def rebuildCopy (tr step : Nat) (s : State) : State :=
  match s.train with
  | none => s
  | some t =>
    submitAll (fun u h => [rebuildReq u tr h (shardSpan u (ranks s) (ownRank s) h)])
      (wr fKey t.ctx (stepKey t step (ownRank s)) (putProg [opWord 8 1 1 0 0] copyBlk t.ctx s))

/-- BUDDY_RESTART (R330): a job that has begun no step restarts from update `tr`, whose step was `step`: RB is zeroed and the own part of
WCOPY formed, which the library all-gathers. An update that does not survive here changes nothing. (DEDUCED, log 49) -/
def execBuddyRestart (tr step : Nat) (s : State) : Out :=
  .next (match schTrain s, s.job with
    | some t, some j =>
      if !j.started ∨ t.begun ≠ 0 ∨ t.phase ≠ .between ∨ !survives j t tr step then s
      else
        let b := splice t.status 0 (toLe 8 step ++ toLe 8 tr)
        rebuildCopy tr step
          (zeroAllRb (schWrite t.ctx (t.f 72 8) b { s with train := some { t with status := b, step := step } }))
    | _, _ => s)

/-! ### Writing an invocation (R126, R327) -/

/-- A descriptor with the drop-out bases that one drop-map entry gives. -/
def dropEntry (key micro lc : Nat) (e : Nat) (b : Bytes) : Bytes :=
  if bits e 0 16 = fieldAt b 0 2 then
    let v := mast key (micro * 2 ^ 32 + bits e 21 11 * 2 ^ 16 + lc)
    splice b (64 + 8 * bits e 16 5) (toLe 8 (v - v % 2 ^ 32))
  else b

/-- A descriptor of the training context with its drop-out bases filled (R327). (DEDUCED, log 48) -/
def dropFill (s : State) (lc micro : Nat) (b : Bytes) : Bytes :=
  match s.train with
  | none => b
  | some t =>
    if fieldAt b 2 1 ≠ t.ctx.val ∨ t.f 88 2 = 0 then b
    else
      match (schRead t.ctx (t.f 80 8) (4 * t.f 88 2) s).2 with
      | none => b
      | some l => (wordsLe 4 (t.f 88 2) l).foldl (fun d e => dropEntry (rd s fKey t.ctx) micro lc e d) b

/-- INVOCATION_WRITE (R126): a running SCH or the GST of the core's grove writes a descriptor of 320 bytes; SCH fills its drop-out
bases (R327) and keeps its job record (R507).
(DESIGN CHOICE, log 11) -/
def execInvocationWrite (lc : LCore) (byGst : Bool) (micro : Nat) (desc : Bytes) (s : State) : Out :=
  if desc.length ≠ 320 then .refused .badOperand
  else
    .next (
      if byGst then if gstUp s (lc.val / 16) then enqueue lc (parseDesc desc) s else s
      else if schUp s then enqueue lc (parseDesc (dropFill s lc micro desc)) (jobRecPut s) else s)

end Sys2Proof.Machine
end

