-- ==== Sys2Proof/Machine/WaitCmds.lean ====
section
/-! DEFINITION. SIGNAL and WAIT at issue, polling, and the limit of external waits (spec/05 R160, R167 to R171; spec/06 R217, R218). -/

namespace Sys2Proof.Machine

/-- SIGNAL (R160, R167): the repeat issues, its word checked, a station word against its handle; it commits later (R168). -/
def execSignal (c : CoreId) (e : Engine) (s : State) : Out :=
  .next (onRepeat c e 0x05 s fun d l k rep op =>
    match op with
    | .signal word amt =>
      let va := k.opAddr word
      match checkOpd s c signalRegions 4 0 va with
      | some (code, detail, a) => engFault c e code detail a s
      | none =>
        match resolve c d.ctx .write 0 va s with
        | (s1, .station handle off) =>
          match stnFault s1 d.ctx handle off 4 .atomic with
          | some code => engFault c e code 0 va.toNat s1
          | none =>
            issue c e d l k rep none [word] s1 fun s2 =>
              let (s3, r) := newRpt c s2
              pendAdd c ⟨d.ctx, e, r, none, .farSignal va (BitVec.ofNat 32 amt) k⟩ s3
        | (s1, .fault code det) => engFault c e code det va.toNat s1
        | (s1, .absent page) => stallOn c e d.ctx page s1
        | (s1, t) =>
          issue c e d l k rep none [word] s1 fun s2 =>
            let (s3, r) := newRpt c s2
            let op := match t with
              | .here p off => POp.signal va (p.addr off) (BitVec.ofNat 32 amt) .issued k
              | _ => POp.farSignal va (BitVec.ofNat 32 amt) k
            pendAdd c ⟨d.ctx, e, r, none, op⟩ s3
    | _ => s)

/-- A read of a waited station word (R217): a 4-byte RDMA READ, outstanding until it is answered. A handle that no longer admits it faults
OPERAND_REGION (R231). -/
def waitStation (c : CoreId) (e : Engine) (ctx : CtxId) (w : Waiting) (s : State) : State :=
  let handle := bits w.va.toNat 40 12
  let off := w.va.toNat % 2 ^ 40
  match stnFault s ctx handle off 4 .read with
  | some code => engFault c e code 0 w.va.toNat s
  | none =>
    let h := handleOf (htBytes s handle)
    let (s1, id) := coreSend c ctx h 2 (h.rva + off) 4 [] (.waitRead c e) none s
    setWait c e (some { w with reading := id }) s1

/-- WAIT (R169 to R171): the gate, the first read, and parking or polling. -/
def execWait (c : CoreId) (e : Engine) (s : State) : Out :=
  .next (onRepeat c e 0x06 s fun d l k rep op =>
    match op with
    | .wait word cond vadd gt pk _ value =>
      let va := k.opAddr word
      match checkOpd s c (waitRegions pk) 4 0 va with
      | some (code, detail, a) => engFault c e code detail a s
      | none =>
        if gt ≠ 0 ∧ k.cmpNow (gt - 1) = false then issue c e d l k rep none [word] s id
        else
          match stepArs (steppedArs [word]) k with
          | .error n => engFault c e fcArOverflow n 0 s
          | .ok _ =>
            let v : BitVec 32 := if vadd = 0 then 0 else (lget k.cnts (vadd - 1) Counter.reset).val
            let w : Waiting := ⟨va, none, BitVec.ofNat 32 value + v, Fin.ofNat 8 cond, none, isExternal s d.ctx va,
              s.time, 0, false, false, none, none⟩
            match resolve c d.ctx .read 0 va s with
            | (s1, .fault code det) => engFault c e code det va.toNat s1
            | (s1, .absent page) => stallOn c e d.ctx page s1
            | (s1, .here p off) =>
              let a := p.addr off
              let (s2, slot) := if pk then park c e a s1 else (s1, none)
              let w1 := { w with word := some a, slot := slot }
              waitAsk c e d.ctx w1 p off (setWait c e (some w1) s2)
            | (s1, .station _ _) => waitStation c e d.ctx w s1
            | (s1, _) => s1
    | _ => s)

/-- No read of a waited word is outstanding. -/
def Waiting.settled (w : Waiting) : Bool := w.back.isNone && w.reading.isNone

/-- A WAIT may read its word again: its engine goes on and is not stalled, and no read is outstanding. -/
def mayReread (x : Core) (e : Engine) (w : Waiting) : Bool := goesOn x e && (x.eng e).stall.isNone && w.settled

/-- The WAIT that an engine is in, for an invocation of the given context. -/
def waitOf (s : State) (c : CoreId) (e : Engine) (ctx : CtxId) : Option Waiting :=
  match (core s c).run with
  | some (d, _) => if d.ctx = ctx then ((core s c).eng e).wait else none
  | none => none

/-- Reading a waited word again, in this package or at a station. -/
def waitAgain (c : CoreId) (e : Engine) (ctx : CtxId) (w : Waiting) (s : State) : State :=
  if w.word.isSome then waitReread c e w s else waitStation c e ctx w s

/-- WAIT_POLL (R171, R217): a context's polling WAIT reads its word again; no new read goes to a station while one is outstanding.
(DEDUCED, log 28) -/
def execWaitPoll (c : CoreId) (e : Engine) (ctx : CtxId) (s : State) : Out :=
  .next (match waitOf s c e ctx with
    | none => s
    | some w => if w.slot.isSome || w.final || !mayReread (core s c) e w then s else waitAgain c e ctx w s)

/-- The limit of R218 is reached. -/
def extReached (s : State) (ctx : CtxId) (w : Waiting) : Bool :=
  w.ext && !w.final && rd s fExtWaitLimit ctx != 0 && decide (w.begin + rd s fExtWaitLimit ctx * 1024 < s.time)

/-- EXT_WAIT_LIMIT (R218): the limit is reached; the final read is due, after the answer of a read outstanding. -/
def execExtWaitLimit (c : CoreId) (e : Engine) (s : State) : Out :=
  .next (match (core s c).run, ((core s c).eng e).wait with
    | some (d, _), some w => if extReached s d.ctx w then setWait c e (some { w with final := true }) s else s
    | _, _ => s)

/-- EXT_WAIT_TIMEOUT (R218): with no read outstanding the engine makes its one final read, translated afresh; its answer completes the
repeat or faults the context. -/
def execExtWaitTimeout (c : CoreId) (e : Engine) (ctx : CtxId) (s : State) : Out :=
  .next (match waitOf s c e ctx with
    | none => s
    | some w =>
      if !w.final || w.asked || !mayReread (core s c) e w then s
      else
        let w1 := { w with asked := true }
        waitAgain c e ctx w1 (setWait c e (some w1) s))

end Sys2Proof.Machine
end

