-- ==== Sys2Proof/Machine/Dispatch.lean ====
section
/-! DEFINITION. The meaning of every command, one arm per constructor. -/

namespace Sys2Proof.Machine

/-- The effect of a command on everything but the queue. -/
def exec (i : Instr) (s : State) : Host.Outcome State Fault Refusal :=
  match i with
  | .rideFlitTransmit h => Sys2Proof.Machine.execRideFlitTransmit h s
  | .rideFlitReceive h mask => Sys2Proof.Machine.execRideFlitReceive h mask s
  | .rideReplayRequest h => Sys2Proof.Machine.execRideReplayRequest h s
  | .rideAckTimeout h => Sys2Proof.Machine.execRideAckTimeout h s
  | .rideFailed h => Sys2Proof.Machine.execRideFailed h s
  | .rideDown h => Sys2Proof.Machine.execRideDown h s
  | .lossOfLight ls => Sys2Proof.Machine.execLossOfLight ls s
  | .wsbDelivery c => Sys2Proof.Machine.execWsbDelivery c s
  | .feederDelivery c => Sys2Proof.Machine.execFeederDelivery c s
  | .vxeQueueDelivery c => Sys2Proof.Machine.execVxeQueueDelivery c s
  | .shadowFill c readErr => Sys2Proof.Machine.execShadowFill c readErr s
  | .rowBandBroadcast c band => Sys2Proof.Machine.execRowBandBroadcast c band s
  | .merge c sumErr alignErr => Sys2Proof.Machine.execMerge c sumErr alignErr s
  | .drain c band dupErr => Sys2Proof.Machine.execDrain c band dupErr s
  | .invocationWrite lc byGst micro desc => Sys2Proof.Machine.execInvocationWrite lc byGst micro desc s
  | .takeDescriptor c => Sys2Proof.Machine.execTakeDescriptor c s
  | .listSetLoad c => Sys2Proof.Machine.execListSetLoad c s
  | .invocationStart c => Sys2Proof.Machine.execInvocationStart c s
  | .chunkBoundary c e => Sys2Proof.Machine.execChunkBoundary c e s
  | .invocationEnd c => Sys2Proof.Machine.execInvocationEnd c s
  | .saveKind1 c => Sys2Proof.Machine.execSaveKind1 c s
  | .restoreKind1 c => Sys2Proof.Machine.execRestoreKind1 c s
  | .force g => Sys2Proof.Machine.execForce g s
  | .saveKind2 c => Sys2Proof.Machine.execSaveKind2 c s
  | .resume c => Sys2Proof.Machine.execResume c s
  | .nop c e => Sys2Proof.Machine.execNop c e s
  | .arset c e => Sys2Proof.Machine.execArset c e s
  | .cntset c e => Sys2Proof.Machine.execCntset c e s
  | .cntadd c e => Sys2Proof.Machine.execCntadd c e s
  | .cmpset c e => Sys2Proof.Machine.execCmpset c e s
  | .signal c e => Sys2Proof.Machine.execSignal c e s
  | .signalCommit c e => Sys2Proof.Machine.execSignalCommit c e s
  | .signalApply refs => Sys2Proof.Machine.execSignalApply refs s
  | .signalAck c k => Sys2Proof.Machine.execSignalAck c k s
  | .wait c e => Sys2Proof.Machine.execWait c e s
  | .waitPoll c e ctx => Sys2Proof.Machine.execWaitPoll c e ctx s
  | .watchWake c slot => Sys2Proof.Machine.execWatchWake c slot s
  | .watchDropNotice c slot => Sys2Proof.Machine.execWatchDropNotice c slot s
  | .extWaitLimit c e => Sys2Proof.Machine.execExtWaitLimit c e s
  | .extWaitTimeout c e ctx => Sys2Proof.Machine.execExtWaitTimeout c e ctx s
  | .phase c e => Sys2Proof.Machine.execPhase c e s
  | .mpass c => Sys2Proof.Machine.execMpass c s
  | .munload c dupErr => Sys2Proof.Machine.execMunload c dupErr s
  | .vew c residueErr => Sys2Proof.Machine.execVew c residueErr s
  | .vtr c => Sys2Proof.Machine.execVtr c s
  | .vred c => Sys2Proof.Machine.execVred c s
  | .vcvt c residueErr => Sys2Proof.Machine.execVcvt c residueErr s
  | .vdrop c => Sys2Proof.Machine.execVdrop c s
  | .ltile c => Sys2Proof.Machine.execLtile c s
  | .lvec c => Sys2Proof.Machine.execLvec c s
  | .lq c => Sys2Proof.Machine.execLq c s
  | .lfetch c => Sys2Proof.Machine.execLfetch c s
  | .runAheadRead c => Sys2Proof.Machine.execRunAheadRead c s
  | .xput c => Sys2Proof.Machine.execXput c s
  | .xget c => Sys2Proof.Machine.execXget c s
  | .shift c => Sys2Proof.Machine.execShift c s
  | .permute c => Sys2Proof.Machine.execPermute c s
  | .writeAccepted c k => Sys2Proof.Machine.execWriteAccepted c k s
  | .tableWalk g ctx va => Sys2Proof.Machine.execTableWalk g ctx va s
  | .tlbInv ctx va => Sys2Proof.Machine.execTlbInv ctx va s
  | .offload ctx va own dst => Sys2Proof.Machine.execOffload ctx va own dst s
  | .offloadCopy h => Sys2Proof.Machine.execOffloadCopy h s
  | .restoreFault c e => Sys2Proof.Machine.execRestoreFault c e s
  | .restore h => Sys2Proof.Machine.execRestore h s
  | .accumArrive d ctx => Sys2Proof.Machine.execAccumArrive d ctx s
  | .accumApplied d k => Sys2Proof.Machine.execAccumApplied d k s
  | .accumAck c k => Sys2Proof.Machine.execAccumAck c k s
  | .floorNotice d => Sys2Proof.Machine.execFloorNotice d s
  | .accumResend c k => Sys2Proof.Machine.execAccumResend c k s
  | .accWindow c k => Sys2Proof.Machine.execAccWindow c k s
  | .stackLost d why => Sys2Proof.Machine.execStackLost d why s
  | .refresh d ch => Sys2Proof.Machine.execRefresh d ch s
  | .refreshLoop temps => Sys2Proof.Machine.execRefreshLoop temps s
  | .stackRequestArrive d req => Sys2Proof.Machine.execStackRequestArrive d req s
  | .slotGrant d => Sys2Proof.Machine.execSlotGrant d s
  | .holdCut d ch => Sys2Proof.Machine.execHoldCut d ch s
  | .arbSwap d w => Sys2Proof.Machine.execArbSwap d w s
  | .slotTableLive d => Sys2Proof.Machine.execSlotTableLive d s
  | .patrolScrub d ch => Sys2Proof.Machine.execPatrolScrub d ch s
  | .ssSnap d n w => Sys2Proof.Machine.execSsSnap d n w s
  | .mjTailWrite d w => Sys2Proof.Machine.execMjTailWrite d w s
  | .millJobStart d => Sys2Proof.Machine.execMillJobStart d s
  | .millGroup d dup1 dup2 => Sys2Proof.Machine.execMillGroup d dup1 dup2 s
  | .trainStepStart => Sys2Proof.Machine.execTrainStepStart s
  | .statsSnapshot => Sys2Proof.Machine.execStatsSnapshot s
  | .stepDecision records => Sys2Proof.Machine.execStepDecision records s
  | .mirrorWrite => Sys2Proof.Machine.execMirrorWrite s
  | .rbZero => Sys2Proof.Machine.execRbZero s
  | .digestVote digests => Sys2Proof.Machine.execDigestVote digests s
  | .buddyRestart tr step => Sys2Proof.Machine.execBuddyRestart tr step s
  | .doorbellWrite face qpn page off data => Sys2Proof.Machine.execDoorbellWrite face qpn page off data s
  | .admission g => Sys2Proof.Machine.execAdmission g s
  | .queryComplete g k => Sys2Proof.Machine.execQueryComplete g k s
  | .deadlineMiss g k => Sys2Proof.Machine.execDeadlineMiss g k s
  | .guardCompare g k => Sys2Proof.Machine.execGuardCompare g k s
  | .guardMajorityCompare g k => Sys2Proof.Machine.execGuardMajorityCompare g k s
  | .epochPublish => Sys2Proof.Machine.execEpochPublish s
  | .epochOrder => Sys2Proof.Machine.execEpochOrder s
  | .svCtlWrite w => Sys2Proof.Machine.execSvCtlWrite w s
  | .svTimeWrite w => Sys2Proof.Machine.execSvTimeWrite w s
  | .qpRetryTimeout p qpn => Sys2Proof.Machine.execQpRetryTimeout p qpn s
  | .laneBadVerdict p lane why => Sys2Proof.Machine.execLaneBadVerdict p lane why s
  | .torusResizeDone p => Sys2Proof.Machine.execTorusResizeDone p s
  | .torusResizeTimeout p => Sys2Proof.Machine.execTorusResizeTimeout p s
  | .tpEnable p w => Sys2Proof.Machine.execTpEnable p w s
  | .tpRetrain p w => Sys2Proof.Machine.execTpRetrain p w s
  | .torusTrainDone p => Sys2Proof.Machine.execTorusTrainDone p s
  | .torusTrainTimeout p => Sys2Proof.Machine.execTorusTrainTimeout p s
  | .torusIdentity p flit => Sys2Proof.Machine.execTorusIdentity p flit s
  | .torusFlitReceive p flit => Sys2Proof.Machine.execTorusFlitReceive p flit s
  | .torusReplay p timeout => Sys2Proof.Machine.execTorusReplay p timeout s
  | .torusReplayFail p badGroups => Sys2Proof.Machine.execTorusReplayFail p badGroups s
  | .torusLinkTimeout p => Sys2Proof.Machine.execTorusLinkTimeout p s
  | .transferForward k => Sys2Proof.Machine.execTransferForward k s
  | .transferRequest k => Sys2Proof.Machine.execTransferRequest k s
  | .transferAck k => Sys2Proof.Machine.execTransferAck k s
  | .readRsp k => Sys2Proof.Machine.execReadRsp k s
  | .abortReceive k => Sys2Proof.Machine.execAbortReceive k s
  | .holdExpire => Sys2Proof.Machine.execHoldExpire s
  | .jobStart ring mem => Sys2Proof.Machine.execJobStart ring mem s
  | .jobCancel ring mem => Sys2Proof.Machine.execJobCancel ring mem s
  | .ringReset ring mem => Sys2Proof.Machine.execRingReset ring mem s
  | .stationFetchAdd acc wide addend => Sys2Proof.Machine.execStationFetchAdd acc wide addend s
  | .inboundWrite acc data => Sys2Proof.Machine.execInboundWrite acc data s
  | .inboundRead acc len => Sys2Proof.Machine.execInboundRead acc len s
  | .writeWithImmediate acc data imm => Sys2Proof.Machine.execWriteWithImmediate acc data imm s
  | .rdmaAckReceive p qpn data => Sys2Proof.Machine.execRdmaAckReceive p qpn data s
  | .clientFrameReceive p f => Sys2Proof.Machine.execClientFrameReceive p f s
  | .cnpReceive p qpn => Sys2Proof.Machine.execCnpReceive p qpn s
  | .mqpCommit p w => Sys2Proof.Machine.execMqpCommit p w s
  | .htCommit n w => Sys2Proof.Machine.execHtCommit n w s
  | .perst => Sys2Proof.Machine.execPerst s
  | .i3cEntdaa bus addr => Sys2Proof.Machine.execI3cEntdaa bus addr s
  | .landing h kind index ctx copies => Sys2Proof.Machine.execLanding h kind index ctx copies s
  | .observationEnd u => Sys2Proof.Machine.execObservationEnd u s
  | .faultClear ctx => Sys2Proof.Machine.execFaultClear ctx s
  | .katRun u => Sys2Proof.Machine.execKatRun u s
  | .katResult u pass => Sys2Proof.Machine.execKatResult u pass s
  | .viewCompare u mgmt data => Sys2Proof.Machine.execViewCompare u mgmt data s
  | .retireAck w => Sys2Proof.Machine.execRetireAck w s
  | .historyHourly => Sys2Proof.Machine.execHistoryHourly s
  | .monitorTrip h ring => Sys2Proof.Machine.execMonitorTrip h ring s
  | .monitorTest h tripped => Sys2Proof.Machine.execMonitorTest h tripped s
  | .landTest w => Sys2Proof.Machine.execLandTest w s
  | .landTestEnd => Sys2Proof.Machine.execLandTestEnd s
  | .freqDecision g => Sys2Proof.Machine.execFreqDecision g s
  | .droopDetect g => Sys2Proof.Machine.execDroopDetect g s
  | .railCurrentTrip fed => Sys2Proof.Machine.execRailCurrentTrip fed s
  | .stretchEnd g => Sys2Proof.Machine.execStretchEnd g s
  | .stepHoldEnd g => Sys2Proof.Machine.execStepHoldEnd g s
  | .capLoop watts => Sys2Proof.Machine.execCapLoop watts s
  | .thermalLoop tj tdie tdram => Sys2Proof.Machine.execThermalLoop tj tdie tdram s
  | .capGuard h watts => Sys2Proof.Machine.execCapGuard h watts s
  | .pwCtlWrite w => Sys2Proof.Machine.execPwCtlWrite w s
  | .grvPctlWrite n w => Sys2Proof.Machine.execGrvPctlWrite n w s
  | .phaseWindowOpen g watts => Sys2Proof.Machine.execPhaseWindowOpen g watts s
  | .phaseWindowClose g => Sys2Proof.Machine.execPhaseWindowClose g s
  | .powerGood o => Sys2Proof.Machine.execPowerGood o s
  | .svnCommit w => Sys2Proof.Machine.execSvnCommit w s
  | .watchdogExpiry proc => Sys2Proof.Machine.execWatchdogExpiry proc s
  | .coppiceRestartRequest w => Sys2Proof.Machine.execCoppiceRestartRequest w s
  | .coppiceRestartDone proc => Sys2Proof.Machine.execCoppiceRestartDone proc s
  | .updateStart w image => Sys2Proof.Machine.execUpdateStart w image s
  | .firmwareSwitch proc body => Sys2Proof.Machine.execFirmwareSwitch proc body s
  | .halfQuery h a => Sys2Proof.Machine.execHalfQuery h a s
  | .firebreakLower katFail => Sys2Proof.Machine.execFirebreakLower katFail s
  | .openingToken token => Sys2Proof.Machine.execOpeningToken token s
  | .clearing readbackOk => Sys2Proof.Machine.execClearing readbackOk s
  | .registerWrite off w => Sys2Proof.Machine.execRegisterWrite off w s
  | .setupErrRead path => Sys2Proof.Machine.execSetupErrRead path s
  | .ctxSaveWrite n w => Sys2Proof.Machine.execCtxSaveWrite n w s
  | .pwrOkFall => Sys2Proof.Machine.execPwrOkFall s
  | .vinBrownout => Sys2Proof.Machine.execVinBrownout s
  | .pkgReset => Sys2Proof.Machine.execPkgReset s
  | .groveQuiet g ctx => Sys2Proof.Machine.execGroveQuiet g ctx s
  | .standstillConfirm ctx => Sys2Proof.Machine.execStandstillConfirm ctx s
  | .stewardLinkDown => Sys2Proof.Machine.execStewardLinkDown s
  | .stewardLinkUp => Sys2Proof.Machine.execStewardLinkUp s
  | .clientLinkDown cp => Sys2Proof.Machine.execClientLinkDown cp s

end Sys2Proof.Machine
end

