-- ==== Sys2Proof/Machine/Tick.lean ====
section
/-! DEFINITION. What passes when no command waits: one KCLK cycle of the log time base (spec/15 R479, spec/16 R521). -/

namespace Sys2Proof.Machine

/-- Whether KCLK runs: input power stands and the package is out of reset. (DESIGN CHOICE, log 2) -/
def clocked (s : State) : Bool :=
  match s.life with
  | .off => false
  | .inReset => false
  | _ => true

/-- One KCLK cycle: time advances, SCH takes the integrity events that wait, and the torus ports send what their credits allow.
(DESIGN CHOICE, log 2) -/
def tick (s : State) : State := if clocked s then pumpAll (unitEvents { s with time := s.time + 1 }) else s

end Sys2Proof.Machine
end

