-- ==== Sys2Proof/Safety.lean ====
section
/-! DEFINITION. What claims call a safe run, a well-formed state, an engine that stands at a repeat, and what one unit's change
leaves alone. -/

namespace Sys2Proof.Machine

/-- The step answers a next state. -/
def Runs (s t : State) : Prop := step s = .next t

/-- The three stores hold their canonical form. -/
def State.storesWf (s : State) : Bool :=
  Memory.wf memDefault s.mem && Memory.wf flashDefault s.flash && Memory.wf logDefault s.logMem

/-- The control of an engine. -/
def engCtl (s : State) (c : CoreId) (e : Engine) : Ctl := ((core s c).eng e).ctl

/-- An engine of a core that runs descriptor `d` with list set `l` may issue, and the word at its PC decodes to `op`, of
REP + 1 repeats, which may stand in its list (spec/05 R154, R158, R159). -/
def AtRepeat (s : State) (c : CoreId) (e : Engine) (d : Desc) (l : ListSet) (rep : Nat) (op : SOp) : Prop :=
  (core s c).run = some (d, l) ∧ mayIssue s c e = true ∧ (engCtl s c e).pc < l.pro e + l.body e
    ∧ opcodeOfEngine e op.opcode = true ∧ decodeStream (l.word e (engCtl s c e).pc) = some (rep, op)

/-- The stream commands: core, engine and opcode (Table 5.3). -/
def streamCommand : Instr → Option (CoreId × Engine × Nat)
  | .nop c e => some (c, e, 0x00)
  | .arset c e => some (c, e, 0x01)
  | .cntset c e => some (c, e, 0x02)
  | .cntadd c e => some (c, e, 0x03)
  | .cmpset c e => some (c, e, 0x04)
  | .signal c e => some (c, e, 0x05)
  | .wait c e => some (c, e, 0x06)
  | .phase c e => some (c, e, 0x07)
  | .mpass c => some (c, .mxe, 0x10)
  | .munload c _ => some (c, .mxe, 0x11)
  | .vew c _ => some (c, .vxe, 0x20)
  | .vtr c => some (c, .vxe, 0x21)
  | .vred c => some (c, .vxe, 0x22)
  | .vcvt c _ => some (c, .vxe, 0x23)
  | .vdrop c => some (c, .vxe, 0x24)
  | .ltile c => some (c, .lde, 0x30)
  | .lvec c => some (c, .lde, 0x31)
  | .lq c => some (c, .lde, 0x32)
  | .lfetch c => some (c, .lde, 0x33)
  | .xput c => some (c, .xce, 0x40)
  | .xget c => some (c, .xce, 0x41)
  | .shift c => some (c, .xce, 0x42)
  | .permute c => some (c, .xce, 0x43)
  | _ => none

/-- The signed amount of the signal at a place of a core's operations. -/
def signalAmount (s : State) (c : CoreId) (k : Nat) : Int :=
  match (core s c).pend[k]? with
  | some ⟨_, _, _, _, .signal _ _ amt _ _⟩ => amt.toInt
  | _ => 0

/-- A signal as its home has applied it. -/
def applied (p : Pend) (sat : Bool) : Pend :=
  match p.op with
  | .signal va w amt _ k => { p with op := .signal va w amt (.applied sat) k }
  | _ => p

end Sys2Proof.Machine
end

