-- ==== Sys2Proof/WellFormed.lean ====
section
/-! DEFINITION. Which commands are well formed: operands that can be the event's own (lengths of flits, records, tokens and lists of
readings; places that the stores have). -/

namespace Sys2Proof

/-- Blocks of a half's stacks (spec/07 R232). -/
def stackBlocks : Nat := 188743680

/-- Copies of one landing: one to three images of 2,184 bytes (spec/13 R441). -/
def landingOk (copies : List Bytes) : Bool :=
  1 ≤ copies.length && copies.length ≤ 3 && copies.all fun b => b.length == 2184

/-- An access names a window and a key that an R_Key can hold (spec/12 R408). -/
def inboundOk (a : Inbound) : Bool := a.win < 256 && a.key < 2 ^ 20

/-- A command is well formed. -/
def Instr.wf : Instr → Bool
  | .rideFlitReceive _ mask => decide (mask.length ≤ 256)
  | .invocationWrite _ _ _ desc => desc.length == 320
  | .offload _ _ _ dst => decide (dst + 32 ≤ stackBlocks)
  | .refreshLoop temps => temps.length == 16
  | .stepDecision records => records.all fun b => b.length == 64
  | .torusIdentity _ flit => flit.length == 256
  | .torusFlitReceive _ flit => flit.length == 256
  | .stationFetchAdd acc _ _ => inboundOk acc
  | .inboundWrite acc _ => inboundOk acc
  | .inboundRead acc _ => inboundOk acc
  | .writeWithImmediate acc _ _ => inboundOk acc
  | .landing _ _ _ _ copies => landingOk copies
  | .thermalLoop tj tdie tdram => tj.length == 32 && tdie.length == 16 && tdram.length == 16
  | .firmwareSwitch _ body => decide (body.length ≤ 65536)
  | .openingToken token => token.length == 512
  | .rideFlitTransmit .. | .rideReplayRequest .. | .rideAckTimeout .. | .rideFailed .. | .rideDown ..
  | .lossOfLight .. | .wsbDelivery .. | .feederDelivery .. | .vxeQueueDelivery .. | .shadowFill ..
  | .rowBandBroadcast .. | .merge .. | .drain .. | .takeDescriptor .. | .listSetLoad .. | .invocationStart ..
  | .chunkBoundary .. | .invocationEnd .. | .saveKind1 .. | .restoreKind1 .. | .force .. | .saveKind2 .. | .resume ..
  | .nop .. | .arset .. | .cntset .. | .cntadd .. | .cmpset .. | .signal .. | .signalCommit .. | .signalApply ..
  | .signalAck .. | .wait .. | .waitPoll .. | .watchWake .. | .watchDropNotice .. | .extWaitLimit ..
  | .extWaitTimeout .. | .phase .. | .mpass .. | .munload .. | .vew .. | .vtr .. | .vred .. | .vcvt .. | .vdrop ..
  | .ltile .. | .lvec .. | .lq .. | .lfetch .. | .runAheadRead .. | .xput .. | .xget .. | .shift .. | .permute ..
  | .writeAccepted .. | .tableWalk .. | .tlbInv .. | .offloadCopy .. | .restoreFault .. | .restore ..
  | .accumArrive .. | .accumApplied .. | .accumAck .. | .floorNotice .. | .accumResend .. | .accWindow ..
  | .stackLost .. | .stackRequestArrive .. | .refresh .. | .slotGrant .. | .holdCut .. | .arbSwap .. | .slotTableLive .. | .patrolScrub ..
  | .ssSnap .. | .mjTailWrite .. | .millJobStart .. | .millGroup .. | .trainStepStart | .statsSnapshot | .mirrorWrite ..
  | .rbZero | .digestVote .. | .buddyRestart .. | .doorbellWrite .. | .admission .. | .queryComplete ..
  | .deadlineMiss .. | .guardCompare .. | .guardMajorityCompare .. | .epochPublish | .epochOrder | .svCtlWrite ..
  | .svTimeWrite .. | .qpRetryTimeout .. | .laneBadVerdict .. | .torusResizeDone .. | .torusResizeTimeout ..
  | .tpEnable .. | .tpRetrain .. | .torusTrainDone .. | .torusTrainTimeout .. | .torusReplay .. | .torusReplayFail ..
  | .torusLinkTimeout .. | .transferForward .. | .transferRequest .. | .transferAck .. | .readRsp ..
  | .abortReceive .. | .holdExpire | .jobStart .. | .jobCancel .. | .ringReset .. | .rdmaAckReceive ..
  | .clientFrameReceive .. | .cnpReceive .. | .mqpCommit .. | .htCommit .. | .perst | .i3cEntdaa ..
  | .observationEnd .. | .faultClear .. | .katRun .. | .katResult .. | .viewCompare .. | .retireAck ..
  | .historyHourly | .monitorTrip .. | .monitorTest .. | .landTest .. | .landTestEnd | .freqDecision ..
  | .droopDetect .. | .railCurrentTrip .. | .stretchEnd .. | .stepHoldEnd .. | .capLoop .. | .capGuard ..
  | .pwCtlWrite .. | .grvPctlWrite .. | .phaseWindowOpen .. | .phaseWindowClose .. | .powerGood .. | .svnCommit ..
  | .watchdogExpiry .. | .coppiceRestartRequest .. | .coppiceRestartDone .. | .updateStart .. | .halfQuery ..
  | .firebreakLower .. | .clearing .. | .registerWrite .. | .setupErrRead .. | .ctxSaveWrite .. | .pwrOkFall
  | .vinBrownout | .pkgReset | .groveQuiet .. | .standstillConfirm .. | .stewardLinkDown | .stewardLinkUp
  | .clientLinkDown .. => true

end Sys2Proof
end

