-- ==== Sys2Proof/Certificates/Slice0/Obligations.lean ====
section
/-! DEFINITION. What is claimed of the block: the statements for the provers. -/

open Sys2Proof Sys2Proof.Machine


/-- For every command c, every queue rest cs and every state s: step of s with c in front of its queue is exec of c on s
with the queue cs. With an empty queue the step answers a next state (one idle cycle: the model's choice, assumption log
2). -/
def Obligations.StepRunsTheFrontCommand : Prop :=
  (∀ (c : Instr) (cs : List Instr) (s : State),
    step { s with pending := c :: cs } = exec c { s with pending := cs })
  ∧ ∀ s : State, s.pending = [] → step s = .next (tick s)

/-- RIDE_FLIT_TRANSMIT at a half whose transmitter is up, has no replay to request and none to resend. (1) With room in
the 512-flit retry buffer, it sends the ready flit f that is oldest within the lowest class present: f leaves the ready
list, takes the next SEQ, enters the retry buffer and the wire with its SEQ and the receiver's ACK, and everything else
of the machine stays, but for the time from which an acknowledgement is awaited. (2) With the retry buffer full or
nothing ready, it sends an idle flit, with some SEQ, and changes nothing else. (3) While a resend is under way it
resends the retry buffer's entry i and goes on with i + 1. -/
def Obligations.RideTransmitterServesClassesInOrder : Prop :=
  ∀ (h : Half) (s : State), (rideEnd s h).down = false → (rideEnd s h).askReplay = false →
    (∀ (pre post : List RideFlit) (f : RideFlit),
      (rideEnd s h).resend = none → (rideEnd s h).retry.length < 512 → (rideEnd s h).ready = pre ++ f :: post →
      (∀ g ∈ pre, f.cls.val < g.cls.val) → (∀ g ∈ post, f.cls.val ≤ g.cls.val) →
      ∃ since : Nat, exec (.rideFlitTransmit h) s = .next (modRide h (fun r => { r with
        ready := pre ++ post
        nextSeq := r.nextSeq + 1
        retry := r.retry ++ [(r.nextSeq, f)]
        wire := r.wire ++ [⟨r.nextSeq, r.lastGood, f, rideRaw f.cls f.typ r.lastGood.toNat r.nextSeq.toNat f.pay⟩]
        ackSince := since }) s))
    ∧ ((rideEnd s h).resend = none → 512 ≤ (rideEnd s h).retry.length ∨ (rideEnd s h).ready = [] →
      ∃ q : BitVec 12, exec (.rideFlitTransmit h) s = .next (modRide h (fun r => { r with
        wire := r.wire ++ [⟨q, r.lastGood, ⟨0, 0, zeros 248, 0, false⟩,
          rideRaw 0 0 r.lastGood.toNat q.toNat (zeros 248)⟩] }) s))
    ∧ (∀ (i : Nat) (q : BitVec 12) (f : RideFlit),
      (rideEnd s h).resend = some i → (rideEnd s h).retry[i]? = some (q, f) →
      exec (.rideFlitTransmit h) s = .next (modRide h (fun r => { r with
        wire := r.wire ++ [⟨q, r.lastGood, f, rideRaw f.cls f.typ r.lastGood.toNat q.toNat f.pay⟩]
        resend := if i + 1 < r.retry.length then some (i + 1) else none }) s))

/-- RIDE_FLIT_RECEIVE at a receiver that is up, the other half's wire holding the flit f first, changed in transit by a
mask. (1) When the CRC is good, the TYPE is a data type, the class is legal and SEQ is the one that follows the last
good flit: the receiver stops discarding, records the SEQ and the time, frees the retry buffer of its own half up to the
entry that the flit's ACK names, and a transfer whose last flit this is has arrived, with what waited for it; where
nothing did, it is only noted as arrived. (2) When the CRC is bad: the flit is discarded, nothing arrives, and the
receiver starts discarding and asks for one replay, unless it was discarding already. In both cases the flit leaves the
wire and everything else stays. It rests also on the model's choices and readings in assumption logs 3, 97 and 98. -/
def Obligations.RideReceiverTakesInOrderAndRejectsBadCrc : Prop :=
  (∀ (h : Half) (s : State) (mask : Bytes) (f : WireFlit) (rest : List WireFlit),
    mask.length ≤ 256 → s.ride.length = 2 → (rideEnd s (otherHalf h)).wire = f :: rest →
    (rideEnd s h).down = false →
    let raw := xorBytes f.raw mask
    let hd := leNat (raw.take 4)
    let s1 := modRide (otherHalf h) (fun r => { r with wire := rest }) s
    let arrives (t : State) : State := if f.flit.last then rideFinish f.flit.xfer t else t
    (crc32c (raw.take 252) = leNat (raw.drop 252) → 1 ≤ bits hd 24 4 → bits hd 24 4 ≤ 3 → bits hd 28 4 < 4 →
      BitVec.ofNat 12 (bits hd 0 12) = (rideEnd s h).lastGood + 1 →
      (∀ (old new : List (BitVec 12 × RideFlit)) (g : RideFlit),
        (rideEnd s h).retry = old ++ (BitVec.ofNat 12 (bits hd 12 12), g) :: new →
        (∀ p ∈ old, p.1 ≠ BitVec.ofNat 12 (bits hd 12 12)) →
        exec (.rideFlitReceive h mask) s = .next (arrives (modRide h (fun r => { r with
            retry := new
            resend := r.resend.map (· - (old.length + 1))
            replays := 0
            ackSince := s.time
            lastGood := r.lastGood + 1
            discarding := false
            goodSince := s.time }) s1)))
      ∧ ((∀ p ∈ (rideEnd s h).retry, p.1 ≠ BitVec.ofNat 12 (bits hd 12 12)) →
        exec (.rideFlitReceive h mask) s = .next (arrives (modRide h (fun r => { r with
            lastGood := r.lastGood + 1
            discarding := false
            goodSince := s.time }) s1))))
    ∧ (crc32c (raw.take 252) ≠ leNat (raw.drop 252) →
      exec (.rideFlitReceive h mask) s = .next (modRide h (fun r => { r with
        discarding := true, askReplay := r.askReplay || !r.discarding }) s1)))
  ∧ ∀ (id : Nat) (s : State), (∀ n ∈ s.rideNext, n.after ≠ id) → rideFinish id s = { s with rideDone := s.rideDone ++ [id] }

/-- (1) RIDE_ACK_TIMEOUT with unacknowledged flits and no ACK advance for 1,024 FCLK cycles (512 KCLK cycles), and (2)
RIDE_REPLAY_REQUEST with a request received whose ACK names no entry of the retry buffer: the transmitter resends from
entry 0 of its retry buffer, and the count of replays of its oldest flit rises by one; after eight replays of it there
is no ninth (log 98). (3) A request whose ACK names an entry first frees the buffer up to it, and the replay then counts
from one. Nothing else changes, but for the time from which an acknowledgement is awaited; before the limit
RIDE_ACK_TIMEOUT changes nothing. -/
def Obligations.RideReplayResendsFromTheOldest : Prop :=
  ∀ (h : Half) (s : State), (rideEnd s h).retry ≠ [] →
    ((rideEnd s h).ackSince + 512 ≤ s.time → (rideEnd s h).replays < 8 →
      ∃ since : Nat, exec (.rideAckTimeout h) s = .next (modRide h (fun r => { r with
        resend := some 0, replays := r.replays + 1, ackSince := since, gotReplay := none }) s))
    ∧ (8 ≤ (rideEnd s h).replays → exec (.rideAckTimeout h) s = .next (modRide h id s) ∨ exec (.rideAckTimeout h) s = .next s)
    ∧ (s.time < (rideEnd s h).ackSince + 512 → exec (.rideAckTimeout h) s = .next s)
    ∧ (∀ a : BitVec 12, (rideEnd s h).gotReplay = some a → (∀ p ∈ (rideEnd s h).retry, p.1 ≠ a) → (rideEnd s h).replays < 8 →
      ∃ since : Nat, exec (.rideReplayRequest h) s = .next (modRide h (fun r => { r with
        resend := some 0, replays := r.replays + 1, ackSince := since, gotReplay := none }) s))
    ∧ (∀ (a : BitVec 12) (old new : List (BitVec 12 × RideFlit)) (g : RideFlit),
      (rideEnd s h).gotReplay = some a → (rideEnd s h).retry = old ++ (a, g) :: new → (∀ p ∈ old, p.1 ≠ a) → new ≠ [] →
      ∃ since : Nat, exec (.rideReplayRequest h) s = .next (modRide h (fun r => { r with
        retry := new, resend := some 0, replays := 1, ackSince := since, gotReplay := none }) s))

/-- At a repeat of NOP, ARSET, CNTSET, CNTADD or CMPSET that the engine may issue, the command answers the state in
which only that engine's control has changed: the named address register, counter or comparator holds the value of its
rule, and PC, REP and PART have moved on by one repeat. ARSET sets C0 = C1 = 0 in every form; BASE of the immediate form
is IMM plus PAR_PARI when USEP is set, modulo 2^56; of the parameter form the address of the list set's parameter block
PBLK plus IMM. CNTSET stores VAL modulo M and CNTADD adds its signed amount modulo M, with M = MOD, or 2^32 when MOD is
zero. ARSET of a parameter block past the list set's count faults with PARAM_RANGE (0x02) and the block number. -/
def Obligations.RegisterInstructionsCompleteWithTheirResult : Prop :=
  ∀ (s : State) (c : CoreId) (e : Engine) (d : Desc) (l : ListSet) (rep : Nat),
    let k := engCtl s c e
    let after (k' : Ctl) : State := setCtl c e (k'.advance l e d.chunks rep) s
    (AtRepeat s c e d l rep .nop → exec (.nop c e) s = .next (after k))
    ∧ (∀ (n : Nat) (usep : Bool) (pari imm : Nat), AtRepeat s c e d l rep (.arset n (.imm usep pari imm)) →
      exec (.arset c e) s = .next (after { k with ars := k.ars.set n { k.ar n with
        base := BitVec.ofNat 56 (imm + if usep then (d.par pari).toNat else 0), c0 := 0, c1 := 0 } }))
    ∧ (∀ n w0 w1 s0 s1 : Nat, AtRepeat s c e d l rep (.arset n (.strides w0 w1 s0 s1)) →
      exec (.arset c e) s = .next (after { k with ars := k.ars.set n { k.ar n with
        w0 := BitVec.ofNat 16 w0, w1 := BitVec.ofNat 16 w1, s0 := BitVec.ofNat 32 s0, s1 := BitVec.ofNat 32 s1,
        c0 := 0, c1 := 0 } }))
    ∧ (∀ n m : Nat, AtRepeat s c e d l rep (.arset n (.copy m)) →
      exec (.arset c e) s = .next (after { k with ars := k.ars.set n { k.ar m with c0 := 0, c1 := 0 } }))
    ∧ (∀ n pblk imm : Nat, AtRepeat s c e d l rep (.arset n (.par pblk imm)) →
      (pblk < l.npar → exec (.arset c e) s = .next (after { k with ars := k.ars.set n { k.ar n with
        base := BitVec.ofNat 56 (d.image.toNat + (l.parOfs + pblk) * 2048 + imm), c0 := 0, c1 := 0 } }))
      ∧ (l.npar ≤ pblk → exec (.arset c e) s = .next (engFault c e 0x02 pblk 0 s)))
    ∧ (∀ (n : Nat) (auto : Bool) (mod val : Nat), AtRepeat s c e d l rep (.cntset n auto mod val) →
      let x : Counter := ⟨BitVec.ofNat 32 (val % if mod = 0 then 2 ^ 32 else mod), BitVec.ofNat 32 mod, auto⟩
      exec (.cntset c e) s = .next (after { k with cnts := k.cnts.set n x }))
    ∧ (∀ n amt : Nat, AtRepeat s c e d l rep (.cntadd n amt) →
      let x := k.cnts.getD n Counter.reset
      let sum : Int := (x.val.toNat : Int) + (BitVec.ofNat 32 amt).toInt
      let y := { x with val := BitVec.ofInt 32 (sum % if x.mod = 0 then (2 ^ 32 : Int) else (x.mod.toNat : Int)) }
      exec (.cntadd c e) s = .next (after { k with cnts := k.cnts.set n y }))
    ∧ (∀ n src cond value : Nat, AtRepeat s c e d l rep (.cmpset n src cond value) →
      let x : Comparator := ⟨Fin.ofNat 4 src, Fin.ofNat 8 cond, BitVec.ofNat 32 value⟩
      exec (.cmpset c e) s = .next (after { k with cmps := k.cmps.set n x }))

/-- At the end of a body that is not the last chunk's, CHUNK_BOUNDARY moves the engine to the first body instruction of
the next chunk: CHUNK rises by one, REP is zero, address registers and comparators keep their values, each counter with
AUTO = 1 adds one modulo M, and each counter with AUTO = 0 keeps its value. Nothing else in the machine changes. An
engine that is not at such an end is left alone. -/
def Obligations.ChunkBoundaryAddsAutoCounters : Prop :=
  ∀ (s : State) (c : CoreId) (e : Engine) (d : Desc) (l : ListSet),
    (core s c).run = some (d, l) →
    let k := engCtl s c e
    (k.part = .body → l.pro e + l.body e ≤ k.pc → mayIssue s c e = true → 0 < l.body e → k.chunk.toNat + 1 < d.chunks.toNat →
      ∃ k' : Ctl, exec (.chunkBoundary c e) s = .next (setCtl c e k' s)
        ∧ k'.pc = l.pro e ∧ k'.rep = 0 ∧ k'.chunk = k.chunk + 1 ∧ k'.ars = k.ars ∧ k'.cmps = k.cmps ∧ k'.part = .body
        ∧ k'.cnts.length = k.cnts.length
        ∧ ∀ (n : Nat) (x : Counter), k.cnts[n]? = some x → k'.cnts[n]? = some (if x.auto then
            { x with val := BitVec.ofInt 32 (((x.val.toNat : Int) + 1)
              % if x.mod = 0 then (2 ^ 32 : Int) else (x.mod.toNat : Int)) } else x))
    ∧ (k.pc < l.pro e + l.body e ∨ k.part ≠ .body → exec (.chunkBoundary c e) s = .next s)

/-- For each of the 23 stream commands (NOP to PERMUTE) and every state: where the engine may issue and the word at its
PC is undefined under the encoding tables or stands in the wrong engine's list, the command faults the invocation's
context with BAD_ENCODING (0x01) and bits [127:96] of the word as detail, and a cut that the fault of a forced LDE
delays is counted; where the engine cannot issue, or a well-formed word of another opcode stands there, the command
changes nothing. It rests also on the model's choices and readings in assumption logs 96 and 99. -/
def Obligations.IllegalWordsFaultTheContext : Prop :=
  ∀ (s : State) (i : Instr) (c : CoreId) (e : Engine) (opc : Nat), streamCommand i = some (c, e, opc) →
    (∀ w : Nat, gate s c e opc = .bad w →
      let t := engFault c e 0x01 (w / 2 ^ 96) 0 s
      exec i s = .next (if e = .lde then lateCut c s t else t))
    ∧ (gate s c e opc = .idle → exec i s = .next s)

/-- When the word at an engine's PC is illegal and the running invocation's context has no fault yet, any stream command
of that engine that meets it leaves a state in which: the context's fault is BAD_ENCODING with bits [127:96] of the
word; the fault's outstanding cuts are the cores that ran the context; each of those cores is stopped as under FORCE,
with its monitor slots released and its queues, engines and operations otherwise as they were; the engine that met the
word issues nothing more; every core that did not run the context stays. -/
def Obligations.FirstContextFaultIsRecordedAndStopsItsCores : Prop :=
  ∀ (s : State) (i : Instr) (c : CoreId) (e : Engine) (opc w : Nat) (d : Desc) (l : ListSet),
    streamCommand i = some (c, e, opc) → gate s c e opc = .bad w → (core s c).run = some (d, l) →
    (ctxSt s d.ctx).fault = none →
    ∃ t : State, exec i s = .next t
      ∧ (ctxSt t d.ctx).fault = some (0x01, w / 2 ^ 96)
      ∧ (ctxSt t d.ctx).cuts = coresRunning s d.ctx
      ∧ e ∈ (core t c).stopped ∧ mayIssue t c e = false
      ∧ (∀ n : Nat, n ∈ coresRunning s d.ctx → (core t n).forced = true ∧ core t n = { core s n with
          forced := true, late := (core t n).late, mons := (core t n).mons, stopped := (core t n).stopped })
      ∧ ∀ n : Nat, n ∉ coresRunning s d.ctx → n ≠ c.val → core t n = core s n

/-- (1) At a SIGNAL repeat whose word is 4-byte aligned, lies in an allowed region and resolves to a place of this
package, SIGNAL hands over one operation that holds the word's address, the amount and the control before the repeat, as
issued and not committed; its register steps, control moves on; memory is not touched. To a word of another package, or
of a station whose handle admits it, it hands over the corresponding far operation; a handle that does not faults the
context and nothing issues. (2) SIGNAL_COMMIT of an engine whose first uncommitted signal is to a word of the core's own
half, with no earlier operation of that engine outstanding, for the LDE no earlier delivery waiting and for the MXE no
earlier pass in flight, marks it committed and changes nothing else; (3) with an earlier operation of the same engine
outstanding, an earlier pass of the MXE in flight, or the core under FORCE, it changes nothing. SIGNAL_ACK of an applied
signal whose acknowledgement has arrived removes it from its core's operations. Without saturation nothing else changes.
With saturation SYNC_SAT of the signal's context is 1, SAT_COUNT has risen by one and stops at 65,535; where SYNC_SAT
was 0, SAT_ADDR is the word's address; where it was set in this same cycle, the lower of the two; else it stays. A
signal not yet applied is left alone. It rests also on the model's choices and readings in assumption logs 27, 28 and
100. -/
def Obligations.SignalIssuesAndCommitsAfterEarlierWrites : Prop :=
  ((∀ (s s1 : State) (c : CoreId) (e : Engine) (d : Desc) (l : ListSet) (rep amt : Nat) (word : Opd) (k' : Ctl) (t : Target),
    AtRepeat s c e d l rep (.signal word amt) →
    let k := engCtl s c e
    let va := k.opAddr word
    checkOpd s c signalRegions 4 0 va = none → resolve c d.ctx .write 0 va s = (s1, t) →
    stepArs (steppedArs [word]) k = .ok k' →
    let r := (core s c).nextRpt
    let done (op : POp) : State := modCore c (fun x => { (x.modCtl e fun _ => k'.advance l e d.chunks rep) with
      pend := x.pend ++ [⟨d.ctx, e, r, none, op⟩], nextRpt := r + 1 }) s1
    (∀ p off, t = .here p off → exec (.signal c e) s =
      .next (done (.signal va (p.addr off) (BitVec.ofNat 32 amt) .issued k)))
    ∧ (∀ a b x y z, t = .remote a b x y z → exec (.signal c e) s = .next (done (.farSignal va (BitVec.ofNat 32 amt) k)))
    ∧ (∀ h off, t = .station h off → stnFault s1 d.ctx h off 4 .atomic = none →
      exec (.signal c e) s = .next (done (.farSignal va (BitVec.ofNat 32 amt) k)))
    ∧ (∀ h off code, t = .station h off → stnFault s1 d.ctx h off 4 .atomic = some code →
      exec (.signal c e) s = .next (engFault c e code 0 va.toNat s1)))
  ∧ (∀ (s : State) (c : CoreId) (e : Engine) (i rpt w : Nat) (x : CtxId) (ride : Option Nat) (va : BitVec 56)
      (amt : BitVec 32) (k : Ctl),
    (core s c).pend[i]? = some ⟨x, e, rpt, ride, .signal va w amt .issued k⟩ →
    ((∀ q ∈ (core s c).pend.take i, q.eng ≠ e) → (core s c).forced = false →
      (e = .lde → ∀ r ∈ (core s c).rewinds, rpt < r.rpt) → (e = .mxe → ∀ q ∈ (core s c).mxe.passes, rpt < q.rpt) →
      w / 4096 / 2 ^ 28 % 2 = coreHalf c →
      exec (.signalCommit c e) s = .next (modCore c (fun y => { y with
        pend := y.pend.set i ⟨x, e, rpt, none, .signal va w amt .committed k⟩ }) s))
    ∧ ((core s c).forced = true → exec (.signalCommit c e) s = .next s)
    ∧ (e = .mxe → (∀ q ∈ (core s c).pend.take i, q.eng ≠ e) → (∃ q ∈ (core s c).mxe.passes, q.rpt ≤ rpt) →
      exec (.signalCommit c e) s = .next s)
    ∧ (∀ (j : Nat) (q : Pend), j < i → (core s c).pend[j]? = some q → q.eng = e →
        (∀ q' ∈ (core s c).pend.take i, ∀ va' amt' k', q'.op ≠ .farSignal va' amt' k') →
        (∀ q' ∈ (core s c).pend.take i, ∀ va' w' amt' k', q'.op ≠ .signal va' w' amt' .issued k') →
      exec (.signalCommit c e) s = .next s)))
  ∧ ∀ (s : State) (c : CoreId) (i rpt w : Nat) (x : CtxId) (e : Engine) (ride : Option Nat) (va : BitVec 56)
    (amt : BitVec 32) (st : SigState) (k : Ctl),
    (core s c).pend[i]? = some ⟨x, e, rpt, ride, .signal va w amt st k⟩ →
    (st = .applied false → rideArrived s ride = true → exec (.signalAck c i) s = .next (dropPend c i s))
    ∧ (st = .applied true → rideArrived s ride = true → ∃ t : State, exec (.signalAck c i) s = .next t
      ∧ (core t c).pend = (core s c).pend.eraseIdx i
      ∧ rd t fSyncSat x = 1
      ∧ rd t fSatCount x = min (rd s fSatCount x + 1) 65535
      ∧ (rd s fSyncSat x = 0 → rd t fSatAddr x = va.toNat)
      ∧ (rd s fSyncSat x = 1 → (x.val, s.time) ∈ s.satAt → rd t fSatAddr x = min va.toNat (rd s fSatAddr x))
      ∧ (rd s fSyncSat x = 1 → (x.val, s.time) ∉ s.satAt → rd t fSatAddr x = rd s fSatAddr x)
      ∧ t.mem = s.mem)
    ∧ (st = .issued ∨ st = .committed ∨ rideArrived s ride = false → exec (.signalAck c i) s = .next s)

/-- For a non-empty list of distinct signals of one cycle (of cores, remote packages and stations), each at its word, all
at one 4-byte aligned word inside a block payload: SIGNAL_APPLY answers a state in which the word reads min(max(old +
sum of the signed amounts, 0), 0xFFFF_FFFF), in one saturating addition; every byte of payload outside the word stays.
Where all of them are committed signals of this package's cores that have arrived, every watch on the word is woken as
well, and each of them is applied, remembering whether the sum saturated at the first of its context; every other
operation stays. (The stores are in canonical form, which every state that a run reaches has.) -/
def Obligations.SignalsAddExactlyAndSaturateOnce : Prop :=
  (∀ (s s1 : State) (refs : List SigRef) (h : SigHit) (hs : List SigHit) (w : Nat),
    s.storesWf = true → refsDistinct refs = true → w % 4 = 0 → w % 4096 + 4 ≤ 2048 →
    sigHits refs s = (s1, some (h :: hs)) → (∀ g ∈ h :: hs, g.word = w) →
    let sum : Int := (wordRead s1 w : Int) + ((h :: hs).map (·.amt)).sum
    ∃ t : State, exec (.signalApply refs) s = .next t
      ∧ (wordRead t w : Int) = min (max sum 0) 0xFFFFFFFF
      ∧ ∀ a n, a % 4096 + n ≤ 2048 → a + n ≤ w ∨ w + 4 ≤ a → memRead t a n = memRead s1 a n)
  ∧ ∀ (s : State) (refs : List (CoreId × Nat)) (w : Nat),
    s.storesWf = true → refs ≠ [] → refs.Nodup → w % 4 = 0 → w % 4096 + 4 ≤ 2048 →
    (∀ r ∈ refs, ∃ (x : CtxId) (e : Engine) (rpt : Nat) (ride : Option Nat) (va : BitVec 56) (amt : BitVec 32) (k : Ctl),
      (core s r.1).pend[r.2]? = some ⟨x, e, rpt, ride, .signal va w amt .committed k⟩ ∧ rideArrived s ride = true) →
    let sum : Int := (wordRead s w : Int) + (refs.map fun r => signalAmount s r.1 r.2).sum
    let sat : Bool := decide (sum < 0 ∨ 0xFFFFFFFF < sum)
    let ctxOf (r : CoreId × Nat) : Option CtxId := ((core s r.1).pend[r.2]?).map (·.ctx)
    ∃ t : State, exec (.signalApply (refs.map fun r => .core r.1 r.2)) s = .next t
      ∧ (wordRead t w : Int) = min (max sum 0) 0xFFFFFFFF
      ∧ (∀ a n, a % 4096 + n ≤ 2048 → a + n ≤ w ∨ w + 4 ≤ a → memRead t a n = memRead s a n)
      ∧ t.watches.length = s.watches.length
      ∧ (∀ (i : Nat) (u v : Watch), s.watches[i]? = some u → t.watches[i]? = some v →
        v.word = u.word ∧ v.core = u.core ∧ v.slot = u.slot
          ∧ v.woken = (u.woken || decide (u.word < w + 4 ∧ w < u.word + 4)))
      ∧ (∀ (pre post : List (CoreId × Nat)) (r : CoreId × Nat), refs = pre ++ r :: post →
        ∃ ride : Option Nat, (core t r.1).pend[r.2]? = ((core s r.1).pend[r.2]?).map fun p =>
          { applied p (sat && decide (ctxOf r ∉ pre.map ctxOf)) with ride := ride })
      ∧ (∀ (c : CoreId) (k : Nat), (c, k) ∉ refs → (core t c).pend[k]? = (core s c).pend[k]?)
      ∧ t = { s with mem := t.mem, cores := t.cores, watches := t.watches, ride := t.ride, xfers := t.xfers
                     stkReqs := t.stkReqs }

/-- At a WAIT repeat whose word is aligned and in an allowed region. (1) With a GATE comparator that does not hold, the
repeat completes: its register steps and control moves on, nothing is read. (2) Otherwise, with the word at a place of
the core's own half: when the word read compares true with VALUE plus the VADD counter, a WAIT that does not park
completes the same way. (3) When it does not, a WAIT that does not park becomes a polling wait that has seen that value.
(4) A parking WAIT that finds a free slot and no warm one on the word, and room in the home's watch table, takes the
lowest free slot: the slot is active, its watch is armed at the word's home, and the engine waits on that slot. (5) With
the word in the other half the engine waits for the answer to cross the ride. Nothing is written to memory. An engine
waits, not at its final read. A WAIT_POLL of a polling wait on a word of the core's half with no read outstanding, and a
WATCH_WAKE of a woken watch whose slot the wait holds, read the word again. When it compares true, the wait ends: its
register steps, control moves on, and a slot it held turns warm on the same word. When it does not, only the value seen
changes; the slot stays active. A WAIT_POLL of a wait on a station word sends a 4-byte RDMA READ where the handle admits
it and faults where it does not; with a read outstanding it does nothing. A wake of a slot that no engine's wait holds
is discarded with its mark. It rests also on the model's choices and readings in assumption logs 28 and 97. -/
def Obligations.WaitCompletesParksOrPolls : Prop :=
  (∀ (s : State) (c : CoreId) (e : Engine) (d : Desc) (l : ListSet) (rep cond vadd gt poll value : Nat) (word : Opd)
    (pk : Bool) (k' : Ctl),
    AtRepeat s c e d l rep (.wait word cond vadd gt pk poll value) →
    let k := engCtl s c e
    let va := k.opAddr word
    checkOpd s c (waitRegions pk) 4 0 va = none → stepArs (steppedArs [word]) k = .ok k' →
    (gt ≠ 0 → k.cmpNow (gt - 1) = false →
      exec (.wait c e) s = .next (setCtl c e (k'.advance l e d.chunks rep) s))
    ∧ ((gt = 0 ∨ k.cmpNow (gt - 1) = true) → ∀ (s1 : State) (p : Loc) (off : Nat),
      resolve c d.ctx .read 0 va s = (s1, .here p off) →
      let a := p.addr off
      let seen : BitVec 32 := BitVec.ofNat 32 (wordRead s1 a)
      let goal : BitVec 32 := BitVec.ofNat 32 value + if vadd = 0 then 0 else (k.cnts.getD (vadd - 1) Counter.reset).val
      let waiting (slot : Option (Fin 8)) (seen : BitVec 32) (back : Option Nat) : Option Waiting :=
        some ⟨va, some a, goal, Fin.ofNat 8 cond, slot, isExternal s d.ctx va, s.time, seen, false, false, none, back⟩
      (p.half.val = coreHalf c →
        (pk = false → waitHolds (Fin.ofNat 8 cond).val seen goal = true → ∃ t : State, exec (.wait c e) s = .next t
          ∧ core t c = ((core s1 c).stirred d.ctx s.time).setEng e ⟨k'.advance l e d.chunks rep, none, none⟩
          ∧ (∀ n : Nat, n ≠ c → core t n = core s1 n) ∧ t = { s1 with cores := t.cores, stkReqs := t.stkReqs })
        ∧ (pk = false → waitHolds (Fin.ofNat 8 cond).val seen goal = false → ∃ t : State, exec (.wait c e) s = .next t
          ∧ core t c = (core s1 c).setEng e { (core s1 c).eng e with wait := waiting none seen none }
          ∧ (∀ n : Nat, n ≠ c → core t n = core s1 n) ∧ t = { s1 with cores := t.cores, stkReqs := t.stkReqs })
        ∧ (∀ n : Fin 8, pk = true → waitHolds (Fin.ofNat 8 cond).val seen goal = false →
          (∀ m : Fin 8, ¬(((core s1 c).mons.getD m Mon.reset).st = .warm ∧ ((core s1 c).mons.getD m Mon.reset).word = a)) →
          ((core s1 c).mons.getD n Mon.reset).st = .free → (∀ m < n, ((core s1 c).mons.getD m Mon.reset).st ≠ .free) →
          (core s1 c).mons.length = 8 →
          (∀ v ∈ s1.watches, v.core = c → v.slot ≠ n) →
          (s1.watches.filter fun v => v.home == homeOf a).length < homeCap (homeOf a) →
          ∃ t : State, exec (.wait c e) s = .next t
            ∧ ((core t c).eng e).wait = waiting (some n) seen none
            ∧ ((core t c).mons.getD n Mon.reset).st = .active e ∧ ((core t c).mons.getD n Mon.reset).word = a
            ∧ t.watches = s1.watches ++ [⟨homeOf a, a, c, n, false, none⟩]
            ∧ t = { s1 with cores := t.cores, watches := t.watches, stkReqs := t.stkReqs }))
      ∧ (p.half.val ≠ coreHalf c → pk = false → ∃ (t : State) (id : Nat), exec (.wait c e) s = .next t
        ∧ (core t c).eng e = { (core s1 c).eng e with wait := waiting none 0 (some id) } ∧ t.mem = s1.mem)))
  ∧ ∀ (s : State) (c : CoreId) (e : Engine) (d : Desc) (l : ListSet) (rep cond vadd gt poll value : Nat) (word : Opd)
    (pk : Bool) (k' : Ctl) (w : Waiting),
    (core s c).run = some (d, l) → ((core s c).eng e).wait = some w → w.final = false → w.asked = false →
    decodeStream (l.word e (engCtl s c e).pc) = some (rep, .wait word cond vadd gt pk poll value) →
    stepArs (steppedArs [word]) (engCtl s c e) = .ok k' →
    (∀ (s1 : State) (p : Loc) (off : Nat), w.slot = none → w.word.isSome = true → mayReread (core s c) e w = true →
      resolve c d.ctx .read 0 w.va s = (s1, .here p off) → p.half.val = coreHalf c →
      let v := BitVec.ofNat 32 (wordRead s1 (p.addr off))
      let s2 := coreAsk c d.ctx (.short 64) none p s1
      (waitHolds w.cond.val v w.target = true → exec (.waitPoll c e d.ctx) s =
        .next (modCore c (fun x => (x.stirred d.ctx s.time).setEng e ⟨k'.advance l e d.chunks rep, none, none⟩) s2))
      ∧ (waitHolds w.cond.val v w.target = false → exec (.waitPoll c e d.ctx) s =
        .next (setWait c e (some { w with seen := v }) s2)))
    ∧ (w.slot = none → w.word = none → mayReread (core s c) e w = true →
      let handle := bits w.va.toNat 40 12
      let off := w.va.toNat % 2 ^ 40
      let h := handleOf (htBytes s handle)
      let out := coreSend c d.ctx h 2 (h.rva + off) 4 [] (.waitRead c e) none s
      (stnFault s d.ctx handle off 4 .read = none →
        exec (.waitPoll c e d.ctx) s = .next (setWait c e (some { w with reading := out.2 }) out.1))
      ∧ ∀ code, stnFault s d.ctx handle off 4 .read = some code →
        exec (.waitPoll c e d.ctx) s = .next (engFault c e code 0 w.va.toNat s))
    ∧ (w.slot.isSome = true ∨ w.reading.isSome = true ∨ w.back.isSome = true →
      exec (.waitPoll c e d.ctx) s = .next s)
    ∧ (∀ (n : Fin 8) (s1 : State) (p : Loc) (off : Nat),
      (∃ v ∈ s.watches, v.core = c ∧ v.slot = n ∧ v.woken = true ∧ rideArrived s v.ride = true) →
      slotEngine (core s c) n = some (e, w) → goesOn (core s c) e = true →
      let s0 : State := { s with watches := s.watches.map fun v =>
        if v.core = c ∧ v.slot = n then { v with woken := false, ride := none } else v }
      resolve c d.ctx .read 0 w.va s0 = (s1, .here p off) → p.half.val = coreHalf c →
      let v := BitVec.ofNat 32 (wordRead s1 (p.addr off))
      let s2 := coreAsk c d.ctx (.short 64) none p s1
      (waitHolds w.cond.val v w.target = true → ∃ t : State, exec (.watchWake c n) s = .next t
        ∧ (core t c).eng e = ⟨k'.advance l e d.chunks rep, none, none⟩
        ∧ (core t c).mons = (core s1 c).mons.set n
            ⟨.warm, ((core s1 c).mons.getD n Mon.reset).word, (core s1 c).monClock⟩
        ∧ t = { s2 with cores := t.cores })
      ∧ (waitHolds w.cond.val v w.target = false → exec (.watchWake c n) s =
        .next (setWait c e (some { w with seen := v }) s2)))
    ∧ (∀ n : Fin 8, (∃ v ∈ s.watches, v.core = c ∧ v.slot = n ∧ v.woken = true ∧ rideArrived s v.ride = true) →
      slotEngine (core s c) n = none →
      exec (.watchWake c n) s = .next { s with watches := s.watches.map fun v =>
        if v.core = c ∧ v.slot = n then { v with woken := false, ride := none } else v })

/-- (1) A drop notice on its way to a warm slot makes the slot free; to a free slot it is only consumed. (2)
EXT_WAIT_LIMIT of an external wait that has waited more than EXT_WAIT_LIMIT x 1,024 cycles, with a limit not zero, makes
its final read due and changes nothing else; before the limit, or with limit zero, it changes nothing. (3)
EXT_WAIT_TIMEOUT of a wait whose final read is due and not out, with no other read outstanding and its engine going on,
makes that read: of a word of the core's half it answers at once; when the word holds, the repeat completes; when it
does not, the invocation's context faults with EXT_WAIT_TIMEOUT (0x20) at the word's address, and the wait has seen that
value. Of a station word it sends the 4-byte RDMA READ. A wait whose final read is not due, or is out, is left alone. It
rests also on the model's choices and readings in assumption logs 3 and 28. -/
def Obligations.DropNoticesAndExternalWaitLimits : Prop :=
  ∀ (s : State) (c : CoreId),
    (∀ n : Fin 8, (c, n) ∈ s.drops →
      (((core s c).mons.getD n Mon.reset).st = .free →
        exec (.watchDropNotice c n) s = .next { s with drops := s.drops.erase (c, n) })
      ∧ (((core s c).mons.getD n Mon.reset).st = .warm →
        exec (.watchDropNotice c n) s = .next (modCore c (fun x => { x with
          mons := x.mons.set n ⟨.free, 0, x.monClock⟩, monClock := x.monClock + 1 }) { s with drops := s.drops.erase (c, n) })))
    ∧ ∀ (e : Engine) (d : Desc) (l : ListSet) (w : Waiting),
      (core s c).run = some (d, l) → ((core s c).eng e).wait = some w →
      (w.ext = true → w.final = false → rd s fExtWaitLimit d.ctx ≠ 0 →
        w.begin + rd s fExtWaitLimit d.ctx * 1024 < s.time →
        exec (.extWaitLimit c e) s = .next (setWait c e (some { w with final := true }) s))
      ∧ (w.ext = false ∨ rd s fExtWaitLimit d.ctx = 0 ∨ s.time ≤ w.begin + rd s fExtWaitLimit d.ctx * 1024 →
        exec (.extWaitLimit c e) s = .next s)
      ∧ (w.final = false ∨ w.asked = true → exec (.extWaitTimeout c e d.ctx) s = .next s)
      ∧ (w.final = true → w.asked = false → mayReread (core s c) e w = true →
        let w1 := { w with asked := true }
        let s0 := setWait c e (some w1) s
        (∀ (s1 : State) (p : Loc) (off : Nat), w.word.isSome = true →
          resolve c d.ctx .read 0 w.va s0 = (s1, .here p off) → p.half.val = coreHalf c →
          let seen := BitVec.ofNat 32 (wordRead s1 (p.addr off))
          let s2 := coreAsk c d.ctx (.short 64) none p s1
          (waitHolds w.cond.val seen w.target = true → exec (.extWaitTimeout c e d.ctx) s = .next (waitDone c e s2))
          ∧ (waitHolds w.cond.val seen w.target = false → exec (.extWaitTimeout c e d.ctx) s =
            .next (engFault c e 0x20 0 w.va.toNat (setWait c e (some { w1 with seen := seen }) s2))))
        ∧ (w.word = none →
          let handle := bits w.va.toNat 40 12
          let off := w.va.toNat % 2 ^ 40
          let h := handleOf (htBytes s0 handle)
          let out := coreSend c d.ctx h 2 (h.rva + off) 4 [] (.waitRead c e) none s0
          stnFault s0 d.ctx handle off 4 .read = none →
          exec (.extWaitTimeout c e d.ctx) s = .next (setWait c e (some { w1 with reading := out.2 }) out.1)))

/-- At a PHASE repeat, control moves on, and: on a grove that the thermal loop does not hold (from 103 °C until it has
fallen to 101 °C), with the package not in thermal shutdown, one window is added for the grove, of the given LEVEL, that
opens LEAD - 10 microseconds and closes LEAD + DUR microseconds from now; otherwise PHASE_DROP rises by one (stopping at
its top value) and no window is added. Nothing else changes. It rests also on the model's choices and readings in
assumption log 74. -/
def Obligations.PhaseNoticeOpensAWindow : Prop :=
  ∀ (s : State) (c : CoreId) (e : Engine) (d : Desc) (l : ListSet) (rep lead level dur : Nat),
    AtRepeat s c e d l rep (.phase lead level dur) →
    let s1 := setCtl c e ((engCtl s c e).advance l e d.chunks rep) s
    ((pwGrove s (coreGrove c)).hot = false → s.life ≠ .shutdown →
      exec (.phase c e) s = .next (modPw (coreGrove c) (fun p => { p with windows :=
        p.windows ++ [⟨level, s.time + 800 * (lead - 10), s.time + 800 * (lead + dur), false⟩] }) s1))
    ∧ ((pwGrove s (coreGrove c)).hot = true ∨ s.life = .shutdown →
      exec (.phase c e) s = .next (bump fPhaseDrop 0 1 s1))

/-- With 16 rewind records held LTILE, LVEC and LQ do nothing. At a repeat of LTILE (8 blocks), LVEC or LQ (one block
each), operands that pass the checks of Table 5.5 and translate, and blocks that land (or were read ahead for this
repeat): when every block has the instruction's format, one delivery of that kind holding the blocks waits (for the ride
where blocks come from the other half), one rewind record holds the control before the repeat, the register steps and
control moves on; when the first block of another format has format f, the context faults with FORMAT_MISMATCH (0x06),
detail 16 f + FMT, and a cut that a tile's or a vector's fault delays is counted. It rests also on the model's choices
and readings in assumption logs 14, 97 and 99. -/
def Obligations.LoadInstructionsQueueADelivery : Prop :=
  ∀ (s : State) (c : CoreId) (d : Desc) (l : ListSet) (rep fmt : Nat) (src : Opd) (i : Instr) (op : SOp) (kind : DelivKind)
    (n : Nat),
    (i, op, kind, n) ∈ [(Instr.ltile c, SOp.ltile fmt src, DelivKind.tile, 8), (.lvec c, .lvec fmt src, .vec, 1),
      (.lq c, .lq fmt src, .queue, 1)] →
    (16 ≤ (core s c).rewinds.length → exec i s = .next s)
    ∧ (AtRepeat s c .lde d l rep op →
      let k := engCtl s c .lde
      let va := k.opAddr src
      ∀ (s1 s2 : State) (ts : List Target) (k' : Ctl) (bs : List Blk),
      checkUnits s c anyLocal 2048 0 (unitVas va 2048 n) = none →
      resolveAll c d.ctx .read 0 (unitVas va 2048 n) s = (s1, .all ts) → stepArs (steppedArs [src]) k = .ok k' →
      ((aheadFor (core s1 c) k va = none ∧ fetchAll d.ctx ts s1 = (s2, .ok bs))
        ∨ (∃ a, aheadFor (core s1 c) k va = some a ∧ s2 = s1 ∧ bs = a.blks)) →
      ((∀ b ∈ bs, b.fmt = fmt) →
        let x := crossReads c d.ctx ts bs none s2
        ∃ t : State, exec i s = .next t
        ∧ (core t c).deliv = (core s2 c).deliv ++ [⟨kind, fmt, bs, va, x.2⟩]
        ∧ (core t c).rewinds = (core s2 c).rewinds ++ [⟨(core s2 c).nextRpt, kind,
            match kind with | .tile => (core s2 c).tiles | .vec => (core s2 c).vecBlks | .queue => 0, k⟩]
        ∧ engCtl t c .lde = k'.advance l .lde d.chunks rep
        ∧ (∀ n : Nat, n ≠ c → core t n = core s2 n) ∧ t = { x.1 with cores := t.cores })
      ∧ (∀ (good : List Blk) (b : Blk) (more : List Blk), bs = good ++ b :: more → (∀ g ∈ good, g.fmt = fmt) → b.fmt ≠ fmt →
        let t := engFault c .lde 0x06 (b.fmt * 16 + fmt) va.toNat s2
        exec i s = .next (if kind = .queue then t else lateCut c s t)))

/-- With the oldest delivery of a kind, its blocks arrived, at the place after other kinds' deliveries in the list:
WSB_DELIVERY puts a tile into the weight staging buffer whose turn it is, when that is free, and the turn goes to the
other buffer; FEEDER_DELIVERY adds a vector block to the feeders while they hold fewer than 4 blocks; VXE_QUEUE_DELIVERY
adds one entry of 2,048 bytes with its side band to the VXE input queue while 16 KiB hold it beside what the queue holds
and has given to drain vectors, and consumes the oldest queue rewind record. The delivery leaves the list, nothing else
changes. Where the place is taken or full, or the blocks are still on the ride, nothing changes. It rests also on the
model's choices and readings in assumption logs 22, 25 and 97. -/
def Obligations.DeliveriesArriveInOrderWhereThereIsRoom : Prop :=
  ∀ (s : State) (c : CoreId) (pre post : List Deliv) (kind : DelivKind) (fmt : Nat) (bs : List Blk) (src : BitVec 56)
      (ride : Option Nat),
    let x := core s c
    x.deliv = pre ++ ⟨kind, fmt, bs, src, ride⟩ :: post → (∀ q ∈ pre, q.kind ≠ kind) →
    (rideArrived s ride = false →
      (kind = .tile → exec (.wsbDelivery c) s = .next s) ∧ (kind = .vec → exec (.feederDelivery c) s = .next s)
      ∧ (kind = .queue → exec (.vxeQueueDelivery c) s = .next s))
    ∧ (rideArrived s ride = true →
    (kind = .tile → x.mxe.wsbs.getD x.mxe.wrWsb none = none → exec (.wsbDelivery c) s = .next (setCore c { x with
        deliv := pre ++ post
        mxe := { x.mxe with wsbs := x.mxe.wsbs.set x.mxe.wrWsb (some ⟨fmt, bs, src⟩), wrWsb := x.mxe.wrWsb + 1 } } s))
    ∧ (kind = .tile → x.mxe.wsbs.getD x.mxe.wrWsb none ≠ none → exec (.wsbDelivery c) s = .next s)
    ∧ (∀ (b : Blk) (more : List Blk), kind = .vec → bs = b :: more →
      (x.mxe.feed.length < 4 → exec (.feederDelivery c) s = .next (setCore c { x with
        deliv := pre ++ post, mxe := { x.mxe with feed := x.mxe.feed ++ [⟨fmt, b.pay, b.side⟩] } } s))
      ∧ (4 ≤ x.mxe.feed.length → exec (.feederDelivery c) s = .next s))
    ∧ (∀ (b : Blk) (more : List Blk), kind = .queue → bs = b :: more →
      (vqHeld x + 2048 ≤ 16384 → exec (.vxeQueueDelivery c) s = .next (setCore c { x with
        deliv := pre ++ post
        vq := x.vq ++ [⟨fmt, true, b.pay, b.side, 0⟩]
        rewinds := x.rewinds.eraseP fun r => r.kind == .queue } s))
      ∧ (16384 < vqHeld x + 2048 → exec (.vxeQueueDelivery c) s = .next s)))

/-- For every state: RUN_AHEAD_READ answers a state that differs from the old one in the translation caches, the requests
to stack ports, the core's reads held ahead, and an RDMA READ that leaves for a station, only. When the core runs an
invocation and is not under FORCE, its LDE waits on nothing, fewer than 8 reads are held, and a load repeat ahead is
found: at places of this package, where its address passes the checks and translates, no source is a leaf block that an
LDE repeat before it still writes, and the blocks land without an event, those blocks are held for exactly that repeat;
of a station, where the handle admits it, one RDMA READ of the images leaves and is held for that repeat. It rests also
on the model's choices and readings in assumption log 30. -/
def Obligations.RunAheadLeavesNoTraceBesideItsBlocks : Prop :=
  (∀ (s : State) (c : CoreId), ∃ t : State, exec (.runAheadRead c) s = .next t
    ∧ t = { s with groves := t.groves, cores := t.cores, stkReqs := t.stkReqs, rdma := t.rdma, rdmaOut := t.rdmaOut
                   nextOp := t.nextOp, ride := t.ride, xfers := t.xfers, rideNext := t.rideNext }
    ∧ ∀ n : Nat, core t n = { core s n with ahead := (core t n).ahead } ∧ (n ≠ c → core t n = core s n))
  ∧ ∀ (s : State) (c : CoreId) (d : Desc) (l : ListSet) (k : Ctl) (va : BitVec 56) (n : Nat) (dsts : List (BitVec 56)),
    (core s c).run = some (d, l) → (core s c).forced = false → (core s c).ldeE.wait = none → (core s c).ahead.length < 8 →
    lookAhead (core s c) d l 8 (core s c).ldeE.ctl [] = some (k, va, n, dsts) →
    (∀ (s1 : State) (ts : List Target) (bs : List Blk), isStn va = false →
      checkUnits s c anyLocal 2048 0 (unitVas va 2048 n) = none →
      resolveAll c d.ctx .read 0 (unitVas va 2048 n) s = (s1, .all ts) →
      (∀ p off, .here p off ∈ ts → p ∉ leafPlaces s1 c dsts ∧ p ∉ ldeWrites s1 c) →
      peekAll s1 d.ctx ts = some bs →
      exec (.runAheadRead c) s = .next (modCore c (fun x => { x with
        ahead := x.ahead ++ [⟨k.pc, k.rep, k.chunk, va, pagesOf s (unitVas va 2048 n), none, bs⟩] }) s1))
    ∧ (isStn va = true →
      let handle := bits va.toNat 40 12
      let off := va.toNat % 2 ^ 40
      let h := handleOf (htBytes s handle)
      stnFault s d.ctx handle off (2184 * n) .read = none →
      ∃ (s1 : State) (id : Nat), coreSend c d.ctx h 2 (h.rva + off) (2184 * n) [] (.aheadRead c) none s = (s1, some id)
        ∧ exec (.runAheadRead c) s = .next (modCore c (fun x => { x with
          ahead := x.ahead ++ [⟨k.pc, k.rep, k.chunk, va, [], some id, []⟩] }) s1))

/-- The blocks that a core reads from the other half cross the ride (crossReads), and what is sent then waits for the
last of them. (1) A plain XPUT whose operands pass the checks, whose sources land in the core's own half, and whose
destinations are places of that half (with no serving under way): every block becomes one pending write to its place, in
order, under one new repeat number; registers step, control moves on, and memory, registers and every other core stay.
(2) XPUT of any resolved local or remote destination, plain or accumulating, (3) SHIFT to the neighbour on its axis, and
(4) XGET, hand their blocks over in order as sendBlocks and takeBlocks say, after the same steps; an accumulating repeat
is first entered as unsettled. (5) PERMUTE with an entry that names another package sends the NBLK blocks from SRC +
SRCOFS x 2,048 to it. (6) XPUT to a station whose handle admits it sends one RDMA WRITE of the images, and (7) XGET from
one sends one RDMA READ of them. It rests also on the model's choices and readings in assumption logs 27 and 97. -/
def Obligations.ExchangeRepeatsHandOverTheirBlocks : Prop :=
  ∀ (s s1 s2 s3 : State) (c : CoreId) (d : Desc) (l : ListSet) (rep n : Nat) (src dst : Opd) (k' : Ctl)
    (ss ds : List Target) (bs : List Blk),
    let k := engCtl s c .xce
    let sva := k.opAddr src
    let dva := k.opAddr dst
    let r := (core s3 c).nextRpt
    let numbered (t : State) : State := modCore c (fun x => { x with nextRpt := r + 1 }) t
    let stepped : State := setCtl c .xce (k'.advance l .xce d.chunks rep) s3
    let pre : Option Nat := (crossReads c d.ctx ss bs none stepped).2
    let issued : State := numbered (crossReads c d.ctx ss bs none stepped).1
    (∀ (accum : Bool) (strm seqp : Nat), AtRepeat s c .xce d l rep (.xput src dst n accum strm seqp) →
      checkBlocks s c anyLocal 0 sva n = none → checkBlocks s c putRegions 1 dva n = none → isStn dva = false →
      resolveAll c d.ctx .read 0 (blockVas sva n) s = (s1, .all ss) →
      resolveAll c d.ctx (if accum then .accum else .write) 1 (blockVas dva n) s1 = (s2, .all ds) →
      fetchAll d.ctx ss s2 = (s3, .ok bs) → stepArs (steppedArs [src, dst]) k = .ok k' →
      let items := (blockVas dva n).zip (ds.zip bs)
      (∀ places : List Loc, accum = false → ds = places.map (fun p => .here p 0) → s3.serve = none → pre = none →
        (∀ p ∈ places, p.half.val = coreHalf c) → bs.length = n →
        exec (.xput c) s = .next (modCore c (fun x => { x with
          pend := x.pend ++ (places.zip bs).map fun q => ⟨d.ctx, .xce, r, none, .put q.1 q.2⟩ }) issued))
      ∧ (accum = false → exec (.xput c) s = .next (sendBlocks c d.ctx r none none pre 0 items issued))
      ∧ (accum = true → accFault items = none → items ≠ [] →
        let run := accRun s c d k rep strm seqp n
        exec (.xput c) s = .next (sendBlocks c d.ctx r (some run) none pre 0 items (openAcc c r run items issued))))
    ∧ (∀ axis strm seqp : Nat, AtRepeat s c .xce d l rep (.shift src dst n axis false strm seqp) →
      checkBlocks s c anyLocal 0 sva n = none → (∀ v ∈ blockVas dva n, farCheck 1 v = none) →
      neighbour s axis ≠ ownCoord s → resolveAll c d.ctx .read 0 (blockVas sva n) s = (s1, .all ss) →
      fetchAll d.ctx ss s1 = (s3, .ok bs) → stepArs (steppedArs [src, dst]) k = .ok k' →
      let far := (blockVas dva n).map fun v => Target.remote (v.toNat / 2 ^ 52) (neighbour s axis).1 (neighbour s axis).2.1
        (neighbour s axis).2.2 (v.toNat % 2 ^ 52)
      exec (.shift c) s =
        .next (sendBlocks c d.ctx r none (some axis) pre 0 ((blockVas dva n).zip (far.zip bs)) issued))
    ∧ (AtRepeat s c .xce d l rep (.xget src dst n) →
      checkBlocks s c getRegions 0 sva n = none → checkBlocks s c getDst 1 dva n = none → isStn sva = false →
      resolveAll c d.ctx .write 1 (blockVas dva n) s = (s1, .all ds) →
      resolveAll c d.ctx .read 0 (blockVas sva n) s1 = (s2, .all ss) → fetchAll d.ctx ss s2 = (s3, .ok bs) →
      stepArs (steppedArs [src, dst]) k = .ok k' →
      exec (.xget c) s = .next (noteFetch c .xce r k
        (takeBlocks c d.ctx r ((blockVas dva n).zip (ss.zip (placesOf ds))) bs (numbered stepped))))
    ∧ (∀ (tbl : Opd) (strm seqp off : Nat) (p : Loc) (tb : Blk) (u1 u2 u3 : State),
      AtRepeat s c .xce d l rep (.permute tbl src strm seqp) →
      checkOpd s c anyLocal 32 0 (k.opAddr tbl) = none → checkOpd s c anyLocal 2048 1 sva = none →
      resolve c d.ctx .read 0 (k.opAddr tbl) s = (u1, .here p off) → blkFetch d.ctx p u1 = (u2, .ok tb) →
      let e := permEnt u2 (slice tb.pay off 32)
      let from_ := sva + BitVec.ofNat 56 (e.ofs * 2048)
      e.good = true → e.acc = false → e.tgt ≠ ownCoord u2 → checkBlocks u2 c anyLocal 1 from_ e.nblk = none →
      (∀ v ∈ blockVas e.dst e.nblk, farCheck 2 v = none) →
      resolveAll c d.ctx .read 1 (blockVas from_ e.nblk) u2 = (u3, .all ss) → fetchAll d.ctx ss u3 = (s3, .ok bs) →
      stepArs (steppedArs [tbl, src]) k = .ok k' →
      let far := (blockVas e.dst e.nblk).map fun v => Target.remote (v.toNat / 2 ^ 52) e.tgt.1 e.tgt.2.1 e.tgt.2.2
        (v.toNat % 2 ^ 52)
      exec (.permute c) s =
        .next (sendBlocks c d.ctx r none none pre 0 ((blockVas e.dst e.nblk).zip (far.zip bs)) issued))
    ∧ (∀ strm seqp : Nat, AtRepeat s c .xce d l rep (.xput src dst n false strm seqp) →
      checkBlocks s c anyLocal 0 sva n = none → checkBlocks s c putRegions 1 dva n = none → isStn dva = true →
      let handle := bits dva.toNat 40 12
      let off := dva.toNat % 2 ^ 40
      let h := handleOf (htBytes s handle)
      stnFault s d.ctx handle off (2184 * n) .write = none →
      resolveAll c d.ctx .read 0 (blockVas sva n) s = (s1, .all ss) → fetchAll d.ctx ss s1 = (s3, .ok bs) →
      stepArs (steppedArs [src, dst]) k = .ok k' →
      let out := coreSend c d.ctx h 0 (h.rva + off) (2184 * n) (bs.flatMap blkImage) (.coreWrite c) pre issued
      (∀ id, out.2 = some id → exec (.xput c) s = .next (pendAdd c ⟨d.ctx, .xce, r, none, .station id⟩ out.1))
      ∧ (out.2 = none → exec (.xput c) s = .next out.1))
    ∧ (AtRepeat s c .xce d l rep (.xget src dst n) →
      checkBlocks s c getRegions 0 sva n = none → checkBlocks s c getDst 1 dva n = none → isStn sva = true →
      resolveAll c d.ctx .write 1 (blockVas dva n) s = (s3, .all ds) →
      let handle := bits sva.toNat 40 12
      let off := sva.toNat % 2 ^ 40
      let len := 2184 * (placesOf ds).length
      let h := handleOf (htBytes s3 handle)
      stnFault s3 d.ctx handle off len .read = none → stepArs (steppedArs [src, dst]) k = .ok k' →
      ∃ (s4 : State) (id : Nat),
        coreSend c d.ctx h 2 (h.rva + off) len [] (.coreRead c d.ctx (placesOf ds)) none (numbered stepped) = (s4, some id)
        ∧ exec (.xget c) s = .next (noteFetch c .xce r k (pendAdd c ⟨d.ctx, .xce, r, none, .station id⟩ s4)))

/-- (1) A pending write of a whole block, arrived, with no earlier write of the core to the same place: WRITE_ACCEPTED
answers a state in which the place holds the block as it lands there (outside ACC its payload and side band and its tag
re-formed from term zero to the place's location term), every other block's bytes read as before, every watch on a word
of the block is woken, and the operation is gone where the place is of the core's half; else its acceptance is on its
way back over the ride, and WRITE_ACCEPTED ends the operation once that has arrived. (2) With an earlier write to that
place outstanding, or not yet arrived, nothing changes. (3) LFETCH, checked, translated and read, lands its blocks at
their own leaf places, those of the other half once the ride has brought them, and moves control on. (The stores are in
canonical form.) It rests also on the model's choices and readings in assumption logs 27 and 97. -/
def Obligations.AcceptedWriteStoresItsBlock : Prop :=
  (∀ (s : State) (c : CoreId) (i rpt : Nat) (x : CtxId) (e : Engine) (ride : Option Nat) (p : Loc) (b : Blk),
    (core s c).pend[i]? = some ⟨x, e, rpt, ride, .put p b⟩ → s.storesWf = true → b.pay.length = 2048 → b.side.length = 128 →
    (rideArrived s ride = true → (∀ q ∈ (core s c).pend.take i, putPlace q.op ≠ some p) →
      ∃ t : State, exec (.writeAccepted c i) s = .next t
        ∧ ((∀ m n, p ≠ .acc m n) → blkStored t p = ⟨b.pay, b.side, BitVec.ofNat 64 (reformTag b.tag.toNat 0 p.term)⟩)
        ∧ (∀ m n, p = .acc m n → blkStored t p = accForm p b)
        ∧ (∀ a n, a + n ≤ p.key * 4096 ∨ p.key * 4096 + 2184 ≤ a → memRead t a n = memRead s a n)
        ∧ (p.half.val = coreHalf c → (core t c).pend = (core s c).pend.eraseIdx i)
        ∧ (p.half.val ≠ coreHalf c → ∃ id : Nat, (core t c).pend = (core s c).pend.set i ⟨x, e, rpt, some id, .landed⟩)
        ∧ (∀ v ∈ s.watches, v.word < p.addr 0 + 2048 → p.addr 0 < v.word + 4 →
          ∃ back : Option Nat, { v with woken := true, ride := back } ∈ t.watches))
    ∧ (rideArrived s ride = false ∨ (∃ q ∈ (core s c).pend.take i, putPlace q.op = some p) →
      exec (.writeAccepted c i) s = .next s))
  ∧ (∀ (s : State) (c : CoreId) (i rpt : Nat) (x : CtxId) (e : Engine) (ride : Option Nat),
    (core s c).pend[i]? = some ⟨x, e, rpt, ride, .landed⟩ → rideArrived s ride = true →
    exec (.writeAccepted c i) s = .next (dropPend c i s))
  ∧ ∀ (s s1 s2 s3 : State) (c : CoreId) (d : Desc) (l : ListSet) (rep n : Nat) (src dst : Opd) (k' : Ctl)
      (ss ds : List Target) (bs : List Blk),
    AtRepeat s c .lde d l rep (.lfetch src dst n) → ldeReading (core s c) = false →
    let k := engCtl s c .lde
    let sva := k.opAddr src
    let dva := k.opAddr dst
    aheadOnWay s (core s c) k sva = false →
    checkBlocks s c fetchRegions 0 sva n = none → checkBlocks s c { ownLeaf := true } 1 dva n = none → isStn sva = false →
    resolveAll c d.ctx .write 1 (blockVas dva n) s = (s1, .all ds) →
    resolveAll c d.ctx .read 0 (blockVas sva n) s1 = (s2, .all ss) →
    ((aheadFor (core s2 c) k sva = none ∧ fetchAll d.ctx ss s2 = (s3, .ok bs))
      ∨ (∃ a, aheadFor (core s2 c) k sva = some a ∧ s3 = s2 ∧ bs = a.blks)) →
    stepArs (steppedArs [src, dst]) k = .ok k' →
    exec (.lfetch c) s = .next (leafTake c d.ctx k ss (placesOf ds) bs (modCore c (fun x => { x with ahead := aheadLeft x k })
      (setCtl c .lde (k'.advance l .lde d.chunks rep) s3)))

/-- At an MPASS repeat whose destination passes the checks, with some row band done with every pass in flight and the
engine not halted: (1) without KEEP and with a staging buffer of the instruction's format next in turn, the repeat
issues its pass on a new tile: fields, base counter of Table 5.8, nothing broadcast, merged or drained; the register
steps and control moves on. (2) With KEEP, or where a cut resumes on a tile that had been active
(log 99), the same on the active tile, which no new tile follows. (3) KEEP with no
active tile faults with NO_TILE (0x0B); a tile of another format f faults with FORMAT_MISMATCH (0x06), detail 16 f +
FMT. (4) MUNLOAD with no pass in flight and its checks passed: an upset of the drain logic raises ABFT_MISMATCH kind 2;
else the rows take the drain in order, all of them when the destination is leaf store, and control moves on with the
last; with a full queue it stops after the rows that fit. It rests also on the model's choices and readings in
assumption log 22, 23 and 94. -/
def Obligations.MatrixPassIssuesAndUnloads : Prop :=
  (∀ (s : State) (c : CoreId) (d : Desc) (l : ListSet) (rep fmt dmode nv salt : Nat) (keep sr : Bool) (dst : Opd) (k' : Ctl),
    AtRepeat s c .mxe d l rep (.mpass fmt dmode keep sr dst nv salt) →
    let k := engCtl s c .mxe
    let m := (core s c).mxe
    let va := k.opAddr dst
    mpassDst s c dmode dst nv va = none → mpassReady m = true → m.halted = false → stepArs (steppedArs [dst]) k = .ok k' →
    let pass (tile : Nat) (new : Bool) : Pass :=
      ⟨(core s c).nextRpt, k, fmt, dmode, sr, dst.q, va, nv, tile, new,
        salt * 2 ^ 48 + k.chunk.toNat % 2 ^ 16 * 2 ^ 32 + k.rep * (128 * nv) % 2 ^ 32, m.vecs + nv,
        List.replicate 8 0, 0, List.replicate 8 0⟩
    let issued (tile : Nat) (new : Bool) : State := modCore c (fun x => { (x.modCtl .mxe fun _ => k'.advance l .mxe d.chunks rep)
      with
      nextRpt := x.nextRpt + 1
      mxe := { m with firstPass := false, taken := if new then tile + 1 else m.taken, vecs := m.vecs + nv
                      passes := m.passes ++ [pass tile new] } }) s
    (∀ w : Wsb, keep = false → m.firstPass = false → m.wsbs.getD (m.taken % 2) none = some w →
      (w.fmt = fmt → exec (.mpass c) s = .next (issued m.taken true))
      ∧ (w.fmt ≠ fmt → exec (.mpass c) s = .next (engFault c .mxe 0x06 (w.fmt * 16 + fmt) 0 s)))
    ∧ (∀ t f : Nat, keep = true ∨ m.firstPass = true → m.activeTile = some (t, f) →
      (f = fmt → exec (.mpass c) s = .next (issued t false))
      ∧ (f ≠ fmt → exec (.mpass c) s = .next (engFault c .mxe 0x06 (f * 16 + fmt) 0 s)))
    ∧ (keep = true ∨ m.firstPass = true → m.activeTile = none → exec (.mpass c) s = .next (engFault c .mxe 0x0B 0 0 s)))
  ∧ ∀ (s : State) (c : CoreId) (d : Desc) (l : ListSet) (rep dmode nr salt : Nat) (sr : Bool) (dst src : Opd) (k' : Ctl),
    AtRepeat s c .mxe d l rep (.munload dmode sr dst src nr salt) →
    let k := engCtl s c .mxe
    (dst.q = false → mpassDst s c dmode dst nr (k.opAddr dst) = none) →
    checkOpd s c { ownAcc := true } 1024 1 (k.opAddr src) = none → windowFits (k.opAddr src) (nr * 1024) = true →
    (core s c).mxe.passes = [] → (core s c).mxe.halted = false → (core s c).mxe.unload < nr →
    stepArs (steppedArs [dst, src]) k = .ok k' →
    let s1 := unloadRows c d.ctx dmode (rndOf s d.ctx sr (baseCounter salt k.chunk k.rep (128 * nr)))
      ((k.opAddr src).toNat % 2 ^ 19) ((k.opAddr dst).toNat % 2 ^ 19) dst.q (nr - (core s c).mxe.unload) (core s c).mxe.unload s
    exec (.munload c true) s = .next (abft c 2 k s)
    ∧ ((core s1 c).mxe.unload < nr → dst.q = true ∧ exec (.munload c false) s = .next s1)
    ∧ ((core s1 c).mxe.unload = nr → exec (.munload c false) s =
      .next (setCtl c .mxe (k'.advance l .mxe d.chunks rep) (modMxe c (fun m => { m with unload := 0 }) s1)))
    ∧ (dst.q = false → (core s1 c).mxe.unload = nr)

/-- ROW_BAND_BROADCAST of a band, the engine not halted and not under FORCE, fewer than 16 entries in the band's row
link, a pass with vectors left for the band, its next vector in the feeders in the pass's format: at a new tile's first
vector the band's planes swap first, and while the shadow plane is not ready nothing happens. With rows of 128 weights
in the band's active cells, one entry is added to the band's row link; its sum in column j is the exact sum over the
rows of the vector's element times the weight, its checksum sum is the sum of elements times row checksums modulo 2^32,
and it carries the exponents of vector and columns. The pass's count for the band and the band's feeder position rise by
one, and a feeder block that every band has used leaves. It rests also on the model's choices and readings in assumption
log 22. -/
def Obligations.BroadcastFormsExactColumnSums : Prop :=
  ∀ (s : State) (c : CoreId) (band : Fin 8) (i : Nat) (p : Pass) (q : FeedBlk) (x1 : Core) (w : BandW),
    let m := (core s c).mxe
    let pos := m.feedPos.getD band 0
    let first := p.newTile = true ∧ p.bcast.getD band 0 = 0
    m.halted = false → (core s c).forced = false → m.rl.length = 8 → (m.rl.getD band []).length < 16 →
    passFor Pass.bcast band m.passes = some (i, p) → m.feed[pos / 16]? = some q → q.fmt = p.fmt →
    ((first ∧ swapBand (core s c) p band = none) → exec (.rowBandBroadcast c band) s = .next s)
    ∧ ((first ∧ swapBand (core s c) p band = some x1) ∨ (¬first ∧ x1 = core s c) →
      x1.mxe.active.getD band none = some w → (∀ r ∈ w.rows, r.length = 128) →
      let x := (vecSlice q (pos % 16) band).1
      let places := m.feedPos.set band (pos + 1)
      ∃ t : State, exec (.rowBandBroadcast c band) s = .next t
        ∧ (∃ e : RlEntry, (core t c).mxe.rl = m.rl.set band (m.rl.getD band [] ++ [e])
          ∧ (∀ j < 128, e.sums[j]? = some ((List.zipWith (fun a r => a * List.getD r j 0) x w.rows).sum))
          ∧ e.z = (List.zipWith (fun a y => BitVec.ofInt 32 a * y) x w.cs).sum
          ∧ e.ea = (vecSlice q (pos % 16) band).2.2 ∧ e.eb = w.exps)
        ∧ (core t c).mxe.passes = m.passes.set i { p with bcast := p.bcast.set band (p.bcast.getD band 0 + 1) }
        ∧ (core t c).mxe.active = x1.mxe.active
        ∧ (places.all (16 ≤ ·) = false → (core t c).mxe.feed = m.feed ∧ (core t c).mxe.feedPos = places)
        ∧ (places.all (16 ≤ ·) = true →
            (core t c).mxe.feed = m.feed.tail ∧ (core t c).mxe.feedPos = places.map (· - 16))
        ∧ (∀ n : Nat, n ≠ c → core t n = core s n) ∧ t = { s with cores := t.cores, regs := t.regs })

/-- MERGE with an entry at the head of every row link, room in every column link, a pass with vectors left to merge and
the engine not halted. (1) When the sum over columns of the band sums equals the checksum-column sum modulo 2^32 and the
duplicated logic agrees: the heads leave the row links; each column link gets the 16 sums of its columns, each the exact
sum of the block-pair terms rounded once; the pass has merged one more vector; no register but the arithmetic counters
changes. (2) When the sums differ, by an upset of a band sum or otherwise: the context faults with ABFT_MISMATCH kind 0
and nothing is merged; (3) when they agree and the duplicated logic does not: kind 1. In both the ACC is void, the
engine halts and the core's ABFT count rises by one. It rests also on the model's choices and readings in assumption
logs 94 and 99. -/
def Obligations.MergeChecksThenAddsBandSums : Prop :=
  ∀ (s : State) (c : CoreId) (sumErr : Int) (alignErr : Bool) (hs : List RlEntry) (i : Nat) (p : Pass),
    let m := (core s c).mxe
    rlHeads m = some hs → m.passes.findIdx? (fun p => p.merged < p.nv) = some i → m.passes[i]? = some p →
    m.halted = false → clRoom m = true →
    (checkY hs + BitVec.ofInt 32 sumErr = checkZ hs → alignErr = false →
      let was := (List.range 128).map fun j => roundWa (columnTerms p.fmt hs j)
      exec (.merge c sumErr alignErr) s = .next (count (runCtx s c) (was.foldl (fun a w => a.add w.2) .zero)
        (modMxe c (fun m => { m with
          rl := m.rl.map List.tail
          cl := m.cl.mapIdx fun k l => l ++ [((was.drop (16 * k)).take 16).map (·.1)]
          passes := m.passes.set i { p with merged := p.merged + 1 } }) s)))
    ∧ (checkY hs + BitVec.ofInt 32 sumErr ≠ checkZ hs ∨ alignErr = true → ∃ t : State,
      exec (.merge c sumErr alignErr) s = .next t
      ∧ t = abft c (if checkY hs + BitVec.ofInt 32 sumErr ≠ checkZ hs then 0 else 1) p.ctl s
      ∧ (core t c).mxe = { m with halted := true } ∧ (core t c).accVoid = true
      ∧ tget (grove t (coreGrove c)).abft (coreSlot c) 0 = tget (grove s (coreGrove c)).abft (coreSlot c) 0 + 1)

/-- DRAIN of a column band with a pass that has vectors left for it. (1) With the vector merged, the column link filled,
both bands of a pair at that vector of that pass, room in the queue where the pass drains there, no upset, the engine not halted: the band (the pair of bands of a sub-
block in modes 4 and 5) commits as drainUnit says; in mode 0 the 128 bytes of the band's part of ACC row DST/1024 + v
read back as the 16 packed sums, and every other byte of payload is untouched. (2) An upset raises ABFT_MISMATCH kind 2
and commits nothing. (3) A vector not yet merged, an empty column link, a partner band that lags or leads, or a halted engine: nothing changes. It rests
also on the model's choices and readings in assumption log 23 and 94. -/
def Obligations.DrainCommitsABandOrFaults : Prop :=
  ∀ (s : State) (c : CoreId) (band : Fin 8) (i : Nat) (p : Pass),
    let x := core s c
    passFor Pass.drained band x.mxe.passes = some (i, p) →
    let ks := if 4 ≤ p.dmode then [2 * (band.val / 2), 2 * (band.val / 2) + 1] else [band.val]
    let v := p.drained.getD band 0
    let heads := ks.map fun k => ((x.mxe.cl.getD k []).head?.getD [])
    (∀ dupErr, x.mxe.halted = true ∨ p.merged ≤ v ∨ drainAligned x.mxe.passes i v ks = false ∨ [] ∈ heads →
      exec (.drain c band dupErr) s = .next s)
    ∧ (x.mxe.halted = false → v < p.merged → drainAligned x.mxe.passes i v ks = true → [] ∉ heads → (p.toQ = true → queueRoom x p.rpt v p.dmode = true) →
      exec (.drain c band true) s = .next (abft c 2 p.ctl s)
      ∧ exec (.drain c band false) s = .next (drainUnit c i p ks heads.flatten s)
      ∧ (p.dmode = 0 → s.storesWf = true → (heads.flatten).length = 16 →
        let row := (p.dst.toNat % 2 ^ 19 + v * 1024) / 1024
        let at_ := (Loc.acc c (row / 2)).addr (row % 2 * 1024 + 128 * band.val)
        ∃ t : State, exec (.drain c band false) s = .next t
          ∧ memRead t at_ 128 = heads.flatten.flatMap (fun w => toLe 8 (wapOf w))
          ∧ ∀ a n, a % 4096 + n ≤ 2048 → a + n ≤ at_ ∨ at_ + 128 ≤ a → memRead t a n = memRead s a n))

/-- SHADOW_FILL of an engine that is not halted. (1) A row that is not the tile's last is added to its band and the fill
goes on, with the row's conversion counts. (2) A last row whose readback agrees makes the tile checked and ends the
fill, and after a refill it is a COMPUTE event of the core; the fill of a resumption becomes the active plane; (3) a last row whose readback does not agree, on the first
fill, empties the shadow plane, starts the fill again from row 0 and adds one to FILL_RETRY of the core; (4) on the
refill it raises ABFT_MISMATCH kind 3. (5) With no tile staged, or the band's cells still held, nothing changes. It
rests also on the model's choices and readings in assumption log 94. -/
def Obligations.ShadowFillChecksTheTileAndRefillsOnce : Prop :=
  ∀ (s : State) (c : CoreId) (readErr : Int),
    let m := (core s c).mxe
    (fillStep m readErr = .idle → exec (.shadowFill c readErr) s = .next s)
    ∧ (∀ (m' : Mxe) (n : Cnt), fillStep m readErr = .row m' n →
      exec (.shadowFill c readErr) s = .next (count (runCtx s c) n (modMxe c (fun _ => m') s))
      ∧ (∃ f : Fill, m'.fill = some f ∧ f.row = (m.fill.map Fill.row).getD 0 + 1 ∧ f.row < 128) ∧ m'.checked = m.checked)
    ∧ (∀ (m' : Mxe) (n : Cnt) (cured : Bool), fillStep m readErr = .done m' n cured →
      let s1 := count (runCtx s c) n (modMxe c (fun _ => m') s)
      exec (.shadowFill c readErr) s = .next (if cured then unitEvents (markReplay (computeEvent (.core c) s1)) else s1)
      ∧ m'.fill = none ∧ m'.wsbs = m.wsbs ∧ cured = ((m.fill.map Fill.again).getD false)
      ∧ (m.refill = none → m'.checked = m.checked + 1 ∧ m'.active = m.active)
      ∧ (m.refill ≠ none → m'.checked = m.checked ∧ m'.refill = none ∧ m'.shadow = List.replicate 8 none))
    ∧ (∀ (m' : Mxe) (n : Cnt), fillStep m readErr = .retry m' n →
      exec (.shadowFill c readErr) s = .next (bump fFillRetry c 1 (count (runCtx s c) n (modMxe c (fun _ => m') s)))
      ∧ m'.shadow = List.replicate 8 none ∧ m'.fill = some ⟨0, true⟩ ∧ m'.checked = m.checked)
    ∧ (fillStep m readErr = .fail →
      exec (.shadowFill c readErr) s = .next (abft c 3 (engCtl s c .mxe) s)
      ∧ ∃ f : Fill, m.fill = some f ∧ f.again = true ∧ 127 ≤ f.row)

/-- At a repeat of VEW, VTR, VRED, VCVT or VDROP whose operands pass the checks of Table 5.5, whose sources gather
(vectors vs, queue q left), whose destination resolves to t, whose registers step: without an upset, the result is
written at the destination as vxePut says, the counts of the conversion or operation are added to the context's
arithmetic counters, the queue is q and control has moved on. The 128 lanes of VEW are the operation of Table 5.11 on
the lanes of A, of B or the immediate, and of C; of VTR the function FN of A; of VDROP A x SCALE where mast(SR_KEY,
counter) >> 40 is at least THR, else +0.0. A VRED from the queue takes the vectors that the queue holds and completes
once it has taken K. With a residue upset on an INT32 VEW, or a VCVT from or to INT32, the context
faults with VXE_RESIDUE (0x08), the lane as detail, COMP_EVENT is counted, and nothing is written. It rests also on the
model's choices and readings in assumption logs 26, 94 and 99. -/
def Obligations.VectorCommandsWriteLaneResults : Prop :=
  ∀ (s s1 s2 : State) (c : CoreId) (d : Desc) (l : ListSet) (rep : Nat) (k' : Ctl) (vs : List Vec) (q : List VqEntry) (t : Target),
    let k := engCtl s c .vxe
    let done (dfmt : Nat) (b e : Bytes) (n : Cnt) : State := count d.ctx n (vxePut c d.ctx dfmt t b e
      (modCore c (fun x => { (x.modCtl .vxe fun _ => k'.advance l .vxe d.chunks rep) with vq := q }) s2))
    let goes (pos : Nat) (dd : Opd) : Prop := vxeResolve c d.ctx .write pos (k.opAddr dd) s1 = (s2, t)
      ∧ (∀ a b, t ≠ .fault a b) ∧ ∀ a, t ≠ .absent a
    let vec (n : Nat) : List Nat := wordsLe 4 128 (vs.getD n ([], [])).1
    let f32s (r : Nat → Nat × Cnt) : Bytes × Cnt := (((List.range 128).flatMap fun i => toLe 4 (r i).1),
      ((List.range 128).map r).foldl (fun a x => a.add x.2) Cnt.zero)
    (∀ (o imm : Nat) (i32 bimm : Bool) (a b cc dd : Opd) (up : Option (Fin 128)),
      AtRepeat s c .vxe d l rep (.vew o i32 a b cc dd bimm imm) →
      vecCheck s c k 512 0 a = none → (o ≤ 5 → bimm = false → vecCheck s c k 512 1 b = none) →
      (o = 3 → vecCheck s c k 512 2 cc = none) → vecCheck s c k 512 3 dd = none →
      gather c d.ctx (vewSrcs k o (if i32 then 5 else 4) a b cc bimm) (core s c).vq s = (s1, .ok vs q) → goes 3 dd →
      stepArs (steppedArs [a, b, cc, dd]) k = .ok k' →
      let y (i : Nat) : Nat := if bimm then imm else if o ≤ 5 then (vec 1).getD i 0 else 0
      let z (i : Nat) : Nat := if o = 3 then (vec (if bimm then 1 else 2)).getD i 0 else 0
      (i32 = false → let r := f32s (fun i => vewF32 o ((vec 0).getD i 0) (y i) (z i))
        exec (.vew c up) s = .next (done 4 r.1 [] r.2))
      ∧ (i32 = true → up = none → let r := f32s (fun i => (vewI32 o ((vec 0).getD i 0) (y i) (z i), Cnt.zero))
        exec (.vew c up) s = .next (done 5 r.1 [] r.2))
      ∧ (∀ lane : Fin 128, i32 = true → up = some lane →
        exec (.vew c up) s = .next (engFault c .vxe 0x08 lane 0 (computeEvent (.core c) s2))))
    ∧ (∀ (fn : Nat) (a dd : Opd), AtRepeat s c .vxe d l rep (.vtr fn a dd) →
      vecCheck s c k 512 0 a = none → vecCheck s c k 512 1 dd = none →
      gather c d.ctx [srcOpd k 4 0 a] (core s c).vq s = (s1, .ok vs q) → goes 1 dd → stepArs (steppedArs [a, dd]) k = .ok k' →
      let r := f32s (fun i => vtrFn fn ((vec 0).getD i 0))
      exec (.vtr c) s = .next (done 4 r.1 [] r.2))
    ∧ (∀ (rop n : Nat) (dd a : Opd), AtRepeat s c .vxe d l rep (.vred rop a dd n) → vecCheck s c k 4 1 dd = none →
      (a.q = false → (∀ va ∈ unitVas (k.opAddr a) 512 n, checkOpd s c vxeRegions 512 0 va = none) →
        gather c d.ctx ((unitVas (k.opAddr a) 512 n).map fun va => (4, 0, some va)) (core s c).vq s = (s1, .ok vs q) →
        goes 1 dd → stepArs (steppedArs [a, dd]) k = .ok k' →
        let r := vredCalc rop (vs.map fun v => wordsLe 4 128 v.1)
        exec (.vred c) s = .next (done 4 r.1 [] r.2.2))
      ∧ (a.q = true →
        let p0 := (core s c).vred.getD .start
        let took := vredTake rop (n - p0.n) p0 (core s c).vq
        let held : State := modCore c (fun x => { x with vq := took.2, vred := some took.1 }) s
        (took.1.n < n → exec (.vred c) s = .next held)
        ∧ (n ≤ took.1.n → s1 = held → q = took.2 → goes 1 dd → stepArs (steppedArs [dd]) k = .ok k' →
          let r := took.1.out rop
          exec (.vred c) s = .next (modCore c (fun x => { x with vred := none }) (done 4 r.1 [] r.2.2)))))
    ∧ (∀ (sf df sc salt : Nat) (sr : Bool) (a dd : Opd) (up : Option (Fin 128)),
      AtRepeat s c .vxe d l rep (.vcvt sf df sr a dd sc salt) →
      vecCheck s c k (vecSize sf) 0 a = none → vecCheck s c k (vecSize df) 1 dd = none →
      gather c d.ctx [srcOpd k sf 0 a] (core s c).vq s = (s1, .ok vs q) → goes 1 dd → stepArs (steppedArs [a, dd]) k = .ok k' →
      (up = none ∨ (sf ≠ 5 ∧ df ≠ 5) →
        let r := vcvtCalc sf df (rndOf s d.ctx sr (baseCounter salt k.chunk k.rep 128)) (signed 8 sc) (vs.getD 0 ([], []))
        exec (.vcvt c up) s = .next (done df r.1 r.2.1 r.2.2))
      ∧ (∀ lane : Fin 128, sf = 5 ∨ df = 5 → up = some lane →
        exec (.vcvt c up) s = .next (engFault c .vxe 0x08 lane 0 (computeEvent (.core c) s2))))
    ∧ (∀ (par thr scale : Nat) (a dd : Opd), AtRepeat s c .vxe d l rep (.vdrop a dd par thr scale) →
      vecCheck s c k 512 0 a = none → vecCheck s c k 512 1 dd = none →
      gather c d.ctx [srcOpd k 4 0 a] (core s c).vq s = (s1, .ok vs q) → goes 1 dd → stepArs (steppedArs [a, dd]) k = .ok k' →
      let ctr (i : Nat) : Nat := ((d.par par).toNat + (k.chunk.toNat * (rep + 1) + k.rep) * 128 + i) % 2 ^ 64
      let r := f32s (fun i => if thr ≤ mast (rd s fKey d.ctx) (ctr i) / 2 ^ 40 then f32Mul ((vec 0).getD i 0) scale
        else (0, Cnt.zero))
      exec (.vdrop c) s = .next (done 4 r.1 [] r.2))

/-- TABLE_WALK of an address of STK0, STK1 or UND on a grove's translation unit: a hit changes nothing; a miss runs the
region's walk, from the deepest pointer the unit holds or else from the root; a walk that ends at a page entry makes the
unit hit with that entry when its RES bit is 1 and not at all when it is 0, and nothing but that unit and the requests of
the table reads changes. A miss whose walk fails at level lv with reason r faults a context without fault with
PTE_INVALID (0x10), detail lv + 256 r. TLB_INV for a context and page, with SCH not restarting, leaves no unit that hits
on it, keeps every hit of any other context, region or page, discards reads made ahead through the page by cores that run
the context, and reports its acknowledgement at once where no unit held the page; nothing else changes. It rests also on
the model's choices and readings in assumption log 17, 20 and 101. -/
def Obligations.TableWalkCachesResidentPagesOnly : Prop :=
  (∀ (s : State) (g : Grove) (x : CtxId) (va : BitVec 56) (reg off : Nat), mappedOf va = some (reg, off) →
    ((tlbHit s g x reg off).isSome = true → exec (.tableWalk g x va) s = .next s)
    ∧ (∀ e, tlbHit s g x reg off = none → (walkOn s g x reg off).1 = .page e → e < 2 ^ 64 → ∃ t : State,
      exec (.tableWalk g x va) s = .next t
      ∧ tlbHit t g x reg off = (if pteRes e then some e else none)
      ∧ (∀ n : Nat, n ≠ g → grove t n = grove s n) ∧ t = { s with groves := t.groves, stkReqs := t.stkReqs })
    ∧ (∀ lv r, tlbHit s g x reg off = none → (walkOn s g x reg off).1 = .invalid lv r → (ctxSt s x).fault = none →
      ∃ t : State, exec (.tableWalk g x va) s = .next t ∧ (ctxSt t x).fault = some (0x10, lv + 256 * r)
      ∧ (ctxSt t x).cuts = coresRunning s x))
  ∧ (∀ (s : State) (x : CtxId) (va : BitVec 56) (reg off : Nat), mappedOf va = some (reg, off) →
    (schUp s = false → exec (.tlbInv x va) s = .next s)
    ∧ (schUp s = true → ∃ t : State, exec (.tlbInv x va) s = .next t
      ∧ (∀ g : Nat, tlbHit t g x reg off = none)
      ∧ (∀ (g : Nat) (y : CtxId) (reg' off' : Nat), (y, reg', pageOf reg' off') ≠ (x, reg, pageOf reg off) →
        tlbHit t g y reg' off' = tlbHit s g y reg' off')
      ∧ (∀ c : Nat, runsCtx (core s c) x = true → ∀ a ∈ (core t c).ahead, (reg, pageOf reg off) ∉ a.pages)
      ∧ (∀ c : Nat, core t c = { core s c with ahead := (core t c).ahead })
      ∧ ((∀ g : Nat, tlbHit s g x reg off = none) → .tlbInvAck x reg (pageOf reg off) ∈ t.reports)
      ∧ t = { s with groves := t.groves, cores := t.cores, invWaits := t.invWaits, reports := t.reports }))

/-- OFFLOAD of a resident page of a live context, with SCH not restarting: its entry is rewritten with RES = 0, the
destination half and block, every translation unit drops the page, and the copy is queued at the page's half; of a page
that a queue entry concerns, the off-load waits behind it; of a page not resident, or of a context that is not live,
nothing changes; a destination past the half's last block is refused as outside the store. OFFLOAD_COPY takes the next
queued copy whose old frame no operation still uses, moves its 32 blocks and appends the frame to the context's free
ring; with none, the first off-load that waits on no earlier entry begins. RESTORE_FAULT of a stalled repeat queues the
restore of its page, once for one page. RESTORE takes the next queued restore whose page is not being copied: a page
already resident wakes the stalled engines at once; UF_HEAD equal to UF_TAIL faults the context RESTORE_NOFRAME (0x14);
else the 32 blocks move to the frame at UF_HEAD, the entry is rewritten with RES = 1 and that frame, RESTORES is counted
and the stalled engines wake; the outside accesses that wait for a page are then made again. It rests also on the model's
choices and readings in assumption log 12, 19, 20 and 68. -/
def Obligations.OffloadAndRestoreMoveAPage : Prop :=
  (∀ (s : State) (x : CtxId) (va : BitVec 56) (own : Half) (dst off e : Nat),
    (188743680 < dst + 32 → exec (.offload x va own dst) s = .fault .outsideStore)
    ∧ (dst + 32 ≤ 188743680 → regionOf va = some (.und off) → (walk s x 2 off).1 = .page e →
      let page := off / 65536
      (schUp s = false ∨ (ctxSt s x).live = false → exec (.offload x va own dst) s = .next s)
      ∧ (schUp s = true → (ctxSt s x).live = true →
        ((∃ r ∈ restoreQ s 0 ++ restoreQ s 1, r.ctx = x ∧ r.page = page) →
          exec (.offload x va own dst) s = .next (setRestoreQ (pteOwn e)
            (restoreQ s (pteOwn e) ++ [⟨x, page, bits e 12 4, .offload own dst⟩]) s))
        ∧ ((∀ r ∈ restoreQ s 0 ++ restoreQ s 1, ¬(r.ctx = x ∧ r.page = page)) →
          (pteRes e = false → exec (.offload x va own dst) s = .next s)
          ∧ (pteRes e = true →
            let s1 := tlbInvAll x 2 (page * 65536) (undPteSet x (page * 65536) false own dst s)
            exec (.offload x va own dst) s = .next (setRestoreQ (pteOwn e)
              (restoreQ s (pteOwn e) ++ [⟨x, page, bits e 12 4, .copy own dst (pteOwn e) (pteFrame e)⟩]) s1))))))
  ∧ (∀ (s s1 : State) (h own fh : Half) (i page rc dst f : Nat) (x : CtxId),
    let due (r : Restore) : Bool := match r.job with | .copy _ _ fh f => !frameBusy s fh f | _ => false
    (pickRestore due (restoreQ s h) = none → exec (.offloadCopy h) s = .next (offloadTurn h s))
    ∧ (pickRestore due (restoreQ s h) = some i → (restoreQ s h)[i]? = some ⟨x, page, rc, .copy own dst fh f⟩ →
      movePage x (fun j => .und fh (f % 2 ^ 17) j) (fun j => .stk own (dst + j)) 32 0
        (setRestoreQ h ((restoreQ s h).eraseIdx i) s) = (s1, none) →
      exec (.offloadCopy h) s = .next (freeAppend x fh f s1)))
  ∧ (∀ (s : State) (h own : Half) (e dst : Nat) (r : Restore),
    r.job = .offload own dst → (∀ q ∈ restoreQ s h, ∀ own' dst' fh f, q.job ≠ .copy own' dst' fh f) →
    (restoreQ s h).head? = some r → (walk s r.ctx 2 (r.page * 65536)).1 = .page e →
    let s0 := setRestoreQ h ((restoreQ s h).eraseIdx 0) s
    exec (.offloadCopy h) s = .next (if pteRes e then offloadBegin r.ctx r.page own dst e s0 else s0))
  ∧ (∀ (s : State) (c : CoreId) (e : Engine),
    (((core s c).eng e).stall = none → exec (.restoreFault c e) s = .next s)
    ∧ (∀ (x : CtxId) (page pte : Nat), ((core s c).eng e).stall = some (x, page) →
      (walk s x 2 (page * 65536)).1 = .page pte →
      ((∃ r ∈ restoreQ s (pteOwn pte), r.ctx = x ∧ r.page = page ∧ r.job = .restore) →
        exec (.restoreFault c e) s = .next s)
      ∧ ((∀ r ∈ restoreQ s (pteOwn pte), ¬(r.ctx = x ∧ r.page = page ∧ r.job = .restore)) →
        exec (.restoreFault c e) s =
          .next (setRestoreQ (pteOwn pte) (restoreQ s (pteOwn pte) ++ [⟨x, page, bits pte 12 4, .restore⟩]) s))))
  ∧ (∀ (s : State) (h : Half) (i e : Nat) (r : Restore),
    let copied (p : Restore) : Bool := match p.job with | .copy .. => true | _ => false
    pickRestore (fun r => r.job == .restore && !(restoreQ s 0 ++ restoreQ s 1).any fun p =>
      p.ctx == r.ctx && p.page == r.page && copied p) (restoreQ s h) = some i → (restoreQ s h)[i]? = some r →
    let s0 := setRestoreQ h ((restoreQ s h).eraseIdx i) s
    (walk s0 r.ctx 2 (r.page * 65536)).1 = .page e →
    (pteRes e = true → exec (.restore h) s = .next (inAgain (wakeStalled r.ctx r.page s0)))
    ∧ (pteRes e = false → rd s fUfHead r.ctx = rd s fUfTail r.ctx → (ctxSt s r.ctx).fault = none → s.inHeld = [] →
      ∃ t : State, exec (.restore h) s = .next t ∧ (ctxSt t r.ctx).fault = some (0x14, 0))
    ∧ (pteRes e = false → rd s fUfHead r.ctx ≠ rd s fUfTail r.ctx →
      let p := freeSlot s r.ctx (rd s fUfHead r.ctx)
      let hh := halfOf (rd s fUfHalf r.ctx)
      let n := leNat (stkRead s0 hh p 4)
      let fh := halfOf (n / 2 ^ 17)
      let f := n % 2 ^ 17
      ∀ s1 : State, movePage r.ctx (fun j => .stk (pteOwn e) (pteFrame e + j)) (fun j => .und fh f j) 32 0
        (bumpWrap fUfHead r.ctx 1 (unitAsk r.ctx (.short 4) (.stk hh (p / 2048)) s0)) = (s1, none) →
      exec (.restore h) s = .next (inAgain (wakeStalled r.ctx r.page (bump fRestores r.ctx 1
        (undPteSet r.ctx (r.page * 65536) true fh f s1))))))

/-- The first entry m of a mill's intake for a context whose ride transfer has arrived. The floor step runs first: a
FLOOR above the stream's kept floor becomes it, and window entries and a refused head below it go. Then, with no copy of
m admitted and unapplied: (1) a SEQ below the floor, or in the window, drops the block and answers status 1; (2)
otherwise, with fewer than 4,096 window entries and admitted blocks and no other refused head of the stream, the block
is admitted in order, and asks the stack port of its target; (3) otherwise it is refused with status 2, and becomes the
stream's refused head if it has none. In none of these cases is memory written. A copy of an admitted block waits.
FLOOR_NOTICE applies the floor step of the oldest notice that has arrived. It rests also on the model's choices and
readings in assumption log 32. -/
def Obligations.AccumulateArrivalIsJudgedByFloorAndWindow : Prop :=
  (∀ (s : State) (d : Die) (x : CtxId) (pre post : List AccMsg) (m : AccMsg),
    (accCtx s d x).intake = pre ++ m :: post → (∀ q ∈ pre, rideArrived s q.ride = false) → rideArrived s m.ride = true →
    let y := accFloor m.strm m.floor (accCtx s d x)
    let rest : AccCtx := { y with intake := pre ++ post }
    let adm := (die s d).admitted.filter fun q => q.ctx == x
    let below : Prop := ∃ g, (m.strm, g) ∈ y.floors ∧ y.floors.find? (fun e => e.1 == m.strm) = some (m.strm, g)
      ∧ serialBelow m.seq g = true
    let head : Option Nat := (y.refused.find? fun e => e.1 == m.strm).map (·.2)
    ((∃ q ∈ adm, q.strm = m.strm ∧ q.seq = m.seq) → exec (.accumArrive d x) s = .next s)
    ∧ ((∀ q ∈ adm, ¬(q.strm = m.strm ∧ q.seq = m.seq)) →
      (below ∨ (m.strm, m.seq) ∈ y.window →
        exec (.accumArrive d x) s = .next (accAnswer d m 1 (modAcc d x (fun _ => rest) s)))
      ∧ (¬below → (m.strm, m.seq) ∉ y.window → y.window.length + adm.length < 4096 → (head = none ∨ head = some m.seq) →
        exec (.accumArrive d x) s = .next (modDie d (fun e => { e with admitted := e.admitted ++ [m] })
          (modAcc d x (fun _ => { rest with refused := y.refused.filter fun e => e.1 != m.strm }) (accAsk d m s))))
      ∧ (¬below → (m.strm, m.seq) ∉ y.window → head = none → 4096 ≤ y.window.length + adm.length →
        exec (.accumArrive d x) s = .next (accAnswer d m 2
          (modAcc d x (fun _ => { rest with refused := tset y.refused m.strm m.seq }) s)))
      ∧ (∀ r, ¬below → (m.strm, m.seq) ∉ y.window → head = some r →
        (r ≠ m.seq ∨ 4096 ≤ y.window.length + adm.length) →
        exec (.accumArrive d x) s = .next (accAnswer d m 2 (modAcc d x (fun _ => rest) s)))))
  ∧ (∀ (s t : State) (d : Die) (x : CtxId), exec (.accumArrive d x) s = .next t → t.mem = s.mem)
  ∧ ∀ (s : State) (d : Die) (pre post : List FloorMsg) (f : FloorMsg),
    (die s d).floorsIn = pre ++ f :: post → (∀ q ∈ pre, rideArrived s q.ride = false) → rideArrived s f.ride = true →
    exec (.floorNotice d) s = .next (modAcc d f.ctx (accFloor f.strm f.floor)
      (modDie d (fun e => { e with floorsIn := pre ++ post }) s))

/-- Whenever the window that a mill keeps for a context holds (STREAM, SEQ), ACCUM_ARRIVE of any block of that stream
and SEQ leaves the list of admitted blocks and all of memory as they are, whatever the block's sender, contents, floor
and ride transfer. And ACCUM_APPLIED, when it takes a block out of the admitted list without a fault, puts its (STREAM,
SEQ) into the window, so that no copy of it that arrives next is admitted. It rests also on the model's choices and
readings in assumption log 32. -/
def Obligations.AppliedAccumulateIsNeverAppliedAgain : Prop :=
  (∀ (s u : State) (d : Die) (x : CtxId) (m : AccMsg),
    (accCtx s d x).intake.find? (fun q => rideArrived s q.ride) = some m →
    (m.strm, m.seq) ∈ (accCtx s d x).window → exec (.accumArrive d x) s = .next u →
    (die u d).admitted = (die s d).admitted ∧ u.mem = s.mem)
  ∧ ∀ (s t u : State) (d : Die) (k : Nat) (m m' : AccMsg),
    (die s d).admitted[k]? = some m → exec (.accumApplied d k) s = .next t →
    (die t d).admitted = (die s d).admitted.eraseIdx k →
    (accCtx t d m.ctx).intake.find? (fun q => rideArrived t q.ride) = some m' → m'.strm = m.strm → m'.seq = m.seq →
    exec (.accumArrive d m.ctx) t = .next u →
    (m.strm, m.seq) ∈ (accCtx t d m.ctx).window ∧ (die u d).admitted = (die t d).admitted ∧ u.mem = t.mem

/-- ACCUM_APPLIED of an admitted FP32 block whose target no earlier admitted block names, whose target block lands, on a
core's behalf, at a mill in service: each of the target's 512 words becomes the FP32 sum of the old word and the block's
word; the target's side band becomes zeros and its tag is formed with format FP32 and the context's GEN; every byte
outside the target block stays; (STREAM, SEQ) enters the window, and the block leaves the admitted list. With an earlier
admitted block of the same target, or at a mill out of service, nothing changes. (The stores are in canonical form.) It
rests also on the model's choices and readings in assumption log 32. -/
def Obligations.AccumulateAppliesFp32Sums : Prop :=
  ∀ (s : State) (d : Die) (k : Nat) (m : AccMsg) (c : CoreId),
    (die s d).admitted[k]? = some m → m.blk.fmt ≠ 2 → m.src = .core c → s.storesWf = true → m.b < 2 ^ 28 →
    let h := dieHalf d
    let l := Loc.stk h m.b
    let old := wordsLe 4 512 (blkStored s l).pay
    let new := List.zipWith (fun a b => (f32Add a b).1) old (wordsLe 4 512 m.blk.pay)
    ((.mill d) ∈ s.outOfSvc ∨ (∃ q ∈ (die s d).admitted.take k, m.b ∈ accTargets q) → exec (.accumApplied d k) s = .next s)
    ∧ ((.mill d) ∉ s.outOfSvc → (∀ q ∈ (die s d).admitted.take k, m.b ∉ accTargets q) → poisoned s l = false →
      (∃ t r, landCheck (blkStored s l) l.term = .accepted t r) → ∃ t : State, exec (.accumApplied d k) s = .next t
        ∧ blkStored t l = ⟨f32Bytes new, zeros 128, formTag 4 (genOf s m.ctx) l.term (f32Bytes new) (zeros 128)⟩
        ∧ (∀ a n, a + n ≤ l.key * 4096 ∨ l.key * 4096 + 2184 ≤ a → memRead t a n = memRead s a n)
        ∧ (accCtx t d m.ctx).window = (accCtx s d m.ctx).window ++ [(m.strm, m.seq)]
        ∧ (die t d).admitted = (die s d).admitted.eraseIdx k)

/-- At the sender of an accumulate block to a mill of this package. ACCUM_ACK of a status that has arrived over its ride:
0 or 1 removes the operation; a repeat with further blocks outstanding has one fewer left, and stays unsettled; the last
block settles the repeat and sends its floors. Status 2 marks the block refused now, keeping the time of its first
refusal in a row. A status still on the ride changes nothing. ACCUM_RESEND of a block refused at least 256 FCLK cycles
(128 KCLK cycles) ago sends it again to the same block with the same STREAM and SEQ, as sent; earlier it changes nothing.
ACC_WINDOW of a block refused without a break for 1,048,576 FCLK cycles faults its context with ACC_WINDOW (0x16) and
the stream as detail; earlier, or never refused, it changes nothing. It rests also on the model's choices and readings
in assumption log 3 and 95. -/
def Obligations.AccumulateSenderSettlesResendsOrFaults : Prop :=
  ∀ (s : State) (c : CoreId) (k rpt b st q : Nat) (x : CtxId) (e : Engine) (ride : Option Nat) (h : Half) (z : Blk)
    (stage : AccStage) (since : Option Nat),
    (core s c).pend[k]? = some ⟨x, e, rpt, ride, .accum h b z st q ⟨stage, since⟩⟩ →
    (∀ status, stage = .answered status → rideArrived s ride = false → exec (.accumAck c k) s = .next s)
    ∧ (∀ status r, stage = .answered status → rideArrived s ride = true → status ≤ 1 →
      (core s c).accRpts.find? (fun a => a.rpt == rpt) = some r → 1 < r.left →
      exec (.accumAck c k) s = .next (modCore c (fun y => { y with
        accRpts := y.accRpts.map fun a => if a.rpt = rpt then { a with left := a.left - 1 } else a }) (dropPend c k s)))
    ∧ (∀ status r, stage = .answered status → rideArrived s ride = true → status ≤ 1 →
      (core s c).accRpts.find? (fun a => a.rpt == rpt) = some r → r.left ≤ 1 →
      exec (.accumAck c k) s = .next (sendFloors c x r (modCore c (fun y => { y with
        accRpts := y.accRpts.filter fun a => a.rpt != rpt }) (dropPend c k s))))
    ∧ ((core (dropPend c k s) c).pend = (core s c).pend.eraseIdx k)
    ∧ (∀ status, stage = .answered status → rideArrived s ride = true → 2 ≤ status →
      exec (.accumAck c k) s = .next (modCore c (fun y => { y with
        pend := y.pend.set k ⟨x, e, rpt, ride, .accum h b z st q ⟨.refused s.time, some (since.getD s.time)⟩⟩ }) s))
    ∧ (∀ t0, stage = .refused t0 →
      (t0 + 128 ≤ s.time → exec (.accumResend c k) s = .next (sendAccum c x h b z st q none (modCore c (fun y => { y with
        pend := y.pend.set k ⟨x, e, rpt, ride, .accum h b z st q ⟨.sent, since⟩⟩ }) s)))
      ∧ (s.time < t0 + 128 → exec (.accumResend c k) s = .next s))
    ∧ (∀ t0, since = some t0 → t0 + 524288 ≤ s.time → (ctxSt s x).fault = none → ∃ t : State,
      exec (.accWindow c k) s = .next t ∧ (ctxSt t x).fault = some (0x16, st) ∧ (ctxSt t x).cuts = coresRunning s x)
    ∧ (since = none ∨ (∃ t0, since = some t0 ∧ s.time < t0 + 524288) → exec (.accWindow c k) s = .next s)

/-- SLOT_GRANT begins slot n = clock + 1 of a die, and SLOT_NOW is n modulo 64; a swap of the slot table that is due and the
cuts of grants held too long come first. Then, with no request waiting for buffers and with every request on the channel
of its block: on a channel with nothing in flight, open, not throttled and with no refresh due, the grant goes to the
eligible request of the class that owns the slot (Table 8.6), the oldest first, or, where that class has none, to the
oldest eligible request, or to none where there is none, provided that no request of class Q there may revoke it (none is
queued, the winner is one, or the frame's revocations have reached REVOKE_MAX); where the winner is of another class and
a Q request of another block alone waits beside it, the Q request takes the slot, the channel stays closed for one, and
the winner queues again. A request is eligible when no other read-modify-write of its block is under way, none that
waited on the block before it is queued, and 512 B of its data are staged. A transfer whose data are late keeps its
grant. HOLD_CUT of a grant held beyond its fourth slot with its data still late ends it: the request queues again with
its original age, its class's overrun counter rises by one, and requester, class and channel are recorded; where a Q
request may revoke it, it is revoked instead; any other grant stays. REFRESH of a channel makes its next refresh due in
its turn among the 9, or at the doubled rate 18, of four frames, and before its turn changes nothing. It rests also on
the model's choices and readings in assumption log 35 and 102. -/
def Obligations.SlotGrantsOwnerThenOldest : Prop :=
  (∀ (s : State) (d : Die),
    let s0 := (List.range 32).foldl (fun t ch => holdCut d ch t) (swapTable d s)
    let n := (die s0 d).clock + 1
    let x : DieSt := { die s0 d with clock := n }
    let max := rd s0 fRevokeMax d
    x.waiting = [] → (∀ r ∈ x.queue, r.chan = chanOf r.req.blk) → (∀ r ∈ x.flying, r.chan = chanOf r.req.blk) →
    (∀ e ∈ x.chans, ∀ a ∈ (e.2.cur.map (·.1)).toList ++ e.2.more, a.chan = e.1) →
    ∃ t : State, exec (.slotGrant d) s = .next t
      ∧ (die t d).clock = n ∧ rd t fSlotNow d = n % 64
      ∧ (∀ ch : Fin 32, (x.chan ch).cur = none → (∀ a ∈ x.flying, a.chan ≠ ch) → (x.chan ch).closed = 0 →
        (x.chan ch).refresh = [] → x.throttle = false →
        let revoked := if n % 64 = 0 then 0 else (x.chan ch).revokes
        let l := x.queue.filter fun r => r.chan == ch.val && eligible x r
        let own := l.filter fun r => clsCode r.req.cls == lget x.table (n % 64) 4
        let win := if own = [] then oldest l else oldest own
        ((∀ r ∈ x.queue, r.chan = ch → r.req.cls ≠ .q) ∨ max ≤ revoked ∨ (∃ r, win = some r ∧ r.req.cls = .q) →
          ((die t d).chan ch).cur.map (fun g => (g.1.id, g.2)) = win.map fun r => (r.id, 1))
        ∧ (∀ a q, win = some a → a.req.cls ≠ .q → q.req.cls = .q → q.req.blk ≠ a.req.blk → q.id ≠ a.id → revoked < max →
          shortBytes a.req.kind = none → eligible x q = true → x.queue.filter (fun r => r.chan == ch.val) = [a, q] →
          ((die t d).chan ch).cur.map (fun g => (g.1.id, g.2)) = some (q.id, 1) ∧ ((die t d).chan ch).closed = 1
          ∧ ∃ b ∈ (die t d).queue, b.id = a.id ∧ b.age = a.age ∧ b.chan = ch))
      ∧ (∀ (ch : Fin 32) a k, (x.chan ch).cur = some (a, k) → (x.chan ch).closed = 0 → k ≤ a.req.late → a.write = false →
        ((die t d).chan ch).cur.map (fun g => (g.1.id, g.2)) = some (a.id, k + 1))
      ∧ (∀ d' : Nat, d' ≠ d → die t d' = die s d')
      ∧ t = { s with dies := t.dies, regs := t.regs })
  ∧ (∀ (s : State) (d : Die) (ch : Fin 32) (r : ArbReq) (k : Nat), ((die s d).chan ch).cur = some (r, k) →
    (k < 4 ∨ r.req.late < k ∨ r.write = true → exec (.holdCut d ch) s = .next s)
    ∧ (4 ≤ k → k ≤ r.req.late → r.write = false →
      let may (q : ArbReq) : Bool := q.chan == ch.val && mayRevoke (rd s fRevokeMax d) (die s d) q
      ((∃ q ∈ (die s d).queue, may q = true) →
        exec (.holdCut d ch) s = .next (modDie d (revokeOn (rd s fRevokeMax d) ch) s))
      ∧ ((∀ q ∈ (die s d).queue, may q = false) → ∃ t : State, exec (.holdCut d ch) s = .next t
      ∧ ((die t d).chan ch).cur = none
      ∧ (die t d).queue = (die s d).queue ++ { r with req := { r.req with late := r.req.late - 4 } } :: ((die s d).chan ch).more
      ∧ rd t (ovrFld r.req.cls) d = min (rd s (ovrFld r.req.cls) d + 1) (2 ^ 16 - 1)
      ∧ rd t fSrc d = r.req.who % 2 ^ 16 ∧ rd t fClass d = clsCode r.req.cls ∧ rd t fChan d = ch
      ∧ t = { s with dies := t.dies, regs := t.regs })))
  ∧ ∀ (s : State) (d : Die) (ch : Fin 32), let x := die s d
    let c := x.chan ch
    let rate := if x.doubled then 18 else 9
    (c.dues < rate → c.dues * 256 < (x.clock % 256 + 1) * rate →
      ∃ t : State, exec (.refresh d ch) s = .next t
      ∧ ((die t d).chan ch) = { c with refresh := c.refresh ++ [0], dues := c.dues + 1 }
      ∧ (∀ c : Nat, c ≠ ch → (die t d).chan c = (die s d).chan c)
      ∧ die t d = { die s d with chans := (die t d).chans } ∧ t = { s with dies := t.dies })
    ∧ (rate ≤ c.dues ∨ (x.clock % 256 + 1) * rate ≤ c.dues * 256 → ∃ t : State, exec (.refresh d ch) s = .next t
      ∧ (∀ e : Nat, die t e = die s e) ∧ t = { s with dies := t.dies })

/-- STACK_REQUEST_ARRIVE at die d takes the oldest access on its way to the die whose ride transfer has arrived; with none
nothing changes. Of a request that needs one buffer, shares none and revokes no transfer: with a free buffer in its own
pool (8 of the escape class, 4 of class Q), or else among the 52 shared ones, the request takes it, gets the next number
as its age, and queues on the channel of its block, waiting behind another read-modify-write of the block that is under
way; with none it waits for buffers with a hint of reason 2, and no pool changes. A short access that fits the slot's
worth of queued ones of its requester takes no buffer and queues with them. A BX8 accumulate takes four buffers and
queues four requests of one number, on block numbers 8 apart. A Q request whose data are staged and whose channel is
busy with another class's transfer, not closed and under REVOKE_MAX in the frame, takes the channel, which stays closed
for a slot; the transfer it revoked queues again. REFRESH_LOOP of 16 temperatures sets TDRAM_MAX to the highest; a die
doubles its refresh above 85 and ends it at 83 or below, throttles above 95 and ends that below 93, and keeps both
between. It rests also on the model's choices and readings in assumption log 35 and 102. -/
def Obligations.StackRequestsHoldBuffersOrWait : Prop :=
  (∀ (s : State) (d : Die) (req : Arrival),
    (∀ e ∈ s.stkReqs, e.die ≠ d ∨ rideArrived s e.ride = false) → exec (.stackRequestArrive d req) s = .next s)
  ∧ (∀ (s : State) (d : Die) (req : Arrival) (pre post : List StkAsk) (ask : StkAsk),
    s.stkReqs = pre ++ ask :: post → (∀ e ∈ pre, e.die ≠ d ∨ rideArrived s e.ride = false) → ask.die = d →
    rideArrived s ask.ride = true →
    let x := die s d
    let i := x.nextReq
    let r : StackReq := { ask.req with first := req.first, late := req.late }
    let ch := chanOf r.blk
    let rest : State := { s with stkReqs := pre ++ post }
    let busy := (x.flying.any fun a => a.id != i && isRmw a.req.kind && a.req.blk == r.blk)
      || (x.queue.any fun a => a.id != i && a.write && a.req.blk == r.blk)
    (r.kind ≠ .accBx8 → (r.cls ≠ .q ∨ (x.chan ch).cur = none) → x.pool.2.2 ≤ 52 →
      let e := x.pool.1
      let q := x.pool.2.1
      let sh := x.pool.2.2
      let own := (r.esc = true ∧ e < 8) ∨ (r.esc = false ∧ r.cls = .q ∧ q < 4)
      let held : Nat × Nat × Nat := if own then (if r.esc then (1, 0, 0) else (0, 1, 0)) else (0, 0, 1)
      (sharing x r = none → own ∨ sh < 52 → exec (.stackRequestArrive d req) s =
        .next (modDie d (fun _ => noteSilent s.time { x with
          nextReq := i + 1
          pool := (e + held.1, q + held.2.1, sh + held.2.2)
          queue := x.queue ++ [⟨i, r, i, ch, held, false, busy, none, i, x.clock + req.first⟩] }) rest))
      ∧ (sharing x r = none → ¬own → sh = 52 → ∃ h : BitVec 16, bits h.toNat 12 4 = 2 ∧
        exec (.stackRequestArrive d req) s = .next (modDie d (fun _ => noteSilent s.time { x with
          nextReq := i + 1
          waiting := x.waiting ++ [⟨i, r, i, ch, (0, 0, 0), false, false, some h, i, x.clock + req.first⟩] }) rest))
      ∧ (∀ a, sharing x r = some a → a.req.who = r.who ∧ a.chan = ch
        ∧ exec (.stackRequestArrive d req) s = .next (modDie d (fun _ => noteSilent s.time { x with
          nextReq := i + 1
          queue := x.queue ++ [⟨i, r, i, ch, (0, 0, 0), false, busy, none, a.grp, x.clock + req.first⟩] }) rest)))
    ∧ (∀ used held, r.kind = .accBx8 → r.cls ≠ .q →
      takeBufs x.pool r = some (used, held) → ∃ t : State, exec (.stackRequestArrive d req) s = .next t
        ∧ held.1 + held.2.1 + held.2.2 = 4
        ∧ (die t d).pool = (x.pool.1 + held.1, x.pool.2.1 + held.2.1, x.pool.2.2 + held.2.2)
        ∧ (die t d).queue.map (fun r => (r.id, r.age, r.req.blk, r.chan)) = x.queue.map (fun r => (r.id, r.age, r.req.blk, r.chan))
          ++ (List.range 4).map fun q => (i, i, r.blk + 8 * q, chanOf (r.blk + 8 * q)))
    ∧ (∀ a k, let c := x.chan ch
      r.kind ≠ .accBx8 → r.cls = .q → r.esc = false → sharing x r = none → req.first = 0 →
      x.pool.2.1 < 4 → x.pool.2.2 ≤ 52 → c.cur = some (a, k) → a.req.cls ≠ .q → c.closed = 0 →
      c.revokes < rd s fRevokeMax d → (x.throttle = false ∨ c.grants < 16) → busy = false →
      (∀ b ∈ x.queue, b.id ≠ i) → ∃ (t : State) (q : ArbReq), exec (.stackRequestArrive d req) s = .next t
        ∧ (die t d).chan ch = { c with cur := some (q, 1), more := [], closed := 1, revokes := c.revokes + 1, grants := c.grants + 1 }
        ∧ q.id = i ∧ q.req = r ∧ (die t d).queue.map (·.id) = x.queue.map (·.id) ++ a.id :: c.more.map (·.id)))
  ∧ ∀ (s : State) (temps : List Nat), temps.length = 16 → (∀ v ∈ temps, v < 256) → ∃ t : State,
    exec (.refreshLoop temps) s = .next t
    ∧ (∀ v ∈ temps, v ≤ rd t fTdramMax 0) ∧ rd t fTdramMax 0 ∈ temps
    ∧ (∀ (d : Die) (v : Nat), temps[d.val]? = some v → die t d = { die s d with
        doubled := if 85 < v then true else if v ≤ 83 then false else (die s d).doubled
        throttle := if 95 < v then true else if v < 93 then false else (die s d).throttle })
    ∧ t = { s with dies := t.dies, regs := t.regs }

/-- ARB_SWAP by SCH of a whole word with SWAP set sets ARB_CTL.SWAP, and where SWAP was 0 its die notes the slot of the
write; no other die changes. SLOT_TABLE_LIVE without SWAP, at a slot that does not end a frame of 64, or in the slot of
the write itself, changes nothing; else SWAP is 0 after it, and the shadow table becomes the live one when its entries
are at most 4 and at most 16 of them are class Q, while any other table leaves the live one and sets TBL_REFUSED. SS_SNAP
by SCH of a word with SNAP set while SNAP is 0 copies the live sums of the set, the squares rounded to FP32, into SS_VAL
and SS_NF, zeroes the live sums, and leaves SNAP 0; no other set, die or context changes. It rests also on the model's
choices and readings in assumption log 35. -/
def Obligations.SlotTableAndStatisticsSnapshots : Prop :=
  (∀ (s : State) (d : Die) (w : RegWr), w.path = .sch → w.part = .full → w.val.toNat.testBit 0 = true → ∃ t : State,
    exec (.arbSwap d w) s = .next t ∧ rdb t fSwap d = true ∧ (∀ e : Nat, e ≠ d → e < 16 → regRead t .arbCtl e = regRead s .arbCtl e)
    ∧ die t d = (if rdb s fSwap d then die s d else { die s d with swapAt := (die s d).clock })
    ∧ (∀ e : Nat, e ≠ d → die t e = die s e) ∧ t = { s with regs := t.regs, dies := t.dies })
  ∧ (∀ (s : State) (d : Die),
    (rdb s fSwap d = false ∨ (die s d).clock % 64 ≠ 0 ∨ (die s d).clock ≤ (die s d).swapAt →
      exec (.slotTableLive d) s = .next s)
    ∧ (rdb s fSwap d = true → (die s d).clock % 64 = 0 → (die s d).swapAt < (die s d).clock →
      ∃ t : State, exec (.slotTableLive d) s = .next t
      ∧ rdb t fSwap d = false ∧ t = { s with dies := t.dies, regs := t.regs }
      ∧ let tbl := shadowTable s d
        if (∀ e ∈ tbl, e ≤ 4) ∧ tbl.count 0 ≤ 16 then
          die t d = { die s d with table := tbl } ∧ rd t fTblRefused d = rd s fTblRefused d
        else die t d = die s d ∧ rd t fTblRefused d = 1))
  ∧ ∀ (s : State) (d : Die) (n : Fin 4) (w : RegWr) (x : StatSet), let i := 4 * d.val + n.val
    w.path = .sch → w.part = .full → w.val.toNat.testBit 5 = true → rdb s fSnap i = false → (die s d).stats[n.val]? = some x →
    ∃ t : State, exec (.ssSnap d n w) s = .next t
    ∧ rd t fIncSq i = sqToF32 x.inc % 2 ^ 32 ∧ rd t fFinSq i = sqToF32 x.fin % 2 ^ 32 ∧ rd t fNonfin i = x.nonfin % 2 ^ 32
    ∧ rd t fSnap i = 0
    ∧ (∀ m, (die t d).stats[m]? = if m = n.val then some ⟨0, 0, 0⟩ else (die s d).stats[m]?)
    ∧ die t d = { die s d with stats := (die t d).stats } ∧ (∀ e : Nat, e ≠ d → die t e = die s e)
    ∧ t = { s with dies := t.dies, regs := t.regs }

/-- MJ_TAIL_WRITE by SCH of a whole word sets MJ_BASE and MJ_TAIL and leaves MJ_HEAD. MILL_JOB_START on an idle die with
a descriptor waiting and room for a completion takes the descriptor at MJ_HEAD, which rises by one modulo 64: one that
breaks a rule of Table 8.2 ends at once with STATUS 4 and its START as NEXT; a legal one with a group
of this die becomes the die's job, from its START on, with no group done; with a job running, an empty ring, a lost die,
a full completion ring or a mill out of service nothing changes. MILL_GROUP of a job with a group left whose two lane copies differ twice ends
the job with STATUS 2 and is a COMPUTE event of the mill; a group naming a block that does not exist ends it with STATUS
3; a context with a fault ends it with STATUS 1; a ZERO job of more than this group, with one computation, stores zeros
of format FP32 in the group's four blocks and counts the group; any other group computed at once commits as the group
computation gives, and is counted. For every value of the constants and of the elements G, W, M (and M1, M2), the SGDM
program leaves M = fma(k1, m, fma(k2, w, g k3)) in V_2 and W = fma(k0, m, w) in V_1, and the ADAMW program leaves M1, M2
and W of its pseudocode in V_2, V_3 and V_1, every operation rounded once by the FP32 operations of the vector engine's
table, square root and reciprocal as of their exact values. It rests also on the model's choices and readings in
assumption log 51 and 94. -/
def Obligations.MillJobsStartRunAndFinish : Prop :=
  ((∀ (s : State) (d : Die) (w : RegWr), w.path = .sch → w.part = .full → ∃ t : State, exec (.mjTailWrite d w) s = .next t
    ∧ rd t fMjBase d = bits w.val.toNat 0 28 ∧ rd t fMjTail d = bits w.val.toNat 28 6 ∧ rd t fMjHead d = rd s fMjHead d
    ∧ t = { s with regs := t.regs })
  ∧ (∀ (s : State) (d : Die), let b := mjDesc s d
    let n := fieldAt b 3 1
    let s1 := wr fMjHead d ((rd s fMjHead d + 1) % 64)
      (millAsks (.short 128) (dieHalf d) [rd s fMjBase d + rd s fMjHead d / 16] s)
    (.mill d ∈ s.outOfSvc ∨ (die s d).job ≠ none ∨ (die s d).lost = true ∨ rd s fMjHead d = rd s fMjTail d
        ∨ (rd s fMcHead d + 1) % 64 = rd s fMcTail d → exec (.millJobStart d) s = .next s)
    ∧ (.mill d ∉ s.outOfSvc → (die s d).job = none → (die s d).lost = false → rd s fMjHead d ≠ rd s fMjTail d →
      (rd s fMcHead d + 1) % 64 ≠ rd s fMcTail d → fieldAt b 0 1 ≠ 3 ∨ 32 < n →
      (millOk b [] = false → exec (.millJobStart d) s = .next (finishJob d (jobOf b []) 4 (fieldAt b 8 4) s1))
      ∧ (∀ j, millOk b [] = true → nextGroup d (jobOf b []) = some j →
        exec (.millJobStart d) s = .next (modDie d (fun e => { e with job := some (jobOf b []) }) s1)))
    ∧ (.mill d ∉ s.outOfSvc → (die s d).job = none → (die s d).lost = false → rd s fMjHead d ≠ rd s fMjTail d →
      (rd s fMcHead d + 1) % 64 ≠ rd s fMcTail d → fieldAt b 0 1 = 3 → n ≤ 32 →
      ∀ s2 k, millRead (asCtx (fieldAt b 1 1)) (dieHalf d) [fieldAt b 120 4 % 2 ^ 28]
        (millAsks (.short (4 * n)) (dieHalf d) [fieldAt b 120 4 % 2 ^ 28] s1) = (s2, some [k]) →
      let ops := wordsLe 4 n k.pay
      (millOk b ops = true → exec (.millJobStart d) s = .next (modDie d (fun e => { e with job := some (jobOf b ops) }) s2))
      ∧ (millOk b ops = false → exec (.millJobStart d) s = .next (finishJob d (jobOf b []) 4 (fieldAt b 8 4) s2))))
  ∧ ∀ (s : State) (d : Die) (dup1 dup2 : Bool) (x : MillJob) (j : Nat), (die s d).job = some x → nextGroup d x = some j →
    (.mill d ∈ s.outOfSvc → exec (.millGroup d dup1 dup2) s = .next s)
    ∧ (.mill d ∉ s.outOfSvc →
    ((ctxSt s x.ctx).fault ≠ none → exec (.millGroup d dup1 dup2) s = .next (finishJob d x 1 j s))
    ∧ ((ctxSt s x.ctx).fault = none → (∃ b ∈ groupReads x j ++ groupWrites x j, 188743680 ≤ b) →
      exec (.millGroup d dup1 dup2) s = .next (finishJob d x 3 j s))
    ∧ ((ctxSt s x.ctx).fault = none → (∀ b ∈ groupReads x j ++ groupWrites x j, b < 188743680) →
      (dup1 = true → dup2 = true →
        exec (.millGroup d dup1 dup2) s = .next (unitEvents (markStep none (computeEvent (.mill d) (finishJob d x 2 j s)))))
      ∧ (dup1 = false → x.kind = 5 → x.flags = 0 →
        let z := { x with next := j + 1, groups := x.groups + 1 }
        (nextGroup d z).isSome = true → ∃ t : State, exec (.millGroup d dup1 dup2) s = .next t
          ∧ (die t d).job = some z
          ∧ (s.storesWf = true → ∀ b ∈ groupBlks (slotBase (lget x.arrays 0 0)) j,
            (blkStored t (.stk (dieHalf d) b)).pay = zeros 2048 ∧ (blkStored t (.stk (dieHalf d) b)).fmt = 4))
      ∧ (∀ y s1, dup1 = false → runGroup d x j (millAsks .write (dieHalf d) (if x.kind = mkScan then [] else groupWrites x j)
          (millAsks .read (dieHalf d) (groupReads x j) s)) = .ok y s1 → (nextGroup d { y with next := j + 1 }).isSome = true →
        exec (.millGroup d dup1 dup2) s = .next (modDie d (fun e => { e with
          job := some { y with next := j + 1, groups := y.groups + 1 } }) s1)))))
  ∧ ∀ (ks : List Nat) (g w m1 m2 : Nat),
    let k (n : Nat) : Nat := ks.getD n 0
    let mul (a b : Nat) : Nat := (f32Mul a b).1
    let fma (a b c : Nat) : Nat := (f32Fma a b c).1
    let v := [g, w, m1, m2] ++ List.replicate 12 0
    (let r := (runProg ks sgdmProg v).1
      let g2 := fma (k 2) w (mul g (k 3))
      let m := fma (k 1) m1 g2
      r[2]? = some m ∧ r[1]? = some (fma (k 0) m w))
    ∧ (let r := (runProg ks adamwProg v).1
      let g1 := mul g (k 9)
      let n1 := fma (k 2) g1 (mul m1 (k 1))
      let n2 := fma (k 4) (mul g1 g1) (mul m2 (k 3))
      let d := (f32Add (f32Sqrt (mul n2 (k 8))).1 (k 5)).1
      let u := mul (mul n1 (k 7)) (f32Rcp d).1
      r[2]? = some n1 ∧ r[3]? = some n2 ∧ r[1]? = some (fma (k 0) (fma (k 6) w u) w))

/-- INVOCATION_WRITE of 320 bytes by a running sequencer appends the descriptor to the core's queue, or, with 16 held,
drops it, counts INVQ_OVERRUN and reports it; SCH writes the job record before. TAKE_DESCRIPTOR on a core in service that
has taken none and is not forced takes the first PRIO entry that can start, else the first entry that can start: one that
its checks accept is taken, one they reject is reported to SCH, and one whose image page is absent stays queued while the
restore is queued; with none that can start nothing changes; an entry taken before that can no longer start goes back to
its place first. LIST_SET_LOAD of a descriptor whose set is not resident appends the set read from the image, which
PRELOAD ends, and at most 8 sets of 32 blocks stay resident. INVOCATION_START on an idle core starts the descriptor:
every engine at reset at the start of its list, no active tile, the stores the context's; queue, save records,
operations and VXE queue stay. INVOCATION_END with every engine finished, the core not forced and nothing of its context
outstanding leaves the core idle with the set's LEAF_LIVE and ACC_LIVE; before that it changes nothing. It rests also on
the model's choices and readings in assumption log 21, 24, 99 and 103. -/
def Obligations.InvocationsAreTakenLoadedAndStarted : Prop :=
  (∀ (s : State) (lc : LCore) (byGst : Bool) (micro : Nat) (b : Bytes), b.length = 320 → let c := physOf s lc
    let up := if byGst then gstUp s (lc.val / 16) else schUp s
    let d := parseDesc (if byGst then b else dropFill s lc micro b)
    let s0 := if byGst then s else jobRecPut s
    (up = false → exec (.invocationWrite lc byGst micro b) s = .next s)
    ∧ (up = true → (core s0 c).queue.length < 16 → exec (.invocationWrite lc byGst micro b) s =
      .next (modCore c (fun x => { x with queue := x.queue ++ [d], stir := tset x.stir d.ctx s.time }) s0))
    ∧ (up = true → 16 ≤ (core s0 c).queue.length → exec (.invocationWrite lc byGst micro b) s =
      .next (report (.invOverrun lc d.invSeq) (bump fInvqOverrun c 1 s0))))
  ∧ (∀ (s : State) (c : CoreId), (core s c).taken = none → (core s c).forced = false → lcOf s c ≠ none →
    ((∀ d ∈ (core s c).queue, canStart s c d = false) → exec (.takeDescriptor c) s = .next s)
    ∧ ∀ (pre post : List Desc) (d : Desc), (core s c).queue = pre ++ d :: post → canStart s c d = true →
      ((d.prio = true ∧ ∀ q ∈ pre, (q.prio && canStart s c q) = false)
        ∨ (∀ q ∈ pre ++ d :: post, (q.prio && canStart s c q) = false) ∧ ∀ q ∈ pre, canStart s c q = false) →
      let s0 := modCore c (fun x => { x with queue := pre ++ post }) s
      (∀ s1 r, checkDesc c d s0 = (s1, .reject r) →
        exec (.takeDescriptor c) s = .next (report (.invReject ((lcOf s1 c).getD 0xFFFF) d.invSeq r) s1))
      ∧ (∀ s1 page, checkDesc c d s0 = (s1, .absent page) → exec (.takeDescriptor c) s = .next (queueRestore d.ctx page s))
      ∧ (∀ s1 l, checkDesc c d s0 = (s1, .ok l) → exec (.takeDescriptor c) s =
        .next (modCore c (fun x => { x with
          taken := some (d, (residentSet (core s1 c) d).getD l), takenAt := pre.length }) s1)))
  ∧ (∀ (s : State) (c : CoreId) (d : Desc) (l : ListSet), (core s c).taken = some (d, l) → canStart s c d = false →
    exec (.takeDescriptor c) s = exec (.takeDescriptor c) (modCore c (fun x => { x with
      taken := none, queue := x.queue.take x.takenAt ++ d :: x.queue.drop x.takenAt }) s))
  ∧ (∀ (s s1 : State) (c : CoreId) (d : Desc) (l : ListSet) (b : Bytes), (core s c).taken = some (d, l) →
    residentSet (core s c) d = none → readIns c d l (ceilDiv l.lens.sum 128) 0 s = (s1, .ok b) →
    ∃ t : State, exec (.listSetLoad c) s = .next t
      ∧ (t = s ∨ (∃ kept, kept.Sublist (core s1 c).resident
        ∧ (core t c) = { core s1 c with
          resident := kept ++ [{ l with ins := insOf l.lens.sum b }]
          taken := if d.preload then none else some (d, { l with ins := insOf l.lens.sum b }) }
        ∧ (core t c).resident.length ≤ 8 ∧ ((core t c).resident.map ListSet.blocks).sum ≤ 32
        ∧ t = { s1 with cores := t.cores }))
      ∧ (let l1 : ListSet := { l with ins := insOf l.lens.sum b }
        (core s1 c).resident.length < 8 → ((core s1 c).resident.map ListSet.blocks).sum + l1.blocks ≤ 32 →
        (core t c).resident = (core s1 c).resident ++ [l1]))
  ∧ (∀ (s : State) (c : CoreId) (d : Desc) (l l' : ListSet), (core s c).taken = some (d, l) → residentSet (core s c) d = some l' →
    (core s c).run = none → d.preload = false → d.resume = false → canStart s c d = true →
    ((core s c).owner = none ∨ (core s c).owner = some d.ctx) →
    (∀ r ∈ (core s c).saved, ¬(r.ctx = d.ctx ∧ r.kind = 1)) → ∃ t : State, exec (.invocationStart c) s = .next t
      ∧ (core t c).run = some (d, l') ∧ (core t c).taken = none ∧ (core t c).owner = some d.ctx ∧ (core t c).shown = true
      ∧ (∀ e, (core t c).eng e = { Eng.reset with ctl := Ctl.reset.settle l' e d.chunks })
      ∧ (core t c).mxe.activeTile = none ∧ (core t c).queue = (core s c).queue ∧ (core t c).saved = (core s c).saved
      ∧ (core t c).pend = (core s c).pend ∧ (core t c).vq = (core s c).vq ∧ (core t c).openFmt = (core s c).openFmt
      ∧ (∀ n : Nat, n ≠ c → core t n = core s n) ∧ t = { s with cores := t.cores })
  ∧ ∀ (s : State) (c : CoreId) (d : Desc) (l : ListSet), (core s c).run = some (d, l) →
    ((core s c).forced = true ∨ (∃ e, ((core s c).eng e).ctl.part ≠ .finished) ∨ (∃ p ∈ (core s c).pend, p.ctx = d.ctx)
      ∨ (core s c).mxe.passes ≠ [] → exec (.invocationEnd c) s = .next s)
    ∧ ((core s c).forced = false → (∀ e, ((core s c).eng e).ctl.part = .finished) → (∀ p ∈ (core s c).pend, p.ctx ≠ d.ctx) →
      (core s c).mxe.passes = [] → ∃ t : State, exec (.invocationEnd c) s = .next t
        ∧ core t c = { core s c with
          run := none, live := (l.leafLive, l.accLive), ended := some d, stir := tset (core s c).stir d.ctx s.time }
        ∧ (∀ n : Nat, n ≠ c → core t n = core s n) ∧ t = { s with cores := t.cores, serve := t.serve }
        ∧ (∀ lc, lcOf s c = some lc → some d.ctx = s.sctx → d.ctx ≠ pubCtx s ∨ schUp s = false →
          t = endQueryCore lc d.invSeq { s with cores := t.cores })
        ∧ (∀ lc, lcOf s c = some lc → some d.ctx ≠ s.sctx → d.ctx = pubCtx s → schUp s = true →
          t = modServe (fun v => { v with pubLeft := v.pubLeft.erase (lc, d.invSeq) }) { s with cores := t.cores })
        ∧ (s.serve = none → t.serve = none))

/-- FORCE of a grove that runs a query changes nothing; of any other it stops issue on each of its cores that runs an
unfinished invocation, puts a taken descriptor whose set is not resident back at its place in the queue of every core
that was not forced, and touches no other core; a forced core issues nothing unless its pass is to run to its end.
SAVE_KIND2 of a forced core whose cut has settled and that is not being replaced leaves it idle and not forced, with one
save record of the context, kind 2 and the invocation's INV_SEQ, no queued entry of the context, and PREEMPT_DONE
reported last; a core being replaced then swaps to its grove's spare; unforced or not settled, nothing changes. Engine
state read from the record's bytes is the engine state written. RESUME of a taken RESUME descriptor whose record and
active tile land gives the engines the recorded state, CHUNKS and PARs from the record, the tile to its refill, and
consumes the record. SAVE_KIND1 before a descriptor of another context that is no PRELOAD records live data, then every
leaf and ACC block reads zero and is open, and no context owns the stores; RESTORE_KIND1 gives the stores to the context
and consumes its record. It rests also on the model's choices and readings in assumption log 21, 24 and 99. -/
def Obligations.CutsSaveAndResumeCoreState : Prop :=
  (∀ (s : State) (g : Grove), (runsQuery g s = true → exec (.force g) s = .next s)
    ∧ (runsQuery g s = false → ∃ t : State, exec (.force g) s = .next t ∧ t = { s with cores := t.cores, regs := t.regs }
    ∧ ∀ c : Nat, (coreGrove c ≠ g → core t c = core s c)
      ∧ (coreGrove c = g → (core s c).forced = true → core t c = core s c)
      ∧ (coreGrove c = g → (core s c).forced = false →
        ((core s c).run = none ∨ allFinished (core s c) = true → (core t c).forced = false)
        ∧ ((core s c).run ≠ none → allFinished (core s c) = false → (core t c).forced = true
          ∧ ∀ e, accAddRuns (core t c).mxe = false → mayIssue t c e = false)
        ∧ (∀ d l, (core s c).taken = some (d, l) → residentSet (core s c) d = none →
          (core t c).queue = (core s c).queue.take (core s c).takenAt ++ d :: (core s c).queue.drop (core s c).takenAt
          ∧ (core t c).taken = none))))
  ∧ (∀ (s : State) (c : CoreId) (d : Desc) (l : ListSet), (core s c).run = some (d, l) →
    ((core s c).forced = false ∨ cutSettled s c = false → exec (.saveKind2 c) s = .next s)
    ∧ ((core s c).forced = true → cutSettled s c = true → c ∈ s.replacing →
      exec (.saveKind2 c) s = .next (swapIn c (saveCut c d s)))
    ∧ ((core s c).forced = true → cutSettled s c = true → c ∉ s.replacing → ∃ t : State, exec (.saveKind2 c) s = .next t
      ∧ (core t c).run = none ∧ (core t c).forced = false
      ∧ (core t c).saved = ((core s c).saved.filter fun r => r.ctx != d.ctx) ++ [⟨d.ctx, 2, d.invSeq⟩]
      ∧ (core t c).queue = ((core s c).queue.filter fun q => q.ctx != d.ctx)
      ∧ t.reports.getLast? = some (.preemptDone ((lcOf s c).getD 0xFFFF) d.invSeq)
      ∧ (ctxSt t d.ctx).cuts = ((ctxSt s d.ctx).cuts.filter fun n => n != c.val)))
  ∧ (∀ k : Ctl, k.pc < 2 ^ 16 → k.rep < 2 ^ 16 → k.ars.length = 16 → k.cnts.length = 4 → k.cmps.length = 2 →
    ctlOf (ctlBytes k) = k)
  ∧ (∀ (s s1 s2 s5 : State) (c : CoreId) (d : Desc) (l l' : ListSet) (m : Mxe), (core s c).taken = some (d, l) →
    d.resume = true → mayStart s c d = true → residentSet (core s c) d = some l' →
    let h := saveGet s c d.ctx 0 1
    let st := saveGet s c d.ctx 1 2
    let q := saveGet s c d.ctx 11 1
    let r := s.cutNotes.find? fun n => n.ctx == d.ctx && n.key == h ++ st
    let d1 := { d with
      chunks := BitVec.ofNat 32 (fieldAt h 12 4)
      pars := (List.range 32).map fun n => BitVec.ofNat 64 (fieldAt h (32 + 8 * n) 8) }
    let s0 := modCore c (fun y => { (startCore y d1 l').stirred d.ctx s.time with
      saved := y.saved.filter fun r => r.ctx != d.ctx
      accVoid := false
      mxeE := { Eng.reset with ctl := ctlOf (st.take 1024) }
      vxeE := { Eng.reset with ctl := ctlOf ((st.drop 1024).take 1024) }
      ldeE := { Eng.reset with ctl := ctlOf ((st.drop 2048).take 1024) }
      xceE := { Eng.reset with ctl := ctlOf (st.drop 3072) }
      vred := r.bind (·.vred)
      vq := vqParse (fieldAt q 0 4 % 1024) (q.drop 4) (saveGet s c d.ctx 3 8) }) s
    loadBlocks c d.ctx (fun i => .leaf c i) leafBase (fieldAt h 16 2) 0 s0 = (s1, none) →
    loadRows c d.ctx accBase (fieldAt h 18 2) s1 = (s2, none) →
    let s3 := if (r.map (·.void)).getD false then markVoid d.ctx (zeroAcc c s2) else s2
    refillFrom c d.ctx (r.bind (·.tile)) ((List.range 256).foldl (fun t i => blkOpen c (256 + i) 6 t) s3) = (s5, .ok m) →
    ∃ t : State, exec (.resume c) s = .next t ∧ (core t c).run = some (d1, l') ∧ (core t c).mxe = m
      ∧ (core t c).mxeE.ctl = ctlOf (st.take 1024) ∧ (core t c).vxeE.ctl = ctlOf ((st.drop 1024).take 1024)
      ∧ (core t c).ldeE.ctl = ctlOf ((st.drop 2048).take 1024) ∧ (core t c).xceE.ctl = ctlOf (st.drop 3072)
      ∧ (core t c).owner = some d.ctx ∧ (∀ r ∈ (core t c).saved, r.ctx ≠ d.ctx)
      ∧ t.cutNotes = (match r with | some n => s5.cutNotes.erase n | none => s5.cutNotes))
  ∧ (∀ (s : State) (c : CoreId) (d : Desc) (l : ListSet) (o : CtxId), (core s c).taken = some (d, l) → (core s c).owner = some o →
    (d.ctx = o ∨ d.preload = true ∨ (core s c).run ≠ none → exec (.saveKind1 c) s = .next s)
    ∧ (d.ctx ≠ o → d.preload = false → (core s c).run = none → s.storesWf = true → ∃ t : State,
      exec (.saveKind1 c) s = .next t
      ∧ (core t c).owner = none ∧ (core t c).live = (0, 0) ∧ (core t c).openFmt = openAll
      ∧ (core t c).saved = (if (core s c).live = (0, 0) then (core s c).saved
          else (core s c).saved ++ [⟨o, 1, ((core s c).ended.map (·.invSeq)).getD 0⟩])
      ∧ ∀ i, i < 256 → (blkStored t (.leaf c i)).pay = zeros 2048 ∧ (blkStored t (.acc c i)).pay = zeros 2048))
  ∧ ∀ (s s1 s2 : State) (c : CoreId) (d : Desc) (l : ListSet), (core s c).taken = some (d, l) → (core s c).run = none →
    d.preload = false → (core s c).owner = none → (∃ r ∈ (core s c).saved, r.ctx = d.ctx ∧ r.kind = 1) →
    let h := saveGet s c d.ctx 0 1
    let s0 := modCore c (fun y => { y with
      saved := y.saved.filter fun r => !(r.ctx == d.ctx && r.kind == 1)
      owner := some d.ctx
      live := (fieldAt h 16 2, fieldAt h 18 2)
      ended := some (headerDesc d.ctx h) }) s
    loadBlocks c d.ctx (fun i => .leaf c i) leafBase (fieldAt h 16 2) 0 s0 = (s1, none) →
    loadRows c d.ctx accBase (fieldAt h 18 2) s1 = (s2, none) →
    exec (.restoreKind1 c) s = .next s2 ∧ (core s2 c).owner = some d.ctx
      ∧ (core s2 c).live = (fieldAt h 16 2, fieldAt h 18 2)
      ∧ (core s2 c).saved = ((core s c).saved.filter fun r => !(r.ctx == d.ctx && r.kind == 1))

/-- STACK_LOST of a die not yet lost on a device not retired: the die is lost, RETIRED is 1 with cause 1, READY is
driven low and FAULT_N asserted, no job and no held memory remain, and, where no job runs, every live context without a
fault faults STACK_LOST with 16 times the half plus the stack as DETAIL. On a retired device only the die's loss is
marked; a die already lost changes nothing, nor does a silent channel none of whose requests has gone 65,536 SCLK cycles
without an answer. RIDE_FAILED after eight replays of a flit still unacknowledged, the eighth of which has failed (the
ACK limit after it has passed, or the receiver asks again), retires with cause 2 in the same way; before that nothing
changes. RETIRE_ACK by a full-width write that sets the bit leaves the bit 0; while RETIRED, and SEC runs, the next place
of the health history holds the acknowledgement record and RETIRED stays 1, and while SEC restarts the record waits;
while not RETIRED the flash stays as it was. It rests also on the model's choices and readings in assumption log 46, 47,
80 and 98. -/
def Obligations.LossesRetireTheDevice : Prop :=
  (∀ (s : State) (d : Die) (why : LossKind),
    ((die s d).lost = true → exec (.stackLost d why) s = .next s)
    ∧ (why = .silentChannel → (∀ e ∈ (die s d).silent, s.time < e.2 + 52429) → exec (.stackLost d why) s = .next s)
    ∧ ((die s d).lost = false → (why ≠ .silentChannel ∨ ∃ e ∈ (die s d).silent, e.2 + 52429 ≤ s.time) →
      (rdb s fRetired 0 = true → exec (.stackLost d why) s = .next (modDie d (fun x => { x with lost := true }) s))
      ∧ (rdb s fRetired 0 = false → ∃ t : State, exec (.stackLost d why) s = .next t
        ∧ (die t d).lost = true ∧ rdb t fRetired 0 = true ∧ rd t fRetCause 0 = 1
        ∧ t.lands.ready = some false ∧ t.lands.faultN = some false ∧ t.job = none ∧ t.hold = none
        ∧ (s.job = none → ∀ c : CtxId, (ctxSt s c).live = true → (ctxSt s c).fault = none →
          (ctxSt t c).fault = some (0x32, d.val / 8 * 16 + d.val % 8)))))
  ∧ (∀ (s : State) (h : Half), let r := rideEnd s h
    (r.replays < 8 ∨ r.retry = [] ∨ (r.gotReplay = none ∧ s.time < r.ackSince + 512) → exec (.rideFailed h) s = .next s)
    ∧ (8 ≤ r.replays → r.retry ≠ [] → (r.gotReplay ≠ none ∨ r.ackSince + 512 ≤ s.time) → rdb s fRetired 0 = false →
      ∃ t : State, exec (.rideFailed h) s = .next t ∧ rdb t fRetired 0 = true ∧ rd t fRetCause 0 = 2
      ∧ t.lands.ready = some false ∧ t.lands.faultN = some false ∧ t.job = none ∧ t.hold = none))
  ∧ ∀ (s : State) (w : RegWr), w.part = .full → w.val.toNat.testBit 41 = true → rdb s fRetireAck 0 = false → ∃ t : State,
    exec (.retireAck w) s = .next t ∧ rdb t fRetireAck 0 = false ∧ rdb t fRetired 0 = rdb s fRetired 0
    ∧ (rdb s fRetired 0 = false → t.flash = s.flash)
    ∧ (rdb s fRetired 0 = true → (proc s 0).restarting = true → t.histWait = s.histWait ++ [(8, 0xFFFF, [])])
    ∧ (rdb s fRetired 0 = true → (proc s 0).restarting = false → s.storesWf = true →
      (s.histPos % histSize % histSector ≠ 0 ∨ s.histPos < histSize) →
      histAt t (s.histPos % histSize) = histRec 8 0xFFFF s.histPos s.time [] ∧ t.histPos = s.histPos + 1)

/-- LANDING at a place of the store, of one to three whole images, with no integrity event waiting: the first image that
passes its check is stored there with its tag corrected (an ACC block in the form of the ACC), XFER_FAULT counts one where
an earlier copy failed, and a stack block leaves its die's poison list; no context faults. Three failing images count
DATA_FAULT, set EVENT, enter a stack block in a poison list that has room, and fault a live context DATA_CORRUPT with the
block's INDEX. A place that does not exist is refused as outside the store. PATROL_SCRUB reads the channel's next row and
moves on by one modulo 737,280; a block that passes changes no context. FAULT_CLEAR with cuts outstanding, no fault or
SCH restarting changes nothing; of a computation or data fault, SCH takes the events that wait, so a unit seen first is
observed from its event's time, and then clears the fault and advances GEN; STACK_LOST and HALF_LOST stay; PEER_LOST ends
the job with its memory held, any other code ends it with CONTEXT_FAULT and the code. HISTORY_HOURLY within an hour of the
last record changes nothing; later it writes the counters' record. It rests also on the model's choices and readings in
assumption log 12, 29, 44 and 46. -/
def Obligations.LandingsStoreCorrectOrFault : Prop :=
  (∀ (s : State) (h : Half) (kind : Fin 5) (index : Nat) (x : CtxId) (copies : List Bytes),
    (placeOfTerm h kind index = none → exec (.landing h kind index x copies) s = .fault .outsideStore)
    ∧ ∀ l, placeOfTerm h kind index = some (some l) → copies.length ≤ 3 → (∀ b ∈ copies, b.length = 2184) →
      (∀ pre post b tag rep, copies = pre ++ b :: post → (∀ p ∈ pre, ∃ f, landCheck (blkOfImage p) l.term = .failed f) →
        landCheck (blkOfImage b) l.term = .accepted tag rep → s.storesWf = true → (s.unitEvs = [] ∨ schUp s = false) →
        let k : Blk := { blkOfImage b with tag := BitVec.ofNat 64 tag }
        ∃ t : State, exec (.landing h kind index x copies) s = .next t
        ∧ (match l with | .acc .. => blkStored t l = accForm l k | _ => blkStored t l = k)
        ∧ rd t fXferFault 0 = (if pre = [] then rd s fXferFault 0 else min (rd s fXferFault 0 + 1) 65535)
        ∧ (∀ h' n, l = .stk h' n → poisoned t l = false) ∧ t.ctxs = s.ctxs)
      ∧ (copies.length = 3 → (∀ p ∈ copies, ∃ f, landCheck (blkOfImage p) l.term = .failed f) →
        (ctxSt s x).live = true → (ctxSt s x).fault = none → ∃ t : State, exec (.landing h kind index x copies) s = .next t
        ∧ (ctxSt t x).fault = some (0x15, l.index) ∧ rd t fDataFault 0 = min (rd s fDataFault 0 + 1) 65535
        ∧ rdb t fEvent 0 = true
        ∧ (∀ h' n, l = .stk h' n → (tget s.poison (dieOf h' n) []).length < 64 → poisoned t l = true)))
  ∧ (∀ (s s1 : State) (d : Die) (ch : Fin 32) (b : Blk), let row := tget (die s d).scrub ch 0
    let s0 := millAsks .read (dieHalf d) [blockAt d ch row]
      (modDie d (fun x => { x with scrub := tset x.scrub ch ((row + 1) % 737280) }) s)
    blkFetch 0 (.stk (dieHalf d) (blockAt d ch row)) s0 = (s1, .ok b) →
    exec (.patrolScrub d ch) s = .next s1 ∧ tget (die s1 d).scrub ch 0 = (row + 1) % 737280 ∧ s1.ctxs = s.ctxs
      ∧ (row < 737280 → dieOf (d.val / 8) (blockAt d ch row) = d ∧ chanOf (blockAt d ch row) = ch
        ∧ rowOf (blockAt d ch row) = row))
  ∧ (∀ (s : State) (x : CtxId),
    ((ctxSt s x).fault = none ∨ (ctxSt s x).cuts ≠ [] ∨ schUp s = false → exec (.faultClear x) s = .next s)
    ∧ ∀ code det, (ctxSt s x).fault = some (code, det) → (ctxSt s x).cuts = [] → schUp s = true →
      (code = 0x31 ∨ code = 0x32 → exec (.faultClear x) s = .next s)
      ∧ (code = 0x30 → exec (.faultClear x) s = .next (endJob stPeer 0 true s))
      ∧ (code ∉ [0x07, 0x08, 0x15, 0x30, 0x31, 0x32] → exec (.faultClear x) s = .next (endJob stCtxFault code false s))
      ∧ (code ∈ [0x07, 0x08, 0x15] → s.sctx ≠ some x →
        (let u := unitEvents (markStep (some code) s)
        exec (.faultClear x) s = .next (if (ctxSt u x).fault.isSome then clearCtx x u else u))
        ∧ (s.unitEvs = [] → ∃ t : State, exec (.faultClear x) s = .next t
          ∧ (ctxSt t x).fault = none ∧ rd t fGen x = (rd s fGen x + 1) % 4096 ∧ t.observed = s.observed)
        ∧ (∀ cls u at_, s.unitEvs = [(cls, some u, at_)] → 2 ≤ cls → u ∉ s.disagree → (∀ o ∈ s.observed, o.1 ≠ u) →
          ∃ t : State, exec (.faultClear x) s = .next t
          ∧ (ctxSt t x).fault = none ∧ rd t fGen x = (rd s fGen x + 1) % 4096 ∧ t.observed = s.observed ++ [(u, at_)])))
  ∧ ∀ (s : State),
    (s.time < s.histHour + 3600 * 800000000 → exec .historyHourly s = .next s)
    ∧ (s.histHour + 3600 * 800000000 ≤ s.time → (proc s 0).restarting = false → s.storesWf = true →
      (s.histPos % histSize % histSector ≠ 0 ∨ s.histPos < histSize) → ∃ t : State,
      exec .historyHourly s = .next t ∧ t.histHour = s.time
      ∧ histAt t (s.histPos % histSize) = histRec 9 0xFFFF s.histPos s.time
        (toLe 8 (regRead s .intCntA 0) ++ toLe 8 (regRead s .intCntB 0))
      ∧ t = { s with histHour := s.time, histPos := s.histPos + 1, flash := t.flash })

/-- OBSERVATION_END takes the integrity events that wait; then, of a unit under observation for more than 86,400 s, it
takes the unit out and sets OBSERVED; earlier, or of a unit not observed, nothing more changes. KAT_RUN by a running SCH
starts the test of a unit that is free and whose interval (10 s under observation, else 600 s) has passed, once.
KAT_RESULT of a passing unit ends the test at this time; a unit in disagreement then returns to service with its view
stale. A failing result on a device not retired counts KAT_FAIL and COMP_EVENT: a grove retires the device with cause 5,
a mill with 6, a core whose spare is used with 7, and a core whose grove's spare is unused, not promised and in service
is cut and, the cut settled, replaced, its slot left out and SPARES_USED one more; a cut that must wait leaves it to be
replaced. VIEW_COMPARE by a running SCH of equal views, of a stale view or of a unit already in disagreement changes
nothing; else DISAGREE counts, the unit leaves service with its test running, and its cores that run are cut. It rests
also on the model's choices and readings in assumption log 44 and 45. -/
def Obligations.UnitsAreObservedTestedAndReplaced : Prop :=
  (∀ (s0 : State) (u : HwUnit), let s := unitEvents s0
    ((∀ o ∈ s.observed, o.1 ≠ u) → exec (.observationEnd u) s0 = .next s)
    ∧ ∀ t0, s.observed.find? (fun o => o.1 == u) = some (u, t0) →
      (s.time ≤ t0 + 86400 * 800000000 → exec (.observationEnd u) s0 = .next s)
      ∧ (t0 + 86400 * 800000000 < s.time → ∃ t : State, exec (.observationEnd u) s0 = .next t
        ∧ t.observed = (s.observed.filter fun o => o.1 != u) ∧ rd t fObserved 0 = min t.observed.length 255))
  ∧ (∀ (s : State) (u : HwUnit), let due := katLastOf s u + (if ∃ o ∈ s.observed, o.1 = u then 10 else 600) * 800000000
    (schUp s = false ∨ u ∈ s.katOn ∨ katFree s u = false ∨ s.time < due → exec (.katRun u) s = .next s)
    ∧ (schUp s = true → u ∉ s.katOn → katFree s u = true → due ≤ s.time →
      exec (.katRun u) s = .next { s with katOn := s.katOn ++ [u] }))
  ∧ (∀ (s : State) (u : HwUnit) (pass : Bool),
    (u ∉ s.katOn → exec (.katResult u pass) s = .next s)
    ∧ (u ∈ s.katOn → u ∉ s.disagree → exec (.katResult u true) s = .next { s with
        katOn := s.katOn.erase u
        katLast := (s.katLast.filter fun e => e.1 != u) ++ [(u, s.time)] })
    ∧ (u ∈ s.katOn → u ∈ s.disagree → ∃ t : State, exec (.katResult u true) s = .next t ∧ t.stale = s.stale ++ [u]
      ∧ t.outOfSvc = s.outOfSvc.erase u ∧ t.disagree = s.disagree.erase u ∧ t.katOn = s.katOn.erase u)
    ∧ (u ∈ s.katOn → rdb s fRetired 0 = false → ∃ t : State, exec (.katResult u false) s = .next t
      ∧ rd t fKatFail 0 = min (rd s fKatFail 0 + 1) 65535 ∧ rd t fCompEvent 0 = min (rd s fCompEvent 0 + 1) 65535
      ∧ (∀ g, u = .grove g → rdb t fRetired 0 = true ∧ rd t fRetCause 0 = 5)
      ∧ (∀ d, u = .mill d → rdb t fRetired 0 = true ∧ rd t fRetCause 0 = 6)
      ∧ (∀ c : CoreId, u = .core c → lcOf s c ≠ none → c ∉ s.replacing → (grove s (coreGrove c)).slotOut ≠ 16 →
        rdb t fRetired 0 = true ∧ rd t fRetCause 0 = 7)
      ∧ (∀ c : CoreId, u = .core c → lcOf s c ≠ none → (grove s (coreGrove c)).slotOut = 16 →
        HwUnit.core (asCore (17 * coreGrove c + 16)) ∉ s.outOfSvc → (∀ k ∈ s.replacing, coreGrove k ≠ coreGrove c) →
        let s1 := modCore c forceCore s
        rdb t fRetired 0 = false
        ∧ ((core s1 c).run = none ∨ cutSettled s1 c = true →
          (grove t (coreGrove c)).slotOut.val = coreSlot c ∧ rd t fSparesUsed 0 = min (rd s fSparesUsed 0 + 1) 32)
        ∧ ((core s1 c).run ≠ none → cutSettled s1 c = false → (core t c).forced = true ∧ t.replacing = s.replacing ++ [c]
          ∧ (grove t (coreGrove c)).slotOut = 16))))
  ∧ ∀ (s : State) (u : HwUnit) (m d : UnitView),
    (schUp s = false ∨ m = d ∨ u ∈ s.stale ∨ u ∈ s.disagree → exec (.viewCompare u m d) s = .next s)
    ∧ (schUp s = true → m ≠ d → u ∉ s.stale → u ∉ s.disagree → ∃ t : State, exec (.viewCompare u m d) s = .next t
      ∧ rd t fDisagree 0 = min (rd s fDisagree 0 + 1) 65535
      ∧ t.outOfSvc = s.outOfSvc ++ [u] ∧ t.disagree = s.disagree ++ [u] ∧ u ∈ t.katOn
      ∧ (∀ c : Nat, c ∈ unitCores u → core t c = forceCore (core s c))
      ∧ (∀ c : Nat, c ∉ unitCores u → core t c = core s c))

/-- While SCH restarts, none of TRAIN_STEP_START, STATS_SNAPSHOT and STEP_DECISION changes anything. TRAIN_STEP_START with
the step before over: with STEPS run and the mirror complete the job ends with status OK; otherwise, on a package not
expelled and not repeating, STEP is one more, the phase is work, no mark stands, and SR_KEY of the context is
mast(TRAIN_KEY, STEP 2^16 + rank). STATS_SNAPSHOT with several ranks, phase 2 over and the mirror complete sends the
step's record and zeroes statistic set 0 of all 16 dies; before that it changes nothing. STEP_DECISION with every rank's
record held: a marked record within the re-execution limit sets the step to run again with the marked ranks noted, past
it the job ends with CONTEXT_FAULT; with no mark the step is decided: non-finite elements skip it with decision 2, an
infinite sum or an absurd norm with 3, a norm above the clip with 1, else 0, and STEP and the decision stand in the
status block. Records not held change nothing. Records that come again, marked, after the decision pass the shards of the
marked ranks to their buddies, or end the job where a buddy is gone. It rests also on the model's choices and readings in
assumption log 48, 49, 50, 52 and 103. -/
def Obligations.TrainingStepsBeginReportAndDecide : Prop :=
  (∀ (s : State) (l : List Bytes), schUp s = false → exec .trainStepStart s = .next s ∧ exec .statsSnapshot s = .next s
    ∧ ((∀ b ∈ l, b.length = 64) → exec (.stepDecision l) s = .next s))
  ∧ (∀ (s : State) (t : Train), schUp s = true → s.train = some t → stepOver s t = true →
    (jobSteps s ≠ 0 → jobSteps s ≤ t.begun → t.again = false → mirrorDone s t = true →
      exec .trainStepStart s = .next (endJob stOk 0 false s))
    ∧ ((jobSteps s = 0 ∨ t.begun < jobSteps s) → t.again = false → t.step + 1 < 2 ^ 48 → ownRank s ∉ t.expelled →
      ∃ (u : State) (v : Train), exec .trainStepStart s = .next u ∧ u.train = some v
        ∧ v.phase = .work ∧ v.step = t.step + 1 ∧ v.begun = t.begun + 1 ∧ v.marked = false ∧ v.runs = 0
        ∧ rd u fKey t.ctx = mast t.key ((t.step + 1) * 2 ^ 16 + ownRank s) % 2 ^ 64
        ∧ v.units = rankUnits s t (ownRank s) ∧ v.samples = v.units * fieldAt t.rcd 20 4
        ∧ u = { s with
          regs := u.regs, train := u.train, mem := u.mem, watches := u.watches, ride := u.ride, xfers := u.xfers }))
  ∧ (∀ (s : State) (t : Train), schUp s = true → s.train = some t → ranks s ≠ 1 →
    (t.phase ≠ .work ∨ t.todo ≠ [] ∨ ctxQuiet s t.ctx = false ∨ mirrorDone s t = false → exec .statsSnapshot s = .next s)
    ∧ (t.phase = .work → t.todo = [] → ctxQuiet s t.ctx = true → mirrorDone s t = true →
      ∃ (u : State) (v : Train), exec .statsSnapshot s = .next u ∧ u.train = some v ∧ v.phase = .stats
        ∧ fieldAt v.record 0 8 = t.step % 2 ^ 64 ∧ fieldAt v.record 8 2 = ownRank s % 2 ^ 16
        ∧ bit (fieldAt v.record 10 1) 0 = t.marked
        ∧ (∀ d : Die, (die s d).stats.length = 4 → (die u d).stats[0]? = some ⟨0, 0, 0⟩)
        ∧ u = { s with regs := u.regs, dies := u.dies, train := u.train, mem := u.mem, watches := u.watches
                       ride := u.ride, xfers := u.xfers }))
  ∧ ∀ (s : State) (t : Train) (l : List Bytes), schUp s = true → s.train = some t → (∀ b ∈ l, b.length = 64) →
    (recordsHeld s t l = false ∨ t.phase = .between ∨ t.phase = .work → exec (.stepDecision l) s = .next s)
    ∧ (t.phase = .stats → recordsHeld s t l = true → (∃ b ∈ l, bit (fieldAt b 10 1) 0 = true) →
      let lim := if planMech t.plan = 1 then fieldAt t.plan 137 1 else 1
      (lim < t.runs → exec (.stepDecision l) s =
        .next (endJob stCtxFault (if t.lastCode = 0 then 0x15 else t.lastCode) false s))
      ∧ (t.runs ≤ lim → ∃ (u : State) (v : Train), exec (.stepDecision l) s = .next u ∧ u.train = some v ∧ v.again = true
        ∧ v.step = t.step ∧ v.runs = t.runs + 1 ∧ v.phase = .between
        ∧ ∀ r, r ∈ v.marks ↔ ∃ b, l[r]? = some b ∧ bit (fieldAt b 10 1) 0 = true))
    ∧ (t.phase = .stats → recordsHeld s t l = true → (∀ b ∈ l, bit (fieldAt b 10 1) 0 = false) →
      let x := sumRecs l
      let d := normCheck t x
      exec (.stepDecision l) s = .next (decideStep t x s)
      ∧ (t.status.length = 2048 → fieldAt (statusAfter t x d).1 18 1 = d.code) ∧ (d.code = 2 ↔ 0 < x.nf)
      ∧ (x.nf = 0 → x.f = f64Inf false → d.code = 3)
      ∧ (d.code = 1 ∨ d.code = 0 → t.status.length = 2048 →
        fieldAt (statusAfter t x d).1 8 8 = (t.tstep + 1) % 2 ^ 64 ∧ fieldAt (statusAfter t x d).1 0 8 = t.step % 2 ^ 64)
      ∧ (d.code = 1 → f64Gt d.norm (f64OfF32 (fieldAt t.rcd 28 4)) = true))
    ∧ (t.phase = .update → recordsHeld s t l = true →
      let out := failedRanks s t l
      let all := t.expelled ++ out
      (∀ r, r ∈ out ↔ (∃ b, l[r]? = some b ∧ bit (fieldAt b 10 1) 0 = true) ∧ r ≠ ownRank s ∧ r ∉ t.expelled)
      ∧ (out = [] ∨ jobsDone t = false ∨ (ctxSt s t.ctx).fault ≠ none ∨ 1 < fieldAt t.status 18 1 →
        exec (.stepDecision l) s = .next s)
      ∧ (out ≠ [] → jobsDone t = true → (ctxSt s t.ctx).fault = none → fieldAt t.status 18 1 ≤ 1 →
        (t.mirrors = false ∨ (∃ e ∈ out, buddy (ranks s) e ∈ all) →
          exec (.stepDecision l) s = .next (endJob stCtxFault 0x15 false s))
        ∧ (t.mirrors = true → (∀ e ∈ out, buddy (ranks s) e ∉ all) → ∃ (u : State) (v : Train),
          exec (.stepDecision l) s = .next u ∧ u.train = some v ∧ v.expelled = all ∧ v.phase = .update ∧ v.step = t.step
          ∧ (∀ j ∈ v.jobs, j ∈ t.jobs ∨ fieldAt j.desc 0 1 = 3)
          ∧ ((∀ e ∈ out, buddy (ranks s) e ≠ ownRank s) → v.jobs = t.jobs))))

/-- MIRROR_WRITE with a mirror owed, the update jobs done and the context without a fault completes: when all the blocks
of the new state set land, one transfer opens for each of them and memory stays; when one of them is poisoned the
context faults and the mirror stays owed; once no transfer of them is outstanding it signals the buddy's COMMIT word and
no earlier. RB_ZERO once in a step, after phase 2 and with several ranks, completes by submitting ZERO jobs over exactly
the groups of each half that lie in no shard the package owns. DIGEST_VOTE of a step to vote on, its jobs done, submits
the scans; with every voting rank's digest held, this package's own among them, it expels the ranks that differ from the
digest of more than half; with no such digest, with both a rank and its buddy expelled, or with fewer than three ranks
left, the job ends with CONTEXT_FAULT and DETAIL 0x15. BUDDY_RESTART of a job that has started and begun no step, from
an update that survives here, completes: it sets the step and TSTEP given, keeps the rest of the record, zeroes RB and
rebuilds the own part of WCOPY; in any other state it changes nothing. While SCH restarts none of the four changes
anything. It rests also on the model's choices and readings in assumption log 49, 50 and 103. -/
def Obligations.TrainingMirrorsZeroesVotesAndRestarts : Prop :=
  (∀ (s : State) (ds : List (Nat × BitVec 128)) (tr step : Nat), schUp s = false → exec .mirrorWrite s = .next s
    ∧ exec .rbZero s = .next s ∧ exec (.digestVote ds) s = .next s ∧ exec (.buddyRestart tr step) s = .next s)
  ∧ (∀ (s : State) (t : Train), schUp s = true → s.train = some t → (ctxSt s t.ctx).fault = none →
    (t.mirror = 1 → jobsDone t = true →
      ((∀ x ∈ mirrorBlocks s t, let l := Loc.stk (halfOf x.1) x.2.1
        poisoned s l = false ∧ ∃ g r, landCheck (blkStored s l) l.term = .accepted g r) →
      ∃ (u : State) (v : Train), exec .mirrorWrite s = .next u ∧ u.train = some v ∧ v.mirror = 2
        ∧ v.mirrorOps.length = (mirrorBlocks s t).length ∧ u.mem = s.mem)
      ∧ ((∃ x ∈ mirrorBlocks s t, poisoned s (.stk (halfOf x.1) x.2.1) = true) →
      ∃ (u : State) (v : Train), exec .mirrorWrite s = .next u ∧ u.train = some v ∧ v.mirror = 1
        ∧ (ctxSt u t.ctx).fault ≠ none))
    ∧ (t.mirror = 2 → (∃ n ∈ t.mirrorOps, ∃ e ∈ s.txns, e.1 = n) → exec .mirrorWrite s = .next s)
    ∧ (t.mirror = 2 → (∀ n ∈ t.mirrorOps, ∀ e ∈ s.txns, e.1 ≠ n) → ∃ (u : State) (v : Train),
      exec .mirrorWrite s = .next u ∧ u.train = some v ∧ v.mirror = 3 ∧ v.mirrorOps = [s.nextTxn]))
  ∧ (∀ (s : State) (t : Train), schUp s = true → s.train = some t →
    (t.phase = .between ∨ t.zeroed = true ∨ ranks s = 1 ∨ t.todo ≠ [] ∨ ctxQuiet s t.ctx = false →
      exec .rbZero s = .next s)
    ∧ (t.phase ≠ .between → t.zeroed = false → ranks s ≠ 1 → t.todo = [] → ctxQuiet s t.ctx = true →
      (∃ (u : State) (v : Train), exec .rbZero s = .next u ∧ u.train = some v ∧ v.zeroed = true
        ∧ ∀ j ∈ v.jobs, j ∈ t.jobs ∨ fieldAt j.desc 0 1 = 5)
      ∧ ∀ h g, g < halfGroups t h →
        ((∃ x ∈ foreignSpans t (ranks s) (ownRank s) h, x.1 ≤ g ∧ g < x.1 + x.2) ↔
          ∀ o ∈ ownedRanks t (ranks s) (ownRank s), ¬((shardSpan t (ranks s) o.1 h).1 ≤ g
            ∧ g < (shardSpan t (ranks s) o.1 h).1 + (shardSpan t (ranks s) o.1 h).2))))
  ∧ (∀ (s : State) (t : Train) (ds : List (Nat × BitVec 128)), schUp s = true → s.train = some t → jobsDone t = true →
    (t.vote = 1 → ctxIdle s t.ctx = true → ∃ (u : State) (v : Train), exec (.digestVote ds) s = .next u
      ∧ u.train = some v ∧ v.vote = 2 ∧ (∀ j ∈ v.jobs, fieldAt j.desc 0 1 = 4) ∧ (ownRank s ∈ t.expelled → v.jobs = []))
    ∧ (t.vote = 2 →
    let voters := (List.range (ranks s)).filter fun e => !t.expelled.contains e
    let val (e : Nat) : Nat := match ds.find? (fun d => d.1 == e) with | some d => d.2.toNat | none => 0
    ((∃ e ∈ voters, ∀ d ∈ ds, d.1 ≠ e) → exec (.digestVote ds) s = .next s)
    ∧ ((∀ e ∈ voters, ∃ d ∈ ds, d.1 = e) →
    (ownRank s ∈ t.expelled ∨ (ownRank s ∈ voters ∧ val (ownRank s) = packageDigest t)) →
    ((∀ v, 2 * (voters.filter fun e => val e == v).length ≤ voters.length) →
      exec (.digestVote ds) s = .next (endJob stCtxFault 0x15 false s))
    ∧ ∀ v, voters.length < 2 * (voters.filter fun e => val e == v).length →
      let all := t.expelled ++ voters.filter fun e => val e != v
      let bad := (∃ e ∈ voters, val e ≠ v ∧ ∃ x ∈ all, x ≠ e ∧ buddy (ranks s) x = e) ∨ ranks s < all.length + 3
      (bad → exec (.digestVote ds) s = .next (endJob stCtxFault 0x15 false s))
      ∧ (¬bad → exec (.digestVote ds) s =
        .next (jobRecPut { s with train := some { t with expelled := all, vote := 0 } })))))
  ∧ ∀ (s : State) (t : Train) (j : Job) (tr step : Nat), schUp s = true → s.train = some t → s.job = some j →
    let lives := ∀ n, j.adopted = some n → tr ≤ n ∧ n ≤ tr + 1 ∧ step ≤ fieldAt t.status 0 8
    (¬lives ∨ j.started = false ∨ t.begun ≠ 0 ∨ t.phase ≠ .between → exec (.buddyRestart tr step) s = .next s)
    ∧ (lives → j.started = true → t.begun = 0 → t.phase = .between → ∃ (u : State) (v : Train),
      exec (.buddyRestart tr step) s = .next u ∧ u.train = some v ∧ v.step = step
      ∧ (t.status.length = 2048 → fieldAt v.status 0 8 = step % 2 ^ 64 ∧ fieldAt v.status 8 8 = tr % 2 ^ 64
        ∧ v.status.drop 16 = t.status.drop 16)
      ∧ rd u fKey t.ctx = mast t.key (step * 2 ^ 16 + ownRank s) % 2 ^ 64
      ∧ v.rcd = t.rcd ∧ v.plan = t.plan ∧ ∀ k ∈ v.jobs, k ∈ t.jobs ∨ fieldAt k.desc 0 1 = 5 ∨ fieldAt k.desc 0 1 = 3)

/-- DOORBELL_WRITE by a face that may ring page 0, of a count ahead of the ring's, sets that ring's DB_COUNT, and of a
query ring's page its count with the time; a count not ahead changes no count; a write that is not eight aligned bytes,
or by a face that may not ring, counts DB_STRAY; a page past 16, or an offset past the page, is refused as a write.
ADMISSION of an unguarded query chooses, among the candidates, a grove whose start is least, when start plus service time meets the deadline, and rejects with
status 1 otherwise; a guarded one gets a copy in each half and a third grove, the last finishing within the deadline and
49 ms of the doorbell. With the grove's next descriptor read through its translation unit and accepted on a grove,
ACCEPTED counts, the descriptor is consumed, and the query enters that grove's queue with its finish; a rejected one
counts REJECTED; a descriptor that could not be read is not consumed. QUERY_COMPLETE at a grove whose GST runs, of an
unguarded query whose result is out ends it, with status 0 in time and 8 late; a failed one ends with status 7; no entry
of it is left. DEADLINE_MISS before the deadline, or counted already, changes nothing; later it counts once and marks
the query; a guarded one ends by GUARD_ERROR. It rests also on the model's choices and readings in assumption log 62, 63
and 69. -/
def Obligations.AdmissionAcceptsWhatFitsItsDeadline : Prop :=
  (∀ (s : State) (face : Face) (qpn page off : Nat) (b : Bytes), faceUp face qpn s = true →
    (16 < page ∨ 4096 ≤ off → exec (.doorbellWrite face qpn page off b) s = .next (refuseIn true face qpn s))
    ∧ (page ≤ 16 → off < 4096 → b.length ≠ 8 ∨ off % 8 ≠ 0 ∨ mayRing s face qpn page = false →
      exec (.doorbellWrite face qpn page off b) s = .next (ackFace face qpn (bump fDbStray 0 1 s)))
    ∧ (∀ n : Fin 4, page = 0 → off = 8 * n.val → b.length = 8 → fieldAt b 0 8 < 2 ^ 32 → mayRing s face qpn 0 = true →
      (serialBelow (rd s fDbCount n) (fieldAt b 0 8) = false →
        exec (.doorbellWrite face qpn page off b) s = .next (ackFace face qpn s))
      ∧ (serialBelow (rd s fDbCount n) (fieldAt b 0 8) = true → ∃ t : State,
        exec (.doorbellWrite face qpn page off b) s = .next t ∧ rd t fDbCount n = fieldAt b 0 8
        ∧ t = { s with regs := t.regs, ringSeen := t.ringSeen, replies := t.replies }))
    ∧ (∀ n v, page = n + 1 → page ≤ 16 → off = 0 → b.length = 8 → fieldAt b 0 8 < 2 ^ 32 → mayRing s face qpn page = true →
      s.serve = some v → serialBelow (qring v n).count (fieldAt b 0 8) = true → ∃ (t : State) (w : Serve),
        exec (.doorbellWrite face qpn page off b) s = .next t ∧ t.serve = some w
        ∧ (qring w n).count = fieldAt b 0 8 ∧ (qring w n).marks = (qring v n).marks ++ [(fieldAt b 0 8, s.time * 1250)]))
  ∧ (∀ now svc dl tdb cmp av c busy half,
    (∀ g fin, admitWith now svc dl tdb cmp false av c busy half = .one g fin →
      g ∈ c ∧ fin = max now (busy g) + svc ∧ fin ≤ dl ∧ ∀ x ∈ c, max now (busy g) ≤ max now (busy x))
    ∧ (c ≠ [] → (∀ g ∈ c, dl < max now (busy g) + svc) → admitWith now svc dl tdb cmp false av c busy half = .reject 1)
    ∧ (∀ x y z fx fy fz, admitWith now svc dl tdb cmp true av c busy half = .three x y z fx fy fz →
      x ∈ c ∧ x / 16 = half ∧ y ∈ c ∧ y / 16 ≠ half ∧ z ∈ c ∧ z ≠ x ∧ z ≠ y
        ∧ fz = max (max fx fy + cmp) (busy z) + svc + cmp ∧ fz ≤ dl ∧ fz ≤ tdb + 49000000))
  ∧ (∀ (s s0 : State) (g : Grove) (v : Serve) (ring tdb : Nat) (d : Bytes), s.serve = some v → rdb s fSvCtlEn 0 = true →
    gstUp s g = true → nextRing v g = some (ring, tdb) →
    let r := svRing v ring
    let n := (qring v ring).expected
    (ringRead g (r.va + 64 * (n % max r.entries 1)) s = (s0, none) → exec (.admission g) s = .next s0)
    ∧ (ringRead g (r.va + 64 * (n % max r.entries 1)) s = (s0, some d) →
    (∀ h fin, admitDecide s v r n tdb d = .one h fin → ∃ (t : State) (w : Serve) (q : Query),
      exec (.admission g) s = .next t ∧ t.serve = some w ∧ queriesOf w h = queriesOf v h ++ [q]
      ∧ q.ring = ring ∧ q.n = n ∧ q.desc = d ∧ q.fin = fin ∧ q.role = 0 ∧ q.dl = tdb + 1000 * fieldAt d 12 4
      ∧ q.epoch = rd s fEpochPub 0 ∧ (qring w ring).expected = (n + 1) % 2 ^ 32
      ∧ rd t fAccepted 0 = min (rd s fAccepted 0 + 1) (2 ^ 32 - 1))
    ∧ (∀ st, admitDecide s v r n tdb d = .reject st → ∃ (t : State) (w : Serve), exec (.admission g) s = .next t
      ∧ t.serve = some w ∧ w.queries = v.queries ∧ (qring w ring).expected = (n + 1) % 2 ^ 32
      ∧ (qring w ring).cpls = (qring v ring).cpls + 1
      ∧ rd t fRejected 0 = min (rd s fRejected 0 + 1) (2 ^ 32 - 1))))
  ∧ ∀ (s : State) (g : Grove) (k : Nat) (v : Serve) (q : Query), gstUp s g = true → s.serve = some v →
    (queriesOf v g)[k]? = some q →
    let late := decide (q.dl / 1250 < s.time)
    (q.role = 0 → queryFailed s g q = true → late = false →
      exec (.queryComplete g k) s = .next (endQuery q 7 0 (dropInv g q.inv s)))
    ∧ (q.role = 0 → queryFailed s g q = false → queryOut s g q = false → late = false → exec (.queryComplete g k) s = .next s)
    ∧ (q.role = 0 → queryFailed s g q = false → queryOut s g q = true → ∃ (t : State) (w : Serve),
      exec (.queryComplete g k) s = .next t ∧ t.serve = some w
      ∧ (late = false → t = endQuery q 0 (runnerOf g) s) ∧ (late = true → q.missed = true → t = endQuery q 8 (runnerOf g) s)
      ∧ (∀ h, ∀ p ∈ queriesOf w h, ¬(p.ring = q.ring ∧ p.n = q.n)))
    ∧ (q.missed = true ∨ late = false → exec (.deadlineMiss g k) s = .next s)
    ∧ (q.missed = false → late = true → q.role ≠ 0 →
      exec (.deadlineMiss g k) s = .next (guardError q 2 (countMiss g q s)))
    ∧ (q.missed = false → late = true → q.role = 0 → ∃ (t : State) (w : Serve), exec (.deadlineMiss g k) s = .next t
      ∧ rd t fDeadlineMiss 0 = min (rd s fDeadlineMiss 0 + 1) (2 ^ 32 - 1)
      ∧ t.serve = some w ∧ (queriesOf w g)[k]? = some { q with missed := true })

/-- GUARD_COMPARE of copies A and B both over, in time: agreeing copies forward A with outcome 1; otherwise
GUARD_MISMATCH counts and copy C runs; past the deadline the query ends by GUARD_ERROR with cause 2.
GUARD_MAJORITY_COMPARE with C over and in time forwards a copy that agrees with another, with outcome 2, and ends by
GUARD_ERROR with cause 1 where no two agree. GUARD_ERROR sets GUARD_FAULT with its cause and counts GUARD_ERRORS.
EPOCH_PUBLISH while a publication runs, or a query bound to the epoch before the published one is held, or SCH restarts, changes nothing;
else epoch E + 1 is being published by one invocation on each logical core outside the glade, and EPOCH_PUB is as
before. EPOCH_ORDER with none of them left sets EPOCH_PUB to it, and with all that are left still held changes nothing. SV_CTL_WRITE by SCH of settings that break their rules
leaves EN 0 and of legal ones EN as written; SV_TIME_WRITE keeps SV_CUT when below 2,000. QP_RETRY_TIMEOUT sends the
oldest operation again within the retry count, else the queue pair is in error; on a query ring's queue pair the limit
is 4.096 us times 4 and the count 2. It rests also on the model's choices and
readings in assumption log 63, 64 and 66. -/
def Obligations.GuardedQueriesEpochsAndServingRegisters : Prop :=
  (∀ (s : State) (g : Grove) (k : Nat) (q : Query) (b c : Nat × Query), queryAt s g k = some q → q.role = 1 →
    copyOfRole s q 2 = some b → copyOfRole s q 3 = some c → c.2.stage = .held →
    copyOver s (g.val, q) = true → copyOver s b = true →
    (pastDeadline s q = true → exec (.guardCompare g k) s =
      .next (guardError q 2 (if q.missed then s else countMiss g q s)))
    ∧ (pastDeadline s q = false → copiesAgree s (g.val, q) b = true →
      exec (.guardCompare g k) s = .next (forwardCopy (g.val, q) 1 s))
    ∧ (pastDeadline s q = false → copiesAgree s (g.val, q) b = false → ∃ t : State, exec (.guardCompare g k) s = .next t
      ∧ rd t fGuardMismatch 0 = min (rd s fGuardMismatch 0 + 1) (2 ^ 32 - 1)
      ∧ (∃ w, t.serve = some w ∧ ∀ p ∈ queriesOf w c.1, p.ring = q.ring → p.n = q.n → p.stage = .running (groveLcs c.1))))
  ∧ (∀ (s : State) (g : Grove) (k : Nat) (q : Query) (a b : Nat × Query), queryAt s g k = some q → q.role = 3 →
    copyOfRole s q 1 = some a → copyOfRole s q 2 = some b → q.stage ≠ .held → copyOver s (g.val, q) = true →
    pastDeadline s q = false →
    (copiesAgree s a b = true ∨ copiesAgree s a (g.val, q) = true →
      exec (.guardMajorityCompare g k) s = .next (forwardCopy a 2 s))
    ∧ (copiesAgree s a b = false → copiesAgree s a (g.val, q) = false → copiesAgree s b (g.val, q) = true →
      exec (.guardMajorityCompare g k) s = .next (forwardCopy b 2 s))
    ∧ (copiesAgree s a b = false → copiesAgree s a (g.val, q) = false → copiesAgree s b (g.val, q) = false →
      exec (.guardMajorityCompare g k) s = .next (guardError q 1 s)))
  ∧ (∀ (q : Query) (cause : Nat) (s : State), cause < 256 → rdb (guardError q cause s) fGuardFault 0 = true
    ∧ rd (guardError q cause s) fGfStatCause 0 = cause
    ∧ rd (guardError q cause s) fGuardErrors 0 = min (rd s fGuardErrors 0 + 1) (2 ^ 32 - 1))
  ∧ (∀ (s : State) (v : Serve), s.serve = some v → let e := rd s fEpochPub 0
    (v.pub ≠ 0 ∨ schUp s = false ∨ (∃ x ∈ v.queries, ∃ q ∈ x.2, q.epoch + 1 = e) → exec .epochPublish s = .next s)
    ∧ (schUp s = true → v.pub = 0 → (∀ x ∈ v.queries, ∀ q ∈ x.2, q.epoch + 1 ≠ e) → ∃ (t : State) (w : Serve),
      exec .epochPublish s = .next t ∧ t.serve = some w ∧ w.pub = e + 1
      ∧ w.pubLeft.map (·.1) = (List.range 512).filter (fun lc => !bit (rd s fGlade0 0 + 2 ^ 16 * rd s fGlade1 0) (lc / 16))
      ∧ rd t fEpochPub 0 = e)
    ∧ (schUp s = false ∨ v.pub = 0 → exec .epochOrder s = .next s)
    ∧ (v.pub ≠ 0 → (∃ p ∈ v.pubLeft, invRejected s [p.1] p.2 = false) → (∀ p ∈ v.pubLeft, holdsPub s (pubCtx s) p = true) →
      exec .epochOrder s = .next s)
    ∧ (schUp s = true → v.pub ≠ 0 → v.pub < 2 ^ 32 → (∀ p ∈ v.pubLeft, invRejected s [p.1] p.2 = true) → ∃ (t : State) (w : Serve),
      exec .epochOrder s = .next t ∧ t.serve = some w ∧ w = { v with pub := 0, pubLeft := [] } ∧ rd t fEpochPub 0 = v.pub
      ∧ t = { s with regs := t.regs, serve := t.serve }))
  ∧ (∀ (s : State) (w : RegWr), w.path = .sch → w.part = .full → let v := w.val.toNat
    (svRules s (bit v 1) (bits v 2 6) (bits v 16 16) (bits v 32 16) = true → ∃ t : State, exec (.svCtlWrite w) s = .next t
      ∧ rdb t fSvCtlEn 0 = bit v 0 ∧ rdb t fShared 0 = bit v 1 ∧ rd t fSvK 0 = bits v 2 6 ∧ rd t fGlade0 0 = bits v 16 16
      ∧ rd t fGlade1 0 = bits v 32 16 ∧ t = { s with regs := t.regs })
    ∧ (svRules s (bit v 1) (bits v 2 6) (bits v 16 16) (bits v 32 16) = false → ∃ t : State,
      exec (.svCtlWrite w) s = .next t ∧ rdb t fSvCtlEn 0 = false ∧ t = { s with regs := t.regs })
    ∧ ∃ t : State, exec (.svTimeWrite w) s = .next t ∧ rd t fSvCmp 0 = bits v 16 16
      ∧ rd t fSvCut 0 = (if bits v 0 16 < 2000 then rd s fSvCut 0 else bits v 0 16) ∧ t = { s with regs := t.regs })
  ∧ ∀ (s : State) (p : CPort) (qpn : Nat) (o : RdmaOp), oldestOp s p qpn = some o →
    (qpRings s p qpn ≠ [] → ackTimeout s p qpn = 13108 ∧ retryCount s p qpn = 2)
    ∧ ((qpOf s p qpn).err = true ∨ s.time < o.sentAt + ackTimeout s p qpn →
      exec (.qpRetryTimeout p qpn) s = .next s)
    ∧ ((qpOf s p qpn).err = false → o.sentAt + ackTimeout s p qpn ≤ s.time →
      (o.sends ≤ retryCount s p qpn → ∃ t : State, exec (.qpRetryTimeout p qpn) s = .next t
        ∧ t.rdmaOut = (if linkUp s p = true then s.rdmaOut ++ [{ o with sends := o.sends + 1, sentAt := s.time }] else s.rdmaOut)
        ∧ t = { s with rdma := t.rdma, rdmaOut := t.rdmaOut })
      ∧ (retryCount s p qpn < o.sends → ∃ t : State, exec (.qpRetryTimeout p qpn) s = .next t
        ∧ (qpOf t p qpn).err = true ∧ ∀ x ∈ t.rdma, ¬(x.port = p ∧ x.qpn = qpn)))

/-- TP_ENABLE by SCH that raises EN, and TP_RETRAIN of an enabled DARK or DOWN port, put the port in TRAIN with no lane
bad, no width and RETRAIN 0; lowering EN makes it DARK; on a port of a dimension known to have size 1 EN takes its value
and the port stays as it is. TORUS_TRAIN_DONE in TRAIN with a healthy lane group enters CHECK
at 1, 2 or 4 of the lowest healthy groups and sends one identity flit. LANE_BAD_VERDICT on a live port marks the lane,
adds 4 to UNCORR for uncorrectable codewords, and, of a group in use on an UP port, starts a RESIZE timed from now while
a group is healthy, else takes the port DOWN. TORUS_RESIZE_DONE within 32,000 KCLK cycles returns to UP at the widest
width that the healthy groups allow, never wider than before, counting RESIZES when narrower, and with no healthy group
goes DOWN. At their limits TORUS_RESIZE_TIMEOUT, TORUS_TRAIN_TIMEOUT (400,000,000 cycles) and TORUS_LINK_TIMEOUT (1,600 without a good flit) take
the port DOWN with no width; before them, or in another state, they change nothing. It rests also on the model's choices
and readings in assumption log 55, 56 and 57. -/
def Obligations.TorusPortsTrainResizeAndFail : Prop :=
  (∀ (s : State) (p : TPort) (w : RegWr) (i : Instr), i = .tpEnable p w ∨ i = .tpRetrain p w → w.path = .sch → w.part = .full →
    let en := bit w.val.toNat 0
    (aloneOn s p = true → ∃ t : State, exec i s = .next t ∧ rdb t fTpCtlEn p = en ∧ rdb t fRetrain p = false
        ∧ portState t p = portState s p ∧ t = { s with regs := t.regs })
    ∧ (aloneOn s p = false → (rdb s fTpCtlEn p = false ∧ en = true) ∨ (rdb s fTpCtlEn p = true ∧ en = true ∧ bit w.val.toNat 3 = true
        ∧ (portState s p = 0 ∨ portState s p = 5)) →
      ∃ t : State, exec i s = .next t ∧ portState t p = 1 ∧ rd t fWidth p = 0 ∧ rd t fGroups p = 0 ∧ rd t fLaneBad p = 0
        ∧ rdb t fRetrain p = false ∧ rdb t fTpCtlEn p = true ∧ tport t p = { TorusPort.reset with since := s.time }
        ∧ (∀ q : TPort, q ≠ p → tport t q = tport s q ∧ regRead t .tpStat q = regRead s .tpStat q)
        ∧ t = { s with regs := t.regs, ports := t.ports })
    ∧ (aloneOn s p = false → rdb s fTpCtlEn p = true → en = false → ∃ t : State, exec i s = .next t ∧ portState t p = 0 ∧ rd t fWidth p = 0
        ∧ tport t p = TorusPort.reset ∧ t = { s with regs := t.regs, ports := t.ports }))
  ∧ (∀ (s : State) (p : TPort),
    (portState s p ≠ 1 ∨ healthyGroups s p = [] → exec (.torusTrainDone p) s = .next s)
    ∧ (portState s p = 1 → healthyGroups s p ≠ [] → ∃ t : State, exec (.torusTrainDone p) s = .next t ∧ portState t p = 2
      ∧ rd t fWidth p = widthFor (healthyGroups s p).length
      ∧ rd t fGroups p = groupMask ((healthyGroups s p).take (widthGroups (widthFor (healthyGroups s p).length)))
      ∧ (tport t p).wire.length = (tport s p).wire.length + 1))
  ∧ (∀ (s : State) (p : TPort) (lane : Fin 16) (why : LaneFault),
    (portLive s p = false → exec (.laneBadVerdict p lane why) s = .next s)
    ∧ (portLive s p = true → ∃ t : State, exec (.laneBadVerdict p lane why) s = .next t
      ∧ bit (rd t fLaneBad p) lane = true
      ∧ rd t fUncorr p = (if why = .uncorrectable then min (rd s fUncorr p + 4) 65535 else rd s fUncorr p)
      ∧ (bit (rd s fGroups p) (lane / 4) = false → portState t p = portState s p)
      ∧ (portState s p = 3 → bit (rd s fGroups p) (lane / 4) = true →
        ((∃ n < 4, n ≠ lane.val / 4 ∧ groupHealthy s p n = true) → portState t p = 4 ∧ (tport t p).since = s.time)
        ∧ ((∀ n < 4, n ≠ lane.val / 4 → groupHealthy s p n = false) → portState t p = 5 ∧ rd t fWidth p = 0))))
  ∧ (∀ (s : State) (p : TPort),
    (portState s p ≠ 4 ∨ (tport s p).since + 32000 < s.time → exec (.torusResizeDone p) s = .next s)
    ∧ (portState s p = 4 → s.time ≤ (tport s p).since + 32000 → let w := min (widthFor (healthyGroups s p).length) (rd s fWidth p)
      ∃ t : State, exec (.torusResizeDone p) s = .next t ∧ rd t fWidth p = w ∧ portState t p = (if w = 0 then 5 else 3)
      ∧ (w ≠ 0 → rd t fGroups p = groupMask ((healthyGroups s p).take (widthGroups w))
        ∧ rd t fResizes p = (if w = rd s fWidth p then rd s fResizes p else min (rd s fResizes p + 1) 255))))
  ∧ ∀ (s : State) (p : TPort) (i : Instr) (st lim since : Nat),
    (i = .torusResizeTimeout p ∧ st = 4 ∧ lim = 32000 ∧ since = (tport s p).since)
      ∨ (i = .torusTrainTimeout p ∧ st = 1 ∧ lim = 400000000 ∧ since = (tport s p).since)
      ∨ (i = .torusLinkTimeout p ∧ st = 3 ∧ lim = 1600 ∧ since = (tport s p).goodSince) →
    (portState s p ≠ st ∨ s.time < since + lim → exec i s = .next s)
    ∧ (portState s p = st → since + lim ≤ s.time → ∃ t : State, exec i s = .next t
      ∧ portState t p = 5 ∧ rd t fWidth p = 0 ∧ rd t fGroups p = 0)

/-- TORUS_FLIT_RECEIVE of 256 bytes on an UP port: a flit whose CRC fails delivers nothing, and the receiver discards
from then on; a data flit of a valid type with the next SEQ becomes the last good one and ends discarding; one ahead of
it delivers nothing and starts discarding, and one already taken delivers nothing; on a port not UP nothing changes. A
whole one-flit transfer of a reserved KIND is discarded and counted in UNCORR. TORUS_REPLAY by timeout, once the oldest
flit has waited 2,098 KCLK cycles, counts REPLAYS and puts every flit of the retry buffer on the fibre again, keeping
it; earlier, with nothing to resend, or after eight replays of the flit, it changes nothing; on a replay request the
flits it acknowledges go and the rest are sent again. TORUS_REPLAY_FAIL once the eighth replay has failed too takes the
port DOWN at width x4 or with no group named, else marks the groups; before that it changes nothing. TORUS_IDENTITY in
CHECK of a good flit with the job's tag, the coordinates of the neighbour at plus or minus one in the port's dimension and
the opposite port brings the port UP; a wrong one ends an unstarted job with TORUS_MISWIRE. It rests also on the model's
choices and readings in assumption log 54, 55, 57 and 95. -/
def Obligations.TorusFlitsAreTakenInOrderOnce : Prop :=
  (∀ (s : State) (p : TPort) (b : Bytes), b.length = 256 → let hd := leNat (b.take 4)
    let r := tport s p
    let typ := bits hd 24 4
    let gap := (BitVec.ofNat 12 (bits hd 0 12) - (r.lastGood + 1)).toNat
    (portState s p ≠ 3 → exec (.torusFlitReceive p b) s = .next s)
    ∧ (portState s p = 3 → flitGood b = false → ∃ t : State, exec (.torusFlitReceive p b) s = .next t ∧ t.arrived = s.arrived
      ∧ (tport t p).lastGood = r.lastGood ∧ (tport t p).discarding = true ∧ (tport t p).rx = r.rx
      ∧ t = { s with ports := t.ports })
    ∧ (portState s p = 3 → flitGood b = true → typ ∈ [1, 2, 3, 5] → bits hd 28 4 < 6 → ∃ t : State,
      exec (.torusFlitReceive p b) s = .next t
      ∧ (gap = 0 → (tport t p).lastGood = BitVec.ofNat 12 (bits hd 0 12) ∧ (tport t p).discarding = false
        ∧ (tport t p).goodSince = s.time)
      ∧ (0 < gap → t.arrived = s.arrived ∧ (tport t p).lastGood = r.lastGood ∧ (tport t p).rx = r.rx)
      ∧ (0 < gap → gap < 2048 → (tport t p).discarding = true)
      ∧ (gap = 0 → typ = 5 → tget r.rx (bits hd 28 4) [] = [] →
        arrOf p (bits hd 28 4) (slice b 4 248) = none → t.arrived = s.arrived
          ∧ rd t fUncorr p = min (rd s fUncorr p + 1) 65535)
      ∧ (∀ a, gap = 0 → typ = 5 → tget r.rx (bits hd 28 4) [] = [] → s.peerLost = false → a.kind ≠ kFloor →
        arrOf p (bits hd 28 4) (slice b 4 248) = some a → t.arrived = s.arrived ++ [a])))
  ∧ (∀ (s : State) (p : TPort), let r := tport s p
    (portState s p ≠ 3 ∨ r.retry = [] ∨ s.time < r.ackSince + 2098 ∨ 8 ≤ r.replays →
      exec (.torusReplay p true) s = .next s)
    ∧ (portState s p = 3 → r.retry ≠ [] → r.ackSince + 2098 ≤ s.time → r.replays < 8 → ∃ t : State, exec (.torusReplay p true) s = .next t
      ∧ rd t fReplays p = min (rd s fReplays p + 1) (2 ^ 32 - 1) ∧ (tport t p).replays = r.replays + 1
      ∧ (tport t p).retry = r.retry ∧ (tport t p).wire.length = r.wire.length + r.retry.length
      ∧ (tport t p).nextSeq = r.nextSeq ∧ t = { s with regs := t.regs, ports := t.ports })
    ∧ (r.gotReplay = none → exec (.torusReplay p false) s = .next s)
    ∧ (∀ a pre e post, portState s p = 3 → r.gotReplay = some a → r.retry = pre ++ e :: post → e.1 = a →
      (∀ x ∈ pre, x.1 ≠ a) → post ≠ [] → ∃ t : State, exec (.torusReplay p false) s = .next t ∧ (tport t p).retry = post
      ∧ (tport t p).gotReplay = none ∧ (tport t p).replays = 1 ∧ (tport t p).wire.length = r.wire.length + post.length
      ∧ rd t fReplays p = min (rd s fReplays p + 1) (2 ^ 32 - 1)))
  ∧ (∀ (s : State) (p : TPort) (g : BitVec 4), let r := tport s p
    (portState s p ≠ 3 ∨ r.replays < 8 ∨ r.retry = [] ∨ (r.gotReplay = none ∧ s.time < r.ackSince + 2098) →
      exec (.torusReplayFail p g) s = .next s)
    ∧ (portState s p = 3 → 8 ≤ r.replays → r.retry ≠ [] → (r.gotReplay ≠ none ∨ r.ackSince + 2098 ≤ s.time) → ∃ t : State, exec (.torusReplayFail p g) s = .next t
      ∧ (g = 0 ∨ rd s fWidth p = 1 → portState t p = 5)
      ∧ (g ≠ 0 → rd s fWidth p ≠ 1 → (∃ n < 4, groupHealthy s p n = true ∧ g.getLsbD n = false) →
        portState t p = 4 ∧ (tport t p).badGroups = r.badGroups ||| g ∧ (tport t p).since = s.time)))
  ∧ ∀ (s : State) (p : TPort) (b : Bytes), b.length = 256 → let pay := slice b 4 248
    (portState s p ≠ 2 ∨ flitGood b = false ∨ bits (leNat (b.take 4)) 24 4 ≠ 6 → exec (.torusIdentity p b) s = .next s)
    ∧ (portState s p = 2 → flitGood b = true → bits (leNat (b.take 4)) 24 4 = 6 →
      let nbr := fieldAt pay 2 1 % 16 + 16 * (fieldAt pay 3 1 % 16) + 256 * (fieldAt pay 4 1 % 32)
      (fieldAt pay 0 2 = jobTag s → fieldAt pay 5 1 = (if p.val % 2 = 0 then p.val + 1 else p.val - 1) →
        ((fieldAt pay 2 1, fieldAt pay 3 1, fieldAt pay 4 1) = neighbour s p
          ∨ (fieldAt pay 2 1, fieldAt pay 3 1, fieldAt pay 4 1) = neighbour s (if p.val % 2 = 0 then p.val + 1 else p.val - 1)) →
        (∀ j, s.job = some j → j.started = true) →
        ∃ t : State, exec (.torusIdentity p b) s = .next t ∧ portState t p = 3 ∧ rd t fNbr p = nbr ∧ t.arrived = s.arrived)
      ∧ (∀ j, identOk s p pay = false → s.job = some j → j.started = false →
        exec (.torusIdentity p b) s = .next (endJob stMiswire 0 false (portDown p (wr fNbr p nbr s)))))

/-- TRANSFER_FORWARD of a transfer passing through, in its turn, frees its buffer and sends the same bytes on the output
of the lowest differing dimension, the shorter way. TRANSFER_REQUEST in its turn: of another job it is answered with
OPERAND_REGION and no memory changes; a stale EPOCHED one counts STALE_DROP, and no memory changes; one resolved to a
place of the port's half is applied, and a WRITE of a good block stores it there. TRANSFER_ACK and READ_RSP that match
no transaction only free their buffer; an ACK of status 0 ends a WRITE of a core of the port's half, and one of the other
half once it has crossed the ride; data of a READ_RSP for a place of the port's half land there and end the read, and the
answer of a read that a cut has abandoned is discarded. ABORT_RECEIVE of the job faults every live context of it PEER_LOST, with the lowest
port on which an ABORT waits as DETAIL, and sets PEER_LOST with cause 2. HOLD_EXPIRE after HOLD_S seconds, with SCH
running, leaves no held memory: the held stack blocks read zero; earlier it changes nothing. It rests also on the
model's choices and readings in assumption log 57, 58, 59, 60 and 97. -/
def Obligations.TorusTransfersAreAnsweredOnce : Prop :=
  (∀ (s : State) (k : Nat) (a : Arr) (out : Nat), arrTurn s k false = some a → route s a.tgt = some out →
    exec (.transferForward k) s = .next (outputXfer (portHalf a.port) out (vlFor s (a.vl / 2) (some (a.port.val, a.vl)) out)
      a.bytes (freeCredits a.port a.vl a.flits { s with arrived := s.arrived.eraseIdx k }))
    ∧ (let own := ownCoord s
      let way (d : Nat) (o t : Nat) : Nat := if (t + d - o) % d ≤ d - (t + d - o) % d then 0 else 1
      if own.1 ≠ a.tgt.1 then out = way (dims s).1 own.1 a.tgt.1
      else if own.2.1 ≠ a.tgt.2.1 then out = 2 + way (dims s).2.1 own.2.1 a.tgt.2.1
      else own.2.2 ≠ a.tgt.2.2 ∧ out = 4 + way (dims s).2.2 own.2.2 a.tgt.2.2))
  ∧ (∀ (s : State) (k : Nat) (a : Arr), arrTurn s k true = some a → isRequest a.kind = true →
    (ofJob s a = false → ∃ t : State, exec (.transferRequest k) s = .next t
      ∧ t = answer (portHalf a.port) a 4 false 0x04 0 (arrDone k a s) ∧ t.mem = s.mem)
    ∧ (ofJob s a = true → staleReq s a = true → ∃ t : State, exec (.transferRequest k) s = .next t ∧ t.mem = s.mem
      ∧ rd t fStaleDrop 0 = min (rd s fStaleDrop 0 + 1) 65535)
    ∧ (∀ s1 l off, ofJob s a = true → staleReq s a = false → reqResolve a s = (s1, .here l off) →
      l.half = portHalf a.port →
      exec (.transferRequest k) s = .next (reqApply a l off (arrDone k a s1))
      ∧ (∀ b tag rep, a.kind = kWrite → a.blk = some b → landCheck b 0 = .accepted tag rep → b.pay.length = 2048 →
        b.side.length = 128 → s1.storesWf = true →
        (blkStored (reqApply a l off (arrDone k a s1)) l).pay = b.pay
          ∧ (blkStored (reqApply a l off (arrDone k a s1)) l).side = (match l with | .acc .. => zeros 128 | _ => b.side))))
  ∧ (∀ (s : State) (k : Nat) (a : Arr), arrTurn s k true = some a → ofJob s a = true →
    (a.kind = kAck ∨ a.kind = kReadRsp → txnOf s a.txn = none →
      exec (.transferAck k) s = .next (if a.kind = kAck then arrDone k a s else s)
      ∧ exec (.readRsp k) s = .next (if a.kind = kReadRsp then arrDone k a s else s))
    ∧ (∀ t, a.kind = kAck → txnOf (arrDone k a s) a.txn = some t → t.sent = true → t.kind = kWrite → a.arg 40 1 = 0 →
      a.arg 41 1 = 0 →
      ((coreHalf t.core = portHalf a.port ∨ (∃ id, a.ride = some id ∧ id ∈ s.rideDone)) →
        exec (.transferAck k) s = .next (txnEnd a.txn t (arrDone k a s)))
      ∧ (coreHalf t.core ≠ portHalf a.port →
        (∀ id, a.ride = some id → id ∉ s.rideDone → exec (.transferAck k) s = .next s)
        ∧ (a.ride = none → ∃ (u : State) (id : Nat), exec (.transferAck k) s = .next u
          ∧ u.arrived = s.arrived.set k { a with ride := some id } ∧ u.txns = s.txns ∧ u.cores = s.cores)))
    ∧ (∀ t, a.kind = kReadRsp → txnOf s a.txn = some t →
      ((core s t.core).pend.length ≤ txnPend s t a.txn → exec (.readRsp k) s = .next (closeTxn a.txn (arrDone k a s)))
      ∧ (∀ l b tag rep, txnPend s t a.txn < (core s t.core).pend.length → t.dst = some l → a.blk = some b → t.tries = 0 →
        l.half = portHalf a.port → landCheck b 0 = .accepted tag rep →
        exec (.readRsp k) s = .next (txnEnd a.txn t (landPut l b (arrDone k a s))))))
  ∧ (∀ (s : State) (k : Nat) (a m : Arr) (j : Job), arrTurn s k true = some a → a.kind = kAbort → ofJob s a = true →
    s.job = some j → s.peerLost = false → m ∈ abortsWaiting s → (∀ b ∈ abortsWaiting s, m.port ≤ b.port) → ∃ t : State,
    exec (.abortReceive k) s = .next t ∧ rdb t fPeerLost 0 = true ∧ rd t fPlStatCause 0 = 2 ∧ rd t fPort 0 = m.port
    ∧ t.peerLost = true ∧ abortsWaiting t = []
    ∧ ∀ c ∈ j.ctxs, (ctxSt s c).live = true → (ctxSt s c).fault = none → (ctxSt t c).fault = some (0x30, m.port.val))
  ∧ ∀ (s : State),
    (s.hold = none → exec .holdExpire s = .next s)
    ∧ ∀ h, s.hold = some h →
      (s.time < h.since + rd s fHoldS 0 * 800000000 ∨ schUp s = false → exec .holdExpire s = .next s)
      ∧ (h.since + rd s fHoldS 0 * 800000000 ≤ s.time → schUp s = true → ∃ t : State, exec .holdExpire s = .next t ∧ t.hold = none
        ∧ (s.storesWf = true → ∀ (x : Half) (b : Nat), b < 1024 * lget h.top x.val 0 → b < 2 ^ 28 →
          (blkStored t (.stk x b)).pay = zeros 2048)
        ∧ (s.job = none → t.freePg = [0, 0] ∧ t.freeTbl = 0))

/-- While SCH does not serve job rings, JOB_START, JOB_CANCEL and RING_RESET change nothing. Of the ring whose turn it
is: JOB_START takes the next descriptor; with no job running and none waiting a START is run, rejected with
DEVICE_RETIRED on a retired device and with BAD_DESCRIPTOR when a field is out of range; a START whose lists and load
succeed, of one package with no records, starts at once with each of its contexts live, at the next GEN and without a
fault; with a job running it waits, the seventeenth is rejected QUEUE_FULL. JOB_CANCEL ends the running job of its
JOB_TAG as CANCELLED, which counts as started, else the first waiting one, else is rejected. RING_RESET of a served query ring leaves it with
count and expected SEQ zero, not stopped, and no query of it on any grove. MQP_COMMIT makes queue pair 0x10 ready from
the staged entry with nothing outstanding on it. HT_COMMIT by SCH stores the staged entry, but for a pinned one (cause
4) or a malformed VALID one (cause 5), which SETUP_ERR records with no entry changed. It rests also on the model's
choices and readings in assumption log 39, 40, 41 and 71. -/
def Obligations.JobRingCommandsAreServedInOrder : Prop :=
  (∀ (s : State) (ring : Fin 4) (mem : Submem), inService s = false → exec (.jobStart ring mem) s = .next s
    ∧ exec (.jobCancel ring mem) s = .next s ∧ exec (.ringReset ring mem) s = .next s)
  ∧ (∀ (s : State) (ring : Fin 4) (mem : Submem) (b : Bytes), inService s = true → nextDesc s ring mem = some b →
    let s1 := wr fTaken ring ((rd s fTaken ring + 1) % 2 ^ 32) s
    let seq := decide (fieldAt b 0 4 = rd s fTaken ring)
    (seq = false → (s.job ≠ none ∨ s.waitJobs = []) → exec (.jobStart ring mem) s = .next (jobCpl ring b evRejected stBad 0 s1))
    ∧ (seq = true → fieldAt b 4 1 = 1 →
      (s.job = none → s.waitJobs = [] → exec (.jobStart ring mem) s = .next (runStart ring b mem s1))
      ∧ (s.job ≠ none → s.waitJobs.length < 16 → exec (.jobStart ring mem) s =
        .next { s1 with waitJobs := s.waitJobs ++ [⟨ring, b⟩] })
      ∧ (s.job ≠ none → 16 ≤ s.waitJobs.length → exec (.jobStart ring mem) s =
        .next (jobCpl ring b evRejected stFull 0 s1)))
    ∧ (seq = true → fieldAt b 4 1 = 2 → reservedZero b = true → fieldAt b 10 1 = 0 →
      (∀ j, s.job = some j → fieldAt j.desc 6 2 = fieldAt b 6 2 → exec (.jobCancel ring mem) s =
        .next (endJob stCancelled 0 false { s1 with job := some { j with started := true } }))
      ∧ ((∀ j, s.job = some j → fieldAt j.desc 6 2 ≠ fieldAt b 6 2) → (∀ w ∈ s.waitJobs, fieldAt w.desc 6 2 ≠ fieldAt b 6 2) →
        exec (.jobCancel ring mem) s = .next (jobCpl ring b evRejected stBad 0 s1))
      ∧ (∀ pre w post, (∀ j, s.job = some j → fieldAt j.desc 6 2 ≠ fieldAt b 6 2) → s.waitJobs = pre ++ w :: post →
        (∀ x ∈ pre, fieldAt x.desc 6 2 ≠ fieldAt b 6 2) → fieldAt w.desc 6 2 = fieldAt b 6 2 →
        exec (.jobCancel ring mem) s =
          .next (jobCpl w.ring w.desc evEnded stCancelled 0 { s1 with waitJobs := pre ++ post })))
    ∧ (seq = true → fieldAt b 4 1 = 3 →
      (s.serve = none → exec (.ringReset ring mem) s = .next (jobCpl ring b evRejected stBad 0 s1))
      ∧ (∀ v, s.serve = some v → reservedZero b = true → fieldAt b 10 1 < svNring v → ∃ (t : State) (w : Serve),
        exec (.ringReset ring mem) s = .next t ∧ t.serve = some w
        ∧ (qring w (fieldAt b 10 1)).count = 0 ∧ (qring w (fieldAt b 10 1)).expected = 0
        ∧ (qring w (fieldAt b 10 1)).stopped = false ∧ ∀ e ∈ w.queries, ∀ q ∈ e.2, q.ring ≠ fieldAt b 10 1)))
  ∧ (∀ (s s4 : State) (ring : Fin 4) (b : Bytes) (mem : Submem),
    (rdb s fRetired 0 = true → runStart ring b mem s = jobCpl ring b evRejected stRetired 0 s)
    ∧ (rdb s fRetired 0 = false → startOk b = false → runStart ring b mem s = jobCpl ring b evRejected stBad 0 s)
    ∧ (rdb s fRetired 0 = false → startOk b = true → fieldAt b 5 1 = 0 → fieldAt b 68 4 = 0 → fieldAt b 80 4 = 0 →
      fieldAt b 92 4 = 0 → fieldAt b 120 8 = 0 → fieldAt b 19 1 = 0 → fieldAt b 20 1 = 0 → fieldAt b 21 1 = 0 →
      let ctxs := ctxsOf (fieldAt b 8 2)
      let s1 := jobRecPut { s with job := some ⟨ring, b, false, ctxs, [], 0, none⟩, iws := [] }
      loadList ctxs false mem (fieldAt b 56 8) (fieldAt b 64 4) 0 (ctxs.foldl (fun t c => createCtx false c t) s1) = (s4, none) →
      let t := runStart ring b mem s
      t.job = some ⟨ring, b, true, ctxs, [], 0, none⟩ ∧ rdb t fValid 0 = true ∧ rd t fJobTag 0 = fieldAt b 6 2
      ∧ ∀ c : CtxId, bit (fieldAt b 8 2) c = true → (ctxSt t c).live = true ∧ (ctxSt t c).fault = none
        ∧ rd t fGen c = (rd s fGen c + 1) % 4096))
  ∧ (∀ (s : State) (p : CPort) (w : RegWr), w.part = .full → ∃ t : State, exec (.mqpCommit p w) s = .next t
    ∧ qpOf t p 0x10 = qpOpen (mqpEntry s p w.val.toNat) ∧ (∀ o ∈ t.rdma, ¬(o.port = p ∧ o.qpn = 0x10))
    ∧ (∀ k < 7, regRead t .mqp (8 * p + k) = fieldAt (mqpEntry s p w.val.toNat) (8 * k) 8))
  ∧ ∀ (s : State) (n : Fin 4096) (w : RegWr), w.path = .sch → w.part = .full →
    let b := (List.range 3).flatMap (fun k => toLe 8 (tget s.htStage (4 * n + k) 0).toNat) ++ toLe 8 w.val.toNat
    ∃ t : State, exec (.htCommit n w) s = .next t
    ∧ (pinned s n = true → htBytes t n = htBytes s n ∧ rd t fSetupErrCause 0 = 4)
    ∧ (pinned s n = false → (handleOf b).bad = true → (handleOf b).valid = true →
      htBytes t n = htBytes s n ∧ rd t fSetupErrCause 0 = 5)
    ∧ (pinned s n = false → (handleOf b).bad = false → htBytes t n = b)
    ∧ (pinned s n = false → (handleOf b).valid = false → htBytes t n = htClean b)

/-- Of an access on a face that is up: INBOUND_WRITE and INBOUND_READ that no window allows are refused: IN_REFUSED
counts, and a client queue pair is in error. A RAW write of bytes of one block that resolves to a place of the port's
half and holds format 7 merges them at their offset, with the tag formed and an acknowledgement; a read there answers
exactly those bytes; an access that meets an off-loaded page is held and its restore queued. STATION_FETCH_ADD of an
aligned word of the port's half adds the saturated amount and answers the old value; one of the other half leaves memory
as it was and crosses the ride. WRITE_WITH_IMMEDIATE that lands then rings its window's doorbell page. RDMA_ACK_RECEIVE
ends the oldest operation of the queue pair that has left, where it serves no core or is a write of a core of the port's
half, and the operations held behind it leave as they may; a read's answer of another length is refused; with none
outstanding, or on a link that is down, it changes nothing. On a link that is up CLIENT_FRAME_RECEIVE that is not RoCE, or
of a queue pair not set up, counts CP_DROP; one of an unsupported operation is answered Invalid Request; on one that is
down it changes nothing. CNP_RECEIVE halves the rate once
more unless the entry ignores CNPs. PERST and STEWARD_LINK_DOWN take the steward link down, with every valid handle
entry of it invalidated; STEWARD_LINK_UP in service brings it up. I3C_ENTDAA sets the bus's address. It rests also on
the model's choices and readings in assumption log 67, 68, 69, 70, 71, 92 and 97. -/
def Obligations.OutsideAccessesReachOnlyTheirWindow : Prop :=
  (∀ (s : State) (a : Inbound) (data : Bytes) (n : Nat), faceUp a.face a.qpn s = true → a.win ≠ 0 →
    (inAllowed s a data.length .write = none → exec (.inboundWrite a data) s = .next (refuseIn true a.face a.qpn s))
    ∧ (inAllowed s a n .read = none → exec (.inboundRead a n) s = .next (refuseIn false a.face a.qpn s))
    ∧ (∀ w s1 ctx page, inAllowed s a data.length .write = some w →
      inResolve a w .write ((inPieces w a.off data.length).map (·.1)) s = (s1, .absent ctx page) →
      exec (.inboundWrite a data) s = .next (holdIn (.write a data) ctx page s1)
      ∧ (holdIn (.write a data) ctx page s1).inHeld = s1.inHeld ++ [.write a data])
    ∧ (∀ w s1 ctx page, inAllowed s a n .read = some w →
      inResolve a w .read ((inPieces w a.off n).map (·.1)) s = (s1, .absent ctx page) →
      exec (.inboundRead a n) s = .next (holdIn (.read a n) ctx page s1))
    ∧ (∀ w s1 l o s2 b, inAllowed s a data.length .write = some w → w.kind = 1 → 0 < data.length →
      (w.dva + a.off) % 2048 + data.length ≤ 2048 →
      resolve (faceCore a.face) w.ctx .write 0 (BitVec.ofNat 56 (w.dva + a.off)) s = (s1, .here l o) →
      l.half = faceHalf a.face → fmtHeld s1 l = 7 → blkFetch w.ctx l s1 = (s2, .ok b) → ∃ t : State, exec (.inboundWrite a data) s = .next t
      ∧ (s2.storesWf = true → b.pay.length = 2048 → b.side.length = 128 →
        (blkStored t l).pay = splice b.pay o data ∧ (blkStored t l).fmt = 7)
      ∧ (a.face ≠ .sp → t.replies = s2.replies ++ [.ack a.face a.qpn]))
    ∧ (∀ w s1 l o s2 b, inAllowed s a n .read = some w → w.kind = 1 → 0 < n → (w.dva + a.off) % 2048 + n ≤ 2048 →
      resolve (faceCore a.face) w.ctx .read 0 (BitVec.ofNat 56 (w.dva + a.off)) s = (s1, .here l o) →
      l.half = faceHalf a.face → blkFetch w.ctx l s1 = (s2, .ok b) →
      exec (.inboundRead a n) s = .next (reply (.data a.face a.qpn (slice b.pay o n)) (farAsk w.ctx .read l s2)))
    ∧ (∀ (imm : BitVec 32) s1 w, a.face ≠ .sp → inWrite a data s = (s1, .done) → inWin s a.win = some w →
      exec (.writeWithImmediate a data imm) s =
        .next (if w.dbp = 0 then s1 else bellWrite a.face a.qpn w.dbp 0 (toLe 8 imm.toNat) s1))
    ∧ (∀ (x : BitVec 64) w s1 l o, inAllowed s a 8 .atomic = some w → -2 ^ 31 ≤ x.toInt → x.toInt < 2 ^ 31 →
      (w.dva + a.off) % 8 = 0 → inResolve a w .write [w.dva + a.off] s = (s1, .ok [(l, o)]) → s1.storesWf = true →
      o % 4 = 0 → o < 2048 → ∃ t : State, exec (.stationFetchAdd a true x) s = .next t
      ∧ (l.half = faceHalf a.face → wordRead t (l.addr o) = (satSum (wordRead s1 (l.addr o)) x.toInt).1
        ∧ t.replies = s1.replies ++ [.data a.face a.qpn (toLe 8 (wordRead s1 (l.addr o)))])
      ∧ (l.half ≠ faceHalf a.face → t.mem = s1.mem ∧ t.replies = s1.replies ∧ ∃ id : Nat, t.rideNext = s1.rideNext ++
        [⟨id, .fetchAdd ⟨a.face, a.qpn, 8, w.ctx, w.dva + a.off, l.addr o, x.toInt⟩⟩])))
  ∧ (∀ (s : State) (p : Fin 3) (qpn : Nat) (data : Bytes),
    (oldestOp s p qpn = none ∨ linkUp s p = false → exec (.rdmaAckReceive p qpn data) s = .next s)
    ∧ ∀ o, oldestOp s p qpn = some o → linkUp s p = true →
      ((∀ c x dst, o.use ≠ .coreRead c x dst) → (∀ c e, o.use ≠ .waitRead c e) → (∀ c, o.use ≠ .aheadRead c) →
        (∀ c, o.use = .coreWrite c → coreHalf c = extHalf p) →
        exec (.rdmaAckReceive p qpn data) s = .next (qpPump p qpn (opDone o s))
        ∧ (opDone o s).rdma = (s.rdma.filter fun x => x.id != o.id))
      ∧ (data.length ≠ o.len → ((∃ c x dst, o.use = .coreRead c x dst) ∨ (∃ c e, o.use = .waitRead c e) ∨ (∃ c, o.use = .aheadRead c)) →
        exec (.rdmaAckReceive p qpn data) s = .refused .badOperand))
  ∧ (∀ (s : State) (p : CPort) (f : Frame) (qpn : Nat),
    (linkUp s p = false → exec (.clientFrameReceive p f) s = .next s ∧ exec (.cnpReceive p qpn) s = .next s)
    ∧ (linkUp s p = true → f.roce = false ∨ qpLive s p f.qpn = false →
      exec (.clientFrameReceive p f) s = .next (bump fCpDrop 0 1 s))
    ∧ (linkUp s p = true → f.roce = true → qpLive s p f.qpn = true → f.ecn = false →
      exec (.clientFrameReceive p f) s = .next (if f.op = 4 ∨ f.op = 5 ∨ f.op = 7 then
        { s with replies := s.replies ++ [.nakRequest (if p = 0 then .cpa else .cpb) f.qpn] } else s))
    ∧ (linkUp s p = true → f.roce = true → qpLive s p f.qpn = true → f.ecn = true → (qpOf s p f.qpn).cnpSent = none → ∃ t : State,
      exec (.clientFrameReceive p f) s = .next t ∧ (.cnp p f.qpn) ∈ t.replies
      ∧ (qpOf t p f.qpn).cnpSent = some s.time ∧ t = { s with qps := t.qps, replies := t.replies })
    ∧ (linkUp s p = true → qpLive s p qpn = true → bit (fieldAt (qpOf s p qpn).entry 1 1) 2 = false → ∃ t : State,
      exec (.cnpReceive p qpn) s = .next t ∧ (qpOf t p qpn).cnpAt = s.time ∧ (qpOf t p qpn).halved =
        (if (qpOf s p qpn).halved = 0 ∨ (qpOf s p qpn).cnpAt + 80000 ≤ s.time then 1 else (qpOf s p qpn).halved + 1)
      ∧ t = { s with qps := t.qps }))
  ∧ ∀ (s : State) (i : Instr), i = .perst ∨ i = .stewardLinkDown → (∃ t : State, exec i s = .next t ∧ t.spUp = false
      ∧ ∀ n < 4096, ¬((handleOf (htBytes t n)).valid = true ∧ (handleOf (htBytes t n)).port = 2))
    ∧ (s.life ≠ .off → s.life ≠ .inReset → exec .stewardLinkUp s = .next { s with spUp := true }
      ∧ ∀ (bus : Fin 2) (x : BitVec 7), exec (.i3cEntdaa bus x) s = .next { s with i3cAddr := s.i3cAddr.set bus (some x) })

/-- MONITOR_TRIP with an entry of the half and ring older than 39,984 KCLK cycles removes the oldest such entry, sets
TRIP and RING, counts TRIPS and so drives GUARD_FAULT_N low; with none it changes nothing. MONITOR_TEST an hour after
the last and with SEC running notes the time, and sets MON_FAIL where the test entry did not trip; earlier it changes
nothing. LAND_TEST of a full-width write that starts it drives GUARD_FAULT_N low, and LAND_TEST_END ends it after 80,000
KCLK cycles and not before. LOSS_OF_LIGHT of a supply takes its client port's link down and each CHECK, UP or RESIZE
torus port of its half DOWN, and leaves every other torus port's state; CLIENT_LINK_DOWN takes one client port's link
down and nothing else. It rests also on the model's choices and readings in assumption log 72 and 89. -/
def Obligations.SafetyMonitorsAndLightLoss : Prop :=
  (∀ (s : State) (h : Half) (ring : Fin 16),
    ((∀ e ∈ s.monitors, e.half = h.val → e.ring = ring.val → s.time ≤ e.tdb + 39984) → exec (.monitorTrip h ring) s = .next s)
    ∧ (∀ (pre : List MonEntry) (e : MonEntry) (post : List MonEntry), s.monitors = pre ++ e :: post → e.half = h.val → e.ring = ring.val → e.tdb + 39984 < s.time →
      (∀ x ∈ pre, x.half = h.val → x.ring = ring.val → s.time ≤ x.tdb + 39984) → ∃ t : State, exec (.monitorTrip h ring) s = .next t
      ∧ rdb t fTrip 0 = true ∧ rd t fRing 0 = ring ∧ rd t fTrips 0 = min (rd s fTrips 0 + 1) 65535
      ∧ t.monitors.length + 1 = s.monitors.length ∧ (s.lands.ready ≠ none → guardFaultN t = some false)
      ∧ t = { s with regs := t.regs, monitors := t.monitors }))
  ∧ (∀ (s : State) (h : Half) (tripped : Bool),
    (s.time < s.monTest.getD h 0 + 3600 * 800000000 ∨ (proc s 0).restarting = true → exec (.monitorTest h tripped) s = .next s)
    ∧ (s.monTest.getD h 0 + 3600 * 800000000 ≤ s.time → (proc s 0).restarting = false → ∃ t : State,
      exec (.monitorTest h tripped) s = .next t ∧ t.monTest = s.monTest.set h s.time
      ∧ rdb t fMonFail 0 = (!tripped || rdb s fMonFail 0) ∧ t = { s with regs := t.regs, monTest := t.monTest }))
  ∧ (∀ (s : State) (w : RegWr), w.part = .full → w.val.toNat.testBit 17 = true → rdb s fLandTest 0 = false → ∃ t : State,
    exec (.landTest w) s = .next t ∧ t.landTest = some s.time ∧ rdb t fLandTest 0 = true
    ∧ (s.lands.ready ≠ none → guardFaultN t = some false) ∧ t = { s with regs := t.regs, landTest := t.landTest })
  ∧ (∀ (s : State),
    (s.landTest = none → exec .landTestEnd s = .next s)
    ∧ ∀ t0, s.landTest = some t0 →
      (s.time < t0 + 80000 → exec .landTestEnd s = .next s)
      ∧ (t0 + 80000 ≤ s.time → ∃ t : State, exec .landTestEnd s = .next t ∧ t.landTest = none ∧ rdb t fLandTest 0 = false
        ∧ t = { s with regs := t.regs, landTest := none }))
  ∧ ∀ (s : State) (ls : Fin 2) (cp : CPort),
    exec (.clientLinkDown cp) s = .next { s with cpUp := s.cpUp.set cp false }
    ∧ ∃ t : State, exec (.lossOfLight ls) s = .next t ∧ t.cpUp = s.cpUp.set ls false
      ∧ ∀ p < 6, portState t p =
        if portHalf p = ls ∧ (portState s p = 2 ∨ portState s p = 3 ∨ portState s p = 4) then 5 else portState s p

/-- FREQ_DECISION on a grove whose PWR runs moves its divider toward the least of its frequency, cap and thermal
ceilings: by at most 8 and never past it, with the voltage of the new divider and guard level, which does not rise while a rail's
current limit stretches the grove; at the ceiling the
divider stays, and while the grove droops or its step is held a step that is due is only marked pending. While PWR does
not run nothing changes. DROOP_DETECT stretches the grove's clock, counting one droop where it was not already
stretched, and holds its steps; RAIL_CURRENT_TRIP does the same to the clock of every grove the rail feeds, counting
each once, and touches no other. STRETCH_END ends a stretch, and the voltage takes the guard level that a current limit
has held back; STEP_HOLD_END frees the steps once the grove no longer
droops, and changes nothing before. It rests also on the model's choices and readings in assumption log 6, 73 and 75. -/
def Obligations.ClocksStepStretchAndHold : Prop :=
  (∀ (s : State) (g : Grove), let k := rd s fKNow g
    let top := min (ceilK s g) (min (pwGrove s g).capK (pwGrove s g).thermK)
    (pwrRuns s (g / 16) = false → exec (.freqDecision g) s = .next s)
    ∧ (pwrRuns s (g / 16) = true → ∃ t : State, exec (.freqDecision g) s = .next t
      ∧ (k = top → rd t fKNow g = k)
      ∧ (k ≠ top → (pwGrove s g).droop = true ∨ (pwGrove s g).held = true → rd t fKNow g = k ∧ rdb t fPending g = true)
      ∧ (k ≠ top → (pwGrove s g).droop = false → (pwGrove s g).held = false →
        rd t fKNow g ≠ k ∧ (k < top → rd t fKNow g = min top (k + 8)) ∧ (top < k → rd t fKNow g = max top (k - 8))
        ∧ (pwGrove t g).volt = Config.fusedVoltage g (rd t fKNow g)
          + 6 * (if (pwGrove s g).rail then min (pwGrove s g).guard (guardLevel s g) else guardLevel s g)
        ∧ (floorK s g ≤ rd t fKNow g → rdb t fPolicyOverridden g = false))
      ∧ (∀ n : Grove, n ≠ g → pwGrove t n = pwGrove s n ∧ rd t fKNow n = rd s fKNow n)
      ∧ t = { s with regs := t.regs, pw := t.pw }))
  ∧ (∀ (s : State) (g : Grove), ∃ t : State, exec (.droopDetect g) s = .next t ∧ rdb t fStretch g = true
    ∧ rd t fDroops g = (if rdb s fStretch g then rd s fDroops g else min (rd s fDroops g + 1) 65535)
    ∧ pwGrove t g = { pwGrove s g with droop := true, held := true } ∧ rd t fKNow g = rd s fKNow g
    ∧ (∀ n : Grove, n ≠ g → pwGrove t n = pwGrove s n ∧ rdb t fStretch n = rdb s fStretch n)
    ∧ t = { s with regs := t.regs, pw := t.pw })
  ∧ (∀ (s : State) (fed : List Grove), ∃ t : State, exec (.railCurrentTrip fed) s = .next t ∧ t = { s with regs := t.regs, pw := t.pw }
    ∧ ∀ g : Grove, (g ∈ fed → rdb t fStretch g = true ∧ pwGrove t g = { pwGrove s g with rail := true }
        ∧ rd t fDroops g = if rdb s fStretch g then rd s fDroops g else min (rd s fDroops g + 1) 65535)
      ∧ (g ∉ fed → rdb t fStretch g = rdb s fStretch g ∧ rd t fDroops g = rd s fDroops g ∧ pwGrove t g = pwGrove s g))
  ∧ (∀ (s : State) (g : Grove), (rdb s fStretch g = false → exec (.stretchEnd g) s = .next s)
    ∧ (rdb s fStretch g = true → ∃ t : State, exec (.stretchEnd g) s = .next t ∧ rdb t fStretch g = false
      ∧ rd t fDroops g = rd s fDroops g ∧ t = { s with regs := t.regs, pw := t.pw }
      ∧ pwGrove t g = if (pwGrove s g).rail = true then { pwGrove s g with
            droop := false, rail := false, guard := guardLevel s g
            volt := Config.fusedVoltage g (rd s fKNow g) + 6 * guardLevel s g }
          else { pwGrove s g with droop := false, rail := false }))
  ∧ ∀ (s : State) (g : Grove),
    ((pwGrove s g).droop = true → exec (.stepHoldEnd g) s = .next s)
    ∧ ((pwGrove s g).droop = false → ∃ t : State, exec (.stepHoldEnd g) s = .next t ∧ rdb t fPending g = false
      ∧ pwGrove t g = { pwGrove s g with held := false } ∧ t = { s with regs := t.regs, pw := t.pw })

/-- CAP_LOOP with the leading PWR running, above PCAP: CAP_ACTIVE is 1, and where some groves stand above their floors
just those get a cap ceiling one below what they run toward, not below 24; below 98 % of PCAP each grove held by the cap
is raised by 1. CAP_GUARD while a half's PWR restarts and the power is above PCAP sets every divider of that half to 24,
overridden for reason 4. THERMAL_LOOP while the device is up: a base or grove sensor at 112 or a stack at 100 shuts the
device down with READY low, FAULT_N and THERM_N asserted; else a grove at 105 or above runs at 24 and THERM is 1; with
every sensor at 101 or below no thermal ceiling stands and THERM is 0. PW_CTL_WRITE of a whole register stops PCAP at
the grade's cap; GRV_PCTL_WRITE of limits in range and order takes them. PHASE_WINDOW_OPEN of a window that is due opens
it, or drops and counts it where the power would pass PCAP; PHASE_WINDOW_CLOSE removes windows whose end has come. It
rests also on the model's choices and readings in assumption log 73 and 74. -/
def Obligations.PowerCapsHeatAndPhaseWindows : Prop :=
  (∀ (s : State) (watts : Nat), pwrRuns s 0 = true → ∃ t : State, exec (.capLoop watts) s = .next t
    ∧ rd t fPNow 0 = min watts 4095 ∧ t = { s with regs := t.regs, pw := t.pw }
    ∧ (rd s fPcap 0 < watts → rdb t fCapActive 0 = true
      ∧ ((∃ g < 32, floorK s g < targetK s g) → ∀ g < 32, pwGrove t g =
        if floorK s g < targetK s g then { pwGrove s g with capK := max 24 (targetK s g - 1) } else pwGrove s g))
    ∧ (100 * watts < 98 * rd s fPcap 0 → ∀ g < 32, pwGrove t g =
      if (pwGrove s g).capK < min (ceilK s g) (pwGrove s g).thermK then { pwGrove s g with capK := (pwGrove s g).capK + 1 }
      else pwGrove s g))
  ∧ (∀ (s : State) (h : Half) (watts : Nat),
    ((proc s (1 + h)).restarting = false ∨ watts ≤ rd s fPcap 0 → exec (.capGuard h watts) s = .next s)
    ∧ ((proc s (1 + h)).restarting = true → rd s fPcap 0 < watts → ∃ t : State, exec (.capGuard h watts) s = .next t
      ∧ (∀ g : Grove, g.val / 16 = h → rd t fKNow g = 24 ∧ (pwGrove t g).capK = 24 ∧ rdb t fPolicyOverridden g = true
        ∧ rd t fReason g = 4 ∧ rdb t fOvrSeen g = true)
      ∧ (∀ g : Grove, g.val / 16 ≠ h → rd t fKNow g = rd s fKNow g ∧ pwGrove t g = pwGrove s g)
      ∧ t = { s with regs := t.regs, pw := t.pw }))
  ∧ (∀ (s : State) (tj tdie tdram : List Nat), tj.length = 32 → tdie.length = 16 → tdram.length = 16 →
    (s.life ≠ .up → exec (.thermalLoop tj tdie tdram) s = .next s)
    ∧ (s.life = .up → (∃ v ∈ tj ++ tdie, 112 ≤ v) ∨ (∃ v ∈ tdram, 100 ≤ v) → ∃ t : State,
      exec (.thermalLoop tj tdie tdram) s = .next t ∧ t.life = .shutdown ∧ t.lands = ⟨some false, some false, some false⟩
      ∧ rdb t fTherm 0 = true ∧ t.cores = [] ∧ ∀ p < 6, portState t p = 0)
    ∧ (s.life = .up → (∀ v ∈ tj ++ tdie, v < 112) → (∀ v ∈ tdram, v < 100) → ∃ t : State,
      exec (.thermalLoop tj tdie tdram) s = .next t
      ∧ (∀ (g : Grove) v, tj[g.val]? = some v → 105 ≤ v → rd t fKNow g = 24 ∧ (pwGrove t g).thermK = 24 ∧ rdb t fTherm 0 = true)
      ∧ ((∀ v ∈ tj ++ tdie, v ≤ 101) → rdb t fTherm 0 = false ∧ t.lands.thermN = some true
        ∧ ∀ g : Grove, (pwGrove t g).thermK = 63)))
  ∧ (∀ (s : State) (w : RegWr) (g : Grove), w.part = .full → ∃ t : State, exec (.pwCtlWrite w) s = .next t
      ∧ rd t fPcap 0 = min (bits w.val.toNat 0 12) (if s.fuses.grade = 2 then 2000 else 2400) ∧ t = { s with regs := t.regs }
    ∧ (let lo := bits w.val.toNat 0 6
      let hi := bits w.val.toNat 8 6
      24 ≤ lo → lo ≤ hi → hi ≤ gradeMax s → ∃ u : State, exec (.grvPctlWrite g w) s = .next u
        ∧ rd u fFminK g = lo ∧ rd u fFmaxK g = hi ∧ u = { s with regs := u.regs }))
  ∧ ∀ (s : State) (g : Grove) (watts : Nat),
    ((∀ w ∈ (pwGrove s g).windows, w.isOpen = true ∨ s.time < w.opens) → exec (.phaseWindowOpen g watts) s = .next s)
    ∧ (∀ pre w post, (pwGrove s g).windows = pre ++ w :: post → w.isOpen = false → w.opens ≤ s.time →
      (∀ x ∈ pre, x.isOpen = true ∨ s.time < x.opens) → pwrRuns s (g / 16) = true → ∃ t : State,
      exec (.phaseWindowOpen g watts) s = .next t
      ∧ (rd s fPcap 0 < watts → (pwGrove t g).windows = pre ++ post
        ∧ rd t fPhaseDrop 0 = min (rd s fPhaseDrop 0 + 1) 65535)
      ∧ (watts ≤ rd s fPcap 0 → (pwGrove t g).windows = pre ++ { w with isOpen := true } :: post
        ∧ rd t fPhaseDrop 0 = rd s fPhaseDrop 0))
    ∧ ∃ t : State, exec (.phaseWindowClose g) s = .next t
      ∧ (pwGrove t g).windows = ((pwGrove s g).windows.filter fun w => decide (s.time < w.closes))
      ∧ (pwGrove t g).volt = Config.fusedVoltage g (rd s fKNow g)
        + 6 * (if (pwGrove s g).rail then min (pwGrove s g).guard (guardLevel t g) else guardLevel t g)
      ∧ t = { s with pw := t.pw }

/-- POWER_GOOD on a package that is up, stopped or shut down changes nothing. From power off or reset with no valid
image the boot stops in step 2: FAIL 2, FAIL_STEP 2, FAULT_N asserted, READY low, flash and fuses as before, one nonce
drawn. With an image that is chosen, all self-tests good, no record waiting and a health history without retirement or
unfinished clearing, it ends at STEP 12 with READY high, SLOT and FAIL as chosen, the slot and SVN of the image in all seven firmware
versions, every divider at 24 and the client links up. With an image chosen and a stack, ride or KAT failure the device
retires with cause 8 and READY low, FAIL 3 and FAIL_STEP of the first failing step. PWR_OK_FALL and VIN_BROWNOUT leave
the state after reset but for the waiting commands, fuses, flash, records that wait for SEC, nonces drawn and what has
left the device; PKG_RESET
with power standing does the same, keeps HL_STICKY and stands in reset, and without power changes nothing. It rests also
on the model's choices and readings in assumption log 76, 77, 89 and 90. -/
def Obligations.PowerGoodBootsAndPowerLossForgets : Prop :=
  (∀ (s : State) (o : BootOutcome), s.life ≠ .off → s.life ≠ .inReset → exec (.powerGood o) s = .next s)
  ∧ (∀ (s : State) (o : BootOutcome), s.life = .off ∨ s.life = .inReset → rd s fFailStep 0 = 0 →
    (chooseImage s = none → ∃ t : State, exec (.powerGood o) s = .next t ∧ t.life = .stopped
      ∧ t.lands = ⟨some false, some false, some true⟩ ∧ rd t fFail 0 = 2 ∧ rd t fFailStep 0 = 2 ∧ rd t fStep 0 = 1
      ∧ t.time = 0 ∧ t.fuses = s.fuses ∧ t.flash = s.flash ∧ t.nonces = s.nonces + 1)
    ∧ ∀ slot fail, chooseImage s = some (slot, fail) → s.histWait = [] → (healthOf s).retired = none → (healthOf s).clearing = false →
      rdb s fHlSticky 0 = false → rdb s fRetired 0 = false →
      (o.stackFail = 0 → o.rideFail = false → o.katFail = [] → o.monFail = 0 → ∃ t : State,
        exec (.powerGood o) s = .next t ∧ t.life = .up ∧ t.lands = ⟨some true, some true, some true⟩
        ∧ rd t fStep 0 = 12 ∧ rd t fBootStatSlot 0 = slot ∧ rd t fFail 0 = fail ∧ t.cpUp = [true, true]
        ∧ (∀ g < 32, rd t fKNow g = 24)
        ∧ (∀ c < 7, rd t fFwVerSlot c = slot ∧ rd t fSvn c = manSvn (manifest (flashImg s slot)) ∧ rdb t fPend c = false)
        ∧ t.fuses = s.fuses ∧ t.flash = s.flash ∧ t.nonces = s.nonces + 1)
      ∧ (o.stackFail ≠ 0 ∨ o.rideFail = true ∨ o.katFail ≠ [] → ∃ t : State, exec (.powerGood o) s = .next t
        ∧ t.lands.ready = some false ∧ t.lands.faultN = some false ∧ rdb t fRetired 0 = true ∧ rd t fRetCause 0 = 8
        ∧ rd t fFail 0 = 3 ∧ rd t fFailStep 0 = (if o.stackFail ≠ 0 then 6 else if o.rideFail = true then 7 else 10)))
  ∧ ∀ s : State, let r : State := { State.reset with
        pending := s.pending, fuses := s.fuses, flash := s.flash, nonces := s.nonces, msix := s.msix, ibis := s.ibis
        replies := s.replies, rdmaOut := s.rdmaOut, histWait := s.histWait }
    exec .pwrOkFall s = .next r ∧ exec .vinBrownout s = .next r
    ∧ (s.pwrOk = false → exec .pkgReset s = .next s)
    ∧ (s.pwrOk = true → ∃ t : State, exec .pkgReset s = .next t ∧ rd t fHlSticky 0 = rd s fHlSticky 0
      ∧ (∀ k i, k.off i ≠ RegKind.hlStat.off 0 → regRead t k i = k.reset s.fuses.grade % 2 ^ 64)
      ∧ t = { r with regs := t.regs, pwrOk := true, life := .inReset })

/-- SVN_COMMIT started while SEC runs raises the fused SVN_MIN to the SVN of the running image and revokes the keys that
its manifest revokes, never the manifest's own, and never lowers either; while SEC restarts it changes no fuse.
WATCHDOG_EXPIRY restarts a processor that runs, counting it, and rolls an update back with RESULT 3 where it meets that
processor's switch; it changes nothing for one that restarts already. COPPICE_RESTART_REQUEST of a processor code from
36 on, or of SEC or SCH while a job runs, sets REFUSED and restarts nothing; otherwise the processor restarts.
COPPICE_RESTART_DONE ends a restart, for SEC only where its image verifies, and then the records that waited are written;
SCH no longer awaits a publishing invocation that its core has ended; a GST's guarded copies then count as failed.
UPDATE_START while an update runs changes nothing but its register; while SEC restarts, or with an image that SEC cannot
read or that is not valid, RESULT is 2 and the flash is unchanged; otherwise the update stands staged in the other slot
with BUSY 1 and seven PEND bits. FIRMWARE_SWITCH out of turn, or off the quiescent point, or with no update changes
nothing; one whose handover the new image does not take ends the update with RESULT 3; the last one ends it with RESULT
1 and SLOT at the new image. It rests also on the model's choices and readings in assumption log 80, 81, 82, 83, 84 and
103. -/
def Obligations.FirmwareCommitsRestartsAndUpdates : Prop :=
  (∀ (s : State) (w : RegWr), w.part = .full → w.val.toNat.testBit 7 = true → rdb s fSvnCommit 0 = false → ∃ t : State,
    exec (.svnCommit w) s = .next t ∧ rdb t fSvnCommit 0 = false ∧ t = { s with regs := t.regs, fuses := t.fuses }
    ∧ ((proc s 0).restarting = true → t.fuses = s.fuses)
    ∧ ((proc s 0).restarting = false → let m := manifest (flashImg s (rd s fBootStatSlot 0))
      manSvn m ≤ 64 → t.fuses.svnMin.toNat = max s.fuses.svnMin.toNat (manSvn m) ∧ rd t fSvnMin 0 = t.fuses.svnMin.toNat
      ∧ (∀ i < 4, t.fuses.keyRev.toNat.testBit i =
        (s.fuses.keyRev.toNat.testBit i || (manRevoke m).testBit i && decide (i ≠ manKey m)))
      ∧ t.fuses = { s.fuses with svnMin := t.fuses.svnMin, keyRev := t.fuses.keyRev }))
  ∧ (∀ (s : State) (p : Fin 36),
    ((proc s p).restarting = true → exec (.watchdogExpiry p) s = .next s)
    ∧ ((proc s p).restarting = false → ∃ t : State, exec (.watchdogExpiry p) s = .next t
      ∧ (proc t p).restarting = true ∧ rd t fCrCtlCount 0 = min (rd s fCrCtlCount 0 + 1) 65535
      ∧ (∀ q : Fin 36, q ≠ p → proc t q = proc s q)
      ∧ (switching s p = false → t.update = s.update)
      ∧ (switching s p = true → t.update = none ∧ rd t fResult 0 = 3 ∧ rdb t fBusy 0 = false)
      ∧ t = { s with regs := t.regs, procs := t.procs, update := t.update, logMem := t.logMem, logFull := t.logFull
                     msix := t.msix }))
  ∧ (∀ (s : State) (w : RegWr), w.part = .full → w.val.toNat.testBit 6 = true → rdb s fReq 0 = false →
    let p := bits w.val.toNat 0 6
    ∃ t : State, exec (.coppiceRestartRequest w) s = .next t ∧ rdb t fReq 0 = false
      ∧ (36 ≤ p ∨ (p = 0 ∨ p = 3) ∧ s.job ≠ none → rdb t fRefused 0 = true ∧ t = { s with regs := t.regs })
      ∧ (p < 36 → (p = 0 ∨ p = 3 → s.job = none) → (proc t p).restarting = true
        ∧ t = { s with regs := t.regs, procs := t.procs, logMem := t.logMem, logFull := t.logFull, msix := t.msix }))
  ∧ (∀ (s : State) (p : Fin 36),
    ((proc s p).restarting = false ∨ p = 0 ∧ secOk s = false → exec (.coppiceRestartDone p) s = .next s)
    ∧ ((proc s p).restarting = true → (p = 0 → secOk s = true) → ∃ t : State, exec (.coppiceRestartDone p) s = .next t
      ∧ (proc t p).restarting = false
      ∧ (p.val ∈ [1, 2] ∨ p = 0 ∧ s.histWait = [] ∨ 4 ≤ p.val ∧ s.serve = none → t = { s with procs := t.procs })
      ∧ (p = 0 → t.histWait = [] ∧ t = { s with procs := t.procs, flash := t.flash, histPos := t.histPos, histWait := [] })
      ∧ (p = 3 → (∀ d < 16, mcWaiting s d = []) → t = { s with procs := t.procs, serve := t.serve }
        ∧ t.serve = s.serve.map fun v => { v with pubLeft := v.pubLeft.filter fun q =>
          !((core s (physOf s q.1)).ended.any fun e => e.invSeq == q.2 && e.ctx == pubCtx s) })
      ∧ ∀ v : Serve, t.serve = some v → 4 ≤ p.val → ∀ q ∈ queriesOf v (p.val - 4), q.role ≠ 0 → q.stage = .failed))
  ∧ (∀ (s : State) (w : RegWr) (image : Submem), w.part = .full → w.val.toNat.testBit 12 = true → rdb s fStart 0 = false →
    let u : State := (regPut .updCtl 0 w s).1
    let r := updImg u image
    ∃ t : State, exec (.updateStart w image) s = .next t ∧ rdb t fStart 0 = false
      ∧ (rdb s fBusy 0 = true → t = { s with regs := t.regs })
      ∧ (rdb s fBusy 0 = false → (proc s 0).restarting = true → rd t fResult 0 = 2 ∧ t = { s with regs := t.regs })
      ∧ (rdb s fBusy 0 = false → (proc s 0).restarting = false → updReadable u (manifest r) = false ∨ imgValid u r = false →
        rd t fResult 0 = 2 ∧ t.update = none ∧ t.flash = s.flash ∧ rdb t fBusy 0 = false)
      ∧ (rdb s fBusy 0 = false → (proc s 0).restarting = false → updReadable u (manifest r) = true → imgValid u r = true →
        rd t fResult 0 = 0 ∧ rdb t fBusy 0 = true ∧ (∀ c < 7, rdb t fPend c = true) ∧ t.fuses = s.fuses
        ∧ t.update = some ⟨3 - rd s fBootStatSlot 0, manHvMin (manifest r), manHvNew (manifest r), switchOrder⟩))
  ∧ ∀ (s : State) (p : Fin 36) (body : Bytes),
    (65536 < body.length → exec (.firmwareSwitch p body) s = .refused .badOperand)
    ∧ (body.length ≤ 65536 →
      (s.update = none → exec (.firmwareSwitch p body) s = .next s)
      ∧ ∀ u : Update, s.update = some u →
        (u.left.head? ≠ some p.val ∨ quiescent s p = false → exec (.firmwareSwitch p body) s = .next s)
        ∧ (u.left.head? = some p.val → quiescent s p = true → ∃ t : State, exec (.firmwareSwitch p body) s = .next t
          ∧ (handoverOk u (handover s p body) = false → t.update = none ∧ rd t fResult 0 = 3 ∧ rdb t fBusy 0 = false
            ∧ t.procs = s.procs)
          ∧ (handoverOk u (handover s p body) = true → (proc t p).switched = true
            ∧ (u.left ≠ [p.val] → t.update = some { u with left := u.left.drop 1 } ∧ rd t fBootStatSlot 0 = rd s fBootStatSlot 0)
            ∧ (u.left = [p.val] → t.update = none ∧ rd t fResult 0 = 1 ∧ rdb t fBusy 0 = false
              ∧ (u.slot < 4 → rd t fBootStatSlot 0 = u.slot)))))

/-- RIDE_DOWN of an up package whose receiver has taken no good flit for 1,600 KCLK cycles raises the firebreak: READY
low, FIREBREAK 1, nothing of a core that is bound for the other half stays pending and nothing waits on the ride; before that it changes nothing.
HALF_QUERY outside a raised firebreak changes nothing; an answer that the other half is clocked and out of reset retires
the device; otherwise HALF_0 counts the loss of HALF_1 and ends the job, and lets HALF_1 boot again below three losses
within a day, or the device retires; HALF_1 in the place of a lost HALF_0 asserts FAULT_N and sets HL_STICKY.
FIREBREAK_LOWER after a reboot without failing self-tests makes the package whole and READY unless it is retired or
open; with one it retires the device. OPENING_TOKEN of 512 bytes that passes its checks begins the clearing with its
scope, one that fails counts in ATTEMPTS, and either draws a new nonce; while SEC restarts or a clearing runs it changes
nothing. CLEARING erases memory and cores, darkens the ports, ends the job and takes the key store away before OPEN is
set; a readback failure retires the device without opening; while an update runs it waits. It rests also on the model's
choices and readings in assumption log 85, 86 and 89. -/
def Obligations.FirebreakHalfLossAndClearing : Prop :=
  (∀ (s : State) (h : Half), s.ride.length = 2 →
    (s.life ≠ .up ∨ (rideEnd s h).down = true ∨ s.time < (rideEnd s h).goodSince + 1600 → exec (.rideDown h) s = .next s)
    ∧ (s.life = .up → (rideEnd s h).down = false → (rideEnd s h).goodSince + 1600 ≤ s.time → ∃ t : State,
      exec (.rideDown h) s = .next t ∧ t.halfPh = .firebreak ∧ t.lands.ready = some false ∧ rdb t fFirebreak 0 = true
      ∧ (rideEnd t h).down = true ∧ (rideEnd t h).wire = []
      ∧ (∀ e ∈ t.cores, ∀ p ∈ e.2.pend, ∀ n, p.op.half = some n → n = coreHalf e.1)
      ∧ t.rideNext = []
      ∧ t = { s with regs := t.regs, cores := t.cores, watches := t.watches, ride := t.ride, lands := t.lands, ibis := t.ibis
                     halfPh := t.halfPh, rdma := t.rdma, rideNext := [], stkReqs := t.stkReqs }))
  ∧ (∀ (s : State) (h : Half) (a : HalfAnswer),
    (s.halfPh ≠ .firebreak ∨ (rideEnd s h).down = false → exec (.halfQuery h a) s = .next s)
    ∧ (s.halfPh = .firebreak → (rideEnd s h).down = true → ∃ t : State, exec (.halfQuery h a) s = .next t
      ∧ (a = .clockedOutOfReset → t.halfPh = .waiting ∧ rdb t fRetired 0 = true)
      ∧ (a ≠ .clockedOutOfReset → h = 0 → let recent := s.losses.filter fun x => s.time < x + 86400 * 800000000
        t.job = none ∧ rd t fHalf1Losses 0 = min (recent.length + 1) 3
        ∧ (∀ p < 6, portHalf p = 1 → portState t p = 0 ∨ portState t p = 5)
        ∧ (recent.length < 2 → t.halfPh = .rebooting ∧ t.losses = recent ++ [s.time] ∧ ∀ x ∈ t.mem, x.1 / 2 ^ 40 % 2 = 0)
        ∧ (2 ≤ recent.length → t.halfPh = .waiting ∧ rdb t fRetired 0 = true))
      ∧ (a ≠ .clockedOutOfReset → h = 1 → t.halfPh = .waiting ∧ rdb t fHlSticky 0 = true ∧ t.lands.faultN = some false)))
  ∧ (∀ (s : State) (bad : List HwUnit),
    (s.halfPh ≠ .rebooting → exec (.firebreakLower bad) s = .next s)
    ∧ (s.halfPh = .rebooting → ∃ t : State, exec (.firebreakLower bad) s = .next t
      ∧ (bad ≠ [] → t.halfPh = .waiting ∧ rdb t fRetired 0 = true)
      ∧ (bad = [] → t.halfPh = .whole ∧ rdb t fFirebreak 0 = false
        ∧ (rdb s fRetired 0 = false → rdb s fOpen 0 = false → t.lands.ready = some true)
        ∧ t = { s with regs := t.regs, logMem := t.logMem, logFull := t.logFull, lands := t.lands, ride := t.ride
                       halfPh := t.halfPh, ibis := t.ibis, msix := t.msix })))
  ∧ (∀ (s : State) (token : Bytes),
    (token.length ≠ 512 → exec (.openingToken token) s = .refused .badOperand)
    ∧ (token.length = 512 →
      (s.life ≠ .up ∨ (proc s 0).restarting = true ∨ s.clearing ≠ none → exec (.openingToken token) s = .next s)
      ∧ (s.life = .up → (proc s 0).restarting = false → s.clearing = none → ∃ t : State,
        exec (.openingToken token) s = .next t ∧ t.nonces = s.nonces + 1
        ∧ (∀ k < 4, rd t fNonce k = bits (Config.nonce s.nonces).toNat (64 * k) 64)
        ∧ (tokenOk s token = true → t.clearing = some (BitVec.ofNat 2 (fieldAt token 4 1)) ∧ rdb t fClearing 0 = true)
        ∧ (tokenOk s token = false → t = { s with regs := t.regs, nonces := t.nonces } ∧ rdb t fTokenBad 0 = true
          ∧ rd t fAttempts 0 = min (rd s fAttempts 0 + 1) 65535))))
  ∧ ∀ (s : State) (ok : Bool),
    (s.clearing = none ∨ s.update ≠ none → exec (.clearing ok) s = .next s)
    ∧ ∀ scope, s.clearing = some scope → s.update = none → ∃ t : State, exec (.clearing ok) s = .next t
      ∧ t.mem = [] ∧ t.cores = [] ∧ t.job = none ∧ t.keyStore = false ∧ t.clearing = none ∧ t.lands.ready = some false
      ∧ (∀ p < 6, portState t p = 0) ∧ t.fuses = s.fuses
      ∧ (ok = true → rdb t fOpen 0 = true ∧ rd t fScope 0 = scope.toNat)
      ∧ (ok = false → rdb t fRetired 0 = true ∧ rdb t fOpen 0 = rdb s fOpen 0)

/-- REGISTER_WRITE at an unmapped offset or off an 8-byte boundary changes nothing but SETUP_ERR, which takes offset,
path and cause and counts; beyond the set-up space it changes nothing. At a register with no operation of its own it is
refused with cause 3 for half a register over I3C, and with cause 2 where a job owns the register and a path other than
SCH would change it; else each field of a whole write changes as its access type says and no other register changes.
SETUP_ERR_READ answers the register on its path and clears it. CTX_SAVE_WRITE takes SAVE_PG up to 239 and leaves the
field above that. A write of LOG_PTR acknowledges a full log. GROVE_QUIET notes a report only where the grove's GST runs
and every core of the grove is still: then each unfinished engine of the context waits, not on an external place, since
65,536 KCLK cycles, and nothing of it has broken the quiet since. STANDSTILL_CONFIRM changes nothing before every grove
has reported, or while SCH restarts; then, for a live context without fault, with waiting engines, nothing in flight and every grove's
counter confirmed, the context faults STANDSTILL with the number of entries; else the round of reports is dropped and
nothing else. It rests also on the model's choices and readings in assumption log 87 and 91. -/
def Obligations.SetupAccessesAndStandstill : Prop :=
  (∀ (s : State) (off : Nat) (w : RegWr),
    (0x80000 ≤ off → exec (.registerWrite off w) s = .next s)
    ∧ (off < 0x80000 → (off % 8 ≠ 0 ∨ regAt off = none) → ∃ t : State, exec (.registerWrite off w) s = .next t
      ∧ rd t fAddr 0 = off ∧ rd t fPath 0 = pathCode w.path ∧ rd t fSetupErrCause 0 = (if off % 8 ≠ 0 then 3 else 1)
      ∧ rd t fSetupErrCount 0 = min (rd s fSetupErrCount 0 + 1) 65535 ∧ t = { s with regs := t.regs })
    ∧ ∀ k i, regAt off = some (k, i) →
      (k ∉ [.svnCtl, .updCtl, .crCtl, .intStat, .safeCtl, .svCtl, .svTime, .pwCtl, .grvPctl, .jrCtl, .mqp, .ht, .tpCtl, .ctxSave,
        .ssCtl, .logPtr, .arbCtl]) → ∃ t : State, exec (.registerWrite off w) s = .next t ∧ t = { s with regs := t.regs }
      ∧ (w.path = .i3c0 ∨ w.path = .i3c1 → w.part ≠ .full → rd t fAddr 0 = off ∧ rd t fSetupErrCause 0 = 3
        ∧ rd t fSetupErrCount 0 = min (rd s fSetupErrCount 0 + 1) 65535)
      ∧ (w.part = .full → w.path ≠ .sch → jobOwned s k i = true → ownedChange k w (regRead s k i) = true →
        rd t fAddr 0 = off ∧ rd t fSetupErrCause 0 = 2 ∧ (k ≠ .setupErr → regRead t k i = regRead s k i))
      ∧ (w.part = .full → (w.path = .sch ∨ jobOwned s k i = false) →
        (∀ n j, RegKind.off n j ≠ off → regRead t n j = regRead s n j)
        ∧ ∀ f ∈ k.fields, rd t f i = match f.acc with
          | .ro => rd s f i
          | .rcl => rd s f i
          | .w1c => Nat.land (rd s f i) (2 ^ f.w - 1 - bits w.val.toNat f.lo f.w)
          | .w1s => Nat.lor (rd s f i) (bits w.val.toNat f.lo f.w)
          | _ => bits w.val.toNat f.lo f.w))
  ∧ (∀ (s : State) (path : Path), ∃ t : State, exec (.setupErrRead path) s = .next t ∧ regRead t .setupErr 0 = 0
    ∧ t.replies = s.replies ++ [.setup path (BitVec.ofNat 64 (regRead s .setupErr 0))]
    ∧ t = { s with regs := t.regs, replies := t.replies })
  ∧ (∀ (s : State) (n : CtxId) (w : RegWr), w.part = .full → w.path = .sch ∨ s.job = none → ∃ t : State,
    exec (.ctxSaveWrite n w) s = .next t ∧ t = { s with regs := t.regs }
    ∧ rd t fSavePg n = if bits w.val.toNat 0 8 ≤ 239 then bits w.val.toNat 0 8 else rd s fSavePg n)
  ∧ (∀ (s : State) (w : RegWr), w.part = .full → ∃ t : State, exec (.registerWrite (RegKind.logPtr.off 0) w) s = .next t
    ∧ t.logFull = false ∧ t = { s with regs := t.regs, logFull := false })
  ∧ (∀ (s : State) (g : Grove) (ctx : CtxId),
    (gstUp s g = false ∨ (∃ c ∈ groveCores g, coreStill s ctx s.time c = false) → exec (.groveQuiet g ctx) s = .next s)
    ∧ (gstUp s g = true → (∀ c ∈ groveCores g, coreStill s ctx s.time c = true) → ∃ t : State,
      exec (.groveQuiet g ctx) s = .next t
      ∧ (ctx, s.time) ∈ (grove t g).quiet ∧ t = { s with groves := t.groves }
      ∧ (∀ c ∈ groveCores g, tget (core s c).stir ctx 0 + 65536 ≤ s.time)
      ∧ ∀ c ∈ groveCores g, ∀ d l (e : Engine), (core s c).run = some (d, l) → d.ctx = ctx →
        ((core s c).eng e).ctl.part ≠ .finished → ∃ w : Waiting, ((core s c).eng e).wait = some w
          ∧ w.ext = false ∧ w.begin + 65536 ≤ s.time))
  ∧ ∀ (s : State) (ctx : CtxId),
    (schUp s = false ∨ allReported s ctx = false → exec (.standstillConfirm ctx) s = .next s)
    ∧ (schUp s = true → allReported s ctx = true → ∃ t : State, exec (.standstillConfirm ctx) s = .next t
      ∧ (∀ e ∈ t.groves, ∀ q ∈ e.2.quiet, q.1 ≠ ctx)
      ∧ ((ctxSt s ctx).fault = none → (ctxSt s ctx).live = true → waitGraph s ctx ≠ [] → inFlight s ctx = false →
        (∀ g < 32, confirms s ctx g = true) → (ctxSt t ctx).fault = some (0x21, (waitGraph s ctx).length)
        ∧ (∀ c ∈ coresRunning s ctx, (core t c).forced = true))
      ∧ ((ctxSt s ctx).fault ≠ none ∨ (ctxSt s ctx).live = false ∨ waitGraph s ctx = [] ∨ inFlight s ctx = true
          ∨ (∃ g < 32, confirms s ctx g = false) → t = { s with groves := t.groves }))

/-- The state after reset has no waiting command, no power, no land driven, no job, and every store in its canonical
form. Its registers read the reset values of the register tables for grade A: PCAP 2,400 W, the divider limits 24 and
50, SV_K 50, SV_CUT 2,000, SV_CMP 1,000, HOLD_S 300, MIN_WIDTH 3, REVOKE_MAX 4, every arbiter entry 4, LOG_ENT 4;
counters, enables and statuses read zero. Reset values that the model names because the spec gives none (the erased
flash, the fuses of grade A) are its own choice (assumption log 8 and 5). -/
def Obligations.ResetStateHoldsTheGivenValues : Prop :=
  State.reset.pending = [] ∧ State.reset.life = .off ∧ State.reset.pwrOk = false ∧ State.reset.lands = ⟨none, none, none⟩
  ∧ State.reset.job = none ∧ State.reset.storesWf = true
  ∧ rd State.reset fPcap 0 = 2400 ∧ rd State.reset fSvK 0 = 50 ∧ rd State.reset fSvCut 0 = 2000 ∧ rd State.reset fSvCmp 0 = 1000
  ∧ rd State.reset fHoldS 0 = 300 ∧ rd State.reset fPort 0 = 255 ∧ rdb State.reset fSvCtlEn 0 = false
  ∧ (∀ g : Grove, rd State.reset fFminK g = 24 ∧ rd State.reset fFmaxK g = 50 ∧ rdb State.reset fPolicyOverridden g = false)
  ∧ (∀ p : TPort, rd State.reset fMinWidth p = 3 ∧ rdb State.reset fTpCtlEn p = false ∧ portState State.reset p = 0)
  ∧ (∀ d : Die, rd State.reset fRevokeMax d = 4 ∧ (die State.reset d).table = List.replicate 64 4 ∧ (die State.reset d).job = none)
  ∧ (∀ n < 4, rd State.reset fLogEnt n = 4 ∧ rdb State.reset fJrCtlEn n = false)
  ∧ ∀ n : CtxId, rdb State.reset fSyncSat n = false ∧ rd State.reset fFqHead n = 0 ∧ rd State.reset fFqTail n = 0
    ∧ rd State.reset fGen n = 0 ∧ (ctxSt State.reset n).live = false

/-- For every repeat count below 65,536 and every operation whose fields lie in the ranges and under the rules that the
encoding tables give, decoding the word that the encoder writes gives back the repeat count and the operation with every
operand. Conversely every 128-bit word that decodes is the encoding of the operation it decodes to, which is well
formed: no bit of a legal word is dropped, and a word with a reserved bit set, a reserved code or an illegal operand
does not decode. -/
def Obligations.StreamWordsDecodeAndEncodeAgree : Prop :=
  (∀ (rep : Nat) (op : SOp), rep < 2 ^ 16 → op.wf rep = true → decodeStream (encodeStream rep op) = some (rep, op))
  ∧ ∀ (w rep : Nat) (op : SOp), w < 2 ^ 128 → decodeStream w = some (rep, op) →
    rep < 2 ^ 16 ∧ op.wf rep = true ∧ encodeStream rep op = w

/-- For every tag contents below 2^48 (FMT, GEN, CRC): the tag with its GUARD decodes to the contents with no event;
with any one of its 64 bits flipped it decodes to the same contents with a single-bit event; with any two different bits
flipped the decode fails. -/
def Obligations.GuardCorrectsOneFlipAndFindsTwo : Prop :=
  ∀ t : Nat, t < 2 ^ 48 → let tag := guardOf t * 2 ^ 56 + t
    decodeTag tag = some (t, .none)
    ∧ (∀ i < 64, decodeTag (Nat.xor tag (2 ^ i)) = some (t, .single))
    ∧ ∀ i < 64, ∀ j < i, decodeTag (Nat.xor (Nat.xor tag (2 ^ i)) (2 ^ j)) = none

/-- From every state whose device memory, boot flash and log memory are in canonical form (addresses strictly rising, no
entry equal to what an unlisted address reads as), a step that answers a next state, whatever command stands at the
front of the queue and also on an empty queue, leaves the three stores in canonical form; so equal memories stay equal
data. It rests also on the model's choices and readings in assumption log 8 and 10. -/
def Obligations.EveryStepKeepsTheStoresCanonical : Prop :=
  ∀ s t : State, s.storesWf = true → step s = .next t → t.storesWf = true

/-- From every state, whatever command stands at the front of the queue, a step that answers a next state leaves the
fused SVN_MIN at least as high as before and every revoked key revoked, and leaves the grade, the device identity, the
key slots and the debug key as they were: an image that has once been too old to boot stays so, through boots, updates,
resets, losses of power and the clearing. It rests also on the model's choices and readings in assumption log 5 and 90.
-/
def Obligations.NoStepWeakensTheFuses : Prop :=
  ∀ s t : State, step s = .next t →
    s.fuses.svnMin.toNat ≤ t.fuses.svnMin.toNat
    ∧ (∀ i < 4, s.fuses.keyRev.toNat.testBit i = true → t.fuses.keyRev.toNat.testBit i = true)
    ∧ t.fuses = { s.fuses with svnMin := t.fuses.svnMin, keyRev := t.fuses.keyRev }
end

