-- ==== Sys2Proof/Laws/Bits.lean ====
section
/-! SUPPORT. Bit fields, little-endian bytes, and the CRC register after a zero block. -/

namespace Sys2Proof.Machine

/-- A field lies below its width. -/
theorem bits_lt (v lo w : Nat) : bits v lo w < 2 ^ w := Nat.mod_lt _ (Nat.two_pow_pos w)

/-- One bit of a field. -/
theorem testBit_bits (v lo w i : Nat) : (bits v lo w).testBit i = (decide (i < w) && v.testBit (lo + i)) := by
  simp [bits, Nat.testBit_mod_two_pow, Nat.testBit_div_two_pow, Nat.add_comm]

/-- A number is what lies above a field, the field, and what lies below it. -/
theorem bits_split (v lo w : Nat) :
    v = v / 2 ^ (lo + w) * 2 ^ (lo + w) + bits v lo w * 2 ^ lo + v % 2 ^ lo := by
  have h1 := Nat.div_add_mod v (2 ^ lo)
  have h2 := Nat.div_add_mod (v / 2 ^ lo) (2 ^ w)
  rw [Nat.div_div_eq_div_mul] at h2
  calc v = 2 ^ lo * (2 ^ w * (v / (2 ^ lo * 2 ^ w)) + v / 2 ^ lo % 2 ^ w) + v % 2 ^ lo := by rw [h2, h1]
    _ = _ := by rw [bits, Nat.pow_add]; ring

/-- What a number reads as once a field is replaced. -/
theorem putBits_eq (v lo w x : Nat) :
    putBits v lo w x = v / 2 ^ (lo + w) * 2 ^ (lo + w) + x % 2 ^ w * 2 ^ lo + v % 2 ^ lo := by
  have h := bits_split v lo w
  rw [putBits]
  omega

/-- One bit of a number with a field replaced. -/
theorem testBit_putBits (v lo w x i : Nat) :
    (putBits v lo w x).testBit i = if lo ≤ i ∧ i < lo + w then x.testBit (i - lo) else v.testBit i := by
  have hx : x % 2 ^ w < 2 ^ w := Nat.mod_lt _ (Nat.two_pow_pos w)
  have hv : v % 2 ^ lo < 2 ^ lo := Nat.mod_lt _ (Nat.two_pow_pos lo)
  have e : putBits v lo w x = 2 ^ lo * (2 ^ w * (v / 2 ^ (lo + w)) + x % 2 ^ w) + v % 2 ^ lo := by
    rw [putBits_eq, Nat.pow_add]; ring
  rw [e, Nat.testBit_two_pow_mul_add _ hv]
  by_cases h1 : i < lo
  · simp [h1, Nat.not_le.mpr h1, Nat.testBit_mod_two_pow]
  · rw [if_neg h1, Nat.testBit_two_pow_mul_add _ hx]
    by_cases h2 : i - lo < w
    · have : lo ≤ i ∧ i < lo + w := by omega
      simp [h2, this, Nat.testBit_mod_two_pow]
    · have : ¬(lo ≤ i ∧ i < lo + w) := by omega
      rw [if_neg h2, if_neg this, Nat.testBit_div_two_pow]
      congr 1
      omega

/-- The field just put. -/
@[simp] theorem bits_putBits_same (v lo w x : Nat) : bits (putBits v lo w x) lo w = x % 2 ^ w := by
  apply Nat.eq_of_testBit_eq
  intro i
  rw [testBit_bits, testBit_putBits, Nat.testBit_mod_two_pow]
  by_cases h : i < w
  · simp [h]
  · simp [h]

/-- A field that does not meet the one put stays. -/
theorem bits_putBits_other (v lo w x lo' w' : Nat) (h : lo' + w' ≤ lo ∨ lo + w ≤ lo') :
    bits (putBits v lo w x) lo' w' = bits v lo' w' := by
  apply Nat.eq_of_testBit_eq
  intro i
  rw [testBit_bits, testBit_bits, testBit_putBits]
  by_cases hi : i < w'
  · have : ¬(lo ≤ lo' + i ∧ lo' + i < lo + w) := by omega
    simp [this]
  · simp [hi]

/-- A number of 64 bits stays one when a field inside is put. -/
theorem putBits_lt (v lo w x n : Nat) (hv : v < 2 ^ n) (h : lo + w ≤ n) : putBits v lo w x < 2 ^ n := by
  apply Nat.lt_pow_two_of_testBit
  intro i hi
  rw [testBit_putBits]
  have : ¬(lo ≤ i ∧ i < lo + w) := by omega
  rw [if_neg this]
  exact Nat.testBit_lt_two_pow (lt_of_lt_of_le hv (Nat.pow_le_pow_right (by decide) hi))

/-- The bytes of a number. -/
@[simp] theorem toLe_length (n v : Nat) : (toLe n v).length = n := by
  induction n generalizing v with
  | zero => rfl
  | succ n ih => simp [toLe, ih]

/-- Reading back the bytes of a number. -/
theorem leNat_toLe (n v : Nat) : leNat (toLe n v) = v % 2 ^ (8 * n) := by
  induction n generalizing v with
  | zero => simp [toLe, leNat, Nat.mod_one]
  | succ n ih =>
    have e : 2 ^ (8 * (n + 1)) = 256 * 2 ^ (8 * n) := by rw [Nat.mul_add, Nat.pow_add]; ring
    simp only [toLe, leNat, ih, BitVec.toNat_ofNat, e]
    have := Nat.mod_mul (x := v) (a := 256) (b := 2 ^ (8 * n))
    rw [this]

/-- A string of bytes lies below its range. -/
theorem leNat_lt (b : Bytes) : leNat b < 2 ^ (8 * b.length) := by
  induction b with
  | nil => exact Nat.one_pos
  | cons x xs ih =>
    have h : x.toNat < 256 := x.isLt
    rw [leNat, List.length_cons, Nat.mul_succ, Nat.pow_add]
    generalize 2 ^ (8 * xs.length) = n at ih ⊢
    change x.toNat + 256 * leNat xs < n * 256
    omega

/-- Zero bytes. -/
@[simp] theorem zeros_length (n : Nat) : (zeros n).length = n := by simp [zeros]

/-- A CRC register over two strings. -/
theorem crcRun_append (c : Nat) (a b : Bytes) : crcRun c (a ++ b) = crcRun (crcRun c a) b := by
  induction a generalizing c with
  | nil => rfl
  | cons x xs ih => exact ih (crcByte c x)

/-- A run of zero bytes, 64 at a time: the register after each stretch. -/
theorem crcRun_zeros_add (c m n : Nat) : crcRun c (zeros (m + n)) = crcRun (crcRun c (zeros m)) (zeros n) := by
  rw [← crcRun_append]; simp [zeros, List.replicate_append_replicate]

/-- The register at each 64th of 2,176 zero bytes, from the end back to the start. -/
def zeroMarks : List Nat :=
  [0x22B79A12, 0x0058238B, 0x5B767CB0, 0x7DDD2266, 0x50E61FFC, 0x782F93A7, 0x5BCB999C, 0xAC5B13C6, 0xFBD7265A,
   0xDD58B5AA, 0x0A6FD2D2, 0xB9F00015, 0x6B47581E, 0x8B77850D, 0x72802FED, 0x5717CF61, 0xA8448891, 0x96321F3C]
  ++ [0x11512183, 0xC011635A, 0x0D77C4C0, 0xFC7DEB93, 0xC5C4C2F9, 0x7793E80C, 0x1FD80331, 0x39B9AC6B, 0xCF03123F,
   0xCC289DC7, 0x4509D0C9, 0x03D5A233, 0x478D4E6F, 0x8BCA87CF, 0xF7D89B24, 0xFC371498, 0xFFFFFFFF]

/-- Each mark follows from the one after it in the list by 64 zero bytes. -/
def marksOk : List Nat → Bool
  | a :: b :: l => crcRun b (zeros 64) == a && marksOk (b :: l)
  | _ => true

/-- The marks are right. -/
theorem zeroMarks_ok : marksOk zeroMarks = true := by decide +kernel

/-- The first mark is the register after as many stretches of zeros as there are marks behind it. -/
theorem marks_run {l : List Nat} {a : Nat} (h : marksOk (a :: l) = true) :
    crcRun ((a :: l).getLast (by simp)) (zeros (64 * l.length)) = a := by
  induction l generalizing a with
  | nil => rfl
  | cons b l ih =>
    simp only [marksOk, Bool.and_eq_true, beq_iff_eq] at h
    rw [List.getLast_cons (by simp), List.length_cons, Nat.mul_succ, crcRun_zeros_add, ih h.2, h.1]

/-- The register after a zero block (R435). -/
theorem crcAfterZeroBlock_eq : crcAfterZeroBlock = crcRun 0xFFFFFFFF (zeros 2176) := by
  have h := marks_run (a := 0x22B79A12) (l := zeroMarks.tail) zeroMarks_ok
  exact h.symm

end Sys2Proof.Machine
end

