-- ==== Sys2Proof/Laws/Memory.lean ====
section
/-! SUPPORT. Byte stores: canonical form is kept, a read after a write, what a write leaves alone; blocks stored and read back. -/

namespace Sys2Proof.Machine

/-- The byte at an address. -/
def cellAt (d : Nat → Byte) (m : List Host.Cell) (a : Nat) : Byte :=
  match m with
  | [] => d a
  | (k, b) :: m => if k = a then b else cellAt d m a

/-- Canonical form, said of pairs and of entries. -/
theorem wf_iff (d : Nat → Byte) (m : List Host.Cell) :
    Memory.wf d m = true ↔ m.Pairwise (fun x y => x.1 < y.1) ∧ ∀ c ∈ m, c.2 ≠ d c.1 := by
  induction m with
  | nil => simp [Memory.wf]
  | cons c m ih =>
    obtain ⟨a, b⟩ := c
    cases m with
    | nil => simp [Memory.wf]
    | cons c m =>
      obtain ⟨a', b'⟩ := c
      rw [Memory.wf, Bool.and_eq_true, Bool.and_eq_true, ih]
      simp only [List.pairwise_cons, List.mem_cons, forall_eq_or_imp, bne_iff_ne, decide_eq_true_eq]
      constructor
      · rintro ⟨h1, h2, ⟨h3, h4⟩, h5, h6⟩
        exact ⟨⟨⟨h2, fun x hx => Nat.lt_trans h2 (h3 x hx)⟩, h3, h4⟩, h1, h5, h6⟩
      · rintro ⟨⟨⟨h2, -⟩, h3, h4⟩, h1, h5, h6⟩
        exact ⟨h1, h2, ⟨h3, h4⟩, h5, h6⟩

/-- An empty store is in canonical form. -/
@[simp] theorem wf_nil (d : Nat → Byte) : Memory.wf d [] = true := rfl

/-- Leaving entries out keeps the canonical form. -/
theorem wf_filter {d : Nat → Byte} {m : List Host.Cell} (h : Memory.wf d m = true) (p : Host.Cell → Bool) :
    Memory.wf d (m.filter p) = true := by
  rw [wf_iff] at h ⊢
  exact ⟨h.1.filter p, fun c hc => h.2 c (List.mem_of_mem_filter hc)⟩

/-- The cells of a string at `a`: addresses rise inside its range, and none reads as an unlisted address. -/
theorem cellsOf_spec (d : Nat → Byte) (a : Nat) (b : Bytes) :
    (cellsOf d a b).Pairwise (fun x y => x.1 < y.1) ∧ ∀ c ∈ cellsOf d a b, a ≤ c.1 ∧ c.1 < a + b.length ∧ c.2 ≠ d c.1 := by
  induction b generalizing a with
  | nil => simp [cellsOf]
  | cons x xs ih =>
    obtain ⟨h1, h2⟩ := ih (a + 1)
    rw [cellsOf]
    split
    · exact ⟨h1, fun c hc => by
        have := h2 c hc; simp only [List.length_cons]; exact ⟨by omega, by omega, this.2.2⟩⟩
    · next hx =>
      refine ⟨List.pairwise_cons.mpr ⟨fun c hc => by have := h2 c hc; simp only; omega, h1⟩, ?_⟩
      intro c hc
      rcases List.mem_cons.mp hc with rfl | hc
      · simp only [List.length_cons]; exact ⟨Nat.le_refl _, by omega, hx⟩
      · have := h2 c hc; simp only [List.length_cons]; exact ⟨by omega, by omega, this.2.2⟩

/-- A write keeps the canonical form. -/
theorem wf_cellsWrite {d : Nat → Byte} {m : List Host.Cell} (h : Memory.wf d m = true) (a : Nat) (b : Bytes) :
    Memory.wf d (cellsWrite d m a b) = true := by
  rw [wf_iff] at h ⊢
  obtain ⟨h1, h2⟩ := h
  obtain ⟨h3, h4⟩ := cellsOf_spec d a b
  constructor
  · rw [cellsWrite, List.append_assoc, List.pairwise_append, List.pairwise_append]
    refine ⟨h1.filter _, ⟨h3, h1.filter _, ?_⟩, ?_⟩
    · intro x hx y hy
      have := h4 x hx
      have := (List.mem_filter.mp hy).2
      simp only [decide_eq_true_eq] at this
      omega
    · intro x hx y hy
      have hx := (List.mem_filter.mp hx).2
      simp only [decide_eq_true_eq] at hx
      rcases List.mem_append.mp hy with hy | hy
      · have := h4 y hy; omega
      · have := (List.mem_filter.mp hy).2
        simp only [decide_eq_true_eq] at this
        omega
  · intro c hc
    rw [cellsWrite] at hc
    rcases List.mem_append.mp hc with hc | hc
    · rcases List.mem_append.mp hc with hc | hc
      · exact h2 c (List.mem_of_mem_filter hc)
      · exact (h4 c hc).2.2
    · exact h2 c (List.mem_of_mem_filter hc)

/-- Writing slots of the log keeps the canonical form. -/
theorem wf_logPut {m : List Host.Cell} (h : Memory.wf logDefault m = true) (n k slot : Nat) (b : Bytes) :
    Memory.wf logDefault (logPut n k slot b m) = true := by
  induction k generalizing m slot b with
  | zero => exact h
  | succ k ih => exact ih (wf_cellsWrite h _ _) _ _

/-- A byte of a store that is split in two. -/
theorem cellAt_append (d : Nat → Byte) (m n : List Host.Cell) (k : Nat) :
    cellAt d (m ++ n) k = if m.any (·.1 == k) then cellAt d m k else cellAt d n k := by
  induction m with
  | nil => simp
  | cons c m ih =>
    obtain ⟨j, b⟩ := c
    by_cases h : j = k
    · simp [cellAt, h]
    · simp [cellAt, h, ih]

/-- A byte whose address no entry has. -/
theorem cellAt_none {d : Nat → Byte} {m : List Host.Cell} {k : Nat} (h : ∀ c ∈ m, c.1 ≠ k) : cellAt d m k = d k := by
  induction m with
  | nil => rfl
  | cons c m ih =>
    have h1 := h c List.mem_cons_self
    rw [cellAt, if_neg h1, ih fun x hx => h x (List.mem_cons_of_mem _ hx)]

/-- Leaving out entries of other addresses does not change a byte. -/
theorem cellAt_filter {d : Nat → Byte} {m : List Host.Cell} {k : Nat} {p : Host.Cell → Bool} (h : ∀ c ∈ m, c.1 = k → p c = true) :
    cellAt d (m.filter p) k = cellAt d m k := by
  induction m with
  | nil => rfl
  | cons c m ih =>
    have ih := ih fun x hx => h x (List.mem_cons_of_mem _ hx)
    by_cases hp : p c = true
    · rw [List.filter_cons_of_pos hp, cellAt, cellAt, ih]
    · have : c.1 ≠ k := fun e => hp (h c List.mem_cons_self e)
      rw [List.filter_cons_of_neg hp, ih]
      conv_rhs => rw [cellAt, if_neg this]

/-- A byte of a string's own cells. -/
theorem cellAt_cellsOf (d : Nat → Byte) (a : Nat) (b : Bytes) (k : Nat) (h1 : a ≤ k) (h2 : k < a + b.length) :
    cellAt d (cellsOf d a b) k = b[k - a] := by
  induction b generalizing a with
  | nil => simp only [List.length_nil] at h2; omega
  | cons x xs ih =>
    rw [List.length_cons] at h2
    rw [cellsOf]
    by_cases hk : k = a
    · subst hk
      have hn : ∀ c ∈ cellsOf d (k + 1) xs, c.1 ≠ k := fun c hc => by have := (cellsOf_spec d (k + 1) xs).2 c hc; omega
      split
      · next hx => rw [cellAt_none hn]; simp [hx]
      · simp [cellAt]
    · have e : k - a = (k - (a + 1)) + 1 := by omega
      have ih := ih (a + 1) (by omega) (by omega)
      simp only [e, List.getElem_cons_succ]
      split
      · exact ih
      · rw [cellAt, if_neg (Ne.symm hk)]; exact ih

/-- A byte after a write: inside the written bytes the new one, elsewhere as before. -/
theorem cellAt_cellsWrite (d : Nat → Byte) (m : List Host.Cell) (a : Nat) (b : Bytes) (k : Nat) :
    cellAt d (cellsWrite d m a b) k = if h : a ≤ k ∧ k < a + b.length then b[k - a] else cellAt d m k := by
  rw [cellsWrite, List.append_assoc, cellAt_append]
  by_cases h1 : k < a
  · have hd : ¬(a ≤ k ∧ k < a + b.length) := by omega
    rw [dif_neg hd]
    split
    · exact cellAt_filter fun c _ hc => by simp [hc, h1]
    · next hn =>
      have hm : ∀ c ∈ m, c.1 ≠ k := by
        intro c hc e
        apply hn
        rw [List.any_eq_true]
        exact ⟨c, List.mem_filter.mpr ⟨hc, by simp [e, h1]⟩, by simp [e]⟩
      rw [cellAt_none hm, cellAt_none]
      intro c hc
      rcases List.mem_append.mp hc with hc | hc
      · have := (cellsOf_spec d a b).2 c hc; omega
      · exact hm c (List.mem_of_mem_filter hc)
  · rw [if_neg (by
      rw [List.any_eq_true]
      rintro ⟨c, hc, e⟩
      have := (List.mem_filter.mp hc).2
      simp only [decide_eq_true_eq, beq_iff_eq] at this e
      omega)]
    rw [cellAt_append]
    by_cases h2 : k < a + b.length
    · have hd : a ≤ k ∧ k < a + b.length := by omega
      rw [dif_pos hd, ← cellAt_cellsOf d a b k (by omega) h2]
      split
      · rfl
      · next hn =>
        have hm : ∀ c ∈ cellsOf d a b, c.1 ≠ k := fun c hc e => hn (List.any_eq_true.mpr ⟨c, hc, by simp [e]⟩)
        rw [cellAt_none hm, cellAt_none]
        intro c hc
        have := (List.mem_filter.mp hc).2
        simp only [decide_eq_true_eq] at this
        omega
    · have hd : ¬(a ≤ k ∧ k < a + b.length) := by omega
      rw [dif_neg hd, if_neg (by
        rw [List.any_eq_true]
        rintro ⟨c, hc, e⟩
        have := (cellsOf_spec d a b).2 c hc
        simp only [beq_iff_eq] at e
        omega)]
      exact cellAt_filter fun c _ hc => by simp only [decide_eq_true_eq]; omega

/-- Reading from cells that rise and lie at or above the address. -/
theorem readFrom_eq (d : Nat → Byte) (n a : Nat) (m : List Host.Cell) (h1 : m.Pairwise (fun x y => x.1 < y.1))
    (h2 : ∀ c ∈ m, a ≤ c.1) : readFrom d n a m = (List.range' a n).map (cellAt d m) := by
  induction n generalizing a m with
  | zero => cases m <;> rfl
  | succ n ih =>
    cases m with
    | nil => rw [readFrom, ih _ _ .nil (by simp)]; simp [List.range'_succ, cellAt]
    | cons c m =>
      obtain ⟨k, b⟩ := c
      obtain ⟨h3, h4⟩ := List.pairwise_cons.mp h1
      rw [readFrom, List.range'_succ, List.map_cons]
      by_cases e : k = a
      · subst e
        rw [if_pos rfl, ih (k + 1) m h4 (fun c hc => h3 c hc)]
        congr 1
        · simp [cellAt]
        · apply List.map_congr_left
          intro x hx
          have := (List.mem_range'.mp hx)
          rw [cellAt, if_neg (by omega)]
      · have ha : a < k := by have := h2 (k, b) List.mem_cons_self; simp only at this; omega
        rw [if_neg e, ih (a + 1) _ h1 (fun c hc => by
          rcases List.mem_cons.mp hc with rfl | hc
          · exact ha
          · have := h3 c hc; simp only at this; omega)]
        congr 1
        rw [cellAt_none]
        intro c hc
        rcases List.mem_cons.mp hc with rfl | hc
        · exact e
        · have := h3 c hc; simp only at this; omega

/-- A read of a store in canonical form is its bytes one by one. -/
theorem cellsRead_eq {d : Nat → Byte} {m : List Host.Cell} (h : Memory.wf d m = true) (a n : Nat) :
    cellsRead d m a n = (List.range' a n).map (cellAt d m) := by
  rw [wf_iff] at h
  have hs := List.dropWhile_sublist (l := m) (fun c => decide (c.1 < a))
  have hge : ∀ c ∈ m.dropWhile (fun c => decide (c.1 < a)), a ≤ c.1 := by
    have h1 := h.1
    clear h hs
    induction m with
    | nil => simp
    | cons c m ih =>
      obtain ⟨h3, h4⟩ := List.pairwise_cons.mp h1
      by_cases hc : c.1 < a
      · rw [List.dropWhile_cons_of_pos (by simpa using hc)]; exact ih h4
      · rw [List.dropWhile_cons_of_neg (by simpa using hc)]
        intro x hx
        rcases List.mem_cons.mp hx with rfl | hx
        · omega
        · have := h3 x hx; omega
  rw [cellsRead, readFrom_eq d n a _ (h.1.sublist hs) hge]
  apply List.map_congr_left
  intro x hx
  have hx : a ≤ x := (List.mem_range'_1.mp hx).1
  clear h hs hge
  induction m with
  | nil => rfl
  | cons c m ih =>
    by_cases hc : c.1 < a
    · rw [List.dropWhile_cons_of_pos (by simpa using hc), ih, cellAt, if_neg (by omega)]
    · rw [List.dropWhile_cons_of_neg (by simpa using hc)]

/-- A read has the length asked for. -/
@[simp] theorem cellsRead_length (d : Nat → Byte) (m : List Host.Cell) (a n : Nat) : (cellsRead d m a n).length = n := by
  have : ∀ (n a : Nat) (m : List Host.Cell), (readFrom d n a m).length = n := by
    intro n
    induction n with
    | zero => intro a m; cases m <;> rfl
    | succ n ih =>
      intro a m
      cases m with
      | nil => rw [readFrom, List.length_cons, ih]
      | cons c m => obtain ⟨k, b⟩ := c; rw [readFrom]; split <;> rw [List.length_cons, ih]
  exact this n a _

/-- A read of the bytes just written, in any part. -/
theorem cellsRead_cellsWrite_part {d : Nat → Byte} {m : List Host.Cell} (h : Memory.wf d m = true) (a off n : Nat) (b : Bytes)
    (hl : off + n ≤ b.length) : cellsRead d (cellsWrite d m a b) (a + off) n = (b.drop off).take n := by
  rw [cellsRead_eq (wf_cellsWrite h a b)]
  apply List.ext_getElem
  · simp; omega
  · intro i h1 h2
    simp only [List.length_map, List.length_range'] at h1
    simp only [List.getElem_map, List.getElem_range', cellAt_cellsWrite, List.getElem_take, List.getElem_drop]
    rw [dif_pos (by omega)]
    congr 1
    omega

/-- A read of the bytes just written. -/
theorem cellsRead_cellsWrite_same {d : Nat → Byte} {m : List Host.Cell} (h : Memory.wf d m = true) (a : Nat) (b : Bytes) :
    cellsRead d (cellsWrite d m a b) a b.length = b := by
  have := cellsRead_cellsWrite_part h a 0 b.length b (by omega)
  simpa using this

/-- A read outside the written bytes is as before. -/
theorem cellsRead_cellsWrite_other {d : Nat → Byte} {m : List Host.Cell} (h : Memory.wf d m = true) (a a' n : Nat) (b : Bytes)
    (ho : a' + n ≤ a ∨ a + b.length ≤ a') : cellsRead d (cellsWrite d m a b) a' n = cellsRead d m a' n := by
  rw [cellsRead_eq (wf_cellsWrite h a b), cellsRead_eq h]
  apply List.map_congr_left
  intro x hx
  have := List.mem_range'_1.mp hx
  rw [cellAt_cellsWrite, dif_neg (by omega)]

/-! ### The three stores of the state -/

/-- The stores' canonical form, one by one. -/
theorem storesWf_iff (s : State) :
    s.storesWf = true ↔ Memory.wf memDefault s.mem = true ∧ Memory.wf flashDefault s.flash = true
      ∧ Memory.wf logDefault s.logMem = true := by simp [State.storesWf, and_assoc]

/-- The canonical form looks at the three stores only. -/
theorem storesWf_congr {s t : State} (h1 : t.mem = s.mem) (h2 : t.flash = s.flash) (h3 : t.logMem = s.logMem) :
    t.storesWf = s.storesWf := by simp [State.storesWf, h1, h2, h3]

/-- The state after reset has its stores in canonical form. -/
@[simp] theorem storesWf_reset : State.reset.storesWf = true := rfl

/-- Writing memory keeps the stores' form. -/
theorem storesWf_memWrite {s : State} (h : s.storesWf = true) (a : Nat) (b : Bytes) : (memWrite a b s).storesWf = true := by
  rw [storesWf_iff] at h ⊢; exact ⟨wf_cellsWrite h.1 a b, h.2⟩

/-- Writing flash keeps the stores' form. -/
theorem storesWf_flashWrite {s : State} (h : s.storesWf = true) (a : Nat) (b : Bytes) : (flashWrite a b s).storesWf = true := by
  rw [storesWf_iff] at h ⊢; exact ⟨h.1, wf_cellsWrite h.2.1 a b, h.2.2⟩

/-- Memory read back. -/
theorem memRead_memWrite_part {s : State} (h : s.storesWf = true) (a off n : Nat) (b : Bytes) (hl : off + n ≤ b.length) :
    memRead (memWrite a b s) (a + off) n = (b.drop off).take n :=
  cellsRead_cellsWrite_part ((storesWf_iff s).mp h).1 a off n b hl

/-- Memory elsewhere. -/
theorem memRead_memWrite_other {s : State} (h : s.storesWf = true) (a a' n : Nat) (b : Bytes)
    (ho : a' + n ≤ a ∨ a + b.length ≤ a') : memRead (memWrite a b s) a' n = memRead s a' n :=
  cellsRead_cellsWrite_other ((storesWf_iff s).mp h).1 a a' n b ho

/-! ### Blocks -/

/-- Storing a block touches memory only. -/
theorem blkStore_frame (l : Loc) (b : Blk) (s : State) : blkStore l b s = { s with mem := (blkStore l b s).mem } := rfl

/-- Storing a block keeps the stores' form. -/
theorem storesWf_blkStore {s : State} (h : s.storesWf = true) (l : Loc) (b : Blk) : (blkStore l b s).storesWf = true :=
  storesWf_memWrite h _ _

/-- A block stored reads back. -/
theorem blkStored_blkStore {s : State} (h : s.storesWf = true) (l : Loc) (b : Blk) (hp : b.pay.length = 2048)
    (hs : b.side.length = 128) : blkStored (blkStore l b s) l = b := by
  obtain ⟨p, q, t⟩ := b
  simp only at hp hs
  have e := memRead_memWrite_part h (l.addr 0) 0 2184 (p ++ q ++ toLe 8 t.toNat) (by simp [hp, hs])
  simp only [Nat.add_zero, List.drop_zero] at e
  rw [List.take_of_length_le (by simp [hp, hs])] at e
  rw [blkStored, blkStore]
  simp only [e]
  congr 1
  · rw [List.append_assoc, List.take_left' hp]
  · rw [List.append_assoc, List.drop_left' hp, List.take_left' hs]
  · rw [List.drop_left' (by simp [hp, hs]), leNat_toLe]
    apply BitVec.eq_of_toNat_eq
    have := t.isLt
    simp
    exact this

/-- A block of another key reads as before. -/
theorem blkStored_blkStore_other {s : State} (h : s.storesWf = true) (l m : Loc) (b : Blk) (hp : b.pay.length = 2048)
    (hs : b.side.length = 128) (hk : m.key ≠ l.key) : blkStored (blkStore l b s) m = blkStored s m := by
  have e : memRead (blkStore l b s) (m.addr 0) 2184 = memRead s (m.addr 0) 2184 := by
    apply memRead_memWrite_other h
    simp only [Loc.addr, List.length_append, hp, hs, toLe_length]
    omega
  rw [blkStored, blkStored, e]

end Sys2Proof.Machine
end

