-- ==== Sys2Proof/Laws/State.lean ====
section
/-! SUPPORT. Each update of the state and each field it leaves alone, true by definition. -/

namespace Sys2Proof.Machine

variable (s : State)

/-! ### regWrite -/

@[simp] theorem regWrite_pending (k : RegKind) (i v : Nat) : (regWrite k i v s).pending = s.pending := rfl
@[simp] theorem regWrite_time (k : RegKind) (i v : Nat) : (regWrite k i v s).time = s.time := rfl
@[simp] theorem regWrite_pwrOk (k : RegKind) (i v : Nat) : (regWrite k i v s).pwrOk = s.pwrOk := rfl
@[simp] theorem regWrite_pkgRstN (k : RegKind) (i v : Nat) : (regWrite k i v s).pkgRstN = s.pkgRstN := rfl
@[simp] theorem regWrite_life (k : RegKind) (i v : Nat) : (regWrite k i v s).life = s.life := rfl
@[simp] theorem regWrite_lands (k : RegKind) (i v : Nat) : (regWrite k i v s).lands = s.lands := rfl
@[simp] theorem regWrite_fuses (k : RegKind) (i v : Nat) : (regWrite k i v s).fuses = s.fuses := rfl
@[simp] theorem regWrite_mem (k : RegKind) (i v : Nat) : (regWrite k i v s).mem = s.mem := rfl
@[simp] theorem regWrite_flash (k : RegKind) (i v : Nat) : (regWrite k i v s).flash = s.flash := rfl
@[simp] theorem regWrite_logMem (k : RegKind) (i v : Nat) : (regWrite k i v s).logMem = s.logMem := rfl
@[simp] theorem regWrite_cores (k : RegKind) (i v : Nat) : (regWrite k i v s).cores = s.cores := rfl
@[simp] theorem regWrite_groves (k : RegKind) (i v : Nat) : (regWrite k i v s).groves = s.groves := rfl
@[simp] theorem regWrite_ctxs (k : RegKind) (i v : Nat) : (regWrite k i v s).ctxs = s.ctxs := rfl
@[simp] theorem regWrite_cutNotes (k : RegKind) (i v : Nat) : (regWrite k i v s).cutNotes = s.cutNotes := rfl
@[simp] theorem regWrite_ride (k : RegKind) (i v : Nat) : (regWrite k i v s).ride = s.ride := rfl
@[simp] theorem regWrite_xfers (k : RegKind) (i v : Nat) : (regWrite k i v s).xfers = s.xfers := rfl
@[simp] theorem regWrite_rideDone (k : RegKind) (i v : Nat) : (regWrite k i v s).rideDone = s.rideDone := rfl
@[simp] theorem regWrite_rideNext (k : RegKind) (i v : Nat) : (regWrite k i v s).rideNext = s.rideNext := rfl
@[simp] theorem regWrite_fadds (k : RegKind) (i v : Nat) : (regWrite k i v s).fadds = s.fadds := rfl
@[simp] theorem regWrite_satAt (k : RegKind) (i v : Nat) : (regWrite k i v s).satAt = s.satAt := rfl
@[simp] theorem regWrite_watches (k : RegKind) (i v : Nat) : (regWrite k i v s).watches = s.watches := rfl
@[simp] theorem regWrite_drops (k : RegKind) (i v : Nat) : (regWrite k i v s).drops = s.drops := rfl
@[simp] theorem regWrite_restores (k : RegKind) (i v : Nat) : (regWrite k i v s).restores = s.restores := rfl
@[simp] theorem regWrite_invWaits (k : RegKind) (i v : Nat) : (regWrite k i v s).invWaits = s.invWaits := rfl
@[simp] theorem regWrite_poison (k : RegKind) (i v : Nat) : (regWrite k i v s).poison = s.poison := rfl
@[simp] theorem regWrite_logSmall (k : RegKind) (i v : Nat) : (regWrite k i v s).logSmall = s.logSmall := rfl
@[simp] theorem regWrite_logFull (k : RegKind) (i v : Nat) : (regWrite k i v s).logFull = s.logFull := rfl
@[simp] theorem regWrite_msix (k : RegKind) (i v : Nat) : (regWrite k i v s).msix = s.msix := rfl
@[simp] theorem regWrite_reports (k : RegKind) (i v : Nat) : (regWrite k i v s).reports = s.reports := rfl
@[simp] theorem regWrite_sctx (k : RegKind) (i v : Nat) : (regWrite k i v s).sctx = s.sctx := rfl
@[simp] theorem regWrite_accs (k : RegKind) (i v : Nat) : (regWrite k i v s).accs = s.accs := rfl
@[simp] theorem regWrite_dies (k : RegKind) (i v : Nat) : (regWrite k i v s).dies = s.dies := rfl
@[simp] theorem regWrite_stkReqs (k : RegKind) (i v : Nat) : (regWrite k i v s).stkReqs = s.stkReqs := rfl
@[simp] theorem regWrite_ports (k : RegKind) (i v : Nat) : (regWrite k i v s).ports = s.ports := rfl
@[simp] theorem regWrite_arrived (k : RegKind) (i v : Nat) : (regWrite k i v s).arrived = s.arrived := rfl
@[simp] theorem regWrite_txns (k : RegKind) (i v : Nat) : (regWrite k i v s).txns = s.txns := rfl
@[simp] theorem regWrite_nextTxn (k : RegKind) (i v : Nat) : (regWrite k i v s).nextTxn = s.nextTxn := rfl
@[simp] theorem regWrite_inject (k : RegKind) (i v : Nat) : (regWrite k i v s).inject = s.inject := rfl
@[simp] theorem regWrite_peerLost (k : RegKind) (i v : Nat) : (regWrite k i v s).peerLost = s.peerLost := rfl
@[simp] theorem regWrite_aborted (k : RegKind) (i v : Nat) : (regWrite k i v s).aborted = s.aborted := rfl
@[simp] theorem regWrite_epochTop (k : RegKind) (i v : Nat) : (regWrite k i v s).epochTop = s.epochTop := rfl
@[simp] theorem regWrite_rdma (k : RegKind) (i v : Nat) : (regWrite k i v s).rdma = s.rdma := rfl
@[simp] theorem regWrite_rdmaOut (k : RegKind) (i v : Nat) : (regWrite k i v s).rdmaOut = s.rdmaOut := rfl
@[simp] theorem regWrite_nextOp (k : RegKind) (i v : Nat) : (regWrite k i v s).nextOp = s.nextOp := rfl
@[simp] theorem regWrite_qps (k : RegKind) (i v : Nat) : (regWrite k i v s).qps = s.qps := rfl
@[simp] theorem regWrite_replies (k : RegKind) (i v : Nat) : (regWrite k i v s).replies = s.replies := rfl
@[simp] theorem regWrite_mqpStage (k : RegKind) (i v : Nat) : (regWrite k i v s).mqpStage = s.mqpStage := rfl
@[simp] theorem regWrite_htStage (k : RegKind) (i v : Nat) : (regWrite k i v s).htStage = s.htStage := rfl
@[simp] theorem regWrite_iws (k : RegKind) (i v : Nat) : (regWrite k i v s).iws = s.iws := rfl
@[simp] theorem regWrite_inHeld (k : RegKind) (i v : Nat) : (regWrite k i v s).inHeld = s.inHeld := rfl
@[simp] theorem regWrite_spUp (k : RegKind) (i v : Nat) : (regWrite k i v s).spUp = s.spUp := rfl
@[simp] theorem regWrite_cpUp (k : RegKind) (i v : Nat) : (regWrite k i v s).cpUp = s.cpUp := rfl
@[simp] theorem regWrite_i3cAddr (k : RegKind) (i v : Nat) : (regWrite k i v s).i3cAddr = s.i3cAddr := rfl
@[simp] theorem regWrite_waitJobs (k : RegKind) (i v : Nat) : (regWrite k i v s).waitJobs = s.waitJobs := rfl
@[simp] theorem regWrite_job (k : RegKind) (i v : Nat) : (regWrite k i v s).job = s.job := rfl
@[simp] theorem regWrite_hold (k : RegKind) (i v : Nat) : (regWrite k i v s).hold = s.hold := rfl
@[simp] theorem regWrite_cplCount (k : RegKind) (i v : Nat) : (regWrite k i v s).cplCount = s.cplCount := rfl
@[simp] theorem regWrite_cplWait (k : RegKind) (i v : Nat) : (regWrite k i v s).cplWait = s.cplWait := rfl
@[simp] theorem regWrite_ringHeld (k : RegKind) (i v : Nat) : (regWrite k i v s).ringHeld = s.ringHeld := rfl
@[simp] theorem regWrite_ibis (k : RegKind) (i v : Nat) : (regWrite k i v s).ibis = s.ibis := rfl
@[simp] theorem regWrite_invCtr (k : RegKind) (i v : Nat) : (regWrite k i v s).invCtr = s.invCtr := rfl
@[simp] theorem regWrite_ringSeen (k : RegKind) (i v : Nat) : (regWrite k i v s).ringSeen = s.ringSeen := rfl
@[simp] theorem regWrite_freePg (k : RegKind) (i v : Nat) : (regWrite k i v s).freePg = s.freePg := rfl
@[simp] theorem regWrite_freeTbl (k : RegKind) (i v : Nat) : (regWrite k i v s).freeTbl = s.freeTbl := rfl
@[simp] theorem regWrite_train (k : RegKind) (i v : Nat) : (regWrite k i v s).train = s.train := rfl
@[simp] theorem regWrite_serve (k : RegKind) (i v : Nat) : (regWrite k i v s).serve = s.serve := rfl
@[simp] theorem regWrite_observed (k : RegKind) (i v : Nat) : (regWrite k i v s).observed = s.observed := rfl
@[simp] theorem regWrite_unitEvs (k : RegKind) (i v : Nat) : (regWrite k i v s).unitEvs = s.unitEvs := rfl
@[simp] theorem regWrite_stale (k : RegKind) (i v : Nat) : (regWrite k i v s).stale = s.stale := rfl
@[simp] theorem regWrite_outOfSvc (k : RegKind) (i v : Nat) : (regWrite k i v s).outOfSvc = s.outOfSvc := rfl
@[simp] theorem regWrite_katLast (k : RegKind) (i v : Nat) : (regWrite k i v s).katLast = s.katLast := rfl
@[simp] theorem regWrite_katOn (k : RegKind) (i v : Nat) : (regWrite k i v s).katOn = s.katOn := rfl
@[simp] theorem regWrite_disagree (k : RegKind) (i v : Nat) : (regWrite k i v s).disagree = s.disagree := rfl
@[simp] theorem regWrite_replacing (k : RegKind) (i v : Nat) : (regWrite k i v s).replacing = s.replacing := rfl
@[simp] theorem regWrite_histPos (k : RegKind) (i v : Nat) : (regWrite k i v s).histPos = s.histPos := rfl
@[simp] theorem regWrite_histSeen (k : RegKind) (i v : Nat) : (regWrite k i v s).histSeen = s.histSeen := rfl
@[simp] theorem regWrite_histHour (k : RegKind) (i v : Nat) : (regWrite k i v s).histHour = s.histHour := rfl
@[simp] theorem regWrite_histWait (k : RegKind) (i v : Nat) : (regWrite k i v s).histWait = s.histWait := rfl
@[simp] theorem regWrite_monitors (k : RegKind) (i v : Nat) : (regWrite k i v s).monitors = s.monitors := rfl
@[simp] theorem regWrite_monTest (k : RegKind) (i v : Nat) : (regWrite k i v s).monTest = s.monTest := rfl
@[simp] theorem regWrite_landTest (k : RegKind) (i v : Nat) : (regWrite k i v s).landTest = s.landTest := rfl
@[simp] theorem regWrite_pw (k : RegKind) (i v : Nat) : (regWrite k i v s).pw = s.pw := rfl
@[simp] theorem regWrite_procs (k : RegKind) (i v : Nat) : (regWrite k i v s).procs = s.procs := rfl
@[simp] theorem regWrite_update (k : RegKind) (i v : Nat) : (regWrite k i v s).update = s.update := rfl
@[simp] theorem regWrite_nonces (k : RegKind) (i v : Nat) : (regWrite k i v s).nonces = s.nonces := rfl
@[simp] theorem regWrite_keyStore (k : RegKind) (i v : Nat) : (regWrite k i v s).keyStore = s.keyStore := rfl
@[simp] theorem regWrite_clearing (k : RegKind) (i v : Nat) : (regWrite k i v s).clearing = s.clearing := rfl
@[simp] theorem regWrite_halfPh (k : RegKind) (i v : Nat) : (regWrite k i v s).halfPh = s.halfPh := rfl
@[simp] theorem regWrite_losses (k : RegKind) (i v : Nat) : (regWrite k i v s).losses = s.losses := rfl

/-! ### wr -/

@[simp] theorem wr_pending (f : Fld) (i v : Nat) : (wr f i v s).pending = s.pending := rfl
@[simp] theorem wr_time (f : Fld) (i v : Nat) : (wr f i v s).time = s.time := rfl
@[simp] theorem wr_pwrOk (f : Fld) (i v : Nat) : (wr f i v s).pwrOk = s.pwrOk := rfl
@[simp] theorem wr_pkgRstN (f : Fld) (i v : Nat) : (wr f i v s).pkgRstN = s.pkgRstN := rfl
@[simp] theorem wr_life (f : Fld) (i v : Nat) : (wr f i v s).life = s.life := rfl
@[simp] theorem wr_lands (f : Fld) (i v : Nat) : (wr f i v s).lands = s.lands := rfl
@[simp] theorem wr_fuses (f : Fld) (i v : Nat) : (wr f i v s).fuses = s.fuses := rfl
@[simp] theorem wr_mem (f : Fld) (i v : Nat) : (wr f i v s).mem = s.mem := rfl
@[simp] theorem wr_flash (f : Fld) (i v : Nat) : (wr f i v s).flash = s.flash := rfl
@[simp] theorem wr_logMem (f : Fld) (i v : Nat) : (wr f i v s).logMem = s.logMem := rfl
@[simp] theorem wr_cores (f : Fld) (i v : Nat) : (wr f i v s).cores = s.cores := rfl
@[simp] theorem wr_groves (f : Fld) (i v : Nat) : (wr f i v s).groves = s.groves := rfl
@[simp] theorem wr_ctxs (f : Fld) (i v : Nat) : (wr f i v s).ctxs = s.ctxs := rfl
@[simp] theorem wr_cutNotes (f : Fld) (i v : Nat) : (wr f i v s).cutNotes = s.cutNotes := rfl
@[simp] theorem wr_ride (f : Fld) (i v : Nat) : (wr f i v s).ride = s.ride := rfl
@[simp] theorem wr_xfers (f : Fld) (i v : Nat) : (wr f i v s).xfers = s.xfers := rfl
@[simp] theorem wr_rideDone (f : Fld) (i v : Nat) : (wr f i v s).rideDone = s.rideDone := rfl
@[simp] theorem wr_rideNext (f : Fld) (i v : Nat) : (wr f i v s).rideNext = s.rideNext := rfl
@[simp] theorem wr_fadds (f : Fld) (i v : Nat) : (wr f i v s).fadds = s.fadds := rfl
@[simp] theorem wr_satAt (f : Fld) (i v : Nat) : (wr f i v s).satAt = s.satAt := rfl
@[simp] theorem wr_watches (f : Fld) (i v : Nat) : (wr f i v s).watches = s.watches := rfl
@[simp] theorem wr_drops (f : Fld) (i v : Nat) : (wr f i v s).drops = s.drops := rfl
@[simp] theorem wr_restores (f : Fld) (i v : Nat) : (wr f i v s).restores = s.restores := rfl
@[simp] theorem wr_invWaits (f : Fld) (i v : Nat) : (wr f i v s).invWaits = s.invWaits := rfl
@[simp] theorem wr_poison (f : Fld) (i v : Nat) : (wr f i v s).poison = s.poison := rfl
@[simp] theorem wr_logSmall (f : Fld) (i v : Nat) : (wr f i v s).logSmall = s.logSmall := rfl
@[simp] theorem wr_logFull (f : Fld) (i v : Nat) : (wr f i v s).logFull = s.logFull := rfl
@[simp] theorem wr_msix (f : Fld) (i v : Nat) : (wr f i v s).msix = s.msix := rfl
@[simp] theorem wr_reports (f : Fld) (i v : Nat) : (wr f i v s).reports = s.reports := rfl
@[simp] theorem wr_sctx (f : Fld) (i v : Nat) : (wr f i v s).sctx = s.sctx := rfl
@[simp] theorem wr_accs (f : Fld) (i v : Nat) : (wr f i v s).accs = s.accs := rfl
@[simp] theorem wr_dies (f : Fld) (i v : Nat) : (wr f i v s).dies = s.dies := rfl
@[simp] theorem wr_stkReqs (f : Fld) (i v : Nat) : (wr f i v s).stkReqs = s.stkReqs := rfl
@[simp] theorem wr_ports (f : Fld) (i v : Nat) : (wr f i v s).ports = s.ports := rfl
@[simp] theorem wr_arrived (f : Fld) (i v : Nat) : (wr f i v s).arrived = s.arrived := rfl
@[simp] theorem wr_txns (f : Fld) (i v : Nat) : (wr f i v s).txns = s.txns := rfl
@[simp] theorem wr_nextTxn (f : Fld) (i v : Nat) : (wr f i v s).nextTxn = s.nextTxn := rfl
@[simp] theorem wr_inject (f : Fld) (i v : Nat) : (wr f i v s).inject = s.inject := rfl
@[simp] theorem wr_peerLost (f : Fld) (i v : Nat) : (wr f i v s).peerLost = s.peerLost := rfl
@[simp] theorem wr_aborted (f : Fld) (i v : Nat) : (wr f i v s).aborted = s.aborted := rfl
@[simp] theorem wr_epochTop (f : Fld) (i v : Nat) : (wr f i v s).epochTop = s.epochTop := rfl
@[simp] theorem wr_rdma (f : Fld) (i v : Nat) : (wr f i v s).rdma = s.rdma := rfl
@[simp] theorem wr_rdmaOut (f : Fld) (i v : Nat) : (wr f i v s).rdmaOut = s.rdmaOut := rfl
@[simp] theorem wr_nextOp (f : Fld) (i v : Nat) : (wr f i v s).nextOp = s.nextOp := rfl
@[simp] theorem wr_qps (f : Fld) (i v : Nat) : (wr f i v s).qps = s.qps := rfl
@[simp] theorem wr_replies (f : Fld) (i v : Nat) : (wr f i v s).replies = s.replies := rfl
@[simp] theorem wr_mqpStage (f : Fld) (i v : Nat) : (wr f i v s).mqpStage = s.mqpStage := rfl
@[simp] theorem wr_htStage (f : Fld) (i v : Nat) : (wr f i v s).htStage = s.htStage := rfl
@[simp] theorem wr_iws (f : Fld) (i v : Nat) : (wr f i v s).iws = s.iws := rfl
@[simp] theorem wr_inHeld (f : Fld) (i v : Nat) : (wr f i v s).inHeld = s.inHeld := rfl
@[simp] theorem wr_spUp (f : Fld) (i v : Nat) : (wr f i v s).spUp = s.spUp := rfl
@[simp] theorem wr_cpUp (f : Fld) (i v : Nat) : (wr f i v s).cpUp = s.cpUp := rfl
@[simp] theorem wr_i3cAddr (f : Fld) (i v : Nat) : (wr f i v s).i3cAddr = s.i3cAddr := rfl
@[simp] theorem wr_waitJobs (f : Fld) (i v : Nat) : (wr f i v s).waitJobs = s.waitJobs := rfl
@[simp] theorem wr_job (f : Fld) (i v : Nat) : (wr f i v s).job = s.job := rfl
@[simp] theorem wr_hold (f : Fld) (i v : Nat) : (wr f i v s).hold = s.hold := rfl
@[simp] theorem wr_cplCount (f : Fld) (i v : Nat) : (wr f i v s).cplCount = s.cplCount := rfl
@[simp] theorem wr_cplWait (f : Fld) (i v : Nat) : (wr f i v s).cplWait = s.cplWait := rfl
@[simp] theorem wr_ringHeld (f : Fld) (i v : Nat) : (wr f i v s).ringHeld = s.ringHeld := rfl
@[simp] theorem wr_ibis (f : Fld) (i v : Nat) : (wr f i v s).ibis = s.ibis := rfl
@[simp] theorem wr_invCtr (f : Fld) (i v : Nat) : (wr f i v s).invCtr = s.invCtr := rfl
@[simp] theorem wr_ringSeen (f : Fld) (i v : Nat) : (wr f i v s).ringSeen = s.ringSeen := rfl
@[simp] theorem wr_freePg (f : Fld) (i v : Nat) : (wr f i v s).freePg = s.freePg := rfl
@[simp] theorem wr_freeTbl (f : Fld) (i v : Nat) : (wr f i v s).freeTbl = s.freeTbl := rfl
@[simp] theorem wr_train (f : Fld) (i v : Nat) : (wr f i v s).train = s.train := rfl
@[simp] theorem wr_serve (f : Fld) (i v : Nat) : (wr f i v s).serve = s.serve := rfl
@[simp] theorem wr_observed (f : Fld) (i v : Nat) : (wr f i v s).observed = s.observed := rfl
@[simp] theorem wr_unitEvs (f : Fld) (i v : Nat) : (wr f i v s).unitEvs = s.unitEvs := rfl
@[simp] theorem wr_stale (f : Fld) (i v : Nat) : (wr f i v s).stale = s.stale := rfl
@[simp] theorem wr_outOfSvc (f : Fld) (i v : Nat) : (wr f i v s).outOfSvc = s.outOfSvc := rfl
@[simp] theorem wr_katLast (f : Fld) (i v : Nat) : (wr f i v s).katLast = s.katLast := rfl
@[simp] theorem wr_katOn (f : Fld) (i v : Nat) : (wr f i v s).katOn = s.katOn := rfl
@[simp] theorem wr_disagree (f : Fld) (i v : Nat) : (wr f i v s).disagree = s.disagree := rfl
@[simp] theorem wr_replacing (f : Fld) (i v : Nat) : (wr f i v s).replacing = s.replacing := rfl
@[simp] theorem wr_histPos (f : Fld) (i v : Nat) : (wr f i v s).histPos = s.histPos := rfl
@[simp] theorem wr_histSeen (f : Fld) (i v : Nat) : (wr f i v s).histSeen = s.histSeen := rfl
@[simp] theorem wr_histHour (f : Fld) (i v : Nat) : (wr f i v s).histHour = s.histHour := rfl
@[simp] theorem wr_histWait (f : Fld) (i v : Nat) : (wr f i v s).histWait = s.histWait := rfl
@[simp] theorem wr_monitors (f : Fld) (i v : Nat) : (wr f i v s).monitors = s.monitors := rfl
@[simp] theorem wr_monTest (f : Fld) (i v : Nat) : (wr f i v s).monTest = s.monTest := rfl
@[simp] theorem wr_landTest (f : Fld) (i v : Nat) : (wr f i v s).landTest = s.landTest := rfl
@[simp] theorem wr_pw (f : Fld) (i v : Nat) : (wr f i v s).pw = s.pw := rfl
@[simp] theorem wr_procs (f : Fld) (i v : Nat) : (wr f i v s).procs = s.procs := rfl
@[simp] theorem wr_update (f : Fld) (i v : Nat) : (wr f i v s).update = s.update := rfl
@[simp] theorem wr_nonces (f : Fld) (i v : Nat) : (wr f i v s).nonces = s.nonces := rfl
@[simp] theorem wr_keyStore (f : Fld) (i v : Nat) : (wr f i v s).keyStore = s.keyStore := rfl
@[simp] theorem wr_clearing (f : Fld) (i v : Nat) : (wr f i v s).clearing = s.clearing := rfl
@[simp] theorem wr_halfPh (f : Fld) (i v : Nat) : (wr f i v s).halfPh = s.halfPh := rfl
@[simp] theorem wr_losses (f : Fld) (i v : Nat) : (wr f i v s).losses = s.losses := rfl

/-! ### bump -/

@[simp] theorem bump_pending (f : Fld) (i n : Nat) : (bump f i n s).pending = s.pending := rfl
@[simp] theorem bump_time (f : Fld) (i n : Nat) : (bump f i n s).time = s.time := rfl
@[simp] theorem bump_pwrOk (f : Fld) (i n : Nat) : (bump f i n s).pwrOk = s.pwrOk := rfl
@[simp] theorem bump_pkgRstN (f : Fld) (i n : Nat) : (bump f i n s).pkgRstN = s.pkgRstN := rfl
@[simp] theorem bump_life (f : Fld) (i n : Nat) : (bump f i n s).life = s.life := rfl
@[simp] theorem bump_lands (f : Fld) (i n : Nat) : (bump f i n s).lands = s.lands := rfl
@[simp] theorem bump_fuses (f : Fld) (i n : Nat) : (bump f i n s).fuses = s.fuses := rfl
@[simp] theorem bump_mem (f : Fld) (i n : Nat) : (bump f i n s).mem = s.mem := rfl
@[simp] theorem bump_flash (f : Fld) (i n : Nat) : (bump f i n s).flash = s.flash := rfl
@[simp] theorem bump_logMem (f : Fld) (i n : Nat) : (bump f i n s).logMem = s.logMem := rfl
@[simp] theorem bump_cores (f : Fld) (i n : Nat) : (bump f i n s).cores = s.cores := rfl
@[simp] theorem bump_groves (f : Fld) (i n : Nat) : (bump f i n s).groves = s.groves := rfl
@[simp] theorem bump_ctxs (f : Fld) (i n : Nat) : (bump f i n s).ctxs = s.ctxs := rfl
@[simp] theorem bump_cutNotes (f : Fld) (i n : Nat) : (bump f i n s).cutNotes = s.cutNotes := rfl
@[simp] theorem bump_ride (f : Fld) (i n : Nat) : (bump f i n s).ride = s.ride := rfl
@[simp] theorem bump_xfers (f : Fld) (i n : Nat) : (bump f i n s).xfers = s.xfers := rfl
@[simp] theorem bump_rideDone (f : Fld) (i n : Nat) : (bump f i n s).rideDone = s.rideDone := rfl
@[simp] theorem bump_rideNext (f : Fld) (i n : Nat) : (bump f i n s).rideNext = s.rideNext := rfl
@[simp] theorem bump_fadds (f : Fld) (i n : Nat) : (bump f i n s).fadds = s.fadds := rfl
@[simp] theorem bump_satAt (f : Fld) (i n : Nat) : (bump f i n s).satAt = s.satAt := rfl
@[simp] theorem bump_watches (f : Fld) (i n : Nat) : (bump f i n s).watches = s.watches := rfl
@[simp] theorem bump_drops (f : Fld) (i n : Nat) : (bump f i n s).drops = s.drops := rfl
@[simp] theorem bump_restores (f : Fld) (i n : Nat) : (bump f i n s).restores = s.restores := rfl
@[simp] theorem bump_invWaits (f : Fld) (i n : Nat) : (bump f i n s).invWaits = s.invWaits := rfl
@[simp] theorem bump_poison (f : Fld) (i n : Nat) : (bump f i n s).poison = s.poison := rfl
@[simp] theorem bump_logSmall (f : Fld) (i n : Nat) : (bump f i n s).logSmall = s.logSmall := rfl
@[simp] theorem bump_logFull (f : Fld) (i n : Nat) : (bump f i n s).logFull = s.logFull := rfl
@[simp] theorem bump_msix (f : Fld) (i n : Nat) : (bump f i n s).msix = s.msix := rfl
@[simp] theorem bump_reports (f : Fld) (i n : Nat) : (bump f i n s).reports = s.reports := rfl
@[simp] theorem bump_sctx (f : Fld) (i n : Nat) : (bump f i n s).sctx = s.sctx := rfl
@[simp] theorem bump_accs (f : Fld) (i n : Nat) : (bump f i n s).accs = s.accs := rfl
@[simp] theorem bump_dies (f : Fld) (i n : Nat) : (bump f i n s).dies = s.dies := rfl
@[simp] theorem bump_stkReqs (f : Fld) (i n : Nat) : (bump f i n s).stkReqs = s.stkReqs := rfl
@[simp] theorem bump_ports (f : Fld) (i n : Nat) : (bump f i n s).ports = s.ports := rfl
@[simp] theorem bump_arrived (f : Fld) (i n : Nat) : (bump f i n s).arrived = s.arrived := rfl
@[simp] theorem bump_txns (f : Fld) (i n : Nat) : (bump f i n s).txns = s.txns := rfl
@[simp] theorem bump_nextTxn (f : Fld) (i n : Nat) : (bump f i n s).nextTxn = s.nextTxn := rfl
@[simp] theorem bump_inject (f : Fld) (i n : Nat) : (bump f i n s).inject = s.inject := rfl
@[simp] theorem bump_peerLost (f : Fld) (i n : Nat) : (bump f i n s).peerLost = s.peerLost := rfl
@[simp] theorem bump_aborted (f : Fld) (i n : Nat) : (bump f i n s).aborted = s.aborted := rfl
@[simp] theorem bump_epochTop (f : Fld) (i n : Nat) : (bump f i n s).epochTop = s.epochTop := rfl
@[simp] theorem bump_rdma (f : Fld) (i n : Nat) : (bump f i n s).rdma = s.rdma := rfl
@[simp] theorem bump_rdmaOut (f : Fld) (i n : Nat) : (bump f i n s).rdmaOut = s.rdmaOut := rfl
@[simp] theorem bump_nextOp (f : Fld) (i n : Nat) : (bump f i n s).nextOp = s.nextOp := rfl
@[simp] theorem bump_qps (f : Fld) (i n : Nat) : (bump f i n s).qps = s.qps := rfl
@[simp] theorem bump_replies (f : Fld) (i n : Nat) : (bump f i n s).replies = s.replies := rfl
@[simp] theorem bump_mqpStage (f : Fld) (i n : Nat) : (bump f i n s).mqpStage = s.mqpStage := rfl
@[simp] theorem bump_htStage (f : Fld) (i n : Nat) : (bump f i n s).htStage = s.htStage := rfl
@[simp] theorem bump_iws (f : Fld) (i n : Nat) : (bump f i n s).iws = s.iws := rfl
@[simp] theorem bump_inHeld (f : Fld) (i n : Nat) : (bump f i n s).inHeld = s.inHeld := rfl
@[simp] theorem bump_spUp (f : Fld) (i n : Nat) : (bump f i n s).spUp = s.spUp := rfl
@[simp] theorem bump_cpUp (f : Fld) (i n : Nat) : (bump f i n s).cpUp = s.cpUp := rfl
@[simp] theorem bump_i3cAddr (f : Fld) (i n : Nat) : (bump f i n s).i3cAddr = s.i3cAddr := rfl
@[simp] theorem bump_waitJobs (f : Fld) (i n : Nat) : (bump f i n s).waitJobs = s.waitJobs := rfl
@[simp] theorem bump_job (f : Fld) (i n : Nat) : (bump f i n s).job = s.job := rfl
@[simp] theorem bump_hold (f : Fld) (i n : Nat) : (bump f i n s).hold = s.hold := rfl
@[simp] theorem bump_cplCount (f : Fld) (i n : Nat) : (bump f i n s).cplCount = s.cplCount := rfl
@[simp] theorem bump_cplWait (f : Fld) (i n : Nat) : (bump f i n s).cplWait = s.cplWait := rfl
@[simp] theorem bump_ringHeld (f : Fld) (i n : Nat) : (bump f i n s).ringHeld = s.ringHeld := rfl
@[simp] theorem bump_ibis (f : Fld) (i n : Nat) : (bump f i n s).ibis = s.ibis := rfl
@[simp] theorem bump_invCtr (f : Fld) (i n : Nat) : (bump f i n s).invCtr = s.invCtr := rfl
@[simp] theorem bump_ringSeen (f : Fld) (i n : Nat) : (bump f i n s).ringSeen = s.ringSeen := rfl
@[simp] theorem bump_freePg (f : Fld) (i n : Nat) : (bump f i n s).freePg = s.freePg := rfl
@[simp] theorem bump_freeTbl (f : Fld) (i n : Nat) : (bump f i n s).freeTbl = s.freeTbl := rfl
@[simp] theorem bump_train (f : Fld) (i n : Nat) : (bump f i n s).train = s.train := rfl
@[simp] theorem bump_serve (f : Fld) (i n : Nat) : (bump f i n s).serve = s.serve := rfl
@[simp] theorem bump_observed (f : Fld) (i n : Nat) : (bump f i n s).observed = s.observed := rfl
@[simp] theorem bump_unitEvs (f : Fld) (i n : Nat) : (bump f i n s).unitEvs = s.unitEvs := rfl
@[simp] theorem bump_stale (f : Fld) (i n : Nat) : (bump f i n s).stale = s.stale := rfl
@[simp] theorem bump_outOfSvc (f : Fld) (i n : Nat) : (bump f i n s).outOfSvc = s.outOfSvc := rfl
@[simp] theorem bump_katLast (f : Fld) (i n : Nat) : (bump f i n s).katLast = s.katLast := rfl
@[simp] theorem bump_katOn (f : Fld) (i n : Nat) : (bump f i n s).katOn = s.katOn := rfl
@[simp] theorem bump_disagree (f : Fld) (i n : Nat) : (bump f i n s).disagree = s.disagree := rfl
@[simp] theorem bump_replacing (f : Fld) (i n : Nat) : (bump f i n s).replacing = s.replacing := rfl
@[simp] theorem bump_histPos (f : Fld) (i n : Nat) : (bump f i n s).histPos = s.histPos := rfl
@[simp] theorem bump_histSeen (f : Fld) (i n : Nat) : (bump f i n s).histSeen = s.histSeen := rfl
@[simp] theorem bump_histHour (f : Fld) (i n : Nat) : (bump f i n s).histHour = s.histHour := rfl
@[simp] theorem bump_histWait (f : Fld) (i n : Nat) : (bump f i n s).histWait = s.histWait := rfl
@[simp] theorem bump_monitors (f : Fld) (i n : Nat) : (bump f i n s).monitors = s.monitors := rfl
@[simp] theorem bump_monTest (f : Fld) (i n : Nat) : (bump f i n s).monTest = s.monTest := rfl
@[simp] theorem bump_landTest (f : Fld) (i n : Nat) : (bump f i n s).landTest = s.landTest := rfl
@[simp] theorem bump_pw (f : Fld) (i n : Nat) : (bump f i n s).pw = s.pw := rfl
@[simp] theorem bump_procs (f : Fld) (i n : Nat) : (bump f i n s).procs = s.procs := rfl
@[simp] theorem bump_update (f : Fld) (i n : Nat) : (bump f i n s).update = s.update := rfl
@[simp] theorem bump_nonces (f : Fld) (i n : Nat) : (bump f i n s).nonces = s.nonces := rfl
@[simp] theorem bump_keyStore (f : Fld) (i n : Nat) : (bump f i n s).keyStore = s.keyStore := rfl
@[simp] theorem bump_clearing (f : Fld) (i n : Nat) : (bump f i n s).clearing = s.clearing := rfl
@[simp] theorem bump_halfPh (f : Fld) (i n : Nat) : (bump f i n s).halfPh = s.halfPh := rfl
@[simp] theorem bump_losses (f : Fld) (i n : Nat) : (bump f i n s).losses = s.losses := rfl

/-! ### bumpWrap -/

@[simp] theorem bumpWrap_pending (f : Fld) (i n : Nat) : (bumpWrap f i n s).pending = s.pending := rfl
@[simp] theorem bumpWrap_time (f : Fld) (i n : Nat) : (bumpWrap f i n s).time = s.time := rfl
@[simp] theorem bumpWrap_pwrOk (f : Fld) (i n : Nat) : (bumpWrap f i n s).pwrOk = s.pwrOk := rfl
@[simp] theorem bumpWrap_pkgRstN (f : Fld) (i n : Nat) : (bumpWrap f i n s).pkgRstN = s.pkgRstN := rfl
@[simp] theorem bumpWrap_life (f : Fld) (i n : Nat) : (bumpWrap f i n s).life = s.life := rfl
@[simp] theorem bumpWrap_lands (f : Fld) (i n : Nat) : (bumpWrap f i n s).lands = s.lands := rfl
@[simp] theorem bumpWrap_fuses (f : Fld) (i n : Nat) : (bumpWrap f i n s).fuses = s.fuses := rfl
@[simp] theorem bumpWrap_mem (f : Fld) (i n : Nat) : (bumpWrap f i n s).mem = s.mem := rfl
@[simp] theorem bumpWrap_flash (f : Fld) (i n : Nat) : (bumpWrap f i n s).flash = s.flash := rfl
@[simp] theorem bumpWrap_logMem (f : Fld) (i n : Nat) : (bumpWrap f i n s).logMem = s.logMem := rfl
@[simp] theorem bumpWrap_cores (f : Fld) (i n : Nat) : (bumpWrap f i n s).cores = s.cores := rfl
@[simp] theorem bumpWrap_groves (f : Fld) (i n : Nat) : (bumpWrap f i n s).groves = s.groves := rfl
@[simp] theorem bumpWrap_ctxs (f : Fld) (i n : Nat) : (bumpWrap f i n s).ctxs = s.ctxs := rfl
@[simp] theorem bumpWrap_cutNotes (f : Fld) (i n : Nat) : (bumpWrap f i n s).cutNotes = s.cutNotes := rfl
@[simp] theorem bumpWrap_ride (f : Fld) (i n : Nat) : (bumpWrap f i n s).ride = s.ride := rfl
@[simp] theorem bumpWrap_xfers (f : Fld) (i n : Nat) : (bumpWrap f i n s).xfers = s.xfers := rfl
@[simp] theorem bumpWrap_rideDone (f : Fld) (i n : Nat) : (bumpWrap f i n s).rideDone = s.rideDone := rfl
@[simp] theorem bumpWrap_rideNext (f : Fld) (i n : Nat) : (bumpWrap f i n s).rideNext = s.rideNext := rfl
@[simp] theorem bumpWrap_fadds (f : Fld) (i n : Nat) : (bumpWrap f i n s).fadds = s.fadds := rfl
@[simp] theorem bumpWrap_satAt (f : Fld) (i n : Nat) : (bumpWrap f i n s).satAt = s.satAt := rfl
@[simp] theorem bumpWrap_watches (f : Fld) (i n : Nat) : (bumpWrap f i n s).watches = s.watches := rfl
@[simp] theorem bumpWrap_drops (f : Fld) (i n : Nat) : (bumpWrap f i n s).drops = s.drops := rfl
@[simp] theorem bumpWrap_restores (f : Fld) (i n : Nat) : (bumpWrap f i n s).restores = s.restores := rfl
@[simp] theorem bumpWrap_invWaits (f : Fld) (i n : Nat) : (bumpWrap f i n s).invWaits = s.invWaits := rfl
@[simp] theorem bumpWrap_poison (f : Fld) (i n : Nat) : (bumpWrap f i n s).poison = s.poison := rfl
@[simp] theorem bumpWrap_logSmall (f : Fld) (i n : Nat) : (bumpWrap f i n s).logSmall = s.logSmall := rfl
@[simp] theorem bumpWrap_logFull (f : Fld) (i n : Nat) : (bumpWrap f i n s).logFull = s.logFull := rfl
@[simp] theorem bumpWrap_msix (f : Fld) (i n : Nat) : (bumpWrap f i n s).msix = s.msix := rfl
@[simp] theorem bumpWrap_reports (f : Fld) (i n : Nat) : (bumpWrap f i n s).reports = s.reports := rfl
@[simp] theorem bumpWrap_sctx (f : Fld) (i n : Nat) : (bumpWrap f i n s).sctx = s.sctx := rfl
@[simp] theorem bumpWrap_accs (f : Fld) (i n : Nat) : (bumpWrap f i n s).accs = s.accs := rfl
@[simp] theorem bumpWrap_dies (f : Fld) (i n : Nat) : (bumpWrap f i n s).dies = s.dies := rfl
@[simp] theorem bumpWrap_stkReqs (f : Fld) (i n : Nat) : (bumpWrap f i n s).stkReqs = s.stkReqs := rfl
@[simp] theorem bumpWrap_ports (f : Fld) (i n : Nat) : (bumpWrap f i n s).ports = s.ports := rfl
@[simp] theorem bumpWrap_arrived (f : Fld) (i n : Nat) : (bumpWrap f i n s).arrived = s.arrived := rfl
@[simp] theorem bumpWrap_txns (f : Fld) (i n : Nat) : (bumpWrap f i n s).txns = s.txns := rfl
@[simp] theorem bumpWrap_nextTxn (f : Fld) (i n : Nat) : (bumpWrap f i n s).nextTxn = s.nextTxn := rfl
@[simp] theorem bumpWrap_inject (f : Fld) (i n : Nat) : (bumpWrap f i n s).inject = s.inject := rfl
@[simp] theorem bumpWrap_peerLost (f : Fld) (i n : Nat) : (bumpWrap f i n s).peerLost = s.peerLost := rfl
@[simp] theorem bumpWrap_aborted (f : Fld) (i n : Nat) : (bumpWrap f i n s).aborted = s.aborted := rfl
@[simp] theorem bumpWrap_epochTop (f : Fld) (i n : Nat) : (bumpWrap f i n s).epochTop = s.epochTop := rfl
@[simp] theorem bumpWrap_rdma (f : Fld) (i n : Nat) : (bumpWrap f i n s).rdma = s.rdma := rfl
@[simp] theorem bumpWrap_rdmaOut (f : Fld) (i n : Nat) : (bumpWrap f i n s).rdmaOut = s.rdmaOut := rfl
@[simp] theorem bumpWrap_nextOp (f : Fld) (i n : Nat) : (bumpWrap f i n s).nextOp = s.nextOp := rfl
@[simp] theorem bumpWrap_qps (f : Fld) (i n : Nat) : (bumpWrap f i n s).qps = s.qps := rfl
@[simp] theorem bumpWrap_replies (f : Fld) (i n : Nat) : (bumpWrap f i n s).replies = s.replies := rfl
@[simp] theorem bumpWrap_mqpStage (f : Fld) (i n : Nat) : (bumpWrap f i n s).mqpStage = s.mqpStage := rfl
@[simp] theorem bumpWrap_htStage (f : Fld) (i n : Nat) : (bumpWrap f i n s).htStage = s.htStage := rfl
@[simp] theorem bumpWrap_iws (f : Fld) (i n : Nat) : (bumpWrap f i n s).iws = s.iws := rfl
@[simp] theorem bumpWrap_inHeld (f : Fld) (i n : Nat) : (bumpWrap f i n s).inHeld = s.inHeld := rfl
@[simp] theorem bumpWrap_spUp (f : Fld) (i n : Nat) : (bumpWrap f i n s).spUp = s.spUp := rfl
@[simp] theorem bumpWrap_cpUp (f : Fld) (i n : Nat) : (bumpWrap f i n s).cpUp = s.cpUp := rfl
@[simp] theorem bumpWrap_i3cAddr (f : Fld) (i n : Nat) : (bumpWrap f i n s).i3cAddr = s.i3cAddr := rfl
@[simp] theorem bumpWrap_waitJobs (f : Fld) (i n : Nat) : (bumpWrap f i n s).waitJobs = s.waitJobs := rfl
@[simp] theorem bumpWrap_job (f : Fld) (i n : Nat) : (bumpWrap f i n s).job = s.job := rfl
@[simp] theorem bumpWrap_hold (f : Fld) (i n : Nat) : (bumpWrap f i n s).hold = s.hold := rfl
@[simp] theorem bumpWrap_cplCount (f : Fld) (i n : Nat) : (bumpWrap f i n s).cplCount = s.cplCount := rfl
@[simp] theorem bumpWrap_cplWait (f : Fld) (i n : Nat) : (bumpWrap f i n s).cplWait = s.cplWait := rfl
@[simp] theorem bumpWrap_ringHeld (f : Fld) (i n : Nat) : (bumpWrap f i n s).ringHeld = s.ringHeld := rfl
@[simp] theorem bumpWrap_ibis (f : Fld) (i n : Nat) : (bumpWrap f i n s).ibis = s.ibis := rfl
@[simp] theorem bumpWrap_invCtr (f : Fld) (i n : Nat) : (bumpWrap f i n s).invCtr = s.invCtr := rfl
@[simp] theorem bumpWrap_ringSeen (f : Fld) (i n : Nat) : (bumpWrap f i n s).ringSeen = s.ringSeen := rfl
@[simp] theorem bumpWrap_freePg (f : Fld) (i n : Nat) : (bumpWrap f i n s).freePg = s.freePg := rfl
@[simp] theorem bumpWrap_freeTbl (f : Fld) (i n : Nat) : (bumpWrap f i n s).freeTbl = s.freeTbl := rfl
@[simp] theorem bumpWrap_train (f : Fld) (i n : Nat) : (bumpWrap f i n s).train = s.train := rfl
@[simp] theorem bumpWrap_serve (f : Fld) (i n : Nat) : (bumpWrap f i n s).serve = s.serve := rfl
@[simp] theorem bumpWrap_observed (f : Fld) (i n : Nat) : (bumpWrap f i n s).observed = s.observed := rfl
@[simp] theorem bumpWrap_unitEvs (f : Fld) (i n : Nat) : (bumpWrap f i n s).unitEvs = s.unitEvs := rfl
@[simp] theorem bumpWrap_stale (f : Fld) (i n : Nat) : (bumpWrap f i n s).stale = s.stale := rfl
@[simp] theorem bumpWrap_outOfSvc (f : Fld) (i n : Nat) : (bumpWrap f i n s).outOfSvc = s.outOfSvc := rfl
@[simp] theorem bumpWrap_katLast (f : Fld) (i n : Nat) : (bumpWrap f i n s).katLast = s.katLast := rfl
@[simp] theorem bumpWrap_katOn (f : Fld) (i n : Nat) : (bumpWrap f i n s).katOn = s.katOn := rfl
@[simp] theorem bumpWrap_disagree (f : Fld) (i n : Nat) : (bumpWrap f i n s).disagree = s.disagree := rfl
@[simp] theorem bumpWrap_replacing (f : Fld) (i n : Nat) : (bumpWrap f i n s).replacing = s.replacing := rfl
@[simp] theorem bumpWrap_histPos (f : Fld) (i n : Nat) : (bumpWrap f i n s).histPos = s.histPos := rfl
@[simp] theorem bumpWrap_histSeen (f : Fld) (i n : Nat) : (bumpWrap f i n s).histSeen = s.histSeen := rfl
@[simp] theorem bumpWrap_histHour (f : Fld) (i n : Nat) : (bumpWrap f i n s).histHour = s.histHour := rfl
@[simp] theorem bumpWrap_histWait (f : Fld) (i n : Nat) : (bumpWrap f i n s).histWait = s.histWait := rfl
@[simp] theorem bumpWrap_monitors (f : Fld) (i n : Nat) : (bumpWrap f i n s).monitors = s.monitors := rfl
@[simp] theorem bumpWrap_monTest (f : Fld) (i n : Nat) : (bumpWrap f i n s).monTest = s.monTest := rfl
@[simp] theorem bumpWrap_landTest (f : Fld) (i n : Nat) : (bumpWrap f i n s).landTest = s.landTest := rfl
@[simp] theorem bumpWrap_pw (f : Fld) (i n : Nat) : (bumpWrap f i n s).pw = s.pw := rfl
@[simp] theorem bumpWrap_procs (f : Fld) (i n : Nat) : (bumpWrap f i n s).procs = s.procs := rfl
@[simp] theorem bumpWrap_update (f : Fld) (i n : Nat) : (bumpWrap f i n s).update = s.update := rfl
@[simp] theorem bumpWrap_nonces (f : Fld) (i n : Nat) : (bumpWrap f i n s).nonces = s.nonces := rfl
@[simp] theorem bumpWrap_keyStore (f : Fld) (i n : Nat) : (bumpWrap f i n s).keyStore = s.keyStore := rfl
@[simp] theorem bumpWrap_clearing (f : Fld) (i n : Nat) : (bumpWrap f i n s).clearing = s.clearing := rfl
@[simp] theorem bumpWrap_halfPh (f : Fld) (i n : Nat) : (bumpWrap f i n s).halfPh = s.halfPh := rfl
@[simp] theorem bumpWrap_losses (f : Fld) (i n : Nat) : (bumpWrap f i n s).losses = s.losses := rfl

/-! ### setCore -/

@[simp] theorem setCore_pending (c : Nat) (x : Core) : (setCore c x s).pending = s.pending := rfl
@[simp] theorem setCore_time (c : Nat) (x : Core) : (setCore c x s).time = s.time := rfl
@[simp] theorem setCore_pwrOk (c : Nat) (x : Core) : (setCore c x s).pwrOk = s.pwrOk := rfl
@[simp] theorem setCore_pkgRstN (c : Nat) (x : Core) : (setCore c x s).pkgRstN = s.pkgRstN := rfl
@[simp] theorem setCore_life (c : Nat) (x : Core) : (setCore c x s).life = s.life := rfl
@[simp] theorem setCore_lands (c : Nat) (x : Core) : (setCore c x s).lands = s.lands := rfl
@[simp] theorem setCore_fuses (c : Nat) (x : Core) : (setCore c x s).fuses = s.fuses := rfl
@[simp] theorem setCore_regs (c : Nat) (x : Core) : (setCore c x s).regs = s.regs := rfl
@[simp] theorem setCore_mem (c : Nat) (x : Core) : (setCore c x s).mem = s.mem := rfl
@[simp] theorem setCore_flash (c : Nat) (x : Core) : (setCore c x s).flash = s.flash := rfl
@[simp] theorem setCore_logMem (c : Nat) (x : Core) : (setCore c x s).logMem = s.logMem := rfl
@[simp] theorem setCore_groves (c : Nat) (x : Core) : (setCore c x s).groves = s.groves := rfl
@[simp] theorem setCore_ctxs (c : Nat) (x : Core) : (setCore c x s).ctxs = s.ctxs := rfl
@[simp] theorem setCore_cutNotes (c : Nat) (x : Core) : (setCore c x s).cutNotes = s.cutNotes := rfl
@[simp] theorem setCore_ride (c : Nat) (x : Core) : (setCore c x s).ride = s.ride := rfl
@[simp] theorem setCore_xfers (c : Nat) (x : Core) : (setCore c x s).xfers = s.xfers := rfl
@[simp] theorem setCore_rideDone (c : Nat) (x : Core) : (setCore c x s).rideDone = s.rideDone := rfl
@[simp] theorem setCore_rideNext (c : Nat) (x : Core) : (setCore c x s).rideNext = s.rideNext := rfl
@[simp] theorem setCore_fadds (c : Nat) (x : Core) : (setCore c x s).fadds = s.fadds := rfl
@[simp] theorem setCore_satAt (c : Nat) (x : Core) : (setCore c x s).satAt = s.satAt := rfl
@[simp] theorem setCore_watches (c : Nat) (x : Core) : (setCore c x s).watches = s.watches := rfl
@[simp] theorem setCore_drops (c : Nat) (x : Core) : (setCore c x s).drops = s.drops := rfl
@[simp] theorem setCore_restores (c : Nat) (x : Core) : (setCore c x s).restores = s.restores := rfl
@[simp] theorem setCore_invWaits (c : Nat) (x : Core) : (setCore c x s).invWaits = s.invWaits := rfl
@[simp] theorem setCore_poison (c : Nat) (x : Core) : (setCore c x s).poison = s.poison := rfl
@[simp] theorem setCore_logSmall (c : Nat) (x : Core) : (setCore c x s).logSmall = s.logSmall := rfl
@[simp] theorem setCore_logFull (c : Nat) (x : Core) : (setCore c x s).logFull = s.logFull := rfl
@[simp] theorem setCore_msix (c : Nat) (x : Core) : (setCore c x s).msix = s.msix := rfl
@[simp] theorem setCore_reports (c : Nat) (x : Core) : (setCore c x s).reports = s.reports := rfl
@[simp] theorem setCore_sctx (c : Nat) (x : Core) : (setCore c x s).sctx = s.sctx := rfl
@[simp] theorem setCore_accs (c : Nat) (x : Core) : (setCore c x s).accs = s.accs := rfl
@[simp] theorem setCore_dies (c : Nat) (x : Core) : (setCore c x s).dies = s.dies := rfl
@[simp] theorem setCore_stkReqs (c : Nat) (x : Core) : (setCore c x s).stkReqs = s.stkReqs := rfl
@[simp] theorem setCore_ports (c : Nat) (x : Core) : (setCore c x s).ports = s.ports := rfl
@[simp] theorem setCore_arrived (c : Nat) (x : Core) : (setCore c x s).arrived = s.arrived := rfl
@[simp] theorem setCore_txns (c : Nat) (x : Core) : (setCore c x s).txns = s.txns := rfl
@[simp] theorem setCore_nextTxn (c : Nat) (x : Core) : (setCore c x s).nextTxn = s.nextTxn := rfl
@[simp] theorem setCore_inject (c : Nat) (x : Core) : (setCore c x s).inject = s.inject := rfl
@[simp] theorem setCore_peerLost (c : Nat) (x : Core) : (setCore c x s).peerLost = s.peerLost := rfl
@[simp] theorem setCore_aborted (c : Nat) (x : Core) : (setCore c x s).aborted = s.aborted := rfl
@[simp] theorem setCore_epochTop (c : Nat) (x : Core) : (setCore c x s).epochTop = s.epochTop := rfl
@[simp] theorem setCore_rdma (c : Nat) (x : Core) : (setCore c x s).rdma = s.rdma := rfl
@[simp] theorem setCore_rdmaOut (c : Nat) (x : Core) : (setCore c x s).rdmaOut = s.rdmaOut := rfl
@[simp] theorem setCore_nextOp (c : Nat) (x : Core) : (setCore c x s).nextOp = s.nextOp := rfl
@[simp] theorem setCore_qps (c : Nat) (x : Core) : (setCore c x s).qps = s.qps := rfl
@[simp] theorem setCore_replies (c : Nat) (x : Core) : (setCore c x s).replies = s.replies := rfl
@[simp] theorem setCore_mqpStage (c : Nat) (x : Core) : (setCore c x s).mqpStage = s.mqpStage := rfl
@[simp] theorem setCore_htStage (c : Nat) (x : Core) : (setCore c x s).htStage = s.htStage := rfl
@[simp] theorem setCore_iws (c : Nat) (x : Core) : (setCore c x s).iws = s.iws := rfl
@[simp] theorem setCore_inHeld (c : Nat) (x : Core) : (setCore c x s).inHeld = s.inHeld := rfl
@[simp] theorem setCore_spUp (c : Nat) (x : Core) : (setCore c x s).spUp = s.spUp := rfl
@[simp] theorem setCore_cpUp (c : Nat) (x : Core) : (setCore c x s).cpUp = s.cpUp := rfl
@[simp] theorem setCore_i3cAddr (c : Nat) (x : Core) : (setCore c x s).i3cAddr = s.i3cAddr := rfl
@[simp] theorem setCore_waitJobs (c : Nat) (x : Core) : (setCore c x s).waitJobs = s.waitJobs := rfl
@[simp] theorem setCore_job (c : Nat) (x : Core) : (setCore c x s).job = s.job := rfl
@[simp] theorem setCore_hold (c : Nat) (x : Core) : (setCore c x s).hold = s.hold := rfl
@[simp] theorem setCore_cplCount (c : Nat) (x : Core) : (setCore c x s).cplCount = s.cplCount := rfl
@[simp] theorem setCore_cplWait (c : Nat) (x : Core) : (setCore c x s).cplWait = s.cplWait := rfl
@[simp] theorem setCore_ringHeld (c : Nat) (x : Core) : (setCore c x s).ringHeld = s.ringHeld := rfl
@[simp] theorem setCore_ibis (c : Nat) (x : Core) : (setCore c x s).ibis = s.ibis := rfl
@[simp] theorem setCore_invCtr (c : Nat) (x : Core) : (setCore c x s).invCtr = s.invCtr := rfl
@[simp] theorem setCore_ringSeen (c : Nat) (x : Core) : (setCore c x s).ringSeen = s.ringSeen := rfl
@[simp] theorem setCore_freePg (c : Nat) (x : Core) : (setCore c x s).freePg = s.freePg := rfl
@[simp] theorem setCore_freeTbl (c : Nat) (x : Core) : (setCore c x s).freeTbl = s.freeTbl := rfl
@[simp] theorem setCore_train (c : Nat) (x : Core) : (setCore c x s).train = s.train := rfl
@[simp] theorem setCore_serve (c : Nat) (x : Core) : (setCore c x s).serve = s.serve := rfl
@[simp] theorem setCore_observed (c : Nat) (x : Core) : (setCore c x s).observed = s.observed := rfl
@[simp] theorem setCore_unitEvs (c : Nat) (x : Core) : (setCore c x s).unitEvs = s.unitEvs := rfl
@[simp] theorem setCore_stale (c : Nat) (x : Core) : (setCore c x s).stale = s.stale := rfl
@[simp] theorem setCore_outOfSvc (c : Nat) (x : Core) : (setCore c x s).outOfSvc = s.outOfSvc := rfl
@[simp] theorem setCore_katLast (c : Nat) (x : Core) : (setCore c x s).katLast = s.katLast := rfl
@[simp] theorem setCore_katOn (c : Nat) (x : Core) : (setCore c x s).katOn = s.katOn := rfl
@[simp] theorem setCore_disagree (c : Nat) (x : Core) : (setCore c x s).disagree = s.disagree := rfl
@[simp] theorem setCore_replacing (c : Nat) (x : Core) : (setCore c x s).replacing = s.replacing := rfl
@[simp] theorem setCore_histPos (c : Nat) (x : Core) : (setCore c x s).histPos = s.histPos := rfl
@[simp] theorem setCore_histSeen (c : Nat) (x : Core) : (setCore c x s).histSeen = s.histSeen := rfl
@[simp] theorem setCore_histHour (c : Nat) (x : Core) : (setCore c x s).histHour = s.histHour := rfl
@[simp] theorem setCore_histWait (c : Nat) (x : Core) : (setCore c x s).histWait = s.histWait := rfl
@[simp] theorem setCore_monitors (c : Nat) (x : Core) : (setCore c x s).monitors = s.monitors := rfl
@[simp] theorem setCore_monTest (c : Nat) (x : Core) : (setCore c x s).monTest = s.monTest := rfl
@[simp] theorem setCore_landTest (c : Nat) (x : Core) : (setCore c x s).landTest = s.landTest := rfl
@[simp] theorem setCore_pw (c : Nat) (x : Core) : (setCore c x s).pw = s.pw := rfl
@[simp] theorem setCore_procs (c : Nat) (x : Core) : (setCore c x s).procs = s.procs := rfl
@[simp] theorem setCore_update (c : Nat) (x : Core) : (setCore c x s).update = s.update := rfl
@[simp] theorem setCore_nonces (c : Nat) (x : Core) : (setCore c x s).nonces = s.nonces := rfl
@[simp] theorem setCore_keyStore (c : Nat) (x : Core) : (setCore c x s).keyStore = s.keyStore := rfl
@[simp] theorem setCore_clearing (c : Nat) (x : Core) : (setCore c x s).clearing = s.clearing := rfl
@[simp] theorem setCore_halfPh (c : Nat) (x : Core) : (setCore c x s).halfPh = s.halfPh := rfl
@[simp] theorem setCore_losses (c : Nat) (x : Core) : (setCore c x s).losses = s.losses := rfl

/-! ### modCore -/

@[simp] theorem modCore_pending (c : Nat) (f : Core → Core) : (modCore c f s).pending = s.pending := rfl
@[simp] theorem modCore_time (c : Nat) (f : Core → Core) : (modCore c f s).time = s.time := rfl
@[simp] theorem modCore_pwrOk (c : Nat) (f : Core → Core) : (modCore c f s).pwrOk = s.pwrOk := rfl
@[simp] theorem modCore_pkgRstN (c : Nat) (f : Core → Core) : (modCore c f s).pkgRstN = s.pkgRstN := rfl
@[simp] theorem modCore_life (c : Nat) (f : Core → Core) : (modCore c f s).life = s.life := rfl
@[simp] theorem modCore_lands (c : Nat) (f : Core → Core) : (modCore c f s).lands = s.lands := rfl
@[simp] theorem modCore_fuses (c : Nat) (f : Core → Core) : (modCore c f s).fuses = s.fuses := rfl
@[simp] theorem modCore_regs (c : Nat) (f : Core → Core) : (modCore c f s).regs = s.regs := rfl
@[simp] theorem modCore_mem (c : Nat) (f : Core → Core) : (modCore c f s).mem = s.mem := rfl
@[simp] theorem modCore_flash (c : Nat) (f : Core → Core) : (modCore c f s).flash = s.flash := rfl
@[simp] theorem modCore_logMem (c : Nat) (f : Core → Core) : (modCore c f s).logMem = s.logMem := rfl
@[simp] theorem modCore_groves (c : Nat) (f : Core → Core) : (modCore c f s).groves = s.groves := rfl
@[simp] theorem modCore_ctxs (c : Nat) (f : Core → Core) : (modCore c f s).ctxs = s.ctxs := rfl
@[simp] theorem modCore_cutNotes (c : Nat) (f : Core → Core) : (modCore c f s).cutNotes = s.cutNotes := rfl
@[simp] theorem modCore_ride (c : Nat) (f : Core → Core) : (modCore c f s).ride = s.ride := rfl
@[simp] theorem modCore_xfers (c : Nat) (f : Core → Core) : (modCore c f s).xfers = s.xfers := rfl
@[simp] theorem modCore_rideDone (c : Nat) (f : Core → Core) : (modCore c f s).rideDone = s.rideDone := rfl
@[simp] theorem modCore_rideNext (c : Nat) (f : Core → Core) : (modCore c f s).rideNext = s.rideNext := rfl
@[simp] theorem modCore_fadds (c : Nat) (f : Core → Core) : (modCore c f s).fadds = s.fadds := rfl
@[simp] theorem modCore_satAt (c : Nat) (f : Core → Core) : (modCore c f s).satAt = s.satAt := rfl
@[simp] theorem modCore_watches (c : Nat) (f : Core → Core) : (modCore c f s).watches = s.watches := rfl
@[simp] theorem modCore_drops (c : Nat) (f : Core → Core) : (modCore c f s).drops = s.drops := rfl
@[simp] theorem modCore_restores (c : Nat) (f : Core → Core) : (modCore c f s).restores = s.restores := rfl
@[simp] theorem modCore_invWaits (c : Nat) (f : Core → Core) : (modCore c f s).invWaits = s.invWaits := rfl
@[simp] theorem modCore_poison (c : Nat) (f : Core → Core) : (modCore c f s).poison = s.poison := rfl
@[simp] theorem modCore_logSmall (c : Nat) (f : Core → Core) : (modCore c f s).logSmall = s.logSmall := rfl
@[simp] theorem modCore_logFull (c : Nat) (f : Core → Core) : (modCore c f s).logFull = s.logFull := rfl
@[simp] theorem modCore_msix (c : Nat) (f : Core → Core) : (modCore c f s).msix = s.msix := rfl
@[simp] theorem modCore_reports (c : Nat) (f : Core → Core) : (modCore c f s).reports = s.reports := rfl
@[simp] theorem modCore_sctx (c : Nat) (f : Core → Core) : (modCore c f s).sctx = s.sctx := rfl
@[simp] theorem modCore_accs (c : Nat) (f : Core → Core) : (modCore c f s).accs = s.accs := rfl
@[simp] theorem modCore_dies (c : Nat) (f : Core → Core) : (modCore c f s).dies = s.dies := rfl
@[simp] theorem modCore_stkReqs (c : Nat) (f : Core → Core) : (modCore c f s).stkReqs = s.stkReqs := rfl
@[simp] theorem modCore_ports (c : Nat) (f : Core → Core) : (modCore c f s).ports = s.ports := rfl
@[simp] theorem modCore_arrived (c : Nat) (f : Core → Core) : (modCore c f s).arrived = s.arrived := rfl
@[simp] theorem modCore_txns (c : Nat) (f : Core → Core) : (modCore c f s).txns = s.txns := rfl
@[simp] theorem modCore_nextTxn (c : Nat) (f : Core → Core) : (modCore c f s).nextTxn = s.nextTxn := rfl
@[simp] theorem modCore_inject (c : Nat) (f : Core → Core) : (modCore c f s).inject = s.inject := rfl
@[simp] theorem modCore_peerLost (c : Nat) (f : Core → Core) : (modCore c f s).peerLost = s.peerLost := rfl
@[simp] theorem modCore_aborted (c : Nat) (f : Core → Core) : (modCore c f s).aborted = s.aborted := rfl
@[simp] theorem modCore_epochTop (c : Nat) (f : Core → Core) : (modCore c f s).epochTop = s.epochTop := rfl
@[simp] theorem modCore_rdma (c : Nat) (f : Core → Core) : (modCore c f s).rdma = s.rdma := rfl
@[simp] theorem modCore_rdmaOut (c : Nat) (f : Core → Core) : (modCore c f s).rdmaOut = s.rdmaOut := rfl
@[simp] theorem modCore_nextOp (c : Nat) (f : Core → Core) : (modCore c f s).nextOp = s.nextOp := rfl
@[simp] theorem modCore_qps (c : Nat) (f : Core → Core) : (modCore c f s).qps = s.qps := rfl
@[simp] theorem modCore_replies (c : Nat) (f : Core → Core) : (modCore c f s).replies = s.replies := rfl
@[simp] theorem modCore_mqpStage (c : Nat) (f : Core → Core) : (modCore c f s).mqpStage = s.mqpStage := rfl
@[simp] theorem modCore_htStage (c : Nat) (f : Core → Core) : (modCore c f s).htStage = s.htStage := rfl
@[simp] theorem modCore_iws (c : Nat) (f : Core → Core) : (modCore c f s).iws = s.iws := rfl
@[simp] theorem modCore_inHeld (c : Nat) (f : Core → Core) : (modCore c f s).inHeld = s.inHeld := rfl
@[simp] theorem modCore_spUp (c : Nat) (f : Core → Core) : (modCore c f s).spUp = s.spUp := rfl
@[simp] theorem modCore_cpUp (c : Nat) (f : Core → Core) : (modCore c f s).cpUp = s.cpUp := rfl
@[simp] theorem modCore_i3cAddr (c : Nat) (f : Core → Core) : (modCore c f s).i3cAddr = s.i3cAddr := rfl
@[simp] theorem modCore_waitJobs (c : Nat) (f : Core → Core) : (modCore c f s).waitJobs = s.waitJobs := rfl
@[simp] theorem modCore_job (c : Nat) (f : Core → Core) : (modCore c f s).job = s.job := rfl
@[simp] theorem modCore_hold (c : Nat) (f : Core → Core) : (modCore c f s).hold = s.hold := rfl
@[simp] theorem modCore_cplCount (c : Nat) (f : Core → Core) : (modCore c f s).cplCount = s.cplCount := rfl
@[simp] theorem modCore_cplWait (c : Nat) (f : Core → Core) : (modCore c f s).cplWait = s.cplWait := rfl
@[simp] theorem modCore_ringHeld (c : Nat) (f : Core → Core) : (modCore c f s).ringHeld = s.ringHeld := rfl
@[simp] theorem modCore_ibis (c : Nat) (f : Core → Core) : (modCore c f s).ibis = s.ibis := rfl
@[simp] theorem modCore_invCtr (c : Nat) (f : Core → Core) : (modCore c f s).invCtr = s.invCtr := rfl
@[simp] theorem modCore_ringSeen (c : Nat) (f : Core → Core) : (modCore c f s).ringSeen = s.ringSeen := rfl
@[simp] theorem modCore_freePg (c : Nat) (f : Core → Core) : (modCore c f s).freePg = s.freePg := rfl
@[simp] theorem modCore_freeTbl (c : Nat) (f : Core → Core) : (modCore c f s).freeTbl = s.freeTbl := rfl
@[simp] theorem modCore_train (c : Nat) (f : Core → Core) : (modCore c f s).train = s.train := rfl
@[simp] theorem modCore_serve (c : Nat) (f : Core → Core) : (modCore c f s).serve = s.serve := rfl
@[simp] theorem modCore_observed (c : Nat) (f : Core → Core) : (modCore c f s).observed = s.observed := rfl
@[simp] theorem modCore_unitEvs (c : Nat) (f : Core → Core) : (modCore c f s).unitEvs = s.unitEvs := rfl
@[simp] theorem modCore_stale (c : Nat) (f : Core → Core) : (modCore c f s).stale = s.stale := rfl
@[simp] theorem modCore_outOfSvc (c : Nat) (f : Core → Core) : (modCore c f s).outOfSvc = s.outOfSvc := rfl
@[simp] theorem modCore_katLast (c : Nat) (f : Core → Core) : (modCore c f s).katLast = s.katLast := rfl
@[simp] theorem modCore_katOn (c : Nat) (f : Core → Core) : (modCore c f s).katOn = s.katOn := rfl
@[simp] theorem modCore_disagree (c : Nat) (f : Core → Core) : (modCore c f s).disagree = s.disagree := rfl
@[simp] theorem modCore_replacing (c : Nat) (f : Core → Core) : (modCore c f s).replacing = s.replacing := rfl
@[simp] theorem modCore_histPos (c : Nat) (f : Core → Core) : (modCore c f s).histPos = s.histPos := rfl
@[simp] theorem modCore_histSeen (c : Nat) (f : Core → Core) : (modCore c f s).histSeen = s.histSeen := rfl
@[simp] theorem modCore_histHour (c : Nat) (f : Core → Core) : (modCore c f s).histHour = s.histHour := rfl
@[simp] theorem modCore_histWait (c : Nat) (f : Core → Core) : (modCore c f s).histWait = s.histWait := rfl
@[simp] theorem modCore_monitors (c : Nat) (f : Core → Core) : (modCore c f s).monitors = s.monitors := rfl
@[simp] theorem modCore_monTest (c : Nat) (f : Core → Core) : (modCore c f s).monTest = s.monTest := rfl
@[simp] theorem modCore_landTest (c : Nat) (f : Core → Core) : (modCore c f s).landTest = s.landTest := rfl
@[simp] theorem modCore_pw (c : Nat) (f : Core → Core) : (modCore c f s).pw = s.pw := rfl
@[simp] theorem modCore_procs (c : Nat) (f : Core → Core) : (modCore c f s).procs = s.procs := rfl
@[simp] theorem modCore_update (c : Nat) (f : Core → Core) : (modCore c f s).update = s.update := rfl
@[simp] theorem modCore_nonces (c : Nat) (f : Core → Core) : (modCore c f s).nonces = s.nonces := rfl
@[simp] theorem modCore_keyStore (c : Nat) (f : Core → Core) : (modCore c f s).keyStore = s.keyStore := rfl
@[simp] theorem modCore_clearing (c : Nat) (f : Core → Core) : (modCore c f s).clearing = s.clearing := rfl
@[simp] theorem modCore_halfPh (c : Nat) (f : Core → Core) : (modCore c f s).halfPh = s.halfPh := rfl
@[simp] theorem modCore_losses (c : Nat) (f : Core → Core) : (modCore c f s).losses = s.losses := rfl

/-! ### modGrove -/

@[simp] theorem modGrove_pending (g : Nat) (f : GroveSt → GroveSt) : (modGrove g f s).pending = s.pending := rfl
@[simp] theorem modGrove_time (g : Nat) (f : GroveSt → GroveSt) : (modGrove g f s).time = s.time := rfl
@[simp] theorem modGrove_pwrOk (g : Nat) (f : GroveSt → GroveSt) : (modGrove g f s).pwrOk = s.pwrOk := rfl
@[simp] theorem modGrove_pkgRstN (g : Nat) (f : GroveSt → GroveSt) : (modGrove g f s).pkgRstN = s.pkgRstN := rfl
@[simp] theorem modGrove_life (g : Nat) (f : GroveSt → GroveSt) : (modGrove g f s).life = s.life := rfl
@[simp] theorem modGrove_lands (g : Nat) (f : GroveSt → GroveSt) : (modGrove g f s).lands = s.lands := rfl
@[simp] theorem modGrove_fuses (g : Nat) (f : GroveSt → GroveSt) : (modGrove g f s).fuses = s.fuses := rfl
@[simp] theorem modGrove_regs (g : Nat) (f : GroveSt → GroveSt) : (modGrove g f s).regs = s.regs := rfl
@[simp] theorem modGrove_mem (g : Nat) (f : GroveSt → GroveSt) : (modGrove g f s).mem = s.mem := rfl
@[simp] theorem modGrove_flash (g : Nat) (f : GroveSt → GroveSt) : (modGrove g f s).flash = s.flash := rfl
@[simp] theorem modGrove_logMem (g : Nat) (f : GroveSt → GroveSt) : (modGrove g f s).logMem = s.logMem := rfl
@[simp] theorem modGrove_cores (g : Nat) (f : GroveSt → GroveSt) : (modGrove g f s).cores = s.cores := rfl
@[simp] theorem modGrove_ctxs (g : Nat) (f : GroveSt → GroveSt) : (modGrove g f s).ctxs = s.ctxs := rfl
@[simp] theorem modGrove_cutNotes (g : Nat) (f : GroveSt → GroveSt) : (modGrove g f s).cutNotes = s.cutNotes := rfl
@[simp] theorem modGrove_ride (g : Nat) (f : GroveSt → GroveSt) : (modGrove g f s).ride = s.ride := rfl
@[simp] theorem modGrove_xfers (g : Nat) (f : GroveSt → GroveSt) : (modGrove g f s).xfers = s.xfers := rfl
@[simp] theorem modGrove_rideDone (g : Nat) (f : GroveSt → GroveSt) : (modGrove g f s).rideDone = s.rideDone := rfl
@[simp] theorem modGrove_rideNext (g : Nat) (f : GroveSt → GroveSt) : (modGrove g f s).rideNext = s.rideNext := rfl
@[simp] theorem modGrove_fadds (g : Nat) (f : GroveSt → GroveSt) : (modGrove g f s).fadds = s.fadds := rfl
@[simp] theorem modGrove_satAt (g : Nat) (f : GroveSt → GroveSt) : (modGrove g f s).satAt = s.satAt := rfl
@[simp] theorem modGrove_watches (g : Nat) (f : GroveSt → GroveSt) : (modGrove g f s).watches = s.watches := rfl
@[simp] theorem modGrove_drops (g : Nat) (f : GroveSt → GroveSt) : (modGrove g f s).drops = s.drops := rfl
@[simp] theorem modGrove_restores (g : Nat) (f : GroveSt → GroveSt) : (modGrove g f s).restores = s.restores := rfl
@[simp] theorem modGrove_invWaits (g : Nat) (f : GroveSt → GroveSt) : (modGrove g f s).invWaits = s.invWaits := rfl
@[simp] theorem modGrove_poison (g : Nat) (f : GroveSt → GroveSt) : (modGrove g f s).poison = s.poison := rfl
@[simp] theorem modGrove_logSmall (g : Nat) (f : GroveSt → GroveSt) : (modGrove g f s).logSmall = s.logSmall := rfl
@[simp] theorem modGrove_logFull (g : Nat) (f : GroveSt → GroveSt) : (modGrove g f s).logFull = s.logFull := rfl
@[simp] theorem modGrove_msix (g : Nat) (f : GroveSt → GroveSt) : (modGrove g f s).msix = s.msix := rfl
@[simp] theorem modGrove_reports (g : Nat) (f : GroveSt → GroveSt) : (modGrove g f s).reports = s.reports := rfl
@[simp] theorem modGrove_sctx (g : Nat) (f : GroveSt → GroveSt) : (modGrove g f s).sctx = s.sctx := rfl
@[simp] theorem modGrove_accs (g : Nat) (f : GroveSt → GroveSt) : (modGrove g f s).accs = s.accs := rfl
@[simp] theorem modGrove_dies (g : Nat) (f : GroveSt → GroveSt) : (modGrove g f s).dies = s.dies := rfl
@[simp] theorem modGrove_stkReqs (g : Nat) (f : GroveSt → GroveSt) : (modGrove g f s).stkReqs = s.stkReqs := rfl
@[simp] theorem modGrove_ports (g : Nat) (f : GroveSt → GroveSt) : (modGrove g f s).ports = s.ports := rfl
@[simp] theorem modGrove_arrived (g : Nat) (f : GroveSt → GroveSt) : (modGrove g f s).arrived = s.arrived := rfl
@[simp] theorem modGrove_txns (g : Nat) (f : GroveSt → GroveSt) : (modGrove g f s).txns = s.txns := rfl
@[simp] theorem modGrove_nextTxn (g : Nat) (f : GroveSt → GroveSt) : (modGrove g f s).nextTxn = s.nextTxn := rfl
@[simp] theorem modGrove_inject (g : Nat) (f : GroveSt → GroveSt) : (modGrove g f s).inject = s.inject := rfl
@[simp] theorem modGrove_peerLost (g : Nat) (f : GroveSt → GroveSt) : (modGrove g f s).peerLost = s.peerLost := rfl
@[simp] theorem modGrove_aborted (g : Nat) (f : GroveSt → GroveSt) : (modGrove g f s).aborted = s.aborted := rfl
@[simp] theorem modGrove_epochTop (g : Nat) (f : GroveSt → GroveSt) : (modGrove g f s).epochTop = s.epochTop := rfl
@[simp] theorem modGrove_rdma (g : Nat) (f : GroveSt → GroveSt) : (modGrove g f s).rdma = s.rdma := rfl
@[simp] theorem modGrove_rdmaOut (g : Nat) (f : GroveSt → GroveSt) : (modGrove g f s).rdmaOut = s.rdmaOut := rfl
@[simp] theorem modGrove_nextOp (g : Nat) (f : GroveSt → GroveSt) : (modGrove g f s).nextOp = s.nextOp := rfl
@[simp] theorem modGrove_qps (g : Nat) (f : GroveSt → GroveSt) : (modGrove g f s).qps = s.qps := rfl
@[simp] theorem modGrove_replies (g : Nat) (f : GroveSt → GroveSt) : (modGrove g f s).replies = s.replies := rfl
@[simp] theorem modGrove_mqpStage (g : Nat) (f : GroveSt → GroveSt) : (modGrove g f s).mqpStage = s.mqpStage := rfl
@[simp] theorem modGrove_htStage (g : Nat) (f : GroveSt → GroveSt) : (modGrove g f s).htStage = s.htStage := rfl
@[simp] theorem modGrove_iws (g : Nat) (f : GroveSt → GroveSt) : (modGrove g f s).iws = s.iws := rfl
@[simp] theorem modGrove_inHeld (g : Nat) (f : GroveSt → GroveSt) : (modGrove g f s).inHeld = s.inHeld := rfl
@[simp] theorem modGrove_spUp (g : Nat) (f : GroveSt → GroveSt) : (modGrove g f s).spUp = s.spUp := rfl
@[simp] theorem modGrove_cpUp (g : Nat) (f : GroveSt → GroveSt) : (modGrove g f s).cpUp = s.cpUp := rfl
@[simp] theorem modGrove_i3cAddr (g : Nat) (f : GroveSt → GroveSt) : (modGrove g f s).i3cAddr = s.i3cAddr := rfl
@[simp] theorem modGrove_waitJobs (g : Nat) (f : GroveSt → GroveSt) : (modGrove g f s).waitJobs = s.waitJobs := rfl
@[simp] theorem modGrove_job (g : Nat) (f : GroveSt → GroveSt) : (modGrove g f s).job = s.job := rfl
@[simp] theorem modGrove_hold (g : Nat) (f : GroveSt → GroveSt) : (modGrove g f s).hold = s.hold := rfl
@[simp] theorem modGrove_cplCount (g : Nat) (f : GroveSt → GroveSt) : (modGrove g f s).cplCount = s.cplCount := rfl
@[simp] theorem modGrove_cplWait (g : Nat) (f : GroveSt → GroveSt) : (modGrove g f s).cplWait = s.cplWait := rfl
@[simp] theorem modGrove_ringHeld (g : Nat) (f : GroveSt → GroveSt) : (modGrove g f s).ringHeld = s.ringHeld := rfl
@[simp] theorem modGrove_ibis (g : Nat) (f : GroveSt → GroveSt) : (modGrove g f s).ibis = s.ibis := rfl
@[simp] theorem modGrove_invCtr (g : Nat) (f : GroveSt → GroveSt) : (modGrove g f s).invCtr = s.invCtr := rfl
@[simp] theorem modGrove_ringSeen (g : Nat) (f : GroveSt → GroveSt) : (modGrove g f s).ringSeen = s.ringSeen := rfl
@[simp] theorem modGrove_freePg (g : Nat) (f : GroveSt → GroveSt) : (modGrove g f s).freePg = s.freePg := rfl
@[simp] theorem modGrove_freeTbl (g : Nat) (f : GroveSt → GroveSt) : (modGrove g f s).freeTbl = s.freeTbl := rfl
@[simp] theorem modGrove_train (g : Nat) (f : GroveSt → GroveSt) : (modGrove g f s).train = s.train := rfl
@[simp] theorem modGrove_serve (g : Nat) (f : GroveSt → GroveSt) : (modGrove g f s).serve = s.serve := rfl
@[simp] theorem modGrove_observed (g : Nat) (f : GroveSt → GroveSt) : (modGrove g f s).observed = s.observed := rfl
@[simp] theorem modGrove_unitEvs (g : Nat) (f : GroveSt → GroveSt) : (modGrove g f s).unitEvs = s.unitEvs := rfl
@[simp] theorem modGrove_stale (g : Nat) (f : GroveSt → GroveSt) : (modGrove g f s).stale = s.stale := rfl
@[simp] theorem modGrove_outOfSvc (g : Nat) (f : GroveSt → GroveSt) : (modGrove g f s).outOfSvc = s.outOfSvc := rfl
@[simp] theorem modGrove_katLast (g : Nat) (f : GroveSt → GroveSt) : (modGrove g f s).katLast = s.katLast := rfl
@[simp] theorem modGrove_katOn (g : Nat) (f : GroveSt → GroveSt) : (modGrove g f s).katOn = s.katOn := rfl
@[simp] theorem modGrove_disagree (g : Nat) (f : GroveSt → GroveSt) : (modGrove g f s).disagree = s.disagree := rfl
@[simp] theorem modGrove_replacing (g : Nat) (f : GroveSt → GroveSt) : (modGrove g f s).replacing = s.replacing := rfl
@[simp] theorem modGrove_histPos (g : Nat) (f : GroveSt → GroveSt) : (modGrove g f s).histPos = s.histPos := rfl
@[simp] theorem modGrove_histSeen (g : Nat) (f : GroveSt → GroveSt) : (modGrove g f s).histSeen = s.histSeen := rfl
@[simp] theorem modGrove_histHour (g : Nat) (f : GroveSt → GroveSt) : (modGrove g f s).histHour = s.histHour := rfl
@[simp] theorem modGrove_histWait (g : Nat) (f : GroveSt → GroveSt) : (modGrove g f s).histWait = s.histWait := rfl
@[simp] theorem modGrove_monitors (g : Nat) (f : GroveSt → GroveSt) : (modGrove g f s).monitors = s.monitors := rfl
@[simp] theorem modGrove_monTest (g : Nat) (f : GroveSt → GroveSt) : (modGrove g f s).monTest = s.monTest := rfl
@[simp] theorem modGrove_landTest (g : Nat) (f : GroveSt → GroveSt) : (modGrove g f s).landTest = s.landTest := rfl
@[simp] theorem modGrove_pw (g : Nat) (f : GroveSt → GroveSt) : (modGrove g f s).pw = s.pw := rfl
@[simp] theorem modGrove_procs (g : Nat) (f : GroveSt → GroveSt) : (modGrove g f s).procs = s.procs := rfl
@[simp] theorem modGrove_update (g : Nat) (f : GroveSt → GroveSt) : (modGrove g f s).update = s.update := rfl
@[simp] theorem modGrove_nonces (g : Nat) (f : GroveSt → GroveSt) : (modGrove g f s).nonces = s.nonces := rfl
@[simp] theorem modGrove_keyStore (g : Nat) (f : GroveSt → GroveSt) : (modGrove g f s).keyStore = s.keyStore := rfl
@[simp] theorem modGrove_clearing (g : Nat) (f : GroveSt → GroveSt) : (modGrove g f s).clearing = s.clearing := rfl
@[simp] theorem modGrove_halfPh (g : Nat) (f : GroveSt → GroveSt) : (modGrove g f s).halfPh = s.halfPh := rfl
@[simp] theorem modGrove_losses (g : Nat) (f : GroveSt → GroveSt) : (modGrove g f s).losses = s.losses := rfl

/-! ### modCtx -/

@[simp] theorem modCtx_pending (n : Nat) (f : Ctx → Ctx) : (modCtx n f s).pending = s.pending := rfl
@[simp] theorem modCtx_time (n : Nat) (f : Ctx → Ctx) : (modCtx n f s).time = s.time := rfl
@[simp] theorem modCtx_pwrOk (n : Nat) (f : Ctx → Ctx) : (modCtx n f s).pwrOk = s.pwrOk := rfl
@[simp] theorem modCtx_pkgRstN (n : Nat) (f : Ctx → Ctx) : (modCtx n f s).pkgRstN = s.pkgRstN := rfl
@[simp] theorem modCtx_life (n : Nat) (f : Ctx → Ctx) : (modCtx n f s).life = s.life := rfl
@[simp] theorem modCtx_lands (n : Nat) (f : Ctx → Ctx) : (modCtx n f s).lands = s.lands := rfl
@[simp] theorem modCtx_fuses (n : Nat) (f : Ctx → Ctx) : (modCtx n f s).fuses = s.fuses := rfl
@[simp] theorem modCtx_regs (n : Nat) (f : Ctx → Ctx) : (modCtx n f s).regs = s.regs := rfl
@[simp] theorem modCtx_mem (n : Nat) (f : Ctx → Ctx) : (modCtx n f s).mem = s.mem := rfl
@[simp] theorem modCtx_flash (n : Nat) (f : Ctx → Ctx) : (modCtx n f s).flash = s.flash := rfl
@[simp] theorem modCtx_logMem (n : Nat) (f : Ctx → Ctx) : (modCtx n f s).logMem = s.logMem := rfl
@[simp] theorem modCtx_cores (n : Nat) (f : Ctx → Ctx) : (modCtx n f s).cores = s.cores := rfl
@[simp] theorem modCtx_groves (n : Nat) (f : Ctx → Ctx) : (modCtx n f s).groves = s.groves := rfl
@[simp] theorem modCtx_cutNotes (n : Nat) (f : Ctx → Ctx) : (modCtx n f s).cutNotes = s.cutNotes := rfl
@[simp] theorem modCtx_ride (n : Nat) (f : Ctx → Ctx) : (modCtx n f s).ride = s.ride := rfl
@[simp] theorem modCtx_xfers (n : Nat) (f : Ctx → Ctx) : (modCtx n f s).xfers = s.xfers := rfl
@[simp] theorem modCtx_rideDone (n : Nat) (f : Ctx → Ctx) : (modCtx n f s).rideDone = s.rideDone := rfl
@[simp] theorem modCtx_rideNext (n : Nat) (f : Ctx → Ctx) : (modCtx n f s).rideNext = s.rideNext := rfl
@[simp] theorem modCtx_fadds (n : Nat) (f : Ctx → Ctx) : (modCtx n f s).fadds = s.fadds := rfl
@[simp] theorem modCtx_satAt (n : Nat) (f : Ctx → Ctx) : (modCtx n f s).satAt = s.satAt := rfl
@[simp] theorem modCtx_watches (n : Nat) (f : Ctx → Ctx) : (modCtx n f s).watches = s.watches := rfl
@[simp] theorem modCtx_drops (n : Nat) (f : Ctx → Ctx) : (modCtx n f s).drops = s.drops := rfl
@[simp] theorem modCtx_restores (n : Nat) (f : Ctx → Ctx) : (modCtx n f s).restores = s.restores := rfl
@[simp] theorem modCtx_invWaits (n : Nat) (f : Ctx → Ctx) : (modCtx n f s).invWaits = s.invWaits := rfl
@[simp] theorem modCtx_poison (n : Nat) (f : Ctx → Ctx) : (modCtx n f s).poison = s.poison := rfl
@[simp] theorem modCtx_logSmall (n : Nat) (f : Ctx → Ctx) : (modCtx n f s).logSmall = s.logSmall := rfl
@[simp] theorem modCtx_logFull (n : Nat) (f : Ctx → Ctx) : (modCtx n f s).logFull = s.logFull := rfl
@[simp] theorem modCtx_msix (n : Nat) (f : Ctx → Ctx) : (modCtx n f s).msix = s.msix := rfl
@[simp] theorem modCtx_reports (n : Nat) (f : Ctx → Ctx) : (modCtx n f s).reports = s.reports := rfl
@[simp] theorem modCtx_sctx (n : Nat) (f : Ctx → Ctx) : (modCtx n f s).sctx = s.sctx := rfl
@[simp] theorem modCtx_accs (n : Nat) (f : Ctx → Ctx) : (modCtx n f s).accs = s.accs := rfl
@[simp] theorem modCtx_dies (n : Nat) (f : Ctx → Ctx) : (modCtx n f s).dies = s.dies := rfl
@[simp] theorem modCtx_stkReqs (n : Nat) (f : Ctx → Ctx) : (modCtx n f s).stkReqs = s.stkReqs := rfl
@[simp] theorem modCtx_ports (n : Nat) (f : Ctx → Ctx) : (modCtx n f s).ports = s.ports := rfl
@[simp] theorem modCtx_arrived (n : Nat) (f : Ctx → Ctx) : (modCtx n f s).arrived = s.arrived := rfl
@[simp] theorem modCtx_txns (n : Nat) (f : Ctx → Ctx) : (modCtx n f s).txns = s.txns := rfl
@[simp] theorem modCtx_nextTxn (n : Nat) (f : Ctx → Ctx) : (modCtx n f s).nextTxn = s.nextTxn := rfl
@[simp] theorem modCtx_inject (n : Nat) (f : Ctx → Ctx) : (modCtx n f s).inject = s.inject := rfl
@[simp] theorem modCtx_peerLost (n : Nat) (f : Ctx → Ctx) : (modCtx n f s).peerLost = s.peerLost := rfl
@[simp] theorem modCtx_aborted (n : Nat) (f : Ctx → Ctx) : (modCtx n f s).aborted = s.aborted := rfl
@[simp] theorem modCtx_epochTop (n : Nat) (f : Ctx → Ctx) : (modCtx n f s).epochTop = s.epochTop := rfl
@[simp] theorem modCtx_rdma (n : Nat) (f : Ctx → Ctx) : (modCtx n f s).rdma = s.rdma := rfl
@[simp] theorem modCtx_rdmaOut (n : Nat) (f : Ctx → Ctx) : (modCtx n f s).rdmaOut = s.rdmaOut := rfl
@[simp] theorem modCtx_nextOp (n : Nat) (f : Ctx → Ctx) : (modCtx n f s).nextOp = s.nextOp := rfl
@[simp] theorem modCtx_qps (n : Nat) (f : Ctx → Ctx) : (modCtx n f s).qps = s.qps := rfl
@[simp] theorem modCtx_replies (n : Nat) (f : Ctx → Ctx) : (modCtx n f s).replies = s.replies := rfl
@[simp] theorem modCtx_mqpStage (n : Nat) (f : Ctx → Ctx) : (modCtx n f s).mqpStage = s.mqpStage := rfl
@[simp] theorem modCtx_htStage (n : Nat) (f : Ctx → Ctx) : (modCtx n f s).htStage = s.htStage := rfl
@[simp] theorem modCtx_iws (n : Nat) (f : Ctx → Ctx) : (modCtx n f s).iws = s.iws := rfl
@[simp] theorem modCtx_inHeld (n : Nat) (f : Ctx → Ctx) : (modCtx n f s).inHeld = s.inHeld := rfl
@[simp] theorem modCtx_spUp (n : Nat) (f : Ctx → Ctx) : (modCtx n f s).spUp = s.spUp := rfl
@[simp] theorem modCtx_cpUp (n : Nat) (f : Ctx → Ctx) : (modCtx n f s).cpUp = s.cpUp := rfl
@[simp] theorem modCtx_i3cAddr (n : Nat) (f : Ctx → Ctx) : (modCtx n f s).i3cAddr = s.i3cAddr := rfl
@[simp] theorem modCtx_waitJobs (n : Nat) (f : Ctx → Ctx) : (modCtx n f s).waitJobs = s.waitJobs := rfl
@[simp] theorem modCtx_job (n : Nat) (f : Ctx → Ctx) : (modCtx n f s).job = s.job := rfl
@[simp] theorem modCtx_hold (n : Nat) (f : Ctx → Ctx) : (modCtx n f s).hold = s.hold := rfl
@[simp] theorem modCtx_cplCount (n : Nat) (f : Ctx → Ctx) : (modCtx n f s).cplCount = s.cplCount := rfl
@[simp] theorem modCtx_cplWait (n : Nat) (f : Ctx → Ctx) : (modCtx n f s).cplWait = s.cplWait := rfl
@[simp] theorem modCtx_ringHeld (n : Nat) (f : Ctx → Ctx) : (modCtx n f s).ringHeld = s.ringHeld := rfl
@[simp] theorem modCtx_ibis (n : Nat) (f : Ctx → Ctx) : (modCtx n f s).ibis = s.ibis := rfl
@[simp] theorem modCtx_invCtr (n : Nat) (f : Ctx → Ctx) : (modCtx n f s).invCtr = s.invCtr := rfl
@[simp] theorem modCtx_ringSeen (n : Nat) (f : Ctx → Ctx) : (modCtx n f s).ringSeen = s.ringSeen := rfl
@[simp] theorem modCtx_freePg (n : Nat) (f : Ctx → Ctx) : (modCtx n f s).freePg = s.freePg := rfl
@[simp] theorem modCtx_freeTbl (n : Nat) (f : Ctx → Ctx) : (modCtx n f s).freeTbl = s.freeTbl := rfl
@[simp] theorem modCtx_train (n : Nat) (f : Ctx → Ctx) : (modCtx n f s).train = s.train := rfl
@[simp] theorem modCtx_serve (n : Nat) (f : Ctx → Ctx) : (modCtx n f s).serve = s.serve := rfl
@[simp] theorem modCtx_observed (n : Nat) (f : Ctx → Ctx) : (modCtx n f s).observed = s.observed := rfl
@[simp] theorem modCtx_unitEvs (n : Nat) (f : Ctx → Ctx) : (modCtx n f s).unitEvs = s.unitEvs := rfl
@[simp] theorem modCtx_stale (n : Nat) (f : Ctx → Ctx) : (modCtx n f s).stale = s.stale := rfl
@[simp] theorem modCtx_outOfSvc (n : Nat) (f : Ctx → Ctx) : (modCtx n f s).outOfSvc = s.outOfSvc := rfl
@[simp] theorem modCtx_katLast (n : Nat) (f : Ctx → Ctx) : (modCtx n f s).katLast = s.katLast := rfl
@[simp] theorem modCtx_katOn (n : Nat) (f : Ctx → Ctx) : (modCtx n f s).katOn = s.katOn := rfl
@[simp] theorem modCtx_disagree (n : Nat) (f : Ctx → Ctx) : (modCtx n f s).disagree = s.disagree := rfl
@[simp] theorem modCtx_replacing (n : Nat) (f : Ctx → Ctx) : (modCtx n f s).replacing = s.replacing := rfl
@[simp] theorem modCtx_histPos (n : Nat) (f : Ctx → Ctx) : (modCtx n f s).histPos = s.histPos := rfl
@[simp] theorem modCtx_histSeen (n : Nat) (f : Ctx → Ctx) : (modCtx n f s).histSeen = s.histSeen := rfl
@[simp] theorem modCtx_histHour (n : Nat) (f : Ctx → Ctx) : (modCtx n f s).histHour = s.histHour := rfl
@[simp] theorem modCtx_histWait (n : Nat) (f : Ctx → Ctx) : (modCtx n f s).histWait = s.histWait := rfl
@[simp] theorem modCtx_monitors (n : Nat) (f : Ctx → Ctx) : (modCtx n f s).monitors = s.monitors := rfl
@[simp] theorem modCtx_monTest (n : Nat) (f : Ctx → Ctx) : (modCtx n f s).monTest = s.monTest := rfl
@[simp] theorem modCtx_landTest (n : Nat) (f : Ctx → Ctx) : (modCtx n f s).landTest = s.landTest := rfl
@[simp] theorem modCtx_pw (n : Nat) (f : Ctx → Ctx) : (modCtx n f s).pw = s.pw := rfl
@[simp] theorem modCtx_procs (n : Nat) (f : Ctx → Ctx) : (modCtx n f s).procs = s.procs := rfl
@[simp] theorem modCtx_update (n : Nat) (f : Ctx → Ctx) : (modCtx n f s).update = s.update := rfl
@[simp] theorem modCtx_nonces (n : Nat) (f : Ctx → Ctx) : (modCtx n f s).nonces = s.nonces := rfl
@[simp] theorem modCtx_keyStore (n : Nat) (f : Ctx → Ctx) : (modCtx n f s).keyStore = s.keyStore := rfl
@[simp] theorem modCtx_clearing (n : Nat) (f : Ctx → Ctx) : (modCtx n f s).clearing = s.clearing := rfl
@[simp] theorem modCtx_halfPh (n : Nat) (f : Ctx → Ctx) : (modCtx n f s).halfPh = s.halfPh := rfl
@[simp] theorem modCtx_losses (n : Nat) (f : Ctx → Ctx) : (modCtx n f s).losses = s.losses := rfl

/-! ### modRide -/

@[simp] theorem modRide_pending (h : Nat) (f : RideEnd → RideEnd) : (modRide h f s).pending = s.pending := rfl
@[simp] theorem modRide_time (h : Nat) (f : RideEnd → RideEnd) : (modRide h f s).time = s.time := rfl
@[simp] theorem modRide_pwrOk (h : Nat) (f : RideEnd → RideEnd) : (modRide h f s).pwrOk = s.pwrOk := rfl
@[simp] theorem modRide_pkgRstN (h : Nat) (f : RideEnd → RideEnd) : (modRide h f s).pkgRstN = s.pkgRstN := rfl
@[simp] theorem modRide_life (h : Nat) (f : RideEnd → RideEnd) : (modRide h f s).life = s.life := rfl
@[simp] theorem modRide_lands (h : Nat) (f : RideEnd → RideEnd) : (modRide h f s).lands = s.lands := rfl
@[simp] theorem modRide_fuses (h : Nat) (f : RideEnd → RideEnd) : (modRide h f s).fuses = s.fuses := rfl
@[simp] theorem modRide_regs (h : Nat) (f : RideEnd → RideEnd) : (modRide h f s).regs = s.regs := rfl
@[simp] theorem modRide_mem (h : Nat) (f : RideEnd → RideEnd) : (modRide h f s).mem = s.mem := rfl
@[simp] theorem modRide_flash (h : Nat) (f : RideEnd → RideEnd) : (modRide h f s).flash = s.flash := rfl
@[simp] theorem modRide_logMem (h : Nat) (f : RideEnd → RideEnd) : (modRide h f s).logMem = s.logMem := rfl
@[simp] theorem modRide_cores (h : Nat) (f : RideEnd → RideEnd) : (modRide h f s).cores = s.cores := rfl
@[simp] theorem modRide_groves (h : Nat) (f : RideEnd → RideEnd) : (modRide h f s).groves = s.groves := rfl
@[simp] theorem modRide_ctxs (h : Nat) (f : RideEnd → RideEnd) : (modRide h f s).ctxs = s.ctxs := rfl
@[simp] theorem modRide_cutNotes (h : Nat) (f : RideEnd → RideEnd) : (modRide h f s).cutNotes = s.cutNotes := rfl
@[simp] theorem modRide_xfers (h : Nat) (f : RideEnd → RideEnd) : (modRide h f s).xfers = s.xfers := rfl
@[simp] theorem modRide_rideDone (h : Nat) (f : RideEnd → RideEnd) : (modRide h f s).rideDone = s.rideDone := rfl
@[simp] theorem modRide_rideNext (h : Nat) (f : RideEnd → RideEnd) : (modRide h f s).rideNext = s.rideNext := rfl
@[simp] theorem modRide_fadds (h : Nat) (f : RideEnd → RideEnd) : (modRide h f s).fadds = s.fadds := rfl
@[simp] theorem modRide_satAt (h : Nat) (f : RideEnd → RideEnd) : (modRide h f s).satAt = s.satAt := rfl
@[simp] theorem modRide_watches (h : Nat) (f : RideEnd → RideEnd) : (modRide h f s).watches = s.watches := rfl
@[simp] theorem modRide_drops (h : Nat) (f : RideEnd → RideEnd) : (modRide h f s).drops = s.drops := rfl
@[simp] theorem modRide_restores (h : Nat) (f : RideEnd → RideEnd) : (modRide h f s).restores = s.restores := rfl
@[simp] theorem modRide_invWaits (h : Nat) (f : RideEnd → RideEnd) : (modRide h f s).invWaits = s.invWaits := rfl
@[simp] theorem modRide_poison (h : Nat) (f : RideEnd → RideEnd) : (modRide h f s).poison = s.poison := rfl
@[simp] theorem modRide_logSmall (h : Nat) (f : RideEnd → RideEnd) : (modRide h f s).logSmall = s.logSmall := rfl
@[simp] theorem modRide_logFull (h : Nat) (f : RideEnd → RideEnd) : (modRide h f s).logFull = s.logFull := rfl
@[simp] theorem modRide_msix (h : Nat) (f : RideEnd → RideEnd) : (modRide h f s).msix = s.msix := rfl
@[simp] theorem modRide_reports (h : Nat) (f : RideEnd → RideEnd) : (modRide h f s).reports = s.reports := rfl
@[simp] theorem modRide_sctx (h : Nat) (f : RideEnd → RideEnd) : (modRide h f s).sctx = s.sctx := rfl
@[simp] theorem modRide_accs (h : Nat) (f : RideEnd → RideEnd) : (modRide h f s).accs = s.accs := rfl
@[simp] theorem modRide_dies (h : Nat) (f : RideEnd → RideEnd) : (modRide h f s).dies = s.dies := rfl
@[simp] theorem modRide_stkReqs (h : Nat) (f : RideEnd → RideEnd) : (modRide h f s).stkReqs = s.stkReqs := rfl
@[simp] theorem modRide_ports (h : Nat) (f : RideEnd → RideEnd) : (modRide h f s).ports = s.ports := rfl
@[simp] theorem modRide_arrived (h : Nat) (f : RideEnd → RideEnd) : (modRide h f s).arrived = s.arrived := rfl
@[simp] theorem modRide_txns (h : Nat) (f : RideEnd → RideEnd) : (modRide h f s).txns = s.txns := rfl
@[simp] theorem modRide_nextTxn (h : Nat) (f : RideEnd → RideEnd) : (modRide h f s).nextTxn = s.nextTxn := rfl
@[simp] theorem modRide_inject (h : Nat) (f : RideEnd → RideEnd) : (modRide h f s).inject = s.inject := rfl
@[simp] theorem modRide_peerLost (h : Nat) (f : RideEnd → RideEnd) : (modRide h f s).peerLost = s.peerLost := rfl
@[simp] theorem modRide_aborted (h : Nat) (f : RideEnd → RideEnd) : (modRide h f s).aborted = s.aborted := rfl
@[simp] theorem modRide_epochTop (h : Nat) (f : RideEnd → RideEnd) : (modRide h f s).epochTop = s.epochTop := rfl
@[simp] theorem modRide_rdma (h : Nat) (f : RideEnd → RideEnd) : (modRide h f s).rdma = s.rdma := rfl
@[simp] theorem modRide_rdmaOut (h : Nat) (f : RideEnd → RideEnd) : (modRide h f s).rdmaOut = s.rdmaOut := rfl
@[simp] theorem modRide_nextOp (h : Nat) (f : RideEnd → RideEnd) : (modRide h f s).nextOp = s.nextOp := rfl
@[simp] theorem modRide_qps (h : Nat) (f : RideEnd → RideEnd) : (modRide h f s).qps = s.qps := rfl
@[simp] theorem modRide_replies (h : Nat) (f : RideEnd → RideEnd) : (modRide h f s).replies = s.replies := rfl
@[simp] theorem modRide_mqpStage (h : Nat) (f : RideEnd → RideEnd) : (modRide h f s).mqpStage = s.mqpStage := rfl
@[simp] theorem modRide_htStage (h : Nat) (f : RideEnd → RideEnd) : (modRide h f s).htStage = s.htStage := rfl
@[simp] theorem modRide_iws (h : Nat) (f : RideEnd → RideEnd) : (modRide h f s).iws = s.iws := rfl
@[simp] theorem modRide_inHeld (h : Nat) (f : RideEnd → RideEnd) : (modRide h f s).inHeld = s.inHeld := rfl
@[simp] theorem modRide_spUp (h : Nat) (f : RideEnd → RideEnd) : (modRide h f s).spUp = s.spUp := rfl
@[simp] theorem modRide_cpUp (h : Nat) (f : RideEnd → RideEnd) : (modRide h f s).cpUp = s.cpUp := rfl
@[simp] theorem modRide_i3cAddr (h : Nat) (f : RideEnd → RideEnd) : (modRide h f s).i3cAddr = s.i3cAddr := rfl
@[simp] theorem modRide_waitJobs (h : Nat) (f : RideEnd → RideEnd) : (modRide h f s).waitJobs = s.waitJobs := rfl
@[simp] theorem modRide_job (h : Nat) (f : RideEnd → RideEnd) : (modRide h f s).job = s.job := rfl
@[simp] theorem modRide_hold (h : Nat) (f : RideEnd → RideEnd) : (modRide h f s).hold = s.hold := rfl
@[simp] theorem modRide_cplCount (h : Nat) (f : RideEnd → RideEnd) : (modRide h f s).cplCount = s.cplCount := rfl
@[simp] theorem modRide_cplWait (h : Nat) (f : RideEnd → RideEnd) : (modRide h f s).cplWait = s.cplWait := rfl
@[simp] theorem modRide_ringHeld (h : Nat) (f : RideEnd → RideEnd) : (modRide h f s).ringHeld = s.ringHeld := rfl
@[simp] theorem modRide_ibis (h : Nat) (f : RideEnd → RideEnd) : (modRide h f s).ibis = s.ibis := rfl
@[simp] theorem modRide_invCtr (h : Nat) (f : RideEnd → RideEnd) : (modRide h f s).invCtr = s.invCtr := rfl
@[simp] theorem modRide_ringSeen (h : Nat) (f : RideEnd → RideEnd) : (modRide h f s).ringSeen = s.ringSeen := rfl
@[simp] theorem modRide_freePg (h : Nat) (f : RideEnd → RideEnd) : (modRide h f s).freePg = s.freePg := rfl
@[simp] theorem modRide_freeTbl (h : Nat) (f : RideEnd → RideEnd) : (modRide h f s).freeTbl = s.freeTbl := rfl
@[simp] theorem modRide_train (h : Nat) (f : RideEnd → RideEnd) : (modRide h f s).train = s.train := rfl
@[simp] theorem modRide_serve (h : Nat) (f : RideEnd → RideEnd) : (modRide h f s).serve = s.serve := rfl
@[simp] theorem modRide_observed (h : Nat) (f : RideEnd → RideEnd) : (modRide h f s).observed = s.observed := rfl
@[simp] theorem modRide_unitEvs (h : Nat) (f : RideEnd → RideEnd) : (modRide h f s).unitEvs = s.unitEvs := rfl
@[simp] theorem modRide_stale (h : Nat) (f : RideEnd → RideEnd) : (modRide h f s).stale = s.stale := rfl
@[simp] theorem modRide_outOfSvc (h : Nat) (f : RideEnd → RideEnd) : (modRide h f s).outOfSvc = s.outOfSvc := rfl
@[simp] theorem modRide_katLast (h : Nat) (f : RideEnd → RideEnd) : (modRide h f s).katLast = s.katLast := rfl
@[simp] theorem modRide_katOn (h : Nat) (f : RideEnd → RideEnd) : (modRide h f s).katOn = s.katOn := rfl
@[simp] theorem modRide_disagree (h : Nat) (f : RideEnd → RideEnd) : (modRide h f s).disagree = s.disagree := rfl
@[simp] theorem modRide_replacing (h : Nat) (f : RideEnd → RideEnd) : (modRide h f s).replacing = s.replacing := rfl
@[simp] theorem modRide_histPos (h : Nat) (f : RideEnd → RideEnd) : (modRide h f s).histPos = s.histPos := rfl
@[simp] theorem modRide_histSeen (h : Nat) (f : RideEnd → RideEnd) : (modRide h f s).histSeen = s.histSeen := rfl
@[simp] theorem modRide_histHour (h : Nat) (f : RideEnd → RideEnd) : (modRide h f s).histHour = s.histHour := rfl
@[simp] theorem modRide_histWait (h : Nat) (f : RideEnd → RideEnd) : (modRide h f s).histWait = s.histWait := rfl
@[simp] theorem modRide_monitors (h : Nat) (f : RideEnd → RideEnd) : (modRide h f s).monitors = s.monitors := rfl
@[simp] theorem modRide_monTest (h : Nat) (f : RideEnd → RideEnd) : (modRide h f s).monTest = s.monTest := rfl
@[simp] theorem modRide_landTest (h : Nat) (f : RideEnd → RideEnd) : (modRide h f s).landTest = s.landTest := rfl
@[simp] theorem modRide_pw (h : Nat) (f : RideEnd → RideEnd) : (modRide h f s).pw = s.pw := rfl
@[simp] theorem modRide_procs (h : Nat) (f : RideEnd → RideEnd) : (modRide h f s).procs = s.procs := rfl
@[simp] theorem modRide_update (h : Nat) (f : RideEnd → RideEnd) : (modRide h f s).update = s.update := rfl
@[simp] theorem modRide_nonces (h : Nat) (f : RideEnd → RideEnd) : (modRide h f s).nonces = s.nonces := rfl
@[simp] theorem modRide_keyStore (h : Nat) (f : RideEnd → RideEnd) : (modRide h f s).keyStore = s.keyStore := rfl
@[simp] theorem modRide_clearing (h : Nat) (f : RideEnd → RideEnd) : (modRide h f s).clearing = s.clearing := rfl
@[simp] theorem modRide_halfPh (h : Nat) (f : RideEnd → RideEnd) : (modRide h f s).halfPh = s.halfPh := rfl
@[simp] theorem modRide_losses (h : Nat) (f : RideEnd → RideEnd) : (modRide h f s).losses = s.losses := rfl

/-! ### modAcc -/

@[simp] theorem modAcc_pending (d n : Nat) (f : AccCtx → AccCtx) : (modAcc d n f s).pending = s.pending := rfl
@[simp] theorem modAcc_time (d n : Nat) (f : AccCtx → AccCtx) : (modAcc d n f s).time = s.time := rfl
@[simp] theorem modAcc_pwrOk (d n : Nat) (f : AccCtx → AccCtx) : (modAcc d n f s).pwrOk = s.pwrOk := rfl
@[simp] theorem modAcc_pkgRstN (d n : Nat) (f : AccCtx → AccCtx) : (modAcc d n f s).pkgRstN = s.pkgRstN := rfl
@[simp] theorem modAcc_life (d n : Nat) (f : AccCtx → AccCtx) : (modAcc d n f s).life = s.life := rfl
@[simp] theorem modAcc_lands (d n : Nat) (f : AccCtx → AccCtx) : (modAcc d n f s).lands = s.lands := rfl
@[simp] theorem modAcc_fuses (d n : Nat) (f : AccCtx → AccCtx) : (modAcc d n f s).fuses = s.fuses := rfl
@[simp] theorem modAcc_regs (d n : Nat) (f : AccCtx → AccCtx) : (modAcc d n f s).regs = s.regs := rfl
@[simp] theorem modAcc_mem (d n : Nat) (f : AccCtx → AccCtx) : (modAcc d n f s).mem = s.mem := rfl
@[simp] theorem modAcc_flash (d n : Nat) (f : AccCtx → AccCtx) : (modAcc d n f s).flash = s.flash := rfl
@[simp] theorem modAcc_logMem (d n : Nat) (f : AccCtx → AccCtx) : (modAcc d n f s).logMem = s.logMem := rfl
@[simp] theorem modAcc_cores (d n : Nat) (f : AccCtx → AccCtx) : (modAcc d n f s).cores = s.cores := rfl
@[simp] theorem modAcc_groves (d n : Nat) (f : AccCtx → AccCtx) : (modAcc d n f s).groves = s.groves := rfl
@[simp] theorem modAcc_ctxs (d n : Nat) (f : AccCtx → AccCtx) : (modAcc d n f s).ctxs = s.ctxs := rfl
@[simp] theorem modAcc_cutNotes (d n : Nat) (f : AccCtx → AccCtx) : (modAcc d n f s).cutNotes = s.cutNotes := rfl
@[simp] theorem modAcc_ride (d n : Nat) (f : AccCtx → AccCtx) : (modAcc d n f s).ride = s.ride := rfl
@[simp] theorem modAcc_xfers (d n : Nat) (f : AccCtx → AccCtx) : (modAcc d n f s).xfers = s.xfers := rfl
@[simp] theorem modAcc_rideDone (d n : Nat) (f : AccCtx → AccCtx) : (modAcc d n f s).rideDone = s.rideDone := rfl
@[simp] theorem modAcc_rideNext (d n : Nat) (f : AccCtx → AccCtx) : (modAcc d n f s).rideNext = s.rideNext := rfl
@[simp] theorem modAcc_fadds (d n : Nat) (f : AccCtx → AccCtx) : (modAcc d n f s).fadds = s.fadds := rfl
@[simp] theorem modAcc_satAt (d n : Nat) (f : AccCtx → AccCtx) : (modAcc d n f s).satAt = s.satAt := rfl
@[simp] theorem modAcc_watches (d n : Nat) (f : AccCtx → AccCtx) : (modAcc d n f s).watches = s.watches := rfl
@[simp] theorem modAcc_drops (d n : Nat) (f : AccCtx → AccCtx) : (modAcc d n f s).drops = s.drops := rfl
@[simp] theorem modAcc_restores (d n : Nat) (f : AccCtx → AccCtx) : (modAcc d n f s).restores = s.restores := rfl
@[simp] theorem modAcc_invWaits (d n : Nat) (f : AccCtx → AccCtx) : (modAcc d n f s).invWaits = s.invWaits := rfl
@[simp] theorem modAcc_poison (d n : Nat) (f : AccCtx → AccCtx) : (modAcc d n f s).poison = s.poison := rfl
@[simp] theorem modAcc_logSmall (d n : Nat) (f : AccCtx → AccCtx) : (modAcc d n f s).logSmall = s.logSmall := rfl
@[simp] theorem modAcc_logFull (d n : Nat) (f : AccCtx → AccCtx) : (modAcc d n f s).logFull = s.logFull := rfl
@[simp] theorem modAcc_msix (d n : Nat) (f : AccCtx → AccCtx) : (modAcc d n f s).msix = s.msix := rfl
@[simp] theorem modAcc_reports (d n : Nat) (f : AccCtx → AccCtx) : (modAcc d n f s).reports = s.reports := rfl
@[simp] theorem modAcc_sctx (d n : Nat) (f : AccCtx → AccCtx) : (modAcc d n f s).sctx = s.sctx := rfl
@[simp] theorem modAcc_dies (d n : Nat) (f : AccCtx → AccCtx) : (modAcc d n f s).dies = s.dies := rfl
@[simp] theorem modAcc_stkReqs (d n : Nat) (f : AccCtx → AccCtx) : (modAcc d n f s).stkReqs = s.stkReqs := rfl
@[simp] theorem modAcc_ports (d n : Nat) (f : AccCtx → AccCtx) : (modAcc d n f s).ports = s.ports := rfl
@[simp] theorem modAcc_arrived (d n : Nat) (f : AccCtx → AccCtx) : (modAcc d n f s).arrived = s.arrived := rfl
@[simp] theorem modAcc_txns (d n : Nat) (f : AccCtx → AccCtx) : (modAcc d n f s).txns = s.txns := rfl
@[simp] theorem modAcc_nextTxn (d n : Nat) (f : AccCtx → AccCtx) : (modAcc d n f s).nextTxn = s.nextTxn := rfl
@[simp] theorem modAcc_inject (d n : Nat) (f : AccCtx → AccCtx) : (modAcc d n f s).inject = s.inject := rfl
@[simp] theorem modAcc_peerLost (d n : Nat) (f : AccCtx → AccCtx) : (modAcc d n f s).peerLost = s.peerLost := rfl
@[simp] theorem modAcc_aborted (d n : Nat) (f : AccCtx → AccCtx) : (modAcc d n f s).aborted = s.aborted := rfl
@[simp] theorem modAcc_epochTop (d n : Nat) (f : AccCtx → AccCtx) : (modAcc d n f s).epochTop = s.epochTop := rfl
@[simp] theorem modAcc_rdma (d n : Nat) (f : AccCtx → AccCtx) : (modAcc d n f s).rdma = s.rdma := rfl
@[simp] theorem modAcc_rdmaOut (d n : Nat) (f : AccCtx → AccCtx) : (modAcc d n f s).rdmaOut = s.rdmaOut := rfl
@[simp] theorem modAcc_nextOp (d n : Nat) (f : AccCtx → AccCtx) : (modAcc d n f s).nextOp = s.nextOp := rfl
@[simp] theorem modAcc_qps (d n : Nat) (f : AccCtx → AccCtx) : (modAcc d n f s).qps = s.qps := rfl
@[simp] theorem modAcc_replies (d n : Nat) (f : AccCtx → AccCtx) : (modAcc d n f s).replies = s.replies := rfl
@[simp] theorem modAcc_mqpStage (d n : Nat) (f : AccCtx → AccCtx) : (modAcc d n f s).mqpStage = s.mqpStage := rfl
@[simp] theorem modAcc_htStage (d n : Nat) (f : AccCtx → AccCtx) : (modAcc d n f s).htStage = s.htStage := rfl
@[simp] theorem modAcc_iws (d n : Nat) (f : AccCtx → AccCtx) : (modAcc d n f s).iws = s.iws := rfl
@[simp] theorem modAcc_inHeld (d n : Nat) (f : AccCtx → AccCtx) : (modAcc d n f s).inHeld = s.inHeld := rfl
@[simp] theorem modAcc_spUp (d n : Nat) (f : AccCtx → AccCtx) : (modAcc d n f s).spUp = s.spUp := rfl
@[simp] theorem modAcc_cpUp (d n : Nat) (f : AccCtx → AccCtx) : (modAcc d n f s).cpUp = s.cpUp := rfl
@[simp] theorem modAcc_i3cAddr (d n : Nat) (f : AccCtx → AccCtx) : (modAcc d n f s).i3cAddr = s.i3cAddr := rfl
@[simp] theorem modAcc_waitJobs (d n : Nat) (f : AccCtx → AccCtx) : (modAcc d n f s).waitJobs = s.waitJobs := rfl
@[simp] theorem modAcc_job (d n : Nat) (f : AccCtx → AccCtx) : (modAcc d n f s).job = s.job := rfl
@[simp] theorem modAcc_hold (d n : Nat) (f : AccCtx → AccCtx) : (modAcc d n f s).hold = s.hold := rfl
@[simp] theorem modAcc_cplCount (d n : Nat) (f : AccCtx → AccCtx) : (modAcc d n f s).cplCount = s.cplCount := rfl
@[simp] theorem modAcc_cplWait (d n : Nat) (f : AccCtx → AccCtx) : (modAcc d n f s).cplWait = s.cplWait := rfl
@[simp] theorem modAcc_ringHeld (d n : Nat) (f : AccCtx → AccCtx) : (modAcc d n f s).ringHeld = s.ringHeld := rfl
@[simp] theorem modAcc_ibis (d n : Nat) (f : AccCtx → AccCtx) : (modAcc d n f s).ibis = s.ibis := rfl
@[simp] theorem modAcc_invCtr (d n : Nat) (f : AccCtx → AccCtx) : (modAcc d n f s).invCtr = s.invCtr := rfl
@[simp] theorem modAcc_ringSeen (d n : Nat) (f : AccCtx → AccCtx) : (modAcc d n f s).ringSeen = s.ringSeen := rfl
@[simp] theorem modAcc_freePg (d n : Nat) (f : AccCtx → AccCtx) : (modAcc d n f s).freePg = s.freePg := rfl
@[simp] theorem modAcc_freeTbl (d n : Nat) (f : AccCtx → AccCtx) : (modAcc d n f s).freeTbl = s.freeTbl := rfl
@[simp] theorem modAcc_train (d n : Nat) (f : AccCtx → AccCtx) : (modAcc d n f s).train = s.train := rfl
@[simp] theorem modAcc_serve (d n : Nat) (f : AccCtx → AccCtx) : (modAcc d n f s).serve = s.serve := rfl
@[simp] theorem modAcc_observed (d n : Nat) (f : AccCtx → AccCtx) : (modAcc d n f s).observed = s.observed := rfl
@[simp] theorem modAcc_unitEvs (d n : Nat) (f : AccCtx → AccCtx) : (modAcc d n f s).unitEvs = s.unitEvs := rfl
@[simp] theorem modAcc_stale (d n : Nat) (f : AccCtx → AccCtx) : (modAcc d n f s).stale = s.stale := rfl
@[simp] theorem modAcc_outOfSvc (d n : Nat) (f : AccCtx → AccCtx) : (modAcc d n f s).outOfSvc = s.outOfSvc := rfl
@[simp] theorem modAcc_katLast (d n : Nat) (f : AccCtx → AccCtx) : (modAcc d n f s).katLast = s.katLast := rfl
@[simp] theorem modAcc_katOn (d n : Nat) (f : AccCtx → AccCtx) : (modAcc d n f s).katOn = s.katOn := rfl
@[simp] theorem modAcc_disagree (d n : Nat) (f : AccCtx → AccCtx) : (modAcc d n f s).disagree = s.disagree := rfl
@[simp] theorem modAcc_replacing (d n : Nat) (f : AccCtx → AccCtx) : (modAcc d n f s).replacing = s.replacing := rfl
@[simp] theorem modAcc_histPos (d n : Nat) (f : AccCtx → AccCtx) : (modAcc d n f s).histPos = s.histPos := rfl
@[simp] theorem modAcc_histSeen (d n : Nat) (f : AccCtx → AccCtx) : (modAcc d n f s).histSeen = s.histSeen := rfl
@[simp] theorem modAcc_histHour (d n : Nat) (f : AccCtx → AccCtx) : (modAcc d n f s).histHour = s.histHour := rfl
@[simp] theorem modAcc_histWait (d n : Nat) (f : AccCtx → AccCtx) : (modAcc d n f s).histWait = s.histWait := rfl
@[simp] theorem modAcc_monitors (d n : Nat) (f : AccCtx → AccCtx) : (modAcc d n f s).monitors = s.monitors := rfl
@[simp] theorem modAcc_monTest (d n : Nat) (f : AccCtx → AccCtx) : (modAcc d n f s).monTest = s.monTest := rfl
@[simp] theorem modAcc_landTest (d n : Nat) (f : AccCtx → AccCtx) : (modAcc d n f s).landTest = s.landTest := rfl
@[simp] theorem modAcc_pw (d n : Nat) (f : AccCtx → AccCtx) : (modAcc d n f s).pw = s.pw := rfl
@[simp] theorem modAcc_procs (d n : Nat) (f : AccCtx → AccCtx) : (modAcc d n f s).procs = s.procs := rfl
@[simp] theorem modAcc_update (d n : Nat) (f : AccCtx → AccCtx) : (modAcc d n f s).update = s.update := rfl
@[simp] theorem modAcc_nonces (d n : Nat) (f : AccCtx → AccCtx) : (modAcc d n f s).nonces = s.nonces := rfl
@[simp] theorem modAcc_keyStore (d n : Nat) (f : AccCtx → AccCtx) : (modAcc d n f s).keyStore = s.keyStore := rfl
@[simp] theorem modAcc_clearing (d n : Nat) (f : AccCtx → AccCtx) : (modAcc d n f s).clearing = s.clearing := rfl
@[simp] theorem modAcc_halfPh (d n : Nat) (f : AccCtx → AccCtx) : (modAcc d n f s).halfPh = s.halfPh := rfl
@[simp] theorem modAcc_losses (d n : Nat) (f : AccCtx → AccCtx) : (modAcc d n f s).losses = s.losses := rfl

/-! ### modDie -/

@[simp] theorem modDie_pending (d : Nat) (f : DieSt → DieSt) : (modDie d f s).pending = s.pending := rfl
@[simp] theorem modDie_time (d : Nat) (f : DieSt → DieSt) : (modDie d f s).time = s.time := rfl
@[simp] theorem modDie_pwrOk (d : Nat) (f : DieSt → DieSt) : (modDie d f s).pwrOk = s.pwrOk := rfl
@[simp] theorem modDie_pkgRstN (d : Nat) (f : DieSt → DieSt) : (modDie d f s).pkgRstN = s.pkgRstN := rfl
@[simp] theorem modDie_life (d : Nat) (f : DieSt → DieSt) : (modDie d f s).life = s.life := rfl
@[simp] theorem modDie_lands (d : Nat) (f : DieSt → DieSt) : (modDie d f s).lands = s.lands := rfl
@[simp] theorem modDie_fuses (d : Nat) (f : DieSt → DieSt) : (modDie d f s).fuses = s.fuses := rfl
@[simp] theorem modDie_regs (d : Nat) (f : DieSt → DieSt) : (modDie d f s).regs = s.regs := rfl
@[simp] theorem modDie_mem (d : Nat) (f : DieSt → DieSt) : (modDie d f s).mem = s.mem := rfl
@[simp] theorem modDie_flash (d : Nat) (f : DieSt → DieSt) : (modDie d f s).flash = s.flash := rfl
@[simp] theorem modDie_logMem (d : Nat) (f : DieSt → DieSt) : (modDie d f s).logMem = s.logMem := rfl
@[simp] theorem modDie_cores (d : Nat) (f : DieSt → DieSt) : (modDie d f s).cores = s.cores := rfl
@[simp] theorem modDie_groves (d : Nat) (f : DieSt → DieSt) : (modDie d f s).groves = s.groves := rfl
@[simp] theorem modDie_ctxs (d : Nat) (f : DieSt → DieSt) : (modDie d f s).ctxs = s.ctxs := rfl
@[simp] theorem modDie_cutNotes (d : Nat) (f : DieSt → DieSt) : (modDie d f s).cutNotes = s.cutNotes := rfl
@[simp] theorem modDie_ride (d : Nat) (f : DieSt → DieSt) : (modDie d f s).ride = s.ride := rfl
@[simp] theorem modDie_xfers (d : Nat) (f : DieSt → DieSt) : (modDie d f s).xfers = s.xfers := rfl
@[simp] theorem modDie_rideDone (d : Nat) (f : DieSt → DieSt) : (modDie d f s).rideDone = s.rideDone := rfl
@[simp] theorem modDie_rideNext (d : Nat) (f : DieSt → DieSt) : (modDie d f s).rideNext = s.rideNext := rfl
@[simp] theorem modDie_fadds (d : Nat) (f : DieSt → DieSt) : (modDie d f s).fadds = s.fadds := rfl
@[simp] theorem modDie_satAt (d : Nat) (f : DieSt → DieSt) : (modDie d f s).satAt = s.satAt := rfl
@[simp] theorem modDie_watches (d : Nat) (f : DieSt → DieSt) : (modDie d f s).watches = s.watches := rfl
@[simp] theorem modDie_drops (d : Nat) (f : DieSt → DieSt) : (modDie d f s).drops = s.drops := rfl
@[simp] theorem modDie_restores (d : Nat) (f : DieSt → DieSt) : (modDie d f s).restores = s.restores := rfl
@[simp] theorem modDie_invWaits (d : Nat) (f : DieSt → DieSt) : (modDie d f s).invWaits = s.invWaits := rfl
@[simp] theorem modDie_poison (d : Nat) (f : DieSt → DieSt) : (modDie d f s).poison = s.poison := rfl
@[simp] theorem modDie_logSmall (d : Nat) (f : DieSt → DieSt) : (modDie d f s).logSmall = s.logSmall := rfl
@[simp] theorem modDie_logFull (d : Nat) (f : DieSt → DieSt) : (modDie d f s).logFull = s.logFull := rfl
@[simp] theorem modDie_msix (d : Nat) (f : DieSt → DieSt) : (modDie d f s).msix = s.msix := rfl
@[simp] theorem modDie_reports (d : Nat) (f : DieSt → DieSt) : (modDie d f s).reports = s.reports := rfl
@[simp] theorem modDie_sctx (d : Nat) (f : DieSt → DieSt) : (modDie d f s).sctx = s.sctx := rfl
@[simp] theorem modDie_accs (d : Nat) (f : DieSt → DieSt) : (modDie d f s).accs = s.accs := rfl
@[simp] theorem modDie_stkReqs (d : Nat) (f : DieSt → DieSt) : (modDie d f s).stkReqs = s.stkReqs := rfl
@[simp] theorem modDie_ports (d : Nat) (f : DieSt → DieSt) : (modDie d f s).ports = s.ports := rfl
@[simp] theorem modDie_arrived (d : Nat) (f : DieSt → DieSt) : (modDie d f s).arrived = s.arrived := rfl
@[simp] theorem modDie_txns (d : Nat) (f : DieSt → DieSt) : (modDie d f s).txns = s.txns := rfl
@[simp] theorem modDie_nextTxn (d : Nat) (f : DieSt → DieSt) : (modDie d f s).nextTxn = s.nextTxn := rfl
@[simp] theorem modDie_inject (d : Nat) (f : DieSt → DieSt) : (modDie d f s).inject = s.inject := rfl
@[simp] theorem modDie_peerLost (d : Nat) (f : DieSt → DieSt) : (modDie d f s).peerLost = s.peerLost := rfl
@[simp] theorem modDie_aborted (d : Nat) (f : DieSt → DieSt) : (modDie d f s).aborted = s.aborted := rfl
@[simp] theorem modDie_epochTop (d : Nat) (f : DieSt → DieSt) : (modDie d f s).epochTop = s.epochTop := rfl
@[simp] theorem modDie_rdma (d : Nat) (f : DieSt → DieSt) : (modDie d f s).rdma = s.rdma := rfl
@[simp] theorem modDie_rdmaOut (d : Nat) (f : DieSt → DieSt) : (modDie d f s).rdmaOut = s.rdmaOut := rfl
@[simp] theorem modDie_nextOp (d : Nat) (f : DieSt → DieSt) : (modDie d f s).nextOp = s.nextOp := rfl
@[simp] theorem modDie_qps (d : Nat) (f : DieSt → DieSt) : (modDie d f s).qps = s.qps := rfl
@[simp] theorem modDie_replies (d : Nat) (f : DieSt → DieSt) : (modDie d f s).replies = s.replies := rfl
@[simp] theorem modDie_mqpStage (d : Nat) (f : DieSt → DieSt) : (modDie d f s).mqpStage = s.mqpStage := rfl
@[simp] theorem modDie_htStage (d : Nat) (f : DieSt → DieSt) : (modDie d f s).htStage = s.htStage := rfl
@[simp] theorem modDie_iws (d : Nat) (f : DieSt → DieSt) : (modDie d f s).iws = s.iws := rfl
@[simp] theorem modDie_inHeld (d : Nat) (f : DieSt → DieSt) : (modDie d f s).inHeld = s.inHeld := rfl
@[simp] theorem modDie_spUp (d : Nat) (f : DieSt → DieSt) : (modDie d f s).spUp = s.spUp := rfl
@[simp] theorem modDie_cpUp (d : Nat) (f : DieSt → DieSt) : (modDie d f s).cpUp = s.cpUp := rfl
@[simp] theorem modDie_i3cAddr (d : Nat) (f : DieSt → DieSt) : (modDie d f s).i3cAddr = s.i3cAddr := rfl
@[simp] theorem modDie_waitJobs (d : Nat) (f : DieSt → DieSt) : (modDie d f s).waitJobs = s.waitJobs := rfl
@[simp] theorem modDie_job (d : Nat) (f : DieSt → DieSt) : (modDie d f s).job = s.job := rfl
@[simp] theorem modDie_hold (d : Nat) (f : DieSt → DieSt) : (modDie d f s).hold = s.hold := rfl
@[simp] theorem modDie_cplCount (d : Nat) (f : DieSt → DieSt) : (modDie d f s).cplCount = s.cplCount := rfl
@[simp] theorem modDie_cplWait (d : Nat) (f : DieSt → DieSt) : (modDie d f s).cplWait = s.cplWait := rfl
@[simp] theorem modDie_ringHeld (d : Nat) (f : DieSt → DieSt) : (modDie d f s).ringHeld = s.ringHeld := rfl
@[simp] theorem modDie_ibis (d : Nat) (f : DieSt → DieSt) : (modDie d f s).ibis = s.ibis := rfl
@[simp] theorem modDie_invCtr (d : Nat) (f : DieSt → DieSt) : (modDie d f s).invCtr = s.invCtr := rfl
@[simp] theorem modDie_ringSeen (d : Nat) (f : DieSt → DieSt) : (modDie d f s).ringSeen = s.ringSeen := rfl
@[simp] theorem modDie_freePg (d : Nat) (f : DieSt → DieSt) : (modDie d f s).freePg = s.freePg := rfl
@[simp] theorem modDie_freeTbl (d : Nat) (f : DieSt → DieSt) : (modDie d f s).freeTbl = s.freeTbl := rfl
@[simp] theorem modDie_train (d : Nat) (f : DieSt → DieSt) : (modDie d f s).train = s.train := rfl
@[simp] theorem modDie_serve (d : Nat) (f : DieSt → DieSt) : (modDie d f s).serve = s.serve := rfl
@[simp] theorem modDie_observed (d : Nat) (f : DieSt → DieSt) : (modDie d f s).observed = s.observed := rfl
@[simp] theorem modDie_unitEvs (d : Nat) (f : DieSt → DieSt) : (modDie d f s).unitEvs = s.unitEvs := rfl
@[simp] theorem modDie_stale (d : Nat) (f : DieSt → DieSt) : (modDie d f s).stale = s.stale := rfl
@[simp] theorem modDie_outOfSvc (d : Nat) (f : DieSt → DieSt) : (modDie d f s).outOfSvc = s.outOfSvc := rfl
@[simp] theorem modDie_katLast (d : Nat) (f : DieSt → DieSt) : (modDie d f s).katLast = s.katLast := rfl
@[simp] theorem modDie_katOn (d : Nat) (f : DieSt → DieSt) : (modDie d f s).katOn = s.katOn := rfl
@[simp] theorem modDie_disagree (d : Nat) (f : DieSt → DieSt) : (modDie d f s).disagree = s.disagree := rfl
@[simp] theorem modDie_replacing (d : Nat) (f : DieSt → DieSt) : (modDie d f s).replacing = s.replacing := rfl
@[simp] theorem modDie_histPos (d : Nat) (f : DieSt → DieSt) : (modDie d f s).histPos = s.histPos := rfl
@[simp] theorem modDie_histSeen (d : Nat) (f : DieSt → DieSt) : (modDie d f s).histSeen = s.histSeen := rfl
@[simp] theorem modDie_histHour (d : Nat) (f : DieSt → DieSt) : (modDie d f s).histHour = s.histHour := rfl
@[simp] theorem modDie_histWait (d : Nat) (f : DieSt → DieSt) : (modDie d f s).histWait = s.histWait := rfl
@[simp] theorem modDie_monitors (d : Nat) (f : DieSt → DieSt) : (modDie d f s).monitors = s.monitors := rfl
@[simp] theorem modDie_monTest (d : Nat) (f : DieSt → DieSt) : (modDie d f s).monTest = s.monTest := rfl
@[simp] theorem modDie_landTest (d : Nat) (f : DieSt → DieSt) : (modDie d f s).landTest = s.landTest := rfl
@[simp] theorem modDie_pw (d : Nat) (f : DieSt → DieSt) : (modDie d f s).pw = s.pw := rfl
@[simp] theorem modDie_procs (d : Nat) (f : DieSt → DieSt) : (modDie d f s).procs = s.procs := rfl
@[simp] theorem modDie_update (d : Nat) (f : DieSt → DieSt) : (modDie d f s).update = s.update := rfl
@[simp] theorem modDie_nonces (d : Nat) (f : DieSt → DieSt) : (modDie d f s).nonces = s.nonces := rfl
@[simp] theorem modDie_keyStore (d : Nat) (f : DieSt → DieSt) : (modDie d f s).keyStore = s.keyStore := rfl
@[simp] theorem modDie_clearing (d : Nat) (f : DieSt → DieSt) : (modDie d f s).clearing = s.clearing := rfl
@[simp] theorem modDie_halfPh (d : Nat) (f : DieSt → DieSt) : (modDie d f s).halfPh = s.halfPh := rfl
@[simp] theorem modDie_losses (d : Nat) (f : DieSt → DieSt) : (modDie d f s).losses = s.losses := rfl

/-! ### modPort -/

@[simp] theorem modPort_pending (p : Nat) (f : TorusPort → TorusPort) : (modPort p f s).pending = s.pending := rfl
@[simp] theorem modPort_time (p : Nat) (f : TorusPort → TorusPort) : (modPort p f s).time = s.time := rfl
@[simp] theorem modPort_pwrOk (p : Nat) (f : TorusPort → TorusPort) : (modPort p f s).pwrOk = s.pwrOk := rfl
@[simp] theorem modPort_pkgRstN (p : Nat) (f : TorusPort → TorusPort) : (modPort p f s).pkgRstN = s.pkgRstN := rfl
@[simp] theorem modPort_life (p : Nat) (f : TorusPort → TorusPort) : (modPort p f s).life = s.life := rfl
@[simp] theorem modPort_lands (p : Nat) (f : TorusPort → TorusPort) : (modPort p f s).lands = s.lands := rfl
@[simp] theorem modPort_fuses (p : Nat) (f : TorusPort → TorusPort) : (modPort p f s).fuses = s.fuses := rfl
@[simp] theorem modPort_regs (p : Nat) (f : TorusPort → TorusPort) : (modPort p f s).regs = s.regs := rfl
@[simp] theorem modPort_mem (p : Nat) (f : TorusPort → TorusPort) : (modPort p f s).mem = s.mem := rfl
@[simp] theorem modPort_flash (p : Nat) (f : TorusPort → TorusPort) : (modPort p f s).flash = s.flash := rfl
@[simp] theorem modPort_logMem (p : Nat) (f : TorusPort → TorusPort) : (modPort p f s).logMem = s.logMem := rfl
@[simp] theorem modPort_cores (p : Nat) (f : TorusPort → TorusPort) : (modPort p f s).cores = s.cores := rfl
@[simp] theorem modPort_groves (p : Nat) (f : TorusPort → TorusPort) : (modPort p f s).groves = s.groves := rfl
@[simp] theorem modPort_ctxs (p : Nat) (f : TorusPort → TorusPort) : (modPort p f s).ctxs = s.ctxs := rfl
@[simp] theorem modPort_cutNotes (p : Nat) (f : TorusPort → TorusPort) : (modPort p f s).cutNotes = s.cutNotes := rfl
@[simp] theorem modPort_ride (p : Nat) (f : TorusPort → TorusPort) : (modPort p f s).ride = s.ride := rfl
@[simp] theorem modPort_xfers (p : Nat) (f : TorusPort → TorusPort) : (modPort p f s).xfers = s.xfers := rfl
@[simp] theorem modPort_rideDone (p : Nat) (f : TorusPort → TorusPort) : (modPort p f s).rideDone = s.rideDone := rfl
@[simp] theorem modPort_rideNext (p : Nat) (f : TorusPort → TorusPort) : (modPort p f s).rideNext = s.rideNext := rfl
@[simp] theorem modPort_fadds (p : Nat) (f : TorusPort → TorusPort) : (modPort p f s).fadds = s.fadds := rfl
@[simp] theorem modPort_satAt (p : Nat) (f : TorusPort → TorusPort) : (modPort p f s).satAt = s.satAt := rfl
@[simp] theorem modPort_watches (p : Nat) (f : TorusPort → TorusPort) : (modPort p f s).watches = s.watches := rfl
@[simp] theorem modPort_drops (p : Nat) (f : TorusPort → TorusPort) : (modPort p f s).drops = s.drops := rfl
@[simp] theorem modPort_restores (p : Nat) (f : TorusPort → TorusPort) : (modPort p f s).restores = s.restores := rfl
@[simp] theorem modPort_invWaits (p : Nat) (f : TorusPort → TorusPort) : (modPort p f s).invWaits = s.invWaits := rfl
@[simp] theorem modPort_poison (p : Nat) (f : TorusPort → TorusPort) : (modPort p f s).poison = s.poison := rfl
@[simp] theorem modPort_logSmall (p : Nat) (f : TorusPort → TorusPort) : (modPort p f s).logSmall = s.logSmall := rfl
@[simp] theorem modPort_logFull (p : Nat) (f : TorusPort → TorusPort) : (modPort p f s).logFull = s.logFull := rfl
@[simp] theorem modPort_msix (p : Nat) (f : TorusPort → TorusPort) : (modPort p f s).msix = s.msix := rfl
@[simp] theorem modPort_reports (p : Nat) (f : TorusPort → TorusPort) : (modPort p f s).reports = s.reports := rfl
@[simp] theorem modPort_sctx (p : Nat) (f : TorusPort → TorusPort) : (modPort p f s).sctx = s.sctx := rfl
@[simp] theorem modPort_accs (p : Nat) (f : TorusPort → TorusPort) : (modPort p f s).accs = s.accs := rfl
@[simp] theorem modPort_dies (p : Nat) (f : TorusPort → TorusPort) : (modPort p f s).dies = s.dies := rfl
@[simp] theorem modPort_stkReqs (p : Nat) (f : TorusPort → TorusPort) : (modPort p f s).stkReqs = s.stkReqs := rfl
@[simp] theorem modPort_arrived (p : Nat) (f : TorusPort → TorusPort) : (modPort p f s).arrived = s.arrived := rfl
@[simp] theorem modPort_txns (p : Nat) (f : TorusPort → TorusPort) : (modPort p f s).txns = s.txns := rfl
@[simp] theorem modPort_nextTxn (p : Nat) (f : TorusPort → TorusPort) : (modPort p f s).nextTxn = s.nextTxn := rfl
@[simp] theorem modPort_inject (p : Nat) (f : TorusPort → TorusPort) : (modPort p f s).inject = s.inject := rfl
@[simp] theorem modPort_peerLost (p : Nat) (f : TorusPort → TorusPort) : (modPort p f s).peerLost = s.peerLost := rfl
@[simp] theorem modPort_aborted (p : Nat) (f : TorusPort → TorusPort) : (modPort p f s).aborted = s.aborted := rfl
@[simp] theorem modPort_epochTop (p : Nat) (f : TorusPort → TorusPort) : (modPort p f s).epochTop = s.epochTop := rfl
@[simp] theorem modPort_rdma (p : Nat) (f : TorusPort → TorusPort) : (modPort p f s).rdma = s.rdma := rfl
@[simp] theorem modPort_rdmaOut (p : Nat) (f : TorusPort → TorusPort) : (modPort p f s).rdmaOut = s.rdmaOut := rfl
@[simp] theorem modPort_nextOp (p : Nat) (f : TorusPort → TorusPort) : (modPort p f s).nextOp = s.nextOp := rfl
@[simp] theorem modPort_qps (p : Nat) (f : TorusPort → TorusPort) : (modPort p f s).qps = s.qps := rfl
@[simp] theorem modPort_replies (p : Nat) (f : TorusPort → TorusPort) : (modPort p f s).replies = s.replies := rfl
@[simp] theorem modPort_mqpStage (p : Nat) (f : TorusPort → TorusPort) : (modPort p f s).mqpStage = s.mqpStage := rfl
@[simp] theorem modPort_htStage (p : Nat) (f : TorusPort → TorusPort) : (modPort p f s).htStage = s.htStage := rfl
@[simp] theorem modPort_iws (p : Nat) (f : TorusPort → TorusPort) : (modPort p f s).iws = s.iws := rfl
@[simp] theorem modPort_inHeld (p : Nat) (f : TorusPort → TorusPort) : (modPort p f s).inHeld = s.inHeld := rfl
@[simp] theorem modPort_spUp (p : Nat) (f : TorusPort → TorusPort) : (modPort p f s).spUp = s.spUp := rfl
@[simp] theorem modPort_cpUp (p : Nat) (f : TorusPort → TorusPort) : (modPort p f s).cpUp = s.cpUp := rfl
@[simp] theorem modPort_i3cAddr (p : Nat) (f : TorusPort → TorusPort) : (modPort p f s).i3cAddr = s.i3cAddr := rfl
@[simp] theorem modPort_waitJobs (p : Nat) (f : TorusPort → TorusPort) : (modPort p f s).waitJobs = s.waitJobs := rfl
@[simp] theorem modPort_job (p : Nat) (f : TorusPort → TorusPort) : (modPort p f s).job = s.job := rfl
@[simp] theorem modPort_hold (p : Nat) (f : TorusPort → TorusPort) : (modPort p f s).hold = s.hold := rfl
@[simp] theorem modPort_cplCount (p : Nat) (f : TorusPort → TorusPort) : (modPort p f s).cplCount = s.cplCount := rfl
@[simp] theorem modPort_cplWait (p : Nat) (f : TorusPort → TorusPort) : (modPort p f s).cplWait = s.cplWait := rfl
@[simp] theorem modPort_ringHeld (p : Nat) (f : TorusPort → TorusPort) : (modPort p f s).ringHeld = s.ringHeld := rfl
@[simp] theorem modPort_ibis (p : Nat) (f : TorusPort → TorusPort) : (modPort p f s).ibis = s.ibis := rfl
@[simp] theorem modPort_invCtr (p : Nat) (f : TorusPort → TorusPort) : (modPort p f s).invCtr = s.invCtr := rfl
@[simp] theorem modPort_ringSeen (p : Nat) (f : TorusPort → TorusPort) : (modPort p f s).ringSeen = s.ringSeen := rfl
@[simp] theorem modPort_freePg (p : Nat) (f : TorusPort → TorusPort) : (modPort p f s).freePg = s.freePg := rfl
@[simp] theorem modPort_freeTbl (p : Nat) (f : TorusPort → TorusPort) : (modPort p f s).freeTbl = s.freeTbl := rfl
@[simp] theorem modPort_train (p : Nat) (f : TorusPort → TorusPort) : (modPort p f s).train = s.train := rfl
@[simp] theorem modPort_serve (p : Nat) (f : TorusPort → TorusPort) : (modPort p f s).serve = s.serve := rfl
@[simp] theorem modPort_observed (p : Nat) (f : TorusPort → TorusPort) : (modPort p f s).observed = s.observed := rfl
@[simp] theorem modPort_unitEvs (p : Nat) (f : TorusPort → TorusPort) : (modPort p f s).unitEvs = s.unitEvs := rfl
@[simp] theorem modPort_stale (p : Nat) (f : TorusPort → TorusPort) : (modPort p f s).stale = s.stale := rfl
@[simp] theorem modPort_outOfSvc (p : Nat) (f : TorusPort → TorusPort) : (modPort p f s).outOfSvc = s.outOfSvc := rfl
@[simp] theorem modPort_katLast (p : Nat) (f : TorusPort → TorusPort) : (modPort p f s).katLast = s.katLast := rfl
@[simp] theorem modPort_katOn (p : Nat) (f : TorusPort → TorusPort) : (modPort p f s).katOn = s.katOn := rfl
@[simp] theorem modPort_disagree (p : Nat) (f : TorusPort → TorusPort) : (modPort p f s).disagree = s.disagree := rfl
@[simp] theorem modPort_replacing (p : Nat) (f : TorusPort → TorusPort) : (modPort p f s).replacing = s.replacing := rfl
@[simp] theorem modPort_histPos (p : Nat) (f : TorusPort → TorusPort) : (modPort p f s).histPos = s.histPos := rfl
@[simp] theorem modPort_histSeen (p : Nat) (f : TorusPort → TorusPort) : (modPort p f s).histSeen = s.histSeen := rfl
@[simp] theorem modPort_histHour (p : Nat) (f : TorusPort → TorusPort) : (modPort p f s).histHour = s.histHour := rfl
@[simp] theorem modPort_histWait (p : Nat) (f : TorusPort → TorusPort) : (modPort p f s).histWait = s.histWait := rfl
@[simp] theorem modPort_monitors (p : Nat) (f : TorusPort → TorusPort) : (modPort p f s).monitors = s.monitors := rfl
@[simp] theorem modPort_monTest (p : Nat) (f : TorusPort → TorusPort) : (modPort p f s).monTest = s.monTest := rfl
@[simp] theorem modPort_landTest (p : Nat) (f : TorusPort → TorusPort) : (modPort p f s).landTest = s.landTest := rfl
@[simp] theorem modPort_pw (p : Nat) (f : TorusPort → TorusPort) : (modPort p f s).pw = s.pw := rfl
@[simp] theorem modPort_procs (p : Nat) (f : TorusPort → TorusPort) : (modPort p f s).procs = s.procs := rfl
@[simp] theorem modPort_update (p : Nat) (f : TorusPort → TorusPort) : (modPort p f s).update = s.update := rfl
@[simp] theorem modPort_nonces (p : Nat) (f : TorusPort → TorusPort) : (modPort p f s).nonces = s.nonces := rfl
@[simp] theorem modPort_keyStore (p : Nat) (f : TorusPort → TorusPort) : (modPort p f s).keyStore = s.keyStore := rfl
@[simp] theorem modPort_clearing (p : Nat) (f : TorusPort → TorusPort) : (modPort p f s).clearing = s.clearing := rfl
@[simp] theorem modPort_halfPh (p : Nat) (f : TorusPort → TorusPort) : (modPort p f s).halfPh = s.halfPh := rfl
@[simp] theorem modPort_losses (p : Nat) (f : TorusPort → TorusPort) : (modPort p f s).losses = s.losses := rfl

/-! ### modPw -/

@[simp] theorem modPw_pending (g : Nat) (f : PwGrove → PwGrove) : (modPw g f s).pending = s.pending := rfl
@[simp] theorem modPw_time (g : Nat) (f : PwGrove → PwGrove) : (modPw g f s).time = s.time := rfl
@[simp] theorem modPw_pwrOk (g : Nat) (f : PwGrove → PwGrove) : (modPw g f s).pwrOk = s.pwrOk := rfl
@[simp] theorem modPw_pkgRstN (g : Nat) (f : PwGrove → PwGrove) : (modPw g f s).pkgRstN = s.pkgRstN := rfl
@[simp] theorem modPw_life (g : Nat) (f : PwGrove → PwGrove) : (modPw g f s).life = s.life := rfl
@[simp] theorem modPw_lands (g : Nat) (f : PwGrove → PwGrove) : (modPw g f s).lands = s.lands := rfl
@[simp] theorem modPw_fuses (g : Nat) (f : PwGrove → PwGrove) : (modPw g f s).fuses = s.fuses := rfl
@[simp] theorem modPw_regs (g : Nat) (f : PwGrove → PwGrove) : (modPw g f s).regs = s.regs := rfl
@[simp] theorem modPw_mem (g : Nat) (f : PwGrove → PwGrove) : (modPw g f s).mem = s.mem := rfl
@[simp] theorem modPw_flash (g : Nat) (f : PwGrove → PwGrove) : (modPw g f s).flash = s.flash := rfl
@[simp] theorem modPw_logMem (g : Nat) (f : PwGrove → PwGrove) : (modPw g f s).logMem = s.logMem := rfl
@[simp] theorem modPw_cores (g : Nat) (f : PwGrove → PwGrove) : (modPw g f s).cores = s.cores := rfl
@[simp] theorem modPw_groves (g : Nat) (f : PwGrove → PwGrove) : (modPw g f s).groves = s.groves := rfl
@[simp] theorem modPw_ctxs (g : Nat) (f : PwGrove → PwGrove) : (modPw g f s).ctxs = s.ctxs := rfl
@[simp] theorem modPw_cutNotes (g : Nat) (f : PwGrove → PwGrove) : (modPw g f s).cutNotes = s.cutNotes := rfl
@[simp] theorem modPw_ride (g : Nat) (f : PwGrove → PwGrove) : (modPw g f s).ride = s.ride := rfl
@[simp] theorem modPw_xfers (g : Nat) (f : PwGrove → PwGrove) : (modPw g f s).xfers = s.xfers := rfl
@[simp] theorem modPw_rideDone (g : Nat) (f : PwGrove → PwGrove) : (modPw g f s).rideDone = s.rideDone := rfl
@[simp] theorem modPw_rideNext (g : Nat) (f : PwGrove → PwGrove) : (modPw g f s).rideNext = s.rideNext := rfl
@[simp] theorem modPw_fadds (g : Nat) (f : PwGrove → PwGrove) : (modPw g f s).fadds = s.fadds := rfl
@[simp] theorem modPw_satAt (g : Nat) (f : PwGrove → PwGrove) : (modPw g f s).satAt = s.satAt := rfl
@[simp] theorem modPw_watches (g : Nat) (f : PwGrove → PwGrove) : (modPw g f s).watches = s.watches := rfl
@[simp] theorem modPw_drops (g : Nat) (f : PwGrove → PwGrove) : (modPw g f s).drops = s.drops := rfl
@[simp] theorem modPw_restores (g : Nat) (f : PwGrove → PwGrove) : (modPw g f s).restores = s.restores := rfl
@[simp] theorem modPw_invWaits (g : Nat) (f : PwGrove → PwGrove) : (modPw g f s).invWaits = s.invWaits := rfl
@[simp] theorem modPw_poison (g : Nat) (f : PwGrove → PwGrove) : (modPw g f s).poison = s.poison := rfl
@[simp] theorem modPw_logSmall (g : Nat) (f : PwGrove → PwGrove) : (modPw g f s).logSmall = s.logSmall := rfl
@[simp] theorem modPw_logFull (g : Nat) (f : PwGrove → PwGrove) : (modPw g f s).logFull = s.logFull := rfl
@[simp] theorem modPw_msix (g : Nat) (f : PwGrove → PwGrove) : (modPw g f s).msix = s.msix := rfl
@[simp] theorem modPw_reports (g : Nat) (f : PwGrove → PwGrove) : (modPw g f s).reports = s.reports := rfl
@[simp] theorem modPw_sctx (g : Nat) (f : PwGrove → PwGrove) : (modPw g f s).sctx = s.sctx := rfl
@[simp] theorem modPw_accs (g : Nat) (f : PwGrove → PwGrove) : (modPw g f s).accs = s.accs := rfl
@[simp] theorem modPw_dies (g : Nat) (f : PwGrove → PwGrove) : (modPw g f s).dies = s.dies := rfl
@[simp] theorem modPw_stkReqs (g : Nat) (f : PwGrove → PwGrove) : (modPw g f s).stkReqs = s.stkReqs := rfl
@[simp] theorem modPw_ports (g : Nat) (f : PwGrove → PwGrove) : (modPw g f s).ports = s.ports := rfl
@[simp] theorem modPw_arrived (g : Nat) (f : PwGrove → PwGrove) : (modPw g f s).arrived = s.arrived := rfl
@[simp] theorem modPw_txns (g : Nat) (f : PwGrove → PwGrove) : (modPw g f s).txns = s.txns := rfl
@[simp] theorem modPw_nextTxn (g : Nat) (f : PwGrove → PwGrove) : (modPw g f s).nextTxn = s.nextTxn := rfl
@[simp] theorem modPw_inject (g : Nat) (f : PwGrove → PwGrove) : (modPw g f s).inject = s.inject := rfl
@[simp] theorem modPw_peerLost (g : Nat) (f : PwGrove → PwGrove) : (modPw g f s).peerLost = s.peerLost := rfl
@[simp] theorem modPw_aborted (g : Nat) (f : PwGrove → PwGrove) : (modPw g f s).aborted = s.aborted := rfl
@[simp] theorem modPw_epochTop (g : Nat) (f : PwGrove → PwGrove) : (modPw g f s).epochTop = s.epochTop := rfl
@[simp] theorem modPw_rdma (g : Nat) (f : PwGrove → PwGrove) : (modPw g f s).rdma = s.rdma := rfl
@[simp] theorem modPw_rdmaOut (g : Nat) (f : PwGrove → PwGrove) : (modPw g f s).rdmaOut = s.rdmaOut := rfl
@[simp] theorem modPw_nextOp (g : Nat) (f : PwGrove → PwGrove) : (modPw g f s).nextOp = s.nextOp := rfl
@[simp] theorem modPw_qps (g : Nat) (f : PwGrove → PwGrove) : (modPw g f s).qps = s.qps := rfl
@[simp] theorem modPw_replies (g : Nat) (f : PwGrove → PwGrove) : (modPw g f s).replies = s.replies := rfl
@[simp] theorem modPw_mqpStage (g : Nat) (f : PwGrove → PwGrove) : (modPw g f s).mqpStage = s.mqpStage := rfl
@[simp] theorem modPw_htStage (g : Nat) (f : PwGrove → PwGrove) : (modPw g f s).htStage = s.htStage := rfl
@[simp] theorem modPw_iws (g : Nat) (f : PwGrove → PwGrove) : (modPw g f s).iws = s.iws := rfl
@[simp] theorem modPw_inHeld (g : Nat) (f : PwGrove → PwGrove) : (modPw g f s).inHeld = s.inHeld := rfl
@[simp] theorem modPw_spUp (g : Nat) (f : PwGrove → PwGrove) : (modPw g f s).spUp = s.spUp := rfl
@[simp] theorem modPw_cpUp (g : Nat) (f : PwGrove → PwGrove) : (modPw g f s).cpUp = s.cpUp := rfl
@[simp] theorem modPw_i3cAddr (g : Nat) (f : PwGrove → PwGrove) : (modPw g f s).i3cAddr = s.i3cAddr := rfl
@[simp] theorem modPw_waitJobs (g : Nat) (f : PwGrove → PwGrove) : (modPw g f s).waitJobs = s.waitJobs := rfl
@[simp] theorem modPw_job (g : Nat) (f : PwGrove → PwGrove) : (modPw g f s).job = s.job := rfl
@[simp] theorem modPw_hold (g : Nat) (f : PwGrove → PwGrove) : (modPw g f s).hold = s.hold := rfl
@[simp] theorem modPw_cplCount (g : Nat) (f : PwGrove → PwGrove) : (modPw g f s).cplCount = s.cplCount := rfl
@[simp] theorem modPw_cplWait (g : Nat) (f : PwGrove → PwGrove) : (modPw g f s).cplWait = s.cplWait := rfl
@[simp] theorem modPw_ringHeld (g : Nat) (f : PwGrove → PwGrove) : (modPw g f s).ringHeld = s.ringHeld := rfl
@[simp] theorem modPw_ibis (g : Nat) (f : PwGrove → PwGrove) : (modPw g f s).ibis = s.ibis := rfl
@[simp] theorem modPw_invCtr (g : Nat) (f : PwGrove → PwGrove) : (modPw g f s).invCtr = s.invCtr := rfl
@[simp] theorem modPw_ringSeen (g : Nat) (f : PwGrove → PwGrove) : (modPw g f s).ringSeen = s.ringSeen := rfl
@[simp] theorem modPw_freePg (g : Nat) (f : PwGrove → PwGrove) : (modPw g f s).freePg = s.freePg := rfl
@[simp] theorem modPw_freeTbl (g : Nat) (f : PwGrove → PwGrove) : (modPw g f s).freeTbl = s.freeTbl := rfl
@[simp] theorem modPw_train (g : Nat) (f : PwGrove → PwGrove) : (modPw g f s).train = s.train := rfl
@[simp] theorem modPw_serve (g : Nat) (f : PwGrove → PwGrove) : (modPw g f s).serve = s.serve := rfl
@[simp] theorem modPw_observed (g : Nat) (f : PwGrove → PwGrove) : (modPw g f s).observed = s.observed := rfl
@[simp] theorem modPw_unitEvs (g : Nat) (f : PwGrove → PwGrove) : (modPw g f s).unitEvs = s.unitEvs := rfl
@[simp] theorem modPw_stale (g : Nat) (f : PwGrove → PwGrove) : (modPw g f s).stale = s.stale := rfl
@[simp] theorem modPw_outOfSvc (g : Nat) (f : PwGrove → PwGrove) : (modPw g f s).outOfSvc = s.outOfSvc := rfl
@[simp] theorem modPw_katLast (g : Nat) (f : PwGrove → PwGrove) : (modPw g f s).katLast = s.katLast := rfl
@[simp] theorem modPw_katOn (g : Nat) (f : PwGrove → PwGrove) : (modPw g f s).katOn = s.katOn := rfl
@[simp] theorem modPw_disagree (g : Nat) (f : PwGrove → PwGrove) : (modPw g f s).disagree = s.disagree := rfl
@[simp] theorem modPw_replacing (g : Nat) (f : PwGrove → PwGrove) : (modPw g f s).replacing = s.replacing := rfl
@[simp] theorem modPw_histPos (g : Nat) (f : PwGrove → PwGrove) : (modPw g f s).histPos = s.histPos := rfl
@[simp] theorem modPw_histSeen (g : Nat) (f : PwGrove → PwGrove) : (modPw g f s).histSeen = s.histSeen := rfl
@[simp] theorem modPw_histHour (g : Nat) (f : PwGrove → PwGrove) : (modPw g f s).histHour = s.histHour := rfl
@[simp] theorem modPw_histWait (g : Nat) (f : PwGrove → PwGrove) : (modPw g f s).histWait = s.histWait := rfl
@[simp] theorem modPw_monitors (g : Nat) (f : PwGrove → PwGrove) : (modPw g f s).monitors = s.monitors := rfl
@[simp] theorem modPw_monTest (g : Nat) (f : PwGrove → PwGrove) : (modPw g f s).monTest = s.monTest := rfl
@[simp] theorem modPw_landTest (g : Nat) (f : PwGrove → PwGrove) : (modPw g f s).landTest = s.landTest := rfl
@[simp] theorem modPw_procs (g : Nat) (f : PwGrove → PwGrove) : (modPw g f s).procs = s.procs := rfl
@[simp] theorem modPw_update (g : Nat) (f : PwGrove → PwGrove) : (modPw g f s).update = s.update := rfl
@[simp] theorem modPw_nonces (g : Nat) (f : PwGrove → PwGrove) : (modPw g f s).nonces = s.nonces := rfl
@[simp] theorem modPw_keyStore (g : Nat) (f : PwGrove → PwGrove) : (modPw g f s).keyStore = s.keyStore := rfl
@[simp] theorem modPw_clearing (g : Nat) (f : PwGrove → PwGrove) : (modPw g f s).clearing = s.clearing := rfl
@[simp] theorem modPw_halfPh (g : Nat) (f : PwGrove → PwGrove) : (modPw g f s).halfPh = s.halfPh := rfl
@[simp] theorem modPw_losses (g : Nat) (f : PwGrove → PwGrove) : (modPw g f s).losses = s.losses := rfl

/-! ### modProc -/

@[simp] theorem modProc_pending (p : Nat) (f : Proc → Proc) : (modProc p f s).pending = s.pending := rfl
@[simp] theorem modProc_time (p : Nat) (f : Proc → Proc) : (modProc p f s).time = s.time := rfl
@[simp] theorem modProc_pwrOk (p : Nat) (f : Proc → Proc) : (modProc p f s).pwrOk = s.pwrOk := rfl
@[simp] theorem modProc_pkgRstN (p : Nat) (f : Proc → Proc) : (modProc p f s).pkgRstN = s.pkgRstN := rfl
@[simp] theorem modProc_life (p : Nat) (f : Proc → Proc) : (modProc p f s).life = s.life := rfl
@[simp] theorem modProc_lands (p : Nat) (f : Proc → Proc) : (modProc p f s).lands = s.lands := rfl
@[simp] theorem modProc_fuses (p : Nat) (f : Proc → Proc) : (modProc p f s).fuses = s.fuses := rfl
@[simp] theorem modProc_regs (p : Nat) (f : Proc → Proc) : (modProc p f s).regs = s.regs := rfl
@[simp] theorem modProc_mem (p : Nat) (f : Proc → Proc) : (modProc p f s).mem = s.mem := rfl
@[simp] theorem modProc_flash (p : Nat) (f : Proc → Proc) : (modProc p f s).flash = s.flash := rfl
@[simp] theorem modProc_logMem (p : Nat) (f : Proc → Proc) : (modProc p f s).logMem = s.logMem := rfl
@[simp] theorem modProc_cores (p : Nat) (f : Proc → Proc) : (modProc p f s).cores = s.cores := rfl
@[simp] theorem modProc_groves (p : Nat) (f : Proc → Proc) : (modProc p f s).groves = s.groves := rfl
@[simp] theorem modProc_ctxs (p : Nat) (f : Proc → Proc) : (modProc p f s).ctxs = s.ctxs := rfl
@[simp] theorem modProc_cutNotes (p : Nat) (f : Proc → Proc) : (modProc p f s).cutNotes = s.cutNotes := rfl
@[simp] theorem modProc_ride (p : Nat) (f : Proc → Proc) : (modProc p f s).ride = s.ride := rfl
@[simp] theorem modProc_xfers (p : Nat) (f : Proc → Proc) : (modProc p f s).xfers = s.xfers := rfl
@[simp] theorem modProc_rideDone (p : Nat) (f : Proc → Proc) : (modProc p f s).rideDone = s.rideDone := rfl
@[simp] theorem modProc_rideNext (p : Nat) (f : Proc → Proc) : (modProc p f s).rideNext = s.rideNext := rfl
@[simp] theorem modProc_fadds (p : Nat) (f : Proc → Proc) : (modProc p f s).fadds = s.fadds := rfl
@[simp] theorem modProc_satAt (p : Nat) (f : Proc → Proc) : (modProc p f s).satAt = s.satAt := rfl
@[simp] theorem modProc_watches (p : Nat) (f : Proc → Proc) : (modProc p f s).watches = s.watches := rfl
@[simp] theorem modProc_drops (p : Nat) (f : Proc → Proc) : (modProc p f s).drops = s.drops := rfl
@[simp] theorem modProc_restores (p : Nat) (f : Proc → Proc) : (modProc p f s).restores = s.restores := rfl
@[simp] theorem modProc_invWaits (p : Nat) (f : Proc → Proc) : (modProc p f s).invWaits = s.invWaits := rfl
@[simp] theorem modProc_poison (p : Nat) (f : Proc → Proc) : (modProc p f s).poison = s.poison := rfl
@[simp] theorem modProc_logSmall (p : Nat) (f : Proc → Proc) : (modProc p f s).logSmall = s.logSmall := rfl
@[simp] theorem modProc_logFull (p : Nat) (f : Proc → Proc) : (modProc p f s).logFull = s.logFull := rfl
@[simp] theorem modProc_msix (p : Nat) (f : Proc → Proc) : (modProc p f s).msix = s.msix := rfl
@[simp] theorem modProc_reports (p : Nat) (f : Proc → Proc) : (modProc p f s).reports = s.reports := rfl
@[simp] theorem modProc_sctx (p : Nat) (f : Proc → Proc) : (modProc p f s).sctx = s.sctx := rfl
@[simp] theorem modProc_accs (p : Nat) (f : Proc → Proc) : (modProc p f s).accs = s.accs := rfl
@[simp] theorem modProc_dies (p : Nat) (f : Proc → Proc) : (modProc p f s).dies = s.dies := rfl
@[simp] theorem modProc_stkReqs (p : Nat) (f : Proc → Proc) : (modProc p f s).stkReqs = s.stkReqs := rfl
@[simp] theorem modProc_ports (p : Nat) (f : Proc → Proc) : (modProc p f s).ports = s.ports := rfl
@[simp] theorem modProc_arrived (p : Nat) (f : Proc → Proc) : (modProc p f s).arrived = s.arrived := rfl
@[simp] theorem modProc_txns (p : Nat) (f : Proc → Proc) : (modProc p f s).txns = s.txns := rfl
@[simp] theorem modProc_nextTxn (p : Nat) (f : Proc → Proc) : (modProc p f s).nextTxn = s.nextTxn := rfl
@[simp] theorem modProc_inject (p : Nat) (f : Proc → Proc) : (modProc p f s).inject = s.inject := rfl
@[simp] theorem modProc_peerLost (p : Nat) (f : Proc → Proc) : (modProc p f s).peerLost = s.peerLost := rfl
@[simp] theorem modProc_aborted (p : Nat) (f : Proc → Proc) : (modProc p f s).aborted = s.aborted := rfl
@[simp] theorem modProc_epochTop (p : Nat) (f : Proc → Proc) : (modProc p f s).epochTop = s.epochTop := rfl
@[simp] theorem modProc_rdma (p : Nat) (f : Proc → Proc) : (modProc p f s).rdma = s.rdma := rfl
@[simp] theorem modProc_rdmaOut (p : Nat) (f : Proc → Proc) : (modProc p f s).rdmaOut = s.rdmaOut := rfl
@[simp] theorem modProc_nextOp (p : Nat) (f : Proc → Proc) : (modProc p f s).nextOp = s.nextOp := rfl
@[simp] theorem modProc_qps (p : Nat) (f : Proc → Proc) : (modProc p f s).qps = s.qps := rfl
@[simp] theorem modProc_replies (p : Nat) (f : Proc → Proc) : (modProc p f s).replies = s.replies := rfl
@[simp] theorem modProc_mqpStage (p : Nat) (f : Proc → Proc) : (modProc p f s).mqpStage = s.mqpStage := rfl
@[simp] theorem modProc_htStage (p : Nat) (f : Proc → Proc) : (modProc p f s).htStage = s.htStage := rfl
@[simp] theorem modProc_iws (p : Nat) (f : Proc → Proc) : (modProc p f s).iws = s.iws := rfl
@[simp] theorem modProc_inHeld (p : Nat) (f : Proc → Proc) : (modProc p f s).inHeld = s.inHeld := rfl
@[simp] theorem modProc_spUp (p : Nat) (f : Proc → Proc) : (modProc p f s).spUp = s.spUp := rfl
@[simp] theorem modProc_cpUp (p : Nat) (f : Proc → Proc) : (modProc p f s).cpUp = s.cpUp := rfl
@[simp] theorem modProc_i3cAddr (p : Nat) (f : Proc → Proc) : (modProc p f s).i3cAddr = s.i3cAddr := rfl
@[simp] theorem modProc_waitJobs (p : Nat) (f : Proc → Proc) : (modProc p f s).waitJobs = s.waitJobs := rfl
@[simp] theorem modProc_job (p : Nat) (f : Proc → Proc) : (modProc p f s).job = s.job := rfl
@[simp] theorem modProc_hold (p : Nat) (f : Proc → Proc) : (modProc p f s).hold = s.hold := rfl
@[simp] theorem modProc_cplCount (p : Nat) (f : Proc → Proc) : (modProc p f s).cplCount = s.cplCount := rfl
@[simp] theorem modProc_cplWait (p : Nat) (f : Proc → Proc) : (modProc p f s).cplWait = s.cplWait := rfl
@[simp] theorem modProc_ringHeld (p : Nat) (f : Proc → Proc) : (modProc p f s).ringHeld = s.ringHeld := rfl
@[simp] theorem modProc_ibis (p : Nat) (f : Proc → Proc) : (modProc p f s).ibis = s.ibis := rfl
@[simp] theorem modProc_invCtr (p : Nat) (f : Proc → Proc) : (modProc p f s).invCtr = s.invCtr := rfl
@[simp] theorem modProc_ringSeen (p : Nat) (f : Proc → Proc) : (modProc p f s).ringSeen = s.ringSeen := rfl
@[simp] theorem modProc_freePg (p : Nat) (f : Proc → Proc) : (modProc p f s).freePg = s.freePg := rfl
@[simp] theorem modProc_freeTbl (p : Nat) (f : Proc → Proc) : (modProc p f s).freeTbl = s.freeTbl := rfl
@[simp] theorem modProc_train (p : Nat) (f : Proc → Proc) : (modProc p f s).train = s.train := rfl
@[simp] theorem modProc_serve (p : Nat) (f : Proc → Proc) : (modProc p f s).serve = s.serve := rfl
@[simp] theorem modProc_observed (p : Nat) (f : Proc → Proc) : (modProc p f s).observed = s.observed := rfl
@[simp] theorem modProc_unitEvs (p : Nat) (f : Proc → Proc) : (modProc p f s).unitEvs = s.unitEvs := rfl
@[simp] theorem modProc_stale (p : Nat) (f : Proc → Proc) : (modProc p f s).stale = s.stale := rfl
@[simp] theorem modProc_outOfSvc (p : Nat) (f : Proc → Proc) : (modProc p f s).outOfSvc = s.outOfSvc := rfl
@[simp] theorem modProc_katLast (p : Nat) (f : Proc → Proc) : (modProc p f s).katLast = s.katLast := rfl
@[simp] theorem modProc_katOn (p : Nat) (f : Proc → Proc) : (modProc p f s).katOn = s.katOn := rfl
@[simp] theorem modProc_disagree (p : Nat) (f : Proc → Proc) : (modProc p f s).disagree = s.disagree := rfl
@[simp] theorem modProc_replacing (p : Nat) (f : Proc → Proc) : (modProc p f s).replacing = s.replacing := rfl
@[simp] theorem modProc_histPos (p : Nat) (f : Proc → Proc) : (modProc p f s).histPos = s.histPos := rfl
@[simp] theorem modProc_histSeen (p : Nat) (f : Proc → Proc) : (modProc p f s).histSeen = s.histSeen := rfl
@[simp] theorem modProc_histHour (p : Nat) (f : Proc → Proc) : (modProc p f s).histHour = s.histHour := rfl
@[simp] theorem modProc_histWait (p : Nat) (f : Proc → Proc) : (modProc p f s).histWait = s.histWait := rfl
@[simp] theorem modProc_monitors (p : Nat) (f : Proc → Proc) : (modProc p f s).monitors = s.monitors := rfl
@[simp] theorem modProc_monTest (p : Nat) (f : Proc → Proc) : (modProc p f s).monTest = s.monTest := rfl
@[simp] theorem modProc_landTest (p : Nat) (f : Proc → Proc) : (modProc p f s).landTest = s.landTest := rfl
@[simp] theorem modProc_pw (p : Nat) (f : Proc → Proc) : (modProc p f s).pw = s.pw := rfl
@[simp] theorem modProc_update (p : Nat) (f : Proc → Proc) : (modProc p f s).update = s.update := rfl
@[simp] theorem modProc_nonces (p : Nat) (f : Proc → Proc) : (modProc p f s).nonces = s.nonces := rfl
@[simp] theorem modProc_keyStore (p : Nat) (f : Proc → Proc) : (modProc p f s).keyStore = s.keyStore := rfl
@[simp] theorem modProc_clearing (p : Nat) (f : Proc → Proc) : (modProc p f s).clearing = s.clearing := rfl
@[simp] theorem modProc_halfPh (p : Nat) (f : Proc → Proc) : (modProc p f s).halfPh = s.halfPh := rfl
@[simp] theorem modProc_losses (p : Nat) (f : Proc → Proc) : (modProc p f s).losses = s.losses := rfl

/-! ### memWrite -/

@[simp] theorem memWrite_pending (a : Nat) (b : Bytes) : (memWrite a b s).pending = s.pending := rfl
@[simp] theorem memWrite_time (a : Nat) (b : Bytes) : (memWrite a b s).time = s.time := rfl
@[simp] theorem memWrite_pwrOk (a : Nat) (b : Bytes) : (memWrite a b s).pwrOk = s.pwrOk := rfl
@[simp] theorem memWrite_pkgRstN (a : Nat) (b : Bytes) : (memWrite a b s).pkgRstN = s.pkgRstN := rfl
@[simp] theorem memWrite_life (a : Nat) (b : Bytes) : (memWrite a b s).life = s.life := rfl
@[simp] theorem memWrite_lands (a : Nat) (b : Bytes) : (memWrite a b s).lands = s.lands := rfl
@[simp] theorem memWrite_fuses (a : Nat) (b : Bytes) : (memWrite a b s).fuses = s.fuses := rfl
@[simp] theorem memWrite_regs (a : Nat) (b : Bytes) : (memWrite a b s).regs = s.regs := rfl
@[simp] theorem memWrite_flash (a : Nat) (b : Bytes) : (memWrite a b s).flash = s.flash := rfl
@[simp] theorem memWrite_logMem (a : Nat) (b : Bytes) : (memWrite a b s).logMem = s.logMem := rfl
@[simp] theorem memWrite_cores (a : Nat) (b : Bytes) : (memWrite a b s).cores = s.cores := rfl
@[simp] theorem memWrite_groves (a : Nat) (b : Bytes) : (memWrite a b s).groves = s.groves := rfl
@[simp] theorem memWrite_ctxs (a : Nat) (b : Bytes) : (memWrite a b s).ctxs = s.ctxs := rfl
@[simp] theorem memWrite_cutNotes (a : Nat) (b : Bytes) : (memWrite a b s).cutNotes = s.cutNotes := rfl
@[simp] theorem memWrite_ride (a : Nat) (b : Bytes) : (memWrite a b s).ride = s.ride := rfl
@[simp] theorem memWrite_xfers (a : Nat) (b : Bytes) : (memWrite a b s).xfers = s.xfers := rfl
@[simp] theorem memWrite_rideDone (a : Nat) (b : Bytes) : (memWrite a b s).rideDone = s.rideDone := rfl
@[simp] theorem memWrite_rideNext (a : Nat) (b : Bytes) : (memWrite a b s).rideNext = s.rideNext := rfl
@[simp] theorem memWrite_fadds (a : Nat) (b : Bytes) : (memWrite a b s).fadds = s.fadds := rfl
@[simp] theorem memWrite_satAt (a : Nat) (b : Bytes) : (memWrite a b s).satAt = s.satAt := rfl
@[simp] theorem memWrite_watches (a : Nat) (b : Bytes) : (memWrite a b s).watches = s.watches := rfl
@[simp] theorem memWrite_drops (a : Nat) (b : Bytes) : (memWrite a b s).drops = s.drops := rfl
@[simp] theorem memWrite_restores (a : Nat) (b : Bytes) : (memWrite a b s).restores = s.restores := rfl
@[simp] theorem memWrite_invWaits (a : Nat) (b : Bytes) : (memWrite a b s).invWaits = s.invWaits := rfl
@[simp] theorem memWrite_poison (a : Nat) (b : Bytes) : (memWrite a b s).poison = s.poison := rfl
@[simp] theorem memWrite_logSmall (a : Nat) (b : Bytes) : (memWrite a b s).logSmall = s.logSmall := rfl
@[simp] theorem memWrite_logFull (a : Nat) (b : Bytes) : (memWrite a b s).logFull = s.logFull := rfl
@[simp] theorem memWrite_msix (a : Nat) (b : Bytes) : (memWrite a b s).msix = s.msix := rfl
@[simp] theorem memWrite_reports (a : Nat) (b : Bytes) : (memWrite a b s).reports = s.reports := rfl
@[simp] theorem memWrite_sctx (a : Nat) (b : Bytes) : (memWrite a b s).sctx = s.sctx := rfl
@[simp] theorem memWrite_accs (a : Nat) (b : Bytes) : (memWrite a b s).accs = s.accs := rfl
@[simp] theorem memWrite_dies (a : Nat) (b : Bytes) : (memWrite a b s).dies = s.dies := rfl
@[simp] theorem memWrite_stkReqs (a : Nat) (b : Bytes) : (memWrite a b s).stkReqs = s.stkReqs := rfl
@[simp] theorem memWrite_ports (a : Nat) (b : Bytes) : (memWrite a b s).ports = s.ports := rfl
@[simp] theorem memWrite_arrived (a : Nat) (b : Bytes) : (memWrite a b s).arrived = s.arrived := rfl
@[simp] theorem memWrite_txns (a : Nat) (b : Bytes) : (memWrite a b s).txns = s.txns := rfl
@[simp] theorem memWrite_nextTxn (a : Nat) (b : Bytes) : (memWrite a b s).nextTxn = s.nextTxn := rfl
@[simp] theorem memWrite_inject (a : Nat) (b : Bytes) : (memWrite a b s).inject = s.inject := rfl
@[simp] theorem memWrite_peerLost (a : Nat) (b : Bytes) : (memWrite a b s).peerLost = s.peerLost := rfl
@[simp] theorem memWrite_aborted (a : Nat) (b : Bytes) : (memWrite a b s).aborted = s.aborted := rfl
@[simp] theorem memWrite_epochTop (a : Nat) (b : Bytes) : (memWrite a b s).epochTop = s.epochTop := rfl
@[simp] theorem memWrite_rdma (a : Nat) (b : Bytes) : (memWrite a b s).rdma = s.rdma := rfl
@[simp] theorem memWrite_rdmaOut (a : Nat) (b : Bytes) : (memWrite a b s).rdmaOut = s.rdmaOut := rfl
@[simp] theorem memWrite_nextOp (a : Nat) (b : Bytes) : (memWrite a b s).nextOp = s.nextOp := rfl
@[simp] theorem memWrite_qps (a : Nat) (b : Bytes) : (memWrite a b s).qps = s.qps := rfl
@[simp] theorem memWrite_replies (a : Nat) (b : Bytes) : (memWrite a b s).replies = s.replies := rfl
@[simp] theorem memWrite_mqpStage (a : Nat) (b : Bytes) : (memWrite a b s).mqpStage = s.mqpStage := rfl
@[simp] theorem memWrite_htStage (a : Nat) (b : Bytes) : (memWrite a b s).htStage = s.htStage := rfl
@[simp] theorem memWrite_iws (a : Nat) (b : Bytes) : (memWrite a b s).iws = s.iws := rfl
@[simp] theorem memWrite_inHeld (a : Nat) (b : Bytes) : (memWrite a b s).inHeld = s.inHeld := rfl
@[simp] theorem memWrite_spUp (a : Nat) (b : Bytes) : (memWrite a b s).spUp = s.spUp := rfl
@[simp] theorem memWrite_cpUp (a : Nat) (b : Bytes) : (memWrite a b s).cpUp = s.cpUp := rfl
@[simp] theorem memWrite_i3cAddr (a : Nat) (b : Bytes) : (memWrite a b s).i3cAddr = s.i3cAddr := rfl
@[simp] theorem memWrite_waitJobs (a : Nat) (b : Bytes) : (memWrite a b s).waitJobs = s.waitJobs := rfl
@[simp] theorem memWrite_job (a : Nat) (b : Bytes) : (memWrite a b s).job = s.job := rfl
@[simp] theorem memWrite_hold (a : Nat) (b : Bytes) : (memWrite a b s).hold = s.hold := rfl
@[simp] theorem memWrite_cplCount (a : Nat) (b : Bytes) : (memWrite a b s).cplCount = s.cplCount := rfl
@[simp] theorem memWrite_cplWait (a : Nat) (b : Bytes) : (memWrite a b s).cplWait = s.cplWait := rfl
@[simp] theorem memWrite_ringHeld (a : Nat) (b : Bytes) : (memWrite a b s).ringHeld = s.ringHeld := rfl
@[simp] theorem memWrite_ibis (a : Nat) (b : Bytes) : (memWrite a b s).ibis = s.ibis := rfl
@[simp] theorem memWrite_invCtr (a : Nat) (b : Bytes) : (memWrite a b s).invCtr = s.invCtr := rfl
@[simp] theorem memWrite_ringSeen (a : Nat) (b : Bytes) : (memWrite a b s).ringSeen = s.ringSeen := rfl
@[simp] theorem memWrite_freePg (a : Nat) (b : Bytes) : (memWrite a b s).freePg = s.freePg := rfl
@[simp] theorem memWrite_freeTbl (a : Nat) (b : Bytes) : (memWrite a b s).freeTbl = s.freeTbl := rfl
@[simp] theorem memWrite_train (a : Nat) (b : Bytes) : (memWrite a b s).train = s.train := rfl
@[simp] theorem memWrite_serve (a : Nat) (b : Bytes) : (memWrite a b s).serve = s.serve := rfl
@[simp] theorem memWrite_observed (a : Nat) (b : Bytes) : (memWrite a b s).observed = s.observed := rfl
@[simp] theorem memWrite_unitEvs (a : Nat) (b : Bytes) : (memWrite a b s).unitEvs = s.unitEvs := rfl
@[simp] theorem memWrite_stale (a : Nat) (b : Bytes) : (memWrite a b s).stale = s.stale := rfl
@[simp] theorem memWrite_outOfSvc (a : Nat) (b : Bytes) : (memWrite a b s).outOfSvc = s.outOfSvc := rfl
@[simp] theorem memWrite_katLast (a : Nat) (b : Bytes) : (memWrite a b s).katLast = s.katLast := rfl
@[simp] theorem memWrite_katOn (a : Nat) (b : Bytes) : (memWrite a b s).katOn = s.katOn := rfl
@[simp] theorem memWrite_disagree (a : Nat) (b : Bytes) : (memWrite a b s).disagree = s.disagree := rfl
@[simp] theorem memWrite_replacing (a : Nat) (b : Bytes) : (memWrite a b s).replacing = s.replacing := rfl
@[simp] theorem memWrite_histPos (a : Nat) (b : Bytes) : (memWrite a b s).histPos = s.histPos := rfl
@[simp] theorem memWrite_histSeen (a : Nat) (b : Bytes) : (memWrite a b s).histSeen = s.histSeen := rfl
@[simp] theorem memWrite_histHour (a : Nat) (b : Bytes) : (memWrite a b s).histHour = s.histHour := rfl
@[simp] theorem memWrite_histWait (a : Nat) (b : Bytes) : (memWrite a b s).histWait = s.histWait := rfl
@[simp] theorem memWrite_monitors (a : Nat) (b : Bytes) : (memWrite a b s).monitors = s.monitors := rfl
@[simp] theorem memWrite_monTest (a : Nat) (b : Bytes) : (memWrite a b s).monTest = s.monTest := rfl
@[simp] theorem memWrite_landTest (a : Nat) (b : Bytes) : (memWrite a b s).landTest = s.landTest := rfl
@[simp] theorem memWrite_pw (a : Nat) (b : Bytes) : (memWrite a b s).pw = s.pw := rfl
@[simp] theorem memWrite_procs (a : Nat) (b : Bytes) : (memWrite a b s).procs = s.procs := rfl
@[simp] theorem memWrite_update (a : Nat) (b : Bytes) : (memWrite a b s).update = s.update := rfl
@[simp] theorem memWrite_nonces (a : Nat) (b : Bytes) : (memWrite a b s).nonces = s.nonces := rfl
@[simp] theorem memWrite_keyStore (a : Nat) (b : Bytes) : (memWrite a b s).keyStore = s.keyStore := rfl
@[simp] theorem memWrite_clearing (a : Nat) (b : Bytes) : (memWrite a b s).clearing = s.clearing := rfl
@[simp] theorem memWrite_halfPh (a : Nat) (b : Bytes) : (memWrite a b s).halfPh = s.halfPh := rfl
@[simp] theorem memWrite_losses (a : Nat) (b : Bytes) : (memWrite a b s).losses = s.losses := rfl

/-! ### flashWrite -/

@[simp] theorem flashWrite_pending (a : Nat) (b : Bytes) : (flashWrite a b s).pending = s.pending := rfl
@[simp] theorem flashWrite_time (a : Nat) (b : Bytes) : (flashWrite a b s).time = s.time := rfl
@[simp] theorem flashWrite_pwrOk (a : Nat) (b : Bytes) : (flashWrite a b s).pwrOk = s.pwrOk := rfl
@[simp] theorem flashWrite_pkgRstN (a : Nat) (b : Bytes) : (flashWrite a b s).pkgRstN = s.pkgRstN := rfl
@[simp] theorem flashWrite_life (a : Nat) (b : Bytes) : (flashWrite a b s).life = s.life := rfl
@[simp] theorem flashWrite_lands (a : Nat) (b : Bytes) : (flashWrite a b s).lands = s.lands := rfl
@[simp] theorem flashWrite_fuses (a : Nat) (b : Bytes) : (flashWrite a b s).fuses = s.fuses := rfl
@[simp] theorem flashWrite_regs (a : Nat) (b : Bytes) : (flashWrite a b s).regs = s.regs := rfl
@[simp] theorem flashWrite_mem (a : Nat) (b : Bytes) : (flashWrite a b s).mem = s.mem := rfl
@[simp] theorem flashWrite_logMem (a : Nat) (b : Bytes) : (flashWrite a b s).logMem = s.logMem := rfl
@[simp] theorem flashWrite_cores (a : Nat) (b : Bytes) : (flashWrite a b s).cores = s.cores := rfl
@[simp] theorem flashWrite_groves (a : Nat) (b : Bytes) : (flashWrite a b s).groves = s.groves := rfl
@[simp] theorem flashWrite_ctxs (a : Nat) (b : Bytes) : (flashWrite a b s).ctxs = s.ctxs := rfl
@[simp] theorem flashWrite_cutNotes (a : Nat) (b : Bytes) : (flashWrite a b s).cutNotes = s.cutNotes := rfl
@[simp] theorem flashWrite_ride (a : Nat) (b : Bytes) : (flashWrite a b s).ride = s.ride := rfl
@[simp] theorem flashWrite_xfers (a : Nat) (b : Bytes) : (flashWrite a b s).xfers = s.xfers := rfl
@[simp] theorem flashWrite_rideDone (a : Nat) (b : Bytes) : (flashWrite a b s).rideDone = s.rideDone := rfl
@[simp] theorem flashWrite_rideNext (a : Nat) (b : Bytes) : (flashWrite a b s).rideNext = s.rideNext := rfl
@[simp] theorem flashWrite_fadds (a : Nat) (b : Bytes) : (flashWrite a b s).fadds = s.fadds := rfl
@[simp] theorem flashWrite_satAt (a : Nat) (b : Bytes) : (flashWrite a b s).satAt = s.satAt := rfl
@[simp] theorem flashWrite_watches (a : Nat) (b : Bytes) : (flashWrite a b s).watches = s.watches := rfl
@[simp] theorem flashWrite_drops (a : Nat) (b : Bytes) : (flashWrite a b s).drops = s.drops := rfl
@[simp] theorem flashWrite_restores (a : Nat) (b : Bytes) : (flashWrite a b s).restores = s.restores := rfl
@[simp] theorem flashWrite_invWaits (a : Nat) (b : Bytes) : (flashWrite a b s).invWaits = s.invWaits := rfl
@[simp] theorem flashWrite_poison (a : Nat) (b : Bytes) : (flashWrite a b s).poison = s.poison := rfl
@[simp] theorem flashWrite_logSmall (a : Nat) (b : Bytes) : (flashWrite a b s).logSmall = s.logSmall := rfl
@[simp] theorem flashWrite_logFull (a : Nat) (b : Bytes) : (flashWrite a b s).logFull = s.logFull := rfl
@[simp] theorem flashWrite_msix (a : Nat) (b : Bytes) : (flashWrite a b s).msix = s.msix := rfl
@[simp] theorem flashWrite_reports (a : Nat) (b : Bytes) : (flashWrite a b s).reports = s.reports := rfl
@[simp] theorem flashWrite_sctx (a : Nat) (b : Bytes) : (flashWrite a b s).sctx = s.sctx := rfl
@[simp] theorem flashWrite_accs (a : Nat) (b : Bytes) : (flashWrite a b s).accs = s.accs := rfl
@[simp] theorem flashWrite_dies (a : Nat) (b : Bytes) : (flashWrite a b s).dies = s.dies := rfl
@[simp] theorem flashWrite_stkReqs (a : Nat) (b : Bytes) : (flashWrite a b s).stkReqs = s.stkReqs := rfl
@[simp] theorem flashWrite_ports (a : Nat) (b : Bytes) : (flashWrite a b s).ports = s.ports := rfl
@[simp] theorem flashWrite_arrived (a : Nat) (b : Bytes) : (flashWrite a b s).arrived = s.arrived := rfl
@[simp] theorem flashWrite_txns (a : Nat) (b : Bytes) : (flashWrite a b s).txns = s.txns := rfl
@[simp] theorem flashWrite_nextTxn (a : Nat) (b : Bytes) : (flashWrite a b s).nextTxn = s.nextTxn := rfl
@[simp] theorem flashWrite_inject (a : Nat) (b : Bytes) : (flashWrite a b s).inject = s.inject := rfl
@[simp] theorem flashWrite_peerLost (a : Nat) (b : Bytes) : (flashWrite a b s).peerLost = s.peerLost := rfl
@[simp] theorem flashWrite_aborted (a : Nat) (b : Bytes) : (flashWrite a b s).aborted = s.aborted := rfl
@[simp] theorem flashWrite_epochTop (a : Nat) (b : Bytes) : (flashWrite a b s).epochTop = s.epochTop := rfl
@[simp] theorem flashWrite_rdma (a : Nat) (b : Bytes) : (flashWrite a b s).rdma = s.rdma := rfl
@[simp] theorem flashWrite_rdmaOut (a : Nat) (b : Bytes) : (flashWrite a b s).rdmaOut = s.rdmaOut := rfl
@[simp] theorem flashWrite_nextOp (a : Nat) (b : Bytes) : (flashWrite a b s).nextOp = s.nextOp := rfl
@[simp] theorem flashWrite_qps (a : Nat) (b : Bytes) : (flashWrite a b s).qps = s.qps := rfl
@[simp] theorem flashWrite_replies (a : Nat) (b : Bytes) : (flashWrite a b s).replies = s.replies := rfl
@[simp] theorem flashWrite_mqpStage (a : Nat) (b : Bytes) : (flashWrite a b s).mqpStage = s.mqpStage := rfl
@[simp] theorem flashWrite_htStage (a : Nat) (b : Bytes) : (flashWrite a b s).htStage = s.htStage := rfl
@[simp] theorem flashWrite_iws (a : Nat) (b : Bytes) : (flashWrite a b s).iws = s.iws := rfl
@[simp] theorem flashWrite_inHeld (a : Nat) (b : Bytes) : (flashWrite a b s).inHeld = s.inHeld := rfl
@[simp] theorem flashWrite_spUp (a : Nat) (b : Bytes) : (flashWrite a b s).spUp = s.spUp := rfl
@[simp] theorem flashWrite_cpUp (a : Nat) (b : Bytes) : (flashWrite a b s).cpUp = s.cpUp := rfl
@[simp] theorem flashWrite_i3cAddr (a : Nat) (b : Bytes) : (flashWrite a b s).i3cAddr = s.i3cAddr := rfl
@[simp] theorem flashWrite_waitJobs (a : Nat) (b : Bytes) : (flashWrite a b s).waitJobs = s.waitJobs := rfl
@[simp] theorem flashWrite_job (a : Nat) (b : Bytes) : (flashWrite a b s).job = s.job := rfl
@[simp] theorem flashWrite_hold (a : Nat) (b : Bytes) : (flashWrite a b s).hold = s.hold := rfl
@[simp] theorem flashWrite_cplCount (a : Nat) (b : Bytes) : (flashWrite a b s).cplCount = s.cplCount := rfl
@[simp] theorem flashWrite_cplWait (a : Nat) (b : Bytes) : (flashWrite a b s).cplWait = s.cplWait := rfl
@[simp] theorem flashWrite_ringHeld (a : Nat) (b : Bytes) : (flashWrite a b s).ringHeld = s.ringHeld := rfl
@[simp] theorem flashWrite_ibis (a : Nat) (b : Bytes) : (flashWrite a b s).ibis = s.ibis := rfl
@[simp] theorem flashWrite_invCtr (a : Nat) (b : Bytes) : (flashWrite a b s).invCtr = s.invCtr := rfl
@[simp] theorem flashWrite_ringSeen (a : Nat) (b : Bytes) : (flashWrite a b s).ringSeen = s.ringSeen := rfl
@[simp] theorem flashWrite_freePg (a : Nat) (b : Bytes) : (flashWrite a b s).freePg = s.freePg := rfl
@[simp] theorem flashWrite_freeTbl (a : Nat) (b : Bytes) : (flashWrite a b s).freeTbl = s.freeTbl := rfl
@[simp] theorem flashWrite_train (a : Nat) (b : Bytes) : (flashWrite a b s).train = s.train := rfl
@[simp] theorem flashWrite_serve (a : Nat) (b : Bytes) : (flashWrite a b s).serve = s.serve := rfl
@[simp] theorem flashWrite_observed (a : Nat) (b : Bytes) : (flashWrite a b s).observed = s.observed := rfl
@[simp] theorem flashWrite_unitEvs (a : Nat) (b : Bytes) : (flashWrite a b s).unitEvs = s.unitEvs := rfl
@[simp] theorem flashWrite_stale (a : Nat) (b : Bytes) : (flashWrite a b s).stale = s.stale := rfl
@[simp] theorem flashWrite_outOfSvc (a : Nat) (b : Bytes) : (flashWrite a b s).outOfSvc = s.outOfSvc := rfl
@[simp] theorem flashWrite_katLast (a : Nat) (b : Bytes) : (flashWrite a b s).katLast = s.katLast := rfl
@[simp] theorem flashWrite_katOn (a : Nat) (b : Bytes) : (flashWrite a b s).katOn = s.katOn := rfl
@[simp] theorem flashWrite_disagree (a : Nat) (b : Bytes) : (flashWrite a b s).disagree = s.disagree := rfl
@[simp] theorem flashWrite_replacing (a : Nat) (b : Bytes) : (flashWrite a b s).replacing = s.replacing := rfl
@[simp] theorem flashWrite_histPos (a : Nat) (b : Bytes) : (flashWrite a b s).histPos = s.histPos := rfl
@[simp] theorem flashWrite_histSeen (a : Nat) (b : Bytes) : (flashWrite a b s).histSeen = s.histSeen := rfl
@[simp] theorem flashWrite_histHour (a : Nat) (b : Bytes) : (flashWrite a b s).histHour = s.histHour := rfl
@[simp] theorem flashWrite_histWait (a : Nat) (b : Bytes) : (flashWrite a b s).histWait = s.histWait := rfl
@[simp] theorem flashWrite_monitors (a : Nat) (b : Bytes) : (flashWrite a b s).monitors = s.monitors := rfl
@[simp] theorem flashWrite_monTest (a : Nat) (b : Bytes) : (flashWrite a b s).monTest = s.monTest := rfl
@[simp] theorem flashWrite_landTest (a : Nat) (b : Bytes) : (flashWrite a b s).landTest = s.landTest := rfl
@[simp] theorem flashWrite_pw (a : Nat) (b : Bytes) : (flashWrite a b s).pw = s.pw := rfl
@[simp] theorem flashWrite_procs (a : Nat) (b : Bytes) : (flashWrite a b s).procs = s.procs := rfl
@[simp] theorem flashWrite_update (a : Nat) (b : Bytes) : (flashWrite a b s).update = s.update := rfl
@[simp] theorem flashWrite_nonces (a : Nat) (b : Bytes) : (flashWrite a b s).nonces = s.nonces := rfl
@[simp] theorem flashWrite_keyStore (a : Nat) (b : Bytes) : (flashWrite a b s).keyStore = s.keyStore := rfl
@[simp] theorem flashWrite_clearing (a : Nat) (b : Bytes) : (flashWrite a b s).clearing = s.clearing := rfl
@[simp] theorem flashWrite_halfPh (a : Nat) (b : Bytes) : (flashWrite a b s).halfPh = s.halfPh := rfl
@[simp] theorem flashWrite_losses (a : Nat) (b : Bytes) : (flashWrite a b s).losses = s.losses := rfl

/-! ### raiseMsix -/

@[simp] theorem raiseMsix_pending (v : Nat) : (raiseMsix v s).pending = s.pending := rfl
@[simp] theorem raiseMsix_time (v : Nat) : (raiseMsix v s).time = s.time := rfl
@[simp] theorem raiseMsix_pwrOk (v : Nat) : (raiseMsix v s).pwrOk = s.pwrOk := rfl
@[simp] theorem raiseMsix_pkgRstN (v : Nat) : (raiseMsix v s).pkgRstN = s.pkgRstN := rfl
@[simp] theorem raiseMsix_life (v : Nat) : (raiseMsix v s).life = s.life := rfl
@[simp] theorem raiseMsix_lands (v : Nat) : (raiseMsix v s).lands = s.lands := rfl
@[simp] theorem raiseMsix_fuses (v : Nat) : (raiseMsix v s).fuses = s.fuses := rfl
@[simp] theorem raiseMsix_regs (v : Nat) : (raiseMsix v s).regs = s.regs := rfl
@[simp] theorem raiseMsix_mem (v : Nat) : (raiseMsix v s).mem = s.mem := rfl
@[simp] theorem raiseMsix_flash (v : Nat) : (raiseMsix v s).flash = s.flash := rfl
@[simp] theorem raiseMsix_logMem (v : Nat) : (raiseMsix v s).logMem = s.logMem := rfl
@[simp] theorem raiseMsix_cores (v : Nat) : (raiseMsix v s).cores = s.cores := rfl
@[simp] theorem raiseMsix_groves (v : Nat) : (raiseMsix v s).groves = s.groves := rfl
@[simp] theorem raiseMsix_ctxs (v : Nat) : (raiseMsix v s).ctxs = s.ctxs := rfl
@[simp] theorem raiseMsix_cutNotes (v : Nat) : (raiseMsix v s).cutNotes = s.cutNotes := rfl
@[simp] theorem raiseMsix_ride (v : Nat) : (raiseMsix v s).ride = s.ride := rfl
@[simp] theorem raiseMsix_xfers (v : Nat) : (raiseMsix v s).xfers = s.xfers := rfl
@[simp] theorem raiseMsix_rideDone (v : Nat) : (raiseMsix v s).rideDone = s.rideDone := rfl
@[simp] theorem raiseMsix_rideNext (v : Nat) : (raiseMsix v s).rideNext = s.rideNext := rfl
@[simp] theorem raiseMsix_fadds (v : Nat) : (raiseMsix v s).fadds = s.fadds := rfl
@[simp] theorem raiseMsix_satAt (v : Nat) : (raiseMsix v s).satAt = s.satAt := rfl
@[simp] theorem raiseMsix_watches (v : Nat) : (raiseMsix v s).watches = s.watches := rfl
@[simp] theorem raiseMsix_drops (v : Nat) : (raiseMsix v s).drops = s.drops := rfl
@[simp] theorem raiseMsix_restores (v : Nat) : (raiseMsix v s).restores = s.restores := rfl
@[simp] theorem raiseMsix_invWaits (v : Nat) : (raiseMsix v s).invWaits = s.invWaits := rfl
@[simp] theorem raiseMsix_poison (v : Nat) : (raiseMsix v s).poison = s.poison := rfl
@[simp] theorem raiseMsix_logSmall (v : Nat) : (raiseMsix v s).logSmall = s.logSmall := rfl
@[simp] theorem raiseMsix_logFull (v : Nat) : (raiseMsix v s).logFull = s.logFull := rfl
@[simp] theorem raiseMsix_reports (v : Nat) : (raiseMsix v s).reports = s.reports := rfl
@[simp] theorem raiseMsix_sctx (v : Nat) : (raiseMsix v s).sctx = s.sctx := rfl
@[simp] theorem raiseMsix_accs (v : Nat) : (raiseMsix v s).accs = s.accs := rfl
@[simp] theorem raiseMsix_dies (v : Nat) : (raiseMsix v s).dies = s.dies := rfl
@[simp] theorem raiseMsix_stkReqs (v : Nat) : (raiseMsix v s).stkReqs = s.stkReqs := rfl
@[simp] theorem raiseMsix_ports (v : Nat) : (raiseMsix v s).ports = s.ports := rfl
@[simp] theorem raiseMsix_arrived (v : Nat) : (raiseMsix v s).arrived = s.arrived := rfl
@[simp] theorem raiseMsix_txns (v : Nat) : (raiseMsix v s).txns = s.txns := rfl
@[simp] theorem raiseMsix_nextTxn (v : Nat) : (raiseMsix v s).nextTxn = s.nextTxn := rfl
@[simp] theorem raiseMsix_inject (v : Nat) : (raiseMsix v s).inject = s.inject := rfl
@[simp] theorem raiseMsix_peerLost (v : Nat) : (raiseMsix v s).peerLost = s.peerLost := rfl
@[simp] theorem raiseMsix_aborted (v : Nat) : (raiseMsix v s).aborted = s.aborted := rfl
@[simp] theorem raiseMsix_epochTop (v : Nat) : (raiseMsix v s).epochTop = s.epochTop := rfl
@[simp] theorem raiseMsix_rdma (v : Nat) : (raiseMsix v s).rdma = s.rdma := rfl
@[simp] theorem raiseMsix_rdmaOut (v : Nat) : (raiseMsix v s).rdmaOut = s.rdmaOut := rfl
@[simp] theorem raiseMsix_nextOp (v : Nat) : (raiseMsix v s).nextOp = s.nextOp := rfl
@[simp] theorem raiseMsix_qps (v : Nat) : (raiseMsix v s).qps = s.qps := rfl
@[simp] theorem raiseMsix_replies (v : Nat) : (raiseMsix v s).replies = s.replies := rfl
@[simp] theorem raiseMsix_mqpStage (v : Nat) : (raiseMsix v s).mqpStage = s.mqpStage := rfl
@[simp] theorem raiseMsix_htStage (v : Nat) : (raiseMsix v s).htStage = s.htStage := rfl
@[simp] theorem raiseMsix_iws (v : Nat) : (raiseMsix v s).iws = s.iws := rfl
@[simp] theorem raiseMsix_inHeld (v : Nat) : (raiseMsix v s).inHeld = s.inHeld := rfl
@[simp] theorem raiseMsix_spUp (v : Nat) : (raiseMsix v s).spUp = s.spUp := rfl
@[simp] theorem raiseMsix_cpUp (v : Nat) : (raiseMsix v s).cpUp = s.cpUp := rfl
@[simp] theorem raiseMsix_i3cAddr (v : Nat) : (raiseMsix v s).i3cAddr = s.i3cAddr := rfl
@[simp] theorem raiseMsix_waitJobs (v : Nat) : (raiseMsix v s).waitJobs = s.waitJobs := rfl
@[simp] theorem raiseMsix_job (v : Nat) : (raiseMsix v s).job = s.job := rfl
@[simp] theorem raiseMsix_hold (v : Nat) : (raiseMsix v s).hold = s.hold := rfl
@[simp] theorem raiseMsix_cplCount (v : Nat) : (raiseMsix v s).cplCount = s.cplCount := rfl
@[simp] theorem raiseMsix_cplWait (v : Nat) : (raiseMsix v s).cplWait = s.cplWait := rfl
@[simp] theorem raiseMsix_ringHeld (v : Nat) : (raiseMsix v s).ringHeld = s.ringHeld := rfl
@[simp] theorem raiseMsix_ibis (v : Nat) : (raiseMsix v s).ibis = s.ibis := rfl
@[simp] theorem raiseMsix_invCtr (v : Nat) : (raiseMsix v s).invCtr = s.invCtr := rfl
@[simp] theorem raiseMsix_ringSeen (v : Nat) : (raiseMsix v s).ringSeen = s.ringSeen := rfl
@[simp] theorem raiseMsix_freePg (v : Nat) : (raiseMsix v s).freePg = s.freePg := rfl
@[simp] theorem raiseMsix_freeTbl (v : Nat) : (raiseMsix v s).freeTbl = s.freeTbl := rfl
@[simp] theorem raiseMsix_train (v : Nat) : (raiseMsix v s).train = s.train := rfl
@[simp] theorem raiseMsix_serve (v : Nat) : (raiseMsix v s).serve = s.serve := rfl
@[simp] theorem raiseMsix_observed (v : Nat) : (raiseMsix v s).observed = s.observed := rfl
@[simp] theorem raiseMsix_unitEvs (v : Nat) : (raiseMsix v s).unitEvs = s.unitEvs := rfl
@[simp] theorem raiseMsix_stale (v : Nat) : (raiseMsix v s).stale = s.stale := rfl
@[simp] theorem raiseMsix_outOfSvc (v : Nat) : (raiseMsix v s).outOfSvc = s.outOfSvc := rfl
@[simp] theorem raiseMsix_katLast (v : Nat) : (raiseMsix v s).katLast = s.katLast := rfl
@[simp] theorem raiseMsix_katOn (v : Nat) : (raiseMsix v s).katOn = s.katOn := rfl
@[simp] theorem raiseMsix_disagree (v : Nat) : (raiseMsix v s).disagree = s.disagree := rfl
@[simp] theorem raiseMsix_replacing (v : Nat) : (raiseMsix v s).replacing = s.replacing := rfl
@[simp] theorem raiseMsix_histPos (v : Nat) : (raiseMsix v s).histPos = s.histPos := rfl
@[simp] theorem raiseMsix_histSeen (v : Nat) : (raiseMsix v s).histSeen = s.histSeen := rfl
@[simp] theorem raiseMsix_histHour (v : Nat) : (raiseMsix v s).histHour = s.histHour := rfl
@[simp] theorem raiseMsix_histWait (v : Nat) : (raiseMsix v s).histWait = s.histWait := rfl
@[simp] theorem raiseMsix_monitors (v : Nat) : (raiseMsix v s).monitors = s.monitors := rfl
@[simp] theorem raiseMsix_monTest (v : Nat) : (raiseMsix v s).monTest = s.monTest := rfl
@[simp] theorem raiseMsix_landTest (v : Nat) : (raiseMsix v s).landTest = s.landTest := rfl
@[simp] theorem raiseMsix_pw (v : Nat) : (raiseMsix v s).pw = s.pw := rfl
@[simp] theorem raiseMsix_procs (v : Nat) : (raiseMsix v s).procs = s.procs := rfl
@[simp] theorem raiseMsix_update (v : Nat) : (raiseMsix v s).update = s.update := rfl
@[simp] theorem raiseMsix_nonces (v : Nat) : (raiseMsix v s).nonces = s.nonces := rfl
@[simp] theorem raiseMsix_keyStore (v : Nat) : (raiseMsix v s).keyStore = s.keyStore := rfl
@[simp] theorem raiseMsix_clearing (v : Nat) : (raiseMsix v s).clearing = s.clearing := rfl
@[simp] theorem raiseMsix_halfPh (v : Nat) : (raiseMsix v s).halfPh = s.halfPh := rfl
@[simp] theorem raiseMsix_losses (v : Nat) : (raiseMsix v s).losses = s.losses := rfl

end Sys2Proof.Machine
end

