-- ==== Sys2Proof/Laws/Tables.lean ====
section
/-! SUPPORT. Tables: what an entry reads as after one is set, whatever the order of the keys. -/

namespace Sys2Proof.Machine

/-- The entry just set. -/
@[simp] theorem tget_tset_same {α : Type} (t : Table α) (k : Nat) (v d : α) : tget (tset t k v) k d = v := by
  induction t with
  | nil => simp [tset, tget]
  | cons p t ih =>
    obtain ⟨j, w⟩ := p
    by_cases h1 : k < j
    · simp [tset, tget, h1]
    · by_cases h2 : k = j
      · simp [tset, tget, h2]
      · simp [tset, tget, h1, h2, Ne.symm h2, ih]

/-- Every other entry stays. -/
theorem tget_tset_other {α : Type} (t : Table α) (k j : Nat) (v d : α) (h : j ≠ k) :
    tget (tset t k v) j d = tget t j d := by
  induction t with
  | nil => simp [tset, tget, Ne.symm h]
  | cons p t ih =>
    obtain ⟨i, w⟩ := p
    by_cases h1 : k < i
    · simp [tset, tget, h1, Ne.symm h]
    · by_cases h2 : k = i
      · subst h2; simp [tset, tget, Ne.symm h]
      · simp [tset, tget, h1, h2, ih]

/-- Any entry after one is set. -/
theorem tget_tset {α : Type} (t : Table α) (k j : Nat) (v d : α) :
    tget (tset t k v) j d = if j = k then v else tget t j d := by
  by_cases h : j = k
  · subst h; simp
  · simp [h, tget_tset_other]

/-- A second setting of one entry hides the first. -/
@[simp] theorem tset_tset_same {α : Type} (t : Table α) (k : Nat) (v w : α) : tset (tset t k v) k w = tset t k w := by
  induction t with
  | nil => simp [tset]
  | cons p t ih =>
    obtain ⟨j, u⟩ := p
    by_cases h1 : k < j
    · simp [tset, h1]
    · by_cases h2 : k = j
      · simp [tset, h2]
      · simp [tset, h1, h2, ih]

/-- A core after cores are set. -/
@[simp] theorem core_setCore_same (c : Nat) (x : Core) (s : State) : core (setCore c x s) c = x := by
  simp [core, setCore]

/-- Every other core stays. -/
theorem core_setCore_other {c n : Nat} (x : Core) (s : State) (h : n ≠ c) : core (setCore c x s) n = core s n := by
  simp [core, setCore, tget_tset_other _ _ _ _ _ h]

/-- A core after it is changed. -/
@[simp] theorem core_modCore_same (c : Nat) (f : Core → Core) (s : State) : core (modCore c f s) c = f (core s c) := by
  simp [modCore]

/-- Every other core stays. -/
theorem core_modCore_other {c n : Nat} (f : Core → Core) (s : State) (h : n ≠ c) : core (modCore c f s) n = core s n := by
  simp [modCore, core_setCore_other _ _ h]

/-- Two changes of one core are one. -/
@[simp] theorem modCore_modCore (c : Nat) (f g : Core → Core) (s : State) :
    modCore c g (modCore c f s) = modCore c (fun x => g (f x)) s := by
  simp [modCore, setCore, core]

/-- A grove after it is changed. -/
@[simp] theorem grove_modGrove_same (g : Nat) (f : GroveSt → GroveSt) (s : State) :
    grove (modGrove g f s) g = f (grove s g) := by simp [grove, modGrove]

/-- A context after it is changed. -/
@[simp] theorem ctxSt_modCtx_same (n : Nat) (f : Ctx → Ctx) (s : State) : ctxSt (modCtx n f s) n = f (ctxSt s n) := by
  simp [ctxSt, modCtx]

/-- Every other context stays. -/
theorem ctxSt_modCtx_other {n m : Nat} (f : Ctx → Ctx) (s : State) (h : m ≠ n) : ctxSt (modCtx n f s) m = ctxSt s m := by
  simp [ctxSt, modCtx, tget_tset_other _ _ _ _ _ h]

/-- A die after it is changed. -/
@[simp] theorem die_modDie_same (d : Nat) (f : DieSt → DieSt) (s : State) : die (modDie d f s) d = f (die s d) := by
  simp [die, modDie]

/-- A torus port after it is changed. -/
@[simp] theorem tport_modPort_same (p : Nat) (f : TorusPort → TorusPort) (s : State) :
    tport (modPort p f s) p = f (tport s p) := by simp [tport, modPort]

/-- What a mill keeps for a context after it is changed. -/
@[simp] theorem accCtx_modAcc_same (d n : Nat) (f : AccCtx → AccCtx) (s : State) :
    accCtx (modAcc d n f s) d n = f (accCtx s d n) := by simp [accCtx, modAcc]

/-- What PWR keeps for a grove after it is changed. -/
@[simp] theorem pwGrove_modPw_same (g : Nat) (f : PwGrove → PwGrove) (s : State) :
    pwGrove (modPw g f s) g = f (pwGrove s g) := by simp [pwGrove, modPw]

/-- A processor after it is changed. -/
@[simp] theorem proc_modProc_same (p : Nat) (f : Proc → Proc) (s : State) : proc (modProc p f s) p = f (proc s p) := by
  simp [proc, modProc]

/-- An engine just set. -/
@[simp] theorem eng_setEng_same (x : Core) (e : Engine) (v : Eng) : (x.setEng e v).eng e = v := by
  cases e <;> rfl

/-- The other engines stay. -/
theorem eng_setEng_other (x : Core) {e f : Engine} (v : Eng) (h : f ≠ e) : (x.setEng e v).eng f = x.eng f := by
  cases e <;> cases f <;> first | rfl | exact absurd rfl h

end Sys2Proof.Machine
end

