-- ==== Sys2Proof/Laws/Regs.lean ====
section
/-! SUPPORT. Registers and fields: what reads after a write of a field, of a register, and of a setup write. -/

namespace Sys2Proof.Machine

/-- A field lies inside 64 bits. -/
def Fld.fits (f : Fld) : Prop := f.lo + f.w ≤ 64

/-- Two fields of one register that do not meet. -/
def Fld.apart (f g : Fld) : Prop := f.lo + f.w ≤ g.lo ∨ g.lo + g.w ≤ f.lo

/-- A register is 64 bits wide. -/
theorem regRead_lt (s : State) (k : RegKind) (i : Nat) : regRead s k i < 2 ^ 64 := BitVec.isLt _

/-- The register just written. -/
@[simp] theorem regRead_regWrite_same (s : State) (k : RegKind) (i v : Nat) :
    regRead (regWrite k i v s) k i = v % 2 ^ 64 := by
  simp only [regRead, regWrite, tget_tset_same, BitVec.toNat_ofNat]

/-- Every register at another offset stays, its reset value being one of the fuses. -/
theorem regRead_regWrite_other (s : State) {k n : RegKind} {i j : Nat} (v : Nat) (h : n.off j ≠ k.off i) :
    regRead (regWrite k i v s) n j = regRead s n j := by
  simp only [regRead, regWrite, tget_tset_other _ _ _ _ _ h]

/-- A register after a field of it is set. -/
theorem regRead_wr_same (s : State) {f : Fld} (hf : f.fits) (i v : Nat) :
    regRead (wr f i v s) f.reg i = putBits (regRead s f.reg i) f.lo f.w v := by
  rw [wr, regRead_regWrite_same]
  exact Nat.mod_eq_of_lt (putBits_lt _ _ _ _ _ (regRead_lt _ _ _) hf)

/-- Every register at another offset stays. -/
theorem regRead_wr_other (s : State) {f : Fld} {n : RegKind} {i j : Nat} (v : Nat) (h : n.off j ≠ f.reg.off i) :
    regRead (wr f i v s) n j = regRead s n j := regRead_regWrite_other s _ h

/-- The field just set. -/
theorem rd_wr_same (s : State) {f : Fld} (hf : f.fits) (i v : Nat) : rd (wr f i v s) f i = v % 2 ^ f.w := by
  rw [rd, regRead_wr_same s hf, bits_putBits_same]

/-- Another field of the same entry that does not meet it stays. -/
theorem rd_wr_apart (s : State) {f g : Fld} (hf : f.fits) (hr : g.reg = f.reg) (h : g.apart f) (i v : Nat) :
    rd (wr f i v s) g i = rd s g i := by
  rw [rd, rd, hr, regRead_wr_same s hf, bits_putBits_other _ _ _ _ _ _ h]

/-- A field of a register at another offset stays. -/
theorem rd_wr_other (s : State) {f g : Fld} {i j : Nat} (v : Nat) (h : g.reg.off j ≠ f.reg.off i) :
    rd (wr f i v s) g j = rd s g j := by
  rw [rd, rd, regRead_wr_other s v h]

/-- A one-bit field just set to 1. -/
theorem rdb_wr_one (s : State) {f : Fld} (hf : f.fits) (h1 : f.w = 1) (i : Nat) : rdb (wr f i 1 s) f i = true := by
  simp [rdb, rd_wr_same s hf, h1]

/-- A one-bit field just set to 0. -/
theorem rdb_wr_zero (s : State) {f : Fld} (hf : f.fits) (i : Nat) : rdb (wr f i 0 s) f i = false := by
  simp [rdb, rd_wr_same s hf]

/-- A field lies below its width. -/
theorem rd_lt (s : State) (f : Fld) (i : Nat) : rd s f i < 2 ^ f.w := bits_lt _ _ _

/-- A count that has risen stops at its top value (R532). -/
theorem rd_bump_same (s : State) {f : Fld} (hf : f.fits) (i n : Nat) :
    rd (bump f i n s) f i = min (rd s f i + n) (2 ^ f.w - 1) := by
  rw [bump, rd_wr_same s hf]
  have := Nat.two_pow_pos f.w
  exact Nat.mod_eq_of_lt (by omega)

/-- A ring index that has moved on. -/
theorem rd_bumpWrap_same (s : State) {f : Fld} (hf : f.fits) (i n : Nat) :
    rd (bumpWrap f i n s) f i = (rd s f i + n) % 2 ^ f.w := by
  rw [bumpWrap, rd_wr_same s hf, Nat.mod_mod]

/-- Registers look at the registers and the fuses' grade only. -/
theorem regRead_congr {s t : State} (h1 : t.regs = s.regs) (h2 : t.fuses.grade = s.fuses.grade) (k : RegKind) (i : Nat) :
    regRead t k i = regRead s k i := by simp only [regRead, h1, h2]

/-- Fields look at the registers and the fuses' grade only. -/
theorem rd_congr {s t : State} (h1 : t.regs = s.regs) (h2 : t.fuses.grade = s.fuses.grade) (f : Fld) (i : Nat) :
    rd t f i = rd s f i := by rw [rd, rd, regRead_congr h1 h2]

/-! ### Setup writes (R529 to R535) -/

/-- A refused access touches the registers only. -/
theorem setupErr_frame (off : Nat) (p : Path) (cause : Nat) (s : State) :
    setupErr off p cause s = { s with regs := (setupErr off p cause s).regs } := rfl

/-- A whole write that nothing refuses sets the register as its access types say. -/
theorem regPut_ok {s : State} {k : RegKind} {i : Nat} {w : RegWr} (h1 : badWidth w = false) (h2 : refusedByOwner s k i w = false) :
    regPut k i w s = (regWrite k i (regPutVal k w (regRead s k i)) s, true) := by
  simp [regPut, regJudge, h1, h2]

/-- Half a register over I3C is refused with cause 3. -/
theorem regPut_width {s : State} {k : RegKind} {i : Nat} {w : RegWr} (h : badWidth w = true) :
    regPut k i w s = (setupErr (k.off i) w.path 3 s, false) := by
  simp [regPut, regJudge, h]

/-- A register that a job owns is refused with cause 2. -/
theorem regPut_owned {s : State} {k : RegKind} {i : Nat} {w : RegWr} (h1 : badWidth w = false) (h2 : refusedByOwner s k i w = true) :
    regPut k i w s = (setupErr (k.off i) w.path 2 s, false) := by
  simp [regPut, regJudge, h1, h2]

/-- A setup write touches the registers only. -/
theorem regPut_frame (k : RegKind) (i : Nat) (w : RegWr) (s : State) :
    (regPut k i w s).1 = { s with regs := (regPut k i w s).1.regs } := by
  by_cases h1 : badWidth w = true
  · rw [regPut_width h1]; rfl
  · rw [Bool.not_eq_true] at h1
    by_cases h2 : refusedByOwner s k i w = true
    · rw [regPut_owned h1 h2]; rfl
    · rw [Bool.not_eq_true] at h2
      rw [regPut_ok h1 h2]; rfl

/-- A write of a whole register has no width fault. -/
theorem badWidth_full {w : RegWr} (h : w.part = .full) : badWidth w = false := by simp [badWidth, h]

end Sys2Proof.Machine
end

