-- ==== Sys2Proof/Laws/Ops.lean ====
section
/-! SUPPORT. What each shared operation can do: the log, the lands, fault records, context faults, blocks fetched and landed. -/

namespace Sys2Proof.Machine

/-! ### The log (R520) -/

/-- Writing a log entry touches the log's memory, its pointers and the MSI-X list only. -/
theorem logWrite_frame (tpn src : Nat) (b : Bytes) (s : State) :
    logWrite tpn src b s = { s with
      regs := (logWrite tpn src b s).regs, logMem := (logWrite tpn src b s).logMem, msix := (logWrite tpn src b s).msix
      logFull := (logWrite tpn src b s).logFull } := by
  unfold logWrite; simp only; split <;> rfl

/-- A log entry leaves every register but LOG_PTR. -/
theorem regRead_logWrite (tpn src : Nat) (b : Bytes) (s : State) {k : RegKind} {i : Nat} (h : k.off i ≠ RegKind.logPtr.off 0) :
    regRead (logWrite tpn src b s) k i = regRead s k i := by
  have e : ∀ u : State, regRead (raiseMsix 6 u) k i = regRead u k i := fun u => regRead_congr rfl rfl k i
  have e2 : ∀ (m : List Host.Cell) (v : Bool), regRead { s with logMem := m, logFull := v } k i = regRead s k i :=
    fun m v => regRead_congr rfl rfl k i
  unfold logWrite
  simp only
  split
  · rw [e, bump, regRead_wr_other _ _ h, regRead_wr_other _ _ h, regRead_wr_other _ _ h, e2]
  · rw [bump, regRead_wr_other _ _ h, regRead_wr_other _ _ h, regRead_wr_other _ _ h, e2]

/-- A field outside LOG_PTR after a log entry. -/
theorem rd_logWrite (tpn src : Nat) (b : Bytes) (s : State) {f : Fld} {i : Nat} (h : f.reg.off i ≠ RegKind.logPtr.off 0) :
    rd (logWrite tpn src b s) f i = rd s f i := by rw [rd, rd, regRead_logWrite tpn src b s h]

/-- A log entry keeps the stores' form. -/
theorem storesWf_logWrite {s : State} (h : s.storesWf = true) (tpn src : Nat) (b : Bytes) :
    (logWrite tpn src b s).storesWf = true := by
  rw [storesWf_iff] at h ⊢
  unfold logWrite
  simp only
  split <;> exact ⟨h.1, h.2.1, wf_logPut h.2.2 _ _ _ _⟩

/-! ### Lands (R428) -/

/-- READY after it is driven. -/
@[simp] theorem setReady_ready (b : Bool) (s : State) : (setReady b s).lands.ready = some b := by
  unfold setReady; split <;> simp_all

/-- Driving READY touches READY and the in-band interrupts only. -/
theorem setReady_frame (b : Bool) (s : State) :
    setReady b s = { s with lands := { s.lands with ready := some b }, ibis := (setReady b s).ibis } := by
  unfold setReady
  split
  · next h =>
    have e : { s.lands with ready := some b } = s.lands := by rw [← h]
    rw [e]
  · rfl

/-- FAULT_N after it is asserted. -/
@[simp] theorem assertFault_faultN (s : State) : (assertFault s).lands.faultN = some false := by
  unfold assertFault; split
  · assumption
  · rfl

/-- Asserting FAULT_N touches it, the in-band interrupts and the MSI-X list only. -/
theorem assertFault_frame (s : State) :
    assertFault s = { s with lands := (assertFault s).lands, ibis := (assertFault s).ibis, msix := (assertFault s).msix } := by
  unfold assertFault; split <;> rfl

/-- THERM_N after it is driven. -/
@[simp] theorem setTherm_thermN (b : Bool) (s : State) : (setTherm b s).lands.thermN = some (!b) := by
  unfold setTherm; split
  · assumption
  · rfl

/-! ### Context faults (R247, R248) -/

/-- A transfer handed to a transmitter touches the ride and the transfer numbers only. -/
theorem rideSend_frame (h : Half) (cls : Fin 4) (b : Bytes) (s : State) :
    (rideSend h cls b s).1 = { s with ride := (rideSend h cls b s).1.ride, xfers := (rideSend h cls b s).1.xfers } := by
  unfold rideSend rideEmit
  simp only
  split <;> rfl

/-- A return to a core touches the ride and the transfer numbers only. -/
theorem rideBack_frame (h : Half) (c : Nat) (s : State) :
    (rideBack h c s).1 = { s with ride := (rideBack h c s).1.ride, xfers := (rideBack h c s).1.xfers } := by
  unfold rideBack
  split
  · rfl
  · exact rideSend_frame _ _ _ _

/-- Waking watches touches the ride and the transfer numbers beside them. -/
theorem wakeList_frame (a n : Nat) (ws : List Watch) (s : State) :
    (wakeList a n ws s).1 = { s with ride := (wakeList a n ws s).1.ride, xfers := (wakeList a n ws s).1.xfers } := by
  induction ws generalizing s with
  | nil => rfl
  | cons w ws ih =>
    unfold wakeList
    split
    · simp only
      rw [ih, rideBack_frame]
    · exact ih s

/-- A write that wakes touches the watches, the ride and the transfer numbers. -/
theorem wakeRange_frame (a n : Nat) (s : State) :
    wakeRange a n s = { s with
      watches := (wakeRange a n s).watches, ride := (wakeRange a n s).ride, xfers := (wakeRange a n s).xfers } := by
  unfold wakeRange
  simp only
  rw [wakeList_frame]

/-- With no watch armed nothing wakes. -/
theorem wakeRange_none {s : State} (h : s.watches = []) (a n : Nat) : wakeRange a n s = s := by
  simp only [wakeRange, h, wakeList]
  rw [← h]

/-- Writing part of a stack block touches memory and what wakes. -/
theorem stkPatch_frame (h : Half) (p : Nat) (d : Bytes) (gen : Nat) (s : State) :
    stkPatch h p d gen s = { s with
      mem := (stkPatch h p d gen s).mem, watches := (stkPatch h p d gen s).watches
      ride := (stkPatch h p d gen s).ride, xfers := (stkPatch h p d gen s).xfers } := by
  unfold stkPatch
  simp only
  rw [wakeRange_frame]
  rfl

/-- A request to a stack port touches the requests on their way only. -/
theorem stkAsk_frame (cls : SClass) (kind : SKind) (who : Nat) (esc : Bool) (ride : Option Nat) (l : Loc) (s : State) :
    stkAsk cls kind who esc ride l s = { s with stkReqs := (stkAsk cls kind who esc ride l s).stkReqs } := by
  unfold stkAsk
  split <;> rfl

/-- Writing part of a stack block keeps the stores' form. -/
theorem storesWf_stkPatch {s : State} (w : s.storesWf = true) (h : Half) (p : Nat) (d : Bytes) (gen : Nat) :
    (stkPatch h p d gen s).storesWf = true := by
  have e : ∀ a n (t : State), (wakeRange a n t).storesWf = t.storesWf := fun a n t => by
    rw [wakeRange_frame]; exact storesWf_congr rfl rfl rfl
  unfold stkPatch
  rw [e]
  exact storesWf_blkStore w _ _

/-- Writing a fault record touches memory with its stack port and what wakes, registers, the log and the MSI-X list only. -/
theorem writeFaultRecord_frame (ctx : Nat) (r : Bytes) (s : State) :
    writeFaultRecord ctx r s = { s with
      regs := (writeFaultRecord ctx r s).regs, mem := (writeFaultRecord ctx r s).mem
      logMem := (writeFaultRecord ctx r s).logMem, msix := (writeFaultRecord ctx r s).msix
      logFull := (writeFaultRecord ctx r s).logFull, stkReqs := (writeFaultRecord ctx r s).stkReqs
      watches := (writeFaultRecord ctx r s).watches, ride := (writeFaultRecord ctx r s).ride
      xfers := (writeFaultRecord ctx r s).xfers } := by
  unfold writeFaultRecord
  simp only
  rw [logWrite_frame]
  split
  · rfl
  · split
    · rw [stkPatch_frame]; rfl
    · rfl

/-- Ending the running queries touches the serving record only. -/
theorem strikeQueries_frame (ctx : CtxId) (s : State) : strikeQueries ctx s = { s with serve := (strikeQueries ctx s).serve } := by
  unfold strikeQueries
  split
  · split <;> rfl
  · rfl

/-- Without a serving context of this number no query ends. -/
theorem strikeQueries_other {ctx : CtxId} {s : State} (h : s.sctx ≠ some ctx) : strikeQueries ctx s = s := by
  simp [strikeQueries, h]

/-- Stopping an engine changes cores only. -/
theorem stopEngine_frame (who : Option (Nat × Engine)) (s : State) : stopEngine who s = { s with cores := (stopEngine who s).cores } := by
  unfold stopEngine
  split <;> rfl

/-- Stopping cores changes cores only. -/
theorem stopCores_frame (cs : List Nat) (s : State) :
    cs.foldl (fun t c => stopCore c t) s = { s with cores := (cs.foldl (fun t c => stopCore c t) s).cores } := by
  induction cs generalizing s with
  | nil => rfl
  | cons c cs ih => rw [List.foldl_cons, ih (stopCore c s)]; rfl

/-- A core outside those stopped stays. -/
theorem stopCores_other (cs : List Nat) (s : State) {n : Nat} (h : n ∉ cs) : core (cs.foldl (fun t c => stopCore c t) s) n = core s n := by
  induction cs generalizing s with
  | nil => rfl
  | cons c cs ih =>
    rw [List.mem_cons, not_or] at h
    rw [List.foldl_cons, ih (stopCore c s) h.2]
    exact core_modCore_other _ _ h.1

/-- A core that is forced stays so. -/
theorem stopCores_keep (cs : List Nat) (s : State) {n : Nat} (h : (core s n).forced = true) :
    (core (cs.foldl (fun t c => stopCore c t) s) n).forced = true := by
  induction cs generalizing s with
  | nil => exact h
  | cons c cs ih =>
    rw [List.foldl_cons]
    refine ih (stopCore c s) ?_
    by_cases e : n = c
    · subst e; simp [stopCore, releaseSlots]
    · rw [stopCore, core_modCore_other _ _ e]; exact h

/-- A core among those stopped is forced. -/
theorem stopCores_forced (cs : List Nat) (s : State) {n : Nat} (h : n ∈ cs) :
    (core (cs.foldl (fun t c => stopCore c t) s) n).forced = true := by
  induction cs generalizing s with
  | nil => cases h
  | cons c cs ih =>
    rw [List.foldl_cons]
    rcases List.mem_cons.mp h with rfl | h
    · exact stopCores_keep cs _ (by simp [stopCore, releaseSlots])
    · exact ih _ h

/-- A context's first fault: its record is written, its running queries end, the code and DETAIL stand in the context, and every core that
runs an invocation of it stops. -/
theorem ctxFault_first {ctx : CtxId} {s : State} (h : (ctxSt s ctx).fault = none) (code detail : Nat) (w : Site)
    (who : Option (Nat × Engine)) :
    ctxFault ctx code detail w who s =
      stopEngine who ((coresRunning s ctx).foldl (fun t c => stopCore c t) (modCtx ctx (fun y => { y with
        fault := some (code, detail), cuts := coresRunning s ctx })
        (strikeQueries ctx (writeFaultRecord ctx (faultRecord s ctx code false detail w) s)))) := by
  simp only [ctxFault, h]

/-- Once every cut of a faulted context is done, nothing more happens to it. -/
theorem ctxFault_done {ctx : CtxId} {s : State} {p : Nat × Nat} (h : (ctxSt s ctx).fault = some p) (hc : (ctxSt s ctx).cuts = [])
    (code detail : Nat) (w : Site) (who : Option (Nat × Engine)) :
    ctxFault ctx code detail w who s = s := by
  simp [ctxFault, h, hc]

/-- What a context fault may touch: contexts, cores, the serving record, memory with its stack ports and what wakes, registers, the log and
the MSI-X list. -/
def FaultFrame (s t : State) : Prop :=
  t = { s with
    regs := t.regs, mem := t.mem, logMem := t.logMem, msix := t.msix, logFull := t.logFull, stkReqs := t.stkReqs
    watches := t.watches, ride := t.ride, xfers := t.xfers, serve := t.serve, ctxs := t.ctxs, cores := t.cores }

/-- Touching nothing. -/
theorem FaultFrame.refl (s : State) : FaultFrame s s := rfl

/-- Touching one after the other. -/
theorem FaultFrame.trans {s t u : State} (h1 : FaultFrame s t) (h2 : FaultFrame t u) : FaultFrame s u :=
  Eq.trans h2 (by rw [h1])

/-- A fault record keeps the frame. -/
theorem FaultFrame.record (ctx : Nat) (r : Bytes) (s : State) : FaultFrame s (writeFaultRecord ctx r s) := by
  unfold FaultFrame; rw [writeFaultRecord_frame]

/-- Stopping an engine keeps the frame. -/
theorem FaultFrame.engine (who : Option (Nat × Engine)) (s : State) : FaultFrame s (stopEngine who s) := by
  unfold FaultFrame; rw [stopEngine_frame]

/-- A context fault touches contexts, cores, the serving record, memory with its stack ports and what wakes, registers, the log and the
MSI-X list only. -/
theorem ctxFault_frame (ctx : CtxId) (code detail : Nat) (w : Site) (who : Option (Nat × Engine)) (s : State) :
    ctxFault ctx code detail w who s = { s with
      regs := (ctxFault ctx code detail w who s).regs, mem := (ctxFault ctx code detail w who s).mem
      logMem := (ctxFault ctx code detail w who s).logMem, msix := (ctxFault ctx code detail w who s).msix
      logFull := (ctxFault ctx code detail w who s).logFull, stkReqs := (ctxFault ctx code detail w who s).stkReqs
      watches := (ctxFault ctx code detail w who s).watches, ride := (ctxFault ctx code detail w who s).ride
      xfers := (ctxFault ctx code detail w who s).xfers, serve := (ctxFault ctx code detail w who s).serve
      ctxs := (ctxFault ctx code detail w who s).ctxs, cores := (ctxFault ctx code detail w who s).cores } := by
  show FaultFrame s _
  have strike : ∀ t, FaultFrame t (strikeQueries ctx t) := fun t => by unfold FaultFrame; rw [strikeQueries_frame]
  have stop : ∀ (cs : List Nat) t, FaultFrame t (cs.foldl (fun t c => stopCore c t) t) := fun cs t => by
    unfold FaultFrame; rw [stopCores_frame]
  unfold ctxFault
  simp only
  split
  · exact (((FaultFrame.record ..).trans (strike _)).trans (u := modCtx _ _ _) rfl).trans ((stop _ _).trans (FaultFrame.engine ..))
  · split
    · exact FaultFrame.refl s
    · split
      · exact FaultFrame.record ..
      · split
        · exact FaultFrame.refl s
        · exact ((FaultFrame.record ..).trans (u := modCtx _ _ _) rfl).trans (FaultFrame.engine ..)

/-- A fault of an engine's repeat is a fault of the context that its core runs. -/
theorem engFault_run {c : CoreId} {s : State} {d : Desc} {l : ListSet} (h : (core s c).run = some (d, l)) (e : Engine)
    (code detail addr : Nat) :
    engFault c e code detail addr s = ctxFault d.ctx code detail (engSite s c e addr) (some (c.val, e)) s := by
  simp [engFault, h]

/-- With no invocation running nothing faults. -/
theorem engFault_idle {c : CoreId} {s : State} (h : (core s c).run = none) (e : Engine) (code detail addr : Nat) :
    engFault c e code detail addr s = s := by
  simp [engFault, h]

/-! ### Sync words (R199) -/

/-- The saturating sum lies in 32 bits, is the exact sum where that fits, and saturates just where it does not. -/
theorem satSum_spec (old : Nat) (amt : Int) :
    (satSum old amt).1 < 2 ^ 32 ∧ ((satSum old amt).2 = false ↔ 0 ≤ (old : Int) + amt ∧ (old : Int) + amt < 2 ^ 32)
      ∧ ((satSum old amt).2 = false → ((satSum old amt).1 : Int) = old + amt) := by
  unfold satSum
  simp only
  split
  · exact ⟨by decide, by simp; omega, by simp⟩
  · split
    · exact ⟨by decide, by simp; omega, by simp⟩
    · exact ⟨by omega, by simp; omega, by simp; omega⟩

end Sys2Proof.Machine
end

