-- ==== Sys2Proof/Laws/Blocks.lean ====
section
/-! SUPPORT. Blocks that nothing has written: they read as zero blocks of format 7, land, and move without a change. -/

namespace Sys2Proof.Machine

/-- A store that lists nothing reads as its default. -/
theorem readFrom_nil (d : Nat → Byte) (n a : Nat) : readFrom d n a [] = (List.range n).map fun i => d (a + i) := by
  induction n generalizing a with
  | zero => rfl
  | succ n ih =>
    rw [readFrom, ih, List.range_succ_eq_map, List.map_cons, List.map_map]
    simp [Function.comp_def, Nat.add_right_comm, Nat.add_assoc]

/-- Memory above every address listed reads as its default. -/
theorem memRead_unlisted {s : State} {a : Nat} (h : ∀ c ∈ s.mem, c.1 < a) (n : Nat) :
    memRead s a n = (List.range n).map fun i => memDefault (a + i) := by
  have e : s.mem.dropWhile (fun c => decide (c.1 < a)) = [] := by
    rw [List.dropWhile_eq_nil_iff]; simpa using h
  rw [memRead, cellsRead, e, readFrom_nil]

/-- The bytes of a number. -/
theorem toLe_eq (n v : Nat) : toLe n v = (List.range n).map fun i => BitVec.ofNat 8 (v / 256 ^ i) := by
  induction n generalizing v with
  | zero => rfl
  | succ n ih =>
    rw [toLe, ih, List.range_succ_eq_map, List.map_cons, List.map_map]
    simp [Function.comp_def, Nat.pow_succ, Nat.div_div_eq_div_mul, Nat.mul_comm]

/-- Zeros joined. -/
theorem zeros_append (m n : Nat) : zeros m ++ zeros n = zeros (m + n) := by simp [zeros, List.replicate_append_replicate]

/-- A zero byte of zeros. -/
theorem zeros_getElem (n i : Nat) (h : i < (zeros n).length) : (zeros n)[i] = 0 := by simp [zeros]

/-- An unlisted block's bytes: zeros and the zero block's tag. -/
theorem default_block (k : Nat) :
    ((List.range 2184).map fun i => memDefault (k * 4096 + i)) = zeros 2176 ++ toLe 8 (zeroTag k) := by
  apply List.ext_getElem (by simp)
  intro i h1 h2
  have hi : i < 2184 := by simpa using h1
  have hm : (k * 4096 + i) % 4096 = i := by omega
  have hk : (k * 4096 + i) / 4096 = k := by omega
  simp only [List.getElem_map, List.getElem_range, memDefault, hm, hk]
  by_cases hz : i < 2176
  · rw [if_pos hz, List.getElem_append_left (by simpa using hz), zeros_getElem]
  · rw [if_neg hz, if_pos hi, List.getElem_append_right (by simpa using hz)]
    simp [toLe_eq]

/-- The zero block at a key. -/
def zeroBlk (k : Nat) : Blk := ⟨zeros 2048, zeros 128, BitVec.ofNat 64 (zeroTag k)⟩

/-- Zeros in front of a string, taken apart. -/
theorem zeros_parts (m n : Nat) (z : Bytes) : List.take m (zeros (m + n) ++ z) = zeros m
    ∧ List.take n (List.drop m (zeros (m + n) ++ z)) = zeros n ∧ List.drop (m + n) (zeros (m + n) ++ z) = z := by
  rw [← zeros_append, List.append_assoc]
  refine ⟨List.take_left' (zeros_length _), ?_, ?_⟩
  · rw [List.drop_left' (zeros_length _)]; exact List.take_left' (zeros_length _)
  · rw [← List.append_assoc]; exact List.drop_left' (by simp)

/-- A block from its bytes. -/
theorem blkStored_of {s : State} {l : Loc} {m n : Nat} {z : Bytes} (hm : m = 2048) (hn : n = 128)
    (e : memRead s (l.addr 0) 2184 = zeros (m + n) ++ z) : blkStored s l = ⟨zeros m, zeros n, BitVec.ofNat 64 (leNat z)⟩ := by
  obtain ⟨p1, p2, p3⟩ := zeros_parts m n z
  have h : m + n = 2176 := by omega
  rw [blkStored]
  simp only [e, ← hm, ← hn, ← h]
  rw [p1, p2, p3]

/-- A block above every address listed is the zero block. -/
theorem blkStored_unlisted {s : State} {l : Loc} (h : ∀ c ∈ s.mem, c.1 < l.addr 0) : blkStored s l = zeroBlk l.key := by
  have a : l.addr 0 = l.key * 4096 := Nat.add_zero _
  have e := memRead_unlisted h 2184
  rw [a, default_block, ← a] at e
  rw [blkStored_of rfl rfl e, leNat_toLe, zeroBlk]
  congr 1
  apply BitVec.eq_of_toNat_eq
  rw [BitVec.toNat_ofNat, BitVec.toNat_ofNat, Nat.mod_mod]

/-- The CRC of a zero block over a location term. -/
theorem zero_crc (term : Nat) (tag : BitVec 64) : (⟨zeros 2048, zeros 128, tag⟩ : Blk).crc term = crcOfTerm term := by
  rw [Blk.crc, crc32c, crcRun_append, zeros_append,
    show 2048 + 128 = 2176 from rfl, ← crcAfterZeroBlock_eq, crcOfTerm]

/-- A decoding that is the zero block's own tag with no event. -/
def tagAgrees (k : Nat) : Option (Nat × GuardEvent) → Bool
  | some (t, .none) => tagCrc t == crcOfTerm (termOfKey k) && guardOf t * 2 ^ 56 + t == zeroTag k
  | _ => false

/-- The tag of the zero block at a key decodes with no event (a check by evaluation at a given key). -/
def zeroTagOk (k : Nat) : Bool := tagAgrees k (decodeTag (zeroBlk k).tag.toNat)

/-- A block whose tag decodes with no event and whose CRC agrees lands as it is. -/
theorem land_of {b : Blk} {term t : Nat} (h : decodeTag b.tag.toNat = some (t, .none)) (hc : tagCrc t = b.crc term) :
    landCheck b term = .accepted (guardOf t * 2 ^ 56 + t) false := by
  simp only [landCheck, h, hc, if_true]; rfl

/-- The CRC of the zero block at a key. -/
theorem zeroBlk_crc (k term : Nat) : (zeroBlk k).crc term = crcOfTerm term := zero_crc term _

/-- It lands then. -/
theorem land_zero {k : Nat} (h : zeroTagOk k = true) : landCheck (zeroBlk k) (termOfKey k) = .accepted (zeroTag k) false := by
  rw [zeroTagOk] at h
  generalize e : decodeTag (zeroBlk k).tag.toNat = r at h
  rcases r with _ | ⟨t, _ | _⟩
  · cases h
  · simp only [tagAgrees, Bool.and_eq_true, beq_iff_eq] at h
    rw [← h.2]
    exact land_of e (h.1.trans (zeroBlk_crc k _).symm)
  · cases h

/-- The zero block in transit from a key. -/
def zeroMoved (k : Nat) : Blk := ⟨zeros 2048, zeros 128, BitVec.ofNat 64 (reformTag (zeroTag k) (termOfKey k) 0)⟩

/-- An unlisted, closed block that is not poisoned is fetched, and nothing changes. -/
theorem blkFetch_unlisted {s : State} {l : Loc} (ctx : Nat) (h : ∀ c ∈ s.mem, c.1 < l.addr 0) (ho : openOf s l = none)
    (hp : poisoned s l = false) (hk : zeroTagOk l.key = true) : blkFetch ctx l s = (s, .ok (zeroMoved l.key)) := by
  have e := land_zero hk
  simp only [blkFetch, hp, blkClose, ho, blkStored_unlisted h, Loc.term, e]
  simp [zeroMoved, zeroBlk]

/-- The moved zero block of one key re-forms at another to the zero block there (a check by evaluation at given keys). -/
def zeroMoveOk (j k : Nat) : Bool :=
  (match decodeTag (zeroMoved j).tag.toNat with | some (_, .none) => true | _ => false)
    && BitVec.ofNat 64 (reformTag (zeroMoved j).tag.toNat 0 (termOfKey k)) == BitVec.ofNat 64 (zeroTag k)
    && zeroTag k < 2 ^ 64

/-- Writing what memory reads as where nothing is listed. -/
theorem cellsOf_default (n a : Nat) : cellsOf memDefault a ((List.range n).map fun i => memDefault (a + i)) = [] := by
  induction n generalizing a with
  | zero => rfl
  | succ n ih =>
    rw [List.range_succ_eq_map, List.map_cons, List.map_map, cellsOf, Nat.add_zero, if_pos rfl]
    simpa [Function.comp_def, Nat.add_right_comm, Nat.add_assoc] using ih (a + 1)

/-- Writing a zero block above every address listed lists nothing. -/
theorem blkStore_zero {s : State} {l : Loc} (h : ∀ c ∈ s.mem, c.1 < l.addr 0) (ht : zeroTag l.key < 2 ^ 64) :
    blkStore l (zeroBlk l.key) s = s := by
  have e := default_block l.key
  rw [show l.key * 4096 = l.addr 0 from (Nat.add_zero _).symm] at e
  have b : (zeroBlk l.key).pay ++ (zeroBlk l.key).side ++ toLe 8 (zeroBlk l.key).tag.toNat
      = zeros 2176 ++ toLe 8 (zeroTag l.key) := by
    have z := zeros_append 2048 128
    rw [show 2048 + 128 = 2176 from rfl] at z
    rw [← z, zeroBlk, BitVec.toNat_ofNat, Nat.mod_eq_of_lt ht]
  have f1 : s.mem.filter (fun x => decide (x.1 < l.addr 0)) = s.mem := by
    rw [List.filter_eq_self]; simpa using h
  have f2 : ∀ n, s.mem.filter (fun x => decide (l.addr 0 + n ≤ x.1)) = [] := by
    intro n
    rw [List.filter_eq_nil_iff]
    intro x hx
    have := h x hx
    simp; omega
  rw [blkStore, b, ← e, memWrite, cellsWrite, cellsOf_default, f1, f2, List.append_nil, List.append_nil]

/-- A block put at a stack or understorey place. -/
theorem blkLand_plain {s : State} {l : Loc} {x : Blk} (h : (∀ c m, l ≠ .leaf c m) ∧ ∀ c m, l ≠ .acc c m)
    (hd : (match decodeTag x.tag.toNat with | some (_, .none) => true | _ => false) = true) :
    blkLand l x s = blkStore l { x with tag := BitVec.ofNat 64 (reformTag x.tag.toNat 0 l.term) } s := by
  split at hd
  · rename_i e
    cases l with
    | leaf c m => exact absurd rfl (h.1 c m)
    | acc c m => exact absurd rfl (h.2 c m)
    | stk a b => simp only [blkLand, e]; rfl
    | und a b d => simp only [blkLand, e]; rfl
  · cases hd

/-- Outstanding requests to stack ports, replaced. -/
def withAsks (q : List StkAsk) (s : State) : State := { s with stkReqs := q }

/-- A block moves with no watch armed and nothing poisoned: the stack ports get its requests. -/
theorem moveBlk_of {s : State} {ctx : Nat} {a b : Loc} {x : Blk} (f : ∀ q, blkFetch ctx a (withAsks q s) = (withAsks q s, .ok x))
    (hw : s.watches = []) (hp : s.poison = []) (ld : ∀ q, blkLand b x (withAsks q s) = withAsks q s) :
    ∃ q, moveBlk ctx a b s = (withAsks q s, none) := by
  have ask : ∀ k l q, ∃ r, unitAsk (asCtx ctx) k l (withAsks q s) = withAsks r s := fun k l q =>
    ⟨_, by rw [unitAsk, stkAsk_frame]; rfl⟩
  obtain ⟨q1, e1⟩ := ask .read a s.stkReqs
  obtain ⟨q2, e2⟩ := ask .write b q1
  have e1 : unitAsk (asCtx ctx) .read a s = withAsks q1 s := e1
  have wk : ∀ i n q, wakeRange i n (withAsks q s) = withAsks q s := fun i n q => wakeRange_none (by exact hw) i n
  refine ⟨q2, ?_⟩
  rw [moveBlk, e1, f]
  simp only [e2]
  have np : ∀ h n, poisonDel h n (withAsks q2 s) = withAsks q2 s := fun h n => by
    simp [poisonDel, withAsks, hp, tget]
  cases b <;> simp only [np, ld, wk]

/-- A page of unlisted blocks moves to unlisted blocks of a stack or of understorey, and only the stack ports get requests. -/
theorem movePage_unlisted {s : State} (ctx : Nat) (a b : Nat → Loc) (n i : Nat) (hw : s.watches = []) (hp : s.poison = [])
    (ha : ∀ j, i ≤ j → j < i + n → (∀ c ∈ s.mem, c.1 < (a j).addr 0) ∧ openOf s (a j) = none ∧ zeroTagOk (a j).key = true)
    (hb : ∀ j, i ≤ j → j < i + n → (∀ c ∈ s.mem, c.1 < (b j).addr 0) ∧ zeroMoveOk (a j).key (b j).key = true
      ∧ (∀ c m, b j ≠ .leaf c m) ∧ ∀ c m, b j ≠ .acc c m) :
    ∃ q, movePage ctx a b n i s = (withAsks q s, none) := by
  suffices h : ∀ q, ∃ r, movePage ctx a b n i (withAsks q s) = (withAsks r s, none) from h s.stkReqs
  induction n generalizing i with
  | zero => exact fun q => ⟨q, rfl⟩
  | succ n ih =>
    intro q
    obtain ⟨a1, a2, a3⟩ := ha i (Nat.le_refl _) (by omega)
    obtain ⟨b1, b2, b3, b4⟩ := hb i (Nat.le_refl _) (by omega)
    have f : ∀ q, blkFetch ctx (a i) (withAsks q s) = (withAsks q s, .ok (zeroMoved (a i).key)) := fun q => by
      refine blkFetch_unlisted ctx a1 ?_ ?_ a3
      · rw [← a2]; cases a i <;> rfl
      · cases a i <;> simp [poisoned, withAsks, hp, tget]
    simp only [zeroMoveOk, Bool.and_eq_true, beq_iff_eq, decide_eq_true_eq] at b2
    obtain ⟨⟨b5, b6⟩, b7⟩ := b2
    have ld : ∀ q, blkLand (b i) (zeroMoved (a i).key) (withAsks q s) = withAsks q s := fun q => by
      rw [blkLand_plain ⟨b3, b4⟩ b5, Loc.term, b6]
      exact blkStore_zero b1 b7
    obtain ⟨r, mv⟩ := moveBlk_of (s := withAsks q s) f hw hp ld
    have mv : moveBlk ctx (a i) (b i) (withAsks q s) = (withAsks r s, none) := mv
    rw [movePage, mv]
    exact ih (i + 1) (fun j h1 h2 => ha j (by omega) (by omega)) (fun j h1 h2 => hb j (by omega) (by omega)) r

end Sys2Proof.Machine
end

