-- ==== Sys2Proof/Laws/Engine.lean ====
section
/-! SUPPORT. An engine at a repeat: what its gate answers, and what issuing the repeat does. -/

namespace Sys2Proof.Machine

/-- A check that passed. -/
theorem okIf_some {b : Bool} {o p : SOp} (h : okIf b o = some p) : b = true ∧ o = p := by
  unfold okIf at h; split at h <;> simp_all

/-- Decoding under an opcode gives an operation of that opcode. -/
theorem decodeOp_opcode {opc w : Nat} {op : SOp} (h : decodeOp opc w = some op) : op.opcode = opc := by
  unfold decodeOp at h
  split at h
  all_goals first
    | (obtain ⟨-, rfl⟩ := okIf_some h; rfl)
    | skip
  · split at h
    · unfold decodeArset at h
      simp only at h
      split at h <;> (obtain ⟨-, rfl⟩ := okIf_some h; rfl)
    · cases h
  · split at h
    · cases h
    · obtain ⟨-, rfl⟩ := okIf_some h; rfl
  · cases h

/-- A word that decodes carries its operation's opcode and its repeat count. -/
theorem decodeStream_some {w rep : Nat} {op : SOp} (h : decodeStream w = some (rep, op)) :
    opcodeOf w = op.opcode ∧ repOf w = rep := by
  unfold decodeStream at h
  split at h
  · next o ho => simp at h; obtain ⟨h1, rfl⟩ := h; exact ⟨(decodeOp_opcode ho).symm, h1⟩
  · cases h

/-- The gate of an engine at a repeat. -/
theorem gate_at {s : State} {c : CoreId} {e : Engine} {d : Desc} {l : ListSet} {rep : Nat} {op : SOp}
    (h : AtRepeat s c e d l rep op) {opc : Nat} (ho : op.opcode = opc) :
    gate s c e opc = .go d l (engCtl s c e) rep op := by
  obtain ⟨h1, h2, h3, h4, h5⟩ := h
  subst ho
  rw [← (decodeStream_some h5).1] at h4 ⊢
  unfold gate
  simp only [h1]
  simp only [engCtl] at *
  simp [h2, Nat.not_le.mpr h3, h4, h5]

/-- A stream command at a repeat of its opcode is the repeat's meaning. -/
theorem onRepeat_at {s : State} {c : CoreId} {e : Engine} {d : Desc} {l : ListSet} {rep : Nat} {op : SOp}
    (h : AtRepeat s c e d l rep op) {opc : Nat} (ho : op.opcode = opc) (f : Desc → ListSet → Ctl → Nat → SOp → State) :
    onRepeat c e opc s f = f d l (engCtl s c e) rep op := by
  unfold onRepeat; rw [gate_at h ho]

/-- A stream command whose event cannot happen changes nothing. -/
theorem onRepeat_idle {s : State} {c : CoreId} {e : Engine} {opc : Nat} (h : gate s c e opc = .idle)
    (f : Desc → ListSet → Ctl → Nat → SOp → State) : onRepeat c e opc s f = s := by
  unfold onRepeat; rw [h]

/-- A stream command at an illegal word faults with BAD_ENCODING; a delayed cut of the LDE is noted (R149). -/
theorem onRepeat_bad {s : State} {c : CoreId} {e : Engine} {opc w : Nat} (h : gate s c e opc = .bad w)
    (f : Desc → ListSet → Ctl → Nat → SOp → State) :
    onRepeat c e opc s f =
      let t := engFault c e fcBadEncoding (w / 2 ^ 96) 0 s
      if e = .lde then lateCut c s t else t := by
  unfold onRepeat; rw [h]

/-- No operand steps no register. -/
theorem steppedArs_nil : steppedArs [] = [] := by decide

/-- Issuing a repeat without operands. -/
theorem issue_nil {c : CoreId} {e : Engine} {d : Desc} {l : ListSet} {k : Ctl} {rep : Nat} {s : State} {f : State → State} :
    issue c e d l k rep none [] s f = f (setCtl c e (k.advance l e d.chunks rep) s) := by
  simp [issue, steppedArs_nil, stepArs]

/-- Issuing a repeat whose registers step. -/
theorem issue_steps {c : CoreId} {e : Engine} {d : Desc} {l : ListSet} {k k' : Ctl} {rep : Nat} {os : List Opd} {s : State}
    {f : State → State} (h : stepArs (steppedArs os) k = .ok k') :
    issue c e d l k rep none os s f = f (setCtl c e (k'.advance l e d.chunks rep) s) := by
  simp [issue, h]

/-- Issuing a repeat that fails its checks faults and does nothing else. -/
theorem issue_fault {c : CoreId} {e : Engine} {d : Desc} {l : ListSet} {k : Ctl} {rep code detail addr : Nat} {os : List Opd}
    {s : State} {f : State → State} :
    issue c e d l k rep (some (code, detail, addr)) os s f = engFault c e code detail addr s := by
  simp [issue]

/-- Control moved on leaves every other core. -/
theorem core_setCtl_other {c n : Nat} {e : Engine} {k : Ctl} {s : State} (h : n ≠ c) :
    core (setCtl c e k s) n = core s n := core_modCore_other _ _ h

/-- Control moved on. -/
@[simp] theorem core_setCtl_same (c : Nat) (e : Engine) (k : Ctl) (s : State) :
    core (setCtl c e k s) c = (core s c).modCtl e fun _ => k := by simp [setCtl]

/-- Filling a translation cache leaves the cores. -/
@[simp] theorem tlbFill_cores (g : Nat) (x : CtxId) (reg off : Nat) (w : Walk × List (Nat × Nat)) (s : State) :
    (tlbFill g x reg off w s).cores = s.cores := rfl

/-- A walk's reads touch the requests to stack ports only. -/
theorem walkAsks_frame (g : Nat) (x : CtxId) (l : List (Half × Nat)) (s : State) :
    walkAsks g x l s = { s with stkReqs := (walkAsks g x l s).stkReqs } := by
  unfold walkAsks
  induction l generalizing s with
  | nil => rfl
  | cons e l ih =>
    rw [List.foldl_cons, ih, stkAsk_frame]

/-- Translation changes the groves' translation caches and the requests to stack ports only. -/
theorem translate_frame (g : Nat) (x : CtxId) (reg off : Nat) (s : State) :
    (translate g x reg off s).1 = { s with
      groves := (translate g x reg off s).1.groves, stkReqs := (translate g x reg off s).1.stkReqs } := by
  unfold translate
  split
  · rfl
  · simp only; rw [walkAsks_frame]; rfl

/-- Resolving a mapped offset changes the groves' translation caches and the requests to stack ports only. -/
theorem resolveMapped_frame (g : Nat) (x : CtxId) (want : Want) (reg off : Nat) (s : State) :
    (resolveMapped g x want reg off s).1 = { s with
      groves := (resolveMapped g x want reg off s).1.groves, stkReqs := (resolveMapped g x want reg off s).1.stkReqs } := by
  have h := translate_frame g x reg off s
  unfold resolveMapped
  split
  · next s1 _ _ e => rw [e] at h; exact h
  · next s1 p e =>
    rw [e] at h
    split
    · exact h
    · split <;> exact h

/-- Resolving an address changes the groves' translation caches and the requests to stack ports only. -/
theorem resolve_frame (c : Nat) (x : CtxId) (want : Want) (pos : Nat) (va : BitVec 56) (s : State) :
    (resolve c x want pos va s).1 = { s with
      groves := (resolve c x want pos va s).1.groves, stkReqs := (resolve c x want pos va s).1.stkReqs } := by
  unfold resolve
  split <;> first | rfl | exact resolveMapped_frame ..

end Sys2Proof.Machine
end

