-- ==== Sys2Proof/Tests/Slice0.lean ====
section
/-! SUPPORT. Tests: what Instr.wf refuses, the spec's worked examples, and a witness for the hypotheses of each
statement: a concrete state and operands that meet them. -/

namespace SliceTests

set_option maxRecDepth 100000
set_option Elab.async false

open Sys2Proof Sys2Proof.Machine

/-- The command answers a next state of which `p` holds. -/
def after (i : Instr) (s : State) (p : State → Bool) : Bool :=
  match exec i s with
  | .next t => p t
  | _ => false

/-- The command answers the next state `s` itself. -/
def idle (i : Instr) (s : State) : Bool := after i s (· == s)

/-- The command is refused for its operand. -/
def refusedOperand (i : Instr) (s : State) : Bool :=
  match exec i s with
  | .refused .badOperand => true
  | _ => false


/-! ### What is not well formed -/

/-- A transit mask longer than a flit. -/
theorem test_wf_ride_mask : (Instr.rideFlitReceive 0 (zeros 257)).wf = false
    ∧ (Instr.rideFlitReceive 0 (zeros 256)).wf = true := by decide +kernel
/-- A descriptor write that is not 320 bytes (R123). -/
theorem test_wf_descriptor : (Instr.invocationWrite 0 false 0 (zeros 319)).wf = false
    ∧ (Instr.invocationWrite 0 false 0 (zeros 320)).wf = true := by decide +kernel
/-- An off-load whose 32 blocks pass the half's last block (R232). -/
theorem test_wf_offload : (Instr.offload 0 0 0 (188743680 - 31)).wf = false
    ∧ (Instr.offload 0 0 0 (188743680 - 32)).wf = true := by decide +kernel
/-- A refresh reading without one temperature per stack. -/
theorem test_wf_refresh : (Instr.refreshLoop (List.replicate 15 0)).wf = false
    ∧ (Instr.refreshLoop (List.replicate 16 0)).wf = true := by decide +kernel
/-- A step record that is not 64 bytes. -/
theorem test_wf_records : (Instr.stepDecision [zeros 64, zeros 63]).wf = false
    ∧ (Instr.stepDecision [zeros 64, zeros 64]).wf = true := by decide +kernel
/-- Torus flits that are not 256 bytes. -/
theorem test_wf_torus : (Instr.torusIdentity 0 (zeros 255)).wf = false ∧ (Instr.torusFlitReceive 0 (zeros 257)).wf = false
    ∧ (Instr.torusIdentity 0 (zeros 256)).wf = true ∧ (Instr.torusFlitReceive 0 (zeros 256)).wf = true := by decide +kernel
/-- An access that names a window past 255 or a key past 20 bits (R408). -/
theorem test_wf_access : (Instr.inboundRead ⟨.cpa, 0, 256, 0, 0⟩ 8).wf = false
    ∧ (Instr.inboundWrite ⟨.cpa, 0, 255, 2 ^ 20, 0⟩ []).wf = false
    ∧ (Instr.stationFetchAdd ⟨.sp, 0, 256, 0, 0⟩ true 1).wf = false
    ∧ (Instr.writeWithImmediate ⟨.cpb, 0, 256, 0, 0⟩ [] 0).wf = false
    ∧ (Instr.inboundRead ⟨.cpa, 0, 255, 2 ^ 20 - 1, 0⟩ 8).wf = true := by decide +kernel
/-- A landing with no copy, with four, or of another length than an image (R441). -/
theorem test_wf_landing : (Instr.landing 0 0 0 0 []).wf = false
    ∧ (Instr.landing 0 0 0 0 (List.replicate 4 (zeros 2184))).wf = false
    ∧ (Instr.landing 0 0 0 0 [zeros 2183]).wf = false
    ∧ (Instr.landing 0 0 0 0 [zeros 2184]).wf = true := by decide +kernel
/-- Temperature readings of the wrong number. -/
theorem test_wf_thermal : (Instr.thermalLoop [] [] []).wf = false
    ∧ (Instr.thermalLoop (List.replicate 32 0) (List.replicate 16 0) (List.replicate 15 0)).wf = false
    ∧ (Instr.thermalLoop (List.replicate 32 0) (List.replicate 16 0) (List.replicate 16 0)).wf = true := by decide +kernel
/-- A handover body past 64 KiB, and a token that is not 512 bytes. -/
theorem test_wf_firmware : (Instr.firmwareSwitch 0 (zeros 65537)).wf = false ∧ (Instr.openingToken (zeros 511)).wf = false
    ∧ (Instr.firmwareSwitch 0 []).wf = true ∧ (Instr.openingToken (zeros 512)).wf = true := by decide +kernel
/-- An ill-formed command is refused by its meaning, too. -/
theorem test_ill_formed_refused : refusedOperand (.torusIdentity 0 (zeros 255)) State.reset = true
    ∧ refusedOperand (.openingToken []) State.reset = true := by decide +kernel

/-! ### The spec's worked examples -/

/-- spec/13, the guard of a tag with CRC 0x10, GEN 3, FMT 4 is 0x33, and a flip in the stored CRC is corrected. -/
theorem test_guard_example : guardOf 0x400300000010 = 0x33
    ∧ decodeTag 0x3300400300000010 = some (0x400300000010, .none)
    ∧ decodeTag 0x3300400300000000 = some (0x400300000010, .single) := by decide +kernel

/-- spec/05, the MPASS example: REP 7, BX8, DMODE 4, RND, DST AR_5 stepping, NV 64, SALT 3. -/
theorem test_mpass_example :
    encodeStream 7 (.mpass 2 4 false true ⟨true, false, 5⟩ 64 3) = 0x10000724651F80000003000000000000
    ∧ decodeStream 0x10000724651F80000003000000000000 = some (7, .mpass 2 4 false true ⟨true, false, 5⟩ 64 3)
    ∧ baseCounter 3 2 3 (128 * 64) = 0x0003000200006000 := by decide +kernel

/-- spec/05, one word of each family written out from Tables 5.6 to 5.14. -/
theorem test_stream_words :
    decodeStream (0x01 * 2 ^ 120 + 5 * 2 ^ 100 + 0x40000) = some (0, .arset 5 (.imm false 0 0x40000))
    ∧ decodeStream (0x20 * 2 ^ 120 + 3 * 2 ^ 99 + 1 * 2 ^ 92 + 2 * 2 ^ 86 + 3 * 2 ^ 80 + 4 * 2 ^ 74)
      = some (0, .vew 3 false ⟨false, false, 1⟩ ⟨false, false, 2⟩ ⟨false, false, 3⟩ ⟨false, false, 4⟩ false 0)
    ∧ decodeStream (0x30 * 2 ^ 120 + 9 * 2 ^ 104 + 2 * 2 ^ 100 + 0x27 * 2 ^ 94) = some (9, .ltile 2 ⟨true, false, 7⟩)
    ∧ decodeStream (0x42 * 2 ^ 120 + 0x21 * 2 ^ 98 + 2 * 2 ^ 92 + 63 * 2 ^ 86 + 5 * 2 ^ 83 + 1 * 2 ^ 82 + 6 * 2 ^ 78 + 31 * 2 ^ 73)
      = some (0, .shift ⟨true, false, 1⟩ ⟨false, false, 2⟩ 64 5 true 6 31)
    ∧ decodeStream (0x0F * 2 ^ 120) = none := by decide +kernel

/-- spec/07, the walk example: block 0x4B102CF of HALF_1 lies in STK_4, channel 25, row 307,458. -/
theorem test_walk_example : dieOf 1 0x4B102CF = 12 ∧ chanOf 0x4B102CF = 25 ∧ rowOf 0x4B102CF = 307458
    ∧ pteFrame 0x12C40041F = 0x12C40 ∧ pteOwn 0x12C40041F = 1 ∧ pteFmt 0x12C40041F = 4
    ∧ mappedOf 0x10001234567800 = some (1, 0x1234567800) ∧ pteIndex 0 0x1234567800 = 0x48
    ∧ pteIndex 1 0x1234567800 = 0x1A2 ∧ placeOf 1 0x1234567800 0x12C40041F = (.stk 1 0x4B102CF, 0) := by decide +kernel

/-- spec/06, the sum of −5, +1 and +2 on 3 is 1 with nothing saturated; −5 alone stops at 0 and saturates. -/
theorem test_sync_example : satSum 3 (-5 + 1 + 2) = (1, false) ∧ satSum 3 (-5) = (0, true)
    ∧ satSum 0xFFFFFFFF 1 = (0xFFFFFFFF, true) := by decide +kernel

/-- spec/02, 786 × 2^−12 as a WAP entry and as FP32. -/
theorem test_wa_example : wapOf (roundWa [.num ⟨786, -12⟩, .num .zero]).1 = 0x01D0312000000000
    ∧ (waToF32 (.num ⟨786, -12⟩)).1 = 0x3E448000 := by decide +kernel

/-- spec/02, the BX8 band sum of the example and its exponent. -/
theorem test_band_example : pairExp 2 0x80 0x7E = some (-12)
    ∧ (formSub 2 0x80 ([0x40, 0xC1, 0x7F] ++ zeros 29)).1 = [64, -63, 127] ++ List.replicate 29 0 := by decide +kernel

/-- spec/02, 32 lanes with 3.0 the largest convert to E = 0x80; 1.3 scales to 41.6, which to-nearest rounds to 42. -/
theorem test_to_bx_example :
    (toBx 2 .rne 0 ((List.replicate 4 (some Dy.zero)) ++ [bxSrcF32 0x40400000, bxSrcF32 0x3FA66666]
      ++ List.replicate 26 (some Dy.zero))).1 = 0x80
    ∧ (toBx 2 .rne 0 ((List.replicate 4 (some Dy.zero)) ++ [bxSrcF32 0x40400000, bxSrcF32 0x3FA66666]
      ++ List.replicate 26 (some Dy.zero))).2.1[5]? = some 42 := by decide +kernel

/-- spec/08, group 11 of an array at block 0x40000: the parts, their stack 7 and channels 4 to 7. -/
theorem test_mill_layout_example : groupBlks 0x40000 11 = [0x40023, 0x4002B, 0x40033, 0x4003B]
    ∧ (groupBlks 0x40000 11).map (dieOf 0) = [7, 7, 7, 7] ∧ (groupBlks 0x40000 11).map chanOf = [4, 5, 6, 7] := by
  decide +kernel

/-- spec/10, svc of the example is 12,000.00 ns. -/
theorem test_service_example : svcPs 50 2000 4 2 11357 false 0 = 12000000 := by decide +kernel

/-- spec/12, a station address is handle 0x2A at offset 0x11000. -/
theorem test_station_example : (resolve 0 0 .write 0 0x802A0000011000 State.reset).2 = .station 0x2A 0x11000 := by
  decide +kernel

/-- spec/17, Table 17.3: SYNC_STAT of context 3, an offset between registers, a misaligned offset. -/
theorem test_register_offsets : regAt 0x8300 = some (.syncStat, 3) ∧ regAt 0x20 = none ∧ regAt 0x8304 = none := by
  decide +kernel

/-- A command that decoding bits would spell: the table gives no row bits, so no word spells one. -/
theorem test_table_words : decodeTableWord 0 0 = none ∧ decodeTableWord 128 0 = none
    ∧ State.reset.withFetchWord 0 0 = State.reset := by decide +kernel


/-! ### The queue and the ride -/

/-- An empty queue. -/
theorem witness_step_idle : State.reset.pending = [] := rfl

/-- Two ready flits of classes 3 and 1: the class 1 flit goes first. -/
def flit0 : RideFlit := ⟨3, 1, zeros 248, 0, true⟩
/-- The flit of class 1. -/
def flit1 : RideFlit := ⟨1, 1, zeros 248, 1, true⟩
/-- HALF_0 with the two flits ready. -/
def sReady : State := modRide 0 (fun r => { r with ready := [flit0, flit1] }) State.reset
/-- HALF_0 with SEQ 0 and 1 sent and not acknowledged, the first of them on the wire, 512 cycles ago. -/
def sSent : State := { modRide 0 (fun r => { r with
    retry := [(0, flit0), (1, flit1)]
    nextSeq := 2
    wire := [⟨0, -1, flit0, rideRaw 3 1 0xFFF 0 (zeros 248)⟩] }) State.reset with time := 512 }

/-- RideTransmitterServesClassesInOrder (1), room in the retry buffer. -/
theorem witness_ride_transmit : (rideEnd sReady 0).down = false ∧ (rideEnd sReady 0).askReplay = false
    ∧ (rideEnd sReady 0).resend = none ∧ (rideEnd sReady 0).retry.length < 512
    ∧ (rideEnd sReady 0).ready = [flit0] ++ flit1 :: [] ∧ (∀ g ∈ [flit0], flit1.cls.val < g.cls.val) := by decide +kernel
/-- (2) nothing ready, and a retry buffer at its 512 entries. -/
theorem witness_ride_transmit_idle : (rideEnd State.reset 0).ready = []
    ∧ 512 ≤ (rideEnd (modRide 0 (fun r => { r with retry := List.replicate 512 (0, flit0) }) State.reset) 0).retry.length := by
  decide +kernel
/-- (3) a resend under way. -/
theorem witness_ride_resend : let s := modRide 0 (fun r => { r with resend := some 1 }) sSent
    (rideEnd s 0).resend = some 1 ∧ (rideEnd s 0).retry[1]? = some (1, flit1) ∧ (rideEnd s 0).down = false
    ∧ (rideEnd s 0).askReplay = false := by decide +kernel

/-- RideReceiverTakesInOrderAndRejectsBadCrc: an unchanged flit of SEQ 0 with ACK 0xFFF at HALF_1, whose retry buffer
holds SEQ 0xFFF. -/
def sAcked : State := modRide 1 (fun r => { r with retry := [(0xFFE, flit0), (0xFFF, flit1)], nextSeq := 0 }) sSent
/-- The good flit, in order, with an ACK that frees both entries. -/
theorem witness_ride_receive :
    let raw := xorBytes (rideRaw 3 1 0xFFF 0 (zeros 248)) []
    let hd := leNat (raw.take 4)
    (rideEnd sAcked (otherHalf 1)).wire = ⟨0, -1, flit0, rideRaw 3 1 0xFFF 0 (zeros 248)⟩ :: [] ∧ sAcked.ride.length = 2
    ∧ (rideEnd sAcked 1).down = false ∧ crc32c (raw.take 252) = leNat (raw.drop 252) ∧ 1 ≤ bits hd 24 4 ∧ bits hd 24 4 ≤ 3
    ∧ bits hd 28 4 < 4 ∧ BitVec.ofNat 12 (bits hd 0 12) = (rideEnd sAcked 1).lastGood + 1
    ∧ (rideEnd sAcked 1).retry = [(0xFFE, flit0)] ++ (BitVec.ofNat 12 (bits hd 12 12), flit1) :: []
    ∧ (∀ p ∈ [((0xFFE : BitVec 12), flit0)], p.1 ≠ BitVec.ofNat 12 (bits hd 12 12)) := by decide +kernel
/-- The same flit with one bit changed in transit fails its CRC; at HALF_1 of `sSent` its ACK would name no entry. -/
theorem witness_ride_receive_bad : (let raw := xorBytes (rideRaw 3 1 0xFFF 0 (zeros 248)) [1]
    crc32c (raw.take 252) ≠ leNat (raw.drop 252)) ∧ (rideEnd sSent 1).retry = [] := by decide +kernel

/-- RideReplayResendsFromTheOldest: at the limit, and one cycle before it. -/
theorem witness_ride_ack_timeout : (rideEnd sSent 0).retry ≠ [] ∧ (rideEnd sSent 0).ackSince + 512 ≤ sSent.time
    ∧ ({ sSent with time := 511 } : State).time < (rideEnd { sSent with time := 511 } 0).ackSince + 512 := by decide +kernel
/-- A request whose ACK names no entry, and one whose ACK names the first of two. -/
theorem witness_ride_replay : let s (a : BitVec 12) := modRide 0 (fun r => { r with gotReplay := some a }) sSent
    (rideEnd (s 9) 0).gotReplay = some 9 ∧ (∀ p ∈ (rideEnd (s 9) 0).retry, p.1 ≠ 9)
    ∧ (rideEnd (s 0) 0).gotReplay = some 0 ∧ (rideEnd (s 0) 0).retry = [] ++ (0, flit0) :: [(1, flit1)] := by decide +kernel

/-! ### An engine at a repeat -/

/-- A descriptor of context 0 with 7 chunks. -/
def desc0 : Desc := ⟨0, 0, 7, 1, false, false, false, 0, [42], none⟩
/-- Control in the body. -/
def ctl0 : Ctl := { Ctl.reset with part := .body }
/-- Address registers: 0 to 3 at own leaf offsets 0, 0x4000, 0x8000, 0xC000 (Table 7.1), 0 stepping by one block once per
window; 4 at own ACC offset 0; the others zero. -/
def ars0 : List AddrReg := [⟨0x30000010000000, 2048, 0, 1, 0, 0, 0⟩, ⟨0x30000010004000, 2048, 0, 0, 0, 0, 0⟩,
  ⟨0x30000010008000, 2048, 0, 0, 0, 0, 0⟩, ⟨0x3000001000C000, 2048, 0, 0, 0, 0, 0⟩, ⟨0x40000010000000, 1024, 0, 0, 0, 0, 0⟩]
  ++ List.replicate 11 AddrReg.reset
/-- Control with those address registers. -/
def ctlA : Ctl := { ctl0 with ars := ars0 }
/-- A list set whose only instruction is a word in an engine's body. -/
def lset (e : Engine) (w : Nat) : ListSet :=
  ⟨0, 0, 0, 1, (List.replicate 8 0).set (2 * engCode e + 1) 1, 0, 0, 0, 2, 0, 0, [BitVec.ofNat 128 w]⟩
/-- Core 0 running `desc0` with that list set, its engine in control `k`, its leaf store and ACC closed. -/
def sRun (e : Engine) (w : Nat) (k : Ctl) : State :=
  setCore 0 (({ Core.reset with run := some (desc0, lset e w), owner := some 0, shown := true, openFmt := [] } : Core).setEng e ⟨k, none, none⟩) State.reset
/-- The same for an operation with REP. -/
def sOp (e : Engine) (rep : Nat) (op : SOp) (k : Ctl := ctlA) : State := sRun e (encodeStream rep op) k
/-- The list set of that. -/
def lOp (e : Engine) (rep : Nat) (op : SOp) : ListSet := lset e (encodeStream rep op)
/-- The engine of `sOp` stands at its repeat. -/
def atOp (e : Engine) (rep : Nat) (op : SOp) (k : Ctl := ctlA) : Prop :=
  AtRepeat (sOp e rep op k) 0 e desc0 (lOp e rep op) rep op

/-- Operand descriptors: address register n, the same stepping, and the queue. -/
def ar (n : Nat) : Opd := ⟨false, false, n⟩
/-- Address register n, stepping. -/
def arS (n : Nat) : Opd := ⟨true, false, n⟩
/-- The queue. -/
def qOpd : Opd := ⟨false, true, 0⟩

/-- RegisterInstructionsCompleteWithTheirResult: each form, with every field at a bound of its range. -/
theorem witness_register_forms : atOp .mxe 0 .nop ∧ atOp .vxe 0 (.arset 15 (.imm true 31 (2 ^ 56 - 1)))
    ∧ atOp .lde 0 (.arset 0 (.strides 0xFFFF 1 0xFFFFFFFF 0)) ∧ atOp .xce 0 (.arset 3 (.copy 15))
    ∧ atOp .mxe 0 (.arset 2 (.par 1 2047)) ∧ atOp .mxe 0 (.arset 2 (.par 2 0)) := by
  unfold atOp AtRepeat; decide +kernel
/-- Counters and comparators. -/
theorem witness_counter_forms : atOp .xce 0 (.cntset 3 true 0 0xFFFFFFFF) ∧ atOp .mxe 65535 (.cntadd 0 0xFFFFFFFF)
    ∧ atOp .lde 0 (.cmpset 1 3 5 0) := by unfold atOp AtRepeat; decide +kernel
/-- The blocks of the two parameter forms: the set has 2 parameter blocks. -/
theorem witness_par_range : 1 < (lOp .mxe 0 (.arset 2 (.par 1 2047))).npar ∧ (lOp .mxe 0 (.arset 2 (.par 2 0))).npar ≤ 2 := by
  decide +kernel
/-- spec/04: CNTADD of −1 to 0 modulo 10 gives 9. -/
theorem test_cntadd_wraps :
    after (.cntadd 0 .xce) (sOp .xce 0 (.cntadd 1 0xFFFFFFFF) { ctl0 with cnts := [⟨0, 0, false⟩, ⟨0, 10, false⟩, ⟨0, 0, false⟩, ⟨0, 0, false⟩] })
      (fun t => (engCtl t 0 .xce).cnts[1]? = some ⟨9, 10, false⟩) = true := by decide +kernel

/-- ChunkBoundaryAddsAutoCounters: the engine past its body in chunk 5 of 7, and one before its end. -/
theorem witness_chunk_boundary :
    let s := sOp .vxe 0 .nop { ctl0 with pc := 1, chunk := 5 }
    let l := lOp .vxe 0 .nop
    (core s 0).run = some (desc0, l) ∧ (engCtl s 0 .vxe).part = .body ∧ l.pro .vxe + l.body .vxe ≤ (engCtl s 0 .vxe).pc
    ∧ mayIssue s 0 .vxe = true ∧ 0 < l.body .vxe ∧ (engCtl s 0 .vxe).chunk.toNat + 1 < desc0.chunks.toNat
    ∧ (engCtl (sOp .vxe 0 .nop) 0 .vxe).pc < l.pro .vxe + l.body .vxe := by decide +kernel

/-- IllegalWordsFaultTheContext: an undefined opcode, a VEW in the LDE's list, another opcode than the command's. -/
theorem witness_illegal_word : gate (sRun .lde (0x0F * 2 ^ 120) ctl0) 0 .lde 0x30 = .bad (0x0F * 2 ^ 120)
    ∧ gate (sRun .lde (0x21 * 2 ^ 120) ctl0) 0 .lde 0x30 = .bad (0x21 * 2 ^ 120) ∧ gate (sOp .lde 0 .nop) 0 .lde 0x30 = .idle
    ∧ gate State.reset 0 .lde 0x30 = .idle ∧ streamCommand (.ltile 0) = some (0, .lde, 0x30) := by decide +kernel
/-- FirstContextFaultIsRecordedAndStopsItsCores: the context has no fault. -/
theorem witness_first_fault : (core (sRun .lde (0x0F * 2 ^ 120) ctl0) 0).run = some (desc0, lset .lde (0x0F * 2 ^ 120))
    ∧ (ctxSt (sRun .lde (0x0F * 2 ^ 120) ctl0) 0).fault = none := by decide +kernel


/-! ### Signals and waits -/

/-- The word at own leaf offset 0 of core 0, as a global byte address. -/
def w0 : Nat := (Loc.leaf 0 0).addr 0
/-- Core 0 with a list of operations. -/
def sPend (ps : List Pend) : State := modCore 0 (fun x => { x with pend := ps }) (sOp .vxe 0 .nop)
/-- A signal of an engine to that word, under repeat r. -/
def sig (e : Engine) (r : Nat) (st : SigState) (amt : BitVec 32 := 5) : Pend :=
  ⟨0, e, r, none, .signal 0x30000010000000 w0 amt st ctl0⟩
/-- Entry 0 of the handle table with its flags and port: a whole station, for every context (Table 12.3). -/
def sStn (flags port : Nat) (s : State) : State := htPut 0 (toLe 4 (flags + 256 * port + 0xFFFF0000) ++ zeros 28) s
/-- Logical core 256, a core of HALF_1, open to context 0. -/
def sFar (s : State) : State := modCore 272 (fun x => { x with owner := some 0, shown := true, openFmt := [] }) s
/-- Control whose address register 0 is a base. -/
def ctlAt (b : BitVec 56) : Ctl := { ctl0 with ars := [⟨b, 0, 0, 0, 0, 0, 0⟩] }
/-- A package in a torus of two packages. -/
def twoPkgs (s : State) : State := wr fDxm1 0 1 s

/-- SignalIssuesAndCommitsAfterEarlierWrites (1): a word of the core's leaf store. -/
theorem witness_signal_issue : let o : SOp := .signal (arS 0) 1
    let s := sOp .vxe 9 o
    atOp .vxe 9 o ∧ checkOpd s 0 signalRegions 4 0 (ctlA.opAddr (arS 0)) = none
    ∧ (resolve 0 0 .write 0 (ctlA.opAddr (arS 0)) s).2 = .here (.leaf 0 0) 0
    ∧ (stepArs (steppedArs [arS 0]) ctlA).isOk = true := by unfold atOp AtRepeat; decide +kernel
/-- A word of the package at x = 1 and a word of a station. -/
theorem witness_signal_far : let k (b : BitVec 56) : Ctl := { ctl0 with ars := [⟨b, 0, 0, 0, 0, 0, 0⟩] }
    let o : SOp := .signal (ar 0) 1
    let s (b : BitVec 56) := twoPkgs (sOp .vxe 0 o (k b))
    AtRepeat (s 0x50008000000000) 0 .vxe desc0 (lOp .vxe 0 o) 0 o
    ∧ checkOpd (s 0x50008000000000) 0 signalRegions 4 0 0x50008000000000 = none
    ∧ (resolve 0 0 .write 0 0x50008000000000 (s 0x50008000000000)).2 = .remote 0 1 0 0 0
    ∧ checkOpd (s 0x80001000000000) 0 signalRegions 4 0 0x80001000000000 = none
    ∧ (resolve 0 0 .write 0 0x80001000000000 (s 0x80001000000000)).2 = .station 0 0x1000000000 := by
  unfold AtRepeat; decide +kernel
/-- A station word whose handle admits a signal, and one whose handle lacks ATOM. -/
theorem witness_signal_station : let o : SOp := .signal (ar 0) 1
    let s (f : Nat) := sStn f 2 (sOp .vxe 0 o (ctlAt 0x80001000000000))
    AtRepeat (s 15) 0 .vxe desc0 (lOp .vxe 0 o) 0 o ∧ checkOpd (s 15) 0 signalRegions 4 0 0x80001000000000 = none
    ∧ (resolve 0 0 .write 0 0x80001000000000 (s 15)).2 = .station 0 0x1000000000
    ∧ stnFault (s 15) 0 0 0x1000000000 4 .atomic = none ∧ (stnFault (s 7) 0 0 0x1000000000 4 .atomic).isSome = true := by
  unfold AtRepeat; decide +kernel
/-- (2) the first uncommitted signal of the LDE with no rewind record before it, (3) behind a write of its engine, under FORCE. -/
theorem witness_signal_commit : let s := sPend [sig .lde 3 .issued]
    let t := sPend [⟨0, .lde, 2, none, .put (.leaf 0 1) ⟨[], [], 0⟩⟩, sig .lde 3 .issued]
    (core s 0).pend[0]? = some (sig .lde 3 .issued) ∧ (∀ q ∈ (core s 0).pend.take 0, q.eng ≠ .lde)
    ∧ (core s 0).forced = false ∧ (∀ r ∈ (core s 0).rewinds, 3 < r.rpt) ∧ w0 / 4096 / 2 ^ 28 % 2 = coreHalf 0
    ∧ (core t 0).pend[1]? = some (sig .lde 3 .issued) ∧ ((core t 0).pend[0]?.map (·.eng)) = some .lde
    ∧ (core (stopCore 0 s) 0).forced = true := by decide +kernel
/-- SIGNAL_ACK: an applied signal without and with saturation, the context's SYNC_SAT 0 and 1. -/
theorem witness_signal_ack : (core (sPend [sig .vxe 1 (.applied false)]) 0).pend[0]? = some (sig .vxe 1 (.applied false))
    ∧ (core (sPend [sig .vxe 1 (.applied true)]) 0).pend[0]? = some (sig .vxe 1 (.applied true))
    ∧ rideArrived (sPend []) none = true ∧ rideArrived (sPend []) (some 3) = false
    ∧ rd (sPend []) fSyncSat 0 = 0 ∧ rd (wr fSyncSat 0 1 (sPend [])) fSyncSat 0 = 1
    ∧ (let s := { sPend [] with satAt := [(0, 5)] }
      (0, ({ s with time := 5 } : State).time) ∈ s.satAt ∧ (0, ({ s with time := 6 } : State).time) ∉ s.satAt) := by decide +kernel
/-- R203: the first saturation of a context captures its word and counts. -/
theorem test_saturation_counts : after (.signalAck 0 0) (wr fSatCount 0 0xFFFF (sPend [sig .vxe 1 (.applied true)]))
    (fun t => rd t fSatCount 0 = 0xFFFF ∧ rd t fSyncSat 0 = 1 ∧ rd t fSatAddr 0 = 0x30000010000000) = true := by decide +kernel

/-- SignalsAddExactlyAndSaturateOnce: two committed signals of −5 and 2 at one word. -/
theorem witness_signal_apply : let s := sPend [sig .vxe 1 .committed (-5), sig .xce 2 .committed 2]
    s.storesWf = true ∧ [((0 : CoreId), 0), (0, 1)].Nodup ∧ w0 % 4 = 0 ∧ w0 % 4096 + 4 ≤ 2048
    ∧ (core s 0).pend[0]? = some (sig .vxe 1 .committed (-5)) ∧ (core s 0).pend[1]? = some (sig .xce 2 .committed 2)
    ∧ rideArrived s none = true := by decide +kernel

/-- A core's signal of −5 and a station's fetch-add of 3 that has crossed the ride, at a word that holds 3. -/
def sBoth : State := memWrite w0 (toLe 4 3)
  { sPend [sig .vxe 1 .committed (-5)] with fadds := [⟨.sp, 0, 4, 0, 0x30000010000000, w0, 3⟩] }
/-- They are one sum. -/
theorem witness_signal_sum : let f : FAdd := ⟨.sp, 0, 4, 0, 0x30000010000000, w0, 3⟩
    let r := sigHits [.core 0 0, .crossed 0] sBoth
    sBoth.storesWf = true ∧ refsDistinct [.core 0 0, .crossed 0] = true ∧ w0 % 4 = 0 ∧ w0 % 4096 + 4 ≤ 2048
    ∧ r.2 = some [⟨w0, -5, .core 0 0 0⟩, ⟨w0, 3, .station f⟩] := by decide +kernel
/-- R200: −5 and +3 on 3 leave 1 and saturate nothing. -/
theorem test_signal_sum : after (.signalApply [.core 0 0, .crossed 0]) sBoth
    (fun t => wordRead t w0 == 1 && rd t fSyncSat 0 == 0 && t.fadds == []) = true := by decide +kernel

/-- The WAIT of own leaf word 0 with VALUE 0 under a condition; comparator 0 holds nothing (0 > 0). -/
def opWait (cond gt : Nat) (pk : Bool) : SOp := .wait (arS 0) cond 0 gt pk 0 0
/-- WaitCompletesParksOrPolls, first half: gate closed; the word equal, unequal; parking with slot 0 free. -/
theorem witness_wait_issue : let s (o : SOp) := sOp .vxe 0 o
    let k : Ctl := { ctlA with cmps := [⟨0, 2, 0⟩, ⟨0, 2, 0⟩] }
    let a := (resolve 0 0 .read 0 0x30000010000000 (s (opWait 1 0 false)))
    AtRepeat (sOp .vxe 0 (opWait 1 1 false) k) 0 .vxe desc0 (lOp .vxe 0 (opWait 1 1 false)) 0 (opWait 1 1 false)
    ∧ k.cmpNow 0 = false ∧ atOp .vxe 0 (opWait 1 0 false) ∧ atOp .vxe 0 (opWait 2 0 false) ∧ atOp .vxe 0 (opWait 2 0 true)
    ∧ checkOpd (s (opWait 2 0 true)) 0 (waitRegions true) 4 0 0x30000010000000 = none ∧ a.2 = .here (.leaf 0 0) 0
    ∧ waitHolds 1 0 0 = true ∧ waitHolds 2 0 0 = false
    ∧ (∀ m : Fin 8, ((core a.1 0).mons.getD m Mon.reset).st = .free) ∧ (core a.1 0).mons.length = 8
    ∧ (a.1.watches.filter fun v => v.home == homeOf w0).length < homeCap (homeOf w0)
    ∧ (Loc.leaf 0 0).half.val = coreHalf 0 := by
  unfold atOp AtRepeat; decide +kernel
/-- A word of logical core 256, in the other half. -/
theorem witness_wait_far : let o := SOp.wait (ar 0) 1 0 0 false 0 0
    let s := sFar (sOp .vxe 0 o (ctlAt 0x30000008000000))
    AtRepeat s 0 .vxe desc0 (lOp .vxe 0 o) 0 o ∧ checkOpd s 0 (waitRegions false) 4 0 0x30000008000000 = none
    ∧ (resolve 0 0 .read 0 0x30000008000000 s).2 = .here (.leaf 272 0) 0 ∧ (Loc.leaf 272 0).half.val ≠ coreHalf 0 := by
  unfold AtRepeat; decide +kernel
/-- A wait of the VXE on that word, on a slot or none. -/
def waitOn (slot : Option (Fin 8)) (ext final : Bool) (word : Option Nat := some w0) : Waiting :=
  ⟨0x30000010000000, word, 0, 1, slot, ext, 0, 7, final, false, none, none⟩
/-- Core 0's VXE in that wait. -/
def sWait (w : Waiting) (cond : Nat := 1) : State := setWait 0 .vxe (some w) (sOp .vxe 0 (opWait cond 0 false))
/-- Second half: polling a word, a station's answer, a woken watch with its slot held and one without. -/
theorem witness_wait_reread : let s := sWait (waitOn none false false)
    let u := { sWait (waitOn (some 3) false false) with
      watches := [⟨homeOf w0, w0, 0, 3, true, none⟩, ⟨homeOf w0, w0, 0, 4, true, none⟩] }
    (core s 0).run = some (desc0, lOp .vxe 0 (opWait 1 0 false)) ∧ ((core s 0).eng .vxe).wait = some (waitOn none false false)
    ∧ decodeStream ((lOp .vxe 0 (opWait 1 0 false)).word .vxe 0) = some (0, opWait 1 0 false) ∧ (core s 0).forced = false
    ∧ (resolve 0 0 .read 0 0x30000010000000 s).2 = .here (.leaf 0 0) 0 ∧ (stepArs (steppedArs [arS 0]) ctlA).isOk = true
    ∧ slotEngine (core u 0) 3 = some (.vxe, waitOn (some 3) false false) ∧ slotEngine (core u 0) 4 = none
    ∧ (∃ v ∈ u.watches, v.core = 0 ∧ v.slot = 3 ∧ v.woken = true ∧ rideArrived u v.ride = true)
    ∧ (∃ v ∈ u.watches, v.core = 0 ∧ v.slot = 4 ∧ v.woken = true ∧ rideArrived u v.ride = true)
    ∧ goesOn (core u 0) .vxe = true ∧ mayReread (core s 0) .vxe (waitOn none false false) = true
    ∧ (waitOn none false false).asked = false := by decide +kernel
/-- A polling wait of the VXE on a station word. -/
def waitStn (final : Bool) : Waiting := { waitOn none true final none with va := 0x80001000000000 }
/-- It may read again, its handle admits it or not; a read of it is out; its answer crosses the ride. -/
theorem witness_wait_station : let s (f : Nat) := sStn f 2 (sWait (waitStn false))
    ((core (s 15) 0).eng .vxe).wait = some (waitStn false) ∧ mayReread (core (s 15) 0) .vxe (waitStn false) = true
    ∧ stnFault (s 15) 0 0 0x1000000000 4 .read = none ∧ (stnFault (s 0) 0 0 0x1000000000 4 .read).isSome = true
    ∧ ({ waitStn false with reading := some 1 } : Waiting).reading.isSome = true
    ∧ ({ waitStn false with back := some 1 } : Waiting).back.isSome = true := by decide +kernel

/-- DropNoticesAndExternalWaitLimits: a notice for a free slot and for a warm one; a wait one cycle past its limit, at it,
with no limit; a final read due. -/
theorem witness_drop_and_limit : let s := { sOp .vxe 0 .nop with drops := [(0, 2)] }
    let u := wr fExtWaitLimit 0 1 (sWait (waitOn none true false))
    ((0 : CoreId), (2 : Fin 8)) ∈ s.drops ∧ ((core s 0).mons.getD 2 Mon.reset).st = .free
    ∧ ((core (setMon 0 2 .warm w0 s) 0).mons.getD 2 Mon.reset).st = .warm
    ∧ rd u fExtWaitLimit 0 ≠ 0 ∧ 0 + rd u fExtWaitLimit 0 * 1024 < ({ u with time := 1025 } : State).time
    ∧ ({ u with time := 1024 } : State).time ≤ 0 + rd u fExtWaitLimit 0 * 1024
    ∧ rd (sWait (waitOn none true false)) fExtWaitLimit 0 = 0
    ∧ (let f := sWait (waitOn none true true)
      ((core f 0).eng .vxe).wait = some (waitOn none true true) ∧ mayReread (core f 0) .vxe (waitOn none true true) = true
      ∧ (resolve 0 0 .read 0 0x30000010000000 (setWait 0 .vxe (some { waitOn none true true with asked := true }) f)).2 = .here (.leaf 0 0) 0)
    ∧ (let g := sStn 15 2 (sWait (waitStn true))
      mayReread (core g 0) .vxe (waitStn true) = true
      ∧ stnFault (setWait 0 .vxe (some { waitStn true with asked := true }) g) 0 0 0x1000000000 4 .read = none) := by decide +kernel
/-- R218: a final read whose word does not hold raises EXT_WAIT_TIMEOUT; one whose word holds completes. -/
theorem test_ext_wait_timeout :
    after (.extWaitTimeout 0 .vxe 0) (sWait { waitOn none true true with target := 1 }) (fun t => (ctxSt t 0).fault = some (0x20, 0)) = true
    ∧ after (.extWaitTimeout 0 .vxe 0) (sWait (waitOn none true true)) (fun t => (ctxSt t 0).fault = none
      ∧ ((core t 0).eng .vxe).wait = none) = true := by decide +kernel

/-- PhaseNoticeOpensAWindow: the least and the largest fields; a grove that is hot. -/
theorem witness_phase : atOp .mxe 0 (.phase 1 1 1) ∧ atOp .mxe 0 (.phase 255 15 65535)
    ∧ (pwGrove (sOp .mxe 0 (.phase 1 1 1)) (coreGrove 0)).hot = false ∧ (sOp .mxe 0 (.phase 1 1 1)).life ≠ .shutdown
    ∧ (pwGrove (modPw 0 (fun p => { p with hot := true }) (sOp .mxe 0 (.phase 1 1 1))) (coreGrove 0)).hot = true := by
  unfold atOp AtRepeat; decide +kernel

/-! ### Loads, deliveries, exchange -/

/-- A block of a format: only its tag matters here. -/
def blkF (fmt : Nat) : Blk := ⟨zeros 2048, zeros 128, BitVec.ofNat 64 (makeTag fmt 0 0)⟩
/-- Core 0 at a load repeat whose blocks were read ahead, holding n rewind records. -/
def sLoad (op : SOp) (bs : List Blk) (n : Nat) : State :=
  modCore 0 (fun x => { x with
    ahead := [⟨0, 0, 0, 0x30000010000000, [], none, bs⟩]
    rewinds := List.replicate n ⟨0, .tile, 0, ctl0⟩ }) (sOp .lde 0 op)
/-- LoadInstructionsQueueADelivery: an LTILE at 15 and 16 rewind records, its 8 blocks of its format or the last of another;
an LVEC and an LQ. -/
theorem witness_load : let o : SOp := .ltile 2 (arS 0)
    let s := sLoad o (List.replicate 8 (blkF 2)) 15
    let va := ctlA.opAddr (arS 0)
    AtRepeat s 0 .lde desc0 (lOp .lde 0 o) 0 o ∧ (core s 0).rewinds.length < 16
    ∧ 16 ≤ (core (sLoad o [] 16) 0).rewinds.length ∧ checkUnits s 0 anyLocal 2048 0 (unitVas va 2048 8) = none
    ∧ (resolveAll 0 0 .read 0 (unitVas va 2048 8) s).2 = .all ((List.range 8).map fun i => .here (.leaf 0 i) 0)
    ∧ (stepArs (steppedArs [arS 0]) ctlA).isOk = true ∧ (aheadFor (core s 0) ctlA va).isSome = true
    ∧ (List.replicate 8 (blkF 2)).all (·.fmt == 2) = true ∧ (blkF 3).fmt = 3
    ∧ AtRepeat (sLoad (.lvec 0 (ar 0)) [blkF 0] 0) 0 .lde desc0 (lOp .lde 0 (.lvec 0 (ar 0))) 0 (.lvec 0 (ar 0))
    ∧ AtRepeat (sLoad (.lq 7 (ar 0)) [blkF 7] 0) 0 .lde desc0 (lOp .lde 0 (.lq 7 (ar 0))) 0 (.lq 7 (ar 0)) := by
  unfold AtRepeat; decide +kernel
/-- spec/05: the eighth block of another format raises FORMAT_MISMATCH with 16 f + FMT. -/
theorem test_ltile_format : after (.ltile 0) (sLoad (.ltile 2 (arS 0)) (List.replicate 7 (blkF 2) ++ [blkF 3]) 0)
    (fun t => (ctxSt t 0).fault = some (0x06, 16 * 3 + 2)) = true := by decide +kernel

/-- Core 0 with deliveries waiting. -/
def sDeliv (l : List Deliv) (f : Core → Core) : State := modCore 0 (fun x => f { x with deliv := l }) State.reset
/-- DeliveriesArriveInOrderWhereThereIsRoom: a vector waiting before a tile; a staging buffer held; 3 and 4 feeder blocks; 14,336 and 14,337
bytes in the queue. -/
theorem witness_deliveries : let dv : Deliv := ⟨.vec, 0, [blkF 0], 0, none⟩
    let dt : Deliv := ⟨.tile, 0, List.replicate 8 (blkF 0), 0, none⟩
    let s := sDeliv [dv, dt] id
    let held := sDeliv [dt] fun x => { x with mxe := { x.mxe with wsbs := [some ⟨0, [], 0⟩, none] } }
    let feed (n : Nat) := sDeliv [dv] fun x => { x with mxe := { x.mxe with feed := List.replicate n ⟨0, [], []⟩ } }
    let q (n : Nat) := sDeliv [⟨.queue, 0, [blkF 0], 0, none⟩] fun x => { x with vq := [⟨0, true, zeros n, [], 0⟩] }
    (core s 0).deliv = [dv] ++ dt :: [] ∧ (∀ x ∈ [dv], x.kind ≠ .tile) ∧ (core s 0).mxe.wsbs.getD (core s 0).mxe.wrWsb none = none
    ∧ (core held 0).mxe.wsbs.getD (core held 0).mxe.wrWsb none ≠ none ∧ (core (feed 3) 0).mxe.feed.length < 4
    ∧ 4 ≤ (core (feed 4) 0).mxe.feed.length ∧ vqHeld (core (q 14336) 0) + 2048 ≤ 16384
    ∧ 16384 < vqHeld (core (q 14337) 0) + 2048 ∧ rideArrived s none = true ∧ rideArrived s (some 3) = false := by decide +kernel

/-- Leaf block 0 of core 0 is closed and nothing is listed in memory. -/
def lands0 (s : State) : Bool := s.mem == [] && openOf s (.leaf 0 0) == none
/-- The zero block's tag there decodes with no event. -/
theorem leaf0_tag : zeroTagOk (Loc.leaf 0 0).key = true := by decide +kernel
/-- It is fetched then, and nothing changes. -/
theorem lands0_fetch {s : State} (h : lands0 s = true) :
    fetchAll 0 [.here (.leaf 0 0) 0] s = (s, .ok [zeroMoved (Loc.leaf 0 0).key]) := by
  rw [lands0, Bool.and_eq_true, beq_iff_eq, beq_iff_eq] at h
  have m : ∀ c ∈ s.mem, c.1 < (Loc.leaf 0 0).addr 0 := by rw [h.1]; intro c hc; cases hc
  rw [fetchAll, blkFetch_unlisted 0 m h.2 rfl leaf0_tag]
  rfl
/-- It is read ahead, too. -/
theorem lands0_peek {s : State} (h : lands0 s = true) : ∃ bs, peekAll s 0 [.here (.leaf 0 0) 0] = some bs := by
  rw [lands0, Bool.and_eq_true, beq_iff_eq, beq_iff_eq] at h
  have m : ∀ c ∈ s.mem, c.1 < (Loc.leaf 0 0).addr 0 := by rw [h.1]; intro c hc; cases hc
  have p : poisoned s (.leaf 0 0) = false := rfl
  simp only [peekAll, peekBlk, h.2, p, blkStored_unlisted m, Loc.term, land_zero leaf0_tag]
  exact ⟨_, rfl⟩

/-- RunAheadLeavesNoTraceBesideItsBlocks: a later LQ of the list, 7 reads held. -/
theorem witness_run_ahead : let s := modCore 0 (fun x => { x with ahead := List.replicate 7 ⟨1, 0, 0, 0, [], none, []⟩ }) (sOp .lde 0 (.lq 7 (ar 0)))
    let r := resolveAll 0 0 .read 0 (unitVas 0x30000010000000 2048 1) s
    (core s 0).run = some (desc0, lOp .lde 0 (.lq 7 (ar 0))) ∧ (core s 0).forced = false ∧ (core s 0).ldeE.wait = none
    ∧ (core s 0).ahead.length < 8
    ∧ lookAhead (core s 0) desc0 (lOp .lde 0 (.lq 7 (ar 0))) 8 (core s 0).ldeE.ctl [] = some (ctlA, 0x30000010000000, 1, [])
    ∧ checkUnits s 0 anyLocal 2048 0 (unitVas 0x30000010000000 2048 1) = none ∧ r.2 = .all [.here (.leaf 0 0) 0]
    ∧ lands0 r.1 = true ∧ isStn 0x30000010000000 = false ∧ Loc.leaf 0 0 ∉ leafPlaces r.1 0 [] ∧ Loc.leaf 0 0 ∉ ldeWrites r.1 0 := by
  decide +kernel
/-- An LVEC whose block a station holds. -/
theorem witness_run_ahead_station : let s := sStn 15 2 (sOp .lde 0 (.lvec 0 (ar 0)) (ctlAt 0x80001000000000))
    lookAhead (core s 0) desc0 (lOp .lde 0 (.lvec 0 (ar 0))) 8 (core s 0).ldeE.ctl [] = some (ctlAt 0x80001000000000, 0x80001000000000, 1, [])
    ∧ isStn 0x80001000000000 = true ∧ stnFault s 0 0 0x1000000000 2184 .read = none := by decide +kernel

/-- What an exchange repeat of one own leaf block needs: its checks, its places, its block. -/
def srcOk (s : State) : Bool := checkBlocks s 0 anyLocal 0 0x30000010000000 1 == none
  && (resolveAll 0 0 .read 0 (blockVas 0x30000010000000 1) s).2 == .all [.here (.leaf 0 0) 0]
/-- ExchangeRepeatsHandOverTheirBlocks (1): a leaf block to leaf block 8. -/
theorem witness_xput : let o : SOp := .xput (arS 0) (ar 1) 1 false 0 0
    let s := sOp .xce 0 o
    atOp .xce 0 o ∧ srcOk s = true ∧ checkBlocks s 0 putRegions 1 0x30000010004000 1 = none ∧ isStn 0x30000010004000 = false
    ∧ (resolveAll 0 0 .write 1 (blockVas 0x30000010004000 1) s).2 = .all [.here (.leaf 0 8) 0] ∧ lands0 s = true
    ∧ (stepArs (steppedArs [arS 0, ar 1]) ctlA).isOk = true ∧ s.serve = none ∧ (Loc.leaf 0 8).half.val = coreHalf 0
    ∧ (crossReads 0 0 [.here (.leaf 0 0) 0] [zeroMoved (Loc.leaf 0 0).key] none s).2 = none := by
  unfold atOp AtRepeat; decide +kernel
/-- (6) XPUT to a station through a client port and through the steward port, (7) XGET from one. -/
theorem witness_exchange_station : let k : Ctl := { ctl0 with ars := [ctlA.ar 0, ⟨0x80001000000000, 0, 0, 0, 0, 0, 0⟩] }
    let o : SOp := .xput (ar 0) (ar 1) 1 false 0 0
    let g : SOp := .xget (ar 1) (ar 0) 1
    let s (p : Nat) := sStn 15 p (sOp .xce 0 o k)
    let t := sStn 15 2 (sOp .xce 0 g k)
    let sent (p : Nat) := (coreSend 0 0 (handleOf (htBytes (s p) 0)) 0 0x1000000000 2184 (zeros 2184) (.coreWrite 0) none (s p)).2
    AtRepeat (s 0) 0 .xce desc0 (lOp .xce 0 o) 0 o ∧ srcOk (s 0) = true ∧ checkBlocks (s 0) 0 putRegions 1 0x80001000000000 1 = none
    ∧ isStn 0x80001000000000 = true ∧ stnFault (s 0) 0 0 0x1000000000 2184 .write = none ∧ stnFault (s 2) 0 0 0x1000000000 2184 .write = none
    ∧ (sent 0).isSome = true ∧ sent 2 = none ∧ lands0 (s 0) = true
    ∧ AtRepeat t 0 .xce desc0 (lOp .xce 0 g) 0 g ∧ checkBlocks t 0 getRegions 0 0x80001000000000 1 = none
    ∧ checkBlocks t 0 getDst 1 0x30000010000000 1 = none ∧ stnFault t 0 0 0x1000000000 2184 .read = none
    ∧ (resolveAll 0 0 .write 1 (blockVas 0x30000010000000 1) t).2 = .all [.here (.leaf 0 0) 0] := by
  unfold AtRepeat; decide +kernel
/-- (2) accumulating to the package at x = 1, with nothing that a landing would refuse. -/
theorem witness_xput_accumulate : let k : Ctl := { ctl0 with ars := [ctlA.ar 0, ⟨0x50008000000000, 0, 0, 0, 0, 0, 0⟩] }
    let o : SOp := .xput (ar 0) (ar 1) 1 true 15 31
    let s := twoPkgs (sOp .xce 0 o k)
    AtRepeat s 0 .xce desc0 (lOp .xce 0 o) 0 o ∧ srcOk s = true ∧ checkBlocks s 0 putRegions 1 0x50008000000000 1 = none
    ∧ (resolveAll 0 0 .accum 1 (blockVas 0x50008000000000 1) s).2 = .all [.remote 0 1 0 0 0] ∧ lands0 s = true
    ∧ accFault [((0x50008000000000 : BitVec 56), (Target.remote 0 1 0 0 0, blkF 4))] = none := by
  unfold AtRepeat; decide +kernel
/-- (3) SHIFT along +x in a torus of two. -/
theorem witness_shift : let k : Ctl := { ctl0 with ars := [ctlA.ar 0, ⟨0, 0, 0, 0, 0, 0, 0⟩] }
    let o : SOp := .shift (ar 0) (ar 1) 1 0 false 0 0
    let s := twoPkgs (sOp .xce 0 o k)
    AtRepeat s 0 .xce desc0 (lOp .xce 0 o) 0 o ∧ srcOk s = true ∧ ((blockVas 0 1).all fun v => farCheck 1 v == none) = true
    ∧ neighbour s 0 ≠ ownCoord s ∧ lands0 s = true := by unfold AtRepeat; decide +kernel
/-- (4) XGET of leaf block 0 into leaf block 8. -/
theorem witness_xget : let o : SOp := .xget (ar 0) (ar 1) 1
    let s := sOp .xce 0 o
    atOp .xce 0 o ∧ isStn 0x30000010000000 = false ∧ checkBlocks s 0 getRegions 0 0x30000010000000 1 = none ∧ checkBlocks s 0 getDst 1 0x30000010004000 1 = none
    ∧ (resolveAll 0 0 .write 1 (blockVas 0x30000010004000 1) s).2 = .all [.here (.leaf 0 8) 0] ∧ lands0 s = true := by
  unfold atOp AtRepeat; decide +kernel
/-- (5) A PERMUTE whose table entry, at own leaf offset 0, names the package at x = 1, one block. -/
def sPerm : State := wr fX 0 1 (twoPkgs (sOp .xce 0 (.permute (ar 0) (ar 1) 0 0)))
/-- Its checks, its table block, its entry. -/
theorem witness_permute : let u := resolve 0 0 .read 0 0x30000010000000 sPerm
    let e := permEnt sPerm (zeros 32)
    AtRepeat sPerm 0 .xce desc0 (lOp .xce 0 (.permute (ar 0) (ar 1) 0 0)) 0 (.permute (ar 0) (ar 1) 0 0)
    ∧ checkOpd sPerm 0 anyLocal 32 0 0x30000010000000 = none ∧ checkOpd sPerm 0 anyLocal 2048 1 0x30000010004000 = none
    ∧ u.2 = .here (.leaf 0 0) 0 ∧ lands0 u.1 = true ∧ e.good = true ∧ e.acc = false ∧ e.tgt = (0, 0, 0) ∧ ownCoord sPerm = (1, 0, 0)
    ∧ checkBlocks sPerm 0 anyLocal 1 0x30000010004000 e.nblk = none ∧ ((blockVas e.dst e.nblk).all fun v => farCheck 2 v == none) = true := by
  unfold AtRepeat; decide +kernel

/-- AcceptedWriteStoresItsBlock: a write at the head, one behind a write to the same place, one whose ride transfer is on its way. -/
theorem witness_write_accepted : let p (r : Option Nat) : Pend := ⟨0, .xce, 1, r, .put (.leaf 0 8) (blkF 0)⟩
    let s := sPend [p none, p (some 4)]
    (core s 0).pend[0]? = some (p none) ∧ s.storesWf = true ∧ (blkF 0).pay.length = 2048 ∧ (blkF 0).side.length = 128
    ∧ rideArrived s none = true ∧ (∀ q ∈ (core s 0).pend.take 0, putPlace q.op ≠ some (.leaf 0 8))
    ∧ rideArrived s (some 4) = false ∧ (∃ q ∈ (core s 0).pend.take 1, putPlace q.op = some (.leaf 0 8))
    ∧ (Loc.leaf 0 8).half.val = coreHalf 0 ∧ (Loc.leaf 272 8).half.val ≠ coreHalf 0
    ∧ (core (sPend [⟨0, .xce, 1, none, .landed⟩]) 0).pend[0]? = some ⟨0, .xce, 1, none, .landed⟩ := by decide +kernel
/-- LFETCH of leaf block 0 into leaf block 8. -/
theorem witness_lfetch : let o : SOp := .lfetch (ar 0) (ar 1) 1
    let s := sOp .lde 0 o
    atOp .lde 0 o ∧ ldeReading (core s 0) = false ∧ aheadOnWay s (core s 0) ctlA 0x30000010000000 = false
    ∧ isStn 0x30000010000000 = false ∧ aheadFor (core s 0) ctlA 0x30000010000000 = none ∧ checkBlocks s 0 fetchRegions 0 0x30000010000000 1 = none
    ∧ checkBlocks s 0 { ownLeaf := true } 1 0x30000010004000 1 = none
    ∧ (resolveAll 0 0 .write 1 (blockVas 0x30000010004000 1) s).2 = .all [.here (.leaf 0 8) 0] ∧ lands0 s = true := by
  unfold atOp AtRepeat; decide +kernel


/-! ### The matrix and vector engines -/

/-- Core 0 at an MXE repeat with a matrix engine state. -/
def sMxe (op : SOp) (f : Mxe → Mxe) : State := modMxe 0 f (sOp .mxe 0 op)
/-- A staging buffer with a ready tile of a format. -/
def wsb (fmt : Nat) : Wsb := ⟨fmt, [], 0⟩
/-- A pass in flight of a format: nv vectors, some broadcast and merged, none drained. -/
def pass0 (fmt dmode nv b m : Nat) (new : Bool) : Pass :=
  ⟨0, ctl0, fmt, dmode, false, false, 0x40000010000000, nv, 0, new, 0, nv, List.replicate 8 b, m, List.replicate 8 0⟩
/-- MPASS of 512 vectors into the ACC from row 0 on, and its KEEP form. -/
def opPass (keep : Bool) : SOp := .mpass 3 1 keep false (ar 4) 512 65535

/-- MatrixPassIssuesAndUnloads: a buffer of the format and of another; with KEEP an active tile of the format, of another, none; a
pass in flight that band 0 has finished. -/
theorem witness_mpass : atOp .mxe 0 (opPass false) ∧ atOp .mxe 0 (opPass true)
    ∧ mpassDst (sOp .mxe 0 (opPass false)) 0 1 (ar 4) 512 0x40000010000000 = none
    ∧ mpassReady { Mxe.reset with passes := [{ pass0 0 0 2 1 0 true with bcast := [2, 0, 0, 0, 0, 0, 0, 0] }] } = true
    ∧ (stepArs (steppedArs [ar 4]) ctlA).isOk = true ∧ [some (wsb 3), none].getD (0 % 2) none = some (wsb 3)
    ∧ (wsb 2).fmt ≠ 3 ∧ ({ Mxe.reset with activeTile := some (0, 3) } : Mxe).activeTile = some (0, 3)
    ∧ (core (sOp .mxe 0 (opPass false)) 0).mxe.firstPass = false ∧ (core (sOp .mxe 0 (opPass false)) 0).mxe.halted = false
    ∧ (core (sMxe (opPass false) (fun m => { m with firstPass := true, activeTile := some (0, 3) })) 0).mxe.firstPass = true
    ∧ mpassDst (sMxe (opPass false) (fun m => { m with firstPass := true })) 0 1 (ar 4) 512 0x40000010000000 = none
    ∧ (sOp .mxe 0 (opPass true)).cores.all (fun x => x.2.mxe.activeTile == none && !x.2.mxe.halted) = true := by
  unfold atOp AtRepeat; decide +kernel
/-- R173, R178: KEEP with no active tile raises NO_TILE. -/
theorem test_mpass_no_tile : after (.mpass 0) (sOp .mxe 0 (opPass true)) (fun t => (ctxSt t 0).fault = some (0x0B, 0)) = true := by
  decide +kernel
/-- MUNLOAD of one row to the queue: with room, and with 16,383 bytes held; to leaf store. -/
theorem witness_munload : let o (d : Opd) : SOp := .munload 2 false d (ar 4) 1 0
    let full := modCore 0 (fun x => { x with vq := [⟨4, false, zeros 16383, [], 0⟩] }) (sOp .mxe 0 (o qOpd))
    atOp .mxe 0 (o qOpd) ∧ atOp .mxe 0 (o (ar 1)) ∧ mpassDst (sOp .mxe 0 (o (ar 1))) 0 2 (ar 1) 1 0x30000010004000 = none
    ∧ checkOpd (sOp .mxe 0 (o qOpd)) 0 { ownAcc := true } 1024 1 0x40000010000000 = none ∧ windowFits 0x40000010000000 1024 = true
    ∧ (core (sOp .mxe 0 (o qOpd)) 0).mxe.passes = [] ∧ (core (sOp .mxe 0 (o qOpd)) 0).mxe.unload < 1
    ∧ (core (unloadRows 0 0 2 .rne 0 0 true 1 0 full) 0).mxe.unload < 1
    ∧ (core (unloadRows 0 0 2 .rne 0 0 true 1 0 (sOp .mxe 0 (o qOpd))) 0).mxe.unload = 1 := by
  unfold atOp AtRepeat; decide +kernel

/-- A band whose shadow plane holds one INT8 row of ones for tile 0, checked. -/
def bandW : BandW := ⟨0, 0, [List.replicate 128 1], [128], List.replicate 128 0⟩
/-- Core 0 with pass `p`, one feeder block, its bands at vector `pos`, and band 0 of the shadow plane and the active plane. -/
def sBand (p : Pass) (pos : Nat) (shadow active : Option BandW) : State :=
  modMxe 0 (fun m => { m with
    passes := [p]
    feed := [⟨0, zeros 2048, zeros 128⟩]
    feedPos := List.replicate 8 pos
    checked := 1
    shadow := m.shadow.set 0 shadow
    active := m.active.set 0 active }) State.reset
/-- BroadcastFormsExactColumnSums: a new tile's first vector with the shadow ready and not ready; a later vector, the block's last. -/
theorem witness_broadcast : let s := sBand (pass0 0 0 2 0 0 true) 0 (some bandW) none
    let u := sBand (pass0 0 0 2 1 0 true) 15 none (some bandW)
    (core s 0).mxe.rl.length = 8 ∧ ((core s 0).mxe.rl.getD 0 []).length < 16
    ∧ passFor Pass.bcast 0 (core s 0).mxe.passes = some (0, pass0 0 0 2 0 0 true)
    ∧ passFor Pass.bcast 0 (core u 0).mxe.passes = some (0, pass0 0 0 2 1 0 true)
    ∧ ((core s 0).mxe.feed[0 / 16]?.map (·.fmt)) = some 0 ∧ ((core u 0).mxe.feed[15 / 16]?.map (·.fmt)) = some 0
    ∧ (swapBand (core s 0) (pass0 0 0 2 0 0 true) 0).map (fun x => x.mxe.active.getD 0 none) = some (some bandW)
    ∧ swapBand (core (sBand (pass0 0 0 2 0 0 true) 0 none none) 0) (pass0 0 0 2 0 0 true) 0 = none
    ∧ (core u 0).mxe.active.getD 0 none = some bandW ∧ (∀ r ∈ bandW.rows, r.length = 128)
    ∧ ((List.replicate 8 15).set 0 16).all (16 ≤ ·) = false := by decide +kernel

/-- A row-link entry whose columns sum to y with checksum z. -/
def rl (y : Int) (z : BitVec 32) : RlEntry := ⟨y :: List.replicate 127 0, z, 0, List.replicate 128 0⟩
/-- Core 0 with one entry in every row link, agreeing with its checksum or not, and pass 0 with no vector merged. -/
def sMerge (z : BitVec 32) : State :=
  modMxe 0 (fun m => { m with rl := List.replicate 8 [rl 3 z], passes := [pass0 0 0 1 1 0 false] }) State.reset
/-- MergeChecksThenAddsBandSums: sums that agree, sums that an upset moves, duplicated logic that differs. -/
theorem witness_merge : let m := (core (sMerge 3) 0).mxe
    rlHeads m = some (List.replicate 8 (rl 3 3)) ∧ m.passes.findIdx? (fun p => p.merged < p.nv) = some 0
    ∧ m.passes[0]? = some (pass0 0 0 1 1 0 false) ∧ m.halted = false ∧ clRoom m = true
    ∧ checkY (List.replicate 8 (rl 3 3)) + BitVec.ofInt 32 0 = checkZ (List.replicate 8 (rl 3 3))
    ∧ checkY (List.replicate 8 (rl 3 3)) + BitVec.ofInt 32 (-1) ≠ checkZ (List.replicate 8 (rl 3 3)) := by decide +kernel
/-- R102 to R104: an upset raises ABFT_MISMATCH kind 0, a difference of the copies kind 1. -/
theorem test_merge_mismatch : after (.merge 0 (-1) true) (setCore 0 { core (sMerge 3) 0 with run := some (desc0, lset .mxe 0) } (sMerge 3))
      (fun t => (ctxSt t 0).fault = some (0x07, 0)) = true
    ∧ after (.merge 0 0 true) (setCore 0 { core (sMerge 3) 0 with run := some (desc0, lset .mxe 0) } (sMerge 3))
      (fun t => (ctxSt t 0).fault = some (0x07, 1)) = true := by decide +kernel

/-- Core 0 with a merged vector of one pass in a mode, its column links holding it. -/
def sDrain (dmode merged : Nat) : State :=
  modMxe 0 (fun m => { m with
    cl := List.replicate 8 [List.replicate 16 (.num ⟨1, 0⟩)]
    passes := [pass0 0 dmode 1 1 merged false] }) State.reset
/-- DrainCommitsABandOrFaults: mode 0 to the ACC, a pair of bands in mode 4; a vector not yet merged. -/
theorem witness_drain : let x (d m : Nat) := core (sDrain d m) 0
    passFor Pass.drained 7 (x 0 1).mxe.passes = some (0, pass0 0 0 1 1 1 false)
    ∧ passFor Pass.drained 7 (x 4 1).mxe.passes = some (0, pass0 0 4 1 1 1 false) ∧ (x 0 1).mxe.halted = false
    ∧ (pass0 0 0 1 1 1 false).toQ = false ∧ [] ∉ [((x 0 1).mxe.cl.getD 7 []).head?.getD []]
    ∧ [] ∉ [6, 7].map (fun k => ((x 4 1).mxe.cl.getD k []).head?.getD []) ∧ (pass0 0 0 1 1 0 false).merged ≤ 0
    ∧ drainAligned (x 0 1).mxe.passes 0 0 [7] = true ∧ drainAligned (x 4 1).mxe.passes 0 0 [6, 7] = true
    ∧ drainAligned [{ pass0 0 4 2 2 2 false with drained := [0, 0, 0, 0, 0, 0, 0, 1] }] 0 1 [6, 7] = false
    ∧ passFor Pass.drained 7 [{ pass0 0 4 2 2 2 false with drained := [0, 0, 0, 0, 0, 0, 0, 1] }]
      = some (0, { pass0 0 4 2 2 2 false with drained := [0, 0, 0, 0, 0, 0, 0, 1] })
    ∧ (sDrain 0 1).storesWf = true ∧ (((x 0 1).mxe.cl.getD 7 []).head?.getD []).length = 16 := by decide +kernel

/-- A fill at a row, first or refill, of an empty INT8 tile. -/
def mFill (row : Nat) (again : Bool) : Mxe :=
  { Mxe.reset with wsbs := [some (wsb 0), none], fill := some ⟨row, again⟩ }
/-- ShadowFillChecksTheTileAndRefillsOnce: no tile staged; row 126; the last row with a readback that agrees, after the first fill and
after the refill; one that does not, in each. -/
theorem witness_fill : fillStep Mxe.reset 0 = .idle
    ∧ (match fillStep (mFill 126 false) 0 with | .row _ _ => true | _ => false) = true
    ∧ (match fillStep (mFill 127 false) 0 with | .done _ _ false => true | _ => false) = true
    ∧ (match fillStep (mFill 127 true) 0 with | .done _ _ true => true | _ => false) = true
    ∧ (match fillStep { mFill 127 false with refill := some (wsb 0) } 0 with | .done m _ false => m.refill == none | _ => false) = true
    ∧ (match fillStep (mFill 127 false) 1 with | .retry _ _ => true | _ => false) = true
    ∧ (match fillStep (mFill 127 true) 1 with | .fail => true | _ => false) = true := by decide +kernel

/-- Core 0 at a VXE repeat with one queue entry of a format. -/
def sVxe (op : SOp) (fmt n : Nat) : State := modCore 0 (fun x => { x with vq := [⟨fmt, false, zeros n, [], 0⟩] }) (sOp .vxe 0 op)
/-- What a VXE repeat's destination at own leaf offset 0x4000 needs. -/
def goesOk (s : State) (pos : Nat) : Bool := (vxeResolve 0 0 .write pos 0x30000010004000 s).2 == .here (.leaf 0 8) 0
/-- Sources gather. -/
def gathers (srcs : List (Nat × Nat × Option (BitVec 56))) (s : State) : Bool :=
  match (gather 0 0 srcs (core s 0).vq s).2 with | .ok vs _ => vs.length == srcs.length | _ => false
/-- VectorCommandsWriteLaneResults: VEW with three sources, FP32; INT32. -/
theorem witness_vew : let o : SOp := .vew 3 false (arS 0) (ar 0) (ar 2) (ar 1) false 0
    let o2 : SOp := .vew 8 true (ar 0) (ar 0) (ar 0) (ar 1) false 0
    let s := sOp .vxe 0 o
    atOp .vxe 0 o ∧ vecCheck s 0 ctlA 512 0 (arS 0) = none ∧ vecCheck s 0 ctlA 512 1 (ar 0) = none
    ∧ vecCheck s 0 ctlA 512 2 (ar 2) = none ∧ vecCheck s 0 ctlA 512 3 (ar 1) = none
    ∧ gathers (vewSrcs ctlA 3 4 (arS 0) (ar 0) (ar 2) false) s = true ∧ goesOk s 3 = true ∧ atOp .vxe 0 o2
    ∧ gathers (vewSrcs ctlA 8 5 (ar 0) (ar 0) (ar 0) false) (sOp .vxe 0 o2) = true
    ∧ (stepArs (steppedArs [arS 0, ar 0, ar 2, ar 1]) ctlA).isOk = true := by unfold atOp AtRepeat; decide +kernel
/-- VRED of one vector of leaf store. -/
theorem witness_vred_leaf : let m : SOp := .vred 2 (ar 0) (ar 1) 1
    atOp .vxe 0 m ∧ unitVas 0x30000010000000 512 1 = [0x30000010000000]
    ∧ checkOpd (sOp .vxe 0 m) 0 vxeRegions 512 0 0x30000010000000 = none
    ∧ gathers ((unitVas 0x30000010000000 512 1).map fun va => (4, 0, some va)) (sOp .vxe 0 m) = true ∧ goesOk (sOp .vxe 0 m) 1 = true := by
  unfold atOp AtRepeat; decide +kernel
/-- VTR, VRED of one vector of the queue, which 4,096 exceed, VDROP with the least and greatest THR. -/
theorem witness_vtr_vred_vdrop : let v : SOp := .vtr 8 (ar 0) (ar 1)
    let r : SOp := .vred 2 qOpd (ar 1) 1
    let p (t : Nat) : SOp := .vdrop (ar 0) (ar 1) 31 t 0x3F800000
    atOp .vxe 0 v ∧ atOp .vxe 0 (p 0) ∧ atOp .vxe 0 (p 0xFFFFFF)
    ∧ AtRepeat (sVxe r 4 512) 0 .vxe desc0 (lOp .vxe 0 r) 0 r ∧ gathers (List.replicate 1 (4, 0, none)) (sVxe r 4 512) = true
    ∧ 1 ≤ (vredTake 2 1 .start (core (sVxe r 4 512) 0).vq).1.n ∧ (vredTake 2 4096 .start (core (sVxe r 4 512) 0).vq).1.n < 4096
    ∧ gathers [srcOpd ctlA 4 0 (ar 0)] (sOp .vxe 0 v) = true ∧ goesOk (sOp .vxe 0 v) 1 = true ∧ goesOk (sVxe r 4 512) 1 = true
    ∧ vecCheck (sVxe r 4 512) 0 ctlA 4 1 (ar 1) = none ∧ vecCheck (sOp .vxe 0 v) 0 ctlA 512 0 (ar 0) = none := by
  unfold atOp AtRepeat; decide +kernel
/-- VCVT from FP32 to BX8 and from INT32, where an upset shows. -/
theorem witness_vcvt : let o : SOp := .vcvt 4 2 true (ar 0) (ar 1) 0 65535
    let i : SOp := .vcvt 5 4 false (ar 0) (ar 1) 255 0
    atOp .vxe 0 o ∧ atOp .vxe 0 i ∧ vecCheck (sOp .vxe 0 o) 0 ctlA (vecSize 4) 0 (ar 0) = none
    ∧ vecCheck (sOp .vxe 0 o) 0 ctlA (vecSize 2) 1 (ar 1) = none ∧ gathers [srcOpd ctlA 4 0 (ar 0)] (sOp .vxe 0 o) = true
    ∧ gathers [srcOpd ctlA 5 0 (ar 0)] (sOp .vxe 0 i) = true ∧ goesOk (sOp .vxe 0 o) 1 = true := by
  unfold atOp AtRepeat; decide +kernel
/-- R185: an upset lane of an INT32 VEW raises VXE_RESIDUE with the lane. -/
theorem test_residue : let o : SOp := .vew 8 true (ar 0) (ar 0) (ar 0) (ar 1) false 0
    after (.vew 0 (some 127)) (sOp .vxe 0 o) (fun t => (ctxSt t 0).fault = some (0x08, 127) ∧ rd t fCompEvent 0 = 1) = true := by
  decide +kernel


/-! ### Translation, restores, accumulates -/

/-- Context 0's understorey tree in HALF_0: tables at stack offsets 0, 4,096 and 8,192, and one entry for page 0. -/
def sUnd (pte : Nat) : State :=
  let at_ (blk : Nat) : Nat := (Loc.stk 0 blk).addr 0
  modCtx 0 (fun x => { x with live := true }) (wr fPtRootEn 2 1
    (memWrite (at_ 4) (toLe 8 pte) (memWrite (at_ 2) (toLe 8 (3 + 32 * 2 ^ 16)) (memWrite (at_ 0) (toLe 8 (3 + 16 * 2 ^ 16)) State.reset))))
/-- A resident, writable entry: frame 5 of HALF_0, FMT 4; the same page off-loaded to stack blocks 64 to 95. -/
def pteHere : Nat := 0xF + 4 * 2 ^ 8 + 5 * 2 ^ 16
/-- The off-loaded entry. -/
def pteAway : Nat := 0xD + 4 * 2 ^ 8 + 64 * 2 ^ 16

/-- TableWalkCachesResidentPagesOnly: a page entry with RES = 1 and with RES = 0, a tree that is not enabled, a hit, an address that
tables translate. -/
theorem witness_table_walk : mappedOf 0x20000000000800 = some (2, 0x800) ∧ (walk (sUnd pteHere) 0 2 0x800).1 = .page pteHere
    ∧ (walk (sUnd pteAway) 0 2 0x800).1 = .page pteAway ∧ pteRes pteHere = true ∧ pteRes pteAway = false
    ∧ (walk State.reset 0 2 0x800).1 = .invalid 0 1 ∧ tlbHit (sUnd pteHere) 3 0 2 0x800 = none
    ∧ (tlbHit (translate 3 0 2 0x800 (sUnd pteHere)).1 3 0 2 0x800).isSome = true ∧ pteHere < 2 ^ 64 := by decide +kernel
/-- A walk of a state: with nothing cached it is the walk from the root. TLB_INV with SCH up and restarting; a page that no unit holds. -/
theorem witness_table_walk_root : (walkOn (sUnd pteHere) 3 0 2 0x800).1 = .page pteHere ∧ (walkOn (sUnd pteAway) 3 0 2 0x800).1 = .page pteAway
    ∧ (walkOn State.reset 3 0 2 0x800).1 = .invalid 0 1 ∧ (ctxSt State.reset 0).fault = none
    ∧ schUp (modProc 3 (fun p => { p with restarting := false }) State.reset) = true
    ∧ schUp (modProc 3 (fun p => { p with restarting := true }) State.reset) = false
    ∧ State.reset.groves = [] := by decide +kernel
/-- R236: a walk through a disabled root raises PTE_INVALID at level 0 with reason 1. -/
theorem test_walk_fault : after (.tableWalk 3 0 0x20000000000800) State.reset (fun t => (ctxSt t 0).fault = some (0x10, 256)) = true := by
  decide +kernel

/-- OffloadAndRestoreMoveAPage: off-loads of a resident page, of one not resident, past the last block. -/
theorem witness_offload : regionOf 0x20000000000800 = some (.und 0x800) ∧ (ctxSt (sUnd pteHere) 0).live = true
    ∧ 188743648 + 32 ≤ 188743680 ∧ 188743680 < 188743649 + 32 := by decide +kernel
/-- A copy that waits at HALF_0, from frame 5 to stack block 64, with nothing in memory. -/
def sCopy : State := setRestoreQ 0 [⟨0, 0, 0, .copy 0 64 0 5⟩] State.reset
/-- It is the next one, and it succeeds. -/
theorem witness_offload_copy :
    pickRestore (fun r => match r.job with | .copy _ _ fh f => !frameBusy sCopy fh f | _ => false) (restoreQ sCopy 0) = some 0
    ∧ (restoreQ sCopy 0)[0]? = some ⟨0, 0, 0, .copy 0 64 0 5⟩
    ∧ ∃ s1, movePage 0 (fun j => .und 0 (5 % 2 ^ 17) j) (fun j => .stk 0 (64 + j)) 32 0 (setRestoreQ 0 ((restoreQ sCopy 0).eraseIdx 0) sCopy)
      = (s1, none) := by
  refine ⟨by decide +kernel, by decide +kernel, (movePage_unlisted 0 _ _ 32 0 rfl rfl ?_ ?_).imp' (withAsks · _) fun _ h => h⟩
  · have k : ∀ j < 32, zeroTagOk (Loc.und 0 5 j).key = true := by decide +kernel
    exact fun j _ h => ⟨(by intro c hc; cases hc), rfl, k j (by omega)⟩
  · have k : ∀ j < 32, zeroMoveOk (Loc.und 0 5 j).key (Loc.stk 0 (64 + j)).key = true := by decide +kernel
    exact fun j _ h => ⟨(by intro c hc; cases hc), k j (by omega), (by intro c m e; cases e), (by intro c m e; cases e)⟩
/-- OFFLOAD of a page that a queue entry concerns; that entry begins once it is first in the queue. -/
theorem witness_offload_turn : let s := setRestoreQ 0 [⟨0, 0, 0, .offload 0 64⟩] (sUnd pteHere)
    schUp s = true ∧ (ctxSt s 0).live = true ∧ (∃ r ∈ restoreQ s 0 ++ restoreQ s 1, r.ctx = 0 ∧ r.page = 0x800 / 65536)
    ∧ (walk s 0 2 0x800).1 = .page pteHere ∧ (∀ r ∈ restoreQ (sUnd pteHere) 0 ++ restoreQ (sUnd pteHere) 1, ¬(r.ctx = 0 ∧ r.page = 0))
    ∧ (∀ q ∈ restoreQ s 0, ∀ own' dst' fh f, q.job ≠ .copy own' dst' fh f) ∧ (restoreQ s 0).head? = some ⟨0, 0, 0, .offload 0 64⟩
    ∧ (walk s 0 2 (0 * 65536)).1 = .page pteHere
    ∧ pickRestore (fun r => match r.job with | .copy _ _ fh f => !frameBusy s fh f | _ => false) (restoreQ s 0) = none := by
  refine ⟨by decide +kernel, by decide +kernel, by decide +kernel, by decide +kernel, by decide +kernel, ?_, by decide +kernel,
    by decide +kernel, by decide +kernel⟩
  intro q hq o d fh f
  have e : restoreQ (setRestoreQ 0 [⟨0, 0, 0, .offload 0 64⟩] (sUnd pteHere)) 0 = [⟨0, 0, 0, .offload 0 64⟩] := by decide +kernel
  rw [e, List.mem_singleton] at hq
  rw [hq]
  exact fun h => nomatch h
/-- RESTORE_FAULT of a stalled VXE whose page is off-loaded, its restore not queued and queued; an engine not stalled. -/
theorem witness_restore_fault : let s := setCore 0 ((Core.reset).setEng .vxe ⟨ctl0, none, some (0, 0)⟩) (sUnd pteAway)
    ((core s 0).eng .vxe).stall = some (0, 0) ∧ (walk s 0 2 0).1 = .page pteAway ∧ restoreQ s 0 = []
    ∧ ((core s 0).eng .lde).stall = none ∧ restoreQ (setRestoreQ 0 [⟨0, 0, 0, .restore⟩] s) 0 = [⟨0, 0, 0, .restore⟩] := by decide +kernel
/-- A restore of page 0 that waits, with frame 9 free. -/
def sRest (pte : Nat) : State := setRestoreQ 0 [⟨0, 0, 0, .restore⟩] (wr fUfTail 0 1 (sUnd pte))
/-- RESTORE: the page resident already; no free frame; a page that moves. -/
theorem witness_restore : let copied (p : Restore) : Bool := match p.job with | .copy .. => true | _ => false
    let ok (s : State) := pickRestore (fun r => r.job == .restore && !(restoreQ s 0 ++ restoreQ s 1).any fun p =>
      p.ctx == r.ctx && p.page == r.page && copied p) (restoreQ s 0) = some 0 ∧ (restoreQ s 0)[0]? = some ⟨0, 0, 0, .restore⟩
    (sRest pteAway).inHeld = [] ∧ (ctxSt (sRest pteAway) 0).fault = none ∧
    ok (sRest pteHere) ∧ ok (sRest pteAway) ∧ (walk (setRestoreQ 0 [] (sRest pteAway)) 0 2 0).1 = .page pteAway
    ∧ rd (wr fUfTail 0 0 (sRest pteAway)) fUfHead 0 = rd (wr fUfTail 0 0 (sRest pteAway)) fUfTail 0
    ∧ rd (sRest pteAway) fUfHead 0 ≠ rd (sRest pteAway) fUfTail 0 := by decide +kernel
/-- The move of that page from stack blocks 64 to 95 to the frame at UF_HEAD, 3, with nothing written in either. -/
theorem witness_restore_move : ∃ s1, movePage 0 (fun j => .stk 0 (64 + j)) (fun j => .und 0 3 j) 32 0 (sRest pteAway)
    = (s1, none) := by
  have m : ∀ c ∈ (sRest pteAway).mem, c.1 < (Loc.stk 0 64).addr 0 := by decide +kernel
  refine (movePage_unlisted 0 _ _ 32 0 rfl rfl ?_ ?_).imp' (withAsks · _) fun _ h => h
  · have k : ∀ j < 32, zeroTagOk (Loc.stk 0 (64 + j)).key = true := by decide +kernel
    have b : ∀ j < 32, (Loc.stk 0 64).addr 0 ≤ (Loc.stk 0 (64 + j)).addr 0 := by decide +kernel
    exact fun j _ h => ⟨fun c hc => Nat.lt_of_lt_of_le (m c hc) (b j (by omega)), rfl, k j (by omega)⟩
  · have k : ∀ j < 32, zeroMoveOk (Loc.stk 0 (64 + j)).key (Loc.und 0 3 j).key = true := by decide +kernel
    have b : ∀ j < 32, (Loc.stk 0 64).addr 0 ≤ (Loc.und 0 3 j).addr 0 := by decide +kernel
    exact fun j _ h => ⟨fun c hc => Nat.lt_of_lt_of_le (m c hc) (b j (by omega)), k j (by omega),
      (by intro c m e; cases e), (by intro c m e; cases e)⟩

/-- An accumulate block of stream 3 and a SEQ, from core 0. -/
def msg (seq : Nat) (ride : Option Nat := none) (floor : Nat := 0) : AccMsg := ⟨.core 0, 0, ride, 64, blkF 4, 3, seq, floor⟩
/-- Die 2 with an intake, a window, floors, refused heads and an admitted list for context 0. -/
def sMill (int : List AccMsg) (win : List (Nat × Nat)) (fl rf : Table Nat) (adm : List AccMsg) : State :=
  modDie 2 (fun x => { x with admitted := adm }) (modAcc 2 0 (fun _ => ⟨int, win, fl, rf⟩) State.reset)
/-- AccumulateArrivalIsJudgedByFloorAndWindow: the first entry's ride is on its way; SEQ 9 below the floor 10, in the window, at the
floor and admissible; refused behind head 8; 4,096 places taken. -/
theorem witness_accum_arrive : let s := sMill [msg 1 (some 7), msg 9] [] [(3, 10)] [] []
    (accCtx s 2 0).intake = [msg 1 (some 7)] ++ msg 9 :: [] ∧ rideArrived s (msg 1 (some 7)).ride = false
    ∧ rideArrived s (msg 9).ride = true ∧ serialBelow 9 10 = true ∧ serialBelow 10 10 = false
    ∧ (3, 10) ∈ (accFloor 3 0 (accCtx s 2 0)).floors ∧ (3, 9) ∈ (accFloor 3 0 (accCtx (sMill [msg 9] [(3, 9)] [] [] []) 2 0)).window
    ∧ ((accFloor 3 0 (accCtx (sMill [msg 9] [] [] [(3, 8)] []) 2 0)).refused.find? fun e => e.1 == 3) = some (3, 8)
    ∧ (List.replicate 4096 (msg 0)).length = 4096 ∧ ([msg 9].any fun q => q.strm == 3 && q.seq == 9) = true := by decide +kernel
/-- R254: at the floor it is admitted, one below it is answered as a copy, behind another refused head it is refused. -/
theorem test_accum_arrive : after (.accumArrive 2 0) (sMill [msg 10] [] [(3, 10)] [] []) (fun t => (die t 2).admitted = [msg 10]) = true
    ∧ after (.accumArrive 2 0) (sMill [msg 9] [] [(3, 10)] [] []) (fun t => (die t 2).admitted = [] ∧ (accCtx t 2 0).intake = []) = true
    ∧ after (.accumArrive 2 0) (sMill [msg 9] [] [] [(3, 8)] []) (fun t => (die t 2).admitted = []) = true := by decide +kernel
/-- A floor notice that has arrived behind one that has not. -/
theorem witness_floor_notice : let s := modDie 2 (fun x => { x with floorsIn := [⟨0, 3, 4, some 7⟩, ⟨0, 3, 5, none⟩] }) State.reset
    (die s 2).floorsIn = [⟨0, 3, 4, some 7⟩] ++ ⟨0, 3, 5, none⟩ :: [] ∧ rideArrived s (some 7) = false ∧ rideArrived s none = true := by
  decide +kernel

/-- AppliedAccumulateIsNeverAppliedAgain: a copy of a block in the window arrives and is not admitted. -/
theorem witness_accum_copy : let s := sMill [msg 9] [(3, 9)] [] [] []
    (accCtx s 2 0).intake.find? (fun q => rideArrived s q.ride) = some (msg 9) ∧ (3, 9) ∈ (accCtx s 2 0).window
    ∧ after (.accumArrive 2 0) s (fun t => (die t 2).admitted = []) = true := by decide +kernel
/-- AccumulateAppliesFp32Sums: the first admitted block of a target that lands, and one behind another of its target. -/
theorem witness_accum_applied : let s := sMill [] [] [] [] [msg 9, msg 10]
    (die s 2).admitted[0]? = some (msg 9) ∧ (msg 9).blk.fmt ≠ 2 ∧ s.storesWf = true ∧ (msg 9).b < 2 ^ 28
    ∧ (∃ q ∈ (die s 2).admitted.take 1, (msg 10).b ∈ accTargets q) ∧ (∀ q ∈ (die s 2).admitted.take 0, (msg 9).b ∉ accTargets q)
    ∧ poisoned s (.stk (dieHalf 2) 64) = false ∧ (msg 9).src = .core 0 ∧ .mill 2 ∉ s.outOfSvc
    ∧ .mill 2 ∈ ({ s with outOfSvc := [.mill 2] } : State).outOfSvc := by decide +kernel
/-- Its target lands. -/
theorem witness_accum_target : ∃ t r, landCheck (blkStored (sMill [] [] [] [] [msg 9]) (.stk 0 64)) (Loc.stk 0 64).term = .accepted t r := by
  rw [blkStored_unlisted (by intro c hc; cases hc)]
  exact ⟨_, _, land_zero (k := (Loc.stk 0 64).key) (by decide +kernel)⟩

/-- Core 0 with one accumulate block in a stage, its repeat with a number of blocks left. -/
def sAcc (st : AccStage) (since : Option Nat) (left now : Nat) : State :=
  { sPend [⟨0, .xce, 4, none, .accum 0 64 (blkF 4) 3 9 ⟨st, since⟩⟩] with time := now }
    |> modCore 0 (fun x => { x with accRpts := [⟨4, 3, 9, 10, left, [0], []⟩] })
/-- AccumulateSenderSettlesResendsOrFaults: status 1 with 2 blocks and with 1 block left; status 2; 128 and 127 cycles after a
refusal; 524,288 and 524,287 cycles after the first; never refused. -/
theorem witness_accum_sender : let p (st : AccStage) (si : Option Nat) : Pend := ⟨0, .xce, 4, none, .accum 0 64 (blkF 4) 3 9 ⟨st, si⟩⟩
    (core (sAcc (.answered 1) none 2 0) 0).pend[0]? = some (p (.answered 1) none)
    ∧ (core (sAcc (.answered 1) none 2 0) 0).accRpts.find? (fun a => a.rpt == 4) = some ⟨4, 3, 9, 10, 2, [0], []⟩
    ∧ (core (sAcc (.answered 0) none 1 0) 0).accRpts.find? (fun a => a.rpt == 4) = some ⟨4, 3, 9, 10, 1, [0], []⟩
    ∧ (core (sAcc (.answered 2) none 1 0) 0).pend[0]? = some (p (.answered 2) none)
    ∧ (core (sAcc (.refused 0) (some 0) 1 128) 0).pend[0]? = some (p (.refused 0) (some 0))
    ∧ 0 + 128 ≤ (sAcc (.refused 0) (some 0) 1 128).time ∧ (sAcc (.refused 0) (some 0) 1 127).time < 0 + 128
    ∧ 0 + 524288 ≤ (sAcc .sent (some 0) 1 524288).time ∧ (sAcc .sent (some 0) 1 524287).time < 0 + 524288
    ∧ rideArrived (sAcc .sent none 1 0) none = true ∧ rideArrived (sAcc .sent none 1 0) (some 3) = false
    ∧ (ctxSt (sAcc .sent (some 0) 1 524288) 0).fault = none := by decide +kernel


/-! ### The stack arbiter and the mills -/

/-- A stack request of a class for a block of die 0, and the same queued. -/
def req (c : SClass) (k : SKind) (blk : Nat) (esc : Bool := false) (late : Nat := 0) : StackReq := ⟨c, k, blk, 7, esc, 0, late⟩
/-- Queued, aged by its number. -/
def arb (n : Nat) (r : StackReq) : ArbReq := ⟨n, r, n, chanOf r.blk, (0, 0, 1), false, false, none, n, 0⟩
/-- Die 0 with requests queued, a grant in flight on channel 0, and slot 1 owned by class H. -/
def sArb (q : List ArbReq) (cur : Option (ArbReq × Nat)) : State :=
  modDie 0 (fun x => { x with queue := q, chans := [(0, ⟨cur, 0, 0, 0, [], [], 0⟩)], table := (List.replicate 64 4).set 1 2, nextReq := 9 }) State.reset
/-- The die as slot 1 begins. -/
def slotDie (s : State) : DieSt :=
  let s0 := (List.range 32).foldl (fun t ch => holdCut 0 ch t) (swapTable 0 s)
  { die s0 0 with clock := (die s0 0).clock + 1 }
/-- SlotGrantsOwnerThenOldest: an H request behind an older M request; an F request beside a Q request that may revoke it; a late transfer
in flight. -/
theorem witness_slot_grant : let q := [arb 1 (req .m .read 0), arb 2 (req .h .read 0x100)]
    let v := [arb 1 (req .f .read 0), arb 2 (req .q .read 0x100)]
    let s := sArb q none
    let t := wr fRevokeMax 0 1 (sArb v none)
    let u := sArb [] (some (arb 3 (req .f .read 0 false 5), 3))
    let idle (s : State) : Bool := (slotDie s).waiting == [] && (slotDie s).queue.all (fun r => r.chan == chanOf r.req.blk)
      && (slotDie s).flying.all (fun r => r.chan == chanOf r.req.blk)
      && (slotDie s).chans.all (fun e => ((e.2.cur.map (·.1)).toList ++ e.2.more).all fun a => a.chan == e.1)
    idle s = true ∧ idle t = true ∧ idle u = true
    ∧ ((slotDie s).chan 0).cur = none ∧ (∀ a ∈ (slotDie s).flying, a.chan ≠ (0 : Fin 32)) ∧ ((slotDie s).chan 0).closed = 0
    ∧ ((slotDie s).chan 0).refresh = [] ∧ (slotDie s).throttle = false ∧ (∀ r ∈ (slotDie s).queue, r.chan = (0 : Fin 32) → r.req.cls ≠ .q)
    ∧ ((q.filter fun r => r.chan == 0 && eligible (slotDie s) r).filter fun r => clsCode r.req.cls == lget (slotDie s).table 1 4)
      = [arb 2 (req .h .read 0x100)]
    ∧ oldest (v.filter fun r => r.chan == 0 && eligible (slotDie t) r) = some (arb 1 (req .f .read 0))
    ∧ ((slotDie t).chan 0).revokes < rd t fRevokeMax 0 ∧ shortBytes (req .f .read 0).kind = none
    ∧ (slotDie t).queue.filter (fun r => r.chan == (0 : Fin 32).val) = v
    ∧ ((slotDie u).chan 0).cur = some (arb 3 (req .f .read 0 false 5), 3) ∧ ((slotDie u).chan 0).closed = 0 := by decide +kernel
/-- R296: the slot's owner goes before an older request of another class. -/
theorem test_slot_owner : after (.slotGrant 0) (sArb [arb 1 (req .m .read 0), arb 2 (req .h .read 0x100)] none)
    (fun t => (((die t 0).chan 0).cur.map (·.1.id)) = some 2 ∧ rd t fSlotNow 0 = 1) = true := by decide +kernel
/-- HOLD_CUT at the fourth held slot with data late, and at the third; beside a Q request that may revoke it; a refresh whose turn it is, one
early, one past the frames' 9. -/
theorem witness_hold_cut : let g := arb 3 (req .f .read 0 false 4)
    let s := sArb [] (some (g, 4))
    let v := wr fRevokeMax 0 1 (sArb [arb 2 (req .q .read 0x100)] (some (g, 4)))
    let c (clock dues : Nat) := modDie 0 (fun x => { x with clock := clock, chans := [(0, ⟨none, 0, 0, 0, [], [], dues⟩)] }) State.reset
    ((die s 0).chan 0).cur = some (g, 4) ∧ 4 ≤ g.req.late ∧ g.write = false ∧ (die s 0).queue = []
    ∧ ((die (sArb [] (some (g, 3))) 0).chan 0).cur = some (g, 3)
    ∧ (∃ q ∈ (die v 0).queue, q.chan = 0 ∧ mayRevoke (rd v fRevokeMax 0) (die v 0) q = true)
    ∧ ((die (c 28 1) 0).chan 0).dues * 256 < ((die (c 28 1) 0).clock % 256 + 1) * 9
    ∧ ((die (c 27 1) 0).clock % 256 + 1) * 9 ≤ ((die (c 27 1) 0).chan 0).dues * 256 ∧ 9 ≤ ((die (c 255 9) 0).chan 0).dues := by
  decide +kernel

/-- Die 0 with an access on its way to it, of which the queue holds another. -/
def sAsk (r : StackReq) (q : List ArbReq := []) (cur : Option (ArbReq × Nat) := none) (pool : Nat × Nat × Nat := (0, 0, 0)) : State :=
  modDie 0 (fun x => { x with pool := pool }) { sArb q cur with stkReqs := [⟨0, some 4, r⟩, ⟨0, none, r⟩] }
/-- StackRequestsHoldBuffersOrWait: an access still on the ride before one that has arrived; pools with room, with none; a short access beside
one of its requester; four buffers of a BX8 accumulate; a Q request on a channel that an H transfer holds. -/
theorem witness_stack_request : let r := req .f .read 0
    let s := sAsk r
    let sh := req .h (.short 64) 0
    let u := wr fRevokeMax 0 1 (sAsk (req .q .read 0x100) [] (some (arb 3 (req .h .read 0), 1)))
    s.stkReqs = [⟨0, some 4, r⟩] ++ ⟨0, none, r⟩ :: [] ∧ (∀ e ∈ [(⟨0, some 4, r⟩ : StkAsk)], e.die ≠ (0 : Die) ∨ rideArrived s e.ride = false)
    ∧ rideArrived s none = true ∧ (die s 0).pool.2.2 < 52 ∧ (die (sAsk r [] none (0, 4, 52)) 0).pool.2.2 = 52
    ∧ (die (sAsk r [] none (7, 4, 52)) 0).pool.1 < 8 ∧ (die (sAsk r [] none (8, 3, 52)) 0).pool.2.1 < 4 ∧ sharing (die s 0) r = none
    ∧ sharing (die (sAsk sh [arb 2 sh]) 0) sh = some (arb 2 sh)
    ∧ (takeBufs (7, 0, 49) (req .f .accBx8 0 true)).isSome = true ∧ (takeBufs (7, 0, 50) (req .f .accBx8 0 true)).isSome = false
    ∧ ((die u 0).chan 0).cur = some (arb 3 (req .h .read 0), 1) ∧ ((die u 0).chan 0).closed = 0
    ∧ ((die u 0).chan 0).revokes < rd u fRevokeMax 0 ∧ (die u 0).throttle = false ∧ sharing (die u 0) (req .q .read 0x100) = none
    ∧ ((die u 0).flying.any fun a => a.id != (die u 0).nextReq && isRmw (req .q .read 0x100).kind && a.req.blk == 0x100) = false
    ∧ (die u 0).queue = [] := by
  decide +kernel
/-- REFRESH_LOOP at the bounds of each band. -/
theorem test_refresh_loop : after (.refreshLoop (86 :: 84 :: 83 :: 96 :: 93 :: 92 :: List.replicate 10 0))
    (modDie 1 (fun x => { x with doubled := true, throttle := true }) (modDie 4 (fun x => { x with throttle := true }) State.reset))
    (fun t => rd t fTdramMax 0 = 96 ∧ (die t 0).doubled = true ∧ (die t 1).doubled = true ∧ (die t 2).doubled = false
      ∧ (die t 3).throttle = true ∧ (die t 4).throttle = true ∧ (die t 5).throttle = false) = true := by decide +kernel

/-- A full-width write by SCH. -/
def schW (v : BitVec 64) : RegWr := ⟨.sch, .full, v⟩
/-- Die 3 with SWAP set and a shadow table of 64 Q slots. -/
def sQTable : State := [12, 13, 14, 15].foldl (fun t i => regWrite .arbSlot i 0 t)
  (modDie 3 (fun x => { x with clock := 64 }) (wr fSwap 3 1 State.reset))
/-- SlotTableAndStatisticsSnapshots: a word with SWAP; a frame's end and not; a table of all OPEN and one of 64 Q slots; a word with SNAP. -/
theorem witness_slot_table : (schW 1).val.toNat.testBit 0 = true ∧ (schW 32).val.toNat.testBit 5 = true
    ∧ rdb sQTable fSwap 3 = true ∧ (die sQTable 3).clock % 64 = 0 ∧ (die sQTable 3).swapAt < (die sQTable 3).clock
    ∧ (die (modDie 3 (fun x => { x with swapAt := 64 }) sQTable) 3).clock ≤ (die (modDie 3 (fun x => { x with swapAt := 64 }) sQTable) 3).swapAt
    ∧ (die (modDie 3 (fun x => { x with clock := 63 }) State.reset) 3).clock % 64 ≠ 0 ∧ (shadowTable sQTable 3).count 0 = 64 ∧ (shadowTable State.reset 3).count 4 = 64
    ∧ rdb State.reset fSnap 13 = false ∧ (die State.reset 3).stats[1]? = some ⟨0, 0, 0⟩ := by decide +kernel
/-- R302: a table with more than 16 Q slots is refused. -/
theorem test_table_refused : after (.slotTableLive 3) sQTable
    (fun t => rd t fTblRefused 3 = 1 ∧ rdb t fSwap 3 = false ∧ (die t 3).table = List.replicate 64 4) = true := by decide +kernel

/-- A mill job descriptor over groups 0 to 15 at block 0 of KIND with arrays. -/
def mjob (kind n : Nat) (arrays : List Nat) : Bytes :=
  toLe 1 kind ++ [0, 0] ++ toLe 1 n ++ toLe 4 16 ++ toLe 4 0 ++ toLe 4 77 ++ (arrays ++ List.replicate (8 - arrays.length) 0).flatMap (toLe 4)
    ++ zeros 72 ++ toLe 4 8192 ++ zeros 4
/-- Die 0 with that descriptor next in its job ring, whose rings lie from block 4,096 on. -/
def sRing (kind n : Nat) (arrays : List Nat) : State :=
  memWrite ((Loc.stk 0 4096).addr 0) (mjob kind n arrays) (wr fMjBase 0 4096 (wr fMcBase 0 4100 (wr fMcTail 0 0 (wr fMjTail 0 1 State.reset))))
/-- MillJobsStartRunAndFinish: a ZERO job; a job with no array; an empty ring, a full completion ring. -/
theorem witness_mill_start : let z := sRing 5 0 [2 ^ 28]
    (die z 0).job = none ∧ (die z 0).lost = false ∧ rd z fMjHead 0 ≠ rd z fMjTail 0 ∧ (rd z fMcHead 0 + 1) % 64 ≠ rd z fMcTail 0
    ∧ fieldAt (mjDesc z 0) 0 1 = 5 ∧ millOk (mjDesc z 0) [] = true ∧ nextGroup 0 (jobOf (mjDesc z 0) []) = some 0
    ∧ millOk (mjDesc (sRing 5 0 []) 0) [] = false ∧ rd State.reset fMjHead 0 = rd State.reset fMjTail 0
    ∧ .mill 0 ∉ z.outOfSvc ∧ .mill 0 ∈ ({ z with outOfSvc := [.mill 0] } : State).outOfSvc
    ∧ (rd (wr fMcHead 0 63 z) fMcHead 0 + 1) % 64 = rd (wr fMcHead 0 63 z) fMcTail 0 := by decide +kernel
/-- A CUSTOM job of one operation word, and of none, whose program block 8,192 nothing has written. -/
theorem witness_mill_custom : let z := sRing 3 1 []
    fieldAt (mjDesc z 0) 0 1 = 3 ∧ fieldAt (mjDesc z 0) 120 4 = 8192 ∧ fieldAt (mjDesc z 0) 3 1 ≤ 32 ∧ millOk (mjDesc z 0) [0] = true
    ∧ millOk (mjDesc (sRing 3 0 []) 0) [] = false ∧ wordsLe 4 1 (zeros 2048) = [0] := by decide +kernel
/-- Reading that block where nothing above the ring is written. -/
theorem witness_mill_program : ∃ s2, millRead 0 0 [8192] (millAsks (.short 4) 0 [8192] (millAsks (.short 128) 0 [4096] (sRing 3 1 [])))
    = (s2, some [zeroMoved (Loc.stk 0 8192).key]) := by
  have m : ∀ c ∈ (sRing 3 1 []).mem, c.1 < (Loc.stk 0 8192).addr 0 := by decide +kernel
  have e := blkFetch_unlisted (s := millAsks (.short 4) 0 [8192] (millAsks (.short 128) 0 [4096] (sRing 3 1 []))) (l := .stk 0 8192) 0 m rfl rfl
    (by decide +kernel)
  refine ⟨millAsks (.short 4) 0 [8192] (millAsks (.short 128) 0 [4096] (sRing 3 1 [])), ?_⟩
  simp only [millRead, show ((0 : CtxId) : Nat) = 0 from rfl, e]

/-- Die 0 with a job. -/
def sJob (x : MillJob) : State := modDie 0 (fun e => { e with job := some x }) State.reset
/-- A ZERO job and a SCAN of 16 groups of an array at a block. -/
def jobK (kind base : Nat) : MillJob := ⟨kind, 0, 0, 16, 0, 77, [base + 2 ^ 28], [], 0, [], 0, 0, 0, 0, 0, 0⟩
/-- MILL_GROUP: a group left, of blocks that exist and of one that does not; a second group after it. -/
theorem witness_mill_group : (die (sJob (jobK 5 0)) 0).job = some (jobK 5 0) ∧ nextGroup 0 (jobK 5 0) = some 0
    ∧ (groupReads (jobK 5 0) 0 ++ groupWrites (jobK 5 0) 0).all (· < 188743680) = true
    ∧ (groupReads (jobK 5 188743680) 0 ++ groupWrites (jobK 5 188743680) 0).any (188743680 ≤ ·) = true
    ∧ (nextGroup 0 (jobK 5 188743680)).isSome = true ∧ (ctxSt (sJob (jobK 5 0)) 0).fault = none
    ∧ (nextGroup 0 { jobK 5 0 with next := 1, start := 0, ngroup := 32 }).isSome = true := by decide +kernel
/-- A group that computes: a SCAN of a block that nothing has written. -/
theorem witness_mill_scan : let s1 := millAsks .write 0 [] (millAsks .read 0 [0] (sJob (jobK 4 0)))
    runGroup 0 (jobK 4 0) 0 s1 = .ok (scanBlock (jobK 4 0) 0 (zeroMoved (Loc.stk 0 0).key)) s1 := by
  intro s1
  have e := blkFetch_unlisted (s := s1) (l := .stk 0 0) 0 (by intro c hc; cases hc) rfl rfl (by decide +kernel)
  have g : groupReads (jobK 4 0) 0 = [0] := by decide +kernel
  have m : millRead (jobK 4 0).ctx (dieHalf 0) [0] s1 = (s1, some [zeroMoved (Loc.stk 0 0).key]) := by
    simp only [millRead, show ((jobK 4 0).ctx : Nat) = 0 from rfl, show dieHalf 0 = 0 from rfl, e]
  rw [runGroup, g, m]
  rfl
/-- spec/09: SGDM with k0 = −1, k1 = 1/2, k2 = 0, k3 = 1 on g = 2, w = 8, m = 4 gives m = 4 and w = 4. -/
theorem test_sgdm : ((runProg [0xBF800000, 0x3F000000, 0, 0x3F800000] sgdmProg
    ([0x40000000, 0x41000000, 0x40800000, 0] ++ List.replicate 12 0)).1.take 3) = [0x40000000, 0x40800000, 0x40800000] := by
  decide +kernel


/-! ### Invocations, cuts, integrity -/

/-- A core with a queue, a taken descriptor, resident sets. -/
def sQ (q : List Desc) (tk : Option (Desc × ListSet)) (res : List ListSet) : State :=
  setCore 0 { Core.reset with queue := q, taken := tk, resident := res, openFmt := [] } State.reset
/-- A descriptor of a context with PRIO or not, and one that breaks a check (reserved bytes). -/
def dsc (ctx : CtxId) (prio : Bool) (good : Bool := true) : Desc := ⟨0, ctx, 7, 1, prio, false, false, 0x20000000000000, [], if good then none else some .reserved⟩
/-- InvocationsAreTakenLoadedAndStarted: 15 and 16 entries held; a PRIO entry behind another; one that is rejected; one whose context has a
fault. -/
theorem witness_invocation_write : schUp State.reset = true ∧ gstUp State.reset 0 = true
    ∧ schUp (modProc 3 (fun p => { p with restarting := true }) State.reset) = false ∧ (core (jobRecPut State.reset) 0).queue.length < 16
    ∧ (zeros 320).length = 320 ∧ (core (sQ (List.replicate 15 desc0) none []) (physOf State.reset 0)).queue.length < 16
    ∧ 16 ≤ (core (sQ (List.replicate 16 desc0) none []) (physOf State.reset 0)).queue.length := by decide +kernel
/-- TAKE_DESCRIPTOR. -/
theorem witness_take_descriptor : let s := sQ [dsc 0 false, dsc 0 true false] none []
    let tk := sQ [] (some (dsc 0 false, lset .mxe 0)) []
    let tf := modCtx 0 (fun x => { x with fault := some (1, 0) }) tk
    let f := modCtx 0 (fun x => { x with fault := some (1, 0) }) s
    (core s 0).taken = none ∧ (core s 0).forced = false ∧ lcOf s 0 ≠ none ∧ (core s 0).queue = [dsc 0 false] ++ dsc 0 true false :: []
    ∧ canStart s 0 (dsc 0 true false) = true ∧ (∀ q ∈ [dsc 0 false], (q.prio && canStart s 0 q) = false)
    ∧ (core tf 0).taken = some (dsc 0 false, lset .mxe 0) ∧ canStart tf 0 (dsc 0 false) = false
    ∧ (checkDesc 0 (dsc 0 true false) s).2 = .reject .reserved ∧ (∀ d ∈ (core f 0).queue, canStart f 0 d = false) := by
  decide +kernel
/-- An image in understorey page 0: header of one list set, its table, roles, instructions and parameters the zero blocks behind. -/
def imgHdr : Bytes := toLe 4 0x53544D49 ++ toLe 2 1 ++ toLe 2 1 ++ toLe 4 5 ++ toLe 4 1 ++ toLe 4 2 ++ toLe 4 3 ++ toLe 4 4
/-- Core 0 that may take a descriptor of it, page 0 resident or off-loaded. -/
def sImg (pte : Nat) : State :=
  setCore 0 { Core.reset with queue := [dsc 0 false], openFmt := [] }
    (memWrite ((Loc.und 0 5 0).addr 2176) (toLe 8 5692673078524075835) (memWrite ((Loc.und 0 5 0).addr 0) imgHdr (sUnd pte)))
/-- The descriptor is accepted, or finds the page absent. -/
theorem witness_take_image : (match (checkDesc 0 (dsc 0 false) (sImg pteHere)).2 with | .ok l => l.lens.sum == 0 | _ => false) = true
    ∧ (checkDesc 0 (dsc 0 false) (sImg pteAway)).2 = .absent 0 := by decide +kernel
/-- A set of no instruction is loaded beside seven others; beside eight the oldest leaves. -/
theorem witness_list_set_load : let l := { lset .mxe 0 with lens := List.replicate 8 0, ins := [] }
    let s (n : Nat) := sQ [] (some (desc0, l)) (List.replicate n { l with lsid := 5 })
    (core (s 7) 0).taken = some (desc0, l) ∧ residentSet (core (s 7) 0) desc0 = none
    ∧ (readIns 0 desc0 l (ceilDiv l.lens.sum 128) 0 (s 7)).2 = .ok [] ∧ (core (s 7) 0).resident.length < 8
    ∧ ((core (s 7) 0).resident.map ListSet.blocks).sum + l.blocks ≤ 32 ∧ (core (s 8) 0).resident.length = 8 := by decide +kernel
/-- An idle core starts a resident set; one whose engines are all finished ends, one whose engine is not goes on. -/
theorem witness_invocation_start : let l := lset .mxe 0
    let s := sQ [] (some (desc0, l)) [l]
    let fin := { Core.reset with run := some (desc0, l) } |> fun x => allEngines.foldl (fun x e => x.setEng e ⟨{ ctl0 with part := .finished }, none, none⟩) x
    (core s 0).taken = some (desc0, l) ∧ residentSet (core s 0) desc0 = some l ∧ (core s 0).run = none ∧ canStart s 0 desc0 = true
    ∧ (core s 0).owner = none ∧ (core s 0).saved = [] ∧ desc0.preload = false ∧ desc0.resume = false
    ∧ (∀ e ∈ allEngines, (fin.eng e).ctl.part = .finished) ∧ fin.forced = false ∧ (∀ p ∈ fin.pend, p.ctx ≠ desc0.ctx)
    ∧ (∃ p ∈ ({ fin with pend := [⟨0, .vxe, 1, none, .landed⟩] } : Core).pend, p.ctx = desc0.ctx) ∧ fin.mxe.passes = [] ∧ fin.run = some (desc0, l)
    ∧ ((core (sOp .mxe 0 .nop) 0).eng .mxe).ctl.part ≠ .finished := by decide +kernel

/-- CutsSaveAndResumeCoreState: a running core of the grove with a taken descriptor not resident; a core of another grove. -/
theorem witness_force : let s := modCore 0 (fun x => { x with taken := some (dsc 0 false, lset .vxe 0) }) (sOp .mxe 0 .nop)
    coreGrove 0 = 0 ∧ coreGrove 17 ≠ 0 ∧ (core s 0).run ≠ none ∧ allFinished (core s 0) = false ∧ (core s 0).forced = false
    ∧ runsQuery 0 s = false ∧ runsQuery 0 { s with sctx := some 0 } = true
    ∧ residentSet (core s 0) (dsc 0 false) = none ∧ accAddRuns (core (stopCore 0 s) 0).mxe = false := by decide +kernel
/-- A forced core with no ACC_ADD pass has settled; engine state whose fields are at their bounds. -/
theorem witness_save_kind2 : let s := stopCore 0 (sOp .mxe 0 .nop)
    let k : Ctl := { ctlA with pc := 0xFFFF, rep := 0xFFFF }
    (core s 0).forced = true ∧ cutSettled s 0 = true ∧ 0 ∉ s.replacing ∧ 0 ∈ ({ s with replacing := [0] } : State).replacing ∧ (core (sOp .mxe 0 .nop) 0).forced = false
    ∧ k.pc < 2 ^ 16 ∧ k.rep < 2 ^ 16 ∧ k.ars.length = 16 ∧ k.cnts.length = 4 ∧ k.cmps.length = 2 := by decide +kernel
/-- A taken RESUME descriptor, its set resident, a record with nothing live and no active tile. -/
theorem witness_resume : let l := lset .mxe 0
    let d : Desc := { desc0 with resume := true }
    let s := modCore 0 (fun x => { x with saved := [⟨0, 2, 1⟩] }) (sQ [] (some (d, l)) [l])
    mayStart s 0 d = true ∧ residentSet (core s 0) d = some l ∧ fieldAt (saveGet s 0 0 0 1) 16 2 = 0
    ∧ fieldAt (saveGet s 0 0 0 1) 18 2 = 0 ∧ (loadRows 0 0 accBase 0 s).2 = none ∧ d.resume = true ∧ (loadBlocks 0 0 (fun i => .leaf 0 i) leafBase 0 0 s).2 = none
    ∧ (refillFrom 0 0 none s).2 = .ok Mxe.reset := by decide +kernel
/-- SAVE_KIND1 for a descriptor of context 1 where context 0 owns the stores, with nothing live; for context 0; RESTORE_KIND1 of a record. -/
theorem witness_kind1 : let l := lset .mxe 0
    let s (c : CtxId) := modCore 0 (fun x => { x with owner := some 0, shown := true }) (sQ [] (some (dsc c false, l)) [])
    let r := modCore 0 (fun x => { x with saved := [⟨1, 1, 0⟩] }) (sQ [] (some (dsc 1 false, l)) [])
    (core (s 1) 0).taken = some (dsc 1 false, l) ∧ (core (s 1) 0).owner = some 0 ∧ (dsc 1 false).ctx ≠ 0 ∧ (dsc 0 false).ctx = 0
    ∧ (dsc 1 false).preload = false ∧ ({ dsc 1 false with preload := true } : Desc).preload = true
    ∧ (loadRows 0 1 accBase 0 r).2 = none ∧ (core (s 1) 0).run = none ∧ (s 1).storesWf = true ∧ (core r 0).owner = none ∧ (∃ x ∈ (core r 0).saved, x.ctx = 1 ∧ x.kind = 1)
    ∧ fieldAt (saveGet r 0 1 0 1) 16 2 = 0 ∧ fieldAt (saveGet r 0 1 0 1) 18 2 = 0 := by decide +kernel

/-- LossesRetireTheDevice: a die lost, one not, a device retired and not, a live context; eight and seven replays; RETIRE_ACK with SEC running
and a sector of the history open. -/
theorem witness_losses : let s := modCtx 3 (fun x => { x with live := true }) State.reset
    let r (n : Nat) : State := { modRide 1 (fun x => { x with replays := n, retry := [(0, flit0)] }) State.reset with time := 512 }
    let z (t : Nat) : State := { modDie 9 (fun x => { x with silent := [(3, 100)] }) s with time := t }
    (die (modDie 9 (fun x => { x with lost := true }) s) 9).lost = true ∧ (die s 9).lost = false ∧ rdb s fRetired 0 = false
    ∧ rdb (wr fRetired 0 1 s) fRetired 0 = true ∧ s.job = none ∧ (ctxSt s 3).live = true ∧ (ctxSt s 3).fault = none
    ∧ 8 ≤ (rideEnd (r 8) 1).replays ∧ (rideEnd (r 7) 1).replays < 8 ∧ (rideEnd (r 8) 1).retry ≠ []
    ∧ (rideEnd (r 8) 1).ackSince + 512 ≤ (r 8).time ∧ ({ r 8 with time := 511 } : State).time < (rideEnd (r 8) 1).ackSince + 512
    ∧ (rideEnd (r 8) 1).gotReplay = none ∧ (rideEnd (modRide 1 (fun x => { x with gotReplay := some 0 }) (r 8)) 1).gotReplay ≠ none
    ∧ (∀ e ∈ (die (z 52528) 9).silent, (z 52528).time < e.2 + 52429) ∧ (∃ e ∈ (die (z 52529) 9).silent, e.2 + 52429 ≤ (z 52529).time)
    ∧ (proc (modProc 0 (fun p => { p with restarting := true }) s) 0).restarting = true
    ∧ (schW (2 ^ 41)).val.toNat.testBit 41 = true ∧ rdb s fRetireAck 0 = false ∧ (proc s 0).restarting = false ∧ s.storesWf = true
    ∧ s.histPos < histSize := by decide +kernel
/-- R458, Table 13.6: losing STK_1 of HALF_1 retires with cause 1 and faults a live context with 16 × 1 + 1. -/
theorem test_stack_lost : after (.stackLost 9 .internalError) (modCtx 3 (fun x => { x with live := true }) State.reset)
    (fun t => rd t fRetCause 0 = 1 ∧ (ctxSt t 3).fault = some (0x32, 17)) = true := by decide +kernel

/-- LandingsStoreCorrectOrFault: the last block and the one after; an image that lands and one whose tag cannot be corrected. -/
def imgGood : Bytes := zeros 2176 ++ toLe 8 (zeroTag (Loc.stk 0 64).key)
/-- Two bits of the tag flipped. -/
def imgBad : Bytes := zeros 2176 ++ toLe 8 (Nat.xor (zeroTag (Loc.stk 0 64).key) 3)
/-- The copies. -/
theorem witness_landing : placeOfTerm 0 1 188743680 = none ∧ placeOfTerm 0 1 64 = some (some (.stk 0 64))
    ∧ blkOfImage imgGood = zeroBlk (Loc.stk 0 64).key ∧ landCheck (blkOfImage imgBad) (Loc.stk 0 64).term = .failed true
    ∧ imgGood.length = 2184 ∧ imgBad.length = 2184 ∧ (ctxSt (modCtx 3 (fun x => { x with live := true }) State.reset) 3).live = true
    ∧ (tget State.reset.poison (dieOf 0 64) []).length < 64 ∧ State.reset.unitEvs = [] := by decide +kernel
/-- The good image passes. -/
theorem witness_landing_good : landCheck (zeroBlk (Loc.stk 0 64).key) (Loc.stk 0 64).term = .accepted (zeroTag (Loc.stk 0 64).key) false :=
  land_zero (by decide +kernel)
/-- A scrub of the last row of a channel, never written. -/
theorem witness_scrub : let s := millAsks .read 0 [blockAt 2 5 737279] (modDie 2 (fun x => { x with scrub := [(5, 0)] }) State.reset)
    blkFetch 0 (.stk 0 (blockAt 2 5 737279)) s = (s, .ok (zeroMoved (Loc.stk 0 (blockAt 2 5 737279)).key))
    ∧ blockAt 2 5 737279 < 188743680 := by
  refine ⟨blkFetch_unlisted (l := .stk 0 (blockAt 2 5 737279)) 0 (by intro c hc; cases hc) rfl rfl (by decide +kernel), by decide +kernel⟩
/-- FAULT_CLEAR: every kind of code, cuts outstanding and not, a unit seen first; HISTORY_HOURLY at the hour and a cycle before. -/
theorem witness_fault_clear : let s (c : Nat) (cuts : List Nat) := modCtx 3 (fun x => { x with fault := some (c, 0), cuts := cuts }) State.reset
    let u (c : Nat) : State := { s c [] with unitEvs := [(2, some (.core 4), 5)] }
    (ctxSt (s 0x07 [4]) 3).cuts ≠ [] ∧ (ctxSt (s 0x07 []) 3).fault = some (0x07, 0) ∧ (ctxSt (s 0x07 []) 3).cuts = []
    ∧ (s 0x07 []).sctx ≠ some 3 ∧ (s 0x07 []).unitEvs = [] ∧ (u 0x07).unitEvs = [(2, some (.core 4), 5)] ∧ HwUnit.core 4 ∉ (u 0x07).disagree ∧ schUp (s 7 []) = true
    ∧ (∀ o ∈ (u 0x07).observed, o.1 ≠ HwUnit.core 4) ∧ (0x20 : Nat) ∉ [0x07, 0x08, 0x15, 0x30, 0x31, 0x32]
    ∧ ({ State.reset with time := 2879999999999 } : State).time < 0 + 3600 * 800000000 ∧ 0 + 3600 * 800000000 ≤ 2880000000000 := by
  decide +kernel
/-- R446: a computation fault seen first is cleared, GEN advances, the unit is observed. -/
theorem test_fault_clear : after (.faultClear 3) { wr fGen 3 4095 (modCtx 3 (fun x => { x with fault := some (0x15, 0) }) State.reset) with unitEvs := [(2, some (.core 4), 5)] }
    (fun t => (ctxSt t 3).fault = none ∧ rd t fGen 3 = 0 ∧ t.observed = [(.core 4, 5)]) = true := by decide +kernel

/-- UnitsAreObservedTestedAndReplaced: a unit at and past 86,400 s; a test due and a cycle before; units of each kind whose test runs. -/
def sObs (now : Nat) (u : HwUnit) : State := { State.reset with time := now, observed := [(u, 0)], katOn := [u] }
/-- Its hypotheses. -/
theorem witness_observation : (sObs 0 (.mill 3)).observed.find? (fun o => o.1 == .mill 3) = some (.mill 3, 0)
    ∧ (sObs 69120000000000 (.mill 3)).time ≤ 0 + 86400 * 800000000 ∧ 0 + 86400 * 800000000 < (sObs 69120000000001 (.mill 3)).time
    ∧ (HwUnit.core 4) ∉ State.reset.katOn ∧ katFree State.reset (.core 4) = true ∧ katLastOf State.reset (.core 4) + 600 * 800000000 ≤ 480000000000
    ∧ (HwUnit.grove 3) ∈ (sObs 0 (.grove 3)).katOn ∧ (HwUnit.grove 3) ∉ (sObs 0 (.grove 3)).disagree
    ∧ lcOf (sObs 0 (.core 4)) 4 ≠ none ∧ (grove (sObs 0 (.core 4)) (coreGrove 4)).slotOut = 16
    ∧ (grove (modGrove 0 (fun g => { g with slotOut := 2 }) (sObs 0 (.core 4))) (coreGrove 4)).slotOut ≠ 16
    ∧ lcOf (modGrove 0 (fun g => { g with slotOut := 2 }) (sObs 0 (.core 4))) 4 ≠ none
    ∧ HwUnit.core (asCore (17 * coreGrove 4 + 16)) ∉ (sObs 0 (.core 4)).outOfSvc
    ∧ (∀ k ∈ (sObs 0 (.core 4)).replacing, coreGrove k ≠ coreGrove 4) ∧ (core (modCore 4 forceCore (sObs 0 (.core 4))) 4).run = none
    ∧ (let s := modCore 4 forceCore (setCore 4 { Core.reset with run := some (desc0, lset .mxe 0), mxe := { Mxe.reset with passes := [pass0 0 1 1 1 0 false] } }
        (sObs 0 (.core 4)))
      (core s 4).run ≠ none ∧ cutSettled s 4 = false)
    ∧ (HwUnit.core 4) ∈ ({ sObs 0 (.core 4) with disagree := [.core 4] } : State).disagree ∧ unitEvents (sObs 0 (.mill 3)) = sObs 0 (.mill 3)
    ∧ schUp State.reset = true ∧ UnitView.working ≠ UnitView.offOrFailed := by
  decide +kernel
/-- R455, R456: a failing core is replaced by its grove's spare; with the spare used the device retires with cause 7. -/
theorem test_kat_fail : after (.katResult (.core 4) false) (sObs 0 (.core 4))
      (fun t => (grove t 0).slotOut = 4 ∧ rdb t fRetired 0 = false ∧ rd t fSparesUsed 0 = 1) = true
    ∧ after (.katResult (.core 4) false) (modGrove 0 (fun g => { g with slotOut := 2 }) (sObs 0 (.core 4)))
      (fun t => rd t fRetCause 0 = 7) = true := by decide +kernel


/-! ### Training and serving -/

/-- Training of context 0 in a phase, at step 3, with a record that has G = 4 groups. -/
def trn (ph : TPhase) : Train :=
  ⟨zeros 68 ++ toLe 4 4 ++ zeros 1976, zeros 144, zeros 2048, 0, ph, 3, 3, 1, [], [], false, 0, 0, false, 0, 0, [], 0, [], false, false, 0, [], [], 0, []⟩
/-- A package of rank 0 among `n` with training state, and a job of 3 steps. -/
def sTrn (n : Nat) (t : Train) : State :=
  { wr fDxm1 0 (n - 1) State.reset with
    train := some t
    job := some ⟨0, zeros 112 ++ toLe 8 3 ++ zeros 136, true, [0], [], 0, some 0⟩ }
/-- A step record: step 3, rank, marked or not, F and NONFIN. -/
def rec0 (r m f nf : Nat) : Bytes := toLe 8 3 ++ toLe 2 r ++ toLe 1 m ++ zeros 5 ++ toLe 8 f ++ toLe 8 f ++ toLe 8 nf ++ toLe 4 1 ++ zeros 4 ++ toLe 8 1 ++ zeros 8
/-- TrainingStepsBeginReportAndDecide: steps run and to run; a report that may be sent and one that may not; records marked, within and past the
limit; records unmarked, with non-finite elements, with an infinite sum, with a norm above a clip of 1.0, plain; records not held. -/
theorem witness_training_steps :
    let t := { trn .stats with record := rec0 0 0 0 0 }
    let c := { t with rcd := zeros 28 ++ toLe 4 0x3F800000 ++ zeros 36 ++ toLe 4 4 ++ zeros 1976 }
    let l (m f nf : Nat) : List Bytes := [rec0 0 0 0 0, rec0 1 m f nf]
    stepOver (sTrn 2 (trn .between)) (trn .between) = true ∧ jobSteps (sTrn 2 (trn .between)) = 3 ∧ (trn .between).begun = 3
    ∧ mirrorDone (sTrn 2 (trn .between)) (trn .between) = true ∧ stepOver (sTrn 2 { trn .between with begun := 2 }) { trn .between with begun := 2 } = true
    ∧ ownRank (sTrn 2 (trn .between)) = 0 ∧ ranks (sTrn 2 (trn .work)) = 2 ∧ ctxQuiet (sTrn 2 (trn .work)) 0 = true
    ∧ (die (sTrn 2 (trn .work)) 5).stats.length = 4 ∧ (∀ b ∈ l 1 0 0 ++ l 0 (2047 * 2 ^ 52) 1, b.length = 64)
    ∧ recordsHeld (sTrn 2 t) t (l 1 0 0) = true ∧ bit (fieldAt (rec0 1 1 0 0) 10 1) 0 = true ∧ t.runs = 0
    ∧ recordsHeld (sTrn 2 { t with runs := 2 }) { t with runs := 2 } (l 1 0 0) = true ∧ recordsHeld (sTrn 2 t) t [] = false
    ∧ (∀ b ∈ l 0 0 0, bit (fieldAt b 10 1) 0 = false) ∧ recordsHeld (sTrn 2 t) t (l 0 0 0) = true
    ∧ (normCheck t (sumRecs (l 0 0 1))).code = 2 ∧ (sumRecs (l 0 (2047 * 2 ^ 52) 0)).f = f64Inf false
    ∧ (normCheck c (sumRecs (l 0 0x4030000000000000 0))).code = 1 ∧ (normCheck t (sumRecs (l 0 0 0))).code = 0
    ∧ t.status.length = 2048 := by decide +kernel
/-- STEP_DECISION again in phase 2, its jobs done: no record marked, one of a rank whose buddy has mirrors or has none or is gone. -/
theorem witness_late_records : let t := { trn .update with record := rec0 0 0 0 0, rcd := zeros 9 ++ [1] ++ zeros 58 ++ toLe 4 4 ++ zeros 1976 }
    let n := { t with rcd := (trn .update).rcd }
    let l (m : Nat) : List Bytes := [rec0 0 0 0 0, rec0 1 m 0 0, rec0 2 0 0 0, rec0 3 0 0 0]
    recordsHeld (sTrn 4 t) t (l 0) = true ∧ failedRanks (sTrn 4 t) t (l 0) = [] ∧ recordsHeld (sTrn 4 t) t (l 1) = true
    ∧ failedRanks (sTrn 4 t) t (l 1) = [1] ∧ jobsDone t = true ∧ (ctxSt (sTrn 4 t) t.ctx).fault = none ∧ fieldAt t.status 18 1 ≤ 1
    ∧ t.mirrors = true ∧ n.mirrors = false ∧ buddy (ranks (sTrn 4 t)) 1 = 3 ∧ (3 : Nat) ∉ t.expelled ++ [1]
    ∧ (3 : Nat) ∈ ({ t with expelled := [3] } : Train).expelled ++ [1] ∧ (∀ b ∈ l 1, b.length = 64) := by decide +kernel
/-- TrainingMirrorsZeroesVotesAndRestarts: a mirror owed over the 24 unlisted blocks of this rank's groups; written with one transfer outstanding
and none; RB to zero and zeroed; votes of four ranks with a majority, of three (too few would be left), of two against two; an adopting job
before its first step and after one. -/
theorem witness_mirror : ({ trn .update with mirror := 1 } : Train).mirror = 1 ∧ jobsDone (trn .update) = true
    ∧ (mirrorBlocks (sTrn 2 (trn .update)) (trn .update)).length = 24
    ∧ ∀ x ∈ mirrorBlocks (sTrn 2 (trn .update)) (trn .update), poisoned (sTrn 2 (trn .update)) (Loc.stk (halfOf x.1) x.2.1) = false
      ∧ ∃ g r, landCheck (blkStored (sTrn 2 (trn .update)) (Loc.stk (halfOf x.1) x.2.1)) (Loc.stk (halfOf x.1) x.2.1).term = .accepted g r := by
  have k : ∀ x ∈ mirrorBlocks (sTrn 2 (trn .update)) (trn .update), zeroTagOk (Loc.stk (halfOf x.1) x.2.1).key = true := by decide +kernel
  refine ⟨rfl, rfl, by decide +kernel, fun x hx => ⟨?_, zeroTag (Loc.stk (halfOf x.1) x.2.1).key, false, ?_⟩⟩
  · rfl
  · rw [blkStored_unlisted (by intro c hc; cases hc)]
    exact land_zero (k x hx)
/-- The other clauses. -/
theorem witness_mirror_vote_restart :
    let x : Txn := ⟨0, 0, 1, (0, 0, 0), 0, none, none, none, none, none, none, false, 0⟩
    let bad : State := { sTrn 2 (trn .update) with poison := [(8, [8])] }
    let j0 (a : Option Nat) : Job := ⟨0, zeros 256, true, [0], [], 0, a⟩
    let s4 := sTrn 4 { trn .update with vote := 2 }
    let v (s : State) (t : Train) := (List.range (ranks s)).filter fun e => !t.expelled.contains e
    (∃ n ∈ [(7 : Nat)], ∃ e ∈ ({ sTrn 2 (trn .update) with txns := [(7, x)] } : State).txns, e.1 = n)
    ∧ (sTrn 2 (trn .update)).txns = [] ∧ (trn .work).phase ≠ .between ∧ (trn .work).zeroed = false ∧ ranks (sTrn 2 (trn .work)) ≠ 1
    ∧ ctxQuiet (sTrn 2 (trn .work)) 0 = true ∧ halfGroups (trn .work) 1 = 4 ∧ shardSpan (trn .work) 2 0 1 = (0, 2)
    ∧ v s4 (trn .update) = [0, 1, 2, 3] ∧ ownRank s4 ∈ v s4 (trn .update) ∧ packageDigest (trn .update) = 0
    ∧ (4 : Nat) < 2 * ([0, 1, 3] : List Nat).length ∧ ¬ranks s4 < [2].length + 3 ∧ buddy 4 2 = 0
    ∧ ranks (sTrn 3 (trn .update)) < [2].length + 3 ∧ (s4.job.map fun j => (j.adopted, j.started)) = some (some 0, true)
    ∧ (∃ y ∈ mirrorBlocks bad (trn .update), poisoned bad (.stk (halfOf y.1) y.2.1) = true)
    ∧ schUp s4 = true ∧ ctxIdle s4 0 = true ∧ (ctxSt s4 0).fault = none
    ∧ (∀ n, (j0 (some 7)).adopted = some n → 6 ≤ n ∧ n ≤ 6 + 1 ∧ 0 ≤ fieldAt (trn .between).status 0 8)
    ∧ ¬(∀ n, (j0 (some 7)).adopted = some n → 5 ≤ n ∧ n ≤ 5 + 1 ∧ 0 ≤ fieldAt (trn .between).status 0 8)
    ∧ ({ trn .between with begun := 0 } : Train).phase = .between ∧ (trn .between).begun ≠ 0 := by decide +kernel
/-- R452: the rank whose digest differs from the majority's is expelled. -/
theorem test_digest_vote : let t := { trn .update with vote := 2 }
    after (.digestVote [(0, 0), (1, 0), (2, 5), (3, 0)]) (sTrn 4 t) (fun u => (u.train.map (·.expelled)) == some [2]) = true
    ∧ after (.digestVote [(0, 0), (1, 0), (2, 5), (3, 5)]) (sTrn 4 t) (fun u => u.train == none) = true := by decide +kernel

/-- The serving record of one ring: descriptors at understorey offset 0, 16 entries, port 0, admitted by grove 0, the lane of groves `lane`, RTT 0,
queue pair 0, completions at window block 1; NPROG = NRING = 1. -/
def svRcd (lane : Nat) : Bytes := zeros 4 ++ [1, 1] ++ zeros 58 ++ toLe 8 0x20000000000000 ++ toLe 2 16 ++ [0, 0] ++ toLe 4 lane ++ zeros 8
  ++ toLe 8 0x80000000000800 ++ toLe 2 16 ++ zeros 30
/-- One program that takes and gives one block and may be guarded. -/
def svPrg : Bytes := zeros 2 ++ toLe 2 1 ++ toLe 2 1 ++ toLe 1 1 ++ zeros 9
/-- Serving with queries of grove 0; descriptor 0 has been announced at 1,250 ps. -/
def srv (lane : Nat) (q : Table (List Query)) : Serve := ⟨svRcd lane, svPrg, [(0, ⟨1, [(1, 1250)], 0, 0, false⟩)], q, 0, []⟩
/-- The device serving under context 0 at 32 times 40 MHz, with epoch 1 published and page 0 of the understorey as `sUnd` has it. -/
def sSrv (v : Serve) : State :=
  { wr fSvCtlEn 0 1 (wr fSvK 0 32 (wr fEpochPub 0 1 (sUnd pteHere))) with
    serve := some v
    sctx := some 0
    spUp := true
    cpUp := [true, true]
    qps := [(0, { Qp.reset with err := false, entry := zeros 5 ++ [0, 2] ++ zeros 57 }), (2048, { Qp.reset with err := false })] }
/-- A query descriptor: SEQ, guarded or not, budget in ns. -/
def qDesc (n g budget : Nat) : Bytes := toLe 4 n ++ toLe 2 0 ++ toLe 1 g ++ [0] ++ zeros 4 ++ toLe 4 budget ++ toLe 8 0x80000000000000 ++ toLe 2 1
  ++ toLe 2 1 ++ zeros 4 ++ toLe 8 0x80000000001000 ++ zeros 24
/-- A write of 8 bytes to a doorbell page. -/
def bell (n : Nat) : Bytes := toLe 8 n
/-- Doorbells: rung by the face that may and by one that may not, a count ahead and one not. -/
theorem witness_doorbell : let s := sSrv (srv 1 [])
    faceUp .sp 0 s = true ∧ faceUp .cpa 0 s = true ∧ mayRing s .sp 0 0 = true ∧ mayRing s .cpa 0 0 = false ∧ (bell 2).length = 8
    ∧ fieldAt (bell 2) 0 8 < 2 ^ 32 ∧ serialBelow (rd s fDbCount 3) (fieldAt (bell 2) 0 8) = true
    ∧ serialBelow (rd s fDbCount 3) (fieldAt (bell 0) 0 8) = false ∧ mayRing s .cpa 0 1 = true
    ∧ serialBelow (qring (srv 1 []) 0).count (fieldAt (bell 2) 0 8) = true := by decide +kernel
/-- The decision: a grove taken, none that meets the deadline, three of a guarded query. -/
theorem witness_admit : admitWith 1250 500 2000 0 10 false [0, 1] [0, 1] (fun g => if g = 0 then 1400 else 0) 0 = .one 1 1750
    ∧ (∀ g ∈ [0, 1], (1749 : Nat) < max 1250 ((fun g => if g = 0 then 1400 else 0) g) + 500)
    ∧ admitWith 1250 500 4000 0 10 true [0, 1, 16] [0, 1, 16] (fun _ => 0) 0 = .three 0 16 1 1750 1750 2270 := by decide +kernel
/-- ADMISSION: the zero descriptor at the ring's next place is rejected, as neither its lanes of groves nor its budget are valid. -/
theorem witness_admission_reject : let s := sSrv (srv 1 [])
    rdb s fSvCtlEn 0 = true ∧ (proc s (gstCode 0)).restarting = false ∧ nextRing (srv 1 []) 0 = some (0, 1250)
    ∧ admitDecide s (srv 1 []) (svRing (srv 1 []) 0) 0 1250 (zeros 64) = .reject 2 := by decide +kernel
/-- The same ring with a descriptor of budget 100,000 ns in its place. -/
def sDesc : State := memWrite ((Loc.und 0 5 0).addr 2176) (toLe 8 8286693686698937278)
  (memWrite ((Loc.und 0 5 0).addr 0) (qDesc 0 0 100000) (sSrv (srv 1 [])))
/-- Grove 0 takes it. -/
theorem witness_admission : nextRing (srv 1 []) 0 = some (0, 1250)
    ∧ (ringRead 0 ((svRing (srv 1 []) 0).va + 64 * (0 % max (svRing (srv 1 []) 0).entries 1)) sDesc).2 = some (qDesc 0 0 100000)
    ∧ (ringRead 0 (svRing (srv 1 []) 0).va (modCtx 0 (fun x => { x with fault := some (1, 0) }) sDesc)).2 = none
    ∧ admitDecide sDesc (srv 1 []) (svRing (srv 1 []) 0) 0 1250 (qDesc 0 0 100000) = .one 0 832520 := by decide +kernel
/-- A query of ring 0 on a grove: SEQ, role, stage, digests, deadline in ps, missed or not. -/
def qry (n role : Nat) (st : QStage) (dg : List Nat) (dl : Nat) (missed : Bool) : Query :=
  ⟨0, n, qDesc n 0 100, 0, dl, 1, 7, role, 0, st, dg, 0, missed⟩
/-- QUERY_COMPLETE and DEADLINE_MISS: a query that failed, runs, is out, in time and late, missed already, guarded. -/
theorem witness_query_complete : let q (st : QStage) (r : Nat := 0) := qry 0 r st [] 1250 false
    let s (x : Query) (t : Nat) : State := { sSrv (srv 1 [(0, [x])]) with time := t }
    let run : Query := q (.running [0])
    let busy (t : Nat) : State := setCore 0 { Core.reset with queue := [{ desc0 with invSeq := 7 }] } (s run t)
    (queriesOf (srv 1 [(0, [q .failed])]) 0)[0]? = some (q .failed) ∧ queryFailed (s (q .failed) 1) 0 (q .failed) = true
    ∧ decide ((q .failed).dl / 1250 < (s (q .failed) 1).time) = false ∧ queryFailed (busy 1) 0 run = false ∧ queryOut (busy 1) 0 run = false
    ∧ queryOut (s (q .ended) 1) 0 (q .ended) = true ∧ queryFailed (s (q .ended) 1) 0 (q .ended) = false ∧ gstUp (s run 1) 0 = true ∧ decide (run.dl / 1250 < (s run 2).time) = true
    ∧ (qry 0 0 (.running []) [] 1250 true).missed = true ∧ run.missed = false ∧ (q (.running []) 1).role ≠ 0 := by decide +kernel

/-- A guarded query: copies A, B and C on groves 0, 16 and 1, the first two over with digests, C in a stage. -/
def srv3 (a b c : List Nat) (st : QStage) : Serve :=
  srv 0x10003 [(0, [qry 0 1 .ended a 1250 false]), (1, [qry 0 3 st c 1250 false]), (16, [qry 0 2 .ended b 1250 false])]
/-- GuardedQueriesEpochsAndServingRegisters: agreeing and disagreeing copies in time and late; C over, agreeing with A, with B, with neither. -/
theorem witness_guard : let s (a b c : List Nat) (st : QStage) (t : Nat) : State := { sSrv (srv3 a b c st) with time := t }
    let A (a : List Nat) := qry 0 1 .ended a 1250 false
    let B (b : List Nat) := qry 0 2 .ended b 1250 false
    let C (c : List Nat) (st : QStage) := qry 0 3 st c 1250 false
    queryAt (s [5] [5] [] .held 1) 0 0 = some (A [5]) ∧ copyOfRole (s [5] [5] [] .held 1) (A [5]) 2 = some (16, B [5])
    ∧ copyOfRole (s [5] [5] [] .held 1) (A [5]) 3 = some (1, C [] .held) ∧ copyOver (s [5] [5] [] .held 1) (0, A [5]) = true
    ∧ copyOver (s [5] [5] [] .held 1) (16, B [5]) = true ∧ pastDeadline (s [5] [5] [] .held 1) (A [5]) = false
    ∧ pastDeadline (s [5] [5] [] .held 2) (A [5]) = true ∧ copiesAgree (s [5] [5] [] .held 1) (0, A [5]) (16, B [5]) = true
    ∧ copiesAgree (s [5] [6] [] .held 1) (0, A [5]) (16, B [6]) = false
    ∧ queryAt (s [5] [6] [6] .ended 1) 1 0 = some (C [6] .ended) ∧ copyOfRole (s [5] [6] [6] .ended 1) (C [6] .ended) 1 = some (0, A [5])
    ∧ copiesAgree (s [5] [6] [6] .ended 1) (16, B [6]) (1, C [6] .ended) = true ∧ copiesAgree (s [5] [6] [6] .ended 1) (0, A [5]) (1, C [6] .ended) = false
    ∧ copiesAgree (s [5] [6] [5] .ended 1) (0, A [5]) (1, C [5] .ended) = true
    ∧ copiesAgree (s [5] [6] [7] .ended 1) (16, B [6]) (1, C [7] .ended) = false := by decide +kernel
/-- Epochs: none being published, one being published whose invocations core 15's was the last of, a query of the epoch before; SV_CTL values that
keep their rules and break them; SV_CUT below and at 2,000; an operation whose ACK time is over, with retries left and none. -/
theorem witness_epoch_registers : let v := srv 1 []
    let s := sSrv v
    let o (n : Nat) : RdmaOp := ⟨0, 0, 0, 0, 0, 0, 8, [], 0, .report, n, 0, 0⟩
    let r (n t : Nat) : State := { s with rdma := [o n], time := t }
    v.pub = 0 ∧ (∀ x ∈ v.queries, ∀ q ∈ x.2, q.epoch + 1 ≠ rd s fEpochPub 0) ∧ ({ v with pub := 2 } : Serve).pub ≠ 0
    ∧ (∃ x ∈ (srv 1 [(0, [{ qry 0 0 .held [] 0 false with epoch := 0 }])]).queries, ∃ q ∈ x.2, q.epoch + 1 = rd s fEpochPub 0)
    ∧ (∀ p ∈ [((15 : Nat), (9 : BitVec 32))], invRejected { s with reports := [.invReject 15 9 .lsid] } [p.1] p.2 = true)
    ∧ schUp s = true ∧ invRejected s [15] 9 = false
    ∧ (let b := setCore 15 { Core.reset with queue := [{ desc0 with invSeq := 9 }] } s
      holdsPub b (pubCtx b) (15, 9) = true)
    ∧ svRules s false 32 3 3 = true ∧ svRules s true 32 3 3 = false ∧ svRules s true 35 3 3 = true ∧ svRules s false 32 3 1 = false
    ∧ bits 2000 0 16 = 2000 ∧ bits 1999 0 16 < 2000 ∧ oldestOp (r 1 0) 0 0 = some (o 1) ∧ ackTimeout (r 1 0) 0 0 = 13108 ∧ qpRings (r 1 0) 0 0 ≠ []
    ∧ retryCount (r 1 0) 0 0 = 2 ∧ (o 2).sends ≤ 2 ∧ 2 < (o 3).sends ∧ (r 1 13107).time < (o 1).sentAt + 13108 ∧ (o 1).sentAt + 13108 ≤ (r 1 13108).time ∧ linkUp (r 1 0) 0 = true ∧ (qpOf (r 1 0) 0 0).err = false := by
  decide +kernel

/-! ### Torus, rings, outside accesses, safety, power -/

/-- Port p in a state, at WIDTH and GROUPS, at a time. -/
def sPort (p st w g time : Nat) : State := { wr fState p st (wr fWidth p w (wr fGroups p g State.reset)) with time := time }
/-- TorusPortsTrainResizeAndFail: EN raised, RETRAIN of a DOWN port, EN lowered; healthy groups, all fenced; a lane of a group in use with others
healthy and none; a RESIZE at its limit and past it; each limit and a cycle before. -/
theorem witness_torus_ports :
    (schW 1).val.toNat.testBit 0 = true ∧ rdb State.reset fTpCtlEn 2 = false ∧ rdb (wr fTpCtlEn 2 1 (sPort 2 5 0 0 0)) fTpCtlEn 2 = true
    ∧ bit (schW 9).val.toNat 3 = true ∧ bit (schW 9).val.toNat 0 = true ∧ portState (sPort 2 5 0 0 0) 2 = 5 ∧ bit (schW 0).val.toNat 0 = false
    ∧ portState (sPort 2 1 0 0 0) 2 = 1 ∧ healthyGroups (sPort 2 1 0 0 0) 2 = [0, 1, 2, 3]
    ∧ healthyGroups (wr fGroupFence 2 15 (sPort 2 1 0 0 0)) 2 = []
    ∧ portLive (sPort 2 3 3 15 0) 2 = true ∧ portLive State.reset 2 = false ∧ bit (rd (sPort 2 3 3 15 0) fGroups 2) ((5 : Fin 16).val / 4) = true
    ∧ bit (rd (sPort 2 3 1 1 0) fGroups 2) ((5 : Fin 16).val / 4) = false ∧ (∃ n < 4, n ≠ 1 ∧ groupHealthy (sPort 2 3 3 15 0) 2 n = true)
    ∧ (∀ n < 4, n ≠ 1 → groupHealthy (wr fGroupFence 2 13 (sPort 2 3 1 2 0)) 2 n = false)
    ∧ (let one := wr fValid 0 1 (sPort 2 5 0 0 0)
      aloneOn one 2 = true ∧ aloneOn (wr fDym1 0 1 one) 2 = false ∧ aloneOn State.reset 2 = false)
    ∧ widthFor (healthyGroups (wr fGroupFence 2 15 (sPort 2 4 3 15 0)) 2).length = 0
    ∧ portState (sPort 2 4 3 15 32000) 2 = 4 ∧ (sPort 2 4 3 15 32000).time ≤ (tport (sPort 2 4 3 15 32000) 2).since + 32000
    ∧ (tport (sPort 2 4 3 15 32001) 2).since + 32000 < (sPort 2 4 3 15 32001).time
    ∧ (tport (sPort 2 1 0 0 400000000) 2).since + 400000000 ≤ (sPort 2 1 0 0 400000000).time
    ∧ (sPort 2 3 3 15 1599).time < (tport (sPort 2 3 3 15 1599) 2).goodSince + 1600 ∧ portState (sPort 2 3 3 15 1600) 2 = 3 := by decide +kernel
/-- R366: the lane's group leaves; the port re-sizes. -/
theorem test_lane_bad : after (.laneBadVerdict 2 5 .uncorrectable) (sPort 2 3 3 15 7)
    (fun t => portState t 2 = 4 ∧ rd t fUncorr 2 = 4 ∧ rd t fLaneBad 2 = 32) = true := by decide +kernel

/-- A torus flit of a header word and a payload. -/
def tflit (hd : Nat) (pay : Bytes) : Bytes :=
  let b := toLe 4 hd ++ slice pay 0 248
  b ++ toLe 4 (crc32c b)
/-- The header word: SEQ, TYPE, virtual lane. -/
def thd (seq typ vl : Nat) : Nat := seq + typ * 2 ^ 24 + vl * 2 ^ 28
/-- A transfer header of a KIND, job tag and target, with an answer's status. -/
def xhdr (kind tag : Nat) (tgt : Nat × Nat × Nat) (addr : Nat := 0) (epoch : Option Nat := none) : Bytes :=
  xferHdr kind epoch tag (1, 0, 0) tgt addr (zeros 12) 7
/-- Port 0 UP with a retry buffer, its ACK wait begun at 0 and eight replays, at a time. -/
def sRetry (n time : Nat) (got : Option (BitVec 12)) (w : Nat := 3) : State :=
  modPort 0 (fun r => { r with
    retry := [(0, ⟨0, 5, zeros 248⟩), (1, ⟨0, 5, zeros 248⟩)]
    replays := n
    gotReplay := got }) (sPort 0 3 w 15 time)
/-- TorusFlitsAreTakenInOrderOnce: good flits with the next SEQ, ahead and behind; a bad CRC; a reserved KIND and an ACK; the replay limit and a
cycle before; a replay request; eight replays at x16, at x4, with and without groups named; the neighbour's identity, and a job not started. -/
theorem witness_torus_flits : let f (seq : Nat) (k : Nat) := tflit (thd seq 5 0) (xhdr k 0 (0, 0, 0))
    let s := sPort 0 3 3 15 0
    let id := tflit (thd 0 6 0) (toLe 2 0 ++ [1, 0, 0, 1])
    let c := wr fDxm1 0 1 (sPort 0 2 3 15 0)
    (f 0 6).length = 256 ∧ flitGood (f 0 6) = true ∧ flitGood ((f 0 6).set 9 1) = false ∧ portState s 0 = 3
    ∧ bits (leNat ((f 0 6).take 4)) 24 4 = 5 ∧ (tport s 0).lastGood = 4095
    ∧ (BitVec.ofNat 12 (bits (leNat ((f 0 6).take 4)) 0 12) - ((tport s 0).lastGood + 1)).toNat = 0
    ∧ (BitVec.ofNat 12 (bits (leNat ((f 1 6).take 4)) 0 12) - ((tport s 0).lastGood + 1)).toNat = 1
    ∧ (BitVec.ofNat 12 (bits (leNat ((f 4095 6).take 4)) 0 12) - ((tport s 0).lastGood + 1)).toNat = 4095
    ∧ arrOf 0 0 (slice (f 0 9) 4 248) = none ∧ (arrOf 0 0 (slice (f 0 6) 4 248)).isSome = true ∧ s.peerLost = false
    ∧ (tport (sRetry 0 2098 none) 0).retry ≠ [] ∧ (tport (sRetry 0 2098 none) 0).ackSince + 2098 ≤ (sRetry 0 2098 none).time
    ∧ (sRetry 0 2097 none).time < (tport (sRetry 0 2097 none) 0).ackSince + 2098
    ∧ (tport (sRetry 0 0 (some 0)) 0).retry = [] ++ (0, ⟨0, 5, zeros 248⟩) :: [(1, ⟨0, 5, zeros 248⟩)]
    ∧ (tport (sRetry 8 2098 none) 0).gotReplay = none ∧ (tport (sRetry 8 2098 none) 0).ackSince + 2098 ≤ (sRetry 8 2098 none).time
    ∧ (tport (sRetry 8 0 (some 1)) 0).gotReplay ≠ none ∧ (tport (sRetry 8 0 none) 0).retry ≠ []
    ∧ neighbour (wr fDxm1 0 3 c) 0 = (1, 0, 0) ∧ neighbour (wr fDxm1 0 3 c) 1 = (3, 0, 0) ∧ (tport (sRetry 7 0 none) 0).replays < 8
    ∧ portState (sRetry 8 0 none) 0 = 3 ∧ 8 ≤ (tport (sRetry 8 0 none) 0).replays ∧ rd (sRetry 8 0 none 1) fWidth 0 = 1
    ∧ rd (sRetry 8 0 none) fWidth 0 ≠ 1 ∧ (∃ n < 4, groupHealthy (sRetry 8 0 none) 0 n = true ∧ (1 : BitVec 4).getLsbD n = false)
    ∧ portState c 0 = 2 ∧ flitGood id = true ∧ bits (leNat (id.take 4)) 24 4 = 6 ∧ fieldAt (slice id 4 248) 0 2 = jobTag c
    ∧ fieldAt (slice id 4 248) 5 1 = 1 ∧ neighbour c 0 = (1, 0, 0) ∧ c.job = none ∧ identOk (wr fJobTag 0 5 c) 0 (slice id 4 248) = false := by
  decide +kernel

/-- A zero block in transit. -/
def blk0 : Blk := ⟨zeros 2048, zeros 128, BitVec.ofNat 64 (makeTag 7 0 (crcOfTerm 0))⟩
/-- It lands. -/
theorem witness_blk0 : ∃ g, landCheck blk0 0 = .accepted g false := by
  obtain ⟨t, h, c⟩ : ∃ t, decodeTag blk0.tag.toNat = some (t, .none) ∧ tagCrc t = crcOfTerm 0 :=
    ⟨7 * 2 ^ 44 + crcOfTerm 0, by decide +kernel, by decide +kernel⟩
  exact ⟨_, land_of h (c.trans (zero_crc 0 _).symm)⟩
/-- Transfer of a KIND arrived on port 1, of job tag 5, for a package, with or without a block. -/
def arr (kind : Nat) (tgt : Nat × Nat × Nat) (b : Option Blk := none) (tag : Nat := 5) (e : Option Nat := none) : Arr :=
  ⟨1, 0, xhdr kind tag tgt 0x20000000000000 e, b, zeros 200, none⟩
/-- A package of a torus of four with job tag 5 bound, page 0 of context 0's understorey, one transfer arrived, a transaction of TXN 7. -/
def sArr (a : Arr) (t : Option Txn := none) : State :=
  { wr fDxm1 0 3 (wr fValid 0 1 (wr fJobTag 0 5 (wr fEpFloor 0 2 (sUnd pteHere)))) with
    arrived := [a]
    txns := match t with | some x => [(7, x)] | none => [] }
/-- A transaction of a KIND, sent, with a landing place or none. -/
def txn0 (kind : Nat) (dst : Option Loc) (c : CoreId := 0) : Txn := ⟨c, 0, kind, (1, 0, 0), 0, dst, none, none, none, none, none, true, 0⟩
/-- TorusTransfersAreAnsweredOnce: a transfer passing through, requests of another job, stale, and of a block of this half's understorey. -/
theorem witness_torus_requests : let w := arr 1 (0, 0, 0) (some blk0)
    let s := sArr w
    arrTurn (sArr (arr 6 (2, 0, 0))) 0 false = some (arr 6 (2, 0, 0)) ∧ route (sArr (arr 6 (2, 0, 0))) (2, 0, 0) = some 0
    ∧ arrTurn s 0 true = some w ∧ isRequest w.kind = true ∧ ofJob (sArr (arr 1 (0, 0, 0) (some blk0) 4)) (arr 1 (0, 0, 0) (some blk0) 4) = false
    ∧ ofJob s w = true ∧ staleReq s w = false ∧ staleReq s (arr 1 (0, 0, 0) (some blk0) 5 (some 1)) = true
    ∧ staleReq s (arr 1 (0, 0, 0) (some blk0) 5 (some 2)) = false ∧ (reqResolve w s).2 = .here (.und 0 5 0) 0
    ∧ (Loc.und 0 5 0).half = portHalf w.port ∧ w.kind = kWrite ∧ (reqResolve w s).1.storesWf = true := by decide +kernel
/-- Answers that match no transaction and one; an ABORT; memory held for 0 seconds and one. -/
theorem witness_torus_answers : let a := arr 6 (0, 0, 0)
    let r := arr 4 (0, 0, 0) (some blk0)
    let ab := arr 8 (0, 0, 0)
    let j : Job := ⟨0, zeros 256, true, [0], [], 0, none⟩
    let h : State := { wr fHoldS 0 1 (sArr a) with hold := some ⟨3, [1], 0, [1, 1], 1, 0⟩ }
    let x := txn0 kReadReq (some (.und 0 5 3))
    let g (n : Nat) := modCore 0 (fun y => { y with pend := [⟨0, .xce, 1, none, .fabric n⟩] }) (sArr r (some x))
    arrTurn (sArr a) 0 true = some a ∧ ofJob (sArr a) a = true ∧ a.kind = kAck ∧ txnOf (sArr a) a.txn = none
    ∧ txnOf (arrDone 0 a (sArr a (some (txn0 kWrite none)))) a.txn = some (txn0 kWrite none) ∧ a.arg 40 1 = 0 ∧ a.arg 41 1 = 0
    ∧ r.kind = kReadRsp ∧ txnOf (sArr r (some (txn0 kReadReq (some (.und 0 5 3))))) r.txn = some (txn0 kReadReq (some (.und 0 5 3)))
    ∧ (Loc.und 0 5 3).half = portHalf r.port ∧ ab.kind = kAbort ∧ abortsWaiting (sArr ab) = [ab]
    ∧ ({ sArr ab with job := some j } : State).peerLost = false ∧ (ctxSt (sArr ab) 0).live = true ∧ (ctxSt (sArr ab) 0).fault = none
    ∧ ({ h with time := 799999999 } : State).time < 0 + rd h fHoldS 0 * 800000000 ∧ 0 + rd h fHoldS 0 * 800000000 = 800000000
    ∧ h.storesWf = true ∧ schUp h = true ∧ txnPend (g 7) x r.txn < (core (g 7) 0).pend.length
    ∧ (core (g 8) 0).pend.length ≤ txnPend (g 8) x r.txn ∧ x.tries = 0 ∧ x.dst = some (.und 0 5 3) ∧ r.blk = some blk0
    ∧ coreHalf (txn0 kWrite none).core = portHalf a.port ∧ coreHalf (txn0 kWrite none 272).core ≠ portHalf a.port ∧ a.ride = none
    ∧ (1 : Nat) ∈ ({ h with rideDone := [1] } : State).rideDone ∧ (2 : Nat) ∉ ({ h with rideDone := [1] } : State).rideDone
    ∧ arrTurn (sArr { a with ride := some 1 }) 0 true = some { a with ride := some 1 } := by decide +kernel

/-- A job ring descriptor: number, KIND, FLAGS, tag, contexts, load list at window offset 1,024 with n entries. -/
def jdesc (seq kind tag n : Nat) : Bytes := toLe 4 seq ++ [BitVec.ofNat 8 kind, 0] ++ toLe 2 tag ++ toLe 2 1 ++ zeros 12 ++ [1, 0]
  ++ zeros 32 ++ toLe 8 1024 ++ toLe 4 n ++ zeros 188
/-- The device in service with ring 1 through handle 0, whose DB_COUNT is 1. -/
def sSvc : State :=
  { htPut 0 (toLe 8 7 ++ zeros 24) (wr fJrCtlEn 1 1 (wr fDbCount 1 1 State.reset)) with
    life := .up
    lands := ⟨some true, some true, some true⟩ }
/-- The device with a job of tag 5 running and n waiting, tags from 10 on. -/
def sBusy (n : Nat) : State :=
  { sSvc with
    job := some ⟨0, jdesc 0 1 5 1, true, [0], [], 0, none⟩
    waitJobs := (List.range n).map fun i => ⟨1, jdesc 0 1 (10 + i) 1⟩ }
/-- Submitter memory with a descriptor and one load entry of no block. -/
def smem (kind tag : Nat) (seq : Nat := 0) : Submem := [(0, jdesc seq kind tag 1), (1024, zeros 4 ++ toLe 7 0x20000000000000 ++ zeros 21)]
/-- JobRingCommandsAreServedInOrder: a START, one of another number, with a job running and 15 and 16 waiting; CANCEL of the running, the second
waiting and no job; RING_RESET with and without a serving record. -/
theorem witness_job_rings :
    (jdesc 0 1 5 1).length = 256 ∧ inService State.reset = false ∧ inService sSvc = true
    ∧ nextDesc sSvc 1 (smem 1 5) = some (jdesc 0 1 5 1) ∧ fieldAt (jdesc 0 1 5 1) 0 4 = rd sSvc fTaken 1
    ∧ nextDesc sSvc 1 (smem 1 5 9) = some (jdesc 9 1 5 1) ∧ fieldAt (jdesc 9 1 5 1) 0 4 ≠ rd sSvc fTaken 1
    ∧ fieldAt (jdesc 0 1 5 1) 4 1 = 1 ∧ sSvc.job = none ∧ sSvc.waitJobs = [] ∧ (sBusy 15).waitJobs.length < 16
    ∧ 16 ≤ (sBusy 16).waitJobs.length ∧ nextDesc (sBusy 2) 1 (smem 2 5) = some (jdesc 0 2 5 1)
    ∧ fieldAt (jdesc 0 2 5 1) 4 1 = 2 ∧ reservedZero (jdesc 0 2 5 1) = true ∧ fieldAt (jdesc 0 2 5 1) 10 1 = 0
    ∧ (sBusy 2).job.map (fun j => fieldAt j.desc 6 2) = some 5
    ∧ (sBusy 2).waitJobs.map (fun w => fieldAt w.desc 6 2) = [10, 11] ∧ fieldAt (jdesc 0 3 5 1) 4 1 = 3
    ∧ sSvc.serve = none ∧ fieldAt (jdesc 0 3 5 1) 10 1 < svNring (srv 1 []) := by decide +kernel
/-- R422: CANCEL of the second waiting job. -/
theorem test_cancel_waiting : after (.jobCancel 1 (smem 2 11)) (sBusy 2) (fun t => t.waitJobs.map (fun w => fieldAt w.desc 6 2) == [10]) = true := by
  decide +kernel
/-- A START of context 0 with one load entry, rejected when retired or out of range. -/
theorem witness_run_start : let b := jdesc 0 1 5 1
    let ctxs := ctxsOf (fieldAt b 8 2)
    let s1 : State := { sSvc with
      job := some ⟨1, b, false, ctxs, [], 0, none⟩
      iws := [] }
    rdb (wr fRetired 0 1 sSvc) fRetired 0 = true ∧ rdb sSvc fRetired 0 = false ∧ startOk b = true ∧ startOk (jdesc 0 1 0 1) = false
    ∧ fieldAt b 5 1 = 0 ∧ fieldAt b 68 4 = 0 ∧ fieldAt b 80 4 = 0 ∧ fieldAt b 92 4 = 0 ∧ fieldAt b 120 8 = 0 ∧ fieldAt b 19 1 = 0
    ∧ fieldAt b 20 1 = 0 ∧ fieldAt b 21 1 = 0 ∧ (∀ p < 6, rdb sSvc fTpCtlEn p = false) ∧ ctxs = [0] ∧ bit (fieldAt b 8 2) 0 = true
    ∧ (loadList ctxs false (smem 1 5) (fieldAt b 56 8) (fieldAt b 64 4) 0 (ctxs.foldl (fun t c => createCtx false c t) s1)).2 = none := by
  decide +kernel
/-- MQP_COMMIT and HT_COMMIT: a pinned entry, a malformed one, a good one. -/
theorem witness_commit : let st (v : BitVec 64) : State := { sSvc with htStage := [(4, v)] }
    let b (v : BitVec 64) : Bytes := (List.range 3).flatMap (fun k => toLe 8 (tget (st v).htStage (4 * 1 + k) 0).toNat) ++ toLe 8 0
    (schW 0).part = .full ∧ pinned sSvc 0 = true ∧ pinned (st 1) 1 = false ∧ (handleOf (b 0x301)).bad = true ∧ (handleOf (b 0x301)).valid = true
    ∧ (handleOf (b 1)).bad = false ∧ (handleOf (b 0x300)).valid = false ∧ (handleOf (b 0x300)).bad = true := by decide +kernel

/-- The device with inbound window 1: RAW or of images, any queue pair, key 9, over block 1 of page 0 of context 0's understorey. -/
def sIn (kind : Nat) (dbp : Nat := 0) : State :=
  { sSrv (srv 1 []) with iws := [(1, [BitVec.ofNat 8 kind, 7, 7, 0] ++ toLe 3 9 ++ toLe 1 dbp ++ toLe 7 0x20000000000800 ++ zeros 1
      ++ toLe 5 4096 ++ zeros 11)] }
/-- An access at an offset with a key. -/
def inb (key off : Nat) (face : Face := .cpa) : Inbound := ⟨face, 0, 1, key, off⟩
/-- OutsideAccessesReachOnlyTheirWindow: a key that matches and one that does not; 16 bytes that end the block; an aligned word. -/
theorem witness_inbound : let s := sIn 1
    let w := (inAllowed s (inb 9 2032) 16 .write).getD ⟨0, false, false, false, 0, 0, 0, 0, 0, 0, 0⟩
    let r := resolve (faceCore .cpa) w.ctx .write 0 (BitVec.ofNat 56 (w.dva + 2032)) s
    faceUp (inb 9 0).face 0 s = true ∧ inAllowed s (inb 8 0) 16 .write = none ∧ inAllowed s (inb 9 4081) 16 .write = none
    ∧ (inAllowed s (inb 9 2032) 16 .write).isSome = true ∧ (inAllowed s (inb 9 2032) 16 .read).isSome = true
    ∧ w.kind = 1 ∧ w.ctx = 0 ∧ (w.dva + 2032) % 2048 + 16 ≤ 2048 ∧ r.2 = .here (.und 0 5 1) 2032 ∧ fmtHeld r.1 (.und 0 5 1) = 7
    ∧ (inResolve (inb 9 8) w .write [w.dva + 8] s).2 = .ok [(.und 0 5 1, 8)] ∧ (inAllowed s (inb 9 8) 8 .atomic).isSome = true
    ∧ (inResolve (inb 9 8) w .write [w.dva + 8] s).1.storesWf = true ∧ (inb 9 0).win ≠ 0
    ∧ (Loc.und 0 5 1).half = faceHalf .cpa ∧ (Loc.und 0 5 1).half ≠ faceHalf .cpb ∧ faceUp .cpb 0 s = true
    ∧ (inAllowed s (inb 9 8 .cpb) 8 .atomic).isSome = true
    ∧ (let m : State := { s with mem := (sUnd pteAway).mem }
      (inAllowed m (inb 9 2032) 16 .write).isSome = true
      ∧ (inResolve (inb 9 2032) w .write ((inPieces w 2032 16).map (·.1)) m).2 = .absent 0 0
      ∧ (inResolve (inb 9 2032) w .read ((inPieces w 2032 16).map (·.1)) m).2 = .absent 0 0) := by decide +kernel
/-- The block that the access reads is fetched. -/
theorem witness_inbound_fetch : let r := resolve 0 0 .write 0 (BitVec.ofNat 56 (0x20000000000800 + 2032)) (sIn 1)
    blkFetch 0 (.und 0 5 1) r.1 = (r.1, .ok (zeroMoved (Loc.und 0 5 1).key)) :=
  blkFetch_unlisted 0 (by decide +kernel) (by decide +kernel) (by decide +kernel) (by decide +kernel)
/-- A write with immediate that lands through a window with a doorbell page. -/
theorem witness_write_immediate : let s := sIn 1 1
    (match inWrite (inb 9 0) [] s with | (_, .done) => true | _ => false) = true ∧ ((inWin s 1).map (·.dbp)) = some 1 := by decide +kernel
/-- Acknowledgements, frames, CNPs, and the steward link. -/
theorem witness_ports : let o : RdmaOp := ⟨4, 0, 0, 0, 0, 0, 8, [], 0, .report, 1, 0, 0⟩
    let s := sIn 1
    linkUp s 0 = true ∧ linkUp { s with cpUp := [false, true] } 0 = false ∧ coreHalf 0 = extHalf 0
    ∧ oldestOp { s with rdma := [{ o with use := .coreRead 0 0 [.leaf 0 0] }] } 0 0 = some { o with use := .coreRead 0 0 [.leaf 0 0] }
    ∧ oldestOp s 0 0 = none ∧ oldestOp { s with rdma := [o] } 0 0 = some o ∧ o.use = .report ∧ qpLive s 0 0 = true ∧ qpLive s 0 1 = false
    ∧ (⟨true, 0, 5, false⟩ : Frame).op = 5 ∧ (qpOf s 0 0).cnpSent = none ∧ bit (fieldAt (qpOf s 0 0).entry 1 1) 2 = false
    ∧ (qpOf s 0 0).halved = 0 ∧ sSvc.life ≠ .off ∧ sSvc.life ≠ .inReset := by decide +kernel

/-- SafetyMonitorsAndLightLoss: a monitor entry at and past 39,984 cycles; a test an hour after the last and a cycle before; the test write of
LAND_TEST; its end at and before 80,000 cycles. -/
theorem witness_safety : let s (t : Nat) : State := { sSvc with
      monitors := [⟨0, 1, 0, 0⟩, ⟨1, 2, 0, 0⟩]
      landTest := some 0
      time := t }
    (∀ e ∈ (s 39984).monitors, e.half = 1 → e.ring = 2 → (s 39984).time ≤ e.tdb + 39984)
    ∧ (s 39985).monitors = [⟨0, 1, 0, 0⟩] ++ ⟨1, 2, 0, 0⟩ :: [] ∧ (∀ x ∈ [(⟨0, 1, 0, 0⟩ : MonEntry)], x.half = 1 → x.ring = 2 → (39985 : Nat) ≤ x.tdb + 39984)
    ∧ (s 0).lands.ready ≠ none ∧ (s 2879999999999).time < (s 0).monTest.getD 1 0 + 3600 * 800000000
    ∧ (s 0).monTest.getD 1 0 + 3600 * 800000000 ≤ (s 2880000000000).time ∧ (proc (s 0) 0).restarting = false
    ∧ (schW (2 ^ 17)).val.toNat.testBit 17 = true ∧ rdb (s 0) fLandTest 0 = false ∧ (s 79999).time < 0 + 80000
    ∧ 0 + 80000 ≤ (s 80000).time ∧ portHalf 2 = 1 ∧ portState (sPort 2 3 3 15 0) 2 = 3 := by decide +kernel

/-- The device up with grove 3 at a divider under limits 24 to 40. -/
def sFreq (k : Nat) (p : PwGrove) : State := { wr fKNow 3 k (wr fFminK 3 24 (wr fFmaxK 3 40 sSvc)) with pw := [(3, p)] }
/-- ClocksStepStretchAndHold: at its ceiling, below it by more than 8 and by less, above a cap, with the droop line asserted, PWR restarting. -/
theorem witness_clocks : let top (s : State) := min (ceilK s 3) (min (pwGrove s 3).capK (pwGrove s 3).thermK)
    let c : PwGrove := { PwGrove.reset with capK := 30 }
    pwrRuns State.reset 0 = false ∧ pwrRuns (sFreq 24 c) 0 = true ∧ top (sFreq 40 PwGrove.reset) = 40 ∧ top (sFreq 24 PwGrove.reset) = 40
    ∧ top (sFreq 40 c) = 30 ∧ top (sFreq 35 { c with droop := true }) ≠ 35 ∧ (pwGrove (sFreq 24 { c with held := true }) 3).held = true
    ∧ (pwGrove (sFreq 24 { c with rail := true }) 3).rail = true ∧ rdb (wr fStretch 3 1 (sFreq 24 c)) fStretch 3 = true
    ∧ floorK (sFreq 24 c) 3 = 24 ∧ (pwGrove (sFreq 24 { c with droop := true }) 3).droop = true ∧ (pwGrove (sFreq 24 c) 3).droop = false := by
  decide +kernel
/-- R481: one step is at most 8. -/
theorem test_freq_step : after (.freqDecision 3) (sFreq 24 PwGrove.reset) (fun t => rd t fKNow 3 = 32) = true
    ∧ after (.freqDecision 3) (sFreq 40 { PwGrove.reset with capK := 30 }) (fun t => rd t fKNow 3 = 32) = true := by decide +kernel
/-- PowerCapsHeatAndPhaseWindows: above and below PCAP with groves above their floors; PWR restarting; each sensor limit; legal limits; windows
that are due, not yet, and over. -/
theorem witness_power : let s := wr fPcap 0 1000 (sFreq 40 PwGrove.reset)
    let r : State := { s with procs := [(1, { Proc.reset with restarting := true })] }
    let w : Guard := ⟨3, 10, 20, false⟩
    let at_ (t : Nat) : State := { wr fPcap 0 1000 (sFreq 40 { PwGrove.reset with windows := [w] }) with time := t }
    pwrRuns s 0 = true ∧ rd s fPcap 0 < 1001 ∧ floorK s 3 < targetK s 3 ∧ 100 * 979 < 98 * rd s fPcap 0
    ∧ (proc r (1 + 0)).restarting = true ∧ (proc s (1 + 0)).restarting = false ∧ (1000 : Nat) ≤ rd s fPcap 0
    ∧ (List.replicate 32 111).length = 32 ∧ (List.replicate 16 99).length = 16 ∧ s.life = .up ∧ (112 : Nat) ∈ (List.replicate 31 0 ++ [112]) ++ []
    ∧ (∀ v ∈ List.replicate 32 111 ++ List.replicate 16 111, v < 112) ∧ (∀ v ∈ List.replicate 16 99, v < 100)
    ∧ (List.replicate 32 105)[3]? = some 105 ∧ (∀ v ∈ List.replicate 32 101 ++ List.replicate 16 101, v ≤ 101)
    ∧ bits (24 + 40 * 2 ^ 8) 0 6 = 24 ∧ bits (24 + 40 * 2 ^ 8) 8 6 = 40 ∧ 40 ≤ gradeMax s
    ∧ (∀ x ∈ (pwGrove (at_ 9) 3).windows, x.isOpen = true ∨ (at_ 9).time < x.opens) ∧ (pwGrove (at_ 10) 3).windows = [] ++ w :: []
    ∧ w.isOpen = false ∧ w.opens ≤ (at_ 10).time ∧ decide ((at_ 20).time < w.closes) = false := by decide +kernel

/-! ### Boot, firmware, clearing, set-up, invariants -/

/-- The key pair of private key 1: its public key is the base point of P-384. -/
def pubKey : Bytes := toBe 48 p384G.1 ++ toBe 48 p384G.2
/-- What the fuses hold for it: SHA-384 of the key. -/
def pubHash : BitVec 384 := 0x654b811f19e108eab70600d86aa5f04bfad296f7d87d69500977a9c8d122aa9478e155e5cfb05280eb82b571b14d9da1
/-- r of a signature with nonce 2. -/
def sigR : Bytes := toBe 48 0x08d999057ba3d2d969260045c55b97f089025959a6f434d651d207d19fb96e9e4fe0e86ebe0e64f85b96a9c75295df61
/-- The entry of a component of no bytes. -/
def compEnt (id : Nat) : Bytes := toLe 1 id ++ zeros 3 ++ toLe 4 4096 ++ zeros 8
  ++ toBe 48 0x38b060a751ac96384cd9327eb1b1e36a21fdb71114be07434c0cc7bf63f6e1da274edebfe76f65fbd51ad2f14898b95b
/-- A manifest of SVN 3 and BUILD 1 under key slot 0 that revokes slot 1, with seven components of no bytes (Table 16.2). -/
def man : Bytes := toLe 4 0x4D4E4654 ++ toLe 2 1 ++ toLe 2 2 ++ toLe 2 1 ++ toLe 4 3 ++ toLe 4 1 ++ [0, 2, 7] ++ zeros 11 ++ pubKey
  ++ compEnt 1 ++ compEnt 2 ++ compEnt 3 ++ compEnt 4 ++ compEnt 5 ++ compEnt 6 ++ compEnt 7 ++ zeros 64 ++ sigR
  ++ toBe 48 0xafb3c84f783b66b159d7a007e4d20f6f16535c5aa6055aeae35f5242069c31bf63cd983f239b2f5942614df43ba51f1c ++ zeros 3360
/-- SHA-384 and ECDSA on P-384 (R504, R523), from values computed outside the model: the digest of no bytes and of the key; the manifest's
signature. -/
theorem test_sha384 : sha384 [] = slice (compEnt 1) 16 48 ∧ hashBits (sha384 pubKey) = pubHash := by decide +kernel
/-- The signature. -/
theorem test_ecdsa : ecdsaVerify (slice man 32 96) (slice man 640 96) (sha384 (slice man 0 640)) = true := by decide +kernel
/-- The package before power-good with that image in slot A, slot B erased, and the key's hash in the fuses. -/
def sImage : State :=
  let s : State := { State.reset with
    fuses := { State.reset.fuses with
      keys := [pubHash, 0, 0, 0]
      debugKey := pubHash
      svnMin := 2 } }
  flashWrite 0 man s
/-- PowerGoodBootsAndPowerLossForgets: no valid image; the image of slot A chosen, with no history. -/
theorem witness_power_good : State.reset.life = .off ∧ rd State.reset fFailStep 0 = 0 ∧ chooseImage State.reset = none
    ∧ chooseImage sImage = some (1, 0) ∧ (healthOf sImage).retired = none ∧ (healthOf sImage).clearing = false
    ∧ sImage.histWait = [] ∧ sImage.life = .off ∧ rd sImage fFailStep 0 = 0 ∧ rdb sImage fHlSticky 0 = false ∧ rdb sImage fRetired 0 = false
    ∧ sSvc.life ≠ .off ∧ sSvc.life ≠ .inReset ∧ (⟨1, false, [], 0, false⟩ : BootOutcome).stackFail ≠ 0
    ∧ ({ sImage with pwrOk := true } : State).pwrOk = true ∧ State.reset.pwrOk = false := by decide +kernel
/-- R501, R503: the boot ends READY at step 12. -/
theorem test_boot : after (.powerGood ⟨0, false, [], 0, false⟩) sImage
    (fun t => t.lands.ready = some true ∧ rd t fStep 0 = 12 ∧ rd t fSvn 6 = 3) = true := by decide +kernel

/-- The package up, running from slot A. -/
def sUp : State := { wr fBootStatSlot 0 1 sImage with life := .up, lands := ⟨some true, some true, some true⟩ }
/-- A processor of it restarts. -/
def sRst (p : Nat) : State := { sUp with procs := [(p, { Proc.reset with restarting := true })] }
/-- FirmwareCommitsRestartsAndUpdates: the SVN to commit; processors that run and restart; CR_CTL of a legal and an illegal processor; SEC's own
image; an update image that is valid and one that is not; a switch in and out of turn, quiescent and not, with a handover taken and not. -/
theorem witness_firmware_commit : (schW 128).val.toNat.testBit 7 = true ∧ rdb sUp fSvnCommit 0 = false
    ∧ manSvn (manifest (flashImg sUp (rd sUp fBootStatSlot 0))) = 3 ∧ (proc sUp 0).restarting = false ∧ (proc (sRst 0) 0).restarting = true
    ∧ switching sUp 2 = false ∧ switching { sUp with update := some ⟨2, 1, 2, switchOrder⟩ } 2 = true
    ∧ (schW (2 ^ 6 + 5)).val.toNat.testBit 6 = true ∧ bits (schW (2 ^ 6 + 36)).val.toNat 0 6 = 36 ∧ rdb sUp fReq 0 = false ∧ sUp.job = none
    ∧ (∀ d < 16, mcWaiting (sRst 3) d = []) ∧ (sRst 0).histWait = []
    ∧ secOk (sRst 0) = true ∧ secOk State.reset = false ∧ (proc (sRst 5) 5).restarting = true ∧ sUp.serve = none := by decide +kernel
/-- The update's part. -/
theorem witness_update : let s := htPut 0 (toLe 8 3 ++ zeros 24) sUp
    let u := (regPut .updCtl 0 (schW (2 ^ 12)) s).1
    let n : Update := ⟨2, 1, 2, [4]⟩
    let v : State := { sUp with update := some n }
    (schW (2 ^ 12)).val.toNat.testBit 12 = true ∧ rdb s fStart 0 = false ∧ rdb s fBusy 0 = false
    ∧ updReadable u (manifest (updImg u [(0, man.take 736)])) = true ∧ imgValid u (updImg u [(0, man.take 736)]) = true
    ∧ imgValid u (updImg u []) = false ∧ n.left.head? = some 4 ∧ quiescent v 4 = true ∧ quiescent (sRst 4) 4 = false
    ∧ handoverOk n (handover v 4 [1, 2]) = true ∧ handoverOk ⟨2, 3, 4, [4]⟩ (handover v 4 [1, 2]) = false := by decide +kernel
/-- R506: SVN_MIN rises to 3 and key slot 1 is revoked. -/
theorem test_svn_commit : after (.svnCommit (schW 128)) sUp (fun t => t.fuses.svnMin = 3 ∧ t.fuses.keyRev = 2) = true := by decide +kernel

/-- An opening token of scope 1 for device 0 and nonce 0, signed with the key. -/
def tok : Bytes := toLe 4 0x4F50454E ++ [1, 0, 0, 0] ++ zeros 16 ++ zeros 32 ++ pubKey ++ sigR
  ++ toBe 48 0x85502d094cdc6f42409b164ec32dbe810f917607dff947bf43d567d466bfffd4139c76902259c15e44cf5b1cc1df6f76 ++ zeros 264
/-- FirebreakHalfLossAndClearing: an end without a good flit for 1,600 cycles and 1,599; a raised firebreak with one loss within a day and two;
a half rebooting; tokens that pass and fail; a clearing, and one that an update keeps waiting. -/
theorem witness_firebreak : let s (t : Nat) : State := { sUp with time := t }
    let f (l : List Nat) : State := modRide 0 (fun r => { r with down := true }) { sUp with halfPh := .firebreak, losses := l, time := 69120000000000 }
    sUp.ride.length = 2 ∧ sUp.life = .up ∧ (rideEnd (s 1600) 1).down = false ∧ (rideEnd (s 1600) 1).goodSince + 1600 ≤ (s 1600).time
    ∧ (s 1599).time < (rideEnd (s 1599) 1).goodSince + 1600 ∧ (f []).halfPh = .firebreak ∧ (rideEnd (f []) 0).down = true
    ∧ HalfAnswer.silent ≠ HalfAnswer.clockedOutOfReset
    ∧ ((f [0, 1]).losses.filter fun x => (f []).time < x + 86400 * 800000000).length = 1 ∧ sUp.halfPh ≠ .rebooting
    ∧ ({ sUp with halfPh := .rebooting } : State).halfPh = .rebooting ∧ (zeros 512).length = 512 ∧ tok.length = 512 ∧ sUp.clearing = none
    ∧ (proc sUp 0).restarting = false ∧ tokenOk sUp tok = true ∧ tokenOk sUp (tok.set 5 1) = false
    ∧ ({ sUp with clearing := some 1 } : State).update = none := by decide +kernel
/-- Core 0 of which the VXE waits for a time, its other engines finished, in a live context. -/
def sStill (begin_ : Nat) (stir : Table Nat := []) : State :=
  modCtx 0 (fun x => { x with live := true })
    (modCore 0 (fun x => { x with stir := stir }) <| modCore 0 (fun x => allEngines.foldl (fun y e => if e = .vxe then y.setEng .vxe { y.eng .vxe with wait := some { waitOn none false false with begin := begin_ } }
      else y.setEng e ⟨{ ctl0 with part := .finished }, none, none⟩) x) { sOp .vxe 0 (opWait 1 0 false) with time := 65536 })
/-- SetupAccessesAndStandstill: offsets unmapped, misaligned, beyond; SAFE-like registers without an operation, owned by a job; SAVE_PG at its
bound; a grove whose engine has waited 65,536 cycles and one less; a round of reports complete, confirmed, broken. -/
theorem witness_setup : let j : State := { State.reset with job := some ⟨0, [], true, [2], [], 0, none⟩ }
    let w (p : Path) (q : Part) : RegWr := ⟨p, q, 0xFF⟩
    let c : State := modGrove 0 (fun x => { x with quiet := [(0, 65536)] }) (sStill 0)
    regAt 0x20 = none ∧ (0x1001 : Nat) % 8 ≠ 0 ∧ regAt (RegKind.logIdx.off 0) = some (.logIdx, 0)
    ∧ regAt (RegKind.extWait.off 2) = some (.extWait, 2) ∧ jobOwned j .extWait 2 = true ∧ jobOwned State.reset .extWait 2 = false
    ∧ ownedChange .extWait (w .i3c0 .full) (regRead j .extWait 2) = true ∧ (w .i3c1 .low).part ≠ .full
    ∧ bits 239 0 8 ≤ 239 ∧ ¬bits 240 0 8 ≤ 239 ∧ ((groveCores 0).all fun x => coreStill (sStill 0) 0 65536 x) = true
    ∧ coreStill (sStill 1) 0 65536 0 = false ∧ coreStill (sStill 0 [(0, 1)]) 0 65536 0 = false ∧ gstUp (sStill 0) 0 = true ∧ schUp c = true ∧ allReported (sStill 0) 0 = false ∧ allReported c 0 = true ∧ (ctxSt c 0).fault = none
    ∧ (ctxSt c 0).live = true ∧ waitGraph c 0 ≠ [] ∧ inFlight c 0 = false ∧ (∀ g < 32, confirms c 0 g = true)
    ∧ confirms (modGrove 0 (fun x => { x with quiet := [(0, 65535)] }) c) 0 0 = false := by decide +kernel

/-- StreamWordsDecodeAndEncodeAgree: an operation that is well formed, its word. -/
theorem witness_stream_words : (SOp.wf 0xFFFF .nop = true) ∧ decodeStream (encodeStream 9 (.signal (arS 0) 1)) = some (9, .signal (arS 0) 1) := by
  decide +kernel
/-- GuardCorrectsOneFlipAndFindsTwo: tag contents at their bound. -/
theorem witness_guard_tag : (2 ^ 48 - 1 : Nat) < 2 ^ 48 ∧ decodeTag (Nat.xor (guardOf 5 * 2 ^ 56 + 5) (2 ^ 63)) = some (5, .single) := by decide +kernel
/-- EveryStepKeepsTheStoresCanonical, NoStepWeakensTheFuses: the stores after reset and after a write; a step that answers a next state. -/
theorem witness_invariants : State.reset.storesWf = true ∧ (memWrite 5 [1, 0, 2] State.reset).storesWf = true
    ∧ (match step { sUp with pending := [.svnCommit (schW 128)] } with | .next t => t.fuses.svnMin.toNat | _ => 0) = 3 := by decide +kernel

end SliceTests
end

section
/-! SUPPORT. The ride's transmitter (spec/01 R34 to R40): what it sends at one flit time, what an acknowledgement frees,
and how a replay begins. -/

namespace Sys2Proof.Machine

/-! ### Commands and the ride end -/

/-- A change of a ride end is the change of the end as it stands. -/
theorem modRide_congr {h : Nat} {f g : RideEnd → RideEnd} {s : State} (e : f (rideEnd s h) = g (rideEnd s h)) :
    modRide h f s = modRide h g s := by
  unfold modRide; rw [e]

/-- The dispatch of RIDE_FLIT_TRANSMIT. -/
theorem exec_rideFlitTransmit (h : Half) (s : State) : exec (.rideFlitTransmit h) s = execRideFlitTransmit h s := rfl

/-- The dispatch of RIDE_REPLAY_REQUEST. -/
theorem exec_rideReplayRequest (h : Half) (s : State) : exec (.rideReplayRequest h) s = execRideReplayRequest h s := rfl

/-- The dispatch of RIDE_ACK_TIMEOUT. -/
theorem exec_rideAckTimeout (h : Half) (s : State) : exec (.rideAckTimeout h) s = execRideAckTimeout h s := rfl

/-! ### The flit that goes next (R35) -/

/-- The first entry present is the one at `k` when those below `k` are absent. -/
theorem firstSome_map_range {α : Type} {g : Nat → Option α} {a : α} {k n : Nat} (hk : k < n)
    (low : ∀ c < k, g c = none) (hg : g k = some a) : firstSome ((List.range n).map g) = some a := by
  induction n generalizing g k with
  | zero => exact absurd hk (Nat.not_lt_zero k)
  | succ n ih =>
    rw [List.range_succ_eq_map, List.map_cons, List.map_map]
    cases k with
    | zero => rw [hg, firstSome]
    | succ k =>
      rw [low 0 (Nat.succ_pos k), firstSome]
      exact ih (Nat.lt_of_succ_lt_succ hk) (fun c hc => low (c + 1) (Nat.succ_lt_succ hc)) hg

/-- With nothing ready no flit goes. -/
@[simp] theorem ridePick_nil : ridePick [] = none := rfl

/-- The flit picked: no class below its own is present, and no flit before it is of its class. -/
theorem ridePick_append {pre post : List RideFlit} {f : RideFlit} (hpre : ∀ g ∈ pre, f.cls.val < g.cls.val)
    (hpost : ∀ g ∈ post, f.cls.val ≤ g.cls.val) : ridePick (pre ++ f :: post) = some f := by
  have lower : ∀ c < f.cls.val, (pre ++ f :: post).find? (fun g => g.cls.val == c) = none := by
    intro c hc
    rw [List.find?_eq_none]
    intro g hg
    have hle : f.cls.val ≤ g.cls.val := by
      rcases List.mem_append.mp hg with hg | hg
      · exact (hpre g hg).le
      · rcases List.mem_cons.mp hg with rfl | hg
        · exact le_rfl
        · exact hpost g hg
    simp only [beq_iff_eq]
    omega
  have own : (pre ++ f :: post).find? (fun g => g.cls.val == f.cls.val) = some f := by
    have skip : pre.find? (fun g => g.cls.val == f.cls.val) = none := by
      rw [List.find?_eq_none]
      intro g hg
      simpa using Ne.symm (hpre g hg).ne
    simp [List.find?_append, skip]
  exact firstSome_map_range f.cls.isLt lower own

/-- Taking the picked flit out of the ready list. -/
theorem erase_append_of_cls_lt {pre post : List RideFlit} {f : RideFlit} (hpre : ∀ g ∈ pre, f.cls.val < g.cls.val) :
    (pre ++ f :: post).erase f = pre ++ post := by
  have hf : f ∉ pre := fun hf => lt_irrefl _ (hpre f hf)
  rw [List.erase_append_right _ hf, List.erase_cons_head]

/-! ### One flit time -/

section
variable {r : RideEnd}

/-- With nothing to resend and room in the retry buffer the picked flit goes out, and is kept until it is acknowledged
(R35, R37). -/
theorem rideTransmit_ready (hdown : r.down = false) (hask : r.askReplay = false) (hres : r.resend = none)
    (hroom : r.retry.length < 512) {f : RideFlit} (hpick : ridePick r.ready = some f) :
    rideTransmit r = { ridePut r r.nextSeq f with
      ready := r.ready.erase f
      nextSeq := r.nextSeq + 1
      retry := r.retry ++ [(r.nextSeq, f)] } := by
  simp [rideTransmit, hdown, hask, hres, Nat.not_le.mpr hroom, hpick]

/-- With nothing to resend, and nothing ready or no room in the retry buffer, an idle flit goes out (R34, R37). -/
theorem rideTransmit_idle (hdown : r.down = false) (hask : r.askReplay = false) (hres : r.resend = none)
    (hidle : 512 ≤ r.retry.length ∨ r.ready = []) : rideTransmit r = rideIdle r := by
  rcases hidle with hfull | hnone
  · simp [rideTransmit, hdown, hask, hres, hfull]
  · simp [rideTransmit, hdown, hask, hres, hnone]

/-- Under a resend the retry buffer's entry goes out again under its own SEQ (R39). -/
theorem rideTransmit_resend (hdown : r.down = false) (hask : r.askReplay = false) {i : Nat} (hres : r.resend = some i)
    {q : BitVec 12} {f : RideFlit} (hentry : r.retry[i]? = some (q, f)) :
    rideTransmit r = { ridePut r q f with resend := if i + 1 < r.retry.length then some (i + 1) else none } := by
  simp [rideTransmit, hdown, hask, hres, hentry]

end

/-- RIDE_FLIT_TRANSMIT changes the ride end as a flit time does, but for the time from which an acknowledgement is
awaited. -/
theorem exec_rideFlitTransmit_since (h : Half) (s : State) :
    ∃ since : Nat,
      exec (.rideFlitTransmit h) s = .next (modRide h (fun r => { rideTransmit r with ackSince := since }) s) := by
  refine ⟨if (rideEnd s h).retry.isEmpty && !(rideTransmit (rideEnd s h)).retry.isEmpty then s.time
    else (rideTransmit (rideEnd s h)).ackSince, ?_⟩
  rw [exec_rideFlitTransmit, execRideFlitTransmit]
  congr 1
  apply modRide_congr
  dsimp only
  split <;> rfl

/-- A flit time that leaves the retry buffer is all that RIDE_FLIT_TRANSMIT does. -/
theorem exec_rideFlitTransmit_of_retry_eq {h : Half} {s : State}
    (hretry : (rideTransmit (rideEnd s h)).retry = (rideEnd s h).retry) :
    exec (.rideFlitTransmit h) s = .next (modRide h rideTransmit s) := by
  rw [exec_rideFlitTransmit, execRideFlitTransmit]
  congr 1
  apply modRide_congr
  simp [hretry]

/-! ### Acknowledgement and replay (R37, R39, R40) -/

/-- An ACK that names no entry frees nothing. -/
theorem rideAck_of_forall_ne {now : Nat} {a : BitVec 12} {r : RideEnd} (hne : ∀ p ∈ r.retry, p.1 ≠ a) :
    rideAck now a r = r := by
  have hnone : r.retry.findIdx? (fun p => p.1 == a) = none := by
    rw [List.findIdx?_eq_none_iff]
    intro p hp
    simpa using hne p hp
  rw [rideAck, hnone]

/-- An ACK frees the retry buffer up to the first entry of its SEQ, and the replays count from none. -/
theorem rideAck_of_retry_eq {now : Nat} {a : BitVec 12} {r : RideEnd} {old new : List (BitVec 12 × RideFlit)}
    {g : RideFlit} (hretry : r.retry = old ++ (a, g) :: new) (hold : ∀ p ∈ old, p.1 ≠ a) :
    rideAck now a r = { r with
      retry := new, resend := r.resend.map (· - (old.length + 1)), replays := 0, ackSince := now } := by
  have hskip : old.findIdx? (fun p => p.1 == a) = none := by
    rw [List.findIdx?_eq_none_iff]
    intro p hp
    simpa using hold p hp
  have hfound : r.retry.findIdx? (fun p => p.1 == a) = some old.length := by
    simp [hretry, List.findIdx?_append, hskip, List.findIdx?_cons]
  have hdrop : r.retry.drop (old.length + 1) = new := by
    rw [hretry, ← List.drop_drop, List.drop_left, List.drop_one, List.tail_cons]
  simp only [rideAck, hfound, hdrop]

/-- A replay begins at the oldest flit and counts against it. -/
theorem rideReplay_of_lt {now : Nat} {r : RideEnd} (hretry : r.retry ≠ []) (hlt : r.replays < 8) :
    rideReplay now r = { r with
      resend := some 0, replays := r.replays + 1, ackSince := now, gotReplay := none } := by
  simp [rideReplay, hretry, Nat.not_le.mpr hlt]

/-- After eight replays of the oldest flit there is no ninth. -/
theorem rideReplay_of_le {now : Nat} {r : RideEnd} (hretry : r.retry ≠ []) (hle : 8 ≤ r.replays) :
    rideReplay now r = r := by
  simp [rideReplay, hretry, hle]

/-- RIDE_ACK_TIMEOUT at the limit begins a replay. -/
theorem exec_rideAckTimeout_of_le {h : Half} {s : State} (hretry : (rideEnd s h).retry ≠ [])
    (hlimit : (rideEnd s h).ackSince + 512 ≤ s.time) :
    exec (.rideAckTimeout h) s = .next (modRide h (rideReplay s.time) s) := by
  simp [exec_rideAckTimeout, execRideAckTimeout, rideAckLimit, hretry, hlimit]

/-- RIDE_ACK_TIMEOUT before the limit changes nothing. -/
theorem exec_rideAckTimeout_of_lt {h : Half} {s : State} (hlimit : s.time < (rideEnd s h).ackSince + 512) :
    exec (.rideAckTimeout h) s = .next s := by
  simp [exec_rideAckTimeout, execRideAckTimeout, rideAckLimit, Nat.not_le.mpr hlimit]

/-- RIDE_REPLAY_REQUEST with a request received takes its ACK and begins a replay. -/
theorem exec_rideReplayRequest_of_some {h : Half} {s : State} {a : BitVec 12} (hgot : (rideEnd s h).gotReplay = some a) :
    exec (.rideReplayRequest h) s = .next (modRide h (fun r => rideReplay s.time (rideAck s.time a r)) s) := by
  rw [exec_rideReplayRequest, execRideReplayRequest, hgot]

/-! ### The statements -/

/-- Settles O2: the pick is the ready flit that the statement names, and each of the three cases is one branch of a flit
time. -/
theorem rideTransmitterServesClassesInOrder : Obligations.RideTransmitterServesClassesInOrder := by
  unfold Obligations.RideTransmitterServesClassesInOrder
  intro h s hdown hask
  refine ⟨?ready, ?idle, ?resend⟩
  case ready =>
    intro pre post f hres hroom hready hpre hpost
    have hpick : ridePick (rideEnd s h).ready = some f := hready ▸ ridePick_append hpre hpost
    obtain ⟨since, he⟩ := exec_rideFlitTransmit_since h s
    refine ⟨since, he.trans (congrArg _ (modRide_congr ?_))⟩
    rw [rideTransmit_ready hdown hask hres hroom hpick, hready, erase_append_of_cls_lt hpre, ridePut]
  case idle =>
    intro hres hidle
    have ht := rideTransmit_idle hdown hask hres hidle
    have he := exec_rideFlitTransmit_of_retry_eq (h := h) (s := s) (by rw [ht, rideIdle, ridePut])
    exact ⟨(rideEnd s h).nextSeq - 1, he.trans (congrArg _ (modRide_congr (by rw [ht, rideIdle, ridePut]; rfl)))⟩
  case resend =>
    intro i q f hres hentry
    have ht := rideTransmit_resend hdown hask hres hentry
    have he := exec_rideFlitTransmit_of_retry_eq (h := h) (s := s) (by rw [ht, ridePut])
    exact he.trans (congrArg _ (modRide_congr (by rw [ht, ridePut])))

/-- Settles O4: a replay after the limit, or on a request once its ACK has freed what it names. -/
theorem rideReplayResendsFromTheOldest : Obligations.RideReplayResendsFromTheOldest := by
  unfold Obligations.RideReplayResendsFromTheOldest
  intro h s hretry
  refine ⟨?timeout, ?spent, exec_rideAckTimeout_of_lt, ?request, ?requestFrees⟩
  case timeout =>
    intro hlimit hlt
    exact ⟨s.time, (exec_rideAckTimeout_of_le hretry hlimit).trans
      (congrArg _ (modRide_congr (rideReplay_of_lt hretry hlt)))⟩
  case spent =>
    intro hle
    rcases lt_or_ge s.time ((rideEnd s h).ackSince + 512) with hlimit | hlimit
    · exact .inr (exec_rideAckTimeout_of_lt hlimit)
    · exact .inl ((exec_rideAckTimeout_of_le hretry hlimit).trans
        (congrArg _ (modRide_congr (rideReplay_of_le hretry hle))))
  case request =>
    intro a hgot hne hlt
    refine ⟨s.time, (exec_rideReplayRequest_of_some hgot).trans (congrArg _ (modRide_congr ?_))⟩
    rw [rideAck_of_forall_ne hne, rideReplay_of_lt hretry hlt]
  case requestFrees =>
    intro a old new g hgot hsplit hold hnew
    refine ⟨s.time, (exec_rideReplayRequest_of_some hgot).trans (congrArg _ (modRide_congr ?_))⟩
    rw [rideAck_of_retry_eq hsplit hold, rideReplay_of_lt hnew (Nat.succ_pos 7)]

end Sys2Proof.Machine
end

section
/-! SUPPORT. The register and counter instructions at a repeat, and the chunk boundary (spec/04 R131, R137, R138; spec/05
R158, R164, R165). -/

namespace Sys2Proof.Machine

/-! ### Counters (R137) -/

/-- A signed field is the integer of its bit vector. -/
theorem signed_eq_toInt (w n : Nat) : signed w n = (BitVec.ofNat w n).toInt := by
  have half : n % 2 ^ w < 2 ^ (w - 1) ↔ 2 * (n % 2 ^ w) < 2 ^ w := by
    cases w with
    | zero => simp [Nat.mod_one]
    | succ w => rw [Nat.add_sub_cancel, pow_succ]; omega
  simp only [signed, BitVec.toInt_eq_toNat_cond, BitVec.toNat_ofNat, half]

/-- The modulus of a counter as an integer. -/
theorem Counter.m_cast (x : Counter) : (x.m : Int) = if x.mod = 0 then (2 ^ 32 : Int) else (x.mod.toNat : Int) := by
  unfold Counter.m; split <;> rfl

/-- The modulus that a 32-bit MOD gives. -/
theorem Counter.m_ofNat {mod : Nat} (h : mod < 2 ^ 32) (v : BitVec 32) (auto : Bool) :
    Counter.m ⟨v, BitVec.ofNat 32 mod, auto⟩ = if mod = 0 then 2 ^ 32 else mod := by
  have zero : BitVec.ofNat 32 mod = 0 ↔ mod = 0 := by
    rw [← BitVec.toNat_inj, BitVec.toNat_ofNat, Nat.mod_eq_of_lt h]; rfl
  simp only [Counter.m, zero, BitVec.toNat_ofNat, Nat.mod_eq_of_lt h]

/-- The MOD of a CNTSET that decodes is a 32-bit field (Table 5.6). -/
theorem cntset_mod_lt {w rep n mod val : Nat} {auto : Bool} (h : decodeStream w = some (rep, .cntset n auto mod val)) :
    mod < 2 ^ 32 := by
  have hop : opcodeOf w = 0x02 := (decodeStream_some h).1
  have hdec : decodeOp 0x02 w = some (.cntset n auto mod val) := by
    rw [decodeStream, hop] at h
    split at h
    · next ho => cases h; exact ho
    · cases h
  obtain ⟨-, heq⟩ := okIf_some hdec
  cases heq
  exact bits_lt w 64 32

/-! ### One repeat of each instruction -/

section
variable {s : State} {c : CoreId} {e : Engine} {d : Desc} {l : ListSet} {rep : Nat}

/-- NOP at its repeat. -/
theorem exec_nop_at (h : AtRepeat s c e d l rep .nop) :
    exec (.nop c e) s = .next (setCtl c e ((engCtl s c e).advance l e d.chunks rep) s) :=
  congrArg Host.Outcome.next ((onRepeat_at h rfl _).trans issue_nil)

/-- ARSET at its repeat, of a form that passes its check. -/
theorem exec_arset_at {n : Nat} {f : ArForm} (h : AtRepeat s c e d l rep (.arset n f)) (hok : arsetFault l f = none) :
    exec (.arset c e) s = .next (setCtl c e (Ctl.advance { engCtl s c e with
      ars := (engCtl s c e).ars.set n (arsetNew d l (engCtl s c e) n f) } l e d.chunks rep) s) := by
  refine congrArg Host.Outcome.next ((onRepeat_at h rfl _).trans ?_)
  simp only [hok]
  exact issue_nil

/-- ARSET at its repeat, of a form that fails its check. -/
theorem exec_arset_fault {n code detail addr : Nat} {f : ArForm} (h : AtRepeat s c e d l rep (.arset n f))
    (hbad : arsetFault l f = some (code, detail, addr)) :
    exec (.arset c e) s = .next (engFault c e code detail addr s) := by
  refine congrArg Host.Outcome.next ((onRepeat_at h rfl _).trans ?_)
  simp only [hbad]
  exact issue_fault

/-- CNTSET at its repeat. -/
theorem exec_cntset_at {n mod val : Nat} {auto : Bool} (h : AtRepeat s c e d l rep (.cntset n auto mod val)) :
    exec (.cntset c e) s = .next (setCtl c e (Ctl.advance { engCtl s c e with
      cnts := (engCtl s c e).cnts.set n (cntsetNew auto mod val) } l e d.chunks rep) s) :=
  congrArg Host.Outcome.next ((onRepeat_at h rfl _).trans issue_nil)

/-- CNTADD at its repeat. -/
theorem exec_cntadd_at {n amt : Nat} (h : AtRepeat s c e d l rep (.cntadd n amt)) :
    exec (.cntadd c e) s = .next (setCtl c e (Ctl.advance { engCtl s c e with
      cnts := (engCtl s c e).cnts.set n (((engCtl s c e).cnts.getD n Counter.reset).add (signed 32 amt)) }
      l e d.chunks rep) s) :=
  congrArg Host.Outcome.next ((onRepeat_at h rfl _).trans issue_nil)

/-- CMPSET at its repeat. -/
theorem exec_cmpset_at {n src cond value : Nat} (h : AtRepeat s c e d l rep (.cmpset n src cond value)) :
    exec (.cmpset c e) s = .next (setCtl c e (Ctl.advance { engCtl s c e with
      cmps := (engCtl s c e).cmps.set n ⟨Fin.ofNat 4 src, Fin.ofNat 8 cond, BitVec.ofNat 32 value⟩ }
      l e d.chunks rep) s) :=
  congrArg Host.Outcome.next ((onRepeat_at h rfl _).trans issue_nil)

end

/-! ### The chunk boundary (R131, R138) -/

/-- A counter at a chunk boundary (R138). -/
theorem autoAdd_getElem? {cs : List Counter} {n : Nat} {x : Counter} (h : cs[n]? = some x) :
    (autoAdd cs)[n]? = some (if x.auto then x.add 1 else x) := by
  simp [autoAdd, h]

/-- The boundary adds to counters and drops none. -/
@[simp] theorem length_autoAdd (cs : List Counter) : (autoAdd cs).length = cs.length := List.length_map _

/-- An engine in its body with its PC before the body's end stays in that part. -/
theorem settle_of_body {k : Ctl} {l : ListSet} {e : Engine} (hpart : k.part = .body) (hlt : k.pc < l.pro e + l.body e)
    (chunks : BitVec 32) : k.settle l e chunks = k := by
  simp [Ctl.settle, ← hpart, Nat.not_le.mpr hlt]

/-- Control of the next chunk, when the body has an instruction. -/
theorem nextChunk_of_body {k : Ctl} {l : ListSet} {e : Engine} (hpart : k.part = .body) (hbody : 0 < l.body e)
    (chunks : BitVec 32) :
    k.nextChunk l e chunks = { k with pc := l.pro e, rep := 0, chunk := k.chunk + 1, cnts := autoAdd k.cnts } := by
  rw [Ctl.nextChunk]
  refine settle_of_body ?_ ?_ chunks
  · exact hpart
  · exact Nat.lt_add_of_pos_right hbody

section
variable {s : State} {c : CoreId} {e : Engine} {d : Desc} {l : ListSet}

/-- CHUNK_BOUNDARY at the end of a body. -/
theorem exec_chunkBoundary_at (hrun : (core s c).run = some (d, l)) (hpart : (engCtl s c e).part = .body)
    (hend : l.pro e + l.body e ≤ (engCtl s c e).pc) (hmay : mayIssue s c e = true) :
    exec (.chunkBoundary c e) s = .next (setCtl c e ((engCtl s c e).nextChunk l e d.chunks) s) := by
  have hat : atBoundary s c e = some (d, l, engCtl s c e) := by
    rw [atBoundary, hrun]; exact if_pos ⟨hpart, hend, hmay⟩
  change execChunkBoundary c e s = _
  rw [execChunkBoundary, hat]

/-- CHUNK_BOUNDARY at an engine that is not at the end of a body. -/
theorem exec_chunkBoundary_idle (hrun : (core s c).run = some (d, l))
    (hnot : (engCtl s c e).pc < l.pro e + l.body e ∨ (engCtl s c e).part ≠ .body) :
    exec (.chunkBoundary c e) s = .next s := by
  have hat : atBoundary s c e = none := by
    rw [atBoundary, hrun]
    refine if_neg fun ⟨hpart, hend, _⟩ => ?_
    exact hnot.elim (Nat.not_lt.mpr hend) (· hpart)
  change execChunkBoundary c e s = _
  rw [execChunkBoundary, hat]

end

/-! ### The statements -/

/-- Settles O5: each command is its repeat's meaning; CNTSET's modulus rests on the range of the field MOD. -/
theorem registerInstructionsCompleteWithTheirResult : Obligations.RegisterInstructionsCompleteWithTheirResult := by
  unfold Obligations.RegisterInstructionsCompleteWithTheirResult
  intro s c e d l rep k after
  refine ⟨exec_nop_at, ?imm, ?strides, ?copy, ?par, ?cntset, ?cntadd, ?cmpset⟩
  case imm =>
    intro n usep pari imm h
    rw [exec_arset_at h rfl, arsetNew]
  case strides =>
    intro n w0 w1 s0 s1 h
    rw [exec_arset_at h rfl, arsetNew]
  case copy =>
    intro n m h
    rw [exec_arset_at h rfl, arsetNew]
  case par =>
    intro n pblk imm h
    refine ⟨fun hin => ?_, fun hout => exec_arset_fault h (if_neg (Nat.not_lt.mpr hout))⟩
    rw [exec_arset_at h (if_pos hin), arsetNew]
  case cntset =>
    intro n auto mod val h x
    have hexec := exec_cntset_at h
    obtain ⟨-, -, -, -, hdec⟩ := h
    rw [hexec, cntsetNew, Counter.m_ofNat (cntset_mod_lt hdec)]
  case cntadd =>
    intro n amt h x sum y
    rw [exec_cntadd_at h, Counter.add, Counter.m_cast, signed_eq_toInt]
  case cmpset => exact fun n src cond value h => exec_cmpset_at h

/-- Settles O6: the next chunk's control is that of R131 with the counters of R138, and the
body is not empty, so that it stands in the body. -/
theorem chunkBoundaryAddsAutoCounters : Obligations.ChunkBoundaryAddsAutoCounters := by
  unfold Obligations.ChunkBoundaryAddsAutoCounters
  intro s c e d l hrun
  refine ⟨?boundary, exec_chunkBoundary_idle hrun⟩
  intro hpart hend hmay hbody _
  have hexec := exec_chunkBoundary_at hrun hpart hend hmay
  rw [nextChunk_of_body hpart hbody] at hexec
  refine ⟨_, hexec, rfl, rfl, rfl, rfl, rfl, hpart, length_autoAdd _, ?_⟩
  intro n x hx
  rw [autoAdd_getElem? hx, Counter.add, Counter.m_cast]

end Sys2Proof.Machine
end

section
/-! SUPPORT. Signals of one cycle at one word (spec/06 R199 to R202): what the sum reads and writes, what gathering, asking and
answering the signals leave alone, and how a core's operation stands once its home has applied it. -/

namespace Sys2Proof.Machine

/-! ### The saturating addition at a word (R199, R202) -/

/-- The saturating sum is the exact sum clamped to 32 bits. -/
theorem satSum_fst (old : Nat) (amt : Int) : ((satSum old amt).1 : Int) = min (max (old + amt) 0) 0xFFFFFFFF := by
  unfold satSum
  simp only
  split
  · omega
  · split <;> omega

/-- It saturates just where the exact sum lies outside 32 bits. -/
theorem satSum_snd (old : Nat) (amt : Int) :
    (satSum old amt).2 = decide ((old : Int) + amt < 0 ∨ 0xFFFFFFFF < (old : Int) + amt) := by
  rw [Bool.eq_iff_iff, decide_eq_true_iff, ← Bool.not_eq_false, (satSum_spec old amt).2.1]
  omega

/-- Memory is read from its store alone. -/
theorem memRead_congr {s t : State} (h : t.mem = s.mem) (a n : Nat) : memRead t a n = memRead s a n := by
  rw [memRead, memRead, h]

/-- A word is read from the store alone. -/
theorem wordRead_congr {s t : State} (h : t.mem = s.mem) (a : Nat) : wordRead t a = wordRead s a := by
  rw [wordRead, wordRead, memRead_congr h]

/-- Writing a word writes its bytes and, where the block is closed, the eight bytes of its tag (R437). -/
theorem wordWrite_eq (w v : Nat) (s : State) :
    wordWrite w v s = memWrite w (toLe 4 v) s
      ∨ ∃ tag : Bytes, tag.length = 8
        ∧ wordWrite w v s = memWrite (w / 4096 * 4096 + 2176) tag (memWrite w (toLe 4 v) s) := by
  unfold wordWrite
  simp only
  split
  · exact .inl rfl
  · exact .inr ⟨_, toLe_length _ _, rfl⟩

/-- A payload read does not see the tag that a word's write changes. -/
theorem memRead_wordWrite {s : State} (hm : Memory.wf memDefault s.mem = true) (w v : Nat) {a n : Nat} (ha : a % 4096 + n ≤ 2048) :
    memRead (wordWrite w v s) a n = memRead (memWrite w (toLe 4 v) s) a n := by
  obtain e | ⟨tag, hlen, e⟩ := wordWrite_eq w v s
  · rw [e]
  · rw [e]
    exact cellsRead_cellsWrite_other (wf_cellsWrite hm w (toLe 4 v)) _ a n tag (by omega)

/-- A word in a payload reads back as written. -/
theorem wordRead_wordWrite {s : State} (hm : Memory.wf memDefault s.mem = true) {w v : Nat} (hw : w % 4096 + 4 ≤ 2048)
    (hv : v < 2 ^ 32) : wordRead (wordWrite w v s) w = v := by
  have hread : memRead (memWrite w (toLe 4 v) s) w 4 = toLe 4 v := by
    have h := cellsRead_cellsWrite_same hm w (toLe 4 v)
    rwa [toLe_length] at h
  rw [wordRead, memRead_wordWrite hm w v hw, hread, leNat_toLe, Nat.mod_eq_of_lt hv]

/-- Payload outside the word stays. -/
theorem memRead_wordWrite_other {s : State} (hm : Memory.wf memDefault s.mem = true) (w v : Nat) {a n : Nat}
    (ha : a % 4096 + n ≤ 2048) (hout : a + n ≤ w ∨ w + 4 ≤ a) : memRead (wordWrite w v s) a n = memRead s a n := by
  rw [memRead_wordWrite hm w v ha]
  exact cellsRead_cellsWrite_other hm w a n _ (by rwa [toLe_length])

/-- Waking watches leaves memory. -/
@[simp] theorem wakeRange_mem (a n : Nat) (s : State) : (wakeRange a n s).mem = s.mem := by rw [wakeRange_frame]

/-- The addition at a word answers whether it saturated. -/
theorem wordAdd_snd (w : Nat) (amt : Int) (s : State) : (wordAdd w amt s).2 = (satSum (wordRead s w) amt).2 := rfl

/-- The addition at a word writes the saturating sum and wakes. -/
theorem wordAdd_fst (w : Nat) (amt : Int) (s : State) :
    (wordAdd w amt s).1 = wakeRange w 4 (wordWrite w (satSum (wordRead s w) amt).1 s) := rfl

/-- The word after an addition is the clamped exact sum. -/
theorem wordRead_wordAdd {s : State} (hm : Memory.wf memDefault s.mem = true) {w : Nat} (hw : w % 4096 + 4 ≤ 2048) (amt : Int) :
    (wordRead (wordAdd w amt s).1 w : Int) = min (max (wordRead s w + amt) 0) 0xFFFFFFFF := by
  rw [wordAdd_fst, wordRead_congr (wakeRange_mem _ _ _), wordRead_wordWrite hm hw (satSum_spec _ _).1, satSum_fst]

/-- Payload outside the word stays at an addition. -/
theorem memRead_wordAdd_other {s : State} (hm : Memory.wf memDefault s.mem = true) (w : Nat) (amt : Int) {a n : Nat}
    (ha : a % 4096 + n ≤ 2048) (hout : a + n ≤ w ∨ w + 4 ≤ a) : memRead (wordAdd w amt s).1 a n = memRead s a n := by
  rw [wordAdd_fst, memRead_congr (wakeRange_mem _ _ _), memRead_wordWrite_other hm w _ ha hout]

/-! ### Memory under ride, torus, log and stack-port traffic -/

/-- Handing a transfer to the ride leaves memory. -/
@[simp] theorem rideSend_mem (h : Half) (cls : Fin 4) (b : Bytes) (s : State) : (rideSend h cls b s).1.mem = s.mem := by
  rw [rideSend_frame]

/-- A return to a core leaves memory. -/
@[simp] theorem rideBack_mem (h : Half) (c : Nat) (s : State) : (rideBack h c s).1.mem = s.mem := by rw [rideBack_frame]

/-- A transfer that waits for another leaves memory. -/
@[simp] theorem rideLater_mem (pre : Option Nat) (h : Half) (cls : Fin 4) (b : Bytes) (s : State) :
    (rideLater pre h cls b s).1.mem = s.mem := by
  unfold rideLater
  split
  · exact rideSend_mem ..
  · split
    · exact rideSend_mem ..
    · rfl

/-- A log entry leaves memory. -/
@[simp] theorem logWrite_mem (tpn src : Nat) (b : Bytes) (s : State) : (logWrite tpn src b s).mem = s.mem := by
  rw [logWrite_frame]

/-- Sending what a port holds leaves memory. -/
@[simp] theorem torusPump_mem (p n : Nat) (s : State) : (torusPump p n s).mem = s.mem := by
  induction n generalizing s with
  | zero => rfl
  | succ n ih =>
    rw [torusPump]
    split
    · rfl
    · split
      · rfl
      · rw [ih, modPort_mem]

/-- Handing a transfer to an output leaves memory. -/
@[simp] theorem outputXfer_mem (h : Half) (p vl : Nat) (b : Bytes) (s : State) : (outputXfer h p vl b s).mem = s.mem := by
  unfold outputXfer outputAfter
  rw [torusPump_mem, modPort_mem]
  split
  · rfl
  · exact rideLater_mem ..

/-- Answering a request of another package leaves memory. -/
@[simp] theorem answer_mem (h : Half) (a : Arr) (status : Nat) (sat : Bool) (code detail : Nat) (s : State) :
    (answer h a status sat code detail s).mem = s.mem := by
  unfold answer sendXfer sendAck
  simp only
  split <;> split
  · rfl
  · exact outputXfer_mem ..
  · rfl
  · exact outputXfer_mem ..

/-- Returning credits leaves memory. -/
@[simp] theorem freeCredits_mem (port vl n : Nat) (s : State) : (freeCredits port vl n s).mem = s.mem := by
  unfold freeCredits portIdle
  split <;> rfl

/-- Recording a saturation leaves memory. -/
@[simp] theorem noteSat_mem (ctx : CtxId) (va : Nat) (s : State) : (noteSat ctx va s).mem = s.mem := by
  unfold noteSat
  simp only
  split
  · exact logWrite_mem ..
  · split <;> rfl

/-- The reply to a fetch-add leaves memory. -/
@[simp] theorem faddReply_mem (f : FAdd) (old : Nat) (s : State) : (faddReply f old s).mem = s.mem := by
  unfold faddReply
  simp only
  split
  · rfl
  · exact rideSend_mem ..

/-! ### Gathering the signals leaves memory -/

/-- Resolving an address leaves memory. -/
@[simp] theorem resolve_mem (c : Nat) (x : CtxId) (want : Want) (pos : Nat) (va : BitVec 56) (s : State) :
    (resolve c x want pos va s).1.mem = s.mem := by rw [resolve_frame]

/-- Resolving a request's address leaves memory. -/
@[simp] theorem reqResolve_mem (a : Arr) (s : State) : (reqResolve a s).1.mem = s.mem := by
  unfold reqResolve
  split
  case h_7 => split <;> simp
  all_goals rfl

/-- A transfer's crossing of the ride leaves memory. -/
@[simp] theorem arrCross_mem (k : Nat) (a : Arr) (h : Nat) (s : State) : (arrCross k a h s).1.mem = s.mem := by
  unfold arrCross
  split
  · rfl
  · split
    · rfl
    · exact rideSend_mem ..

/-- A remote ATOMIC looked up for a sum leaves memory. -/
@[simp] theorem remoteHit_mem (k : Nat) (s : State) : (remoteHit k s).1.mem = s.mem := by
  unfold remoteHit
  split
  · rfl
  · next a _ =>
    have hres := reqResolve_mem a s
    split
    · rfl
    · split
      · next s1 l off e =>
        rw [e] at hres
        have hcross := arrCross_mem k a l.half.val s1
        split
        all_goals next e' => rw [e'] at hcross; exact hcross.trans hres
      · next e => rw [e] at hres; exact hres

/-- Resolving the blocks of an outside access leaves memory. -/
@[simp] theorem inResolve_mem (a : Inbound) (w : InWin) (want : Want) (vas : List Nat) (s : State) :
    (inResolve a w want vas s).1.mem = s.mem := by
  induction vas generalizing s with
  | nil => rfl
  | cons va vas ih =>
    have hres := resolve_mem (faceCore a.face) w.ctx want 0 (BitVec.ofNat 56 va) s
    unfold inResolve
    split
    · next s1 l o e =>
      rw [e] at hres
      have hrest := (ih s1).trans hres
      split
      · next e' => rw [e'] at hrest; exact hrest
      · exact hrest
    all_goals next e => rw [e] at hres; exact hres

/-- A station's fetch-add checked and resolved leaves memory. -/
@[simp] theorem faddAt_mem (a : Inbound) (wide : Bool) (addend : BitVec 64) (s : State) :
    (faddAt a wide addend s).1.mem = s.mem := by
  unfold faddAt
  extract_lets n
  split
  · next w _ _ _ =>
    have hres := inResolve_mem a w .write [w.dva + a.off] s
    split
    · rfl
    · split
      all_goals next e => rw [e] at hres; exact hres
  · rfl

/-- A station's fetch-add looked up for a sum leaves memory. -/
@[simp] theorem stationHit_mem (a : Inbound) (wide : Bool) (addend : BitVec 64) (s : State) :
    (stationHit a wide addend s).1.mem = s.mem := by
  have hat := faddAt_mem a wide addend s
  unfold stationHit
  split
  · rfl
  · split
    all_goals next e => rw [e] at hat; exact hat

/-- Looking up one signal leaves memory. -/
@[simp] theorem sigHit_mem (r : SigRef) (s : State) : (sigHit r s).1.mem = s.mem := by
  cases r with
  | core c k => rfl
  | remote k => exact remoteHit_mem k s
  | station a wide addend => exact stationHit_mem a wide addend s
  | crossed k => rfl

/-- Looking up the signals of a sum leaves memory. -/
@[simp] theorem sigHits_mem (refs : List SigRef) (s : State) : (sigHits refs s).1.mem = s.mem := by
  induction refs generalizing s with
  | nil => rfl
  | cons r refs ih =>
    have hr := sigHit_mem r s
    unfold sigHits
    split
    · next e => rw [e] at hr; exact hr
    · next s1 _ e =>
      rw [e] at hr
      have hrest := (ih s1).trans hr
      split
      all_goals next e' => rw [e'] at hrest; exact hrest

/-! ### The sum of the signals found -/

/-- The state in which the addition is made: the signals have left their lists and asked at their stack ports. -/
def sumAsked (hs : List SigHit) (s : State) : State := hs.foldl (fun t g => sigAsk g t) (sigsTake hs s)

/-- The exact sum of the amounts of signals. -/
def sumAmount (hs : List SigHit) : Int := (hs.map (·.amt)).sum

/-- Whether the one addition of all the signals saturates. -/
def sumSat (w : Nat) (hs : List SigHit) (s : State) : Bool := (satSum (wordRead s w) (sumAmount hs)).2

/-- The state after the one addition of all the signals. -/
def sumAdded (w : Nat) (hs : List SigHit) (s : State) : State := (wordAdd w (sumAmount hs) (sumAsked hs s)).1

/-- The state after the addition and what follows at each signal. -/
def sumApplied (w : Nat) (hs : List SigHit) (s : State) : State :=
  sigsDone (sumSat w hs s) (wordRead s w) hs [] (sumAdded w hs s)

/-- Signals that leave their lists leave memory. -/
@[simp] theorem sigsTake_mem (hs : List SigHit) (s : State) : (sigsTake hs s).mem = s.mem := by
  unfold sigsTake
  induction hs generalizing s with
  | nil => rfl
  | cons h hs ih =>
    rw [List.foldl_cons, ih]
    split <;> rfl

/-- A signal's access at a stack port touches the requests on their way only. -/
theorem sigAsk_frame (h : SigHit) (s : State) : sigAsk h s = { s with stkReqs := (sigAsk h s).stkReqs } := by
  unfold sigAsk
  split <;> exact stkAsk_frame ..

/-- The accesses of signals touch the requests on their way only. -/
theorem sigAsks_frame (hs : List SigHit) (s : State) :
    hs.foldl (fun t g => sigAsk g t) s = { s with stkReqs := (hs.foldl (fun t g => sigAsk g t) s).stkReqs } := by
  induction hs generalizing s with
  | nil => rfl
  | cons h hs ih => rw [List.foldl_cons, ih, sigAsk_frame]

/-- Taking and asking leave memory. -/
@[simp] theorem sumAsked_mem (hs : List SigHit) (s : State) : (sumAsked hs s).mem = s.mem := by
  rw [sumAsked, sigAsks_frame, sigsTake_mem]

/-- Marking a signal as applied leaves memory. -/
@[simp] theorem markApplied_mem (c k w : Nat) (sat : Bool) (s : State) : (markApplied c k w sat s).mem = s.mem :=
  rideBack_mem _ c s

/-- What follows at a signal leaves memory. -/
@[simp] theorem sigDone_mem (sat : Bool) (old : Nat) (h : SigHit) (told : List CtxId) (s : State) :
    (sigDone sat old h told s).mem = s.mem := by
  unfold sigDone
  split
  · exact markApplied_mem ..
  · rw [answer_mem, freeCredits_mem]
  · rw [faddReply_mem]
    split
    · exact noteSat_mem ..
    · rfl

/-- What follows at every signal leaves memory. -/
@[simp] theorem sigsDone_mem (sat : Bool) (old : Nat) (hs : List SigHit) (told : List CtxId) (s : State) :
    (sigsDone sat old hs told s).mem = s.mem := by
  induction hs generalizing told s with
  | nil => rfl
  | cons h hs ih => rw [sigsDone, ih, sigDone_mem]

/-- The amounts added one after the other. -/
theorem foldl_amt (hs : List SigHit) (n : Int) : hs.foldl (fun n g => n + g.amt) n = n + sumAmount hs := by
  induction hs generalizing n with
  | nil => simp [sumAmount]
  | cons h hs ih => rw [List.foldl_cons, ih]; simp [sumAmount, add_assoc]

/-- The dispatch of SIGNAL_APPLY. -/
theorem exec_signalApply (refs : List SigRef) (s : State) : exec (.signalApply refs) s = execSignalApply refs s := rfl

/-- SIGNAL_APPLY of distinct signals all at one word: one addition of their exact sum, then what follows at each. -/
theorem exec_signalApply_hits {refs : List SigRef} {s s1 : State} {h : SigHit} {hs : List SigHit} {w : Nat}
    (hdist : refsDistinct refs = true) (hhits : sigHits refs s = (s1, some (h :: hs))) (hword : ∀ g ∈ h :: hs, g.word = w) :
    exec (.signalApply refs) s = .next (sumApplied w (h :: hs) s1) := by
  obtain ⟨hw, hrest⟩ := List.forall_mem_cons.mp hword
  have hall : hs.all (fun g => g.word == w) = true := by
    rw [List.all_eq_true]
    exact fun g hg => beq_iff_eq.mpr (hrest g hg)
  have hsum : hs.foldl (fun n g => n + g.amt) h.amt = sumAmount (h :: hs) := by
    rw [foldl_amt, sumAmount, sumAmount, List.map_cons, List.sum_cons]
  have hsat : sumSat w (h :: hs) s1 = (wordAdd w (sumAmount (h :: hs)) (sumAsked (h :: hs) s1)).2 := by
    rw [sumSat, wordAdd_snd, wordRead_congr (sumAsked_mem _ _)]
  rw [exec_signalApply, execSignalApply, hhits, sumApplied, hsat]
  simp only [hw, hdist, hall, hsum, Bool.and_self, if_true]
  rfl

/-- The word takes the clamped exact sum (R200). -/
theorem wordRead_sumApplied {s : State} (hm : Memory.wf memDefault s.mem = true) {w : Nat} (hpay : w % 4096 + 4 ≤ 2048)
    (hs : List SigHit) : (wordRead (sumApplied w hs s) w : Int) = min (max (wordRead s w + sumAmount hs) 0) 0xFFFFFFFF := by
  have hasked := sumAsked_mem hs s
  rw [sumApplied, wordRead_congr (sigsDone_mem ..), sumAdded, wordRead_wordAdd (hasked ▸ hm) hpay, wordRead_congr hasked]

/-- The payload beside the word stays (R200). -/
theorem memRead_sumApplied_other {s : State} (hm : Memory.wf memDefault s.mem = true) {w a n : Nat} (ha : a % 4096 + n ≤ 2048)
    (hout : a + n ≤ w ∨ w + 4 ≤ a) (hs : List SigHit) : memRead (sumApplied w hs s) a n = memRead s a n := by
  have hasked := sumAsked_mem hs s
  rw [sumApplied, memRead_congr (sigsDone_mem ..), sumAdded, memRead_wordAdd_other (hasked ▸ hm) w _ ha hout,
    memRead_congr hasked]

end Sys2Proof.Machine
end

section
/-! SUPPORT. Committed signals of this package's cores in one sum (spec/06 R200, R201): what the sum finds, what each operation
becomes, and what nothing of it touches. -/

namespace Sys2Proof.Machine

/-! ### What the sum may touch -/

/-- What a sum of core signals may touch: memory, cores, watches, the ride with its transfer numbers, and the requests on their way
to stack ports. -/
def SumFrame (s t : State) : Prop :=
  t = { s with mem := t.mem, cores := t.cores, watches := t.watches, ride := t.ride, xfers := t.xfers, stkReqs := t.stkReqs }

/-- Touching one after the other. -/
theorem SumFrame.trans {s t u : State} (h1 : SumFrame s t) (h2 : SumFrame t u) : SumFrame s u :=
  Eq.trans h2 (by rw [h1])

/-- Writing a word touches memory only. -/
theorem wordWrite_frame (w v : Nat) (s : State) : wordWrite w v s = { s with mem := (wordWrite w v s).mem } := by
  obtain e | ⟨tag, -, e⟩ := wordWrite_eq w v s <;> rw [e] <;> rfl

/-- The addition at a word touches memory and what wakes. -/
theorem wordAdd_frame (w : Nat) (amt : Int) (s : State) :
    (wordAdd w amt s).1 = { s with
      mem := (wordAdd w amt s).1.mem, watches := (wordAdd w amt s).1.watches
      ride := (wordAdd w amt s).1.ride, xfers := (wordAdd w amt s).1.xfers } := by
  rw [wordAdd_fst, wakeRange_frame, wordWrite_frame]

/-- Marking a signal as applied touches its core, the ride and the transfer numbers. -/
theorem markApplied_frame (c k w : Nat) (sat : Bool) (s : State) :
    markApplied c k w sat s = { s with
      cores := (markApplied c k w sat s).cores, ride := (markApplied c k w sat s).ride
      xfers := (markApplied c k w sat s).xfers } := by
  unfold markApplied modPend modCore setCore
  simp only
  rw [rideBack_frame]

/-! ### Watches (R211) -/

/-- Every watch of the list stands after a wake, woken where it lies in the range. -/
theorem wakeList_getElem? {ws : List Watch} {i : Nat} {u : Watch} (hu : ws[i]? = some u) (a n : Nat) (s : State) :
    ∃ ride, (wakeList a n ws s).2[i]? =
      some { u with woken := u.woken || decide (u.word < a + n ∧ a < u.word + 4), ride := ride } := by
  induction ws generalizing i s with
  | nil => simp at hu
  | cons w ws ih =>
    unfold wakeList
    cases i with
    | zero =>
      obtain rfl : w = u := by simpa using hu
      split
      · next hin => exact ⟨_, by simp [hin]; rfl⟩
      · next hin =>
        have hkeep : (w.woken || decide (w.word < a + n ∧ a < w.word + 4)) = w.woken := by
          rw [Bool.or_eq_left_iff_imp, decide_eq_true_iff]
          intro hrange
          by_contra hwoken
          exact hin ⟨hrange.1, hrange.2, by simpa using hwoken⟩
        exact ⟨w.ride, by rw [hkeep]; rfl⟩
    | succ i =>
      rw [List.getElem?_cons_succ] at hu
      split
      · exact ih hu _
      · exact ih hu _

/-- A wake leaves as many watches as there were. -/
theorem length_wakeList (a n : Nat) (ws : List Watch) (s : State) : (wakeList a n ws s).2.length = ws.length := by
  induction ws generalizing s with
  | nil => rfl
  | cons w ws ih =>
    unfold wakeList
    split
    all_goals simp only [List.length_cons, ih]

/-- The watches after an addition are those of the wake. -/
theorem wordAdd_watches (w : Nat) (amt : Int) (s : State) :
    (wordAdd w amt s).1.watches
      = (wakeList w 4 s.watches (wordWrite w (satSum (wordRead s w) amt).1 s)).2 := by
  have hsame : (wordWrite w (satSum (wordRead s w) amt).1 s).watches = s.watches := by rw [wordWrite_frame]
  rw [← hsame]; rfl

/-! ### A core's operations once applied (R201) -/

/-- An operation after a change of one operation of the core. -/
theorem pend_modPend (c k : Nat) (f : Pend → Pend) (s : State) (n i : Nat) :
    (core (modPend c k f s) n).pend[i]?
      = if n = c ∧ i = k then ((core s n).pend[i]?).map f else (core s n).pend[i]? := by
  unfold modPend
  by_cases hn : n = c
  · subst hn
    rw [core_modCore_same]
    cases hk : (core s n).pend[k]? with
    | none =>
      by_cases hi : i = k
      · subst hi; simp [hk]
      · simp [hi]
    | some p =>
      have hlt := (List.getElem?_eq_some_iff.mp hk).1
      by_cases hi : i = k
      · subst hi; simp [hk, List.getElem?_set_self hlt]
      · simp [hi, List.getElem?_set_ne (Ne.symm hi)]
  · rw [core_modCore_other _ _ hn, if_neg (fun h => hn h.1)]

/-- A return to a core leaves the cores. -/
theorem core_rideBack (h : Half) (c : Nat) (s : State) (n : Nat) : core (rideBack h c s).1 n = core s n := by
  rw [rideBack_frame]; rfl

/-- The signal marked stands applied, its acknowledgement on its way. -/
theorem pend_markApplied_same (c k w : Nat) (sat : Bool) (s : State) :
    ∃ ride, (core (markApplied c k w sat s) c).pend[k]?
      = ((core s c).pend[k]?).map fun p => { applied p sat with ride := ride } := by
  unfold markApplied
  simp only
  rw [pend_modPend, if_pos ⟨rfl, rfl⟩, core_rideBack]
  cases (core s c).pend[k]? with
  | none => exact ⟨none, rfl⟩
  | some p =>
    obtain ⟨x, e, rpt, ride, op⟩ := p
    cases op with
    | signal va v amt st ctl => exact ⟨_, rfl⟩
    | _ => exact ⟨ride, rfl⟩

/-- Every other operation stays. -/
theorem pend_markApplied_other {c k n i : Nat} (h : ¬(n = c ∧ i = k)) (w : Nat) (sat : Bool) (s : State) :
    (core (markApplied c k w sat s) n).pend[i]? = (core s n).pend[i]? := by
  unfold markApplied
  simp only
  rw [pend_modPend, if_neg h, core_rideBack]

/-! ### The hits of core signals -/

/-- The operation that a reference names. -/
def pendAt (s : State) (r : CoreId × Nat) : Option Pend := (core s r.1).pend[r.2]?

/-- The context of the operation that a reference names. -/
def pendCtx (s : State) (r : CoreId × Nat) : CtxId := ((pendAt s r).map (·.ctx)).getD 0

/-- A core's signal at a word, as the sum takes it. -/
def coreSig (s : State) (w : Nat) (r : CoreId × Nat) : SigHit := ⟨w, signalAmount s r.1 r.2, .core r.1.val r.2 (pendCtx s r)⟩

/-- A committed signal at a word that has arrived there. -/
def SigReady (s : State) (w : Nat) (r : CoreId × Nat) : Prop :=
  ∃ (x : CtxId) (e : Engine) (rpt : Nat) (ride : Option Nat) (va : BitVec 56) (amt : BitVec 32) (k : Ctl),
    (core s r.1).pend[r.2]? = some ⟨x, e, rpt, ride, .signal va w amt .committed k⟩ ∧ rideArrived s ride = true

/-- A sum finds a committed signal that has arrived. -/
theorem coreHit_of_ready {s : State} {w : Nat} {r : CoreId × Nat} (h : SigReady s w r) : coreHit s r.1 r.2 = some (coreSig s w r) := by
  obtain ⟨x, e, rpt, ride, va, amt, k, hp, harr⟩ := h
  simp [coreHit, coreSig, signalAmount, pendCtx, pendAt, hp, harr]

/-- The context of a ready signal is that of its operation. -/
theorem ctx_of_ready {s : State} {w : Nat} {r : CoreId × Nat} (h : SigReady s w r) :
    (pendAt s r).map (·.ctx) = some (pendCtx s r) := by
  obtain ⟨x, e, rpt, ride, va, amt, k, hp, -⟩ := h
  simp [pendCtx, pendAt, hp]

/-- A sum of ready core signals finds them all, and looking changes nothing. -/
theorem sigHits_of_ready {s : State} {w : Nat} {refs : List (CoreId × Nat)} (h : ∀ r ∈ refs, SigReady s w r) :
    sigHits (refs.map fun r => .core r.1 r.2) s = (s, some (refs.map (coreSig s w))) := by
  induction refs with
  | nil => rfl
  | cons r refs ih =>
    obtain ⟨hr, hrest⟩ := List.forall_mem_cons.mp h
    have hone : sigHit (.core r.1 r.2) s = (s, some (coreSig s w r)) := by rw [sigHit, coreHit_of_ready hr]
    rw [List.map_cons, List.map_cons, sigHits, hone]
    simp only [ih hrest]

/-- Distinct places are distinct references. -/
theorem refsDistinct_map_core {refs : List (CoreId × Nat)} (h : refs.Nodup) :
    refsDistinct (refs.map fun r => .core r.1 r.2) = true := by
  induction refs with
  | nil => rfl
  | cons r refs ih =>
    obtain ⟨hr, hrest⟩ := List.nodup_cons.mp h
    have hnot : SigRef.core r.1 r.2 ∉ refs.map fun r => .core r.1 r.2 := by
      rintro hin
      obtain ⟨q, hq, e⟩ := List.mem_map.mp hin
      obtain ⟨e1, e2⟩ := SigRef.core.inj e
      exact hr (Prod.ext e1 e2 ▸ hq)
    simp [refsDistinct, ih hrest, hnot]

/-- Core signals stand in no list that a sum takes from. -/
theorem sigsTake_map_coreSig (s : State) (w : Nat) (refs : List (CoreId × Nat)) (t : State) :
    sigsTake (refs.map (coreSig s w)) t = t := by
  unfold sigsTake
  induction refs with
  | nil => rfl
  | cons r refs ih => exact ih

/-! ### What follows at core signals -/

section
variable (s0 : State) (w : Nat) (sat : Bool) (old : Nat)

/-- What follows at core signals touches cores, the ride and the transfer numbers. -/
theorem sigsDone_coreSig_frame (refs : List (CoreId × Nat)) (told : List CtxId) (s : State) :
    sigsDone sat old (refs.map (coreSig s0 w)) told s = { s with
      cores := (sigsDone sat old (refs.map (coreSig s0 w)) told s).cores
      ride := (sigsDone sat old (refs.map (coreSig s0 w)) told s).ride
      xfers := (sigsDone sat old (refs.map (coreSig s0 w)) told s).xfers } := by
  induction refs generalizing told s with
  | nil => rfl
  | cons r refs ih =>
    rw [List.map_cons, sigsDone, ih]
    rw [show sigDone sat old (coreSig s0 w r) told s
      = markApplied r.1.val r.2 w (sat && !told.contains (pendCtx s0 r)) s from rfl, markApplied_frame]

/-- The first of core signals is marked, then the others are. -/
theorem sigsDone_coreSig_cons (r : CoreId × Nat) (refs : List (CoreId × Nat)) (told : List CtxId) (s : State) :
    sigsDone sat old ((r :: refs).map (coreSig s0 w)) told s
      = sigsDone sat old (refs.map (coreSig s0 w)) (told ++ [pendCtx s0 r])
          (markApplied r.1 r.2 w (sat && !told.contains (pendCtx s0 r)) s) := rfl

/-- Operations that no reference names stay. -/
theorem pendAt_sigsDone_other {refs : List (CoreId × Nat)} {q : CoreId × Nat} (hq : q ∉ refs) (told : List CtxId) (s : State) :
    pendAt (sigsDone sat old (refs.map (coreSig s0 w)) told s) q = pendAt s q := by
  induction refs generalizing told s with
  | nil => rfl
  | cons r refs ih =>
    obtain ⟨hne, hrest⟩ := not_or.mp (List.mem_cons.not.mp hq)
    have hplace : ¬(q.1.val = r.1.val ∧ q.2 = r.2) := fun h => hne (Prod.ext (Fin.ext h.1) h.2)
    rw [sigsDone_coreSig_cons, ih hrest]
    exact pend_markApplied_other hplace w _ s

/-- A signal of the sum is applied, and remembers a saturation where no signal of its context stands before it. -/
theorem pendAt_sigsDone_mem {pre post : List (CoreId × Nat)} {r : CoreId × Nat} (hnodup : (pre ++ r :: post).Nodup)
    (told : List CtxId) (s : State) :
    ∃ ride, pendAt (sigsDone sat old ((pre ++ r :: post).map (coreSig s0 w)) told s) r
      = (pendAt s r).map fun p =>
          { applied p (sat && !(told ++ pre.map (pendCtx s0)).contains (pendCtx s0 r)) with ride := ride } := by
  induction pre generalizing told s with
  | nil =>
    obtain ⟨hr, -⟩ := List.nodup_cons.mp hnodup
    obtain ⟨ride, h⟩ := pend_markApplied_same r.1 r.2 w (sat && !told.contains (pendCtx s0 r)) s
    refine ⟨ride, ?_⟩
    rw [List.nil_append, sigsDone_coreSig_cons, pendAt_sigsDone_other _ _ _ _ hr, List.map_nil, List.append_nil]
    exact h
  | cons q pre ih =>
    obtain ⟨hq, hrest⟩ := List.nodup_cons.mp hnodup
    have hne : r ≠ q := fun e => hq (e ▸ by simp)
    have hplace : ¬(r.1.val = q.1.val ∧ r.2 = q.2) := fun h => hne (Prod.ext (Fin.ext h.1) h.2)
    obtain ⟨ride, h⟩ := ih hrest (told ++ [pendCtx s0 q]) (markApplied q.1 q.2 w (sat && !told.contains (pendCtx s0 q)) s)
    refine ⟨ride, ?_⟩
    have hkeep : pendAt (markApplied q.1 q.2 w (sat && !told.contains (pendCtx s0 q)) s) r = pendAt s r :=
      pend_markApplied_other hplace w _ s
    rw [List.cons_append, sigsDone_coreSig_cons, h, hkeep, List.map_cons, List.append_assoc, List.singleton_append]

end

end Sys2Proof.Machine
end

section
/-! SUPPORT. SIGNAL_APPLY as a whole (spec/06 R199 to R202): its frame and its watches for core signals, and O10. -/

namespace Sys2Proof.Machine

section
variable (s : State) (w : Nat) (refs : List (CoreId × Nat))

/-- The amounts of core signals are those of their operations. -/
theorem sumAmount_coreSig : sumAmount (refs.map (coreSig s w)) = (refs.map fun r => signalAmount s r.1 r.2).sum := by
  rw [sumAmount, List.map_map]; rfl

/-- Before the addition core signals have only asked at their stack ports. -/
theorem sumAsked_coreSig_frame : sumAsked (refs.map (coreSig s w)) s
    = { s with stkReqs := (sumAsked (refs.map (coreSig s w)) s).stkReqs } := by
  rw [sumAsked, sigsTake_map_coreSig, sigAsks_frame]

/-- The addition leaves every operation. -/
theorem pendAt_sumAdded (r : CoreId × Nat) : pendAt (sumAdded w (refs.map (coreSig s w)) s) r = pendAt s r := by
  rw [sumAdded, wordAdd_frame, sumAsked_coreSig_frame]; rfl

/-- SIGNAL_APPLY of core signals keeps the frame of the sum. -/
theorem sumFrame_sumApplied : SumFrame s (sumApplied w (refs.map (coreSig s w)) s) := by
  have hasked : SumFrame s (sumAsked (refs.map (coreSig s w)) s) := by unfold SumFrame; rw [sumAsked_coreSig_frame]
  have hadded : SumFrame (sumAsked (refs.map (coreSig s w)) s) (sumAdded w (refs.map (coreSig s w)) s) := by
    unfold SumFrame sumAdded; rw [wordAdd_frame]
  refine (hasked.trans hadded).trans ?_
  unfold SumFrame sumApplied
  rw [sigsDone_coreSig_frame]

/-- The watches after SIGNAL_APPLY are those of one wake on the word. -/
theorem watches_sumApplied :
    ∃ u : State, (sumApplied w (refs.map (coreSig s w)) s).watches = (wakeList w 4 s.watches u).2 := by
  have hasked : (sumAsked (refs.map (coreSig s w)) s).watches = s.watches := by rw [sumAsked_coreSig_frame]
  rw [sumApplied, sigsDone_coreSig_frame, sumAdded, wordAdd_watches, hasked]
  exact ⟨_, rfl⟩

end

/-- SIGNAL_APPLY of ready core signals makes their sum. -/
theorem exec_signalApply_core {s : State} {w : Nat} {refs : List (CoreId × Nat)} (hne : refs ≠ []) (hnodup : refs.Nodup)
    (hready : ∀ r ∈ refs, SigReady s w r) :
    exec (.signalApply (refs.map fun r => .core r.1 r.2)) s = .next (sumApplied w (refs.map (coreSig s w)) s) := by
  have hhits := sigHits_of_ready hready
  have hword : ∀ g ∈ refs.map (coreSig s w), g.word = w := by
    intro g hg
    obtain ⟨r, -, rfl⟩ := List.mem_map.mp hg
    rfl
  cases refs with
  | nil => exact absurd rfl hne
  | cons r refs => exact exec_signalApply_hits (refsDistinct_map_core hnodup) hhits hword

/-- A ready signal of the sum stands applied; it remembers a saturation where it is the first of its context (R201). -/
theorem pendAt_sumApplied_mem {s : State} {w : Nat} {pre post : List (CoreId × Nat)} {r : CoreId × Nat}
    (hnodup : (pre ++ r :: post).Nodup) (hready : ∀ q ∈ pre ++ r :: post, SigReady s w q) :
    let hs := (pre ++ r :: post).map (coreSig s w)
    ∃ ride, pendAt (sumApplied w hs s) r = (pendAt s r).map fun p =>
      { applied p (sumSat w hs s && decide ((pendAt s r).map (·.ctx) ∉ pre.map fun q => (pendAt s q).map (·.ctx)))
        with ride := ride } := by
  intro hs
  have hpre : (pre.map fun q => (pendAt s q).map (·.ctx)) = (pre.map (pendCtx s)).map some := by
    rw [List.map_map]
    exact List.map_congr_left fun q hq => ctx_of_ready (hready q (List.mem_append_left _ hq))
  have hfirst : (!([] ++ pre.map (pendCtx s)).contains (pendCtx s r))
      = decide ((pendAt s r).map (·.ctx) ∉ pre.map fun q => (pendAt s q).map (·.ctx)) := by
    simp only [hpre, ctx_of_ready (hready r (by simp)), List.mem_map_of_injective (Option.some_injective _), List.nil_append,
      List.contains_eq_mem, decide_not]
  rw [← hfirst, ← pendAt_sumAdded s w (pre ++ r :: post) r]
  exact pendAt_sigsDone_mem s w _ _ hnodup [] _

/-- Settles O10: the signals found make one addition of their exact sum; core signals are then marked one by one. -/
theorem signalsAddExactlyAndSaturateOnce : Obligations.SignalsAddExactlyAndSaturateOnce := by
  unfold Obligations.SignalsAddExactlyAndSaturateOnce
  constructor
  case left =>
    intro s s1 refs h hs w hwf hdist _ hpay hhits hword
    have hsame : s1.mem = s.mem := by have hkeep := sigHits_mem refs s; rwa [hhits] at hkeep
    have hm : Memory.wf memDefault s1.mem = true := hsame ▸ ((storesWf_iff s).mp hwf).1
    exact ⟨_, exec_signalApply_hits hdist hhits hword, wordRead_sumApplied hm hpay _,
      fun a n ha hout => memRead_sumApplied_other hm ha hout _⟩
  case right =>
    intro s refs w hwf hne hnodup _ hpay hready sum sat ctxOf
    have hm : Memory.wf memDefault s.mem = true := ((storesWf_iff s).mp hwf).1
    have hsum : wordRead s w + sumAmount (refs.map (coreSig s w)) = sum := by rw [sumAmount_coreSig]
    have hsat : sumSat w (refs.map (coreSig s w)) s = sat := by rw [sumSat, satSum_snd, hsum]
    obtain ⟨u, hwatches⟩ := watches_sumApplied s w refs
    refine ⟨_, exec_signalApply_core hne hnodup hready, hsum ▸ wordRead_sumApplied hm hpay _,
      fun a n ha hout => memRead_sumApplied_other hm ha hout _, ?watchCount, ?watchWoken, ?applied, ?other,
      sumFrame_sumApplied s w refs⟩
    case watchCount => rw [hwatches, length_wakeList]
    case watchWoken =>
      intro i x y hx hy
      obtain ⟨ride, hwoken⟩ := wakeList_getElem? hx w 4 u
      rw [hwatches, hwoken] at hy
      obtain rfl := Option.some.inj hy
      exact ⟨rfl, rfl, rfl, rfl⟩
    case applied =>
      rintro pre post r rfl
      rw [← hsat]
      exact pendAt_sumApplied_mem hnodup hready
    case other =>
      intro c k hout
      exact (pendAt_sigsDone_other s w _ _ hout [] _).trans (pendAt_sumAdded s w refs (c, k))

end Sys2Proof.Machine
end

section
/-! SUPPORT. GUARD (spec/13 R439, R440): its hash and its parity are linear over exclusive or, so what a decode finds depends on the
flipped bits alone. -/

namespace Sys2Proof.Machine

/-! ### Linearity -/

/-- The hash of an exclusive or. -/
theorem guardHash_xor (ps : List Nat) (a b : Nat) : guardHash ps (a ^^^ b) = guardHash ps a ^^^ guardHash ps b := by
  induction ps generalizing a b with
  | nil => exact (Nat.xor_self 0).symm
  | cons p ps ih =>
    have head : (if (a ^^^ b) % 2 = 1 then p else 0) = (if a % 2 = 1 then p else 0) ^^^ (if b % 2 = 1 then p else 0) := by
      rw [Nat.xor_mod_two_eq]
      rcases Nat.mod_two_eq_zero_or_one a with ha | ha <;> rcases Nat.mod_two_eq_zero_or_one b with hb | hb <;>
        simp [ha, hb, Nat.add_mod]
    change (if (a ^^^ b) % 2 = 1 then p else 0) ^^^ guardHash ps ((a ^^^ b) / 2)
      = ((if a % 2 = 1 then p else 0) ^^^ guardHash ps (a / 2)) ^^^ ((if b % 2 = 1 then p else 0) ^^^ guardHash ps (b / 2))
    rw [head, Nat.xor_div_two, ih]
    ac_rfl

/-- The parity of an exclusive or. -/
theorem parity_xor (a b : Nat) : parity (a ^^^ b) = parity a ^^^ parity b := by
  suffices h : ∀ n a b, parityAux n (a ^^^ b) = parityAux n a ^^^ parityAux n b from h 64 a b
  intro n
  induction n with
  | zero => exact fun _ _ => (Nat.xor_self 0).symm
  | succ n ih =>
    intro a b
    have low : (a ^^^ b) % 2 = a % 2 ^^^ b % 2 := Nat.xor_mod_two_pow (n := 1)
    change (a ^^^ b) % 2 ^^^ parityAux n ((a ^^^ b) / 2) = (a % 2 ^^^ parityAux n (a / 2)) ^^^ (b % 2 ^^^ parityAux n (b / 2))
    rw [low, Nat.xor_div_two, ih]
    ac_rfl

/-- A parity is a bit. -/
theorem parity_lt (a : Nat) : parity a < 2 ^ 1 := by
  suffices h : ∀ n a, parityAux n a < 2 ^ 1 from h 64 a
  intro n
  induction n with
  | zero => exact fun _ => Nat.two_pow_pos 1
  | succ n ih => exact fun a => Nat.xor_lt_two_pow (Nat.mod_lt a Nat.two_pos) (ih _)

/-- A field of an exclusive or. -/
theorem bits_xor (a b lo w : Nat) : bits (a ^^^ b) lo w = bits a lo w ^^^ bits b lo w := by
  apply Nat.eq_of_testBit_eq
  intro i
  simp only [testBit_bits, Nat.testBit_xor]
  cases decide (i < w) <;> rfl

/-! ### The parts of a guarded tag -/

/-- The hash of a tag's contents. -/
def tagHash (t : Nat) : Nat := guardHash guardPositions t

/-- The hash fits its six bits. -/
theorem tagHash_lt (t : Nat) : tagHash t < 2 ^ 6 := by
  suffices h : ∀ ps : List Nat, (∀ p ∈ ps, p < 2 ^ 6) → ∀ t, guardHash ps t < 2 ^ 6 from h guardPositions (by decide) t
  intro ps
  induction ps with
  | nil => exact fun _ _ => Nat.two_pow_pos 6
  | cons p ps ih =>
    intro hp t
    refine Nat.xor_lt_two_pow ?_ (ih (fun q hq => hp q (List.mem_cons_of_mem _ hq)) _)
    split
    · exact hp p List.mem_cons_self
    · exact Nat.two_pow_pos 6

/-- GUARD is a parity bit above the hash. -/
theorem guardOf_eq (t : Nat) : guardOf t = (parity t ^^^ parity (tagHash t)) * 64 + tagHash t := rfl

/-- The low six bits of GUARD are the hash. -/
theorem guardOf_mod (t : Nat) : guardOf t % 64 = tagHash t := by
  have := tagHash_lt t
  rw [guardOf_eq]; omega

/-- GUARD fits its seven bits. -/
theorem guardOf_lt (t : Nat) : guardOf t < 2 ^ 7 := by
  have hhash := tagHash_lt t
  have hpar : parity t ^^^ parity (tagHash t) < 2 ^ 1 := Nat.xor_lt_two_pow (parity_lt _) (parity_lt _)
  rw [guardOf_eq]; omega

/-- A bit and its parity. -/
theorem parity_bit_above {p h : Nat} (hp : p < 2 ^ 1) (hh : h < 2 ^ 6) : parity (p * 64 + h) = p ^^^ parity h := by
  have split : p * 64 + h = (p * 64) ^^^ h := by
    apply Nat.eq_of_testBit_eq
    intro i
    rw [Nat.mul_comm, Nat.testBit_two_pow_mul_add (i := 6) _ hh, Nat.testBit_xor, Nat.testBit_two_pow_mul (i := 6)]
    by_cases hi : i < 6
    · simp [hi, Nat.not_le.mpr hi]
    · have hzero : h.testBit i = false := Nat.testBit_lt_two_pow (lt_of_lt_of_le hh (Nat.pow_le_pow_right Nat.two_pos (by omega)))
      simp [hi, Nat.not_lt.mp hi, hzero]
  have bit : parity (p * 64) = p := by
    obtain rfl | rfl : p = 0 ∨ p = 1 := by omega
    all_goals rfl
  rw [split, parity_xor, bit]

/-- GUARD has the parity of the contents. -/
theorem parity_guardOf (t : Nat) : parity (guardOf t) = parity t := by
  rw [guardOf_eq, parity_bit_above (Nat.xor_lt_two_pow (parity_lt _) (parity_lt _)) (tagHash_lt t), Nat.xor_assoc, Nat.xor_self,
    Nat.xor_zero]

/-! ### What a decode finds -/

/-- The decision of R440 on the contents read, the syndrome, the parity and bit 63. -/
def guardVerdict (t syn q : Nat) (b63 : Bool) : Option (Nat × GuardEvent) :=
  let r : Option (Nat × GuardEvent) :=
    if b63 then
      if syn = 0 ∧ q = 0 then some (t, .single) else none
    else if syn = 0 ∧ q = 0 then some (t, .none)
    else if q = 0 then none
    else if syn = 0 ∨ syn = 1 ∨ syn = 2 ∨ syn = 4 ∨ syn = 8 ∨ syn = 16 ∨ syn = 32 then some (t, .single)
    else if syn = 63 then none
    else some (t ^^^ 2 ^ guardPositions.idxOf syn, .single)
  match r with
  | some (u, ev) => if bits u 48 8 = 0 then some (u, ev) else none
  | none => none

/-- The syndrome that flipping the bits of `e` makes. -/
def flipSyn (e : Nat) : Nat := tagHash (e % 2 ^ 56) ^^^ bits e 56 6

/-- The parity that flipping the bits of `e` makes. -/
def flipParity (e : Nat) : Nat := parity (e % 2 ^ 56) ^^^ parity (bits e 56 7)

/-- Two sets of flips: their syndromes add. -/
theorem flipSyn_xor (a b : Nat) : flipSyn (a ^^^ b) = flipSyn a ^^^ flipSyn b := by
  rw [flipSyn, Nat.xor_mod_two_pow, tagHash, guardHash_xor, bits_xor, flipSyn, flipSyn, tagHash, tagHash]
  ac_rfl

/-- Two sets of flips: their parities add. -/
theorem flipParity_xor (a b : Nat) : flipParity (a ^^^ b) = flipParity a ^^^ flipParity b := by
  rw [flipParity, Nat.xor_mod_two_pow, parity_xor, bits_xor, parity_xor, flipParity, flipParity]
  ac_rfl

/-- A decode is the verdict on what it reads. -/
theorem decodeTag_eq (tag : Nat) :
    decodeTag tag = guardVerdict (tag % 2 ^ 56) (guardOf (tag % 2 ^ 56) % 64 ^^^ bits tag 56 7 % 64)
      (parity (tag % 2 ^ 56) ^^^ parity (bits tag 56 7)) (bit tag 63) := rfl

/-- A guarded tag with the bits of `e` flipped: the decode's verdict rests on the flips' syndrome and parity. -/
theorem decodeTag_flip {t : Nat} (ht : t < 2 ^ 48) (e : Nat) :
    decodeTag ((guardOf t * 2 ^ 56 + t) ^^^ e) = guardVerdict (t ^^^ e % 2 ^ 56) (flipSyn e) (flipParity e) (bit e 63) := by
  have hg := guardOf_lt t
  have low : ((guardOf t * 2 ^ 56 + t) ^^^ e) % 2 ^ 56 = t ^^^ e % 2 ^ 56 := by
    rw [Nat.xor_mod_two_pow]; congr 1; omega
  have guard : bits ((guardOf t * 2 ^ 56 + t) ^^^ e) 56 7 = guardOf t ^^^ bits e 56 7 := by
    rw [bits_xor]; congr 1; unfold bits; omega
  have top : bit ((guardOf t * 2 ^ 56 + t) ^^^ e) 63 = bit e 63 := by
    have hfield := bits_xor (guardOf t * 2 ^ 56 + t) e 63 1
    have hzero : bits (guardOf t * 2 ^ 56 + t) 63 1 = 0 := by unfold bits; omega
    rw [hzero, Nat.zero_xor] at hfield
    exact congrArg (· == 1) hfield
  have syn : guardOf (t ^^^ e % 2 ^ 56) % 64 ^^^ (guardOf t ^^^ bits e 56 7) % 64 = flipSyn e := by
    have hsix : bits e 56 7 % 2 ^ 6 = bits e 56 6 := by unfold bits; omega
    have hmod : (guardOf t ^^^ bits e 56 7) % 64 = tagHash t ^^^ bits e 56 6 := by
      rw [← hsix, ← guardOf_mod t]; exact Nat.xor_mod_two_pow (n := 6)
    rw [guardOf_mod, hmod, tagHash, guardHash_xor, flipSyn, tagHash, tagHash, Nat.xor_comm (guardHash _ t), Nat.xor_assoc,
      ← Nat.xor_assoc (guardHash _ t), Nat.xor_self, Nat.zero_xor]
  have par : parity (t ^^^ e % 2 ^ 56) ^^^ parity (guardOf t ^^^ bits e 56 7) = flipParity e := by
    rw [parity_xor, parity_xor, parity_guardOf, flipParity, Nat.xor_comm (parity t), Nat.xor_assoc, ← Nat.xor_assoc (parity t),
      Nat.xor_self, Nat.zero_xor]
  rw [decodeTag_eq, low, guard, top, syn, par]

/-- Contents of 48 bits have nothing in the reserved bits. -/
theorem reserved_of_lt {t : Nat} (ht : t < 2 ^ 48) : bits t 48 8 = 0 := by unfold bits; omega

/-! ### Single flips -/

/-- Flipping a content bit makes the position of that bit the syndrome. -/
theorem flipSyn_content : ∀ i < 56, flipSyn (2 ^ i) = guardPositions.getD i 0 ∧ flipParity (2 ^ i) = 1 := by decide +kernel

/-- Flipping a bit of GUARD makes a power of two, or for its parity bit zero, the syndrome. -/
theorem flipSyn_guard : ∀ i < 7, flipSyn (2 ^ (56 + i)) = 2 ^ i % 64 ∧ flipParity (2 ^ (56 + i)) = 1 := by decide +kernel

/-- A position of a content bit is neither reserved nor a power of two, and stands where its bit does. -/
theorem guardPositions_spec : ∀ i < 56, guardPositions.getD i 0 ∉ [0, 1, 2, 4, 8, 16, 32, 63]
    ∧ guardPositions.idxOf (guardPositions.getD i 0) = i := by decide +kernel

/-- The flips of bits below 63 have different syndromes. -/
theorem flipSyn_injective : ∀ i < 63, ∀ j < i, flipSyn (2 ^ i) ≠ flipSyn (2 ^ j) := by decide +kernel

/-- Bits below 63 leave bit 63. -/
theorem bit_pow_63 : ∀ i < 63, bit (2 ^ i) 63 = false ∧ flipParity (2 ^ i) = 1 := by decide +kernel

/-- A flipped content bit is corrected. -/
theorem guardVerdict_content {t i : Nat} (ht : t < 2 ^ 48) (hi : i < 56) :
    guardVerdict (t ^^^ 2 ^ i) (guardPositions.getD i 0) 1 false = some (t, .single) := by
  obtain ⟨hnot, hat⟩ := guardPositions_spec i hi
  simp only [List.mem_cons, List.not_mem_nil, not_or] at hnot
  obtain ⟨h0, h1, h2, h4, h8, h16, h32, h63, -⟩ := hnot
  simp only [guardVerdict, h0, h1, h2, h4, h8, h16, h32, h63, hat, Nat.xor_assoc, Nat.xor_self, Nat.xor_zero, reserved_of_lt ht,
    false_and, or_self, if_false, if_true, Nat.one_ne_zero, Bool.false_eq_true]

/-- A flipped bit of GUARD leaves the contents. -/
theorem guardVerdict_guard {t i : Nat} (ht : t < 2 ^ 48) (hi : i < 7) :
    guardVerdict t (2 ^ i % 64) 1 false = some (t, .single) := by
  have hres := reserved_of_lt ht
  have cases : 2 ^ i % 64 ∈ [0, 1, 2, 4, 8, 16, 32] := by
    revert i; decide
  simp only [List.mem_cons, List.not_mem_nil, or_false] at cases
  simp [guardVerdict, cases, hres]

/-- The three groups of a tag's bits. -/
theorem decodeTag_single {t i : Nat} (ht : t < 2 ^ 48) (hi : i < 64) :
    decodeTag ((guardOf t * 2 ^ 56 + t) ^^^ 2 ^ i) = some (t, .single) := by
  rw [decodeTag_flip ht]
  rcases Nat.lt_or_ge i 56 with hc | hc
  · obtain ⟨hsyn, hpar⟩ := flipSyn_content i hc
    rw [hsyn, hpar, (bit_pow_63 i (by omega)).1, Nat.mod_eq_of_lt (Nat.pow_lt_pow_right (by decide) hc)]
    exact guardVerdict_content ht hc
  · have hlow : 2 ^ i % 2 ^ 56 = 0 := Nat.mod_eq_zero_of_dvd (Nat.pow_dvd_pow 2 hc)
    rw [hlow, Nat.xor_zero]
    rcases Nat.lt_or_ge i 63 with hg | hg
    · obtain ⟨k, rfl⟩ := Nat.exists_eq_add_of_le hc
      obtain ⟨hsyn, hpar⟩ := flipSyn_guard k (by omega)
      rw [hsyn, hpar, (bit_pow_63 _ hg).1]
      exact guardVerdict_guard ht (by omega)
    · obtain rfl : i = 63 := by omega
      have hverdict : guardVerdict t 0 0 true = some (t, .single) := by simp [guardVerdict, reserved_of_lt ht]
      exact hverdict

/-! ### Double flips -/

/-- Two flips below bit 63: an even parity and a syndrome that is not zero. -/
theorem guardVerdict_even {t syn : Nat} (h : syn ≠ 0) : guardVerdict t syn 0 false = none := by simp [guardVerdict, h]

/-- A flip beside that of bit 63: the parity is odd. -/
theorem guardVerdict_top {t syn : Nat} : guardVerdict t syn 1 true = none := by simp [guardVerdict]

/-- Two flips are found. -/
theorem decodeTag_double {t i j : Nat} (ht : t < 2 ^ 48) (hi : i < 64) (hj : j < i) :
    decodeTag ((guardOf t * 2 ^ 56 + t) ^^^ 2 ^ i ^^^ 2 ^ j) = none := by
  rw [Nat.xor_assoc, decodeTag_flip ht, flipSyn_xor, flipParity_xor]
  have hbit : bit (2 ^ i ^^^ 2 ^ j) 63 = bit (2 ^ i) 63 := by
    have hzero : bits (2 ^ j) 63 1 = 0 := by
      rw [bits, Nat.div_eq_of_lt (Nat.pow_lt_pow_right (by decide) (by omega))]; rfl
    have hfield := bits_xor (2 ^ i) (2 ^ j) 63 1
    rw [hzero, Nat.xor_zero] at hfield
    exact congrArg (· == 1) hfield
  obtain ⟨-, hparj⟩ := bit_pow_63 j (by omega)
  rw [hbit, hparj]
  rcases Nat.lt_or_ge i 63 with hlt | hge
  · obtain ⟨htop, hpari⟩ := bit_pow_63 i hlt
    rw [htop, hpari]
    refine guardVerdict_even fun hzero => ?_
    exact flipSyn_injective i hlt j hj (by rwa [Nat.xor_eq_zero_iff] at hzero)
  · obtain rfl : i = 63 := by omega
    exact guardVerdict_top

/-- Settles O58: what a decode finds depends on the flips' syndrome and parity, which add over the flips. -/
theorem guardCorrectsOneFlipAndFindsTwo : Obligations.GuardCorrectsOneFlipAndFindsTwo := by
  unfold Obligations.GuardCorrectsOneFlipAndFindsTwo
  intro t ht tag
  refine ⟨?clean, fun i hi => decodeTag_single ht hi, fun i hi j hj => decodeTag_double ht hi hj⟩
  have hverdict : guardVerdict t 0 0 false = some (t, .none) := by simp [guardVerdict, reserved_of_lt ht]
  have hclean := decodeTag_flip ht 0
  rw [Nat.xor_zero, Nat.zero_mod, Nat.xor_zero] at hclean
  exact hclean.trans hverdict

end Sys2Proof.Machine
end

section
/-! SUPPORT. The stream word (spec/05 Tables 5.1 to 5.14) as a row of fields: an operation's fields in order from bit 0, and the word as
their sum. Decoding reads the row; encoding writes it. -/

namespace Sys2Proof.Machine

/-! ### A word as a row of fields -/

/-- The word of a row of fields, width and value, the lowest first. -/
def packFields : List (Nat × Nat) → Nat
  | [] => 0
  | (n, v) :: fs => v + 2 ^ n * packFields fs

/-- The values that a word has in a row of widths from bit `lo` on. -/
def readFields (w : Nat) : Nat → List Nat → List Nat
  | _, [] => []
  | lo, n :: ns => bits w lo n :: readFields w (lo + n) ns

/-- Reading a word above its lowest field. -/
theorem readFields_above (v n x lo : Nat) (ns : List Nat) (hv : v < 2 ^ n) :
    readFields (v + 2 ^ n * x) (n + lo) ns = readFields x lo ns := by
  induction ns generalizing lo with
  | nil => rfl
  | cons m ns ih =>
    have head : bits (v + 2 ^ n * x) (n + lo) m = bits x lo m := by
      rw [bits, bits, Nat.pow_add, ← Nat.div_div_eq_div_mul, Nat.add_mul_div_left _ _ (Nat.two_pow_pos n), Nat.div_eq_of_lt hv,
        Nat.zero_add]
    rw [readFields, readFields, head, Nat.add_assoc, ih]

/-- A packed row of fields in range reads back. -/
theorem readFields_packFields (fs : List (Nat × Nat)) (h : ∀ f ∈ fs, f.2 < 2 ^ f.1) :
    readFields (packFields fs) 0 (fs.map (·.1)) = fs.map (·.2) := by
  induction fs with
  | nil => rfl
  | cons f fs ih =>
    obtain ⟨n, v⟩ := f
    have hv : v < 2 ^ n := h _ List.mem_cons_self
    have head : bits (v + 2 ^ n * packFields fs) 0 n = v := by
      rw [bits, Nat.pow_zero, Nat.div_one, Nat.add_mul_mod_self_left, Nat.mod_eq_of_lt hv]
    rw [List.map_cons, List.map_cons, packFields, readFields, head, Nat.zero_add]
    have above := readFields_above v n (packFields fs) 0 (fs.map (·.1)) hv
    rw [Nat.add_zero] at above
    rw [above, ih fun g hg => h g (List.mem_cons_of_mem _ hg)]

/-- Packing what a word has in a row of widths gives the part of the word that the row covers. -/
theorem packFields_readFields (w lo : Nat) (fs : List (Nat × Nat)) (h : readFields w lo (fs.map (·.1)) = fs.map (·.2)) :
    packFields fs = w / 2 ^ lo % 2 ^ (fs.map (·.1)).sum := by
  induction fs generalizing lo with
  | nil => simp [packFields, Nat.mod_one]
  | cons f fs ih =>
    obtain ⟨n, v⟩ := f
    obtain ⟨hhead, htail⟩ := List.cons.inj h
    rw [packFields, ih (lo + n) htail, List.map_cons, List.sum_cons, Nat.pow_add 2 n, Nat.mod_mul, Nat.div_div_eq_div_mul,
      ← Nat.pow_add]
    simp only [bits] at hhead
    rw [hhead]

/-! ### One field -/

/-- A bit as a field of width 1. -/
theorem bit_eq_bits (w i : Nat) : bit w i = (bits w i 1 == 1) := rfl

/-- The field of a bit. -/
theorem bnat_bit (w i : Nat) : bnat (bit w i) = bits w i 1 := by
  have h := bits_lt w i 1
  rw [bit_eq_bits]
  rcases (by omega : bits w i 1 = 0 ∨ bits w i 1 = 1) with e | e <;> rw [e] <;> rfl

/-- A Bool read back from its field. -/
theorem bnat_beq_one (b : Bool) : (bnat b == 1) = b := by cases b <;> rfl

/-- A Bool fits one bit. -/
theorem bnat_lt (b : Bool) : bnat b < 2 ^ 1 := by cases b <;> decide

/-- A descriptor fits six bits. -/
theorem Opd.enc_lt (o : Opd) : o.enc < 2 ^ 6 := by
  have h1 := bnat_lt o.step
  have h2 := bnat_lt o.q
  rw [Opd.enc]; omega

/-- The descriptor of six bits. -/
def opdOf (n : Nat) : Opd := ⟨bit n 5, bit n 4, bits n 0 4⟩

/-- The descriptor of a word is that of its six bits. -/
theorem opdAt_eq_opdOf (w lo : Nat) : opdAt w lo = opdOf (bits w lo 6) := by
  have part : ∀ i n, i + n ≤ 6 → bits w (lo + i) n = bits (bits w lo 6) i n := by
    intro i n hi
    apply Nat.eq_of_testBit_eq
    intro k
    simp only [testBit_bits, Nat.add_assoc]
    by_cases hk : k < n
    · have : i + k < 6 := by omega
      simp [hk, this]
    · simp [hk]
  rw [opdAt, opdOf, bit_eq_bits, bit_eq_bits, bit_eq_bits, bit_eq_bits, part 5 1 (by decide), part 4 1 (by decide),
    ← part 0 4 (by decide), Nat.add_zero]

/-- The descriptor field of a word. -/
theorem enc_opdAt (w lo : Nat) : (opdAt w lo).enc = bits w lo 6 := by
  have all : ∀ n < 64, (opdOf n).enc = n := by decide
  rw [opdAt_eq_opdOf, all _ (bits_lt w lo 6)]

/-- A descriptor in range is that of its six bits. -/
theorem opdOf_enc {o : Opd} (h : o.wf = true) : opdOf o.enc = o := by
  obtain ⟨s, q, a⟩ := o
  have ha : a < 16 := by
    rw [Opd.wf, Bool.and_eq_true] at h
    exact of_decide_eq_true h.1
  have all : ∀ s q : Bool, ∀ a < 16, opdOf (Opd.enc ⟨s, q, a⟩) = ⟨s, q, a⟩ := by decide
  exact all s q a ha

/-- A descriptor of a word is in range when it is legal. -/
theorem opdAt_wf (w lo : Nat) : (opdAt w lo).wf = (opdAt w lo).legal := by
  have h : (opdAt w lo).ari < 16 := bits_lt w lo 4
  simp [Opd.wf, h]

/-- A descriptor of memory is legal. -/
theorem Opd.legal_of_mem {o : Opd} (h : o.mem = true) : o.legal = true := by
  rw [Opd.mem] at h
  rw [Opd.legal, h, Bool.true_or]

/-- A descriptor in range is legal. -/
theorem Opd.legal_of_wf {o : Opd} (h : o.wf = true) : o.legal = true := by
  rw [Opd.wf, Bool.and_eq_true] at h
  exact h.2

/-! ### The rows of the operations -/

/-- The fields of an operation below REP, the lowest first, the reserved ones with value zero (Tables 5.6 to 5.14). -/
def SOp.row : SOp → List (Nat × Nat)
  | .nop => [(104, 0)]
  | .arset ari (.imm usep pari imm) => [(56, imm), (31, 0), (5, pari), (4, 0), (1, 0), (1, bnat usep), (2, 0), (4, ari)]
  | .arset ari (.strides w0 w1 s0 s1) => [(32, s1), (32, s0), (16, w1), (16, w0), (2, 0), (2, 1), (4, ari)]
  | .arset ari (.par pblk imm) => [(56, imm), (24, 0), (16, pblk), (2, 0), (2, 2), (4, ari)]
  | .arset ari (.copy ars) => [(92, 0), (4, ars), (2, 0), (2, 3), (4, ari)]
  | .cntset i auto mod val => [(32, 0), (32, val), (32, mod), (5, 0), (1, bnat auto), (2, i)]
  | .cntadd i amt => [(64, 0), (32, amt), (6, 0), (2, i)]
  | .cmpset i src cond value => [(64, 0), (32, value), (2, 0), (3, cond), (2, src), (1, i)]
  | .signal word amt => [(32, 0), (32, amt), (34, 0), (6, word.enc)]
  | .wait word cond vadd gate park poll value =>
    [(32, 0), (32, value), (20, 0), (4, poll), (1, 0), (1, bnat park), (2, gate), (3, vadd), (3, cond), (6, word.enc)]
  | .phase lead level dur => [(72, 0), (16, dur), (4, 0), (4, level), (8, lead)]
  | .mpass fmt dmode keep rnd dst nv salt =>
    [(48, 0), (16, salt), (15, 0), (9, nv - 1), (6, dst.enc), (1, bnat rnd), (1, bnat keep), (4, dmode), (4, fmt)]
  | .munload dmode rnd dst src nr salt =>
    [(48, 0), (16, salt), (9, 0), (9, nr - 1), (6, src.enc), (6, dst.enc), (1, bnat rnd), (1, 0), (4, dmode), (4, 0)]
  | .vew op i32 a b c d bimm imm =>
    [(32, 0), (32, imm), (9, 0), (1, bnat bimm), (6, d.enc), (6, c.enc), (6, b.enc), (6, a.enc), (1, bnat i32), (5, op)]
  | .vtr fn a d => [(88, 0), (6, d.enc), (6, a.enc), (4, fn)]
  | .vred rop a d k => [(78, 0), (12, k - 1), (6, d.enc), (6, a.enc), (2, rop)]
  | .vcvt sfmt dfmt rnd a d s salt =>
    [(48, 0), (16, salt), (11, 0), (8, s), (6, d.enc), (6, a.enc), (1, bnat rnd), (4, dfmt), (4, sfmt)]
  | .vdrop a d pari thr scale => [(31, 0), (32, scale), (24, thr), (5, pari), (6, d.enc), (6, a.enc)]
  | .ltile fmt src => [(94, 0), (6, src.enc), (4, fmt)]
  | .lvec fmt src => [(94, 0), (6, src.enc), (4, fmt)]
  | .lq fmt src => [(94, 0), (6, src.enc), (4, fmt)]
  | .lfetch src dst nb => [(83, 0), (5, nb - 1), (6, dst.enc), (6, src.enc), (4, 0)]
  | .xput src dst nb accum strm seqp => [(76, 0), (5, seqp), (4, strm), (1, bnat accum), (6, nb - 1), (6, dst.enc), (6, src.enc)]
  | .xget src dst nb => [(86, 0), (6, nb - 1), (6, dst.enc), (6, src.enc)]
  | .shift src dst nb axis accum strm seqp =>
    [(73, 0), (5, seqp), (4, strm), (1, bnat accum), (3, axis), (6, nb - 1), (6, dst.enc), (6, src.enc)]
  | .permute tbl src strm seqp => [(76, 0), (1, 0), (5, seqp), (4, strm), (6, 0), (6, src.enc), (6, tbl.enc)]

/-- The row of a whole word: the operation's fields, REP and OPCODE (Table 5.1). -/
def wordRow (rep : Nat) (op : SOp) : List (Nat × Nat) := op.row ++ [(16, rep), (8, op.opcode)]

/-- The word has the operation's row. -/
def HasRow (w rep : Nat) (op : SOp) : Prop := readFields w 0 ((wordRow rep op).map (·.1)) = (wordRow rep op).map (·.2)

/-- The fields of a row at their places from bit `lo` on, the highest first. -/
def sumFields : Nat → List (Nat × Nat) → Nat
  | _, [] => 0
  | lo, (n, v) :: fs => sumFields (lo + n) fs + v * 2 ^ lo

/-- A row's fields at their places are the packed row. -/
theorem sumFields_eq_packFields (lo : Nat) (fs : List (Nat × Nat)) : sumFields lo fs = packFields fs * 2 ^ lo := by
  induction fs generalizing lo with
  | nil => exact (Nat.zero_mul _).symm
  | cons f fs ih =>
    rw [packFields, Nat.add_mul, Nat.mul_assoc, Nat.mul_left_comm, ← Nat.pow_add, Nat.add_comm f.1, ← ih, Nat.add_comm]
    rfl

/-- A row's fields at their places from bit `lo` on add up to `x`. -/
def SumIs (lo : Nat) (fs : List (Nat × Nat)) (x : Nat) : Prop := sumFields lo fs = x

section

variable {lo n m v x : Nat} {fs : List (Nat × Nat)}

/-- The highest field alone. -/
theorem sum_top : SumIs lo [(n, v)] (v * 2 ^ lo) := Nat.zero_add _

/-- A field below those summed before it. -/
theorem sum_field (h : SumIs (lo + n) fs x) : SumIs lo ((n, v) :: fs) (x + v * 2 ^ lo) :=
  congrArg (· + v * 2 ^ lo) h

/-- A reserved field adds nothing. -/
theorem sum_reserved (h : SumIs (lo + n) fs x) : SumIs lo ((n, 0) :: fs) x :=
  (sum_field (v := 0) h).trans (by rw [Nat.zero_mul, Nat.add_zero])

/-- A field that stands at bit 0. -/
theorem sum_lowest (h : SumIs (0 + n) fs x) : SumIs 0 ((n, v) :: fs) (x + v) :=
  (sum_field h).trans (by rw [Nat.pow_zero, Nat.mul_one])

/-- The highest field but a reserved one. -/
theorem sum_below_reserved : SumIs lo [(n, v), (m, 0)] (v * 2 ^ lo) :=
  (sum_field (sum_reserved (fs := []) (x := 0) rfl)).trans (Nat.zero_add _)

end

/-- Packing a row in two parts. -/
theorem packFields_append (fs gs : List (Nat × Nat)) :
    packFields (fs ++ gs) = packFields fs + 2 ^ (fs.map (·.1)).sum * packFields gs := by
  induction fs with
  | nil => simp [packFields]
  | cons f fs ih => rw [List.cons_append, packFields, packFields, ih, List.map_cons, List.sum_cons, Nat.pow_add]; ring

/-- The encoder places the operation's fields. -/
theorem sumIs_encFields (op : SOp) : SumIs 0 op.row op.encFields := by
  rcases op with _ | ⟨_, _ | _ | _ | _⟩ | _
  case nop => exact sum_reserved (x := 0) rfl
  case cntset => exact sum_reserved (sum_field (sum_field (sum_reserved (sum_field sum_top))))
  case cntadd => exact sum_reserved (sum_field (sum_reserved sum_top))
  case cmpset => exact sum_reserved (sum_field (sum_reserved (sum_field (sum_field sum_top))))
  case signal => exact sum_reserved (sum_field (sum_reserved sum_top))
  case wait =>
    exact sum_reserved (sum_field (sum_reserved (sum_field (sum_reserved (sum_field (sum_field (sum_field (sum_field
      sum_top))))))))
  case phase => exact sum_reserved (sum_field (sum_reserved (sum_field sum_top)))
  case mpass => exact sum_reserved (sum_field (sum_reserved (sum_field (sum_field (sum_field (sum_field (sum_field sum_top)))))))
  case munload =>
    exact sum_reserved (sum_field (sum_reserved (sum_field (sum_field (sum_field (sum_field (sum_reserved
      sum_below_reserved)))))))
  case vew =>
    exact sum_reserved (sum_field (sum_reserved (sum_field (sum_field (sum_field (sum_field (sum_field (sum_field sum_top))))))))
  case vtr => exact sum_reserved (sum_field (sum_field sum_top))
  case vred => exact sum_reserved (sum_field (sum_field (sum_field sum_top)))
  case vdrop => exact sum_reserved (sum_field (sum_field (sum_field (sum_field sum_top))))
  case ltile => exact sum_reserved (sum_field sum_top)
  case lvec => exact sum_reserved (sum_field sum_top)
  case lq => exact sum_reserved (sum_field sum_top)
  case lfetch => exact sum_reserved (sum_field (sum_field sum_below_reserved))
  case xput => exact sum_reserved (sum_field (sum_field (sum_field (sum_field (sum_field sum_top)))))
  case xget => exact sum_reserved (sum_field (sum_field sum_top))
  case shift => exact sum_reserved (sum_field (sum_field (sum_field (sum_field (sum_field (sum_field sum_top))))))
  case permute => exact sum_reserved (sum_reserved (sum_field (sum_field (sum_reserved (sum_field sum_top)))))
  case vcvt => exact sum_reserved (sum_field (sum_reserved (sum_field (sum_field (sum_field (sum_field (sum_field sum_top)))))))
  case arset.imm => exact sum_lowest (sum_reserved (sum_field (sum_reserved (sum_reserved (sum_field (sum_reserved sum_top))))))
  case arset.strides => exact sum_lowest (sum_field (sum_field (sum_field (sum_reserved (sum_field sum_top)))))
  case arset.par => exact sum_lowest (sum_reserved (sum_field (sum_reserved (sum_field sum_top))))
  case arset.copy => exact sum_reserved (sum_field (sum_reserved (sum_field sum_top)))

/-- An operation's own fields lie below REP. -/
theorem SOp.row_width (op : SOp) : (op.row.map (·.1)).sum = 104 := by
  rcases op with _ | ⟨_, _ | _ | _ | _⟩ | _ <;> rfl

/-- The encoder writes the row. -/
theorem encodeStream_eq_packFields (rep : Nat) (op : SOp) : encodeStream rep op = packFields (wordRow rep op) := by
  have hop : packFields op.row = op.encFields := by
    rw [← sumIs_encFields op, sumFields_eq_packFields, Nat.pow_zero, Nat.mul_one]
  rw [wordRow, packFields_append, SOp.row_width, hop]
  simp only [encodeStream, packFields]
  ring

/-- A row covers the word. -/
theorem wordRow_width (rep : Nat) (op : SOp) : ((wordRow rep op).map (·.1)).sum = 128 := by
  rcases op with _ | ⟨_, _ | _ | _ | _⟩ | _ <;> rfl

/-- The opcodes fit eight bits. -/
theorem SOp.opcode_lt (op : SOp) : op.opcode < 2 ^ 8 := by cases op <;> exact Nat.le_of_ble_eq_true rfl

/-- A word of 128 bits with an operation's row is its encoding. -/
theorem encodeStream_of_hasRow {w rep : Nat} {op : SOp} (hw : w < 2 ^ 128) (h : HasRow w rep op) : encodeStream rep op = w := by
  rw [encodeStream_eq_packFields, packFields_readFields w 0 _ h, wordRow_width, Nat.pow_zero, Nat.div_one, Nat.mod_eq_of_lt hw]

/-! ### Conjunctions of checks, taken apart at once -/

section

variable {a b c d e f g h i j : Bool} {P : Prop}

theorem and2_intro (ha : a = true) (hb : b = true) : (a && b) = true := Bool.and_eq_true_iff.mpr ⟨ha, hb⟩

theorem and2_elim (hall : (a && b) = true) (k : a = true → b = true → P) : P :=
  k (Bool.and_eq_true_iff.mp hall).1 (Bool.and_eq_true_iff.mp hall).2

theorem and3_intro (ha : a = true) (hb : b = true) (hc : c = true) : (a && b && c) = true :=
  and2_intro (and2_intro ha hb) hc

theorem and3_elim (hall : (a && b && c) = true) (k : a = true → b = true → c = true → P) : P :=
  and2_elim hall fun hall hc => and2_elim hall fun ha hb => k ha hb hc

theorem and4_intro (ha : a = true) (hb : b = true) (hc : c = true) (hd : d = true) : (a && b && c && d) = true :=
  and2_intro (and3_intro ha hb hc) hd

theorem and4_elim (hall : (a && b && c && d) = true) (k : a = true → b = true → c = true → d = true → P) : P :=
  and2_elim hall fun hall hd => and3_elim hall fun ha hb hc => k ha hb hc hd

theorem and5_intro (ha : a = true) (hb : b = true) (hc : c = true) (hd : d = true) (he : e = true) : (a && b && c && d && e) = true :=
  and2_intro (and4_intro ha hb hc hd) he

theorem and5_elim (hall : (a && b && c && d && e) = true) (k : a = true → b = true → c = true → d = true → e = true → P) : P :=
  and2_elim hall fun hall he => and4_elim hall fun ha hb hc hd => k ha hb hc hd he

theorem and6_intro (ha : a = true) (hb : b = true) (hc : c = true) (hd : d = true) (he : e = true) (hf : f = true) : (a && b && c && d && e && f) = true :=
  and2_intro (and5_intro ha hb hc hd he) hf

theorem and6_elim (hall : (a && b && c && d && e && f) = true) (k : a = true → b = true → c = true → d = true → e = true → f = true → P) : P :=
  and2_elim hall fun hall hf => and5_elim hall fun ha hb hc hd he => k ha hb hc hd he hf

theorem and7_intro (ha : a = true) (hb : b = true) (hc : c = true) (hd : d = true) (he : e = true) (hf : f = true) (hg : g = true) : (a && b && c && d && e && f && g) = true :=
  and2_intro (and6_intro ha hb hc hd he hf) hg

theorem and7_elim (hall : (a && b && c && d && e && f && g) = true) (k : a = true → b = true → c = true → d = true → e = true → f = true → g = true → P) : P :=
  and2_elim hall fun hall hg => and6_elim hall fun ha hb hc hd he hf => k ha hb hc hd he hf hg

theorem and8_intro (ha : a = true) (hb : b = true) (hc : c = true) (hd : d = true) (he : e = true) (hf : f = true) (hg : g = true) (hh : h = true) : (a && b && c && d && e && f && g && h) = true :=
  and2_intro (and7_intro ha hb hc hd he hf hg) hh

theorem and8_elim (hall : (a && b && c && d && e && f && g && h) = true) (k : a = true → b = true → c = true → d = true → e = true → f = true → g = true → h = true → P) : P :=
  and2_elim hall fun hall hh => and7_elim hall fun ha hb hc hd he hf hg => k ha hb hc hd he hf hg hh

theorem and9_intro (ha : a = true) (hb : b = true) (hc : c = true) (hd : d = true) (he : e = true) (hf : f = true) (hg : g = true) (hh : h = true) (hi : i = true) : (a && b && c && d && e && f && g && h && i) = true :=
  and2_intro (and8_intro ha hb hc hd he hf hg hh) hi

theorem and9_elim (hall : (a && b && c && d && e && f && g && h && i) = true) (k : a = true → b = true → c = true → d = true → e = true → f = true → g = true → h = true → i = true → P) : P :=
  and2_elim hall fun hall hi => and8_elim hall fun ha hb hc hd he hf hg hh => k ha hb hc hd he hf hg hh hi

theorem and10_intro (ha : a = true) (hb : b = true) (hc : c = true) (hd : d = true) (he : e = true) (hf : f = true) (hg : g = true) (hh : h = true) (hi : i = true) (hj : j = true) : (a && b && c && d && e && f && g && h && i && j) = true :=
  and2_intro (and9_intro ha hb hc hd he hf hg hh hi) hj

theorem and10_elim (hall : (a && b && c && d && e && f && g && h && i && j) = true) (k : a = true → b = true → c = true → d = true → e = true → f = true → g = true → h = true → i = true → j = true → P) : P :=
  and2_elim hall fun hall hj => and9_elim hall fun ha hb hc hd he hf hg hh hi => k ha hb hc hd he hf hg hh hi hj

end

/-! ### The fields of an operation in range -/

/-- The formats of a VCVT pair fit their fields. -/
theorem vcvtPair_lt {sfmt dfmt : Nat} {p : Bool × Bool} (h : vcvtPair sfmt dfmt = some p) : sfmt < 2 ^ 4 ∧ dfmt < 2 ^ 4 := by
  have hs : sfmt < 16 := by
    refine Nat.lt_of_not_le fun hle => ?_
    obtain ⟨n, rfl⟩ := Nat.exists_eq_add_of_le' hle
    cases h
  refine ⟨hs, Nat.lt_of_not_le fun hle => ?_⟩
  obtain ⟨n, rfl⟩ := Nat.exists_eq_add_of_le' hle
  interval_cases sfmt <;> cases h

/-- A VCVT in range names a pair of formats. -/
theorem vcvtPair_of_wf {rep sfmt dfmt s salt : Nat} {rnd : Bool} {a d : Opd} (h : (SOp.vcvt sfmt dfmt rnd a d s salt).wf rep = true) :
    ∃ p, vcvtPair sfmt dfmt = some p := by
  have hpair : (match vcvtPair sfmt dfmt with | none => false | some (rounds, usesS) => (rounds || !rnd) && (usesS || s == 0)) = true :=
    and6_elim h fun hpair _ _ _ _ _ => hpair
  rcases e : vcvtPair sfmt dfmt with _ | p
  · rw [e] at hpair; cases hpair
  · exact ⟨p, rfl⟩

/-- The range of a VCVT with its pair of formats. -/
theorem SOp.vcvt_wf {rep sfmt dfmt s salt : Nat} {rnd : Bool} {a d : Opd} {p : Bool × Bool} (e : vcvtPair sfmt dfmt = some p) :
    (SOp.vcvt sfmt dfmt rnd a d s salt).wf rep
      = ((p.1 || !rnd) && (p.2 || s == 0) && a.wf && d.wf && d.mem && decide (s < 256) && decide (salt < 2 ^ 16)) := by
  change ((match vcvtPair sfmt dfmt with | none => false | some (rounds, usesS) => (rounds || !rnd) && (usesS || s == 0)) && _ && _ && _
    && _ && _) = _
  rw [e]

/-- A value up to a field's largest fits the field. -/
theorem fits {v b n : Nat} (h : decide (v ≤ b) = true) (hb : b < 2 ^ n) : v < 2 ^ n := Nat.lt_of_le_of_lt (of_decide_eq_true h) hb

/-- A count fits a field that holds it less one. -/
theorem pred_fits {v b : Nat} (h : decide (1 ≤ v) = true) (hb : decide (v ≤ b) = true) : v - 1 < b :=
  Nat.sub_one_lt_of_le (of_decide_eq_true h) (of_decide_eq_true hb)

/-- Every field of a row is in range. -/
def rowFits : List (Nat × Nat) → Prop
  | [] => True
  | (n, v) :: fs => v < 2 ^ n ∧ rowFits fs

theorem rowFits.mem {fs : List (Nat × Nat)} (h : rowFits fs) : ∀ f ∈ fs, f.2 < 2 ^ f.1 := by
  induction fs with
  | nil => exact fun _ hf => absurd hf List.not_mem_nil
  | cons g fs ih => exact List.forall_mem_cons.mpr ⟨h.1, ih h.2⟩

/-- The fields of a well-formed operation are in range. -/
theorem SOp.row_fits {rep : Nat} {op : SOp} (h : op.wf rep = true) : rowFits op.row := by
  rcases op with _ | ⟨_, _ | _ | _ | _⟩ | _
  case vcvt =>
    obtain ⟨p, e⟩ := vcvtPair_of_wf h
    obtain ⟨hsfmt, hdfmt⟩ := vcvtPair_lt e
    exact and7_elim ((SOp.vcvt_wf e).symm.trans h) fun _ _ _ _ _ t75 t48 => ⟨Nat.two_pow_pos _, of_decide_eq_true t48, Nat.two_pow_pos _,
      of_decide_eq_true t75, Opd.enc_lt _, Opd.enc_lt _, bnat_lt _, hdfmt, hsfmt, trivial⟩
  case arset.imm =>
    exact and3_elim h fun _ t100 hform => and2_elim hform fun t87 t0 => ⟨of_decide_eq_true t0, Nat.two_pow_pos _, of_decide_eq_true t87,
      Nat.two_pow_pos _, Nat.two_pow_pos _, bnat_lt _, Nat.two_pow_pos _, of_decide_eq_true t100, trivial⟩
  case arset.strides =>
    exact and3_elim h fun _ t100 hform => and4_elim hform fun t80 t64 t32 t0 => ⟨of_decide_eq_true t0, of_decide_eq_true t32,
      of_decide_eq_true t64, of_decide_eq_true t80, Nat.two_pow_pos _, by decide, of_decide_eq_true t100, trivial⟩
  case arset.par =>
    exact and3_elim h fun _ t100 hform => and2_elim hform fun t80 t0 => ⟨of_decide_eq_true t0, Nat.two_pow_pos _, of_decide_eq_true t80,
      Nat.two_pow_pos _, by decide, of_decide_eq_true t100, trivial⟩
  case arset.copy =>
    exact and3_elim h fun _ t100 t92 => ⟨Nat.two_pow_pos _, of_decide_eq_true t92, Nat.two_pow_pos _, by decide,
      of_decide_eq_true t100, trivial⟩
  case nop => exact ⟨Nat.two_pow_pos _, trivial⟩
  case cntset =>
    exact and4_elim h fun _ t102 t64 t32 => ⟨Nat.two_pow_pos _, of_decide_eq_true t32, of_decide_eq_true t64, Nat.two_pow_pos _, bnat_lt
      _, of_decide_eq_true t102, trivial⟩
  case cntadd =>
    exact and2_elim h fun t102 t64 => ⟨Nat.two_pow_pos _, of_decide_eq_true t64, Nat.two_pow_pos _, of_decide_eq_true t102, trivial⟩
  case cmpset =>
    exact and5_elim h fun _ t103 t101 ha1 t64 => ⟨Nat.two_pow_pos _, of_decide_eq_true t64, Nat.two_pow_pos _, fits ha1 (by decide),
      of_decide_eq_true t101, of_decide_eq_true t103, trivial⟩
  case signal =>
    exact and4_elim h fun _ _ _ t32 => ⟨Nat.two_pow_pos _, of_decide_eq_true t32, Nat.two_pow_pos _, Opd.enc_lt _, trivial⟩
  case wait =>
    exact and8_elim h fun _ _ _ hb1 hc1 hd1 t84 t32 => ⟨Nat.two_pow_pos _, of_decide_eq_true t32, Nat.two_pow_pos _, of_decide_eq_true
      t84, Nat.two_pow_pos _, bnat_lt _, fits hd1 (by decide), fits hc1 (by decide), fits hb1 (by decide), Opd.enc_lt _, trivial⟩
  case phase =>
    exact and7_elim h fun _ _ t96 _ t92 _ t72 => ⟨Nat.two_pow_pos _, of_decide_eq_true t72, Nat.two_pow_pos _, of_decide_eq_true t92,
      of_decide_eq_true t96, trivial⟩
  case mpass =>
    exact and8_elim h fun ha1 hb1 _ _ _ g79 t79 t48 => ⟨Nat.two_pow_pos _, of_decide_eq_true t48, Nat.two_pow_pos _, pred_fits g79 t79,
      Opd.enc_lt _, bnat_lt _, bnat_lt _, fits hb1 (by decide), fits ha1 (by decide), trivial⟩
  case munload =>
    exact and9_elim h fun _ hb1 _ _ _ _ g73 t73 t48 => ⟨Nat.two_pow_pos _, of_decide_eq_true t48, Nat.two_pow_pos _, pred_fits g73 t73,
      Opd.enc_lt _, Opd.enc_lt _, bnat_lt _, Nat.two_pow_pos _, fits hb1 (by decide), Nat.two_pow_pos _, trivial⟩
  case vew =>
    exact and10_elim h fun ha1 _ _ _ _ _ _ t32 _ _ => ⟨Nat.two_pow_pos _, of_decide_eq_true t32, Nat.two_pow_pos _, bnat_lt _, Opd.enc_lt
      _, Opd.enc_lt _, Opd.enc_lt _, Opd.enc_lt _, bnat_lt _, fits ha1 (by decide), trivial⟩
  case vtr =>
    exact and4_elim h fun ha1 _ _ _ => ⟨Nat.two_pow_pos _, Opd.enc_lt _, Opd.enc_lt _, fits ha1 (by decide), trivial⟩
  case vred =>
    exact and6_elim h fun ha1 _ _ _ g78 t78 => ⟨Nat.two_pow_pos _, pred_fits g78 t78, Opd.enc_lt _, Opd.enc_lt _, fits ha1 (by decide),
      trivial⟩
  case vdrop =>
    exact and6_elim h fun _ _ _ t87 t63 t31 => ⟨Nat.two_pow_pos _, of_decide_eq_true t31, of_decide_eq_true t63, of_decide_eq_true t87,
      Opd.enc_lt _, Opd.enc_lt _, trivial⟩
  case ltile =>
    exact and3_elim h fun ha1 _ _ => ⟨Nat.two_pow_pos _, Opd.enc_lt _, fits ha1 (by decide), trivial⟩
  case lvec =>
    exact and3_elim h fun ha1 _ _ => ⟨Nat.two_pow_pos _, Opd.enc_lt _, fits ha1 (by decide), trivial⟩
  case lq =>
    exact and3_elim h fun ha1 _ _ => ⟨Nat.two_pow_pos _, Opd.enc_lt _, fits ha1 (by decide), trivial⟩
  case lfetch =>
    exact and6_elim h fun _ _ _ _ g83 t83 => ⟨Nat.two_pow_pos _, pred_fits g83 t83, Opd.enc_lt _, Opd.enc_lt _, Nat.two_pow_pos _,
      trivial⟩
  case xput =>
    exact and8_elim h fun _ _ _ _ g86 t86 t81 t76 => ⟨Nat.two_pow_pos _, of_decide_eq_true t76, of_decide_eq_true t81, bnat_lt _,
      pred_fits g86 t86, Opd.enc_lt _, Opd.enc_lt _, trivial⟩
  case xget =>
    exact and6_elim h fun _ _ _ _ g86 t86 => ⟨Nat.two_pow_pos _, pred_fits g86 t86, Opd.enc_lt _, Opd.enc_lt _, trivial⟩
  case shift =>
    exact and9_elim h fun _ _ _ _ g86 t86 ha1 t78 t73 => ⟨Nat.two_pow_pos _, of_decide_eq_true t73, of_decide_eq_true t78, bnat_lt _,
      fits ha1 (by decide), pred_fits g86 t86, Opd.enc_lt _, Opd.enc_lt _, trivial⟩
  case permute =>
    exact and6_elim h fun _ _ _ _ t82 t77 => ⟨Nat.two_pow_pos _, Nat.two_pow_pos _, of_decide_eq_true t77, of_decide_eq_true t82,
      Nat.two_pow_pos _, Opd.enc_lt _, Opd.enc_lt _, trivial⟩

/-- The encoding of a well-formed operation has its row. -/
theorem hasRow_encodeStream {rep : Nat} {op : SOp} (hrep : rep < 2 ^ 16) (h : op.wf rep = true) :
    HasRow (encodeStream rep op) rep op := by
  rw [encodeStream_eq_packFields]
  refine readFields_packFields _ fun f hf => ?_
  rcases List.mem_append.mp hf with hf | hf
  · exact (SOp.row_fits h).mem f hf
  · simp only [List.mem_cons, List.not_mem_nil, or_false] at hf
    rcases hf with rfl | rfl
    · exact hrep
    · exact op.opcode_lt

/-- Reading a row in two parts. -/
theorem readFields_append (w lo : Nat) (ms ns : List Nat) :
    readFields w lo (ms ++ ns) = readFields w lo ms ++ readFields w (lo + ms.sum) ns := by
  induction ms generalizing lo with
  | nil => simp [readFields]
  | cons m ms ih => simp [readFields, ih, Nat.add_assoc]

/-- As many values are read as there are widths. -/
theorem length_readFields (w lo : Nat) (ns : List Nat) : (readFields w lo ns).length = ns.length := by
  induction ns generalizing lo with
  | nil => rfl
  | cons n ns ih => simp [readFields, ih]

/-- The row of a word: the operation's own fields, REP and OPCODE. -/
theorem hasRow_iff {w rep : Nat} {op : SOp} :
    HasRow w rep op ↔ readFields w 0 (op.row.map (·.1)) = op.row.map (·.2) ∧ repOf w = rep ∧ opcodeOf w = op.opcode := by
  have hlen : (readFields w 0 (op.row.map (·.1))).length = (op.row.map (·.2)).length := by simp [length_readFields]
  have hsplit : ∀ b d : List Nat, readFields w 0 (op.row.map (·.1)) ++ b = op.row.map (·.2) ++ d
      ↔ readFields w 0 (op.row.map (·.1)) = op.row.map (·.2) ∧ b = d :=
    fun b d => ⟨fun e => List.append_inj e hlen, fun ⟨e, e'⟩ => by rw [e, e']⟩
  rw [HasRow, wordRow, List.map_append, List.map_append, readFields_append, SOp.row_width, hsplit]
  simp [readFields, repOf, opcodeOf]

/-! ### Decoding -/

/-- A descriptor in range is empty just when its six bits are zero. -/
theorem Opd.enc_eq_zero {o : Opd} (h : o.ari < 16) : o.enc = 0 ↔ o.step = false ∧ o.q = false ∧ o.ari = 0 := by
  obtain ⟨s, q, a⟩ := o
  cases s <;> cases q <;> simp [Opd.enc, bnat, Nat.mod_eq_of_lt h]

/-- The word has the fields of a row from bit `lo` on. -/
def fieldsAre (w : Nat) : Nat → List (Nat × Nat) → Prop
  | _, [] => True
  | lo, (n, v) :: fs => bits w lo n = v ∧ fieldsAre w (lo + n) fs

/-- The fields of a row, one by one. -/
theorem fieldsAre_iff {w lo : Nat} {fs : List (Nat × Nat)} :
    fieldsAre w lo fs ↔ readFields w lo (fs.map (·.1)) = fs.map (·.2) := by
  induction fs generalizing lo with
  | nil => exact iff_of_true trivial rfl
  | cons f fs ih => rw [fieldsAre, ih, List.map_cons, List.map_cons, readFields, List.cons.injEq]

/-- `P` once each field of a row from bit `lo` on is known. -/
def knowingFields (w : Nat) (P : Prop) : Nat → List (Nat × Nat) → Prop
  | _, [] => P
  | lo, (n, v) :: fs => bits w lo n = v → knowingFields w P (lo + n) fs

/-- A row's fields, taken apart at once. -/
theorem of_fields {w lo : Nat} {fs : List (Nat × Nat)} {P : Prop} (h : fieldsAre w lo fs) (k : knowingFields w P lo fs) : P := by
  induction fs generalizing lo with
  | nil => exact k
  | cons f fs ih => exact ih h.2 (k h.1)

/-- The word has the row of the operation, which its encoding allows. -/
def Lawful (w : Nat) (op : SOp) : Prop := op.wf (repOf w) = true ∧ fieldsAre w 0 op.row

/-- What a check lets pass is lawful when the check says so. -/
theorem lawful_of_okIf {w : Nat} {c : Bool} {o op : SOp} (h : okIf c o = some op) (hc : c = true → Lawful w o) : Lawful w op := by
  obtain ⟨hb, rfl⟩ := okIf_some h
  exact hc hb

/-- A check passes an operation whose range implies it. -/
theorem okIf_of_eq {rep : Nat} {c : Bool} {o p : SOp} (hwf : p.wf rep = true) (he : o = p) (hc : o.wf rep = true → c = true) :
    okIf c o = some p := by
  subst he
  exact if_pos (hc hwf)

/-! ### What a field's check and range say of each other -/

theorem beq_of_eq {a b : Nat} (h : a = b) : (a == b) = true := beq_iff_eq.mpr h

/-- A field fits its width. -/
theorem bits_fit (w lo n : Nat) : decide (bits w lo n < 2 ^ n) = true := decide_eq_true (bits_lt w lo n)

/-- A count that its field holds less one fits. -/
theorem succ_fits (w lo n : Nat) : decide (bits w lo n + 1 ≤ 2 ^ n) = true := decide_eq_true (bits_lt w lo n)

theorem one_le_succ (n : Nat) : decide (1 ≤ n + 1) = true := decide_eq_true (Nat.le_add_left 1 n)

/-- A field that is not zero is positive. -/
theorem pos_of_not_rz {w lo n : Nat} (h : (!rz w lo n) = true) : decide (0 < bits w lo n) = true :=
  decide_eq_true (Nat.pos_of_ne_zero fun e => by rw [rz, e] at h; cases h)

theorem not_rz_of_pos {w lo n : Nat} (h : decide (0 < bits w lo n) = true) : (!rz w lo n) = true := by
  rw [rz, beq_false_of_ne (Nat.ne_of_gt (of_decide_eq_true h))]; rfl

/-- A descriptor of memory in a word is in range. -/
theorem opdAt_wf_of_mem {w lo : Nat} (h : (opdAt w lo).mem = true) : (opdAt w lo).wf = true :=
  (opdAt_wf w lo).trans (Opd.legal_of_mem h)

/-- A descriptor's field is zero just when the descriptor is empty. -/
theorem rz_opd (w lo : Nat) : rz w lo 6 = (!(opdAt w lo).step && !(opdAt w lo).q && (opdAt w lo).ari == 0) := by
  rw [rz, ← enc_opdAt, Bool.eq_iff_iff, beq_iff_eq, Opd.enc_eq_zero (bits_lt w lo 4), Bool.and_eq_true, Bool.and_eq_true, and_assoc,
    Bool.not_eq_true', Bool.not_eq_true', beq_iff_eq]

/-- A bit read from the field that the row gives it. -/
theorem bit_of_field {w lo : Nat} {b : Bool} (h : bits w lo 1 = bnat b) : bit w lo = b := by
  rw [bit_eq_bits, h, bnat_beq_one]

/-- A descriptor read from the field that the row gives it. -/
theorem opd_of_field {w lo : Nat} {o : Opd} (h : bits w lo 6 = o.enc) (ho : o.wf = true) : opdAt w lo = o := by
  rw [opdAt_eq_opdOf, h, opdOf_enc ho]

/-- A count read from the field that holds it less one. -/
theorem succ_of_field {w lo n v : Nat} (h : bits w lo n = v - 1) (hv : decide (1 ≤ v) = true) : bits w lo n + 1 = v := by
  rw [h, Nat.sub_add_cancel (of_decide_eq_true hv)]

/-- ARSET's rows that are well formed decode to it (Table 5.6). -/
theorem decodeArset_of_row {w n : Nat} {f : ArForm} (hwf : (SOp.arset n f).wf (repOf w) = true)
    (h : fieldsAre w 0 (SOp.arset n f).row) : decodeArset w = some (.arset n f) := by
  rw [decodeArset]
  cases f
  case imm =>
    refine of_fields h fun v0 z56 v87 z92 z96 b97 z98 v100 => ?_
    rw [z98]
    exact okIf_of_eq hwf (congr (congrArg SOp.arset v100) (congr (congr (congrArg ArForm.imm (bit_of_field b97)) v87) v0))
      fun _ => and3_intro (beq_of_eq z96) (beq_of_eq z92) (beq_of_eq z56)
  case strides =>
    refine of_fields h fun v0 v32 v64 v80 z96 v98 v100 => ?_
    rw [v98]
    exact okIf_of_eq hwf (congr (congrArg SOp.arset v100) (congr (congr (congr (congrArg ArForm.strides v80) v64) v32) v0))
      fun _ => beq_of_eq z96
  case par =>
    refine of_fields h fun v0 z56 v80 z96 v98 v100 => ?_
    rw [v98]
    exact okIf_of_eq hwf (congr (congrArg SOp.arset v100) (congr (congrArg ArForm.par v80) v0))
      fun _ => and2_intro (beq_of_eq z96) (beq_of_eq z56)
  case copy =>
    refine of_fields h fun z0 v92 z96 v98 v100 => ?_
    rw [v98]
    exact okIf_of_eq hwf (congr (congrArg SOp.arset v100) (congrArg ArForm.copy v92))
      fun _ => and2_intro (beq_of_eq z96) (beq_of_eq z0)

/-- What ARSET's word decodes to is lawful (Table 5.6). -/
theorem lawful_of_decodeArset {w : Nat} {op : SOp} (hrep : rz w 104 16 = true) (h : decodeArset w = some op) : Lawful w op := by
  have hari : (repOf w == 0 && decide (bits w 100 4 < 16)) = true := and2_intro hrep (bits_fit w 100 4)
  rw [decodeArset] at h
  split at h
  case h_1 hform =>
    refine lawful_of_okIf h fun hc => ?_
    refine and3_elim hc fun z96 z92 z56 => ?_
    exact ⟨and2_intro hari (and2_intro (bits_fit w 87 5) (bits_fit w 0 56)), rfl, eq_of_beq z56, rfl,
      eq_of_beq z92, eq_of_beq z96, (bnat_bit w 97).symm, hform, rfl, trivial⟩
  case h_2 hform =>
    refine lawful_of_okIf h fun hc => ?_
    exact ⟨and2_intro hari (and4_intro (bits_fit w 80 16) (bits_fit w 64 16) (bits_fit w 32 32) (bits_fit w 0 32)), rfl,
      rfl, rfl, rfl, eq_of_beq hc, hform, rfl, trivial⟩
  case h_3 hform =>
    refine lawful_of_okIf h fun hc => ?_
    refine and2_elim hc fun z96 z56 => ?_
    exact ⟨and2_intro hari (and2_intro (bits_fit w 80 16) (bits_fit w 0 56)), rfl, eq_of_beq z56, rfl,
      eq_of_beq z96, hform, rfl, trivial⟩
  case h_4 hne0 hne1 hne2 =>
    have hform : bits w 98 2 = 3 := by
      have hlt := bits_lt w 98 2
      simp only [imp_false] at hne0 hne1 hne2
      omega
    refine lawful_of_okIf h fun hc => ?_
    refine and2_elim hc fun z96 z0 => ?_
    exact ⟨and2_intro hari (bits_fit w 92 4), eq_of_beq z0, rfl, eq_of_beq z96, hform, rfl, trivial⟩

/-- VCVT decodes by its pair of formats. -/
theorem decodeOp_vcvt {w : Nat} {p : Bool × Bool} (e : vcvtPair (bits w 100 4) (bits w 96 4) = some p) :
    decodeOp 0x23 w = okIf ((p.1 || !bit w 95) && (p.2 || rz w 75 8) && (opdAt w 89).legal && (opdAt w 83).mem && rz w 64 11 && rz w 0 48)
      (.vcvt (bits w 100 4) (bits w 96 4) (bit w 95) (opdAt w 89) (opdAt w 83) (bits w 75 8) (bits w 48 16)) := by
  change (match vcvtPair _ _ with | none => none | some (rounds, usesS) => okIf _ _) = _
  rw [e]

/-- A word with the row of a well-formed operation decodes to it under its opcode. -/
theorem decodeOp_of_row {w : Nat} {op : SOp} (hwf : op.wf (repOf w) = true) (h : fieldsAre w 0 op.row) :
    decodeOp op.opcode w = some op := by
  cases op
  case arset n f =>
    exact (if_pos (and3_elim hwf fun hrep _ _ => hrep)).trans (decodeArset_of_row hwf h)
  case vcvt sfmt dfmt rnd a d s salt =>
    refine of_fields h fun z0 v48 z64 v75 o83 o89 b95 v96 v100 => ?_
    obtain ⟨p, e⟩ := vcvtPair_of_wf hwf
    refine and7_elim ((SOp.vcvt_wf e).symm.trans hwf) fun _ _ w89 w83 _ _ _ => ?_
    have e' : vcvtPair (bits w 100 4) (bits w 96 4) = some p := by rw [v100, v96, e]
    refine (decodeOp_vcvt e').trans (okIf_of_eq hwf (congr (congr (congr (congr (congr (congr (congrArg SOp.vcvt v100) v96)
      (bit_of_field b95)) (opd_of_field o89 w89)) (opd_of_field o83 w83)) v75) v48) fun hw => ?_)
    refine and7_elim ((SOp.vcvt_wf e').symm.trans hw) fun hrounds hs w89 _ m83 _ _ => ?_
    exact and6_intro hrounds hs (Opd.legal_of_wf w89) m83 (beq_of_eq z64) (beq_of_eq z0)
  case nop =>
    refine of_fields h fun z0 => ?_
    exact okIf_of_eq hwf rfl fun _ => beq_of_eq z0
  case cntset =>
    refine of_fields h fun z0 v32 v64 z96 b101 v102 => ?_
    refine okIf_of_eq hwf (congr (congr (congr (congrArg SOp.cntset v102) (bit_of_field b101)) v64) v32) fun hw => ?_
    refine and4_elim hw fun hrep _ _ _ => ?_
    exact and3_intro hrep (beq_of_eq z96) (beq_of_eq z0)
  case cntadd =>
    refine of_fields h fun z0 v64 z96 v102 => ?_
    exact okIf_of_eq hwf (congr (congrArg SOp.cntadd v102) v64) fun _ => and2_intro (beq_of_eq z96) (beq_of_eq z0)
  case cmpset =>
    refine of_fields h fun z0 v64 z96 v98 v101 v103 => ?_
    refine okIf_of_eq hwf (congr (congr (congr (congrArg SOp.cmpset v103) v101) v98) v64) fun hw => ?_
    refine and5_elim hw fun hrep _ _ ha1 _ => ?_
    exact and4_intro hrep (beq_of_eq z96) (beq_of_eq z0) ha1
  case signal =>
    refine of_fields h fun z0 v32 z64 o98 => ?_
    refine and4_elim hwf fun w98 _ _ _ => ?_
    refine okIf_of_eq hwf (congr (congrArg SOp.signal (opd_of_field o98 w98)) v32) fun hw => ?_
    refine and4_elim hw fun _ m98 p32 _ => ?_
    exact and4_intro m98 (beq_of_eq z64) (beq_of_eq z0) (not_rz_of_pos p32)
  case wait =>
    refine of_fields h fun z0 v32 z64 v84 z88 b89 v90 v92 v95 o98 => ?_
    refine and8_elim hwf fun w98 _ _ _ _ _ _ _ => ?_
    refine okIf_of_eq hwf (congr (congr (congr (congr (congr (congr (congrArg SOp.wait (opd_of_field o98 w98)) v95) v92) v90)
      (bit_of_field b89)) v84) v32) fun hw => ?_
    refine and8_elim hw fun _ m98 ha1 hb1 hc1 hd1 _ _ => ?_
    exact and8_intro m98 ha1 hb1 hc1 hd1 (beq_of_eq z88) (beq_of_eq z64) (beq_of_eq z0)
  case phase =>
    refine of_fields h fun z0 v72 z88 v92 v96 => ?_
    refine okIf_of_eq hwf (congr (congr (congrArg SOp.phase v96) v92) v72) fun hw => ?_
    refine and7_elim hw fun hrep p96 _ p92 _ p72 _ => ?_
    exact and6_intro hrep (not_rz_of_pos p96) (not_rz_of_pos p92) (not_rz_of_pos p72) (beq_of_eq z88) (beq_of_eq z0)
  case mpass =>
    refine of_fields h fun z0 v48 z64 v79 o88 b94 b95 v96 v100 => ?_
    refine and8_elim hwf fun _ _ _ w88 _ g79 _ _ => ?_
    refine okIf_of_eq hwf (congr (congr (congr (congr (congr (congr (congrArg SOp.mpass v100) v96) (bit_of_field b95)) (bit_of_field
      b94)) (opd_of_field o88 w88)) (succ_of_field v79 g79)) v48) fun hw => ?_
    refine and8_elim hw fun ha1 hb1 hc1 w88 hd1 _ _ _ => ?_
    exact and7_intro ha1 hb1 hc1 (Opd.legal_of_wf w88) hd1 (beq_of_eq z64) (beq_of_eq z0)
  case munload =>
    refine of_fields h fun z0 v48 z64 v73 o82 o88 b94 z95 v96 z100 => ?_
    refine and9_elim hwf fun _ _ _ w88 w82 _ g73 _ _ => ?_
    refine okIf_of_eq hwf (congr (congr (congr (congr (congr (congrArg SOp.munload v96) (bit_of_field b94)) (opd_of_field o88 w88))
      (opd_of_field o82 w82)) (succ_of_field v73 g73)) v48) fun hw => ?_
    refine and9_elim hw fun ha1 hb1 hc1 w88 _ m82 _ _ _ => ?_
    exact and9_intro (beq_of_eq z100) ha1 hb1 (beq_of_eq z95) hc1 (Opd.legal_of_wf w88) m82 (beq_of_eq z64) (beq_of_eq z0)
  case vew =>
    refine of_fields h fun z0 v32 z64 b73 o74 o80 o86 o92 b98 v99 => ?_
    refine and10_elim hwf fun _ w92 w86 w80 w74 _ _ _ _ _ => ?_
    refine okIf_of_eq hwf (congr (congr (congr (congr (congr (congr (congr (congrArg SOp.vew v99) (bit_of_field b98)) (opd_of_field o92
      w92)) (opd_of_field o86 w86)) (opd_of_field o80 w80)) (opd_of_field o74 w74)) (bit_of_field b73)) v32) fun hw => ?_
    refine and10_elim hw fun ha1 w92 w86 w80 _ m74 hbimm _ hb1 hc1 => ?_
    exact and10_intro ha1 (Opd.legal_of_wf w92) (Opd.legal_of_wf w86) (Opd.legal_of_wf w80) m74 ((congrArg (!bit w 73 || ·) (rz_opd w
      86)).trans hbimm) (beq_of_eq z64) (beq_of_eq z0) hb1 hc1
  case vtr =>
    refine of_fields h fun z0 o88 o94 v100 => ?_
    refine and4_elim hwf fun _ w94 w88 _ => ?_
    refine okIf_of_eq hwf (congr (congr (congrArg SOp.vtr v100) (opd_of_field o94 w94)) (opd_of_field o88 w88)) fun hw => ?_
    refine and4_elim hw fun ha1 w94 _ m88 => ?_
    exact and4_intro ha1 (Opd.legal_of_wf w94) m88 (beq_of_eq z0)
  case vred =>
    refine of_fields h fun z0 v78 o90 o96 v102 => ?_
    refine and6_elim hwf fun _ w96 w90 _ g78 _ => ?_
    refine okIf_of_eq hwf (congr (congr (congr (congrArg SOp.vred v102) (opd_of_field o96 w96)) (opd_of_field o90 w90)) (succ_of_field
      v78 g78)) fun hw => ?_
    refine and6_elim hw fun ha1 w96 _ m90 _ _ => ?_
    exact and4_intro ha1 (Opd.legal_of_wf w96) m90 (beq_of_eq z0)
  case vdrop =>
    refine of_fields h fun z0 v31 v63 v87 o92 o98 => ?_
    refine and6_elim hwf fun w98 w92 _ _ _ _ => ?_
    refine okIf_of_eq hwf (congr (congr (congr (congr (congrArg SOp.vdrop (opd_of_field o98 w98)) (opd_of_field o92 w92)) v87) v63) v31)
      fun hw => ?_
    refine and6_elim hw fun w98 _ m92 _ _ _ => ?_
    exact and3_intro (Opd.legal_of_wf w98) m92 (beq_of_eq z0)
  case ltile =>
    refine of_fields h fun z0 o94 v100 => ?_
    refine and3_elim hwf fun _ w94 _ => ?_
    refine okIf_of_eq hwf (congr (congrArg SOp.ltile v100) (opd_of_field o94 w94)) fun hw => ?_
    refine and3_elim hw fun ha1 _ m94 => ?_
    exact and3_intro ha1 m94 (beq_of_eq z0)
  case lvec =>
    refine of_fields h fun z0 o94 v100 => ?_
    refine and3_elim hwf fun _ w94 _ => ?_
    refine okIf_of_eq hwf (congr (congrArg SOp.lvec v100) (opd_of_field o94 w94)) fun hw => ?_
    refine and3_elim hw fun ha1 _ m94 => ?_
    exact and3_intro ha1 m94 (beq_of_eq z0)
  case lq =>
    refine of_fields h fun z0 o94 v100 => ?_
    refine and3_elim hwf fun _ w94 _ => ?_
    refine okIf_of_eq hwf (congr (congrArg SOp.lq v100) (opd_of_field o94 w94)) fun hw => ?_
    refine and3_elim hw fun ha1 _ m94 => ?_
    exact and3_intro ha1 m94 (beq_of_eq z0)
  case lfetch =>
    refine of_fields h fun z0 v83 o88 o94 z100 => ?_
    refine and6_elim hwf fun w94 _ w88 _ g83 _ => ?_
    refine okIf_of_eq hwf (congr (congr (congrArg SOp.lfetch (opd_of_field o94 w94)) (opd_of_field o88 w88)) (succ_of_field v83 g83)) fun
      hw => ?_
    refine and6_elim hw fun _ m94 _ m88 _ _ => ?_
    exact and4_intro (beq_of_eq z100) m94 m88 (beq_of_eq z0)
  case xput =>
    refine of_fields h fun z0 v76 v81 b85 v86 o92 o98 => ?_
    refine and8_elim hwf fun w98 _ w92 _ g86 _ _ _ => ?_
    refine okIf_of_eq hwf (congr (congr (congr (congr (congr (congrArg SOp.xput (opd_of_field o98 w98)) (opd_of_field o92 w92))
      (succ_of_field v86 g86)) (bit_of_field b85)) v81) v76) fun hw => ?_
    refine and8_elim hw fun _ m98 _ m92 _ _ _ _ => ?_
    exact and3_intro m98 m92 (beq_of_eq z0)
  case xget =>
    refine of_fields h fun z0 v86 o92 o98 => ?_
    refine and6_elim hwf fun w98 _ w92 _ g86 _ => ?_
    refine okIf_of_eq hwf (congr (congr (congrArg SOp.xget (opd_of_field o98 w98)) (opd_of_field o92 w92)) (succ_of_field v86 g86)) fun
      hw => ?_
    refine and6_elim hw fun _ m98 _ m92 _ _ => ?_
    exact and3_intro m98 m92 (beq_of_eq z0)
  case shift =>
    refine of_fields h fun z0 v73 v78 b82 v83 v86 o92 o98 => ?_
    refine and9_elim hwf fun w98 _ w92 _ g86 _ _ _ _ => ?_
    refine okIf_of_eq hwf (congr (congr (congr (congr (congr (congr (congrArg SOp.shift (opd_of_field o98 w98)) (opd_of_field o92 w92))
      (succ_of_field v86 g86)) v83) (bit_of_field b82)) v78) v73) fun hw => ?_
    refine and9_elim hw fun _ m98 _ m92 _ _ ha1 _ _ => ?_
    exact and4_intro m98 m92 ha1 (beq_of_eq z0)
  case permute =>
    refine of_fields h fun z0 z76 v77 v82 z86 o92 o98 => ?_
    refine and6_elim hwf fun w98 _ w92 _ _ _ => ?_
    refine okIf_of_eq hwf (congr (congr (congr (congrArg SOp.permute (opd_of_field o98 w98)) (opd_of_field o92 w92)) v82) v77) fun hw =>
      ?_
    refine and6_elim hw fun _ m98 _ m92 _ _ => ?_
    exact and5_intro m98 m92 (beq_of_eq z86) (beq_of_eq z0) (beq_of_eq z76)

/-- A word that decodes under an opcode has the row of what it decodes to, which is well formed. -/
theorem lawful_of_decodeOp {w : Nat} {op : SOp} (h : decodeOp op.opcode w = some op) : Lawful w op := by
  cases op
  case arset n f =>
    change (if rz w 104 16 then decodeArset w else none) = _ at h
    split at h
    · next hrep => exact lawful_of_decodeArset hrep h
    · cases h
  case vcvt =>
    rcases e : vcvtPair (bits w 100 4) (bits w 96 4) with _ | p
    · change (match vcvtPair _ _ with | none => none | some (rounds, usesS) => okIf _ _) = _ at h
      rw [e] at h
      cases h
    · refine lawful_of_okIf ((decodeOp_vcvt e).symm.trans h) fun hc => ?_
      refine and6_elim hc fun hrounds hs l89 m83 z64 z0 => ?_
      exact ⟨(SOp.vcvt_wf e).trans (and7_intro hrounds hs ((opdAt_wf w 89).trans l89) (opdAt_wf_of_mem m83) m83 (bits_fit w 75 8)
        (bits_fit w 48 16)), eq_of_beq z0, rfl, eq_of_beq z64, rfl, (enc_opdAt w 83).symm, (enc_opdAt w 89).symm, (bnat_bit w 95).symm,
        rfl, rfl, trivial⟩
  case nop =>
    refine lawful_of_okIf h fun hc => ?_
    exact ⟨rfl, eq_of_beq hc, trivial⟩
  case cntset =>
    refine lawful_of_okIf h fun hc => ?_
    refine and3_elim hc fun z104 z96 z0 => ?_
    exact ⟨and4_intro z104 (bits_fit w 102 2) (bits_fit w 64 32) (bits_fit w 32 32), eq_of_beq z0, rfl, rfl, eq_of_beq z96, (bnat_bit w
      101).symm, rfl, trivial⟩
  case cntadd =>
    refine lawful_of_okIf h fun hc => ?_
    refine and2_elim hc fun z96 z0 => ?_
    exact ⟨and2_intro (bits_fit w 102 2) (bits_fit w 64 32), eq_of_beq z0, rfl, eq_of_beq z96, rfl, trivial⟩
  case cmpset =>
    refine lawful_of_okIf h fun hc => ?_
    refine and4_elim hc fun z104 z96 z0 ha1 => ?_
    exact ⟨and5_intro z104 (bits_fit w 103 1) (bits_fit w 101 2) ha1 (bits_fit w 64 32), eq_of_beq z0, rfl, eq_of_beq z96, rfl, rfl, rfl,
      trivial⟩
  case signal =>
    refine lawful_of_okIf h fun hc => ?_
    refine and4_elim hc fun m98 z64 z0 nz32 => ?_
    exact ⟨and4_intro (opdAt_wf_of_mem m98) m98 (pos_of_not_rz nz32) (bits_fit w 32 32), eq_of_beq z0, rfl, eq_of_beq z64, (enc_opdAt w
      98).symm, trivial⟩
  case wait =>
    refine lawful_of_okIf h fun hc => ?_
    refine and8_elim hc fun m98 ha1 hb1 hc1 hd1 z88 z64 z0 => ?_
    exact ⟨and8_intro (opdAt_wf_of_mem m98) m98 ha1 hb1 hc1 hd1 (bits_fit w 84 4) (bits_fit w 32 32), eq_of_beq z0, rfl, eq_of_beq z64,
      rfl, eq_of_beq z88, (bnat_bit w 89).symm, rfl, rfl, rfl, (enc_opdAt w 98).symm, trivial⟩
  case phase =>
    refine lawful_of_okIf h fun hc => ?_
    refine and6_elim hc fun z104 nz96 nz92 nz72 z88 z0 => ?_
    exact ⟨and7_intro z104 (pos_of_not_rz nz96) (bits_fit w 96 8) (pos_of_not_rz nz92) (bits_fit w 92 4) (pos_of_not_rz nz72) (bits_fit w
      72 16), eq_of_beq z0, rfl, eq_of_beq z88, rfl, rfl, trivial⟩
  case mpass =>
    refine lawful_of_okIf h fun hc => ?_
    refine and7_elim hc fun ha1 hb1 hc1 l88 hd1 z64 z0 => ?_
    exact ⟨and8_intro ha1 hb1 hc1 ((opdAt_wf w 88).trans l88) hd1 (one_le_succ _) (succ_fits w 79 9) (bits_fit w 48 16), eq_of_beq z0,
      rfl, eq_of_beq z64, rfl, (enc_opdAt w 88).symm, (bnat_bit w 94).symm, (bnat_bit w 95).symm, rfl, rfl, trivial⟩
  case munload =>
    refine lawful_of_okIf h fun hc => ?_
    refine and9_elim hc fun z100 ha1 hb1 z95 hc1 l88 m82 z64 z0 => ?_
    exact ⟨and9_intro ha1 hb1 hc1 ((opdAt_wf w 88).trans l88) (opdAt_wf_of_mem m82) m82 (one_le_succ _) (succ_fits w 73 9) (bits_fit w 48
      16), eq_of_beq z0, rfl, eq_of_beq z64, rfl, (enc_opdAt w 82).symm, (enc_opdAt w 88).symm, (bnat_bit w 94).symm, eq_of_beq z95, rfl,
      eq_of_beq z100, trivial⟩
  case vew =>
    refine lawful_of_okIf h fun hc => ?_
    refine and10_elim hc fun ha1 l92 l86 l80 m74 hbimm z64 z0 hb1 hc1 => ?_
    exact ⟨and10_intro ha1 ((opdAt_wf w 92).trans l92) ((opdAt_wf w 86).trans l86) ((opdAt_wf w 80).trans l80) (opdAt_wf_of_mem m74) m74
      ((congrArg (!bit w 73 || ·) (rz_opd w 86)).symm.trans hbimm) (bits_fit w 32 32) hb1 hc1, eq_of_beq z0, rfl, eq_of_beq z64,
      (bnat_bit w 73).symm, (enc_opdAt w 74).symm, (enc_opdAt w 80).symm, (enc_opdAt w 86).symm, (enc_opdAt w 92).symm, (bnat_bit w
      98).symm, rfl, trivial⟩
  case vtr =>
    refine lawful_of_okIf h fun hc => ?_
    refine and4_elim hc fun ha1 l94 m88 z0 => ?_
    exact ⟨and4_intro ha1 ((opdAt_wf w 94).trans l94) (opdAt_wf_of_mem m88) m88, eq_of_beq z0, (enc_opdAt w 88).symm, (enc_opdAt w
      94).symm, rfl, trivial⟩
  case vred =>
    refine lawful_of_okIf h fun hc => ?_
    refine and4_elim hc fun ha1 l96 m90 z0 => ?_
    exact ⟨and6_intro ha1 ((opdAt_wf w 96).trans l96) (opdAt_wf_of_mem m90) m90 (one_le_succ _) (succ_fits w 78 12), eq_of_beq z0, rfl,
      (enc_opdAt w 90).symm, (enc_opdAt w 96).symm, rfl, trivial⟩
  case vdrop =>
    refine lawful_of_okIf h fun hc => ?_
    refine and3_elim hc fun l98 m92 z0 => ?_
    exact ⟨and6_intro ((opdAt_wf w 98).trans l98) (opdAt_wf_of_mem m92) m92 (bits_fit w 87 5) (bits_fit w 63 24) (bits_fit w 31 32),
      eq_of_beq z0, rfl, rfl, rfl, (enc_opdAt w 92).symm, (enc_opdAt w 98).symm, trivial⟩
  case ltile =>
    refine lawful_of_okIf h fun hc => ?_
    refine and3_elim hc fun ha1 m94 z0 => ?_
    exact ⟨and3_intro ha1 (opdAt_wf_of_mem m94) m94, eq_of_beq z0, (enc_opdAt w 94).symm, rfl, trivial⟩
  case lvec =>
    refine lawful_of_okIf h fun hc => ?_
    refine and3_elim hc fun ha1 m94 z0 => ?_
    exact ⟨and3_intro ha1 (opdAt_wf_of_mem m94) m94, eq_of_beq z0, (enc_opdAt w 94).symm, rfl, trivial⟩
  case lq =>
    refine lawful_of_okIf h fun hc => ?_
    refine and3_elim hc fun ha1 m94 z0 => ?_
    exact ⟨and3_intro ha1 (opdAt_wf_of_mem m94) m94, eq_of_beq z0, (enc_opdAt w 94).symm, rfl, trivial⟩
  case lfetch =>
    refine lawful_of_okIf h fun hc => ?_
    refine and4_elim hc fun z100 m94 m88 z0 => ?_
    exact ⟨and6_intro (opdAt_wf_of_mem m94) m94 (opdAt_wf_of_mem m88) m88 (one_le_succ _) (succ_fits w 83 5), eq_of_beq z0, rfl,
      (enc_opdAt w 88).symm, (enc_opdAt w 94).symm, eq_of_beq z100, trivial⟩
  case xput =>
    refine lawful_of_okIf h fun hc => ?_
    refine and3_elim hc fun m98 m92 z0 => ?_
    exact ⟨and8_intro (opdAt_wf_of_mem m98) m98 (opdAt_wf_of_mem m92) m92 (one_le_succ _) (succ_fits w 86 6) (bits_fit w 81 4) (bits_fit
      w 76 5), eq_of_beq z0, rfl, rfl, (bnat_bit w 85).symm, rfl, (enc_opdAt w 92).symm, (enc_opdAt w 98).symm, trivial⟩
  case xget =>
    refine lawful_of_okIf h fun hc => ?_
    refine and3_elim hc fun m98 m92 z0 => ?_
    exact ⟨and6_intro (opdAt_wf_of_mem m98) m98 (opdAt_wf_of_mem m92) m92 (one_le_succ _) (succ_fits w 86 6), eq_of_beq z0, rfl,
      (enc_opdAt w 92).symm, (enc_opdAt w 98).symm, trivial⟩
  case shift =>
    refine lawful_of_okIf h fun hc => ?_
    refine and4_elim hc fun m98 m92 ha1 z0 => ?_
    exact ⟨and9_intro (opdAt_wf_of_mem m98) m98 (opdAt_wf_of_mem m92) m92 (one_le_succ _) (succ_fits w 86 6) ha1 (bits_fit w 78 4)
      (bits_fit w 73 5), eq_of_beq z0, rfl, rfl, (bnat_bit w 82).symm, rfl, rfl, (enc_opdAt w 92).symm, (enc_opdAt w 98).symm, trivial⟩
  case permute =>
    refine lawful_of_okIf h fun hc => ?_
    refine and5_elim hc fun m98 m92 z86 z0 z76 => ?_
    exact ⟨and6_intro (opdAt_wf_of_mem m98) m98 (opdAt_wf_of_mem m92) m92 (bits_fit w 82 4) (bits_fit w 77 5), eq_of_beq z0, eq_of_beq
      z76, rfl, rfl, eq_of_beq z86, (enc_opdAt w 92).symm, (enc_opdAt w 98).symm, trivial⟩

/-- A word of an operation's opcode decodes to it just when it has its row and the operation is well formed. -/
theorem decodeStream_iff {w rep : Nat} {op : SOp} :
    decodeStream w = some (rep, op) ↔ op.wf rep = true ∧ HasRow w rep op := by
  rw [hasRow_iff]
  constructor
  · intro h
    obtain ⟨hopc, rfl⟩ := decodeStream_some h
    rw [decodeStream] at h
    split at h
    · next o ho =>
      cases h
      obtain ⟨hwf, hrow⟩ := lawful_of_decodeOp (hopc ▸ ho)
      exact ⟨hwf, fieldsAre_iff.mp hrow, rfl, hopc⟩
    · cases h
  · rintro ⟨hwf, hrow, rfl, hopc⟩
    rw [decodeStream, hopc, decodeOp_of_row hwf (fieldsAre_iff.mpr hrow)]

/-- Settles O57: a word decodes to an operation just when it has the operation's row of fields, which the encoder writes. -/
theorem streamWordsDecodeAndEncodeAgree : Obligations.StreamWordsDecodeAndEncodeAgree := by
  unfold Obligations.StreamWordsDecodeAndEncodeAgree
  constructor
  case left => exact fun rep op hrep hwf => decodeStream_iff.mpr ⟨hwf, hasRow_encodeStream hrep hwf⟩
  case right =>
    intro w rep op hw h
    obtain ⟨hwf, hrow⟩ := decodeStream_iff.mp h
    obtain ⟨-, hrep⟩ := decodeStream_some h
    exact ⟨hrep ▸ bits_lt w 104 16, hwf, encodeStream_of_hasRow hw hrow⟩

end Sys2Proof.Machine
end

section
/-! SUPPORT. The front command of a step, PHASE (spec/05 R172, spec/15 R494) and the values after reset. -/

namespace Sys2Proof.Machine

/-- Settles O1: a step reads the queue's front only. -/
theorem stepRunsTheFrontCommand : Obligations.StepRunsTheFrontCommand := by
  unfold Obligations.StepRunsTheFrontCommand
  refine ⟨fun c cs s => rfl, fun s hnone => ?_⟩
  rw [step, hnone]

/-- What PHASE does once control has moved on (R172, R496). -/
def phaseNotice (g lead level dur : Nat) (s : State) : State :=
  if (pwGrove s g).hot || s.life == .shutdown then bump fPhaseDrop 0 1 s
  else modPw g (fun p => { p with windows := p.windows ++ [⟨level, s.time + usK (lead - 10), s.time + usK (lead + dur), false⟩] }) s

/-- PHASE at its repeat moves control on and gives its notice. -/
theorem exec_phase_at {s : State} {c : CoreId} {e : Engine} {d : Desc} {l : ListSet} {rep lead level dur : Nat}
    (h : AtRepeat s c e d l rep (.phase lead level dur)) :
    exec (.phase c e) s = .next (phaseNotice (coreGrove c) lead level dur (setCtl c e ((engCtl s c e).advance l e d.chunks rep) s)) :=
  congrArg Host.Outcome.next ((onRepeat_at h rfl _).trans issue_nil)

/-- Settles O13: the notice reads the grove's thermal mark and the package's life, which control does not change. -/
theorem phaseNoticeOpensAWindow : Obligations.PhaseNoticeOpensAWindow := by
  unfold Obligations.PhaseNoticeOpensAWindow
  intro s c e d l rep lead level dur h s1
  rw [exec_phase_at h]
  have hgrove : pwGrove s1 (coreGrove c) = pwGrove s (coreGrove c) := rfl
  have hlife : s1.life = s.life := rfl
  refine ⟨fun hcool hlive => congrArg _ ?opened, fun hheld => congrArg _ ?dropped⟩
  case opened =>
    rw [phaseNotice, hgrove, hlife, hcool, if_neg (by simpa using hlive), usK, usK, Nat.mul_comm _ 800, Nat.mul_comm _ 800]
    rfl
  case dropped =>
    rw [phaseNotice, hgrove, hlife, if_pos (by simpa using hheld)]

/-- Settles O56: a register without an entry reads as its reset value. -/
theorem resetStateHoldsTheGivenValues : Obligations.ResetStateHoldsTheGivenValues := by
  unfold Obligations.ResetStateHoldsTheGivenValues
  refine ⟨rfl, rfl, rfl, rfl, rfl, rfl, rfl, rfl, rfl, rfl, rfl, rfl, rfl, ?groves, ?ports, ?dies, ?rings, ?contexts⟩
  case groves => decide +kernel
  case ports => decide +kernel
  case dies => decide +kernel
  case rings => decide +kernel
  case contexts => decide +kernel

end Sys2Proof.Machine
end

section
/-! SUPPORT. What the shared operations of the torus transmitter, of a landing and of a mill leave alone. -/

namespace Sys2Proof.Machine

/-! An operation that changes some parts of the state keeps every view `v` that looks at none of them. -/

/-! ### Sending (spec/11 R379, R382) -/

section
variable {α : Type} {v : State → α}

/-- A transfer sent touches the ride and the transfer numbers. -/
theorem rideSend_view (hv : ∀ s r x, v { s with ride := r, xfers := x } = v s) (h : Half) (cls : Fin 4) (b : Bytes) (s : State) :
    v (rideSend h cls b s).1 = v s := by
  rw [rideSend_frame]; exact hv s _ _

/-- A return to a core touches the ride and the transfer numbers. -/
theorem rideBack_view (hv : ∀ s r x, v { s with ride := r, xfers := x } = v s) (h : Half) (c : Nat) (s : State) :
    v (rideBack h c s).1 = v s := by
  rw [rideBack_frame]; exact hv s _ _

/-- A transfer sent later touches the ride, its waiting effects and the transfer numbers. -/
theorem rideLater_view (hv : ∀ s r x n, v { s with ride := r, xfers := x, rideNext := n } = v s) (pre : Option Nat) (h : Half)
    (cls : Fin 4) (b : Bytes) (s : State) : v (rideLater pre h cls b s).1 = v s := by
  have sent := rideSend_view (v := v) (fun s r x => hv s r x s.rideNext) h cls b s
  unfold rideLater
  split
  · exact sent
  · split
    · exact sent
    · exact hv s _ _ _

/-- Sending what a port holds touches the ports. -/
theorem torusPump_view (hv : ∀ s q, v { s with ports := q } = v s) (p n : Nat) (s : State) : v (torusPump p n s) = v s := by
  induction n generalizing s with
  | zero => rfl
  | succ n ih =>
    unfold torusPump
    simp only
    split
    · rfl
    · split
      · rfl
      · exact (ih _).trans (hv s _)

/-- Handing a transfer to an output touches the ports and what goes over the ride. -/
theorem outputAfter_view (hv : ∀ s q r x n, v { s with ports := q, ride := r, xfers := x, rideNext := n } = v s)
    (pre : Option Nat) (h : Half) (p vl : Nat) (b : Bytes) (s : State) : v (outputAfter pre h p vl b s) = v s := by
  have ports : ∀ s q, v { s with ports := q } = v s := fun s q => hv s q s.ride s.xfers s.rideNext
  have later := rideLater_view (v := v) (fun s r x n => hv s s.ports r x n) pre h (torusRideClass (vl / 2)) b s
  unfold outputAfter
  simp only
  rw [torusPump_view ports, modPort, ports]
  split
  · rfl
  · exact later

/-- An acknowledgement to another package touches the ports and what goes over the ride. -/
theorem sendAck_view (hv : ∀ s q r x n, v { s with ports := q, ride := r, xfers := x, rideNext := n } = v s) (h : Half) (tag : Nat)
    (tgt : Coord) (txn st q status : Nat) (sat : Bool) (code detail : Nat) (s : State) :
    v (sendAck h tag tgt txn st q status sat code detail s) = v s := by
  unfold sendAck
  simp only
  split
  · rfl
  · exact outputAfter_view hv ..

/-! ### Landing out of a place (spec/13 R441, R442) -/

/-- Noting a repaired tag touches registers, the log, the MSI-X list and the integrity events. -/
theorem noteRepaired_view
    (hv : ∀ s r l f m u, v { s with regs := r, logMem := l, logFull := f, msix := m, unitEvs := u } = v s) (l : Option Loc) (s : State) :
    v (noteRepaired l s) = v s := by
  unfold noteRepaired unitNote
  rw [logWrite_frame]
  exact hv s ..

/-- A data event touches registers and the integrity events. -/
theorem dataEvent_view (hv : ∀ s r u, v { s with regs := r, unitEvs := u } = v s) (u : Option HwUnit) (s : State) :
    v (dataEvent u s) = v s := hv s _ _

/-- A count touches registers. -/
theorem bump_view (hv : ∀ s r, v { s with regs := r } = v s) (f : Fld) (i n : Nat) (s : State) : v (bump f i n s) = v s := hv s _

/-- Entering a block in a poison list touches the lists. -/
theorem poisonAdd_view (hv : ∀ s p, v { s with poison := p } = v s) (h : Half) (b : Nat) (s : State) : v (poisonAdd h b s) = v s := by
  unfold poisonAdd
  simp only
  split
  · rfl
  · exact hv s _

/-- Closing an open block touches memory and the core that holds it. -/
theorem blkClose_view (hv : ∀ s m c, v { s with mem := m, cores := c } = v s) (ctx : Nat) (l : Loc) (s : State) :
    v (blkClose ctx l s) = v s := by
  unfold blkClose
  split
  · rfl
  · exact hv s _ _

/-- Fetching a block touches memory and cores where it closes one, registers, the log, integrity events and poison lists. -/
theorem blkFetch_view
    (hv : ∀ s r m l f x c u p, v { s with
      regs := r, mem := m, logMem := l, logFull := f, msix := x, cores := c, unitEvs := u, poison := p } = v s)
    (ctx : Nat) (l : Loc) (s : State) : v (blkFetch ctx l s).1 = v s := by
  have event := dataEvent_view (v := v) fun s r u => hv s r s.mem s.logMem s.logFull s.msix s.cores u s.poison
  have counted := bump_view (v := v) fun s r => hv s r s.mem s.logMem s.logFull s.msix s.cores s.unitEvs s.poison
  have closed := blkClose_view (v := v) (fun s m c => hv s s.regs m s.logMem s.logFull s.msix c s.unitEvs s.poison) ctx l s
  have poison := poisonAdd_view (v := v) fun s p => hv s s.regs s.mem s.logMem s.logFull s.msix s.cores s.unitEvs p
  have repaired := noteRepaired_view (v := v) fun s r l f m u => hv s r s.mem l f m s.cores u s.poison
  unfold blkFetch
  simp only
  split
  · exact event _ s
  · split
    · simp only
      split
      · exact (repaired _ _).trans closed
      · exact closed
    · simp only
      split
      · exact (poison ..).trans ((event ..).trans ((counted ..).trans closed))
      · exact (event ..).trans ((counted ..).trans closed)

/-- Reading blocks at a mill touches what fetching them does. -/
theorem millRead_view
    (hv : ∀ s r m l f x c u p, v { s with
      regs := r, mem := m, logMem := l, logFull := f, msix := x, cores := c, unitEvs := u, poison := p } = v s)
    (ctx : CtxId) (h : Half) (bs : List Nat) (s : State) : v (millRead ctx h bs s).1 = v s := by
  induction bs generalizing s with
  | nil => rfl
  | cons b bs ih =>
    have hfetch := blkFetch_view hv ctx (.stk h b) s
    unfold millRead
    split
    · next s1 e => rwa [e] at hfetch
    · next s1 k e =>
      rw [e] at hfetch
      have hrest := (ih s1).trans hfetch
      split
      · next s2 ks e2 => rwa [e2] at hrest
      · next s2 e2 => rwa [e2] at hrest

/-! ### A mill's answer (spec/08 R279) -/

/-- An answer to an accumulate block touches cores, the ports and what goes over the ride. -/
theorem accAnswer_view
    (hv : ∀ s c q r x n, v { s with cores := c, ports := q, ride := r, xfers := x, rideNext := n } = v s)
    (d : Die) (m : AccMsg) (status : Nat) (s : State) : v (accAnswer d m status s) = v s := by
  unfold accAnswer
  split
  · exact (hv _ _ _ _ _ _).trans (rideBack_view (fun s r x => hv s s.cores s.ports r x s.rideNext) ..)
  · exact sendAck_view (fun s q r x n => hv s s.cores q r x n) ..

end

end Sys2Proof.Machine
end

section
/-! SUPPORT. The window of accumulates (spec/07 R254, R277). -/

namespace Sys2Proof.Machine

/-- The entry at the first index that satisfies a test. -/
theorem getElem?_findIdx {α : Type} (p : α → Bool) (l : List α) : l[l.findIdx p]? = l.find? p := by
  induction l with
  | nil => rfl
  | cons a l ih =>
    rw [List.findIdx_cons, List.find?_cons]
    cases p a
    · simpa using ih
    · rfl

/-- The entry that a search by key finds once it is set. -/
theorem find?_tset {α : Type} (t : Table α) (k : Nat) (v : α) : (tset t k v).find? (fun e => e.1 == k) = some (k, v) := by
  induction t with
  | nil => simp [tset]
  | cons p t ih =>
    obtain ⟨j, w⟩ := p
    rw [tset]
    split
    · simp
    · split
      · simp
      · next hne => simpa [Ne.symm hne] using ih

/-- A SEQ below the floor that a stream keeps. -/
def belowFloor (x : AccCtx) (st q : Nat) : Bool :=
  match x.floors.find? fun e => e.1 == st with
  | some (_, g) => serialBelow q g
  | none => false

/-- A window entry outlives the floor step of its own stream, or lies below the stream's floor then (R254). -/
theorem window_accFloor {x : AccCtx} {st q : Nat} (f : Nat) (hw : (st, q) ∈ x.window) :
    (st, q) ∈ (accFloor st f x).window ∨ belowFloor (accFloor st f x) st q = true := by
  unfold accFloor
  split_ifs
  · by_cases hbelow : serialBelow q f = true
    · right
      simpa [belowFloor, find?_tset] using hbelow
    · left
      simp [hw, hbelow]
  · exact .inl hw

/-- A block in the window or below the floor waits for its admitted copy, or is dropped. -/
theorem accDecide_seen {x : AccCtx} {st q : Nat} (adm : List AccMsg) (h : (st, q) ∈ x.window ∨ belowFloor x st q = true) :
    accDecide x adm st q = .wait ∨ accDecide x adm st q = .drop := by
  have hseen : (belowFloor x st q || x.window.contains (st, q)) = true := by
    rcases h with h | h
    · simp [h]
    · simp [h]
  unfold accDecide
  split
  · exact .inl rfl
  · exact .inr (if_pos hseen)

/-- ACCUM_ARRIVE of a block in the window leaves the dies and memory (R254). -/
theorem accumArrive_of_window {s u : State} {d : Die} {x : CtxId} {m : AccMsg}
    (hm : (accCtx s d x).intake.find? (fun q => rideArrived s q.ride) = some m) (hw : (m.strm, m.seq) ∈ (accCtx s d x).window)
    (h : exec (.accumArrive d x) s = .next u) : u.dies = s.dies ∧ u.mem = s.mem := by
  have hhead : (accCtx s d x).intake[(accCtx s d x).intake.findIdx fun q => rideArrived s q.ride]? = some m :=
    (getElem?_findIdx _ _).trans hm
  have hdecide := accDecide_seen (admittedOf s d x) (window_accFloor m.floor hw)
  change execAccumArrive d x s = _ at h
  simp only [execAccumArrive, hhead] at h
  rcases hdecide with e | e
  · simp only [e] at h
    cases h
    exact ⟨rfl, rfl⟩
  · simp only [e] at h
    cases h
    have hsame := accAnswer_view (v := fun s => (s.dies, s.mem)) (fun _ _ _ _ _ _ => rfl) d m 1
    exact Prod.mk.inj (hsame _)

/-- ACCUM_APPLIED that takes its block out of the admitted list enters it in the window (R277). -/
theorem accumApplied_window {s t : State} {d : Die} {k : Nat} {m : AccMsg} (hm : (die s d).admitted[k]? = some m)
    (h : exec (.accumApplied d k) s = .next t) (hout : (die t d).admitted = (die s d).admitted.eraseIdx k) :
    (m.strm, m.seq) ∈ (accCtx t d m.ctx).window := by
  have hlt : k < (die s d).admitted.length := (List.getElem?_eq_some_iff.mp hm).1
  have kept : t.dies = s.dies → False := by
    intro hsame
    have hlen := congrArg List.length hout
    rw [die, hsame, ← die, List.length_eraseIdx, if_pos hlt] at hlen
    omega
  change execAccumApplied d k s = _ at h
  simp only [execAccumApplied, hm] at h
  split at h
  · cases h
    exact (kept rfl).elim
  · split at h
    · next s1 e =>
      have hread := millRead_view (v := State.dies) (fun _ _ _ _ _ _ _ _ _ => rfl) m.ctx (dieHalf d) (accTargets m) s
      rw [e] at hread
      refine (kept ?_).elim
      cases h
      rw [ctxFault_frame]
      exact hread
    · next s1 ks e =>
      cases h
      rw [accCtx, accAnswer_view (v := State.accs) (fun _ _ _ _ _ _ => rfl), ← accCtx, accCtx_modAcc_same]
      exact List.mem_append_right _ (List.mem_singleton_self _)

/-- Settles O28: a block in the window waits or is dropped, and application puts it there. -/
theorem appliedAccumulateIsNeverAppliedAgain : Obligations.AppliedAccumulateIsNeverAppliedAgain := by
  unfold Obligations.AppliedAccumulateIsNeverAppliedAgain
  have arrive : ∀ (s u : State) (d : Die) (x : CtxId) (m : AccMsg),
      (accCtx s d x).intake.find? (fun q => rideArrived s q.ride) = some m → (m.strm, m.seq) ∈ (accCtx s d x).window →
      exec (.accumArrive d x) s = .next u → (die u d).admitted = (die s d).admitted ∧ u.mem = s.mem := by
    intro s u d x m hm hw h
    obtain ⟨hdies, hmem⟩ := accumArrive_of_window hm hw h
    exact ⟨by rw [die, die, hdies], hmem⟩
  refine ⟨arrive, ?applied⟩
  case applied =>
    intro s t u d k m m' hm happlied hout hm' hst hq harrive
    have hw := accumApplied_window hm happlied hout
    exact ⟨hw, arrive t u d m.ctx m' hm' (by rw [hst, hq]; exact hw) harrive⟩

end Sys2Proof.Machine
end

section
/-! ### Illegal words and the first fault of a context (spec/04 R148, R149, spec/05 R160, spec/07 R248) -/

namespace Sys2Proof.Machine

/-- A command with the gate that it stands behind does what a repeat behind that gate does. -/
def Gated (s : State) (g : Option (CoreId × Engine × Nat)) (o : Out) : Prop :=
  ∀ c e opc, g = some (c, e, opc) → ∃ f, o = .next (onRepeat c e opc s f)

theorem gated_repeat {s : State} {c : CoreId} {e : Engine} {opc : Nat} {f : Desc → ListSet → Ctl → Nat → SOp → State} :
    Gated s (some (c, e, opc)) (.next (onRepeat c e opc s f)) := by
  rintro _ _ _ ⟨⟩
  exact ⟨f, rfl⟩

theorem gated_none {s : State} {o : Out} : Gated s none o := fun _ _ _ h => nomatch h

theorem exec_gated (i : Instr) (s : State) : Gated s (streamCommand i) (exec i s) := by
  cases i with
  | nop | arset | cntset | cntadd | cmpset | signal | wait | phase | mpass | munload | vew | vtr | vred | vcvt | vdrop | ltile | lvec
  | lq | lfetch | xput | xget | shift | permute => exact gated_repeat
  | _ => exact gated_none

/-- A stream command at an illegal word. -/
theorem exec_bad {s : State} {i : Instr} {c : CoreId} {e : Engine} {opc w : Nat} (hi : streamCommand i = some (c, e, opc))
    (hg : gate s c e opc = .bad w) :
    exec i s = .next (if e = .lde then lateCut c s (engFault c e 0x01 (w / 2 ^ 96) 0 s) else engFault c e 0x01 (w / 2 ^ 96) 0 s) := by
  obtain ⟨f, hf⟩ := exec_gated i s c e opc hi
  rw [hf, onRepeat_bad hg]
  rfl

/-- Settles O7: every stream command is a repeat behind the same gate. -/
theorem illegalWordsFaultTheContext : Obligations.IllegalWordsFaultTheContext := by
  intro s i c e opc hi
  refine ⟨fun w hg => exec_bad hi hg, fun hg => ?_⟩
  obtain ⟨f, hf⟩ := exec_gated i s c e opc hi
  rw [hf, onRepeat_idle hg]

/-- A core stopped: forced, and the same beside its slots, its late mark and its stopped engines. -/
def StoppedAs (x y : Core) : Prop :=
  y = { x with forced := y.forced, late := y.late, mons := y.mons, stopped := y.stopped }

theorem StoppedAs.refl (x : Core) : StoppedAs x x := rfl

theorem StoppedAs.trans {x y z : Core} (hxy : StoppedAs x y) (hyz : StoppedAs y z) : StoppedAs x z := by
  unfold StoppedAs at *
  rw [hyz, hxy]

/-- Stopping cores leaves all of a core but its forced mark and its slots. -/
theorem stoppedAs_stopCores (cs : List Nat) (s : State) (n : Nat) :
    StoppedAs (core s n) (core (cs.foldl (fun t c => stopCore c t) s) n) := by
  induction cs generalizing s with
  | nil => rfl
  | cons c cs ih =>
    refine StoppedAs.trans ?_ (ih (stopCore c s))
    by_cases h : n = c
    · subst h
      rw [stopCore, core_modCore_same]
      rfl
    · rw [stopCore, core_modCore_other _ _ h]
      rfl

/-- An engine is stopped at its own core. -/
theorem core_stopEngine_same (c : Nat) (e : Engine) (s : State) :
    core (stopEngine (some (c, e)) s) c = releaseSlots { core s c with stopped := e :: (core s c).stopped } :=
  core_modCore_same ..

theorem core_stopEngine_other {c n : Nat} (h : n ≠ c) (e : Engine) (s : State) : core (stopEngine (some (c, e)) s) n = core s n :=
  core_modCore_other _ _ h

/-- The first fault of the context that an engine's core runs: what it leaves of each core. -/
structure FirstFault (s t : State) (ctx : CtxId) (c : Nat) (e : Engine) (code detail : Nat) : Prop where
  fault : (ctxSt t ctx).fault = some (code, detail)
  cuts : (ctxSt t ctx).cuts = coresRunning s ctx
  stopped : e ∈ (core t c).stopped
  forced : ∀ n ∈ coresRunning s ctx, (core t n).forced = true ∧ StoppedAs (core s n) (core t n)
  other : ∀ n, n ∉ coresRunning s ctx → n ≠ c → core t n = core s n

theorem firstFault_ctxFault {ctx : CtxId} {s : State} (h : (ctxSt s ctx).fault = none) (code detail : Nat) (w : Site) (c : Nat)
    (e : Engine) : FirstFault s (ctxFault ctx code detail w (some (c, e)) s) ctx c e code detail := by
  rw [ctxFault_first h]
  -- the state in which the context is marked; its cores are those of `s`
  obtain ⟨u, hu, hcore, hctx⟩ : ∃ u, modCtx ctx (fun y => { y with fault := some (code, detail), cuts := coresRunning s ctx })
      (strikeQueries ctx (writeFaultRecord ctx (faultRecord s ctx code false detail w) s)) = u ∧ (∀ n, core u n = core s n)
      ∧ (ctxSt u ctx).fault = some (code, detail) ∧ (ctxSt u ctx).cuts = coresRunning s ctx := by
    refine ⟨_, rfl, fun n => ?_, ?_⟩
    · rw [strikeQueries_frame, writeFaultRecord_frame]; rfl
    · simp [modCtx, ctxSt]
  rw [hu]
  set v := (coresRunning s ctx).foldl (fun t c => stopCore c t) u with hv
  have hcv (n : Nat) : StoppedAs (core s n) (core v n) := hcore n ▸ stoppedAs_stopCores _ u n
  have hctxs : (stopEngine (some (c, e)) v).ctxs = u.ctxs := by rw [stopEngine_frame, hv, stopCores_frame]
  have hfault : ctxSt (stopEngine (some (c, e)) v) ctx = ctxSt u ctx := by rw [ctxSt, hctxs, ← ctxSt]
  refine ⟨hfault ▸ hctx.1, hfault ▸ hctx.2, ?_, fun n hn => ?_, fun n hn hne => ?_⟩
  · rw [core_stopEngine_same]
    exact List.mem_cons_self ..
  · have hforced : (core v n).forced = true := stopCores_forced _ u hn
    by_cases hc : n = c
    · subst hc
      rw [core_stopEngine_same]
      exact ⟨hforced, (hcv n).trans rfl⟩
    · rw [core_stopEngine_other hc]
      exact ⟨hforced, hcv n⟩
  · rw [core_stopEngine_other hne, hv, stopCores_other _ _ hn, hcore]

/-- A late cut's mark is the only thing it changes in a core, and it changes no context. -/
theorem FirstFault.lateCut {s t : State} {ctx : CtxId} {c : Nat} {e : Engine} {code detail : Nat}
    (h : FirstFault s t ctx c e code detail) : FirstFault s (lateCut c s t) ctx c e code detail := by
  unfold Machine.lateCut
  extract_lets x
  split
  · have hcore (n : Nat) : core (modCore c (fun y => { y with late := true }) (bump fPreemptLate c 1 t)) n
        = if n = c then { core t c with late := true } else core t n := by
      split
      · subst_vars; exact core_modCore_same ..
      · exact core_modCore_other _ _ ‹_›
    refine ⟨h.fault, h.cuts, ?_, fun n hn => ?_, fun n hn hne => ?_⟩
    · rw [hcore, if_pos rfl]; exact h.stopped
    · obtain ⟨hf, hs⟩ := h.forced n hn
      rw [hcore]
      split
      · subst_vars; exact ⟨hf, hs.trans rfl⟩
      · exact ⟨hf, hs⟩
    · rw [hcore, if_neg hne]; exact h.other n hn hne
  · exact h

/-- A stopped engine issues nothing. -/
theorem mayIssue_stopped {t : State} {c : Nat} {e : Engine} (h : e ∈ (core t c).stopped) : mayIssue t c e = false := by
  have hgo : goesOn (core t c) e = false := by simp [goesOn, h]
  simp [mayIssue, hgo]

/-- Settles O8: the fault of a stream command's illegal word is the first fault of the context that its core runs. -/
theorem firstContextFaultIsRecordedAndStopsItsCores : Obligations.FirstContextFaultIsRecordedAndStopsItsCores := by
  intro s i c e opc w d l hi hg hrun hnone
  have hf : FirstFault s (engFault c e 0x01 (w / 2 ^ 96) 0 s) d.ctx c e 0x01 (w / 2 ^ 96) := by
    rw [engFault_run hrun]
    exact firstFault_ctxFault hnone ..
  obtain ⟨t, ht, hft⟩ : ∃ t, exec i s = .next t ∧ FirstFault s t d.ctx c e 0x01 (w / 2 ^ 96) := by
    refine ⟨_, exec_bad hi hg, ?_⟩
    split
    · exact hf.lateCut
    · exact hf
  refine ⟨t, ht, hft.fault, hft.cuts, hft.stopped, mayIssue_stopped hft.stopped, fun n hn => ?_, hft.other⟩
  obtain ⟨hforced, hs⟩ := hft.forced n hn
  exact ⟨hforced, by rw [StoppedAs, hforced] at hs; exact hs⟩

end Sys2Proof.Machine
end

section
/-! ### The ride's receiver (spec/01 R34 to R41) -/

namespace Sys2Proof.Machine

/-- Another entry of a list stays. -/
theorem lget_lset_ne {α : Type} (l : List α) {i j : Nat} (h : i ≠ j) (v d : α) : lget (lset l i v) j d = lget l j d := by
  simp only [lget, lset, List.getD_eq_getElem?_getD, List.getElem?_set_ne h]

/-- An entry that a list has takes the value set. -/
theorem lget_lset_same {α : Type} {l : List α} {i : Nat} (h : i < l.length) (v d : α) : lget (lset l i v) i d = v := by
  simp [lget, lset, List.getD_eq_getElem?_getD, h]

/-- A change of the other half's end leaves this one. -/
theorem rideEnd_modRide_otherHalf (h : Half) (f : RideEnd → RideEnd) (s : State) :
    rideEnd (modRide (otherHalf h) f s) h = rideEnd s h := by
  have hne : (otherHalf h).val ≠ h.val := by revert h; decide
  simp only [rideEnd, modRide]
  exact lget_lset_ne _ hne _ _

/-- A receiver that is not down takes a good flit from the wire. -/
theorem exec_rideFlitReceive_good {h : Half} {s : State} {mask : Bytes} {f : WireFlit} {rest : List WireFlit} {r : RideEnd} {took : Bool}
    (hmask : mask.length ≤ 256) (hwire : (rideEnd s (otherHalf h)).wire = f :: rest) (hup : (rideEnd s h).down = false)
    (hcrc : crc32c ((xorBytes f.raw mask).take 252) = leNat ((xorBytes f.raw mask).drop 252))
    (htake : rideTake s.time (leNat ((xorBytes f.raw mask).take 4)) (rideEnd s h) = (r, took)) :
    exec (.rideFlitReceive h mask) s = .next (
      let s2 := modRide h (fun _ => r) (modRide (otherHalf h) (fun r => { r with wire := rest }) s)
      if took && f.flit.last then rideFinish f.flit.xfer s2 else s2) := by
  change execRideFlitReceive h mask s = _
  unfold execRideFlitReceive
  rw [if_neg (by omega)]
  simp only [hwire, rideEnd_modRide_otherHalf, hup, hcrc, htake, ne_eq, not_true_eq_false, if_false, Bool.false_eq_true]

/-- A receiver that is not down discards a flit whose CRC is bad. -/
theorem exec_rideFlitReceive_bad {h : Half} {s : State} {mask : Bytes} {f : WireFlit} {rest : List WireFlit}
    (hmask : mask.length ≤ 256) (hwire : (rideEnd s (otherHalf h)).wire = f :: rest) (hup : (rideEnd s h).down = false)
    (hcrc : crc32c ((xorBytes f.raw mask).take 252) ≠ leNat ((xorBytes f.raw mask).drop 252)) :
    exec (.rideFlitReceive h mask) s
      = .next (modRide h rideReject (modRide (otherHalf h) (fun r => { r with wire := rest }) s)) := by
  change execRideFlitReceive h mask s = _
  unfold execRideFlitReceive
  rw [if_neg (by omega)]
  simp only [hwire, rideEnd_modRide_otherHalf, hup, ne_eq, hcrc, not_false_eq_true, if_true, if_false, Bool.false_eq_true]

/-- A good data flit in order is taken (R38). -/
theorem rideTake_inOrder {now hd : Nat} {r : RideEnd} (hlo : 1 ≤ bits hd 24 4) (hhi : bits hd 24 4 ≤ 3) (hcls : bits hd 28 4 < 4)
    (hseq : BitVec.ofNat 12 (bits hd 0 12) = r.lastGood + 1) :
    rideTake now hd r = ({ rideAck now (BitVec.ofNat 12 (bits hd 12 12)) r with
      lastGood := r.lastGood + 1, discarding := false, goodSince := now }, true) := by
  simp only [rideTake, hseq, BitVec.sub_self]
  rw [if_neg (by omega), if_neg (by omega), if_neg (by omega)]
  rfl

/-- A rejected flit makes the receiver ask once for a replay. -/
theorem rideReject_eq (r : RideEnd) : rideReject r = { r with discarding := true, askReplay := r.askReplay || !r.discarding } := by
  unfold rideReject
  split
  · cases r; simp_all
  · simp_all

/-- Settles O3: the receiver's step by the flit's CRC, TYPE, CLASS and SEQ. -/
theorem rideReceiverTakesInOrderAndRejectsBadCrc : Obligations.RideReceiverTakesInOrderAndRejectsBadCrc := by
  refine ⟨fun h s mask f rest hmask _ hwire hup => ?_, fun id s hnone => ?_⟩
  · intro raw hd s1 arrives
    refine ⟨fun hcrc hlo hhi hcls hseq => ?_, fun hcrc => ?_⟩
    · have hgood := exec_rideFlitReceive_good hmask hwire hup hcrc (rideTake_inOrder hlo hhi hcls hseq)
      rw [hgood]
      have hend : rideEnd s1 h = rideEnd s h := rideEnd_modRide_otherHalf ..
      refine ⟨fun old new g hretry hold => ?_, fun hne => ?_⟩
      · rw [rideAck_of_retry_eq hretry hold]
        refine congrArg (fun t => Host.Outcome.next (arrives t)) ?_
        exact modRide_congr (by rw [hend])
      · rw [rideAck_of_forall_ne hne]
        refine congrArg (fun t => Host.Outcome.next (arrives t)) ?_
        exact modRide_congr (by rw [hend])
    · rw [exec_rideFlitReceive_bad hmask hwire hup hcrc]
      exact congrArg Host.Outcome.next (modRide_congr (rideReject_eq _))
  · have hwait : (s.rideNext.filter fun n => n.after == id) = [] := by simpa using hnone
    have hrest : (s.rideNext.filter fun n => n.after != id) = s.rideNext := by simpa using hnone
    rw [rideFinish, hwait, hrest]
    rfl

end Sys2Proof.Machine
end

section
/-! ### Waits: reads of a waited word, the limit of external waits, drop notices (spec/05 R169 to R171, spec/06 R208 to R218) -/

namespace Sys2Proof.Machine

/-- A word on the ride is short. -/
theorem rideWord_length (a v : Nat) : (rideWord a v).length < 2048 := by simp [rideWord, toLe, zeros]

/-- A word of the core's own half is asked of its stack port at once. -/
theorem rideRead_own {c : Nat} {ctx : CtxId} {l : Loc} (h : l.half.val = coreHalf c) (a v : Nat) (s : State) :
    rideRead c ctx l (rideWord a v) s = (coreAsk c ctx (.short 64) none l s, none) := by
  unfold rideRead
  simp only [rideWord_length, if_true, if_pos h]

/-- A read of a waited word of the core's half answers at once. -/
theorem waitAsk_own {c : CoreId} {l : Loc} (h : l.half.val = coreHalf c) (e : Engine) (ctx : CtxId) (w : Waiting) (off : Nat) (s : State) :
    waitAsk c e ctx w l off s
      = waitAnswer c e w (BitVec.ofNat 32 (wordRead s (l.addr off))) (coreAsk c ctx (.short 64) none l s) := by
  simp only [waitAsk, rideRead_own h]

/-- A re-read of a waited word that is a place. -/
theorem waitReread_here {c : CoreId} {s s1 : State} {d : Desc} {l : ListSet} {w : Waiting} {p : Loc} {off : Nat}
    (hrun : (core s c).run = some (d, l)) (hres : resolve c d.ctx .read 0 w.va s = (s1, .here p off)) (e : Engine) :
    waitReread c e w s = waitAsk c e d.ctx w p off s1 := by
  simp only [waitReread, hrun, hres]

/-- A read of a waited station word that its handle admits. -/
theorem waitStation_admitted {c : CoreId} {ctx : CtxId} {w : Waiting} {s : State}
    (h : stnFault s ctx (bits w.va.toNat 40 12) (w.va.toNat % 2 ^ 40) 4 .read = none) (e : Engine) :
    waitStation c e ctx w s =
      let hd := handleOf (htBytes s (bits w.va.toNat 40 12))
      let out := coreSend c ctx hd 2 (hd.rva + w.va.toNat % 2 ^ 40) 4 [] (.waitRead c e) none s
      setWait c e (some { w with reading := out.2 }) out.1 := by
  simp only [waitStation, h]

/-- A word read that compares true completes the wait. -/
theorem waitAnswer_holds {w : Waiting} {v : BitVec 32} (h : waitHolds w.cond.val v w.target = true) (c : CoreId) (e : Engine) (s : State) :
    waitAnswer c e w v s = waitDone c e s := if_pos h

/-- A word read that does not is kept as seen, and at the final read faults. -/
theorem waitAnswer_fails {w : Waiting} {v : BitVec 32} (h : waitHolds w.cond.val v w.target = false) (c : CoreId) (e : Engine) (s : State) :
    waitAnswer c e w v s =
      if w.asked then engFault c e fcExtWait 0 w.va.toNat (setWait c e (some { w with seen := v }) s)
      else setWait c e (some { w with seen := v }) s := by
  simp [waitAnswer, h]

/-- The wait of an engine of a context. -/
theorem waitOf_run {s : State} {c : CoreId} {d : Desc} {l : ListSet} (hrun : (core s c).run = some (d, l)) (e : Engine) :
    waitOf s c e d.ctx = ((core s c).eng e).wait := by
  simp [waitOf, hrun]

/-- Setting an engine's wait leaves what its core runs. -/
theorem run_setWait (c : Nat) (e : Engine) (w : Option Waiting) (s : State) : (core (setWait c e w s) c).run = (core s c).run := by
  rw [setWait, core_modCore_same]
  cases e <;> rfl

/-- A drop notice on its way is consumed; a warm slot becomes free (R209). -/
theorem exec_watchDropNotice {s : State} {c : CoreId} {n : Fin 8} (h : (c, n) ∈ s.drops) :
    (((core s c).mons.getD n Mon.reset).st = .free →
      exec (.watchDropNotice c n) s = .next { s with drops := s.drops.erase (c, n) })
    ∧ (((core s c).mons.getD n Mon.reset).st = .warm →
      exec (.watchDropNotice c n) s = .next (modCore c (fun x => { x with
        mons := x.mons.set n ⟨.free, 0, x.monClock⟩, monClock := x.monClock + 1 }) { s with drops := s.drops.erase (c, n) })) := by
  have hc : s.drops.contains (c, n) = true := List.contains_iff_mem.mpr h
  have hcore : core { s with drops := s.drops.erase (c, n) } c = core s c := rfl
  refine ⟨fun hst => ?_, fun hst => ?_⟩
  · change execWatchDropNotice c n s = _
    rw [← lget] at hst
    simp only [execWatchDropNotice, hc, if_true, hcore, hst]
  · change execWatchDropNotice c n s = _
    rw [← lget] at hst
    simp only [execWatchDropNotice, hc, if_true, hcore, hst]
    rfl

/-- EXT_WAIT_LIMIT once the limit is reached (R218). -/
theorem exec_extWaitLimit {s : State} {c : CoreId} {e : Engine} {d : Desc} {l : ListSet} {w : Waiting}
    (hrun : (core s c).run = some (d, l)) (hw : ((core s c).eng e).wait = some w) :
    exec (.extWaitLimit c e) s
      = .next (if extReached s d.ctx w then setWait c e (some { w with final := true }) s else s) := by
  change execExtWaitLimit c e s = _
  simp only [execExtWaitLimit, hrun, hw]

/-- EXT_WAIT_TIMEOUT of a wait (R218). -/
theorem exec_extWaitTimeout {s : State} {c : CoreId} {e : Engine} {d : Desc} {l : ListSet} {w : Waiting}
    (hrun : (core s c).run = some (d, l)) (hw : ((core s c).eng e).wait = some w) :
    exec (.extWaitTimeout c e d.ctx) s = .next (if !w.final || w.asked || !mayReread (core s c) e w then s
      else waitAgain c e d.ctx { w with asked := true } (setWait c e (some { w with asked := true }) s)) := by
  change execExtWaitTimeout c e d.ctx s = _
  simp only [execExtWaitTimeout, waitOf_run hrun, hw]

/-- Settles O12: the three commands by what the slot's state, the limit and the final read's answer are. -/
theorem dropNoticesAndExternalWaitLimits : Obligations.DropNoticesAndExternalWaitLimits := by
  intro s c
  refine ⟨fun n hn => exec_watchDropNotice hn, fun e d l w hrun hw => ?_⟩
  refine ⟨fun hext hfin hlim hbegin => ?_, fun hnot => ?_, fun hnot => ?_, fun hfin hasked hmay => ?_⟩
  · rw [exec_extWaitLimit hrun hw, if_pos]
    simp [extReached, hext, hfin, hlim, hbegin]
  · rw [exec_extWaitLimit hrun hw, if_neg]
    rcases hnot with h | h | h
    · simp [extReached, h]
    · simp [extReached, h]
    · simp [extReached, Nat.not_lt.mpr h]
  · rw [exec_extWaitTimeout hrun hw, if_pos]
    rcases hnot with h | h <;> simp [h]
  · intro w1 s0
    have hexec : exec (.extWaitTimeout c e d.ctx) s = .next (waitAgain c e d.ctx w1 s0) := by
      rw [exec_extWaitTimeout hrun hw, if_neg (by simp [hfin, hasked, hmay])]
    have hrun0 : (core s0 c).run = some (d, l) := by rw [run_setWait, hrun]
    refine ⟨fun s1 p off hword hres hown => ?_, fun hword => ?_⟩
    · intro seen s2
      have hask : exec (.extWaitTimeout c e d.ctx) s = .next (waitAnswer c e w1 seen s2) := by
        rw [hexec, waitAgain, if_pos hword, waitReread_here (w := w1) hrun0 hres, waitAsk_own hown]
      refine ⟨fun hholds => ?_, fun hfails => ?_⟩
      · rw [hask, waitAnswer_holds (w := w1) hholds]
      · rw [hask, waitAnswer_fails (w := w1) hfails]
        rfl
    · intro handle off h out hadm
      rw [hexec, waitAgain, if_neg (by simp [w1, hword]), waitStation_admitted (w := w1) hadm]

end Sys2Proof.Machine
end

section
/-! ### WAIT, WAIT_POLL and WATCH_WAKE (spec/05 R169 to R171, spec/06 R208 to R217) -/

namespace Sys2Proof.Machine

/-! #### What reads and changes of a core touch -/

/-- Cores and the requests to stack ports are the only parts that differ. -/
def CoresAsk (s t : State) : Prop := t = { s with cores := t.cores, stkReqs := t.stkReqs }

theorem CoresAsk.refl (s : State) : CoresAsk s s := rfl

theorem CoresAsk.trans {s t u : State} (hst : CoresAsk s t) (htu : CoresAsk t u) : CoresAsk s u :=
  Eq.trans htu (by rw [hst])

theorem CoresAsk.modCore {s t : State} (h : CoresAsk s t) (c : Nat) (f : Core → Core) : CoresAsk s (modCore c f t) := h.trans rfl

theorem CoresAsk.coreAsk {s t : State} (h : CoresAsk s t) (c : Nat) (ctx : CtxId) (kind : SKind) (ride : Option Nat) (l : Loc) :
    CoresAsk s (coreAsk c ctx kind ride l t) := h.trans (by
  unfold CoresAsk Machine.coreAsk
  rw [stkAsk_frame])

theorem core_coreAsk (c : Nat) (ctx : CtxId) (kind : SKind) (ride : Option Nat) (l : Loc) (s : State) (n : Nat) :
    core (coreAsk c ctx kind ride l s) n = core s n := by
  rw [coreAsk, stkAsk_frame]; rfl

theorem time_coreAsk (c : Nat) (ctx : CtxId) (kind : SKind) (ride : Option Nat) (l : Loc) (s : State) :
    (coreAsk c ctx kind ride l s).time = s.time := by
  rw [coreAsk, stkAsk_frame]

/-- Resolving an address touches the groves and the requests to stack ports only. -/
theorem resolve_stays {c : Nat} {x : CtxId} {want : Want} {pos : Nat} {va : BitVec 56} {s s1 : State} {t : Target}
    (h : resolve c x want pos va s = (s1, t)) : s1 = { s with groves := s1.groves, stkReqs := s1.stkReqs } := by
  have hframe := resolve_frame c x want pos va s
  rwa [h] at hframe

theorem core_resolve {c : Nat} {x : CtxId} {want : Want} {pos : Nat} {va : BitVec 56} {s s1 : State} {t : Target}
    (h : resolve c x want pos va s = (s1, t)) (n : Nat) : core s1 n = core s n := by
  rw [resolve_stays h]; rfl

theorem time_resolve {c : Nat} {x : CtxId} {want : Want} {pos : Nat} {va : BitVec 56} {s s1 : State} {t : Target}
    (h : resolve c x want pos va s = (s1, t)) : s1.time = s.time := by
  rw [resolve_stays h]

/-! #### One engine of a core -/

theorem setEng_setEng (x : Core) (e : Engine) (v w : Eng) : (x.setEng e v).setEng e w = x.setEng e w := by cases e <;> rfl

theorem setEng_stirred_setEng (x : Core) (e : Engine) (v w : Eng) (ctx : CtxId) (t : Nat) :
    ((x.setEng e v).stirred ctx t).setEng e w = (x.stirred ctx t).setEng e w := by cases e <;> rfl

@[simp] theorem run_setEng (x : Core) (e : Engine) (v : Eng) : (x.setEng e v).run = x.run := by cases e <;> rfl

@[simp] theorem mons_setEng (x : Core) (e : Engine) (v : Eng) : (x.setEng e v).mons = x.mons := by cases e <;> rfl

@[simp] theorem monClock_setEng (x : Core) (e : Engine) (v : Eng) : (x.setEng e v).monClock = x.monClock := by cases e <;> rfl

/-- Setting an engine's wait. -/
theorem core_setWait (c : Nat) (e : Engine) (w : Option Waiting) (s : State) :
    core (setWait c e w s) c = (core s c).setEng e { (core s c).eng e with wait := w } := core_modCore_same ..

/-- Setting an engine's wait twice. -/
theorem setWait_modCore_setWait (x : Core) (e : Engine) (v w : Option Waiting) :
    (x.setEng e { x.eng e with wait := v }).setEng e { (x.setEng e { x.eng e with wait := v }).eng e with wait := w }
      = x.setEng e { x.eng e with wait := w } := by cases e <;> rfl

/-! #### The end of a wait -/

/-- The WAIT repeat at an engine's PC, its registers stepping. -/
def WaitAt (s : State) (c : CoreId) (e : Engine) (d : Desc) (l : ListSet) (rep : Nat) (k' : Ctl) : Prop :=
  (core s c).run = some (d, l) ∧ ∃ word cond vadd gt pk poll value,
    decodeStream (l.word e (engCtl s c e).pc) = some (rep, .wait word cond vadd gt pk poll value)
      ∧ stepArs (steppedArs [word]) (engCtl s c e) = .ok k'

/-- The repeat is the same in a state whose core runs the same with the same control. -/
theorem WaitAt.congr {s t : State} {c : CoreId} {e : Engine} {d : Desc} {l : ListSet} {rep : Nat} {k' : Ctl}
    (h : WaitAt s c e d l rep k') (hrun : (core t c).run = (core s c).run) (hctl : engCtl t c e = engCtl s c e) :
    WaitAt t c e d l rep k' := by
  obtain ⟨h1, word, cond, vadd, gt, pk, poll, value, h2⟩ := h
  exact ⟨hrun.trans h1, word, cond, vadd, gt, pk, poll, value, by rwa [hctl]⟩

theorem engCtl_setWait (c : CoreId) (e : Engine) (w : Option Waiting) (s : State) : engCtl (setWait c e w s) c e = engCtl s c e := by
  simp only [engCtl, core_setWait, eng_setEng_same]

/-- A wait that holds no slot ends. -/
theorem waitDone_unparked {s : State} {c : CoreId} {e : Engine} {d : Desc} {l : ListSet} {rep : Nat} {k' : Ctl}
    (h : WaitAt s c e d l rep k') (hslot : ((core s c).eng e).wait.bind (·.slot) = none) :
    waitDone c e s
      = modCore c (fun x => (x.stirred d.ctx s.time).setEng e ⟨k'.advance l e d.chunks rep, none, none⟩) s := by
  obtain ⟨hrun, word, cond, vadd, gt, pk, poll, value, hdec, hstep⟩ := h
  simp only [engCtl] at hdec hstep
  simp only [waitDone, hrun, hslot, hdec, hstep]

/-- A wait that holds a slot ends: the slot turns warm. -/
theorem waitDone_parked {s : State} {c : CoreId} {e : Engine} {d : Desc} {l : ListSet} {rep : Nat} {k' : Ctl} {n : Fin 8}
    (h : WaitAt s c e d l rep k') (hslot : ((core s c).eng e).wait.bind (·.slot) = some n) :
    waitDone c e s = modCore c (fun x => (x.stirred d.ctx s.time).setEng e ⟨k'.advance l e d.chunks rep, none, none⟩)
      (warmSlot c n s) := by
  obtain ⟨hrun, word, cond, vadd, gt, pk, poll, value, hdec, hstep⟩ := h
  simp only [engCtl] at hdec hstep
  simp only [waitDone, hrun, hslot, hdec, hstep]

/-! #### The first read -/

/-- What a WAIT at a place holds when it begins. -/
def firstWaiting (s : State) (ctx : CtxId) (va : BitVec 56) (a : Nat) (goal : BitVec 32) (cond : Nat) (slot : Option (Fin 8)) : Waiting :=
  ⟨va, some a, goal, Fin.ofNat 8 cond, slot, isExternal s ctx va, s.time, 0, false, false, none, none⟩

/-- The value that a WAIT compares its word with. -/
def waitGoal (k : Ctl) (vadd value : Nat) : BitVec 32 :=
  BitVec.ofNat 32 value + if vadd = 0 then 0 else (k.cnts.getD (vadd - 1) Counter.reset).val

section
variable {s s1 : State} {c : CoreId} {e : Engine} {d : Desc} {l : ListSet} {rep cond vadd gt poll value : Nat} {word : Opd} {pk : Bool}
  {k' : Ctl} {p : Loc} {off : Nat}

/-- A WAIT whose gate does not hold completes. -/
theorem exec_wait_gated (h : AtRepeat s c e d l rep (.wait word cond vadd gt pk poll value))
    (hchk : checkOpd s c (waitRegions pk) 4 0 ((engCtl s c e).opAddr word) = none)
    (hstep : stepArs (steppedArs [word]) (engCtl s c e) = .ok k') (hgt : gt ≠ 0) (hgate : (engCtl s c e).cmpNow (gt - 1) = false) :
    exec (.wait c e) s = .next (setCtl c e (k'.advance l e d.chunks rep) s) := by
  refine congrArg Host.Outcome.next ((onRepeat_at h rfl _).trans ?_)
  simp only [hchk, hgt, hgate, ne_eq, not_false_eq_true, and_self, if_true, issue, hstep, id]

/-- A WAIT at a place reads its word, after it has parked where it parks. -/
theorem exec_wait_here (h : AtRepeat s c e d l rep (.wait word cond vadd gt pk poll value))
    (hchk : checkOpd s c (waitRegions pk) 4 0 ((engCtl s c e).opAddr word) = none)
    (hstep : stepArs (steppedArs [word]) (engCtl s c e) = .ok k') (hgate : gt = 0 ∨ (engCtl s c e).cmpNow (gt - 1) = true)
    (hres : resolve c d.ctx .read 0 ((engCtl s c e).opAddr word) s = (s1, .here p off)) {s2 : State} {slot : Option (Fin 8)}
    (hpark : (if pk then park c e (p.addr off) s1 else (s1, none)) = (s2, slot)) :
    let w := firstWaiting s d.ctx ((engCtl s c e).opAddr word) (p.addr off) (waitGoal (engCtl s c e) vadd value) cond slot
    exec (.wait c e) s = .next (waitAsk c e d.ctx w p off (setWait c e (some w) s2)) := by
  refine congrArg Host.Outcome.next ((onRepeat_at h rfl _).trans ?_)
  have hopen : ¬(gt ≠ 0 ∧ (engCtl s c e).cmpNow (gt - 1) = false) := by
    rcases hgate with h | h <;> simp [h]
  simp only [hchk, if_neg hopen, hstep, hres, hpark]
  rfl

/-- The WAIT at a repeat, read as the engine's wait. -/
theorem AtRepeat.waitAt (h : AtRepeat s c e d l rep (.wait word cond vadd gt pk poll value))
    (hstep : stepArs (steppedArs [word]) (engCtl s c e) = .ok k') : WaitAt s c e d l rep k' :=
  ⟨h.1, word, cond, vadd, gt, pk, poll, value, h.2.2.2.2, hstep⟩

end

/-! #### Parking -/

/-- The eight slots, split at one of them. -/
theorem slots_split : ∀ n : Fin 8,
    ([0, 1, 2, 3, 4, 5, 6, 7] : List (Fin 8)) = (List.finRange 8).take n.val ++ n :: (List.finRange 8).drop (n.val + 1)
      ∧ ∀ m ∈ (List.finRange 8).take n.val, m < n := by decide

/-- With no warm slot on the word a parking WAIT takes the lowest free slot (R208). -/
theorem pickSlot_free {x : Core} {a : Nat} {n : Fin 8}
    (hwarm : ∀ m : Fin 8, ¬((x.mons.getD m Mon.reset).st = .warm ∧ (x.mons.getD m Mon.reset).word = a))
    (hfree : (x.mons.getD n Mon.reset).st = .free) (hlow : ∀ m < n, (x.mons.getD m Mon.reset).st ≠ .free) :
    pickSlot x a = some (n, true) := by
  have hnone : ([0, 1, 2, 3, 4, 5, 6, 7] : List (Fin 8)).find?
      (fun m => (lget x.mons m.val Mon.reset).st == .warm && (lget x.mons m.val Mon.reset).word == a) = none := by
    rw [List.find?_eq_none]
    intro m _
    simpa [lget] using hwarm m
  have hsome : ([0, 1, 2, 3, 4, 5, 6, 7] : List (Fin 8)).find? (fun m => (lget x.mons m.val Mon.reset).st == .free) = some n := by
    rw [List.find?_eq_some_iff_append]
    refine ⟨by simpa [lget] using hfree, _, _, (slots_split n).1, fun m hm => ?_⟩
    simpa [lget] using hlow m ((slots_split n).2 m hm)
  simp only [pickSlot, hnone, hsome]

/-- Parking on a free slot, its home's table not full and no older watch of the slot standing. -/
theorem park_free {s : State} {c : CoreId} {e : Engine} {a : Nat} {n : Fin 8} (hpick : pickSlot (core s c) a = some (n, true))
    (hnew : ∀ v ∈ s.watches, v.core = c → v.slot ≠ n) (hroom : (s.watches.filter fun v => v.home == homeOf a).length < homeCap (homeOf a)) :
    park c e a s = ({ setMon c n (.active e) a s with watches := s.watches ++ [⟨homeOf a, a, c, n, false, none⟩] }, some n) := by
  have hdrop : dropWatch c n s = s := by
    have hall : (s.watches.filter fun w => !(w.core == c && w.slot == n)) = s.watches := by
      rw [List.filter_eq_self]
      intro v hv
      have := hnew v hv
      simp only [Bool.not_eq_true', Bool.and_eq_false_iff, beq_eq_false_iff_ne]
      tauto
    simp only [dropWatch, hall]
  have hwatches : (setMon c n (.active e) a s).watches = s.watches := rfl
  simp only [park, hpick, hdrop, armWatch, hwatches, hroom, if_true]

/-! #### Polls and wakes -/

/-- WAIT_POLL of a wait that may read again. -/
theorem exec_waitPoll_again {s : State} {c : CoreId} {e : Engine} {d : Desc} {l : ListSet} {w : Waiting}
    (hrun : (core s c).run = some (d, l)) (hw : ((core s c).eng e).wait = some w) (hslot : w.slot = none) (hfin : w.final = false)
    (hmay : mayReread (core s c) e w = true) :
    exec (.waitPoll c e d.ctx) s = .next (waitAgain c e d.ctx w s) := by
  change execWaitPoll c e d.ctx s = _
  simp only [execWaitPoll, waitOf_run hrun, hw, hslot, hfin, hmay]
  rfl

/-- WAIT_POLL of a parked wait, or with a read outstanding. -/
theorem exec_waitPoll_idle {s : State} {c : CoreId} {e : Engine} {d : Desc} {l : ListSet} {w : Waiting}
    (hrun : (core s c).run = some (d, l)) (hw : ((core s c).eng e).wait = some w)
    (h : w.slot.isSome = true ∨ w.reading.isSome = true ∨ w.back.isSome = true) :
    exec (.waitPoll c e d.ctx) s = .next s := by
  change execWaitPoll c e d.ctx s = _
  simp only [execWaitPoll, waitOf_run hrun, hw]
  rw [if_pos]
  rcases h with h | h | h
  · simp [h]
  · have : w.settled = false := by simp [Waiting.settled, Option.isNone_eq_false_iff.mpr h]
    simp [mayReread, this]
  · have : w.settled = false := by simp [Waiting.settled, Option.isNone_eq_false_iff.mpr h]
    simp [mayReread, this]

/-- The state after the wake of a slot has been taken. -/
def wakeTaken (c : CoreId) (n : Fin 8) (s : State) : State :=
  { s with watches := s.watches.map fun v => if v.core = c ∧ v.slot = n then { v with woken := false, ride := none } else v }

/-- WATCH_WAKE of a watch whose wake has arrived. -/
theorem exec_watchWake {s : State} {c : CoreId} {n : Fin 8}
    (h : ∃ v ∈ s.watches, v.core = c ∧ v.slot = n ∧ v.woken = true ∧ rideArrived s v.ride = true) :
    (slotEngine (core s c) n = none → exec (.watchWake c n) s = .next (wakeTaken c n s))
    ∧ ∀ (e : Engine) (w : Waiting), slotEngine (core s c) n = some (e, w) → w.final = false → goesOn (core s c) e = true →
      exec (.watchWake c n) s = .next (waitReread c e w (wakeTaken c n s)) := by
  have hany : (s.watches.any fun w => w.core == c && w.slot == n && w.woken && rideArrived s w.ride) = true := by
    obtain ⟨v, hv, hcore, hslot, hwoken, hride⟩ := h
    exact List.any_eq_true.mpr ⟨v, hv, by simp [hcore, hslot, hwoken, hride]⟩
  have hcore (ws : List Watch) : core { s with watches := ws } c = core s c := rfl
  refine ⟨fun hnone => ?_, fun e w hsome hfin hgo => ?_⟩
  · change execWatchWake c n s = _
    simp only [execWatchWake, hany, if_true, hcore, hnone, wakeTaken]
  · change execWatchWake c n s = _
    simp only [execWatchWake, hany, if_true, hcore, hsome, hfin, hgo, wakeTaken, Bool.not_true, Bool.or_false, Bool.false_eq_true,
      if_false]

/-- The first of a list of options is one of them. -/
theorem firstSome_mem {α : Type} {l : List (Option α)} {a : α} (h : firstSome l = some a) : some a ∈ l := by
  induction l with
  | nil => cases h
  | cons x l ih =>
    cases x with
    | none => exact List.mem_cons_of_mem _ (ih h)
    | some b => cases h; exact List.mem_cons_self ..

/-- The wait that holds a slot. -/
theorem slotEngine_some {x : Core} {n : Fin 8} {e : Engine} {w : Waiting} (h : slotEngine x n = some (e, w)) :
    (x.eng e).wait = some w ∧ w.slot = some n := by
  obtain ⟨f, -, hf⟩ := List.mem_map.mp (firstSome_mem h)
  split at hf
  · next v hv =>
    split at hf
    · next hs => cases hf; exact ⟨hv, hs⟩
    · cases hf
  · cases hf

end Sys2Proof.Machine
end

section
/-! #### WAIT completes, parks or polls -/

namespace Sys2Proof.Machine

section
variable {s s1 : State} {c : CoreId} {e : Engine} {d : Desc} {l : ListSet} {rep cond vadd gt poll value : Nat} {word : Opd} {pk : Bool}
  {k' : Ctl} {p : Loc} {off : Nat}

/-- The state in which a WAIT that has begun to wait on `slot` has asked for its word. -/
def asked (c : CoreId) (e : Engine) (ctx : CtxId) (w : Waiting) (p : Loc) (s : State) : State :=
  coreAsk c ctx (.short 64) none p (setWait c e (some w) s)

theorem core_asked (c : CoreId) (e : Engine) (ctx : CtxId) (w : Waiting) (p : Loc) (s : State) :
    core (asked c e ctx w p s) c = (core s c).setEng e { (core s c).eng e with wait := some w } := by
  rw [asked, core_coreAsk, core_setWait]

theorem core_asked_other {c : CoreId} {n : Nat} (h : n ≠ c) (e : Engine) (ctx : CtxId) (w : Waiting) (p : Loc) (s : State) :
    core (asked c e ctx w p s) n = core s n := by
  rw [asked, core_coreAsk]
  exact core_modCore_other _ _ h

theorem coresAsk_asked (c : CoreId) (e : Engine) (ctx : CtxId) (w : Waiting) (p : Loc) (s : State) :
    CoresAsk s (asked c e ctx w p s) := ((CoresAsk.refl s).modCore c _).coreAsk c ctx _ _ p

/-- A WAIT at a place of the core's half gets its word at once. -/
theorem exec_wait_own (h : AtRepeat s c e d l rep (.wait word cond vadd gt pk poll value))
    (hchk : checkOpd s c (waitRegions pk) 4 0 ((engCtl s c e).opAddr word) = none)
    (hstep : stepArs (steppedArs [word]) (engCtl s c e) = .ok k') (hgate : gt = 0 ∨ (engCtl s c e).cmpNow (gt - 1) = true)
    (hres : resolve c d.ctx .read 0 ((engCtl s c e).opAddr word) s = (s1, .here p off)) (hown : p.half.val = coreHalf c) {s2 : State}
    {slot : Option (Fin 8)} (hpark : (if pk then park c e (p.addr off) s1 else (s1, none)) = (s2, slot)) :
    let w := firstWaiting s d.ctx ((engCtl s c e).opAddr word) (p.addr off) (waitGoal (engCtl s c e) vadd value) cond slot
    exec (.wait c e) s = .next (waitAnswer c e w (BitVec.ofNat 32 (wordRead s2 (p.addr off))) (asked c e d.ctx w p s2)) := by
  intro w
  rw [exec_wait_here h hchk hstep hgate hres hpark, waitAsk_own hown]
  rfl

/-- (2) A polling WAIT whose word compares true completes. -/
theorem wait_completes (h : WaitAt s c e d l rep k') (hs1 : ∀ n, core s1 n = core s n) (htime : s1.time = s.time) {w : Waiting}
    (hslot : w.slot = none) :
    let t := waitDone c e (asked c e d.ctx w p s1)
    core t c = ((core s1 c).stirred d.ctx s.time).setEng e ⟨k'.advance l e d.chunks rep, none, none⟩
      ∧ (∀ n : Nat, n ≠ c → core t n = core s1 n) ∧ CoresAsk s1 t := by
  have hat : WaitAt (asked c e d.ctx w p s1) c e d l rep k' := by
    refine h.congr ?_ ?_
    · rw [core_asked, run_setEng, hs1]
    · simp only [engCtl, core_asked, eng_setEng_same, hs1]
  have hnone : ((core (asked c e d.ctx w p s1) c).eng e).wait.bind (·.slot) = none := by
    simp only [core_asked, eng_setEng_same, Option.bind_some, hslot]
  have htime' : (asked c e d.ctx w p s1).time = s.time := by rw [asked, time_coreAsk]; exact htime
  intro t
  have ht : t = modCore c _ _ := waitDone_unparked hat hnone
  refine ⟨?_, fun n hn => ?_, ?_⟩
  · rw [ht, core_modCore_same, core_asked, setEng_stirred_setEng, htime']
  · rw [ht, core_modCore_other _ _ hn, core_asked_other hn]
  · rw [ht]
    exact (coresAsk_asked ..).modCore c _

/-- (3) A word that does not compare true is kept as seen. -/
theorem wait_keepsSeen (c : CoreId) (e : Engine) (ctx : CtxId) (w : Waiting) (p : Loc) (s : State) (v : BitVec 32) :
    let t := setWait c e (some { w with seen := v }) (asked c e ctx w p s)
    core t c = (core s c).setEng e { (core s c).eng e with wait := some { w with seen := v } }
      ∧ (∀ n : Nat, n ≠ c → core t n = core s n) ∧ CoresAsk s t := by
  intro t
  refine ⟨?_, fun n hn => ?_, (coresAsk_asked ..).modCore c _⟩
  · rw [core_setWait, core_asked, setWait_modCore_setWait]
  · exact (core_modCore_other _ _ hn).trans (core_asked_other hn ..)

/-- The state in which the lowest free slot `n` has been taken and its watch armed. -/
def parkedOn (c : CoreId) (e : Engine) (a : Nat) (n : Fin 8) (s : State) : State :=
  { setMon c n (.active e) a s with watches := s.watches ++ [⟨homeOf a, a, c, n, false, none⟩] }

theorem mem_parkedOn (c : CoreId) (e : Engine) (a : Nat) (n : Fin 8) (s : State) : (parkedOn c e a n s).mem = s.mem := rfl

theorem wordRead_parkedOn (c : CoreId) (e : Engine) (a : Nat) (n : Fin 8) (s : State) (b : Nat) :
    wordRead (parkedOn c e a n s) b = wordRead s b := by
  rw [wordRead, wordRead, memRead, memRead, mem_parkedOn]

theorem if_park {pk : Bool} (hpk : pk = true) {a : Nat} {n : Fin 8} {s : State} (hpick : pickSlot (core s c) a = some (n, true))
    (hnew : ∀ v ∈ s.watches, v.core = c → v.slot ≠ n) (hroom : (s.watches.filter fun v => v.home == homeOf a).length < homeCap (homeOf a)) :
    (if pk then park c e a s else (s, none)) = (parkedOn c e a n s, some n) :=
  (if_pos hpk).trans (park_free hpick hnew hroom)

/-- (4) A parked wait whose word does not compare true holds its slot. -/
theorem wait_parks {n : Fin 8} {a : Nat} (hlen : (core s1 c).mons.length = 8) (ctx : CtxId) (w : Waiting) (v : BitVec 32) :
    let t := setWait c e (some { w with seen := v }) (asked c e ctx w p (parkedOn c e a n s1))
    ((core t c).eng e).wait = some { w with seen := v }
      ∧ ((core t c).mons.getD n Mon.reset).st = .active e ∧ ((core t c).mons.getD n Mon.reset).word = a
      ∧ t.watches = s1.watches ++ [⟨homeOf a, a, c, n, false, none⟩]
      ∧ t = { s1 with cores := t.cores, watches := t.watches, stkReqs := t.stkReqs } := by
  intro t
  obtain ⟨hcore, -, hframe⟩ := wait_keepsSeen c e ctx w p (parkedOn c e a n s1) v
  have hmons : (core t c).mons = (core s1 c).mons.set n ⟨.active e, a, (core s1 c).monClock⟩ := by
    rw [hcore, mons_setEng]
    change (core (setMon c n (.active e) a s1) c).mons = _
    rw [setMon, core_modCore_same]
    rfl
  have hmon : (core t c).mons.getD n Mon.reset = ⟨.active e, a, (core s1 c).monClock⟩ := by
    rw [hmons, ← lget, ← lset]
    exact lget_lset_same (by rw [hlen]; exact n.isLt) _ _
  have ht : t = { parkedOn c e a n s1 with cores := t.cores, stkReqs := t.stkReqs } := hframe
  refine ⟨by rw [hcore, eng_setEng_same], by rw [hmon], by rw [hmon], ?_, ?_⟩
  · rw [ht]
    rfl
  · rw [ht]
    rfl

/-- A read of the other half crosses the ride; no core and no memory changes. -/
theorem rideRead_far {n : Nat} {l : Loc} (h : l.half.val ≠ coreHalf n) (ctx : CtxId) (data : Bytes) (s : State) :
    ∃ (t : State) (id : Nat), rideRead n ctx l data s = (t, some id) ∧ t.cores = s.cores ∧ t.mem = s.mem := by
  have hv {α : Type} (v : State → α) (hr : ∀ s r x n, v { s with ride := r, xfers := x, rideNext := n } = v s)
      (hk : ∀ s q, v { s with stkReqs := q } = v s) (kind : SKind) (q : Nat) :
      v (rideLater (some q) l.half (rideClass s ctx false) data (coreAsk n ctx kind (some q) l
        (rideSend (halfOf (coreHalf n)) (rideClass s ctx false) (rideWord (l.addr 0) 0) s).1)).1 = v s := by
    rw [rideLater_view hr, coreAsk, stkAsk_frame, hk]
    exact rideSend_view (fun s r x => hr s r x s.rideNext) _ _ _ _
  rcases hsend : rideSend (halfOf (coreHalf n)) (rideClass s ctx false) (rideWord (l.addr 0) 0) s with ⟨s1, q⟩
  rcases hlater : rideLater (some q) l.half (rideClass s ctx false) data
    (coreAsk n ctx (if data.length < 2048 then .short 64 else .read) (some q) l s1) with ⟨s2, id⟩
  have hs2 : s2 = (rideLater (some q) l.half (rideClass s ctx false) data (coreAsk n ctx
      (if data.length < 2048 then .short 64 else .read) (some q) l
        (rideSend (halfOf (coreHalf n)) (rideClass s ctx false) (rideWord (l.addr 0) 0) s).1)).1 := by rw [hsend, hlater]
  refine ⟨s2, id, ?_, ?_, ?_⟩
  · simp only [rideRead, if_neg h, hsend, hlater]
  · rw [hs2]; exact hv (·.cores) (fun _ _ _ _ => rfl) (fun _ _ => rfl) _ _
  · rw [hs2]; exact hv (·.mem) (fun _ _ _ _ => rfl) (fun _ _ => rfl) _ _

/-- (5) A WAIT at a place of the other half waits for the answer to cross the ride. -/
theorem waitAsk_far (hfar : p.half.val ≠ coreHalf c) (ctx : CtxId) (w : Waiting) (s : State) :
    ∃ (t : State) (id : Nat), waitAsk c e ctx w p off (setWait c e (some w) s) = t
      ∧ (core t c).eng e = { (core s c).eng e with wait := some { w with back := some id } } ∧ t.mem = s.mem := by
  obtain ⟨u, id, hread, hcores, hmem⟩ := rideRead_far hfar ctx
    (rideWord (p.addr off) (BitVec.ofNat 32 (wordRead (setWait c e (some w) s) (p.addr off))).toNat) (setWait c e (some w) s)
  refine ⟨_, id, rfl, ?_, ?_⟩
  · have hcore : core u c = (core s c).setEng e { (core s c).eng e with wait := some w } := by
      rw [← core_setWait, core, hcores, ← core]
    simp only [waitAsk, hread]
    change ((core (setWait c e _ u) c).eng e) = _
    rw [core_setWait, hcore, eng_setEng_same, eng_setEng_same]
  · simp only [waitAsk, hread]
    exact hmem

end

/-! #### The three commands together -/

/-- A wait's repeat ends at a place whose word compares true, in a state that asks for the word. -/
theorem waitDone_polled {s s1 : State} {c : CoreId} {e : Engine} {d : Desc} {l : ListSet} {rep : Nat} {k' : Ctl} {w : Waiting} {p : Loc}
    (h : WaitAt s c e d l rep k') (hw : ((core s c).eng e).wait = some w) (hslot : w.slot = none) (hcore : core s1 c = core s c)
    (htime : s1.time = s.time) :
    let s2 := coreAsk c d.ctx (.short 64) none p s1
    waitDone c e s2 = modCore c (fun x => (x.stirred d.ctx s.time).setEng e ⟨k'.advance l e d.chunks rep, none, none⟩) s2 := by
  intro s2
  have hs2 : core s2 c = core s c := (core_coreAsk ..).trans hcore
  rw [waitDone_unparked (h.congr (by rw [hs2]) (by simp only [engCtl, hs2])) (by rw [hs2, hw]; exact hslot)]
  rw [show s2.time = s.time from (time_coreAsk ..).trans htime]

/-- Settles O11: a WAIT's first read, and the reads that follow it. -/
theorem waitCompletesParksOrPolls : Obligations.WaitCompletesParksOrPolls := by
  refine ⟨?_, ?_⟩
  · intro s c e d l rep cond vadd gt poll value word pk k' hat k va hchk hstep
    refine ⟨fun hgt hgate => exec_wait_gated hat hchk hstep hgt hgate, fun hgate s1 p off hres => ?_⟩
    intro a seen goal waiting
    have hcore := core_resolve hres
    refine ⟨fun hown => ⟨fun hpk hholds => ?_, fun hpk hfails => ?_, ?_⟩, fun hfar hpk => ?_⟩
    · subst hpk
      have hexec : exec (.wait c e) s = .next (waitAnswer c e (firstWaiting s d.ctx va a goal cond none) seen _) :=
        exec_wait_own hat hchk hstep hgate hres hown (slot := none) rfl
      obtain ⟨hc, hother, hframe⟩ := wait_completes (p := p) (hat.waitAt hstep) hcore (time_resolve hres)
        (w := firstWaiting s d.ctx va a goal cond none) rfl
      rw [waitAnswer_holds hholds] at hexec
      exact ⟨_, hexec, hc, hother, hframe⟩
    · subst hpk
      have hexec : exec (.wait c e) s = .next (waitAnswer c e (firstWaiting s d.ctx va a goal cond none) seen _) :=
        exec_wait_own hat hchk hstep hgate hres hown (slot := none) rfl
      rw [waitAnswer_fails hfails] at hexec
      exact ⟨_, hexec, wait_keepsSeen c e d.ctx (firstWaiting s d.ctx va a goal cond none) p s1 seen⟩
    · intro n hpk hfails hwarm hfree hlow hlen hnew hroom
      have hpark := if_park (e := e) hpk (pickSlot_free hwarm hfree hlow) hnew hroom
      have hexec : exec (.wait c e) s = .next (waitAnswer c e (firstWaiting s d.ctx va a goal cond (some n)) seen
          (asked c e d.ctx (firstWaiting s d.ctx va a goal cond (some n)) p (parkedOn c e a n s1))) :=
        (exec_wait_own hat hchk hstep hgate hres hown hpark).trans (congrArg (fun n =>
          Host.Outcome.next (waitAnswer c e _ (BitVec.ofNat 32 n) _)) (wordRead_parkedOn ..))
      rw [waitAnswer_fails hfails] at hexec
      exact ⟨_, hexec, wait_parks hlen d.ctx (firstWaiting s d.ctx va a goal cond (some n)) seen⟩
    · subst hpk
      have hexec : exec (.wait c e) s = .next (waitAsk c e d.ctx (firstWaiting s d.ctx va a goal cond none) p off _) :=
        exec_wait_here hat hchk hstep hgate hres (slot := none) rfl
      obtain ⟨t, id, ht, heng, hmem⟩ := waitAsk_far (e := e) (off := off) hfar d.ctx (firstWaiting s d.ctx va a goal cond none) s1
      exact ⟨t, id, hexec.trans (congrArg Host.Outcome.next ht), heng, hmem⟩
  · intro s c e d l rep cond vadd gt poll value word pk k' w hrun hw hfin hasked hdec hstep
    have hat : WaitAt s c e d l rep k' := ⟨hrun, word, cond, vadd, gt, pk, poll, value, hdec, hstep⟩
    refine ⟨fun s1 p off hslot hword hmay hres hown => ?_, fun hslot hword hmay => ?_, exec_waitPoll_idle hrun hw, ?_, ?_⟩
    · intro v s2
      have hexec : exec (.waitPoll c e d.ctx) s = .next (waitAnswer c e w v s2) := by
        rw [exec_waitPoll_again hrun hw hslot hfin hmay, waitAgain, if_pos hword, waitReread_here hrun hres, waitAsk_own hown]
      refine ⟨fun hholds => ?_, fun hfails => ?_⟩
      · rw [hexec, waitAnswer_holds hholds]
        exact congrArg Host.Outcome.next (waitDone_polled hat hw hslot (core_resolve hres c) (time_resolve hres))
      · rw [hexec, waitAnswer_fails hfails, if_neg (by simp [hasked])]
    · have hexec : exec (.waitPoll c e d.ctx) s = .next (waitStation c e d.ctx w s) := by
        rw [exec_waitPoll_again hrun hw hslot hfin hmay, waitAgain, if_neg (by simp [hword])]
      refine ⟨fun hadm => ?_, fun code hadm => ?_⟩
      · rw [hexec, waitStation_admitted hadm]
      · rw [hexec]
        simp only [waitStation, hadm]
    · intro n s1 p off hwoken hslotEng hgo s0 hres hown v s2
      obtain ⟨-, hslot⟩ := slotEngine_some hslotEng
      have hexec : exec (.watchWake c n) s = .next (waitAnswer c e w v s2) := by
        rw [(exec_watchWake hwoken).2 e w hslotEng hfin hgo, waitReread_here (s := wakeTaken c n s) (s1 := s1) hrun hres, waitAsk_own hown]
      have hs2 : core s2 c = core s c := (core_coreAsk ..).trans (core_resolve hres c)
      refine ⟨fun hholds => ?_, fun hfails => ?_⟩
      · have hdone := waitDone_parked (hat.congr (t := s2) (by rw [hs2]) (by simp only [engCtl, hs2])) (n := n) (by rw [hs2, hw]; exact hslot)
        refine ⟨_, by rw [hexec, waitAnswer_holds hholds], ?_, ?_, ?_⟩
        · rw [hdone, core_modCore_same, eng_setEng_same]
        · rw [hdone, core_modCore_same, mons_setEng]
          change (core (setMon c n .warm _ s2) c).mons = _
          rw [setMon, core_modCore_same, core_resolve hres c]
          change lset (core s2 c).mons _ _ = _
          rw [hs2]
          rfl
        · rw [hdone]
          rfl
      · rw [hexec, waitAnswer_fails hfails, if_neg (by simp [hasked])]
    · intro n hwoken hnone
      exact (exec_watchWake hwoken).1 hnone

end Sys2Proof.Machine
end

section
/-! #### The deliveries of a core's LDE (spec/05 R187, R188; spec/03 R91) -/

namespace Sys2Proof.Machine

/-- The first delivery of a kind, once its blocks have arrived. -/
theorem readyDeliv_first {s : State} {pre post : List Deliv} {q : Deliv} (hpre : ∀ p ∈ pre, p.kind ≠ q.kind) :
    readyDeliv s q.kind (pre ++ q :: post) = if rideArrived s q.ride then some (q, pre ++ post) else none := by
  have htake : takeDeliv q.kind (pre ++ q :: post) = some (q, pre ++ post) := by
    induction pre with
    | nil => simp [takeDeliv]
    | cons p pre ih =>
      have hp : p.kind ≠ q.kind := hpre p (by simp)
      simp [takeDeliv, hp, ih fun r hr => hpre r (by simp [hr])]
  rw [readyDeliv, htake, Option.filter_some]

section
variable {s : State} {c : CoreId} {fmt : Nat} {b : Blk} {bs more : List Blk} {src : BitVec 56} {ride : Option Nat} {ds : List Deliv}

/-- Without an arrived delivery of its kind a delivery command does nothing. -/
theorem exec_delivery_none {kind : DelivKind} (h : readyDeliv s kind (core s c).deliv = none) :
    (kind = .tile → exec (.wsbDelivery c) s = .next s) ∧ (kind = .vec → exec (.feederDelivery c) s = .next s)
      ∧ (kind = .queue → exec (.vxeQueueDelivery c) s = .next s) := by
  refine ⟨?tile, ?vec, ?queue⟩
  case tile =>
    rintro rfl
    change execWsbDelivery c s = _
    simp only [execWsbDelivery, h]
  case vec =>
    rintro rfl
    change execFeederDelivery c s = _
    simp only [execFeederDelivery, h]
  case queue =>
    rintro rfl
    change execVxeQueueDelivery c s = _
    simp only [execVxeQueueDelivery, h]

/-- An arrived tile takes the staging buffer whose turn it is, if that is free. -/
theorem exec_wsbDelivery (h : readyDeliv s .tile (core s c).deliv = some (⟨.tile, fmt, bs, src, ride⟩, ds)) :
    let x := core s c
    (x.mxe.wsbs.getD x.mxe.wrWsb none = none → exec (.wsbDelivery c) s = .next (setCore c { x with
      deliv := ds
      mxe := { x.mxe with wsbs := x.mxe.wsbs.set x.mxe.wrWsb (some ⟨fmt, bs, src⟩), wrWsb := x.mxe.wrWsb + 1 } } s))
    ∧ (x.mxe.wsbs.getD x.mxe.wrWsb none ≠ none → exec (.wsbDelivery c) s = .next s) := by
  intro x
  change (lget x.mxe.wsbs x.mxe.wrWsb none = none → execWsbDelivery c s = _) ∧ (lget x.mxe.wsbs x.mxe.wrWsb none ≠ none →
    execWsbDelivery c s = _)
  unfold execWsbDelivery
  simp only [h]
  rcases hplace : lget x.mxe.wsbs x.mxe.wrWsb none with _ | w
  · exact ⟨fun _ => rfl, fun hne => absurd rfl hne⟩
  · exact ⟨fun hno => absurd hno (by simp), fun _ => rfl⟩

/-- An arrived vector block enters the feeders, which hold four. -/
theorem exec_feederDelivery (h : readyDeliv s .vec (core s c).deliv = some (⟨.vec, fmt, b :: more, src, ride⟩, ds)) :
    let x := core s c
    exec (.feederDelivery c) s = .next (if x.mxe.feed.length < 4 then
      setCore c { x with deliv := ds, mxe := { x.mxe with feed := x.mxe.feed ++ [⟨fmt, b.pay, b.side⟩] } } s else s) := by
  change execFeederDelivery c s = _
  simp only [execFeederDelivery, h]

/-- An arrived queue block enters the VXE queue while that has 2,048 bytes of room. -/
theorem exec_vxeQueueDelivery (h : readyDeliv s .queue (core s c).deliv = some (⟨.queue, fmt, b :: more, src, ride⟩, ds)) :
    let x := core s c
    exec (.vxeQueueDelivery c) s = .next (if vqHeld x + 2048 ≤ 16384 then
      setCore c { x with
        deliv := ds
        vq := x.vq ++ [⟨fmt, true, b.pay, b.side, 0⟩]
        rewinds := x.rewinds.eraseP fun r => r.kind == .queue } s else s) := by
  change execVxeQueueDelivery c s = _
  simp only [execVxeQueueDelivery, h]
  rfl

end

/-- Settles O15: a delivery enters its place where that is free, in the order of its kind. -/
theorem deliveriesArriveInOrderWhereThereIsRoom : Obligations.DeliveriesArriveInOrderWhereThereIsRoom := by
  intro s c pre post kind fmt bs src ride x hdeliv hpre
  have hfirst := readyDeliv_first (s := s) (post := post) (q := ⟨kind, fmt, bs, src, ride⟩) hpre
  rw [← hdeliv] at hfirst
  refine ⟨fun hride => ?late, fun hride => ?here⟩
  case late => exact exec_delivery_none (hfirst.trans (if_neg (by simp [hride])))
  case here =>
    have hready := hfirst.trans (if_pos hride)
    refine ⟨?_, ?_, ?_, ?_⟩
    · rintro rfl
      exact (exec_wsbDelivery hready).1
    · rintro rfl
      exact (exec_wsbDelivery hready).2
    · rintro b more rfl rfl
      have hexec := exec_feederDelivery hready
      exact ⟨fun hroom => hexec.trans (by rw [if_pos hroom]), fun hfull => hexec.trans (by rw [if_neg (Nat.not_lt.mpr hfull)])⟩
    · rintro b more rfl rfl
      have hexec := exec_vxeQueueDelivery hready
      exact ⟨fun hroom => hexec.trans (by rw [if_pos hroom]), fun hfull => hexec.trans (by rw [if_neg (Nat.not_le.mpr hfull)])⟩

end Sys2Proof.Machine
end

section
/-! #### An accumulate block's arrival at a mill (spec/07 R254, R255) -/

namespace Sys2Proof.Machine

/-- The first entry that satisfies a test, and the list without it. -/
theorem findIdx_first {α : Type} {p : α → Bool} {pre post : List α} {a : α} (hpre : ∀ q ∈ pre, p q = false) (ha : p a = true) :
    (pre ++ a :: post).findIdx p = pre.length := by
  rw [List.findIdx_append, if_neg (by simpa [List.findIdx_lt_length] using hpre), List.findIdx_cons, ha]
  simp

theorem getElem?_mid {α : Type} (pre post : List α) (a : α) : (pre ++ a :: post)[pre.length]? = some a := by simp

theorem ldrop_mid {α : Type} (pre post : List α) (a : α) : ldrop (pre ++ a :: post) pre.length = pre ++ post := by
  simp [ldrop, List.eraseIdx_append_of_length_le]

theorem intake_accFloor (st f : Nat) (x : AccCtx) : (accFloor st f x).intake = x.intake := by
  unfold accFloor
  split_ifs <;> rfl

theorem admittedOf_eq (s : State) (d : Die) (x : CtxId) : admittedOf s d x = (die s d).admitted.filter fun q => q.ctx == x := by
  simp only [admittedOf]
  congr 1
  funext m
  simp [Fin.ext_iff, BEq.beq]

/-- The head that a stream has refused. -/
def refusedHead (x : AccCtx) (st : Nat) : Option Nat := (x.refused.find? fun e => e.1 == st).map (·.2)

theorem refusedHead_any (x : AccCtx) (st : Nat) : x.refused.any (·.1 == st) = (refusedHead x st).isSome := by
  rw [refusedHead, Option.isSome_map, List.isSome_find?]

/-- The floor rule as a proposition. -/
theorem belowFloor_iff (x : AccCtx) (st q : Nat) : belowFloor x st q = true ↔
    ∃ g, (st, g) ∈ x.floors ∧ x.floors.find? (fun e => e.1 == st) = some (st, g) ∧ serialBelow q g = true := by
  rcases h : x.floors.find? (fun e => e.1 == st) with _ | ⟨st', g⟩
  · simp [belowFloor, h]
  · have hst : st' = st := by simpa using List.find?_some h
    subst hst
    have hmem := List.mem_of_find?_eq_some h
    simp only [belowFloor, h, Option.some.injEq, Prod.mk.injEq, true_and]
    exact ⟨fun hb => ⟨g, hmem, rfl, hb⟩, fun ⟨g', _, he, hb⟩ => by rwa [he]⟩

section
variable {x : AccCtx} {adm : List AccMsg} {st q : Nat}

/-- (R254) A copy of an admitted block waits. -/
theorem accDecide_copy (h : ∃ m ∈ adm, m.strm = st ∧ m.seq = q) : accDecide x adm st q = .wait := by
  unfold accDecide
  rw [if_pos]
  simpa using h

theorem accDecide_fresh (h : ∀ m ∈ adm, ¬(m.strm = st ∧ m.seq = q)) :
    accDecide x adm st q = if belowFloor x st q || x.window.contains (st, q) then .drop else
      match refusedHead x st with
      | some r => if r = q then (if 4096 ≤ x.window.length + adm.length then .refuse else .admitBlock) else .refuse
      | none => if 4096 ≤ x.window.length + adm.length then .refuse else .admitBlock := by
  unfold accDecide
  rw [if_neg (by simpa using h)]
  rcases h : x.refused.find? (fun e => e.1 == st) with _ | ⟨_, r⟩
  · simp only [refusedHead, h, Option.map_none]
    rfl
  · simp only [refusedHead, h, Option.map_some]
    rfl

end

/-! #### The arrival itself -/

section
variable {s : State} {d : Die} {x : CtxId} {pre post : List AccMsg} {m : AccMsg}

/-- ACCUM_ARRIVE takes the first arrived block of the intake and does as the floor and the window decide. -/
theorem exec_accumArrive (hin : (accCtx s d x).intake = pre ++ m :: post) (hpre : ∀ q ∈ pre, rideArrived s q.ride = false)
    (hm : rideArrived s m.ride = true) :
    let y := accFloor m.strm m.floor (accCtx s d x)
    let rest : AccCtx := { y with intake := pre ++ post }
    exec (.accumArrive d x) s = .next (match accDecide y (admittedOf s d x) m.strm m.seq with
      | .wait => s
      | .drop => accAnswer d m 1 (modAcc d x (fun _ => rest) s)
      | .refuse => accAnswer d m 2 (modAcc d x (fun _ =>
          if rest.refused.any (·.1 == m.strm) then rest else { rest with refused := tset rest.refused m.strm m.seq }) s)
      | .admitBlock => modDie d (fun e => { e with admitted := e.admitted ++ [m] })
          (modAcc d x (fun _ => { rest with refused := rest.refused.filter fun e => e.1 != m.strm }) (accAsk d m s))) := by
  have hidx : (accCtx s d x).intake.findIdx (fun q => rideArrived s q.ride) = pre.length := by
    rw [hin]
    exact findIdx_first hpre hm
  have hget : (accCtx s d x).intake[pre.length]? = some m := by rw [hin, getElem?_mid]
  have hdrop : ldrop (accFloor m.strm m.floor (accCtx s d x)).intake pre.length = pre ++ post := by
    rw [intake_accFloor, hin, ldrop_mid]
  change execAccumArrive d x s = _
  simp only [execAccumArrive, hidx, hget, hdrop] <;> rfl

/-- No arrival writes memory. -/
theorem mem_accumArrive {t : State} (h : exec (.accumArrive d x) s = .next t) : t.mem = s.mem := by
  have answer (m : AccMsg) (status : Nat) (f : AccCtx → AccCtx) : (accAnswer d m status (modAcc d x f s)).mem = s.mem :=
    accAnswer_view (v := State.mem) (fun _ _ _ _ _ _ => rfl) d m status _
  change execAccumArrive d x s = _ at h
  simp only [execAccumArrive, Host.Outcome.next.injEq] at h
  subst h
  split
  · rfl
  · next m _ =>
    split
    · rfl
    · exact answer ..
    · exact answer ..
    · rw [modDie_mem, modAcc_mem, accAsk]
      split
      · rw [coreAsk, stkAsk_frame]
      · rw [farAsk, stkAsk_frame]

/-- FLOOR_NOTICE applies the first arrived notice. -/
theorem exec_floorNotice {pre post : List FloorMsg} {f : FloorMsg} (hin : (die s d).floorsIn = pre ++ f :: post)
    (hpre : ∀ q ∈ pre, rideArrived s q.ride = false) (hf : rideArrived s f.ride = true) :
    exec (.floorNotice d) s = .next (modAcc d f.ctx (accFloor f.strm f.floor)
      (modDie d (fun e => { e with floorsIn := pre ++ post }) s)) := by
  have hidx : (die s d).floorsIn.findIdx (fun q => rideArrived s q.ride) = pre.length := by
    rw [hin]
    exact findIdx_first hpre hf
  have hget : (die s d).floorsIn[pre.length]? = some f := by rw [hin, getElem?_mid]
  have hmod : modDie d (fun e => { e with floorsIn := ldrop e.floorsIn pre.length }) s
      = modDie d (fun e => { e with floorsIn := pre ++ post }) s := by
    simp only [modDie, hin, ldrop_mid]
  change execFloorNotice d s = _
  simp only [execFloorNotice, hidx, hget, hmod]

end

/-- Settles O27: the floor, then the window, then the room for window entries judge an arriving block. -/
theorem accumulateArrivalIsJudgedByFloorAndWindow : Obligations.AccumulateArrivalIsJudgedByFloorAndWindow := by
  refine ⟨?_, fun s t d x h => mem_accumArrive h, fun s d pre post f hin hpre hf => exec_floorNotice hin hpre hf⟩
  intro s d x pre post m hin hpre hm y rest adm below head
  have hexec := exec_accumArrive hin hpre hm
  have hadm : admittedOf s d x = adm := admittedOf_eq s d x
  have hbelow : belowFloor y m.strm m.seq = true ↔ below := by
    rw [belowFloor_iff]
  rw [hadm] at hexec
  refine ⟨fun hcopy => ?_, fun hfresh => ?_⟩
  · rw [hexec, accDecide_copy hcopy]
  · have hdecide := accDecide_fresh (x := y) hfresh
    have hpass (hb : ¬below) (hw : (m.strm, m.seq) ∉ y.window) : ¬(belowFloor y m.strm m.seq || y.window.contains (m.strm, m.seq)) := by
      rw [Bool.or_eq_true, hbelow, List.contains_iff_mem]
      exact fun h => h.elim hb hw
    have hany : rest.refused.any (·.1 == m.strm) = head.isSome := refusedHead_any y m.strm
    refine ⟨fun hseen => ?drop, fun hb hw hroom hhead => ?taken, fun hb hw hhead hfull => ?refuseNew,
      fun r hb hw hhead hno => ?refuseOld⟩
    case drop =>
      rw [if_pos (by rwa [Bool.or_eq_true, hbelow, List.contains_iff_mem])] at hdecide
      rw [hexec, hdecide]
    case taken =>
      rw [if_neg (hpass hb hw)] at hdecide
      have htaken : accDecide y adm m.strm m.seq = .admitBlock := by
        rw [hdecide]
        rcases hhead with h | h
        · simp only [show refusedHead y m.strm = none from h, if_neg (Nat.not_le.mpr hroom)]
        · simp only [show refusedHead y m.strm = some m.seq from h, if_true, if_neg (Nat.not_le.mpr hroom)]
      rw [hexec, htaken]
    case refuseNew =>
      rw [if_neg (hpass hb hw)] at hdecide
      have hrefuse : accDecide y adm m.strm m.seq = .refuse := by
        rw [hdecide]
        simp only [show refusedHead y m.strm = none from hhead, if_pos hfull]
      have hnew : ¬rest.refused.any (·.1 == m.strm) = true := by rw [hany, hhead]; simp
      rw [hexec, hrefuse]
      exact congrArg (fun z => Host.Outcome.next (accAnswer d m 2 (modAcc d x (fun _ => z) s))) (if_neg hnew)
    case refuseOld =>
      rw [if_neg (hpass hb hw)] at hdecide
      have hrefuse : accDecide y adm m.strm m.seq = .refuse := by
        rw [hdecide]
        simp only [show refusedHead y m.strm = some r from hhead]
        rcases hno with h | h
        · rw [if_neg h]
        · rw [if_pos h, ite_self]
      have hold : rest.refused.any (·.1 == m.strm) = true := by rw [hany, hhead]; rfl
      rw [hexec, hrefuse]
      exact congrArg (fun z => Host.Outcome.next (accAnswer d m 2 (modAcc d x (fun _ => z) s))) (if_pos hold)

end Sys2Proof.Machine
end

section
/-! SUPPORT. What a whole setup write does to each field of its register (spec/17 Table 17.1, R529, R535). -/

namespace Sys2Proof.Machine

/-- A field after a whole write of a register: what Table 17.1 says of its access type. -/
def Fld.after (f : Fld) (v old : Nat) : Nat :=
  match f.acc with
  | .ro => old
  | .rcl => old
  | .w1c => Nat.land old (2 ^ f.w - 1 - bits v f.lo f.w)
  | .w1s => Nat.lor old (bits v f.lo f.w)
  | _ => bits v f.lo f.w

theorem bits_mod (v lo w : Nat) : bits v lo w % 2 ^ w = bits v lo w := Nat.mod_eq_of_lt (bits_lt ..)

section
variable {f g : Fld} {v old : Nat}

theorem Fld.after_lt {x : Nat} (hx : x < 2 ^ f.w) : f.after v x < 2 ^ f.w := by
  have hnew := bits_lt v f.lo f.w
  unfold Fld.after
  split
  · exact hx
  · exact hx
  · exact Nat.lt_of_le_of_lt Nat.and_le_left hx
  · exact Nat.or_lt_two_pow hx hnew
  · exact hnew

/-- A whole write sets a field to what its access type says. -/
theorem bits_fieldPut_same (hf : f.fits) (hw : 0 < f.w) :
    bits (fieldPut .full v old f) f.lo f.w = f.after v (bits old f.lo f.w) := by
  have hhi : min (f.lo + f.w) 64 = f.lo + f.w := Nat.min_eq_left hf
  have hne : ¬f.lo + f.w ≤ f.lo := by omega
  have hlt := Fld.after_lt (v := v) (bits_lt old f.lo f.w)
  simp only [fieldPut, Part.range, Nat.max_zero, hhi, if_neg hne, Nat.add_sub_cancel_left, notBits, bits_mod]
  unfold Fld.after at hlt ⊢
  split <;> simp_all [Nat.mod_eq_of_lt]

/-- A write of one field leaves a field that does not meet it. -/
theorem bits_fieldPut_apart (p : Part) (h : g.apart f) : bits (fieldPut p v old f) g.lo g.w = bits old g.lo g.w := by
  have hlo : f.lo ≤ max f.lo (Part.range p).1 := Nat.le_max_left ..
  have hhi : min (f.lo + f.w) (Part.range p).2 ≤ f.lo + f.w := Nat.min_le_left ..
  unfold fieldPut
  simp only
  split
  · rfl
  · next hne =>
    have hput (x : Nat) : bits (putBits old (max f.lo (Part.range p).1)
        (min (f.lo + f.w) (Part.range p).2 - max f.lo (Part.range p).1) x) g.lo g.w = bits old g.lo g.w := by
      apply bits_putBits_other
      unfold Fld.apart at h
      omega
    split
    · rfl
    · rfl
    · exact hput _
    · exact hput _
    · exact hput _

theorem bits_foldl_apart {p : Part} {fs : List Fld} (h : ∀ f ∈ fs, g.apart f) (old : Nat) :
    bits (fs.foldl (fun o f => fieldPut p v o f) old) g.lo g.w = bits old g.lo g.w := by
  induction fs generalizing old with
  | nil => rfl
  | cons f fs ih =>
    rw [List.foldl_cons, ih (fun q hq => h q (by simp [hq])), bits_fieldPut_apart p (h f (by simp))]

/-- Writing the fields of a register one after another sets each as its access type says. -/
theorem bits_foldl_fieldPut {fs : List Fld} (hmem : f ∈ fs) (hf : f.fits) (hw : 0 < f.w)
    (hapart : fs.Pairwise fun a b => a.apart b) (old : Nat) :
    bits (fs.foldl (fun o f => fieldPut .full v o f) old) f.lo f.w = f.after v (bits old f.lo f.w) := by
  induction fs generalizing old with
  | nil => simp at hmem
  | cons a fs ih =>
    rw [List.pairwise_cons] at hapart
    rw [List.foldl_cons]
    rcases List.mem_cons.mp hmem with rfl | hin
    · rw [bits_foldl_apart (fun q hq => hapart.1 q hq), bits_fieldPut_same hf hw]
    · have hfa : f.apart a := (hapart.1 f hin).symm
      rw [ih hin hapart.2, bits_fieldPut_apart .full hfa]

end

/-- The fields of a register lie in it and do not meet (spec/17 Table 17.2). -/
theorem RegKind.fields_ok (k : RegKind) :
    (∀ f ∈ k.fields, f.reg = k ∧ f.lo + f.w ≤ 64 ∧ 0 < f.w)
      ∧ k.fields.Pairwise fun a b => a.lo + a.w ≤ b.lo ∨ b.lo + b.w ≤ a.lo := by
  cases k <;> decide

/-- A register after a whole write, field by field. -/
theorem bits_regPutVal {k : RegKind} {f : Fld} (hf : f ∈ k.fields) {w : RegWr} (hfull : w.part = .full) (old : Nat) :
    bits (regPutVal k w old) f.lo f.w = f.after w.val.toNat (bits old f.lo f.w) := by
  obtain ⟨hall, hapart⟩ := k.fields_ok
  obtain ⟨-, hfits, hpos⟩ := hall f hf
  rw [regPutVal, hfull]
  exact bits_foldl_fieldPut hf hfits hpos hapart old

section
variable {s : State} {k : RegKind} {i : Nat} {w : RegWr} {f : Fld}

/-- A whole write by SCH, or of a register that no job owns, is applied. -/
theorem regPut_full (hfull : w.part = .full) (how : w.path = .sch ∨ jobOwned s k i = false) :
    regPut k i w s = (regWrite k i (regPutVal k w (regRead s k i)) s, true) := by
  refine regPut_ok (badWidth_full hfull) ?_
  rcases how with h | h <;> simp [refusedByOwner, h]

theorem bits_mod_two_pow {n : Nat} {f : Fld} (hf : f.lo + f.w ≤ n) (v : Nat) : bits (v % 2 ^ n) f.lo f.w = bits v f.lo f.w := by
  apply Nat.eq_of_testBit_eq
  intro i
  rw [testBit_bits, testBit_bits, Nat.testBit_mod_two_pow]
  by_cases hi : i < f.w
  · have : f.lo + i < n := by omega
    simp [this]
  · simp [hi]

/-- What an applied whole write leaves in each field. -/
theorem rd_regPut_full (hfull : w.part = .full) (how : w.path = .sch ∨ jobOwned s k i = false) (hf : f ∈ k.fields) :
    rd (regPut k i w s).1 f i = f.after w.val.toNat (rd s f i) := by
  obtain ⟨rfl, hfits, -⟩ := k.fields_ok.1 f hf
  rw [regPut_full hfull how, rd, regRead_regWrite_same, bits_mod_two_pow hfits, bits_regPutVal hf hfull]
  rfl

theorem rd_bit_lt {f : Fld} (h1 : f.w = 1) (s : State) (i : Nat) : rd s f i = 0 ∨ rd s f i = 1 := by
  have h := rd_lt s f i
  rw [h1] at h
  omega

/-- A command bit that a whole write sets reads 1 (Table 17.1). -/
theorem rdb_regPut_w1s (hfull : w.part = .full) (how : w.path = .sch ∨ jobOwned s k i = false) (hf : f ∈ k.fields)
    (hacc : f.acc = .w1s) (h1 : f.w = 1) (hset : w.val.toNat.testBit f.lo = true) : rdb (regPut k i w s).1 f i = true := by
  have hbit : bits w.val.toNat f.lo f.w = 1 := by
    rw [h1, bits]
    simpa [Nat.testBit, Nat.shiftRight_eq_div_pow, Nat.and_comm 1] using hset
  rw [rdb, rd_regPut_full hfull how hf]
  simp only [Fld.after, hacc, hbit]
  rcases rd_bit_lt h1 s i with h | h <;> rw [h] <;> rfl

/-- A command bit that was 0 starts its command when a whole write sets it. -/
theorem started_regPut (hfull : w.part = .full) (how : w.path = .sch ∨ jobOwned s k i = false) (hf : f ∈ k.fields)
    (hacc : f.acc = .w1s) (h1 : f.w = 1) (hset : w.val.toNat.testBit f.lo = true) :
    started f i s (regPut k i w s).1 = !rdb s f i := by
  rw [started, rdb_regPut_w1s hfull how hf hacc h1 hset, Bool.and_true]

/-- No other register changes. -/
theorem regRead_regPut_other {n : RegKind} {j : Nat} (hfull : w.part = .full) (how : w.path = .sch ∨ jobOwned s k i = false)
    (h : n.off j ≠ k.off i) : regRead (regPut k i w s).1 n j = regRead s n j := by
  rw [regPut_full hfull how]
  exact regRead_regWrite_other s _ h

theorem rd_regPut_other {j : Nat} (hfull : w.part = .full) (how : w.path = .sch ∨ jobOwned s k i = false)
    (h : f.reg.off j ≠ k.off i) : rd (regPut k i w s).1 f j = rd s f j := by
  rw [rd, rd, regRead_regPut_other hfull how h]

end

/-! #### Steps that touch registers only -/

/-- Only the registers differ. -/
def RegsOnly (s t : State) : Prop := ∃ r, t = { s with regs := r }

theorem RegsOnly.refl (s : State) : RegsOnly s s := ⟨s.regs, rfl⟩

theorem RegsOnly.trans {s t u : State} (h1 : RegsOnly s t) (h2 : RegsOnly t u) : RegsOnly s u := by
  obtain ⟨r1, rfl⟩ := h1
  obtain ⟨r2, rfl⟩ := h2
  exact ⟨r2, rfl⟩

theorem RegsOnly.wr (f : Fld) (i v : Nat) {s t : State} (h : RegsOnly s t) : RegsOnly s (wr f i v t) := h.trans ⟨_, rfl⟩

theorem RegsOnly.bump (f : Fld) (i n : Nat) {s t : State} (h : RegsOnly s t) : RegsOnly s (bump f i n t) := h.trans ⟨_, rfl⟩

theorem RegsOnly.regPut (k : RegKind) (i : Nat) (w : RegWr) {s t : State} (h : RegsOnly s t) : RegsOnly s (regPut k i w t).1 :=
  h.trans ⟨_, regPut_frame k i w t⟩

theorem RegsOnly.frame {s t : State} (h : RegsOnly s t) : t = { s with regs := t.regs } := by
  obtain ⟨r, rfl⟩ := h
  rfl

section
variable (s : State) (f g : Fld) (i v : Nat)

/-- A field just written, and a field beside it in the same register. -/
theorem rd_wr_field (hf : f.lo + f.w ≤ 64 := by decide) : rd (wr f i v s) f i = v % 2 ^ f.w := rd_wr_same s hf i v

theorem rd_wr_beside (hr : g.reg = f.reg := by rfl) (hf : f.lo + f.w ≤ 64 := by decide)
    (hapart : g.lo + g.w ≤ f.lo ∨ f.lo + f.w ≤ g.lo := by decide) : rd (wr f i v s) g i = rd s g i :=
  rd_wr_apart s hf hr hapart i v

theorem rdb_wr_beside (hr : g.reg = f.reg := by rfl) (hf : f.lo + f.w ≤ 64 := by decide)
    (hapart : g.lo + g.w ≤ f.lo ∨ f.lo + f.w ≤ g.lo := by decide) : rdb (wr f i v s) g i = rdb s g i := by
  rw [rdb, rd_wr_beside s f g i v hr hf hapart, rdb]

theorem rd_bump_field (hf : f.lo + f.w ≤ 64 := by decide) : rd (bump f i v s) f i = min (rd s f i + v) (2 ^ f.w - 1) :=
  rd_bump_same s hf i v

theorem rd_bump_beside (hr : g.reg = f.reg := by rfl) (hf : f.lo + f.w ≤ 64 := by decide)
    (hapart : g.lo + g.w ≤ f.lo ∨ f.lo + f.w ≤ g.lo := by decide) : rd (bump f i v s) g i = rd s g i :=
  rd_wr_beside s f g i _ hr hf hapart

theorem rd_bump_other {j : Nat} (h : g.reg.off j ≠ f.reg.off i) : rd (bump f i v s) g j = rd s g j := rd_wr_other s _ h

end

end Sys2Proof.Machine
end

section
/-! #### The slot table and the statistics sets of a die (spec/08 R283, R302) -/

namespace Sys2Proof.Machine

theorem die_modDie_other {d e : Nat} (f : DieSt → DieSt) (s : State) (h : e ≠ d) : die (modDie d f s) e = die s e := by
  simp [die, modDie, tget_tset_other _ _ _ _ _ h]

theorem rd_modDie (d : Nat) (f : DieSt → DieSt) (s : State) (g : Fld) (i : Nat) : rd (modDie d f s) g i = rd s g i := rd_congr rfl rfl g i

theorem die_regPut (k : RegKind) (i : Nat) (w : RegWr) (s : State) (d : Nat) : die (regPut k i w s).1 d = die s d := by
  rw [regPut_frame]
  rfl

/-- ARB_SWAP by SCH. -/
theorem exec_arbSwap {d : Die} {w : RegWr} {s : State} (hsch : w.path = .sch) (hfull : w.part = .full)
    (hbit : w.val.toNat.testBit 0 = true) :
    exec (.arbSwap d w) s = .next (if rdb s fSwap d then (regPut .arbCtl d w s).1
      else modDie d (fun x => { x with swapAt := x.clock }) (regPut .arbCtl d w s).1) := by
  have hstart := started_regPut (s := s) (i := d) hfull (.inl hsch) (f := fSwap) (k := .arbCtl) (by decide) rfl rfl hbit
  change Host.Outcome.next (arbCtlPut d w s) = _
  simp only [arbCtlPut, hstart]
  cases rdb s fSwap d <;> rfl

/-- SLOT_TABLE_LIVE where no swap is due. -/
theorem swapTable_idle {d : Die} {s : State} (h : rdb s fSwap d = false ∨ (die s d).clock % 64 ≠ 0 ∨ (die s d).clock ≤ (die s d).swapAt) :
    swapTable d s = s := by
  unfold swapTable
  exact if_pos (by simpa using h)

/-- SLOT_TABLE_LIVE at the frame boundary of a swap. -/
theorem swapTable_due {d : Die} {s : State} (hswap : rdb s fSwap d = true) (hend : (die s d).clock % 64 = 0)
    (hlate : (die s d).swapAt < (die s d).clock) :
    swapTable d s = if (∀ e ∈ shadowTable s d, e ≤ 4) ∧ (shadowTable s d).count 0 ≤ 16
      then modDie d (fun x => { x with table := shadowTable s d }) (wr fSwap d 0 s) else wr fTblRefused d 1 (wr fSwap d 0 s) := by
  have hdue : ¬((!rdb s fSwap d) = true ∨ (die s d).clock % 64 ≠ 0 ∨ (die s d).clock ≤ (die s d).swapAt) := by
    simp [hswap, hend, hlate]
  unfold swapTable
  simp only [if_neg hdue, List.all_eq_true, decide_eq_true_eq, List.count_eq_length_filter]

theorem snapSet_eq {s : State} {d n : Nat} {x : StatSet} (hx : (die s d).stats[n]? = some x) :
    snapSet d n s = modDie d (fun e => { e with stats := lset e.stats n ⟨0, 0, 0⟩ }) (wr fSnap (4 * d + n) 0
      (wr fIncSq (4 * d + n) (sqToF32 x.inc) (wr fFinSq (4 * d + n) (sqToF32 x.fin) (wr fNonfin (4 * d + n) x.nonfin s)))) := by
  have hlive : lget (die s d).stats n ⟨0, 0, 0⟩ = x := by simp [lget, hx]
  simp only [snapSet, hlive]

/-! #### Where the registers lie (spec/17 Table 17.3) -/

theorem RegKind.off_ssVal (i : Nat) : RegKind.ssVal.off i = 0x10050 + 0x200 * (i / 4) + 8 * (i % 4) := rfl

theorem RegKind.off_ssNf (i : Nat) : RegKind.ssNf.off i = 0x10070 + 0x200 * (i / 4) + 8 * (i % 4) := rfl

theorem RegKind.off_ssCtl (i : Nat) : RegKind.ssCtl.off i = 0x10010 + 0x200 * (i / 4) + 8 * (i % 4) := rfl

theorem RegKind.off_arbCtl (i : Nat) : RegKind.arbCtl.off i = 0x10120 + 0x200 * i := rfl

theorem RegKind.off_tpStat (i : Nat) : RegKind.tpStat.off i = 0x06108 + 0x20 * i := rfl

theorem RegKind.off_tpCtl (i : Nat) : RegKind.tpCtl.off i = 0x06100 + 0x20 * i := rfl

theorem RegKind.off_tpCnt (i : Nat) : RegKind.tpCnt.off i = 0x06110 + 0x20 * i := rfl

theorem RegKind.off_torId (i : Nat) : RegKind.torId.off i = 0x06000 := rfl

theorem RegKind.off_grvPstat (i : Nat) : RegKind.grvPstat.off i = 0x04108 + 0x10 * i := rfl

theorem RegKind.off_grvPctl (i : Nat) : RegKind.grvPctl.off i = 0x04100 + 0x10 * i := rfl

theorem RegKind.off_svCtl (i : Nat) : RegKind.svCtl.off i = 0x03000 := rfl

theorem RegKind.off_pwStat (i : Nat) : RegKind.pwStat.off i = 0x04008 := rfl

theorem RegKind.off_pwCtl (i : Nat) : RegKind.pwCtl.off i = 0x04000 := rfl

theorem RegKind.off_ctxGen (i : Nat) : RegKind.ctxGen.off i = 0x08070 + 0x100 * i := rfl

theorem RegKind.off_acntA (i : Nat) : RegKind.acntA.off i = 0x08050 + 0x100 * i := rfl

theorem RegKind.off_acntB (i : Nat) : RegKind.acntB.off i = 0x08058 + 0x100 * i := rfl

theorem RegKind.off_logPtr (i : Nat) : RegKind.logPtr.off i = 0x01400 := rfl

theorem RegKind.off_intCntA (i : Nat) : RegKind.intCntA.off i = 0x02000 := rfl

theorem RegKind.off_syncStat (i : Nat) : RegKind.syncStat.off i = 0x08000 + 0x100 * i := rfl

theorem RegKind.off_satAddr (i : Nat) : RegKind.satAddr.off i = 0x08008 + 0x100 * i := rfl

theorem RegKind.off_faultQ (i : Nat) : RegKind.faultQ.off i = 0x08038 + 0x100 * i := rfl

theorem RegKind.off_coll (i : Nat) : RegKind.coll.off i = 0x06008 := rfl

theorem RegKind.off_plStat (i : Nat) : RegKind.plStat.off i = 0x06010 := rfl

/-- The registers of a statistics set lie at offsets of their own. -/
theorem off_stats (i : Nat) : RegKind.ssVal.off i ≠ RegKind.ssCtl.off i ∧ RegKind.ssNf.off i ≠ RegKind.ssCtl.off i
    ∧ RegKind.ssNf.off i ≠ RegKind.ssVal.off i := by
  simp only [RegKind.off_ssVal, RegKind.off_ssNf, RegKind.off_ssCtl]
  omega

/-- What a snapshot's registers read. -/
theorem rd_snapSet {s : State} {d n : Nat} {x : StatSet} (hx : (die s d).stats[n]? = some x) :
    rd (snapSet d n s) fIncSq (4 * d + n) = sqToF32 x.inc % 2 ^ 32 ∧ rd (snapSet d n s) fFinSq (4 * d + n) = sqToF32 x.fin % 2 ^ 32
      ∧ rd (snapSet d n s) fNonfin (4 * d + n) = x.nonfin % 2 ^ 32 ∧ rd (snapSet d n s) fSnap (4 * d + n) = 0 := by
  obtain ⟨hval, hnf, hval'⟩ := off_stats (4 * d + n)
  rw [snapSet_eq hx]
  simp only [rd_modDie]
  refine ⟨?_, ?_, ?_, ?_⟩
  · exact (rd_wr_other _ _ hval).trans (rd_wr_field ..)
  · exact (rd_wr_other _ _ hval).trans ((rd_wr_beside ..).trans (rd_wr_field ..))
  · exact (rd_wr_other _ _ hnf).trans ((rd_wr_other _ _ hval').trans ((rd_wr_other _ _ hval').trans (rd_wr_field ..)))
  · exact rd_wr_field ..

/-- A snapshot zeroes the set and touches the die's sets and the registers only. -/
theorem dies_snapSet {s : State} {d n : Nat} {x : StatSet} (hx : (die s d).stats[n]? = some x) :
    die (snapSet d n s) d = { die s d with stats := (die s d).stats.set n ⟨0, 0, 0⟩ }
      ∧ (∀ e : Nat, e ≠ d → die (snapSet d n s) e = die s e)
      ∧ snapSet d n s = { s with dies := (snapSet d n s).dies, regs := (snapSet d n s).regs } := by
  rw [snapSet_eq hx]
  obtain ⟨r, hr⟩ := ((((RegsOnly.refl s).wr fNonfin (4 * d + n) x.nonfin).wr fFinSq (4 * d + n) (sqToF32 x.fin)).wr fIncSq (4 * d + n)
    (sqToF32 x.inc)).wr fSnap (4 * d + n) 0
  rw [hr]
  exact ⟨die_modDie_same .., fun e he => die_modDie_other _ _ he, rfl⟩

/-- SS_SNAP by SCH of a set whose snapshot is not under way. -/
theorem exec_ssSnap {d : Die} {n : Fin 4} {w : RegWr} {s : State} (hsch : w.path = .sch) (hfull : w.part = .full)
    (hbit : w.val.toNat.testBit 5 = true) (hsnap : rdb s fSnap (4 * d.val + n.val) = false) :
    exec (.ssSnap d n w) s = .next (snapSet d n (regPut .ssCtl (4 * d.val + n.val) w s).1) := by
  have hstart := started_regPut (s := s) (i := 4 * d.val + n.val) hfull (.inl hsch) (f := fSnap) (k := .ssCtl) (by decide) rfl rfl hbit
  have hd : (4 * d.val + n.val) / 4 = d.val ∧ (4 * d.val + n.val) % 4 = n.val := by omega
  change Host.Outcome.next (ssCtlPut (4 * d.val + n.val) w s) = _
  simp only [ssCtlPut, hstart, hsnap, hd, Bool.not_false, if_true]

/-- Settles O33: a swap is armed, then made at a frame's end; a snapshot copies a set and zeroes it. -/
theorem slotTableAndStatisticsSnapshots : Obligations.SlotTableAndStatisticsSnapshots := by
  refine ⟨?arm, ?live, ?snap⟩
  case arm =>
    intro s d w hsch hfull hbit
    refine ⟨_, exec_arbSwap hsch hfull hbit, ?_, fun e he hlt => ?_, ?_, fun e he => ?_, ?_⟩
    · have hset := rdb_regPut_w1s (s := s) (i := d) hfull (.inl hsch) (f := fSwap) (k := .arbCtl) (by decide) rfl rfl hbit
      split_ifs
      · exact hset
      · exact hset
    · have hoff : RegKind.arbCtl.off e ≠ RegKind.arbCtl.off d := by
        simp only [RegKind.off_arbCtl]
        omega
      have hread := regRead_regPut_other (s := s) hfull (.inl hsch) hoff
      split_ifs
      · exact hread
      · exact hread
    · split_ifs
      · exact die_regPut ..
      · rw [die_modDie_same, die_regPut]
    · split_ifs
      · exact die_regPut ..
      · rw [die_modDie_other _ _ he, die_regPut]
    · split_ifs
      · rw [regPut_frame]
      · rw [regPut_frame]
        rfl
  case live =>
    intro s d
    refine ⟨fun hidle => congrArg Host.Outcome.next (swapTable_idle hidle), fun hswap hend hlate => ?_⟩
    refine ⟨_, congrArg Host.Outcome.next (swapTable_due hswap hend hlate), ?_, ?_, ?_⟩
    · have hzero : rdb (wr fSwap d 0 s) fSwap d = false := congrArg (· == 1) (rd_wr_field ..)
      split_ifs
      · exact hzero
      · exact (rdb_wr_beside ..).trans hzero
    · split_ifs <;> rfl
    · intro tbl
      by_cases hlegal : (∀ e ∈ tbl, e ≤ 4) ∧ tbl.count 0 ≤ 16
      · rw [if_pos hlegal, if_pos hlegal]
        exact ⟨die_modDie_same .., (rd_modDie ..).trans (rd_wr_beside ..)⟩
      · rw [if_neg hlegal, if_neg hlegal]
        exact ⟨rfl, rd_wr_field ..⟩
  case snap =>
    intro s d n w x i hsch hfull hbit hsnap hx
    have hdie := die_regPut .ssCtl i w s
    have hx' : (die (regPut .ssCtl i w s).1 d).stats[n.val]? = some x := by rw [hdie]; exact hx
    obtain ⟨hinc, hfin, hnon, hzero⟩ := rd_snapSet hx'
    obtain ⟨hset, hother, hframe⟩ := dies_snapSet hx'
    refine ⟨_, exec_ssSnap hsch hfull hbit hsnap, hinc, hfin, hnon, hzero, fun m => ?_, ?_, fun e he => ?_, ?_⟩
    · have hlt : n.val < (die s d).stats.length := (List.getElem?_eq_some_iff.mp hx).1
      rw [hset, hdie, List.getElem?_set]
      by_cases hm : m = n.val
      · simp [hm, hlt]
      · simp [hm, Ne.symm hm]
    · rw [hset, hdie]
    · rw [hother e he, hdie]
    · rw [hframe, regPut_frame]

end Sys2Proof.Machine
end

section
/-! SUPPORT. The registers that a context fault, and the loss of a peer, leave alone (spec/07 R247, R248; spec/11 R383, R386). -/

namespace Sys2Proof.Machine

/-- A register that no fault record and no log entry touches. -/
def FaultQuiet (k : RegKind) (i : Nat) : Prop := k.off i ≠ RegKind.logPtr.off 0 ∧ ∀ n : CtxId, k.off i ≠ RegKind.faultQ.off n

/-- Further, one that the loss of a peer leaves alone. -/
def PeerQuiet (k : RegKind) (i : Nat) : Prop :=
  FaultQuiet k i ∧ k.off i ≠ RegKind.coll.off 0 ∧ k.off i ≠ RegKind.plStat.off 0

section
variable {k : RegKind} {i : Nat}

theorem regRead_bump_other {f : Fld} {j : Nat} (h : k.off i ≠ f.reg.off j) (n : Nat) (s : State) :
    regRead (bump f j n s) k i = regRead s k i := regRead_wr_other s _ h

theorem regRead_writeFaultRecord (h : FaultQuiet k i) (n : CtxId) (r : Bytes) (s : State) :
    regRead (writeFaultRecord n r s) k i = regRead s k i := by
  obtain ⟨hlog, hq⟩ := h
  unfold writeFaultRecord
  simp only
  rw [regRead_logWrite _ _ _ _ hlog]
  split
  · exact regRead_bump_other (hq n) 1 s
  · refine (regRead_wr_other _ _ (hq n)).trans ?_
    split
    · rw [stkPatch_frame, unitAsk, stkAsk_frame]
      rfl
    · rfl

theorem regRead_stopCores (cs : List Nat) (s : State) : regRead (cs.foldl (fun t c => stopCore c t) s) k i = regRead s k i := by
  rw [stopCores_frame]
  rfl

theorem regRead_stopEngine (who : Option (Nat × Engine)) (s : State) : regRead (stopEngine who s) k i = regRead s k i := by
  rw [stopEngine_frame]
  rfl

theorem regRead_ctxFault (h : FaultQuiet k i) (ctx : CtxId) (code detail : Nat) (w : Site) (who : Option (Nat × Engine)) (s : State) :
    regRead (ctxFault ctx code detail w who s) k i = regRead s k i := by
  have strike (t : State) : regRead (strikeQueries ctx t) k i = regRead t k i := by
    rw [strikeQueries_frame]
    rfl
  unfold ctxFault
  simp only
  split
  · rw [regRead_stopEngine, regRead_stopCores]
    exact (strike _).trans (regRead_writeFaultRecord h ..)
  · split
    · rfl
    · split
      · exact regRead_writeFaultRecord h ..
      · split
        · rfl
        · rw [regRead_stopEngine]
          exact regRead_writeFaultRecord h ..

theorem regRead_foldl {α : Type} {f : State → α → State} (h : ∀ t a, regRead (f t a) k i = regRead t k i) (l : List α) (s : State) :
    regRead (l.foldl f s) k i = regRead s k i := by
  induction l generalizing s with
  | nil => rfl
  | cons a l ih => rw [List.foldl_cons, ih, h]

theorem regRead_sendAborts (cause : Nat) (origin : Coord) (except : Option Nat) (s : State) :
    regRead (sendAborts cause origin except s) k i = regRead s k i := by
  unfold sendAborts
  simp only
  split
  · rfl
  · refine (regRead_foldl (fun t p => ?_) _ _).trans rfl
    split
    · exact outputAfter_view (v := fun s => regRead s k i) (fun _ _ _ _ _ => rfl) ..
    · rfl

theorem regRead_freeCredits (port vl n : Nat) (s : State) : regRead (freeCredits port vl n s) k i = regRead s k i := by
  unfold freeCredits portIdle
  split <;> rfl

theorem regRead_peerLostOp (h : PeerQuiet k i) (cause : Nat) (port : Option Nat) (origin : Coord) (except : Option Nat) (s : State) :
    regRead (peerLostOp cause port origin except s) k i = regRead s k i := by
  obtain ⟨hfault, hcoll, hstat⟩ := h
  unfold peerLostOp
  split
  · rfl
  · split
    · rfl
    · refine (regRead_wr_other _ _ hstat).trans ((regRead_wr_other _ _ hstat).trans ((regRead_wr_other _ _ hstat).trans
        ((regRead_wr_other _ _ hstat).trans ?_)))
      refine (regRead_foldl (fun t a => ?_) _ _).trans ((regRead_wr_other _ _ hcoll).trans ((regRead_sendAborts ..).trans
        (regRead_foldl (fun t c => ?_) _ _)))
      · split
        · rfl
        · exact regRead_freeCredits ..
      · split
        · exact regRead_ctxFault hfault ..
        · rfl

end

theorem peerQuiet_tpStat (p : Nat) (h : p < 6) : PeerQuiet .tpStat p := by
  refine ⟨⟨?_, fun n => ?_⟩, ?_, ?_⟩ <;> simp only [RegKind.off_tpStat, RegKind.off_logPtr, RegKind.off_faultQ, RegKind.off_coll, RegKind.off_plStat] <;> omega

/-! #### Ports that go down (spec/11 R368) -/

theorem off_tpStat {p q : Nat} (h : q ≠ p) : RegKind.tpStat.off q ≠ RegKind.tpStat.off p := by
  simp only [RegKind.off_tpStat]
  omega

theorem portState_portDown (p q : Nat) (s : State) : portState (portDown p s) q = if q = p then 5 else portState s q := by
  unfold portDown portState
  by_cases h : q = p
  · rw [if_pos h, h]
    exact rd_wr_field ..
  · rw [if_neg h, rd_wr_other _ _ (off_tpStat h), rd_wr_other _ _ (off_tpStat h), rd_wr_other _ _ (off_tpStat h)]

theorem portState_portLose {p q : Nat} (hq : q < 6) (s : State) : portState (portLose p s) q = if q = p then 5 else portState s q := by
  rw [← portState_portDown]
  exact congrArg (bits · _ _) (regRead_peerLostOp (peerQuiet_tpStat q hq) ..)

end Sys2Proof.Machine
end

section
/-! #### The safety monitors, and light lost (spec/14 R469 to R472; spec/01 R24, spec/18 R562) -/

namespace Sys2Proof.Machine

/-- Any of the three conditions drives GUARD_FAULT_N low while READY is driven (R471). -/
theorem guardFaultN_low {t : State} (hready : t.lands.ready ≠ none)
    (h : rdb t fTrip 0 = true ∨ rdb t fMonFail 0 = true ∨ rdb t fLandTest 0 = true) : guardFaultN t = some false := by
  obtain ⟨r, hr⟩ := Option.ne_none_iff_exists'.mp hready
  rw [guardFaultN, hr, Option.map_some, Option.some.injEq]
  rcases h with h | h | h <;> simp [h]

theorem expiredEntry_none {s : State} {h : Half} {ring : Fin 16}
    (hnone : ∀ e ∈ s.monitors, e.half = h.val → e.ring = ring.val → s.time ≤ e.tdb + 39984) : expiredEntry s h ring = none := by
  rw [expiredEntry, List.find?_eq_none]
  intro e he hcond
  simp only [Bool.and_eq_true, beq_iff_eq] at hcond
  have hlong := of_decide_eq_true hcond.2
  have := hnone e he hcond.1.1 hcond.1.2
  unfold monLimit at hlong
  omega

theorem expiredEntry_first {s : State} {h : Half} {ring : Fin 16} {pre post : List MonEntry} {e : MonEntry}
    (hmon : s.monitors = pre ++ e :: post) (hhalf : e.half = h.val) (hring : e.ring = ring.val) (hlate : e.tdb + 39984 < s.time)
    (hpre : ∀ x ∈ pre, x.half = h.val → x.ring = ring.val → s.time ≤ x.tdb + 39984) : expiredEntry s h ring = some e := by
  have hskip : pre.find? (fun e => e.half == h.val && e.ring == ring.val && decide (e.tdb + monLimit < s.time)) = none := by
    rw [List.find?_eq_none]
    intro x hx hcond
    simp only [Bool.and_eq_true, beq_iff_eq] at hcond
    have hlong := of_decide_eq_true hcond.2
    have := hpre x hx hcond.1.1 hcond.1.2
    unfold monLimit at hlong
    omega
  rw [expiredEntry, hmon, List.find?_append, hskip, List.find?_cons_of_pos (by simp [hhalf, hring, monLimit, hlate])]
  rfl

/-- The state after a trip. -/
def tripped (ring : Fin 16) (e : MonEntry) (s : State) : State :=
  bump fTrips 0 1 (wr fRing 0 ring (wr fTrip 0 1 { s with monitors := s.monitors.erase e }))

theorem tripped_regs (ring : Fin 16) (e : MonEntry) (s : State) :
    rdb (tripped ring e s) fTrip 0 = true ∧ rd (tripped ring e s) fRing 0 = ring
      ∧ rd (tripped ring e s) fTrips 0 = min (rd s fTrips 0 + 1) 65535 := by
  refine ⟨?_, ?_, ?_⟩
  · exact congrArg (· == 1) ((rd_bump_beside ..).trans ((rd_wr_beside ..).trans (rd_wr_field ..)))
  · exact (rd_bump_beside ..).trans ((rd_wr_field ..).trans (Nat.mod_eq_of_lt ring.isLt))
  · have hkept : rd (wr fRing 0 ring (wr fTrip 0 1 { s with monitors := s.monitors.erase e })) fTrips 0 = rd s fTrips 0 :=
      (rd_wr_beside ..).trans ((rd_wr_beside ..).trans (rd_congr rfl rfl _ _))
    exact (rd_bump_field ..).trans (by rw [hkept]; rfl)

theorem tripped_frame (ring : Fin 16) (e : MonEntry) (s : State) :
    tripped ring e s = { s with regs := (tripped ring e s).regs, monitors := s.monitors.erase e } := by
  obtain ⟨r, hr⟩ := (((RegsOnly.refl { s with monitors := s.monitors.erase e }).wr fTrip 0 1).wr fRing 0 ring).bump fTrips 0 1
  unfold tripped
  rw [hr]

/-- LAND_TEST starts by a whole write that sets its bit. -/
theorem exec_landTest {w : RegWr} {s : State} (hfull : w.part = .full) (hbit : w.val.toNat.testBit 17 = true)
    (hidle : rdb s fLandTest 0 = false) :
    exec (.landTest w) s = .next { (regPut .safeCtl 0 w s).1 with landTest := some s.time } := by
  have hown : jobOwned s .safeCtl 0 = false := by
    unfold jobOwned
    split <;> rfl
  have hstart := started_regPut (s := s) (i := 0) hfull (.inr hown) (f := fLandTest) (by decide) rfl rfl hbit
  rw [hidle, Bool.not_false] at hstart
  change Host.Outcome.next (safeCtlPut w s) = _
  rw [safeCtlPut]
  simp only [hstart, if_true]

theorem portState_foldl_portLose {q : Nat} (hq : q < 6) (l : List Nat) (s : State) :
    portState (l.foldl (fun t p => portLose p t) s) q = if q ∈ l then 5 else portState s q := by
  induction l generalizing s with
  | nil => simp
  | cons p l ih =>
    rw [List.foldl_cons, ih, portState_portLose hq]
    by_cases hin : q ∈ l
    · simp [hin]
    · by_cases hp : q = p
      · simp [hp]
      · simp [hin, hp]

/-- The loss of a peer leaves a view that looks at none of what it touches. -/
theorem peerLostOp_view {α : Type} {v : State → α} (hfault : ∀ ctx code detail w who s, v (ctxFault ctx code detail w who s) = v s)
    (hports : ∀ s q r x n, v { s with ports := q, ride := r, xfers := x, rideNext := n } = v s)
    (hregs : ∀ s r, v { s with regs := r } = v s) (habort : ∀ s a, v { s with aborted := a } = v s)
    (hpeer : ∀ s p a, v { s with peerLost := p, arrived := a } = v s)
    (cause : Nat) (port : Option Nat) (origin : Coord) (except : Option Nat) (s : State) :
    v (peerLostOp cause port origin except s) = v s := by
  have fold {α : Type} {f : State → α → State} (h : ∀ t a, v (f t a) = v t) (l : List α) (s : State) : v (l.foldl f s) = v s := by
    induction l generalizing s with
    | nil => rfl
    | cons a l ih => rw [List.foldl_cons, ih, h]
  have aborts (t : State) : v (sendAborts cause origin except t) = v t := by
    unfold sendAborts
    simp only
    split
    · rfl
    · refine (fold (fun t p => ?_) _ _).trans (habort _ _)
      split
      · exact outputAfter_view hports ..
      · rfl
  have credits (port vl n : Nat) (t : State) : v (freeCredits port vl n t) = v t := by
    unfold freeCredits portIdle
    split
    · exact (hports _ _ t.ride t.xfers t.rideNext).trans (hports _ _ t.ride t.xfers t.rideNext)
    · exact hports _ _ t.ride t.xfers t.rideNext
  unfold peerLostOp
  split
  · rfl
  · split
    · rfl
    · refine (hpeer _ _ _).trans ((hregs _ _).trans ((hregs _ _).trans ((hregs _ _).trans ((hregs _ _).trans ?_))))
      refine (fold (fun t a => ?_) _ _).trans ((hregs _ _).trans ((aborts _).trans (fold (fun t c => ?_) _ _)))
      · split
        · rfl
        · exact credits ..
      · split
        · exact hfault ..
        · rfl

theorem cpUp_portLose (p : Nat) (s : State) : (portLose p s).cpUp = s.cpUp := by
  refine (peerLostOp_view (v := State.cpUp) (fun _ _ _ _ _ _ => ?_) (fun _ _ _ _ _ => rfl) (fun _ _ => rfl) (fun _ _ => rfl)
    (fun _ _ _ => rfl) ..).trans rfl
  rw [ctxFault_frame]

theorem cpUp_foldl_portLose (l : List Nat) (s : State) : (l.foldl (fun t p => portLose p t) s).cpUp = s.cpUp := by
  induction l generalizing s with
  | nil => rfl
  | cons p l ih => rw [List.foldl_cons, ih, cpUp_portLose]

/-- Settles O49: the monitors' trips and tests, the land test, and the links that lost light takes down. -/
theorem safetyMonitorsAndLightLoss : Obligations.SafetyMonitorsAndLightLoss := by
  refine ⟨?trip, ?test, ?land, ?landEnd, ?light⟩
  case trip =>
    intro s h ring
    refine ⟨fun hnone => ?_, fun pre e post hmon hhalf hring hlate hpre => ?_⟩
    · change execMonitorTrip h ring s = _
      simp only [execMonitorTrip, expiredEntry_none hnone]
    · have hexec : exec (.monitorTrip h ring) s = .next (tripped ring e s) := by
        change execMonitorTrip h ring s = _
        simp only [execMonitorTrip, expiredEntry_first hmon hhalf hring hlate hpre]
        rfl
      obtain ⟨htrip, hringTo, htrips⟩ := tripped_regs ring e s
      have hmem : e ∈ s.monitors := by rw [hmon]; simp
      refine ⟨_, hexec, htrip, hringTo, htrips, ?_, fun hready => guardFaultN_low ?_ (.inl htrip), ?_⟩
      · rw [tripped_frame]
        have hpos := List.length_pos_of_mem hmem
        change (s.monitors.erase e).length + 1 = s.monitors.length
        rw [List.length_erase_of_mem hmem]
        omega
      · rw [tripped_frame]
        exact hready
      · rw [tripped_frame]
  case test =>
    intro s h trip
    refine ⟨fun hidle => ?_, fun hdue hrun => ?_⟩
    · have hcond : (!monTestDue s h || (proc s 0).restarting) = true := by
        rcases hidle with hearly | hrest
        · simp only [monTestDue, lget, secK, Nat.not_le.mpr hearly, decide_false, Bool.not_false, Bool.true_or]
        · simp [hrest]
      change execMonitorTest h trip s = _
      simp only [execMonitorTest, hcond, if_true]
    · have hcond : (!monTestDue s h || (proc s 0).restarting) = false := by
        simp only [monTestDue, lget, secK, hdue, hrun, decide_true, Bool.not_true, Bool.or_false]
      refine ⟨if trip then { s with monTest := s.monTest.set h s.time } else wr fMonFail 0 1 { s with monTest := s.monTest.set h s.time },
        ?_, ?_, ?_, ?_⟩
      · change execMonitorTest h trip s = _
        simp only [execMonitorTest, hcond]
        rfl
      · cases trip <;> rfl
      · cases trip
        · exact congrArg (· == 1) (rd_wr_field _ fMonFail 0 1)
        · rfl
      · cases trip <;> rfl
  case land =>
    intro s w hfull hbit hidle
    have hown : jobOwned s .safeCtl 0 = false := by
      unfold jobOwned
      split <;> rfl
    have hset : rdb (regPut .safeCtl 0 w s).1 fLandTest 0 = true :=
      rdb_regPut_w1s hfull (.inr hown) (f := fLandTest) (by decide) rfl rfl hbit
    refine ⟨_, exec_landTest hfull hbit hidle, rfl, hset, fun hready => guardFaultN_low ?_ (.inr (.inr hset)), ?_⟩
    · rw [regPut_frame]
      exact hready
    · rw [regPut_frame]
  case landEnd =>
    intro s
    refine ⟨fun hnone => ?_, fun t0 hsome => ⟨fun hearly => ?_, fun hover => ?_⟩⟩
    · change execLandTestEnd s = _
      simp only [execLandTestEnd, hnone]
    · change execLandTestEnd s = _
      simp only [execLandTestEnd, hsome]
      exact congrArg Host.Outcome.next (if_neg (Nat.not_le.mpr hearly))
    · refine ⟨wr fLandTest 0 0 { s with landTest := none }, ?_, rfl, congrArg (· == 1) (rd_wr_field _ fLandTest 0 0), rfl⟩
      change execLandTestEnd s = _
      simp only [execLandTestEnd, hsome]
      exact congrArg Host.Outcome.next (if_pos hover)
  case light =>
    intro s ls cp
    refine ⟨rfl, _, rfl, cpUp_foldl_portLose .., fun p hp => ?_⟩
    have hlit : p ∈ (List.range 6).filter (fun p => portHalf p == ls && litPort s p) ↔
        portHalf p = ls ∧ (portState s p = 2 ∨ portState s p = 3 ∨ portState s p = 4) := by
      simp [litPort, hp, or_assoc]
    rw [portState_foldl_portLose hp]
    simp only [hlit]
    rfl

end Sys2Proof.Machine
end

section
/-! #### Setup writes by offset (spec/17 R529, R530, R532, R535) -/

namespace Sys2Proof.Machine

/-- A decoded offset is the register's own. -/
def AtOffset (o : Nat) (e : Option (RegKind × Nat)) : Prop := ∀ k i, e = some (k, i) → k.off i = o

theorem strided_off {k : RegKind} {base stride n o : Nat} (hoff : ∀ i < n, k.off i = base + stride * i) :
    AtOffset o (strided k base stride n o) := by
  intro k' i h
  unfold strided at h
  split at h
  · next hc =>
    obtain ⟨hle, hmod, hlt⟩ := hc
    cases h
    rw [hoff _ hlt, Nat.mul_div_cancel' (Nat.dvd_of_mod_eq_zero hmod), Nat.add_sub_cancel' hle]
  · cases h

theorem forall_firstSome {o : Nat} {l : List (Option (RegKind × Nat))} (h : ∀ e ∈ l, AtOffset o e) : AtOffset o (firstSome l) :=
  fun k i hki => h _ (firstSome_mem hki) k i rfl

theorem AtOffset.none (o : Nat) : AtOffset o none := fun _ _ h => nomatch h

theorem AtOffset.some {k : RegKind} {i o : Nat} (h : k.off i = o) : AtOffset o (some (k, i)) := by
  rintro _ _ ⟨⟩
  exact h

theorem AtOffset.ite {p : Prop} [Decidable p] {o : Nat} {x y : Option (RegKind × Nat)} (hx : p → AtOffset o x)
    (hy : ¬p → AtOffset o y) : AtOffset o (if p then x else y) := by
  split
  · next hp => exact hx hp
  · next hp => exact hy hp

/-- A register of a page lies where the page and the place in it say. -/
theorem paged_off {o base unit r off : Nat} (hr : o % unit = r) (hbase : base % unit = 0) (hle : base ≤ o)
    (hoff : off = base + r + unit * ((o - base) / unit)) : off = o := by
  obtain ⟨q, rfl⟩ := Nat.exists_eq_add_of_le hle
  have hsub : base + q - base = q := by omega
  rw [Nat.add_mod, hbase, Nat.zero_add, Nat.mod_mod] at hr
  rw [hoff, ← hr, hsub, Nat.add_assoc, Nat.mod_add_div]

/-- A group of `m` neighbouring registers of a page. -/
theorem grouped_off {m j : Nat} (b u n : Nat) (hj : j < m) : b + u * ((m * n + j) / m) + 8 * ((m * n + j) % m) = b + 8 * j + u * n := by
  rw [Nat.mul_add_div (Nat.zero_lt_of_lt hj), Nat.mul_add_mod, Nat.div_eq_of_lt hj, Nat.mod_eq_of_lt hj, Nat.add_zero]
  omega

theorem AtOffset.cons {o : Nat} {e : Option (RegKind × Nat)} {l : List (Option (RegKind × Nat))} (he : AtOffset o e)
    (hl : AtOffset o (firstSome l)) : AtOffset o (firstSome (e :: l)) := by
  rcases e with _ | e
  · exact hl
  · exact he

/-- A single register. -/
theorem one_off {k : RegKind} {base stride o : Nat} (h : k.off 0 = base) : AtOffset o (strided k base stride 1 o) :=
  strided_off fun i hi => by
    obtain rfl := Nat.lt_one_iff.mp hi
    exact h

/-- A decoded offset is the register's own. -/
theorem atOffset_regAt (o : Nat) : AtOffset o (regAt o) := by
  unfold regAt
  refine .ite (fun _ => .none o) fun _ => .ite (fun _ => ?base) fun hbase => .ite (fun _ => ?ctx) fun _ => .ite (fun _ => ?core)
    fun hcore => .ite (fun _ => ?die) fun _ => .ite (fun _ => .none o) fun _ => strided_off fun _ _ => rfl
  case base =>
    dsimp only
    iterate 5 refine .cons (one_off rfl) ?_
    iterate 2 refine .cons (strided_off fun _ _ => rfl) ?_
    iterate 7 refine .cons (one_off rfl) ?_
    refine .cons (strided_off fun _ _ => rfl) ?_
    refine .cons (one_off rfl) ?_
    refine .cons (strided_off fun _ _ => rfl) ?_
    iterate 5 refine .cons (one_off rfl) ?_
    refine .cons (strided_off fun _ _ => rfl) ?_
    iterate 11 refine .cons (one_off rfl) ?_
    iterate 6 refine .cons (strided_off fun _ _ => rfl) ?_
    iterate 3 refine .cons (one_off rfl) ?_
    refine .cons (strided_off fun _ _ => rfl) ?_
    iterate 3 refine .cons (one_off rfl) ?_
    iterate 3 refine .cons (strided_off fun _ _ => rfl) ?_
    exact .none o
  case core => exact strided_off fun _ _ => rfl
  case ctx =>
    have hle : 0x8000 ≤ o := Nat.le_of_not_lt hbase
    dsimp only
    split
    iterate 4 exact .some (paged_off ‹_› rfl hle rfl)
    · exact .some (paged_off ‹_› rfl hle (grouped_off (m := 3) (j := 0) _ _ _ (by decide)))
    · exact .some (paged_off ‹_› rfl hle (grouped_off (m := 3) (j := 1) _ _ _ (by decide)))
    · exact .some (paged_off ‹_› rfl hle (grouped_off (m := 3) (j := 2) _ _ _ (by decide)))
    iterate 8 exact .some (paged_off ‹_› rfl hle rfl)
    · exact .none o
  case die =>
    have hle : 0x10000 ≤ o := Nat.le_of_not_lt hcore
    dsimp only
    split
    iterate 2 exact .some (paged_off ‹_› rfl hle rfl)
    iterate 5
      · exact .some (paged_off ‹_› rfl hle (grouped_off (m := 4) (j := 0) _ _ _ (by decide)))
      · exact .some (paged_off ‹_› rfl hle (grouped_off (m := 4) (j := 1) _ _ _ (by decide)))
      · exact .some (paged_off ‹_› rfl hle (grouped_off (m := 4) (j := 2) _ _ _ (by decide)))
      · exact .some (paged_off ‹_› rfl hle (grouped_off (m := 4) (j := 3) _ _ _ (by decide)))
    iterate 3 exact .some (paged_off ‹_› rfl hle rfl)
    · exact .none o

theorem regAt_off {o i : Nat} {k : RegKind} (h : regAt o = some (k, i)) : k.off i = o := atOffset_regAt o k i h

/-- A refused access is recorded (R530). -/
theorem rd_setupErr {off : Nat} (h : off < 0x80000) (p : Path) (cause : Nat) (hc : cause < 8) (s : State) :
    rd (setupErr off p cause s) fAddr 0 = off ∧ rd (setupErr off p cause s) fPath 0 = pathCode p
      ∧ rd (setupErr off p cause s) fSetupErrCause 0 = cause
      ∧ rd (setupErr off p cause s) fSetupErrCount 0 = min (rd s fSetupErrCount 0 + 1) 65535 := by
  have hpath : pathCode p < 2 := by cases p <;> decide
  unfold setupErr
  refine ⟨?_, ?_, ?_, ?_⟩
  · exact (rd_bump_beside ..).trans ((rd_wr_beside ..).trans ((rd_wr_beside ..).trans ((rd_wr_field ..).trans (Nat.mod_eq_of_lt h))))
  · exact (rd_bump_beside ..).trans ((rd_wr_beside ..).trans ((rd_wr_field ..).trans (Nat.mod_eq_of_lt hpath)))
  · exact (rd_bump_beside ..).trans ((rd_wr_field ..).trans (Nat.mod_eq_of_lt hc))
  · have hkept : rd (wr fSetupErrCause 0 cause (wr fPath 0 (pathCode p) (wr fAddr 0 off s))) fSetupErrCount 0
        = rd s fSetupErrCount 0 := (rd_wr_beside ..).trans ((rd_wr_beside ..).trans (rd_wr_beside ..))
    exact (rd_bump_field ..).trans (by rw [hkept]; rfl)

theorem RegsOnly.setupErr (off : Nat) (p : Path) (cause : Nat) (s : State) : RegsOnly s (setupErr off p cause s) :=
  ((((RegsOnly.refl s).wr fAddr 0 off).wr fPath 0 (pathCode p)).wr fSetupErrCause 0 cause).bump fSetupErrCount 0 1

theorem regRead_setupErr_other {k : RegKind} {i : Nat} (h : k.off i ≠ RegKind.setupErr.off 0) (off : Nat) (p : Path) (cause : Nat)
    (s : State) : regRead (setupErr off p cause s) k i = regRead s k i :=
  (regRead_bump_other (f := fSetupErrCount) h 1 _).trans
    ((regRead_wr_other _ _ h).trans ((regRead_wr_other _ _ h).trans (regRead_wr_other _ _ h)))

/-- The registers whose write does more than their access types say (Table 17.2). -/
def opRegs : List RegKind :=
  [.svnCtl, .updCtl, .crCtl, .intStat, .safeCtl, .svCtl, .svTime, .pwCtl, .grvPctl, .jrCtl, .mqp, .ht, .tpCtl, .ctxSave,
    .ssCtl, .logPtr, .arbCtl]

theorem regWriteAt_plain {k : RegKind} (h : k ∉ opRegs) (i : Nat) (w : RegWr) (s : State) : regWriteAt k i w s = (regPut k i w s).1 := by
  induction k with
  | svnCtl | updCtl | crCtl | intStat | safeCtl | svCtl | svTime | pwCtl | grvPctl | jrCtl | mqp | ht | tpCtl | ctxSave | ssCtl
  | logPtr | arbCtl => exact absurd (by decide) h
  | _ => rfl

/-- No register lies past the set-up space. -/
theorem regAt_beyond {o : Nat} (h : 0x80000 ≤ o) (halign : o % 8 = 0) : regAt o = none :=
  (if_neg (not_not_intro halign)).trans <| (if_neg (Nat.not_lt.mpr (Nat.le_trans (by decide) h))).trans <|
    (if_neg (Nat.not_lt.mpr (Nat.le_trans (by decide) h))).trans <| (if_neg (Nat.not_lt.mpr (Nat.le_trans (by decide) h))).trans <|
    (if_neg (Nat.not_lt.mpr (Nat.le_trans (by decide) h))).trans <| (if_neg (Nat.not_lt.mpr (Nat.le_trans (by decide) h))).trans <|
    if_neg (by omega)

theorem regAt_range {o : Nat} {p : RegKind × Nat} (h : regAt o = some p) : o % 8 = 0 ∧ o < 0x80000 := by
  have halign : o % 8 = 0 := by
    by_contra hne
    cases h.symm.trans (if_pos hne)
  refine ⟨halign, Nat.lt_of_not_le fun hle => ?_⟩
  cases h.symm.trans (regAt_beyond hle halign)

section
variable {s : State} {off : Nat} {w : RegWr} {k : RegKind} {i : Nat}

theorem exec_registerWrite_beyond (h : 0x80000 ≤ off) : exec (.registerWrite off w) s = .next s :=
  congrArg Host.Outcome.next (if_pos h)

theorem exec_registerWrite_stray (h : off < 0x80000) (hbad : off % 8 ≠ 0 ∨ regAt off = none) :
    exec (.registerWrite off w) s = .next (setupErr off w.path (if off % 8 ≠ 0 then 3 else 1) s) := by
  change Host.Outcome.next (setupWrite off w s) = _
  rw [setupWrite, if_neg (Nat.not_le.mpr h)]
  by_cases halign : off % 8 ≠ 0
  · rw [if_pos halign, if_pos halign]
  · have hnone : regAt off = none := hbad.resolve_left halign
    simp only [if_neg halign, hnone]

theorem exec_registerWrite_at (h : regAt off = some (k, i)) (halign : off % 8 = 0) (hlt : off < 0x80000) :
    exec (.registerWrite off w) s = .next (regWriteAt k i w s) := by
  change Host.Outcome.next (setupWrite off w s) = _
  rw [setupWrite, if_neg (Nat.not_le.mpr hlt)]
  simp only [h, halign, ne_eq, not_true, if_false]

end

/-! #### Standstill (spec/06 R219 to R223) -/

theorem mem_allEngines (e : Engine) : e ∈ allEngines := by cases e <;> decide

/-- What a still core's engines of the context wait for. -/
theorem coreStill_iff {s : State} {ctx : CtxId} {t c : Nat} (h : coreStill s ctx t c = true) :
    tget (core s c).stir ctx 0 + 65536 ≤ t
      ∧ ∀ d l (e : Engine), (core s c).run = some (d, l) → d.ctx = ctx → ((core s c).eng e).ctl.part ≠ .finished →
        ∃ w : Waiting, ((core s c).eng e).wait = some w ∧ w.ext = false ∧ w.begin + 65536 ≤ t := by
  simp only [coreStill, Bool.and_eq_true, List.all_eq_true, Bool.or_eq_true, Bool.not_eq_true'] at h
  obtain ⟨⟨-, hstir⟩, heng⟩ := h
  refine ⟨of_decide_eq_true hstir, fun d l e hrun hctx hpart => ?_⟩
  have hbelongs : belongs (core s c) ctx e = true := by
    simp [belongs, runsCtx, hrun, hctx, hpart]
  have hstill : stillEng t ((core s c).eng e) = true := (heng e (mem_allEngines e)).resolve_left (by simp [hbelongs])
  unfold stillEng at hstill
  split at hstill
  · next w hw =>
    simp only [Bool.and_eq_true, Bool.not_eq_true'] at hstill
    exact ⟨w, hw, hstill.1, of_decide_eq_true hstill.2⟩
  · cases hstill

theorem exec_groveQuiet (s : State) (g : Grove) (ctx : CtxId) :
    exec (.groveQuiet g ctx) s = .next (if gstUp s g = true ∧ ∀ c ∈ groveCores g, coreStill s ctx s.time c = true then
      modGrove g (fun x => { x with quiet := (x.quiet.filter fun q => q.1 != ctx) ++ [(ctx, s.time)] }) s else s) := by
  change execGroveQuiet g ctx s = _
  simp only [execGroveQuiet, Bool.and_eq_true, List.all_eq_true]

theorem quiet_dropRound {s : State} {ctx : CtxId} : ∀ e ∈ (dropRound ctx s).groves, ∀ q ∈ e.2.quiet, q.1 ≠ ctx := by
  intro e he q hq
  simp only [dropRound, List.mem_map] at he
  obtain ⟨e', -, rfl⟩ := he
  simpa using (List.mem_filter.mp hq).2

theorem dropRound_frame (ctx : CtxId) (s : State) : dropRound ctx s = { s with groves := (dropRound ctx s).groves } := rfl

/-- The groves are no part of a context's fault. -/
theorem groves_ctxFault (ctx : CtxId) (code detail : Nat) (w : Site) (who : Option (Nat × Engine)) (s : State) :
    (ctxFault ctx code detail w who s).groves = s.groves := by
  rw [ctxFault_frame]

theorem ctxSt_stopCores (cs : List Nat) (s : State) (n : Nat) : ctxSt (cs.foldl (fun t c => stopCore c t) s) n = ctxSt s n := by
  rw [stopCores_frame]
  rfl

/-- A context's first fault that no engine raises. -/
theorem fault_ctxFault_none {ctx : CtxId} {s : State} (h : (ctxSt s ctx).fault = none) (code detail : Nat) (w : Site) :
    (ctxSt (ctxFault ctx code detail w none s) ctx).fault = some (code, detail)
      ∧ ∀ n ∈ coresRunning s ctx, (core (ctxFault ctx code detail w none s) n).forced = true := by
  rw [ctxFault_first h]
  refine ⟨?_, fun n hn => stopCores_forced _ _ hn⟩
  refine (congrArg Ctx.fault (ctxSt_stopCores ..)).trans ?_
  rw [ctxSt_modCtx_same]

theorem core_logWrite (tpn src : Nat) (b : Bytes) (s : State) (n : Nat) : core (logWrite tpn src b s) n = core s n := by
  rw [logWrite_frame]
  rfl

theorem ctxSt_logWrite (tpn src : Nat) (b : Bytes) (s : State) (n : Nat) : ctxSt (logWrite tpn src b s) n = ctxSt s n := by
  rw [logWrite_frame]
  rfl

theorem groves_logWrite (tpn src : Nat) (b : Bytes) (s : State) : (logWrite tpn src b s).groves = s.groves := by
  rw [logWrite_frame]

/-- What a standstill's confirmation rests on (R220). -/
def Standstill (s : State) (ctx : CtxId) : Prop :=
  (ctxSt s ctx).fault = none ∧ (ctxSt s ctx).live = true ∧ waitGraph s ctx ≠ [] ∧ inFlight s ctx = false
    ∧ ∀ g < 32, confirms s ctx g = true

/-- STANDSTILL_CONFIRM of a full round: the round goes, and the context faults where the standstill is confirmed. -/
theorem exec_standstillConfirm {s : State} {ctx : CtxId} (hsch : schUp s = true) (hall : allReported s ctx = true) :
    (Standstill s ctx → exec (.standstillConfirm ctx) s = .next (logWrite 0x0101 srcSch (graphRecord s ctx (waitGraph s ctx))
      (ctxFault ctx fcStandstill (waitGraph s ctx).length (Site.bare 7 0) none (dropRound ctx s))))
    ∧ (¬Standstill s ctx → exec (.standstillConfirm ctx) s = .next (dropRound ctx s)) := by
  have hround : ¬(!schUp s || !allReported s ctx) = true := by simp [hsch, hall]
  have hcond : ((ctxSt s ctx).fault.isSome || !(ctxSt s ctx).live || (waitGraph s ctx).isEmpty || inFlight s ctx
      || !allGroves.all (confirms s ctx)) = true ↔ ¬Standstill s ctx := by
    unfold Standstill
    cases (ctxSt s ctx).fault <;> cases (ctxSt s ctx).live <;> cases inFlight s ctx <;> simp [allGroves]
    exact or_iff_not_imp_left
  change (_ → execStandstillConfirm ctx s = _) ∧ (_ → execStandstillConfirm ctx s = _)
  rw [execStandstillConfirm, if_neg hround]
  refine ⟨fun h => ?_, fun h => ?_⟩
  · exact congrArg Host.Outcome.next (if_neg (by rw [hcond]; exact not_not_intro h))
  · exact congrArg Host.Outcome.next (if_pos (hcond.mpr h))

/-- A register write that its offset or its owner forbids, or that its fields take. -/
theorem registerWrite_plain {s : State} {off i : Nat} {w : RegWr} {k : RegKind} (hk : regAt off = some (k, i)) (hplain : k ∉ opRegs) :
    ∃ t : State, exec (.registerWrite off w) s = .next t ∧ t = { s with regs := t.regs }
      ∧ (w.path = .i3c0 ∨ w.path = .i3c1 → w.part ≠ .full → rd t fAddr 0 = off ∧ rd t fSetupErrCause 0 = 3
        ∧ rd t fSetupErrCount 0 = min (rd s fSetupErrCount 0 + 1) 65535)
      ∧ (w.part = .full → w.path ≠ .sch → jobOwned s k i = true → ownedChange k w (regRead s k i) = true →
        rd t fAddr 0 = off ∧ rd t fSetupErrCause 0 = 2 ∧ (k ≠ .setupErr → regRead t k i = regRead s k i))
      ∧ (w.part = .full → (w.path = .sch ∨ jobOwned s k i = false) →
        (∀ n j, RegKind.off n j ≠ off → regRead t n j = regRead s n j)
        ∧ ∀ f ∈ k.fields, rd t f i = f.after w.val.toNat (rd s f i)) := by
  obtain ⟨halign, hlt⟩ := regAt_range hk
  have hoff := regAt_off hk
  refine ⟨(regPut k i w s).1, ?_, regPut_frame .., fun hpath hpart => ?_, fun hfull hpath hjob hch => ?_, fun hfull how => ⟨?_, ?_⟩⟩
  · rw [exec_registerWrite_at hk halign hlt, regWriteAt_plain hplain]
  · have hbad : badWidth w = true := by
      rcases hpath with h | h <;> simp [badWidth, h, hpart]
    rw [regPut_width hbad, hoff]
    obtain ⟨haddr, -, hcause, hcount⟩ := rd_setupErr hlt w.path 3 (by decide) s
    exact ⟨haddr, hcause, hcount⟩
  · have hown : refusedByOwner s k i w = true := by simp [refusedByOwner, hpath, hjob, hch]
    rw [regPut_owned (badWidth_full hfull) hown, hoff]
    obtain ⟨haddr, -, hcause, -⟩ := rd_setupErr hlt w.path 2 (by decide) s
    refine ⟨haddr, hcause, fun hne => regRead_setupErr_other ?_ _ _ _ s⟩
    intro hsame
    rw [← hoff, hsame] at hk
    have herr : regAt (RegKind.setupErr.off 0) = some (.setupErr, 0) := by decide
    rw [herr] at hk
    cases hk
    exact hne rfl
  · intro n j hne
    exact regRead_regPut_other hfull how (by rw [hoff]; exact hne)
  · intro f hf
    exact rd_regPut_full hfull how hf

theorem exec_ctxSaveWrite {s : State} {n : CtxId} {w : RegWr} (hfull : w.part = .full)
    (how : w.path = .sch ∨ jobOwned s .ctxSave n = false) :
    ∃ t : State, exec (.ctxSaveWrite n w) s = .next t ∧ t = { s with regs := t.regs }
      ∧ rd t fSavePg n = if bits w.val.toNat 0 8 ≤ 239 then bits w.val.toNat 0 8 else rd s fSavePg n := by
  have hval : rd (regPut .ctxSave n w s).1 fSavePg n = bits w.val.toNat 0 8 := rd_regPut_full hfull how (by decide)
  have hput : regPut .ctxSave n w s = ((regPut .ctxSave n w s).1, true) := by rw [regPut_full hfull how]
  refine ⟨ctxSavePut n w s, rfl, ?_⟩
  rw [ctxSavePut, hput]
  simp only [hval]
  by_cases hle : bits w.val.toNat 0 8 ≤ 239
  · rw [if_neg (Nat.not_lt.mpr hle), if_pos hle]
    exact ⟨regPut_frame .., hval⟩
  · rw [if_pos (Nat.lt_of_not_le hle), if_neg hle]
    exact ⟨(((RegsOnly.refl s).regPut .ctxSave n w).wr fSavePg n _).frame, (rd_wr_field ..).trans (Nat.mod_eq_of_lt (rd_lt s fSavePg n))⟩

/-- A whole write of LOG_PTR acknowledges a full log. -/
theorem registerWrite_logPtr {s : State} {w : RegWr} (hfull : w.part = .full) :
    ∃ t : State, exec (.registerWrite (RegKind.logPtr.off 0) w) s = .next t
      ∧ t.logFull = false ∧ t = { s with regs := t.regs, logFull := false } := by
  have hown : jobOwned s .logPtr 0 = false := by
    unfold jobOwned
    split <;> rfl
  have hput : regPut .logPtr 0 w s = ((regPut .logPtr 0 w s).1, true) := by rw [regPut_full hfull (.inr hown)]
  have hat : regAt (RegKind.logPtr.off 0) = some (.logPtr, 0) := by decide
  obtain ⟨halign, hlt⟩ := regAt_range hat
  refine ⟨{ (regPut .logPtr 0 w s).1 with logFull := false }, ?_, rfl, ?_⟩
  · rw [exec_registerWrite_at hat halign hlt]
    change Host.Outcome.next (logPtrPut w s) = _
    rw [logPtrPut, hput]
    simp only [hfull]
    rfl
  · rw [regPut_frame]

/-- Settles O55: setup accesses by access type, ownership and width, and the standstill's rounds. -/
theorem setupAccessesAndStandstill : Obligations.SetupAccessesAndStandstill := by
  refine ⟨?write, ?read, ?save, ?log, ?quiet, ?confirm⟩
  case write =>
    intro s off w
    refine ⟨exec_registerWrite_beyond, fun hlt hbad => ?_, fun k i hk hplain => registerWrite_plain hk hplain⟩
    obtain ⟨haddr, hpath, hcause, hcount⟩ := rd_setupErr hlt w.path (if off % 8 ≠ 0 then 3 else 1) (by split_ifs <;> decide) s
    exact ⟨_, exec_registerWrite_stray hlt hbad, haddr, hpath, hcause, hcount, (RegsOnly.setupErr ..).frame⟩
  case read =>
    intro s path
    exact ⟨_, rfl, regRead_regWrite_same .., rfl, rfl⟩
  case save =>
    intro s n w hfull how
    have hown : w.path = .sch ∨ jobOwned s .ctxSave n = false := how.imp id fun h => by simp [jobOwned, h]
    exact exec_ctxSaveWrite hfull hown
  case log =>
    intro s w hfull
    exact registerWrite_logPtr hfull
  case quiet =>
    intro s g ctx
    refine ⟨fun hno => (exec_groveQuiet ..).trans (congrArg Host.Outcome.next (if_neg ?_)), fun hup hstill =>
      ⟨_, (exec_groveQuiet ..).trans (congrArg Host.Outcome.next (if_pos ⟨hup, hstill⟩)), ?_, rfl,
        fun c hc => (coreStill_iff (hstill c hc)).1, fun c hc => (coreStill_iff (hstill c hc)).2⟩⟩
    · rintro ⟨hup, hstill⟩
      rcases hno with h | ⟨c, hc, h⟩
      · rw [h] at hup
        cases hup
      · rw [hstill c hc] at h
        cases h
    · rw [grove_modGrove_same]
      simp
  case confirm =>
    intro s ctx
    refine ⟨fun hno => ?_, fun hsch hall => ?_⟩
    · change execStandstillConfirm ctx s = _
      rw [execStandstillConfirm, if_pos (by rcases hno with h | h <;> simp [h])]
    · obtain ⟨hyes, hno⟩ := exec_standstillConfirm hsch hall
      by_cases h : Standstill s ctx
      · obtain ⟨hfault, hlive, hgraph, hflight, hconf⟩ := h
        obtain ⟨hset, hforced⟩ := fault_ctxFault_none (s := dropRound ctx s) hfault fcStandstill (waitGraph s ctx).length (Site.bare 7 0)
        refine ⟨_, hyes ⟨hfault, hlive, hgraph, hflight, hconf⟩, ?_, fun _ _ _ _ _ => ⟨?_, fun c hc => ?_⟩, ?_⟩
        · rw [groves_logWrite, groves_ctxFault]
          exact quiet_dropRound
        · rw [ctxSt_logWrite, hset]
          rfl
        · rw [core_logWrite]
          exact hforced c hc
        · rintro (h | h | h | h | ⟨g, hg, h⟩)
          · exact absurd hfault h
          · exact absurd (hlive.symm.trans h) (by decide)
          · exact absurd h hgraph
          · exact absurd (hflight.symm.trans h) (by decide)
          · exact absurd ((hconf g hg).symm.trans h) (by decide)
      · refine ⟨_, hno h, quiet_dropRound, fun hfault hlive hgraph hflight hconf => ?_, fun _ => rfl⟩
        exact absurd ⟨hfault, hlive, hgraph, hflight, hconf⟩ h

end Sys2Proof.Machine
end

section
/-! #### Clocks: steps, stretches and holds (spec/15 R480 to R484, R499) -/

namespace Sys2Proof.Machine

theorem pwGrove_modPw_other {g n : Nat} (f : PwGrove → PwGrove) (s : State) (h : n ≠ g) : pwGrove (modPw g f s) n = pwGrove s n := by
  simp [pwGrove, modPw, tget_tset_other _ _ _ _ _ h]

theorem rd_modPw (g : Nat) (f : PwGrove → PwGrove) (s : State) (q : Fld) (i : Nat) : rd (modPw g f s) q i = rd s q i :=
  rd_congr rfl rfl q i

theorem rdb_modPw (g : Nat) (f : PwGrove → PwGrove) (s : State) (q : Fld) (i : Nat) : rdb (modPw g f s) q i = rdb s q i :=
  congrArg (· == 1) (rd_modPw g f s q i)

/-- Only the registers and what PWR keeps differ. -/
def PwOnly (s t : State) : Prop := ∃ r p, t = { s with regs := r, pw := p }

theorem PwOnly.refl (s : State) : PwOnly s s := ⟨s.regs, s.pw, rfl⟩

theorem PwOnly.trans {s t u : State} (h1 : PwOnly s t) (h2 : PwOnly t u) : PwOnly s u := by
  obtain ⟨r1, p1, rfl⟩ := h1
  obtain ⟨r2, p2, rfl⟩ := h2
  exact ⟨r2, p2, rfl⟩

theorem RegsOnly.pwOnly {s t : State} (h : RegsOnly s t) : PwOnly s t := by
  obtain ⟨r, rfl⟩ := h
  exact ⟨r, s.pw, rfl⟩

theorem PwOnly.modPw (g : Nat) (f : PwGrove → PwGrove) (s : State) : PwOnly s (modPw g f s) := ⟨s.regs, _, rfl⟩

theorem PwOnly.frame {s t : State} (h : PwOnly s t) : t = { s with regs := t.regs, pw := t.pw } := by
  obtain ⟨r, p, rfl⟩ := h
  rfl

theorem RegsOnly.pwGrove {s t : State} (h : RegsOnly s t) (n : Nat) : pwGrove t n = pwGrove s n := by
  obtain ⟨r, rfl⟩ := h
  rfl

theorem pwGrove_wr (f : Fld) (i v : Nat) (s : State) (n : Nat) : pwGrove (wr f i v s) n = pwGrove s n := rfl

theorem off_grvPstat {g n : Nat} (h : n ≠ g) : RegKind.grvPstat.off n ≠ RegKind.grvPstat.off g := by
  simp only [RegKind.off_grvPstat]
  omega

/-- A field of GRV_PSTAT that a write of another field, of any grove, leaves. -/
theorem rd_wr_pstat {f q : Fld} (hf : f.reg = .grvPstat) (hq : q.reg = .grvPstat) (hfit : f.lo + f.w ≤ 64)
    (hapart : q.lo + q.w ≤ f.lo ∨ f.lo + f.w ≤ q.lo) (g v n : Nat) (s : State) : rd (wr f g v s) q n = rd s q n := by
  by_cases h : n = g
  · rw [h]
    exact rd_wr_beside s f q g v (hq.trans hf.symm) hfit hapart
  · exact rd_wr_other s v (by rw [hf, hq]; exact off_grvPstat h)

theorem rd_wr_pstat_ne {f q : Fld} (hf : f.reg = .grvPstat) (hq : q.reg = .grvPstat) {g n : Nat} (h : n ≠ g) (v : Nat) (s : State) :
    rd (wr f g v s) q n = rd s q n := rd_wr_other s v (by rw [hf, hq]; exact off_grvPstat h)

/-- A field of another register than GRV_PSTAT. -/
theorem off_pstat_apart (g : Nat) : RegKind.svCtl.off 0 ≠ RegKind.grvPstat.off g ∧ ∀ n, RegKind.grvPctl.off n ≠ RegKind.grvPstat.off g := by
  refine ⟨?_, fun n => ?_⟩
  · simp only [RegKind.off_svCtl, RegKind.off_grvPstat]
    omega
  · simp only [RegKind.off_grvPctl, RegKind.off_grvPstat]
    omega

/-! #### Dividers -/

theorem policy_regs (g : Nat) (s : State) : RegsOnly s (policy g s) := by
  unfold policy
  simp only
  split
  · exact (((RegsOnly.refl s).wr fReason g _).wr fBound g _).wr fPolicyOverridden g _
  · split
    · exact ((((RegsOnly.refl s).wr fReason g _).wr fBound g _).wr fPolicyOverridden g _).wr fOvrSeen g _
    · exact RegsOnly.refl s

theorem kNow_policy (g n : Nat) (s : State) : rd (policy g s) fKNow n = rd s fKNow n := by
  have kept {f : Fld} (hf : f.reg = .grvPstat) (hfit : f.lo + f.w ≤ 64) (hlo : 6 ≤ f.lo) (v : Nat) (t : State) :
      rd (wr f g v t) fKNow n = rd t fKNow n := rd_wr_pstat (q := fKNow) hf rfl hfit (.inl hlo) g v n t
  have hreason := kept (f := fReason) rfl (by decide) (by decide)
  have hbound := kept (f := fBound) rfl (by decide) (by decide)
  have hover := kept (f := fPolicyOverridden) rfl (by decide) (by decide)
  have hseen := kept (f := fOvrSeen) rfl (by decide) (by decide)
  unfold policy
  simp only
  split
  · rw [hover, hbound, hreason]
  · split
    · rw [hseen, hover, hbound, hreason]
    · rfl

/-- A grove back at its floor is not overridden (R491). -/
theorem policy_above {g : Nat} {s : State} (h : floorK s g ≤ rd s fKNow g) : rdb (policy g s) fPolicyOverridden g = false := by
  unfold policy
  simp only
  rw [if_pos h]
  exact congrArg (· == 1) (rd_wr_field ..)

theorem setVolt_only (g : Nat) (s : State) : PwOnly s (setVolt g s) := PwOnly.modPw g _ s

theorem rd_setVolt (g : Nat) (s : State) (q : Fld) (i : Nat) : rd (setVolt g s) q i = rd s q i := rd_modPw g _ s q i

theorem gladeOn_congr {s t : State} (hen : rdb t fSvCtlEn 0 = rdb s fSvCtlEn 0) (h0 : rd t fGlade0 0 = rd s fGlade0 0)
    (h1 : rd t fGlade1 0 = rd s fGlade1 0) (g : Nat) : gladeOn t g = gladeOn s g := by
  rw [gladeOn, hen, h0, h1, ← gladeOn]

/-- Writing a field of GRV_PSTAT moves no grove into the glade or out of it. -/
theorem gladeOn_wr_pstat {f : Fld} (hf : f.reg = .grvPstat) (g v n : Nat) (s : State) : gladeOn (wr f g v s) n = gladeOn s n := by
  have kept {q : Fld} (hq : q.reg = .svCtl) : rd (wr f g v s) q 0 = rd s q 0 :=
    rd_wr_other s v (by rw [hf, hq]; exact (off_pstat_apart g).1)
  exact gladeOn_congr (congrArg (· == 1) (kept rfl)) (kept rfl) (kept rfl) n

theorem gladeOn_modPw (g : Nat) (f : PwGrove → PwGrove) (n : Nat) (s : State) : gladeOn (modPw g f s) n = gladeOn s n :=
  gladeOn_congr (rdb_modPw ..) (rd_modPw ..) (rd_modPw ..) n

theorem guardLevel_congr {s t : State} {g : Nat} (hglade : gladeOn t g = gladeOn s g)
    (hw : (pwGrove t g).windows = (pwGrove s g).windows) : guardLevel t g = guardLevel s g := by
  rw [guardLevel, hglade, hw, ← guardLevel]

theorem floorK_wr_kNow (g v : Nat) (s : State) : floorK (wr fKNow g v s) g = floorK s g := by
  have hmin : rd (wr fKNow g v s) fFminK g = rd s fFminK g := rd_wr_other s v ((off_pstat_apart g).2 g)
  have hsv : rd (wr fKNow g v s) fSvK 0 = rd s fSvK 0 := rd_wr_other s v (off_pstat_apart g).1
  rw [floorK, gladeOn_wr_pstat rfl, hmin, hsv, ← floorK]

theorem floorK_setVolt (g : Nat) (s : State) : floorK (setVolt g s) g = floorK s g := by
  rw [floorK, setVolt, gladeOn_modPw, rd_modPw, rd_modPw, ← floorK]

section
variable {g k : Nat} {s : State}

theorem setK_only : PwOnly s (setK g k s) :=
  (RegsOnly.pwOnly ((RegsOnly.refl s).wr fKNow g k)).trans ((setVolt_only g _).trans (policy_regs g _).pwOnly)

theorem kNow_setK (hk : k < 64) : rd (setK g k s) fKNow g = k := by
  rw [setK, kNow_policy, rd_setVolt]
  exact (rd_wr_field ..).trans (Nat.mod_eq_of_lt hk)

theorem kNow_setK_other {n : Nat} (h : n ≠ g) : rd (setK g k s) fKNow n = rd s fKNow n := by
  rw [setK, kNow_policy, rd_setVolt, rd_wr_pstat_ne rfl rfl h]

theorem pwGrove_setK (hk : k < 64) : (pwGrove (setK g k s) g).volt = Config.fusedVoltage g k
    + 6 * (if (pwGrove s g).rail then min (pwGrove s g).guard (guardLevel s g) else guardLevel s g) := by
  have hnow : rd (wr fKNow g k s) fKNow g = k := (rd_wr_field ..).trans (Nat.mod_eq_of_lt hk)
  have hguard : guardLevel (wr fKNow g k s) g = guardLevel s g := guardLevel_congr (gladeOn_wr_pstat rfl ..) rfl
  rw [setK, (policy_regs g _).pwGrove, setVolt, pwGrove_modPw_same]
  simp only [hnow, hguard]
  rfl

theorem pwGrove_setK_other {n : Nat} (h : n ≠ g) : pwGrove (setK g k s) n = pwGrove s n := by
  rw [setK, (policy_regs g _).pwGrove, setVolt, pwGrove_modPw_other _ _ h]
  rfl

theorem setK_above (hk : k < 64) (h : floorK s g ≤ k) : rdb (setK g k s) fPolicyOverridden g = false := by
  refine policy_above ?_
  rw [floorK_setVolt, floorK_wr_kNow, rd_setVolt]
  exact h.trans (((rd_wr_field ..).trans (Nat.mod_eq_of_lt hk)).ge)

end

theorem stepK_spec {k t : Nat} (h : k ≠ t) : stepK k t ≠ k ∧ (k < t → stepK k t = min t (k + 8)) ∧ (t < k → stepK k t = max t (k - 8))
    ∧ (stepK k t ≤ max k t) := by
  unfold stepK
  split_ifs <;> omega

theorem ceilK_lt (s : State) (g : Nat) : ceilK s g < 64 := by
  have h1 := rd_lt s fFmaxK g
  have h2 := rd_lt s fSvK 0
  unfold ceilK
  split_ifs
  · exact max_lt h1 h2
  · exact h1

/-- FREQ_DECISION. -/
theorem exec_freqDecision (s : State) (g : Grove) : exec (.freqDecision g) s = .next (
    if pwrRuns s (g / 16) = false then s
    else if rd s fKNow g = targetK s g then policy g (setVolt g s)
    else if (pwGrove s g).droop = true ∨ (pwGrove s g).held = true then wr fPending g 1 s
    else setK g (stepK (rd s fKNow g) (targetK s g)) s) := by
  change execFreqDecision g s = _
  simp only [execFreqDecision, Bool.not_eq_true', Bool.or_eq_true]

/-! #### Stretches -/

theorem stretch_regs (g : Nat) (s : State) : RegsOnly s (stretch g s) := by
  unfold stretch
  split
  · exact RegsOnly.refl s
  · exact ((RegsOnly.refl s).wr fStretch g 1).bump fDroops g 1

/-- A stretch counts one droop where none was under way (R483). -/
theorem stretch_spec (g : Nat) (s : State) : rdb (stretch g s) fStretch g = true
    ∧ rd (stretch g s) fDroops g = if rdb s fStretch g then rd s fDroops g else min (rd s fDroops g + 1) 65535 := by
  unfold stretch
  by_cases h : rdb s fStretch g = true
  · simp [h]
  · rw [if_neg h, if_neg h]
    have hkept : rd (wr fStretch g 1 s) fDroops g = rd s fDroops g := rd_wr_beside ..
    exact ⟨congrArg (· == 1) ((rd_bump_beside ..).trans (rd_wr_field ..)), (rd_bump_field ..).trans (by rw [hkept]; rfl)⟩

theorem stretch_other {g n : Nat} (h : n ≠ g) (s : State) :
    rdb (stretch g s) fStretch n = rdb s fStretch n ∧ rd (stretch g s) fDroops n = rd s fDroops n := by
  unfold stretch
  split
  · exact ⟨rfl, rfl⟩
  · have kept {q : Fld} (hq : q.reg = .grvPstat) : rd (bump fDroops g 1 (wr fStretch g 1 s)) q n = rd s q n :=
      (rd_wr_pstat_ne (f := fDroops) rfl hq h _ _).trans (rd_wr_pstat_ne (f := fStretch) rfl hq h _ _)
    exact ⟨congrArg (· == 1) (kept rfl), kept rfl⟩

theorem kNow_stretch (g n : Nat) (s : State) : rd (stretch g s) fKNow n = rd s fKNow n := by
  unfold stretch
  split
  · rfl
  · exact (rd_wr_pstat (f := fDroops) rfl rfl (by decide) (.inl (by decide)) ..).trans
      (rd_wr_pstat (f := fStretch) rfl rfl (by decide) (.inl (by decide)) ..)

/-- What a rail's current limit does to one grove. -/
def railStretch (g : Nat) (s : State) : State := stretch g (modPw g (fun p => { p with rail := true }) s)

/-- What a rail's current limit has done to a grove, and to every other. -/
structure RailMarked (s t : State) (g : Nat) : Prop where
  stretch : rdb t fStretch g = true
  pw : pwGrove t g = { pwGrove s g with rail := true }
  droops : rd t fDroops g = if rdb s fStretch g then rd s fDroops g else min (rd s fDroops g + 1) 65535

structure RailKept (s t : State) (g : Nat) : Prop where
  stretch : rdb t fStretch g = rdb s fStretch g
  droops : rd t fDroops g = rd s fDroops g
  pw : pwGrove t g = pwGrove s g

theorem railStretch_marked (g : Nat) (s : State) : RailMarked s (railStretch g s) g := by
  obtain ⟨hstretch, hdroops⟩ := stretch_spec g (modPw g (fun p => { p with rail := true }) s)
  refine ⟨hstretch, ?_, ?_⟩
  · rw [railStretch, (stretch_regs g _).pwGrove, pwGrove_modPw_same]
  · rw [railStretch, hdroops, rdb_modPw, rd_modPw]

theorem railStretch_kept {g n : Nat} (h : n ≠ g) (s : State) : RailKept s (railStretch g s) n := by
  obtain ⟨hstretch, hdroops⟩ := stretch_other h (modPw g (fun p => { p with rail := true }) s)
  refine ⟨hstretch.trans (rdb_modPw ..), hdroops.trans (rd_modPw ..), ?_⟩
  rw [railStretch, (stretch_regs g _).pwGrove, pwGrove_modPw_other _ _ h]

theorem RailKept.marked {s t u : State} {g : Nat} (h1 : RailKept s t g) (h2 : RailMarked t u g) : RailMarked s u g :=
  ⟨h2.stretch, by rw [h2.pw, h1.pw], by rw [h2.droops, h1.stretch, h1.droops]⟩

theorem RailKept.trans {s t u : State} {g : Nat} (h1 : RailKept s t g) (h2 : RailKept t u g) : RailKept s u g :=
  ⟨h2.stretch.trans h1.stretch, h2.droops.trans h1.droops, h2.pw.trans h1.pw⟩

/-- A grove counts one droop however often the rail names it. -/
theorem RailMarked.marked {s t u : State} {g : Nat} (h1 : RailMarked s t g) (h2 : RailMarked t u g) : RailMarked s u g :=
  ⟨h2.stretch, by rw [h2.pw, h1.pw], by rw [h2.droops, if_pos h1.stretch, h1.droops]⟩

theorem RailMarked.kept {s t u : State} {g : Nat} (h1 : RailMarked s t g) (h2 : RailKept t u g) : RailMarked s u g :=
  ⟨h2.stretch.trans h1.stretch, h2.pw.trans h1.pw, h2.droops.trans h1.droops⟩

/-- RAIL_CURRENT_TRIP, grove by grove. -/
theorem railTrip_spec (fed : List Grove) (s : State) (g : Grove) :
    let t := fed.foldl (fun (t : State) (g : Grove) => railStretch g t) s
    (g ∈ fed → RailMarked s t g) ∧ (g ∉ fed → RailKept s t g) := by
  induction fed generalizing s with
  | nil => exact ⟨fun h => absurd h (by simp), fun _ => ⟨rfl, rfl, rfl⟩⟩
  | cons n fed ih =>
    obtain ⟨hin, hout⟩ := ih (railStretch n s)
    rw [List.foldl_cons]
    by_cases hgn : g = n
    · subst hgn
      have hfirst := railStretch_marked g s
      by_cases hmem : g ∈ fed
      · exact ⟨fun _ => hfirst.marked (hin hmem), fun h => absurd (by simp) h⟩
      · exact ⟨fun _ => hfirst.kept (hout hmem), fun h => absurd (by simp) h⟩
    · have hfirst := railStretch_kept (g := n) (n := g) (fun h => hgn (Fin.ext h)) s
      refine ⟨fun h => hfirst.marked (hin ?_), fun h => hfirst.trans (hout ?_)⟩
      · exact (List.mem_cons.mp h).resolve_left hgn
      · exact fun hmem => h (List.mem_cons_of_mem _ hmem)

theorem railTrip_only (fed : List Grove) (s : State) :
    PwOnly s (fed.foldl (fun (t : State) (g : Grove) => railStretch g t) s) := by
  induction fed generalizing s with
  | nil => exact PwOnly.refl s
  | cons n fed ih => exact ((PwOnly.modPw n _ s).trans (stretch_regs n _).pwOnly).trans (ih _)

/-- The state when a grove's stretch ends, before its voltage follows. -/
def unstretched (g : Nat) (s : State) : State :=
  wr fStretch g 0 (modPw g (fun p => { p with droop := false, rail := false }) s)

theorem exec_stretchEnd (s : State) (g : Grove) (h : rdb s fStretch g = true) :
    exec (.stretchEnd g) s = .next (if (pwGrove s g).rail = true then setVolt g (unstretched g s) else unstretched g s) := by
  change execStretchEnd g s = _
  simp only [execStretchEnd, h, Bool.not_true, Bool.false_eq_true, if_false]
  rfl

theorem unstretched_spec (g : Nat) (s : State) : rdb (unstretched g s) fStretch g = false
    ∧ rd (unstretched g s) fDroops g = rd s fDroops g ∧ rd (unstretched g s) fKNow g = rd s fKNow g
    ∧ pwGrove (unstretched g s) g = { pwGrove s g with droop := false, rail := false }
    ∧ guardLevel (unstretched g s) g = guardLevel s g := by
  have hpw : pwGrove (unstretched g s) g = { pwGrove s g with droop := false, rail := false } := (pwGrove_wr ..).trans (pwGrove_modPw_same ..)
  refine ⟨congrArg (· == 1) (rd_wr_field ..), (rd_wr_beside ..).trans (rd_modPw ..), (rd_wr_beside ..).trans (rd_modPw ..), hpw, ?_⟩
  exact guardLevel_congr ((gladeOn_wr_pstat rfl ..).trans (gladeOn_modPw ..)) (by rw [hpw])

theorem unstretched_only (g : Nat) (s : State) : PwOnly s (unstretched g s) :=
  (PwOnly.modPw g _ s).trans ((RegsOnly.refl _).wr fStretch g 0).pwOnly

/-- Settles O50: the divider's step toward its ceiling, and the stretches and holds of a grove's clock. -/
theorem clocksStepStretchAndHold : Obligations.ClocksStepStretchAndHold := by
  refine ⟨?freq, ?droop, ?rail, ?stretchEnd, ?holdEnd⟩
  case freq =>
    intro s g k top
    rw [exec_freqDecision]
    refine ⟨fun hno => by rw [if_pos hno], fun hrun => ?_⟩
    rw [if_neg (by simp [hrun])]
    have htop : targetK s g = top := rfl
    have hk : k < 64 := rd_lt s fKNow g
    have hlt : top < 64 := Nat.lt_of_le_of_lt (Nat.min_le_left ..) (ceilK_lt s g)
    by_cases heq : k = top
    · rw [if_pos (heq.trans htop.symm)]
      refine ⟨_, rfl, fun _ => ?_, fun hne => absurd heq hne, fun hne => absurd heq hne, fun n hn => ⟨?_, ?_⟩, ?_⟩
      · rw [kNow_policy, rd_setVolt]
      · rw [(policy_regs g _).pwGrove, setVolt, pwGrove_modPw_other _ _ (fun h => hn (Fin.ext h))]
      · rw [kNow_policy, rd_setVolt]
      · exact ((setVolt_only g s).trans (policy_regs g _).pwOnly).frame
    · rw [if_neg (fun h => heq (h.trans htop))]
      by_cases hheld : (pwGrove s g).droop = true ∨ (pwGrove s g).held = true
      · rw [if_pos hheld]
        have hkept (n : Nat) : rd (wr fPending g 1 s) fKNow n = rd s fKNow n :=
          rd_wr_pstat (f := fPending) rfl rfl (by decide) (.inl (by decide)) g 1 n s
        refine ⟨_, rfl, fun h => absurd h heq, fun _ _ => ⟨hkept g, congrArg (· == 1) (rd_wr_field ..)⟩, fun _ hd hh => ?_,
          fun n _ => ⟨rfl, hkept n⟩, rfl⟩
        rw [hd, hh] at hheld
        simp at hheld
      · rw [if_neg hheld]
        obtain ⟨hmoves, hup, hdown, hmax⟩ := stepK_spec (t := targetK s g) (fun h => heq (h.trans htop))
        have hstep : stepK (rd s fKNow g) (targetK s g) < 64 := Nat.lt_of_le_of_lt hmax (max_lt hk (htop ▸ hlt))
        have hnow := kNow_setK (s := s) (g := g) hstep
        refine ⟨_, rfl, fun h => absurd h heq, fun _ h => absurd h hheld, fun _ _ _ => ⟨?_, ?_, ?_, ?_, ?_⟩, fun n hn => ⟨?_, ?_⟩, ?_⟩
        · rw [hnow]
          exact hmoves
        · rw [hnow]
          exact hup
        · rw [hnow]
          exact hdown
        · rw [hnow]
          exact pwGrove_setK hstep
        · rw [hnow]
          exact setK_above hstep
        · exact pwGrove_setK_other (fun h => hn (Fin.ext h))
        · exact kNow_setK_other (fun h => hn (Fin.ext h))
        · exact setK_only.frame
  case droop =>
    intro s g
    obtain ⟨hstretch, hdroops⟩ := stretch_spec g (modPw g (fun p => { p with droop := true, held := true }) s)
    refine ⟨_, rfl, hstretch, ?_, ?_, (kNow_stretch ..).trans (rd_modPw ..), fun n hn => ?_, ?_⟩
    · rw [hdroops, rdb_modPw, rd_modPw]
    · rw [(stretch_regs g _).pwGrove, pwGrove_modPw_same]
    · have hne : n.val ≠ g.val := fun h => hn (Fin.ext h)
      obtain ⟨hother, -⟩ := stretch_other hne (modPw g (fun p => { p with droop := true, held := true }) s)
      exact ⟨((stretch_regs g _).pwGrove n).trans (pwGrove_modPw_other _ _ hne), hother.trans (rdb_modPw ..)⟩
    · exact ((PwOnly.modPw g _ s).trans (stretch_regs g _).pwOnly).frame
  case rail =>
    intro s fed
    refine ⟨_, rfl, (railTrip_only fed s).frame, fun g => ?_⟩
    obtain ⟨hin, hout⟩ := railTrip_spec fed s g
    exact ⟨fun h => ⟨(hin h).stretch, (hin h).pw, (hin h).droops⟩, fun h => ⟨(hout h).stretch, (hout h).droops, (hout h).pw⟩⟩
  case stretchEnd =>
    intro s g
    refine ⟨fun hno => ?_, fun hyes => ?_⟩
    · change execStretchEnd g s = _
      simp only [execStretchEnd, hno, Bool.not_false, if_true]
    · obtain ⟨hoff, hdroops, hknow, hpw, hguard⟩ := unstretched_spec g s
      rw [exec_stretchEnd s g hyes]
      by_cases hrail : (pwGrove s g).rail = true
      · rw [if_pos hrail, if_pos hrail]
        refine ⟨_, rfl, (congrArg (· == 1) (rd_setVolt ..)).trans hoff, (rd_setVolt ..).trans hdroops,
          ((unstretched_only g s).trans (setVolt_only g _)).frame, ?_⟩
        rw [setVolt, pwGrove_modPw_same, hpw, hguard, hknow]
        rfl
      · rw [if_neg hrail, if_neg hrail]
        exact ⟨_, rfl, hoff, hdroops, (unstretched_only g s).frame, hpw⟩
  case holdEnd =>
    intro s g
    change (_ → execStepHoldEnd g s = _) ∧ (_ → ∃ t, execStepHoldEnd g s = _ ∧ _)
    rw [execStepHoldEnd]
    refine ⟨fun hdroop => by rw [if_pos hdroop], fun hno => ?_⟩
    rw [if_neg (by simp [hno])]
    exact ⟨_, rfl, congrArg (· == 1) (rd_wr_field ..), (pwGrove_wr ..).trans (pwGrove_modPw_same ..),
      ((PwOnly.modPw g _ s).trans ((RegsOnly.refl _).wr fPending g 0).pwOnly).frame⟩

end Sys2Proof.Machine
end

section
/-! #### Torus ports: training, resizing and failing (spec/11 R365 to R369, R387) -/

namespace Sys2Proof.Machine

theorem tport_modPort_other {p q : Nat} (f : TorusPort → TorusPort) (s : State) (h : q ≠ p) : tport (modPort p f s) q = tport s q := by
  simp [tport, modPort, tget_tset_other _ _ _ _ _ h]

theorem rd_modPort (p : Nat) (f : TorusPort → TorusPort) (s : State) (q : Fld) (i : Nat) : rd (modPort p f s) q i = rd s q i :=
  rd_congr rfl rfl q i

theorem regRead_modPort (p : Nat) (f : TorusPort → TorusPort) (s : State) (k : RegKind) (i : Nat) :
    regRead (modPort p f s) k i = regRead s k i := regRead_congr rfl rfl k i

theorem RegsOnly.time {s t : State} (h : RegsOnly s t) : t.time = s.time := by
  obtain ⟨r, rfl⟩ := h
  rfl

theorem RegsOnly.tport {s t : State} (h : RegsOnly s t) (n : Nat) : tport t n = tport s n := by
  obtain ⟨r, rfl⟩ := h
  rfl

/-- The registers of the torus ports lie apart from one another and from TOR_ID. -/
theorem off_tp (i j : Nat) : RegKind.tpCtl.off i ≠ RegKind.tpStat.off j ∧ RegKind.tpCnt.off i ≠ RegKind.tpStat.off j
    ∧ RegKind.tpCtl.off i ≠ RegKind.tpCnt.off j ∧ RegKind.torId.off 0 ≠ RegKind.tpCtl.off j ∧ RegKind.tpStat.off i ≠ RegKind.tpCtl.off j
    ∧ RegKind.tpStat.off i ≠ RegKind.tpCnt.off j := by
  simp only [RegKind.off_tpCtl, RegKind.off_tpStat, RegKind.off_tpCnt, RegKind.off_torId]
  omega

/-! #### Going down -/

/-- A field of a port's registers that its loss leaves. -/
theorem rd_portLose_other {q : Fld} {p : Nat} (hquiet : PeerQuiet q.reg p) (s : State) : rd (portLose p s) q p = rd (portDown p s) q p :=
  congrArg (bits · _ _) (regRead_peerLostOp hquiet ..)

theorem peerQuiet_tpCnt (p : Nat) (h : p < 6) : PeerQuiet .tpCnt p := by
  refine ⟨⟨?_, fun n => ?_⟩, ?_, ?_⟩ <;> simp only [RegKind.off_tpCnt, RegKind.off_logPtr, RegKind.off_faultQ, RegKind.off_coll, RegKind.off_plStat] <;> omega

theorem portLose_down {p : Nat} (hp : p < 6) (s : State) :
    portState (portLose p s) p = 5 ∧ rd (portLose p s) fWidth p = 0 ∧ rd (portLose p s) fGroups p = 0 := by
  have hquiet := peerQuiet_tpStat p hp
  refine ⟨?_, ?_, ?_⟩
  · exact (portState_portLose hp s).trans (if_pos rfl)
  · exact (rd_portLose_other hquiet s).trans ((rd_wr_beside ..).trans (rd_wr_field ..))
  · exact (rd_portLose_other hquiet s).trans ((rd_wr_beside ..).trans ((rd_wr_beside ..).trans (rd_wr_field ..)))

theorem laneBad_portLose {p : Nat} (hp : p < 6) (s : State) : rd (portLose p s) fLaneBad p = rd s fLaneBad p :=
  (rd_portLose_other (peerQuiet_tpStat p hp) s).trans ((rd_wr_beside ..).trans ((rd_wr_beside ..).trans (rd_wr_beside ..)))

theorem uncorr_portLose {p : Nat} (hp : p < 6) (s : State) : rd (portLose p s) fUncorr p = rd s fUncorr p :=
  have hoff := (off_tp p p).2.1
  (rd_portLose_other (peerQuiet_tpCnt p hp) s).trans
    ((rd_wr_other _ _ hoff).trans ((rd_wr_other _ _ hoff).trans (rd_wr_other _ _ hoff)))

/-- A port whose limit has passed in its state goes down, and no other does (R368, R369). -/
theorem portLimit {p : Nat} (hp : p < 6) {st since lim : Nat} (s : State) :
    (portState s p ≠ st ∨ s.time < since + lim →
      (if portState s p = st ∧ since + lim ≤ s.time then portLose p s else s) = s)
    ∧ (portState s p = st → since + lim ≤ s.time →
      ∃ t : State, (if portState s p = st ∧ since + lim ≤ s.time then portLose p s else s) = t
        ∧ portState t p = 5 ∧ rd t fWidth p = 0 ∧ rd t fGroups p = 0) := by
  refine ⟨fun h => if_neg ?_, fun hst hlim => ⟨_, if_pos ⟨hst, hlim⟩, portLose_down hp s⟩⟩
  rintro ⟨h1, h2⟩
  rcases h with h | h
  · exact h h1
  · omega

/-! #### Widths -/

theorem healthyGroups_congr {s t : State} {p : Nat} (hbad : rd t fLaneBad p = rd s fLaneBad p)
    (hfence : rd t fGroupFence p = rd s fGroupFence p) (hport : (tport t p).badGroups = (tport s p).badGroups) :
    healthyGroups t p = healthyGroups s p := by
  unfold healthyGroups groupHealthy
  rw [hbad, hfence, hport]

theorem groupMask_lt (s : State) (p n : Nat) : groupMask ((healthyGroups s p).take n) < 16 := by
  have hsub : ((healthyGroups s p).take n).Sublist (List.range 4) := (List.take_sublist ..).trans List.filter_sublist
  have hle := (hsub.map fun n => 2 ^ n).sum_le_sum (fun _ _ => Nat.zero_le _)
  exact Nat.lt_of_le_of_lt hle (by decide)

theorem widthFor_lt (n : Nat) : widthFor n < 4 := by
  unfold widthFor
  split_ifs <;> decide

/-- A width set: the lowest healthy groups. -/
theorem setWidth_spec {p w : Nat} (hw : w < 4) (s : State) : rd (setWidth p w s) fWidth p = w
    ∧ rd (setWidth p w s) fGroups p = groupMask ((healthyGroups s p).take (widthGroups w)) ∧ RegsOnly s (setWidth p w s) := by
  refine ⟨?_, ?_, ((RegsOnly.refl s).wr fGroups p _).wr fWidth p w⟩
  · exact (rd_wr_field ..).trans (Nat.mod_eq_of_lt hw)
  · exact (rd_wr_beside ..).trans ((rd_wr_field ..).trans (Nat.mod_eq_of_lt (groupMask_lt ..)))

/-! #### The write of TP_CTL -/

/-- A port that starts to train. -/
theorem startTrain_spec (p : Nat) (s : State) :
    portState (startTrain p s) p = 1 ∧ rd (startTrain p s) fWidth p = 0 ∧ rd (startTrain p s) fGroups p = 0
      ∧ rd (startTrain p s) fLaneBad p = 0 ∧ rdb (startTrain p s) fRetrain p = false
      ∧ rdb (startTrain p s) fTpCtlEn p = rdb s fTpCtlEn p ∧ tport (startTrain p s) p = { TorusPort.reset with since := s.time } := by
  have hoff := (off_tp p p).1
  refine ⟨?_, ?_, ?_, ?_, ?_, ?_, tport_modPort_same ..⟩
  · exact (rd_modPort ..).trans (rd_wr_field ..)
  · exact (rd_modPort ..).trans ((rd_wr_beside ..).trans ((rd_wr_other _ _ (off_tp p p).2.2.2.2.1).trans (rd_wr_field ..)))
  · exact (rd_modPort ..).trans ((rd_wr_beside ..).trans ((rd_wr_other _ _ (off_tp p p).2.2.2.2.1).trans
      ((rd_wr_beside ..).trans (rd_wr_field ..))))
  · exact (rd_modPort ..).trans ((rd_wr_beside ..).trans ((rd_wr_other _ _ (off_tp p p).2.2.2.2.1).trans
      ((rd_wr_beside ..).trans ((rd_wr_beside ..).trans (rd_wr_field ..)))))
  · exact congrArg (· == 1) ((rd_modPort ..).trans ((rd_wr_other _ _ hoff).trans (rd_wr_field ..)))
  · exact congrArg (· == 1) ((rd_modPort ..).trans ((rd_wr_other _ _ hoff).trans ((rd_wr_beside ..).trans
      ((rd_wr_other _ _ hoff).trans ((rd_wr_other _ _ hoff).trans (rd_wr_other _ _ hoff))))))

theorem startTrain_other {p q : Nat} (h : q ≠ p) (s : State) :
    tport (startTrain p s) q = tport s q ∧ regRead (startTrain p s) .tpStat q = regRead s .tpStat q := by
  have hstat := off_tpStat h
  have hctl := (off_tp q p).2.2.2.2.1
  refine ⟨tport_modPort_other _ _ h, (regRead_modPort ..).trans ?_⟩
  rw [regRead_wr_other _ _ hstat, regRead_wr_other _ _ hctl, regRead_wr_other _ _ hstat, regRead_wr_other _ _ hstat,
    regRead_wr_other _ _ hstat]

/-- Only the registers and the ports differ. -/
def PortsOnly (s t : State) : Prop := ∃ r q, t = { s with regs := r, ports := q }

theorem PortsOnly.frame {s t : State} (h : PortsOnly s t) : t = { s with regs := t.regs, ports := t.ports } := by
  obtain ⟨r, q, rfl⟩ := h
  rfl

theorem RegsOnly.modPort {s t : State} (h : RegsOnly s t) (p : Nat) (f : TorusPort → TorusPort) : PortsOnly s (modPort p f t) := by
  obtain ⟨r, rfl⟩ := h
  exact ⟨r, _, rfl⟩

theorem startTrain_only {s t : State} (h : RegsOnly s t) (p : Nat) : PortsOnly s (startTrain p t) :=
  (((((h.wr fLaneBad p 0).wr fGroups p 0).wr fWidth p 0).wr fRetrain p 0).wr fState p 1).modPort p _

theorem darkPort_spec (p : Nat) (s : State) :
    portState (darkPort p s) p = 0 ∧ rd (darkPort p s) fWidth p = 0 ∧ tport (darkPort p s) p = TorusPort.reset :=
  ⟨(rd_modPort ..).trans (rd_wr_field ..), (rd_modPort ..).trans ((rd_wr_beside ..).trans (rd_wr_field ..)), tport_modPort_same ..⟩

theorem darkPort_only {s t : State} (h : RegsOnly s t) (p : Nat) : PortsOnly s (darkPort p t) :=
  (((h.wr fGroups p 0).wr fWidth p 0).wr fState p 0).modPort p _

theorem aloneOn_congr {s t : State} (h : regRead t .torId 0 = regRead s .torId 0) (p : Nat) : aloneOn t p = aloneOn s p := by
  have kept {f : Fld} (hf : f.reg = .torId) : rd t f 0 = rd s f 0 := by rw [rd, rd, hf, h]
  have hdims : dims t = dims s := by rw [dims, kept rfl, kept rfl, kept rfl, dims]
  rw [aloneOn, rdb, kept rfl, hdims, aloneOn, rdb]

theorem bits_one_eq (v i : Nat) : (bits v i 1 == 1) = bit v i := rfl

theorem testBit_eq_bit (v i : Nat) : v.testBit i = bit v i := by
  simp [bit, Nat.testBit, Nat.shiftRight_eq_div_pow, Nat.and_comm 1]

/-- TP_CTL after SCH's whole write. -/
theorem tpCtl_put {s : State} {p : TPort} {w : RegWr} (hsch : w.path = .sch) (hfull : w.part = .full) :
    let s1 := (regPut .tpCtl p w s).1
    rdb s1 fTpCtlEn p = bit w.val.toNat 0 ∧ (bit w.val.toNat 3 = true → rdb s1 fRetrain p = true)
      ∧ (∀ q, regRead s1 .tpStat q = regRead s .tpStat q) ∧ aloneOn s1 p = aloneOn s p := by
  intro s1
  refine ⟨?_, fun h => ?_, fun q => ?_, ?_⟩
  · exact congrArg (· == 1) (rd_regPut_full hfull (.inl hsch) (f := fTpCtlEn) (k := .tpCtl) (by decide))
  · exact rdb_regPut_w1s hfull (.inl hsch) (f := fRetrain) (k := .tpCtl) (by decide) rfl rfl (by rw [testBit_eq_bit]; exact h)
  · exact regRead_regPut_other hfull (.inl hsch) (off_tp q p).2.2.2.2.1
  · exact aloneOn_congr (regRead_regPut_other hfull (.inl hsch) (off_tp p p).2.2.2.1) p

/-- What TP_CTL's write does then. -/
theorem tpCtlWrite_eq {s : State} {p : TPort} {w : RegWr} (hsch : w.path = .sch) (hfull : w.part = .full) :
    tpCtlWrite p w s = (let s1 := (regPut .tpCtl p w s).1
      if aloneOn s p then wr fRetrain p 0 s1
      else if !rdb s fTpCtlEn p && bit w.val.toNat 0 then startTrain p s1
      else if rdb s fTpCtlEn p && !bit w.val.toNat 0 then darkPort p s1
      else if rdb s1 fRetrain p && (portState s p == 0 || portState s p == 5) then startTrain p s1
      else s1) := by
  obtain ⟨hen, -, hstat, halone⟩ := tpCtl_put (s := s) (p := p) hsch hfull
  have hput : regPut .tpCtl p w s = ((regPut .tpCtl p w s).1, true) := by rw [regPut_full hfull (.inl hsch)]
  have hstate : portState (regPut .tpCtl p w s).1 p = portState s p := congrArg (bits · _ _) (hstat p)
  rw [tpCtlWrite, hput]
  simp only [hen, halone, hstate]

theorem tpEnable_cases {s : State} {p : TPort} {w : RegWr} {i : Instr} (hi : i = .tpEnable p w ∨ i = .tpRetrain p w) :
    exec i s = .next (tpCtlWrite p w s) := by
  rcases hi with rfl | rfl <;> rfl

/-! #### Lane verdicts -/

/-- The state once a verdict on a lane is recorded. -/
def verdict (p : TPort) (lane : Fin 16) (why : LaneFault) (s : State) : State :=
  wr fLaneBad p (Nat.lor (rd (if why = .uncorrectable then bump fUncorr p 4 s else s) fLaneBad p) (2 ^ lane.val))
    (if why = .uncorrectable then bump fUncorr p 4 s else s)

theorem verdict_regs (p : TPort) (lane : Fin 16) (why : LaneFault) (s : State) : RegsOnly s (verdict p lane why s) := by
  unfold verdict
  split
  · exact ((RegsOnly.refl s).bump fUncorr p 4).wr fLaneBad p _
  · exact (RegsOnly.refl s).wr fLaneBad p _

theorem verdict_spec (p : TPort) (lane : Fin 16) (why : LaneFault) (s : State) :
    rd (verdict p lane why s) fLaneBad p = Nat.lor (rd s fLaneBad p) (2 ^ lane.val)
      ∧ rd (verdict p lane why s) fUncorr p = (if why = .uncorrectable then min (rd s fUncorr p + 4) 65535 else rd s fUncorr p)
      ∧ portState (verdict p lane why s) p = portState s p ∧ rd (verdict p lane why s) fGroups p = rd s fGroups p
      ∧ rd (verdict p lane why s) fGroupFence p = rd s fGroupFence p := by
  have hlt : Nat.lor (rd s fLaneBad p) (2 ^ lane.val) < 2 ^ 16 :=
    Nat.or_lt_two_pow (rd_lt s fLaneBad p) (Nat.pow_lt_pow_right (by decide) lane.isLt)
  have hstat := (off_tp p p).2.2.2.2.2
  have hcnt := (off_tp p p).2.1
  have hctl := (off_tp p p).1
  unfold verdict
  by_cases h : why = .uncorrectable
  · simp only [if_pos h]
    have hbad : rd (bump fUncorr p 4 s) fLaneBad p = rd s fLaneBad p := rd_bump_other _ _ _ _ _ hstat
    rw [hbad]
    refine ⟨?_, ?_, ?_, ?_, ?_⟩
    · exact (rd_wr_field ..).trans (Nat.mod_eq_of_lt hlt)
    · exact (rd_wr_other _ _ hcnt).trans (rd_bump_field ..)
    · exact (rd_wr_beside ..).trans (rd_bump_other _ _ _ _ _ hstat)
    · exact (rd_wr_beside ..).trans (rd_bump_other _ _ _ _ _ hstat)
    · exact (rd_wr_other _ _ hctl).trans (rd_bump_other _ _ _ _ _ (off_tp p p).2.2.1)
  · simp only [if_neg h]
    refine ⟨?_, ?_, ?_, ?_, ?_⟩
    · exact (rd_wr_field ..).trans (Nat.mod_eq_of_lt hlt)
    · exact rd_wr_other _ _ hcnt
    · exact rd_wr_beside ..
    · exact rd_wr_beside ..
    · exact rd_wr_other _ _ hctl

theorem bits_eq_zero_iff (v lo w : Nat) : bits v lo w = 0 ↔ ∀ i < w, v.testBit (lo + i) = false := by
  refine ⟨fun h i hi => ?_, fun h => Nat.eq_of_testBit_eq fun i => ?_⟩
  · have hb := congrArg (·.testBit i) h
    simpa [testBit_bits, hi] using hb
  · rw [testBit_bits, Nat.zero_testBit]
    by_cases hi : i < w
    · rw [h i hi, Bool.and_false]
    · simp [hi]

theorem testBit_lor_pow (v k i : Nat) : (Nat.lor v (2 ^ k)).testBit i = (v.testBit i || decide (k = i)) := by
  change (v ||| 2 ^ k).testBit i = _
  rw [Nat.testBit_or, Nat.testBit_two_pow]

/-- The groups that a verdict leaves healthy: those of the other lanes. -/
theorem groupHealthy_verdict (p : TPort) (lane : Fin 16) (why : LaneFault) (s : State) {n : Nat} (hn : n < 4) :
    groupHealthy (verdict p lane why s) p n = (decide (n ≠ lane.val / 4) && groupHealthy s p n) := by
  obtain ⟨hbad, -, -, -, hfence⟩ := verdict_spec p lane why s
  have hport : tport (verdict p lane why s) p = tport s p := (verdict_regs p lane why s).tport p
  have hlane := lane.isLt
  have hbits : (bits (Nat.lor (rd s fLaneBad p) (2 ^ lane.val)) (4 * n) 4 == 0)
      = (decide (n ≠ lane.val / 4) && (bits (rd s fLaneBad p) (4 * n) 4 == 0)) := by
    rw [Bool.eq_iff_iff]
    simp only [beq_iff_eq, Bool.and_eq_true, decide_eq_true_eq, bits_eq_zero_iff, testBit_lor_pow, Bool.or_eq_false_iff,
      decide_eq_false_iff_not]
    refine ⟨fun h => ⟨?_, fun i hi => (h i hi).1⟩, fun ⟨hne, h⟩ i hi => ⟨h i hi, by omega⟩⟩
    rintro rfl
    exact (h (lane.val % 4) (by omega)).2 (by omega)
  unfold groupHealthy
  rw [hbad, hfence, hport, hbits]
  simp only [Bool.and_assoc]

theorem exec_laneBadVerdict {p : TPort} {lane : Fin 16} {why : LaneFault} {s : State} (h : portLive s p = true) :
    exec (.laneBadVerdict p lane why) s = .next (
      if 3 ≤ portState s p ∧ bit (rd s fGroups p) (lane.val / 4) = true then beginResize p (verdict p lane why s)
      else verdict p lane why s) := by
  obtain ⟨-, -, hstate, hgroups, -⟩ := verdict_spec p lane why s
  change execLaneBadVerdict p lane why s = _
  simp only [execLaneBadVerdict, h, Bool.not_true, Bool.false_eq_true, if_false]
  rw [← verdict, hstate, hgroups]

theorem beginResize_cases {p : Nat} (s : State) :
    (healthyGroups s p = [] → beginResize p s = portLose p s)
    ∧ (healthyGroups s p ≠ [] → portState s p = 3 →
      beginResize p s = modPort p (fun r => { r with since := s.time }) (wr fState p 4 s))
    ∧ (healthyGroups s p ≠ [] → portState s p ≠ 3 → beginResize p s = s) := by
  unfold beginResize
  simp only [List.isEmpty_iff]
  refine ⟨fun h => if_pos h, fun h hst => ?_, fun h hst => ?_⟩
  · rw [if_neg h, if_pos hst]
  · rw [if_neg h, if_neg hst]

/-- A resize leaves the lanes' verdicts and the count of uncorrectable codewords. -/
theorem beginResize_kept {p : Nat} (hp : p < 6) (s : State) :
    rd (beginResize p s) fLaneBad p = rd s fLaneBad p ∧ rd (beginResize p s) fUncorr p = rd s fUncorr p := by
  obtain ⟨hlose, hup, hother⟩ := beginResize_cases (p := p) s
  by_cases h : healthyGroups s p = []
  · rw [hlose h]
    exact ⟨laneBad_portLose hp s, uncorr_portLose hp s⟩
  · by_cases hst : portState s p = 3
    · rw [hup h hst]
      exact ⟨(rd_modPort ..).trans (rd_wr_beside ..), (rd_modPort ..).trans (rd_wr_other _ _ (off_tp p p).2.1)⟩
    · rw [hother h hst]
      exact ⟨rfl, rfl⟩

theorem healthyGroups_ne_nil {s : State} {p : Nat} : healthyGroups s p ≠ [] ↔ ∃ n < 4, groupHealthy s p n = true := by
  simp [healthyGroups, List.filter_eq_nil_iff]

theorem healthyGroups_verdict (p : TPort) (lane : Fin 16) (why : LaneFault) (s : State) :
    healthyGroups (verdict p lane why s) p ≠ [] ↔ ∃ n < 4, n ≠ lane.val / 4 ∧ groupHealthy s p n = true := by
  rw [healthyGroups_ne_nil]
  refine exists_congr fun n => and_congr_right fun hn => ?_
  rw [groupHealthy_verdict p lane why s hn, Bool.and_eq_true, decide_eq_true_eq]

theorem bit_lor_pow (v k : Nat) : bit (Nat.lor v (2 ^ k)) k = true := by
  rw [← testBit_eq_bit, testBit_lor_pow]
  simp

/-! #### A finished resize -/

/-- The state in which a port resumes at a width. -/
def resumed (p : TPort) (w : Nat) (s : State) : State :=
  wr fState p 3 (setWidth p w (if w = rd s fWidth p then s else bump fResizes p 1 s))

theorem exec_torusResizeDone {p : TPort} {s : State} (hst : portState s p = 4) (htime : s.time ≤ (tport s p).since + 32000) :
    let w := min (widthFor (healthyGroups s p).length) (rd s fWidth p)
    (w = 0 → exec (.torusResizeDone p) s = .next (portLose p s))
    ∧ (w ≠ 0 → ∃ n, exec (.torusResizeDone p) s = .next (torusPump p n (portReplayAll p
      (modPort p (fun r => { r with goodSince := s.time }) (resumed p w s))))) := by
  intro w
  have hgo : ¬(portState s p ≠ 4 ∨ (tport s p).since + resizeLimit < s.time) := by
    rintro (h | h)
    · exact h hst
    · exact absurd htime (Nat.not_le.mpr h)
  change (_ → execTorusResizeDone p s = _) ∧ (_ → ∃ n, execTorusResizeDone p s = _)
  rw [execTorusResizeDone, if_neg hgo]
  refine ⟨fun h => congrArg Host.Outcome.next (if_pos h), fun h => ?_⟩
  exact ⟨_, congrArg Host.Outcome.next (if_neg h)⟩

theorem resumed_spec {p : TPort} {w : Nat} (hw : w < 4) (s : State) :
    portState (resumed p w s) p = 3 ∧ rd (resumed p w s) fWidth p = w
      ∧ rd (resumed p w s) fGroups p = groupMask ((healthyGroups s p).take (widthGroups w))
      ∧ rd (resumed p w s) fResizes p = if w = rd s fWidth p then rd s fResizes p else min (rd s fResizes p + 1) 255 := by
  have hcnt := (off_tp p p).2.1
  have hstat := (off_tp p p).2.2.2.2.2
  have hhealthy : healthyGroups (if w = rd s fWidth p then s else bump fResizes p 1 s) p = healthyGroups s p := by
    split_ifs
    · rfl
    · exact healthyGroups_congr (rd_bump_other _ _ _ _ _ hstat) (rd_bump_other _ _ _ _ _ (off_tp p p).2.2.1) rfl
  obtain ⟨hwidth, hgroups, -⟩ := setWidth_spec (p := p) hw (if w = rd s fWidth p then s else bump fResizes p 1 s)
  refine ⟨rd_wr_field .., ?_, ?_, ?_⟩
  · exact (rd_wr_beside ..).trans hwidth
  · exact (rd_wr_beside ..).trans (hgroups.trans (by rw [hhealthy]))
  · refine (rd_wr_other _ _ hcnt).trans ((rd_wr_other _ _ hcnt).trans ((rd_wr_other _ _ hcnt).trans ?_))
    split_ifs
    · rfl
    · exact rd_bump_field ..

/-- Settles O44: training, resizing, verdicts and limits of a torus port. -/
theorem torusPortsTrainResizeAndFail : Obligations.TorusPortsTrainResizeAndFail := by
  refine ⟨?ctl, ?trained, ?lane, ?resized, ?limits⟩
  case ctl =>
    intro s p w i hi hsch hfull en
    rw [tpEnable_cases hi, tpCtlWrite_eq hsch hfull]
    obtain ⟨hen, hretrain, hstat, -⟩ := tpCtl_put (s := s) (p := p) hsch hfull
    set s1 := (regPut .tpCtl p w s).1 with hs1
    have honly : RegsOnly s s1 := (RegsOnly.refl s).regPut .tpCtl p w
    have htime : s1.time = s.time := honly.time
    refine ⟨fun halone => ?_, fun halone hstart => ?_, fun halone hon hoff => ?_⟩
    · simp only [halone, if_true]
      refine ⟨_, rfl, (rdb_wr_beside ..).trans hen, congrArg (· == 1) (rd_wr_field ..), ?_, (honly.wr fRetrain p 0).frame⟩
      exact (rd_wr_other _ _ (off_tp p p).2.2.2.2.1).trans (congrArg (bits · _ _) (hstat p))
    · have heq : (if aloneOn s p then wr fRetrain p 0 s1
          else if !rdb s fTpCtlEn p && bit w.val.toNat 0 then startTrain p s1
          else if rdb s fTpCtlEn p && !bit w.val.toNat 0 then darkPort p s1
          else if rdb s1 fRetrain p && (portState s p == 0 || portState s p == 5) then startTrain p s1
          else s1) = startTrain p s1 := by
        rcases hstart with ⟨hold, hnew⟩ | ⟨hold, hnew, hbit, hst⟩
        · have hnew' : bit w.val.toNat 0 = true := hnew
          simp [halone, hold, hnew']
        · have hnew' : bit w.val.toNat 0 = true := hnew
          have hdown : (portState s p == 0 || portState s p == 5) = true := by simpa using hst
          simp [halone, hold, hnew', hretrain hbit, hdown]
      have hen1 : bit w.val.toNat 0 = true := hstart.elim (·.2) (·.2.1)
      obtain ⟨hstate, hwidth, hgroups, hbad, hre, henT, hport⟩ := startTrain_spec p s1
      refine ⟨_, congrArg Host.Outcome.next heq, hstate, hwidth, hgroups, hbad, hre, henT.trans (hen.trans hen1), ?_, fun q hq => ?_,
        (startTrain_only honly p).frame⟩
      · rw [hport, htime]
      · obtain ⟨hport', hstat'⟩ := startTrain_other (fun h => hq (Fin.ext h)) s1
        exact ⟨hport'.trans (honly.tport q), hstat'.trans (hstat q)⟩
    · have hoff' : bit w.val.toNat 0 = false := hoff
      obtain ⟨hstate, hwidth, hport⟩ := darkPort_spec p s1
      refine ⟨darkPort p s1, ?_, hstate, hwidth, hport, (darkPort_only honly p).frame⟩
      simp [halone, hon, hoff']
  case trained =>
    intro s p
    change (_ → execTorusTrainDone p s = _) ∧ (_ → _ → ∃ t, execTorusTrainDone p s = _ ∧ _)
    rw [execTorusTrainDone]
    simp only [List.isEmpty_iff]
    refine ⟨fun h => by rw [if_pos h], fun hst hhealthy => ?_⟩
    have hgo : ¬(portState s p ≠ 1 ∨ healthyGroups s p = []) := by
      rintro (h | h)
      · exact h hst
      · exact hhealthy h
    obtain ⟨hwidth, hgroups, honly⟩ := setWidth_spec (p := p) (widthFor_lt (healthyGroups s p).length) s
    rw [if_neg hgo]
    refine ⟨_, rfl, (rd_modPort ..).trans (rd_wr_field ..), (rd_modPort ..).trans ((rd_wr_beside ..).trans hwidth),
      (rd_modPort ..).trans ((rd_wr_beside ..).trans hgroups), ?_⟩
    rw [tport_modPort_same, (honly.wr fState p 2).tport]
    simp [portPut]
  case lane =>
    intro s p lane why
    refine ⟨fun h => ?_, fun hlive => ?_⟩
    · change execLaneBadVerdict p lane why s = _
      rw [execLaneBadVerdict, h]
      rfl
    · obtain ⟨hbad, huncorr, hstate, hgroups, -⟩ := verdict_spec p lane why s
      obtain ⟨hbad', huncorr'⟩ := beginResize_kept p.isLt (verdict p lane why s)
      have hset : bit (rd (verdict p lane why s) fLaneBad p) lane = true := by
        rw [hbad]
        exact bit_lor_pow ..
      refine ⟨_, exec_laneBadVerdict hlive, ?_, ?_, fun hout => ?_, fun hst hin => ?_⟩
      · split_ifs
        · rw [hbad']
          exact hset
        · exact hset
      · split_ifs <;> simp_all
      · rw [if_neg (by simp [hout])]
        exact hstate
      · obtain ⟨hlose, hup, -⟩ := beginResize_cases (p := p) (verdict p lane why s)
        rw [if_pos ⟨by omega, hin⟩]
        refine ⟨fun hsome => ?_, fun hnone => ?_⟩
        · rw [hup ((healthyGroups_verdict ..).mpr hsome) (hstate.trans hst)]
          refine ⟨(rd_modPort ..).trans (rd_wr_field ..), ?_⟩
          rw [tport_modPort_same]
          exact (verdict_regs p lane why s).time
        · have hempty : healthyGroups (verdict p lane why s) p = [] := by
            by_contra h
            obtain ⟨n, hn, hne, hg⟩ := (healthyGroups_verdict ..).mp h
            rw [hnone n hn hne] at hg
            cases hg
          rw [hlose hempty]
          obtain ⟨hdown, hwidth, -⟩ := portLose_down p.isLt (verdict p lane why s)
          exact ⟨hdown, hwidth⟩
  case resized =>
    intro s p
    refine ⟨fun h => ?_, fun hst htime => ?_⟩
    · change execTorusResizeDone p s = _
      rw [execTorusResizeDone]
      exact congrArg Host.Outcome.next (if_pos h)
    · intro w
      obtain ⟨hzero, hsome⟩ := exec_torusResizeDone hst htime
      by_cases hw : w = 0
      · obtain ⟨hdown, hwidth, -⟩ := portLose_down p.isLt s
        exact ⟨_, hzero hw, hwidth.trans hw.symm, hdown.trans (if_pos hw).symm, fun h => absurd hw h⟩
      · obtain ⟨n, hexec⟩ := hsome hw
        have hlt : w < 4 := Nat.lt_of_le_of_lt (Nat.min_le_left ..) (widthFor_lt _)
        obtain ⟨hstate, hwidth, hgroups, hresizes⟩ := resumed_spec (p := p) hlt s
        have hkept (q : Fld) : rd (torusPump p n (portReplayAll p (modPort p (fun r => { r with goodSince := s.time })
            (resumed p w s)))) q p = rd (resumed p w s) q p :=
          (torusPump_view (v := fun s => rd s q p) (fun _ _ => rfl) ..).trans ((rd_modPort ..).trans (rd_modPort ..))
        refine ⟨_, hexec, (hkept _).trans hwidth, (hkept _).trans (hstate.trans (if_neg hw).symm), fun _ => ⟨?_, ?_⟩⟩
        · exact (hkept _).trans hgroups
        · exact (hkept _).trans hresizes
  case limits =>
    rintro s p i st lim since (⟨rfl, rfl, rfl, rfl⟩ | ⟨rfl, rfl, rfl, rfl⟩ | ⟨rfl, rfl, rfl, rfl⟩)
    all_goals
      obtain ⟨hkeep, hdown⟩ := portLimit p.isLt s
      refine ⟨fun h => congrArg Host.Outcome.next (hkeep h), fun hst hlim => ?_⟩
      obtain ⟨t, ht, hspec⟩ := hdown hst hlim
      exact ⟨t, congrArg Host.Outcome.next ht, hspec⟩

end Sys2Proof.Machine
end

section
/-! SUPPORT. Loops over groves: an entry is changed by its own round only. -/

namespace Sys2Proof.Machine

section
variable {α β : Type} {f : State → α → State} {l : List α}

/-- A view that no round of a loop changes. -/
theorem foldl_keep {v : State → β} (h : ∀ t, ∀ a ∈ l, v (f t a) = v t) (s : State) : v (l.foldl f s) = v s := by
  induction l generalizing s with
  | nil => rfl
  | cons a l ih =>
    rw [List.foldl_cons, ih (fun t b hb => h t b (List.mem_cons_of_mem _ hb)), h s a (List.mem_cons_self ..)]

/-- A property that one round of a loop brings about and every round keeps. -/
theorem foldl_reach {Q : State → Prop} {a : α} (ha : a ∈ l) (hset : ∀ t, Q (f t a)) (hkeep : ∀ t, ∀ b ∈ l, Q t → Q (f t b)) (s : State) :
    Q (l.foldl f s) := by
  have keeps (l' : List α) (hl : ∀ b ∈ l', b ∈ l) (t : State) (ht : Q t) : Q (l'.foldl f t) := by
    induction l' generalizing t with
    | nil => exact ht
    | cons b l' ih =>
      rw [List.foldl_cons]
      exact ih (fun c hc => hl c (List.mem_cons_of_mem _ hc)) _ (hkeep t b (hl b (List.mem_cons_self ..)) ht)
  obtain ⟨pre, post, rfl⟩ := List.append_of_mem ha
  rw [List.foldl_append, List.foldl_cons]
  exact keeps post (fun b hb => by simp [hb]) _ (hset _)

end

/-- A view of one grove, in a loop over distinct groves whose other rounds leave it. -/
theorem foldl_own {β : Type} {f : State → Nat → State} {g : Nat} {v : State → β} {s : State} {b : β}
    (hother : ∀ t h, h ≠ g → v (f t h) = v t) (hown : ∀ t, v t = v s → v (f t g) = b) {l : List Nat} (hnodup : l.Nodup) :
    v (l.foldl f s) = if g ∈ l then b else v s := by
  suffices h : ∀ t, v t = v s → v (l.foldl f t) = if g ∈ l then b else v s from h s rfl
  induction l with
  | nil => exact fun t ht => ht
  | cons a l ih =>
    intro t ht
    obtain ⟨hnot, hnodup'⟩ := List.nodup_cons.mp hnodup
    rw [List.foldl_cons]
    by_cases hag : a = g
    · subst hag
      rw [if_pos (List.mem_cons_self ..), ← hown t ht]
      exact foldl_keep (fun u h hh => hother u h (fun e => hnot (e ▸ hh))) _
    · rw [ih hnodup' _ ((hother t a hag).trans ht)]
      simp [Ne.symm hag]

end Sys2Proof.Machine
end

section
/-! #### Caps, heat and PHASE windows (spec/15 R486 to R496; spec/16 R510) -/

namespace Sys2Proof.Machine

/-! #### The cap loop -/

/-- What the loops of PWR see of a grove: its state, its floor and its ceiling. -/
def capView (g : Nat) (s : State) : PwGrove × Nat × Nat := (pwGrove s g, floorK s g, ceilK s g)

theorem capView_modPw_other {g h : Nat} (f : PwGrove → PwGrove) (hne : g ≠ h) (s : State) : capView g (modPw h f s) = capView g s := by
  simp only [capView, pwGrove_modPw_other _ _ hne, floorK, ceilK, gladeOn_modPw, rd_modPw]

theorem capView_modPw_same (g : Nat) (f : PwGrove → PwGrove) (s : State) :
    capView g (modPw g f s) = (f (pwGrove s g), floorK s g, ceilK s g) := by
  simp only [capView, pwGrove_modPw_same, floorK, ceilK, gladeOn_modPw, rd_modPw]

/-- The registers of the package's power lie apart from those of a grove. -/
theorem off_pwStat (n : Nat) : RegKind.svCtl.off 0 ≠ RegKind.pwStat.off 0 ∧ RegKind.grvPctl.off n ≠ RegKind.pwStat.off 0
    ∧ RegKind.grvPstat.off n ≠ RegKind.pwStat.off 0 ∧ RegKind.pwCtl.off 0 ≠ RegKind.pwStat.off 0 := by
  simp only [RegKind.off_svCtl, RegKind.off_pwStat, RegKind.off_grvPctl, RegKind.off_grvPstat, RegKind.off_pwCtl]
  omega

theorem capView_wr_pwStat {f : Fld} (hf : f.reg = .pwStat) (v g : Nat) (s : State) : capView g (wr f 0 v s) = capView g s := by
  obtain ⟨hsv, hctl, -, -⟩ := off_pwStat g
  have sv {q : Fld} (hq : q.reg = .svCtl) : rd (wr f 0 v s) q 0 = rd s q 0 := rd_wr_other s v (by rw [hf, hq]; exact hsv)
  have ctl {q : Fld} (hq : q.reg = .grvPctl) : rd (wr f 0 v s) q g = rd s q g := rd_wr_other s v (by rw [hf, hq]; exact hctl)
  have hglade : gladeOn (wr f 0 v s) g = gladeOn s g := gladeOn_congr (congrArg (· == 1) (sv rfl)) (sv rfl) (sv rfl) g
  simp only [capView, pwGrove_wr, floorK, ceilK, hglade]
  rw [ctl (q := fFminK) rfl, ctl (q := fFmaxK) rfl, sv (q := fSvK) rfl]

theorem targetK_of_view {s t : State} {g : Nat} (h : capView g t = capView g s) : targetK t g = targetK s g := by
  obtain ⟨hpw, hrest⟩ := Prod.mk.inj h
  obtain ⟨-, hceil⟩ := Prod.mk.inj hrest
  rw [targetK, hpw, hceil, targetK]

/-- One grove's cap ceiling lowered, or raised. -/
def viewLower (v : PwGrove × Nat × Nat) : PwGrove × Nat × Nat :=
  ({ v.1 with capK := max 24 (min v.2.2 (min v.1.capK v.1.thermK) - 1) }, v.2)

def viewRaise (v : PwGrove × Nat × Nat) : PwGrove × Nat × Nat :=
  (if v.1.capK < min v.2.2 v.1.thermK then { v.1 with capK := v.1.capK + 1 } else v.1, v.2)

/-- Groves above their floors are lowered, and no other (R486). -/
theorem capLower_view {s : State} (hsome : ∃ g < 32, floorK s g < targetK s g) {g : Nat} (hg : g < 32) :
    capView g (capLower s) = if floorK s g < targetK s g then viewLower (capView g s) else capView g s := by
  have hne : ¬(allGroves.filter fun g => decide (floorK s g < targetK s g)).isEmpty = true := by
    obtain ⟨n, hn, hlt⟩ := hsome
    simp only [List.isEmpty_iff, List.filter_eq_nil_iff, allGroves, List.mem_range, decide_eq_true_eq, not_forall, not_not]
    exact ⟨n, hn, hlt⟩
  have hmem : g ∈ allGroves.filter (fun g => decide (floorK s g < targetK s g)) ↔ floorK s g < targetK s g := by
    simp [allGroves, hg]
  rw [capLower]
  simp only [if_neg hne]
  refine (foldl_own (g := g) (v := capView g) (b := viewLower (capView g s)) (fun t h hne => ?_) (fun t ht => ?_)
    (List.nodup_range.filter _)).trans ?_
  · exact capView_modPw_other _ hne.symm t
  · rw [← ht]
    exact capView_modPw_same g _ t
  · exact if_congr hmem rfl rfl

theorem capRaise_view (s : State) {g : Nat} (hg : g < 32) : capView g (capRaise s) = viewRaise (capView g s) := by
  unfold capRaise
  refine (foldl_own (g := g) (v := capView g) (b := viewRaise (capView g s)) (fun t h hne => ?_) (fun t ht => ?_)
    List.nodup_range).trans (if_pos (by simpa using hg))
  · simp only
    split
    · exact capView_modPw_other _ hne.symm t
    · rfl
  · obtain ⟨hpw, hrest⟩ := Prod.mk.inj ht
    by_cases hlow : (pwGrove s g).capK < min (ceilK s g) (pwGrove s g).thermK
    · have hview : viewRaise (capView g s) = ({ pwGrove s g with capK := (pwGrove s g).capK + 1 }, floorK s g, ceilK s g) :=
        Prod.ext (if_pos hlow) rfl
      simp only [if_pos hlow]
      exact (capView_modPw_same g _ t).trans (by rw [hview, hpw, hrest])
    · have hview : viewRaise (capView g s) = capView g s := Prod.ext (if_neg hlow) rfl
      simp only [if_neg hlow]
      exact ht.trans hview.symm

theorem capLoop_only (s : State) : PwOnly s (capLower s) ∧ PwOnly s (capRaise s) := by
  have fold {f : State → Nat → State} (hf : ∀ t g, PwOnly t (f t g)) (l : List Nat) (s : State) : PwOnly s (l.foldl f s) := by
    induction l generalizing s with
    | nil => exact PwOnly.refl s
    | cons a l ih => exact (hf s a).trans (ih _)
  refine ⟨fold (fun t g => PwOnly.modPw g _ t) _ s, fold (fun t g => ?_) _ s⟩
  simp only
  split
  · exact PwOnly.modPw g _ t
  · exact PwOnly.refl t

theorem regs_cap (s : State) : (capLower s).regs = s.regs ∧ (capRaise s).regs = s.regs := by
  refine ⟨foldl_keep (v := State.regs) (fun t g _ => ?_) s, foldl_keep (v := State.regs) (fun t g _ => ?_) s⟩
  · rfl
  · simp only
    split <;> rfl

/-- The state of CAP_LOOP before CAP_ACTIVE is written. -/
def capped (watts : Nat) (s : State) : State :=
  if rd s fPcap 0 < watts then capLower (wr fPNow 0 (min watts 4095) s)
  else if 100 * watts < 98 * rd s fPcap 0 then capRaise (wr fPNow 0 (min watts 4095) s) else wr fPNow 0 (min watts 4095) s

theorem exec_capLoop {s : State} (h : pwrRuns s 0 = true) (watts : Nat) : exec (.capLoop watts) s =
    .next (wr fCapActive 0 (bnat (decide (rd s fPcap 0 < watts) || capHolds (capped watts s))) (capped watts s)) := by
  change execCapLoop watts s = _
  simp only [execCapLoop, h, Bool.not_true, Bool.false_eq_true, if_false]
  rfl

theorem capped_only (watts : Nat) (s : State) : PwOnly s (capped watts s)
    ∧ rd (capped watts s) fPNow 0 = min watts 4095 := by
  have h0 : PwOnly s (wr fPNow 0 (min watts 4095) s) := ((RegsOnly.refl s).wr fPNow 0 _).pwOnly
  have hnow : rd (wr fPNow 0 (min watts 4095) s) fPNow 0 = min watts 4095 :=
    (rd_wr_field ..).trans (Nat.mod_eq_of_lt (Nat.lt_of_le_of_lt (Nat.min_le_right ..) (by decide)))
  obtain ⟨hlow, hraise⟩ := capLoop_only (wr fPNow 0 (min watts 4095) s)
  obtain ⟨rlow, rraise⟩ := regs_cap (wr fPNow 0 (min watts 4095) s)
  have kept {t : State} (honly : PwOnly (wr fPNow 0 (min watts 4095) s) t) (hregs : t.regs = (wr fPNow 0 (min watts 4095) s).regs) :
      rd t fPNow 0 = min watts 4095 :=
    (rd_congr hregs (by obtain ⟨r, p, rfl⟩ := honly; rfl) _ _).trans hnow
  unfold capped
  split_ifs
  · exact ⟨h0.trans hlow, kept hlow rlow⟩
  · exact ⟨h0.trans hraise, kept hraise rraise⟩
  · exact ⟨h0, hnow⟩

end Sys2Proof.Machine
end

section
/-! #### The guard of a half without PWR, and heat (spec/15 R488, R489; spec/16 R510) -/

namespace Sys2Proof.Machine

/-- One grove under the guard. -/
def guardGrove (g : Nat) (t : State) : State :=
  let t1 := setVolt g (wr fKNow g leastK (modPw g (fun p => { p with capK := leastK }) t))
  wr fOvrSeen g 1 (wr fPolicyOverridden g 1 (wr fBound g (boundOf t1 g) (wr fReason g 4 t1)))

/-- What CAP_GUARD leaves of a grove of its half. -/
structure Guarded (t : State) (g : Nat) : Prop where
  kNow : rd t fKNow g = 24
  cap : (pwGrove t g).capK = 24
  overridden : rdb t fPolicyOverridden g = true
  reason : rd t fReason g = 4
  seen : rdb t fOvrSeen g = true

theorem guardGrove_own (g : Nat) (t : State) : Guarded (guardGrove g t) g := by
  unfold guardGrove
  refine ⟨?_, ?_, congrArg (· == 1) ((rd_wr_beside ..).trans (rd_wr_field ..)), ?_, congrArg (· == 1) (rd_wr_field ..)⟩
  · exact (rd_wr_beside ..).trans ((rd_wr_beside ..).trans ((rd_wr_beside ..).trans ((rd_wr_beside ..).trans
      ((rd_setVolt ..).trans (rd_wr_field ..)))))
  · simp only [pwGrove_wr, setVolt, pwGrove_modPw_same]
    rfl
  · exact (rd_wr_beside ..).trans ((rd_wr_beside ..).trans ((rd_wr_beside ..).trans (rd_wr_field ..)))

/-- A round leaves every register and the PWR state of another grove. -/
theorem guardGrove_other {g n : Nat} (h : n ≠ g) (t : State) :
    pwGrove (guardGrove g t) n = pwGrove t n ∧ ∀ q : Fld, q.reg = .grvPstat → rd (guardGrove g t) q n = rd t q n := by
  unfold guardGrove
  refine ⟨?_, fun q hq => ?_⟩
  · simp only [pwGrove_wr, setVolt, pwGrove_modPw_other _ _ h]
  · exact (rd_wr_pstat_ne rfl hq h ..).trans ((rd_wr_pstat_ne rfl hq h ..).trans ((rd_wr_pstat_ne rfl hq h ..).trans
      ((rd_wr_pstat_ne rfl hq h ..).trans ((rd_setVolt ..).trans ((rd_wr_pstat_ne rfl hq h ..).trans (rd_modPw ..))))))

theorem guardGrove_only (g : Nat) (t : State) : PwOnly t (guardGrove g t) := by
  have h1 : PwOnly t (wr fKNow g leastK (modPw g (fun p => { p with capK := leastK }) t)) :=
    (PwOnly.modPw g _ t).trans ((RegsOnly.refl _).wr fKNow g leastK).pwOnly
  exact (h1.trans (setVolt_only g _)).trans
    (((((RegsOnly.refl _).wr fReason g 4).wr fBound g _).wr fPolicyOverridden g 1).wr fOvrSeen g 1).pwOnly

theorem Guarded.congr {s t : State} {g : Nat} (h : Guarded s g) (hpw : pwGrove t g = pwGrove s g)
    (hrd : ∀ q : Fld, q.reg = .grvPstat → rd t q g = rd s q g) : Guarded t g :=
  ⟨(hrd _ rfl).trans h.kNow, by rw [hpw]; exact h.cap, (congrArg (· == 1) (hrd _ rfl)).trans h.overridden,
    (hrd _ rfl).trans h.reason, (congrArg (· == 1) (hrd _ rfl)).trans h.seen⟩

theorem exec_capGuard (s : State) (h : Half) (watts : Nat) : exec (.capGuard h watts) s = .next (
    if (proc s (1 + h)).restarting = false ∨ watts ≤ rd s fPcap 0 then s
    else (List.range 16).foldl (fun t i => guardGrove (16 * h.val + i) t) s) := by
  change execCapGuard h watts s = _
  simp only [execCapGuard, Bool.or_eq_true, Bool.not_eq_true', decide_eq_true_eq]
  rfl

theorem foldl_pwOnly {α : Type} {f : State → α → State} (hf : ∀ t a, PwOnly t (f t a)) (l : List α) (s : State) :
    PwOnly s (l.foldl f s) := by
  induction l generalizing s with
  | nil => exact PwOnly.refl s
  | cons a l ih => exact (hf s a).trans (ih _)

/-! #### Heat -/

theorem le_hottest {l : List Nat} {v : Nat} (h : v ∈ l) : v ≤ hottest l := by
  have hmono (l : List Nat) (m : Nat) : m ≤ l.foldl max m := by
    induction l generalizing m with
    | nil => exact le_rfl
    | cons a l ih => exact (Nat.le_max_left m a).trans (ih _)
  obtain ⟨pre, post, rfl⟩ := List.append_of_mem h
  rw [hottest, List.foldl_append, List.foldl_cons]
  exact (Nat.le_max_right _ v).trans (hmono post _)

theorem hottest_le {l : List Nat} {b : Nat} (h : ∀ v ∈ l, v ≤ b) : hottest l ≤ b := by
  have hbound (l : List Nat) (m : Nat) (hm : m ≤ b) (hl : ∀ v ∈ l, v ≤ b) : l.foldl max m ≤ b := by
    induction l generalizing m with
    | nil => exact hm
    | cons a l ih => exact ih _ (Nat.max_le.mpr ⟨hm, hl a (by simp)⟩) (fun v hv => hl v (by simp [hv]))
  exact hbound l 0 (Nat.zero_le b) h

theorem le_hottest_iff {l : List Nat} {b : Nat} (hb : 0 < b) : b ≤ hottest l ↔ ∃ v ∈ l, b ≤ v := by
  refine ⟨fun h => ?_, fun ⟨v, hv, hle⟩ => hle.trans (le_hottest hv)⟩
  by_contra hno
  push Not at hno
  have := hottest_le (b := b - 1) fun v hv => by have := hno v hv; omega
  omega

/-- A grove's round of the thermal loop leaves every other. -/
theorem thermGrove_other {g n : Nat} (h : n ≠ g) (tj : Nat) (t : State) :
    pwGrove (thermGrove g tj t) n = pwGrove t n ∧ rd (thermGrove g tj t) fKNow n = rd t fKNow n := by
  have htj (s : State) : rd (wr fTj g (min tj 255) s) fKNow n = rd s fKNow n := rd_wr_pstat_ne rfl rfl h _ s
  unfold thermGrove
  simp only
  split_ifs
  · refine ⟨(pwGrove_setK_other h).trans (pwGrove_modPw_other _ _ h), (kNow_setK_other h).trans ((rd_modPw ..).trans (htj t))⟩
  · exact ⟨((policy_regs g _).pwGrove n).trans (pwGrove_modPw_other _ _ h), (kNow_policy ..).trans ((rd_modPw ..).trans (htj t))⟩
  · exact ⟨rfl, htj t⟩
  · exact ⟨pwGrove_modPw_other _ _ h, (rd_modPw ..).trans (htj t)⟩
  · exact ⟨rfl, htj t⟩

theorem thermK_setK (g k : Nat) (s : State) : (pwGrove (setK g k s) g).thermK = (pwGrove s g).thermK := by
  rw [setK, (policy_regs g _).pwGrove, setVolt, pwGrove_modPw_same]
  rfl

/-- At 105 °C a grove runs at the least divider. -/
theorem thermGrove_hot {g tj : Nat} (h : 105 ≤ tj) (t : State) :
    rd (thermGrove g tj t) fKNow g = 24 ∧ (pwGrove (thermGrove g tj t) g).thermK = 24 := by
  unfold thermGrove
  simp only [if_pos h]
  refine ⟨kNow_setK (by decide), ?_⟩
  rw [thermK_setK, pwGrove_modPw_same]
  rfl

/-- At 101 °C or below a grove has no thermal ceiling. -/
theorem thermGrove_cool {g tj : Nat} (h : tj ≤ 101) (t : State) : (pwGrove (thermGrove g tj t) g).thermK = 63 := by
  unfold thermGrove
  have hno : ¬105 ≤ tj := by omega
  simp only [if_neg hno, if_pos h]
  rw [(policy_regs g _).pwGrove, pwGrove_modPw_same]

/-- The loop over the groves' sensors. -/
def thermAll (tj : List Nat) (s : State) : State := tj.zipIdx.foldl (fun t e => thermGrove e.2 e.1 t) s

theorem mem_zipIdx {tj : List Nat} {v g : Nat} : (v, g) ∈ tj.zipIdx ↔ tj[g]? = some v := by
  simp [List.mem_zipIdx_iff_getElem?]

theorem thermAll_hot {tj : List Nat} {g v : Nat} (hv : tj[g]? = some v) (h : 105 ≤ v) (s : State) :
    rd (thermAll tj s) fKNow g = 24 ∧ (pwGrove (thermAll tj s) g).thermK = 24 := by
  refine foldl_reach (Q := fun t => rd t fKNow g = 24 ∧ (pwGrove t g).thermK = 24) (a := (v, g)) (mem_zipIdx.mpr hv)
    (fun t => thermGrove_hot h t) (fun t e he ht => ?_) s
  obtain ⟨w, n⟩ := e
  by_cases hng : n = g
  · subst hng
    have hw : w = v := by simpa [mem_zipIdx.mp he] using hv
    subst hw
    exact thermGrove_hot h t
  · obtain ⟨hpw, hk⟩ := thermGrove_other (fun e => hng e.symm) w t
    exact ⟨hk.trans ht.1, by rw [hpw]; exact ht.2⟩

theorem thermAll_cool {tj : List Nat} {g : Nat} (hlt : g < tj.length) (hall : ∀ v ∈ tj, v ≤ 101) (s : State) :
    (pwGrove (thermAll tj s) g).thermK = 63 := by
  have hmem : (tj[g], g) ∈ tj.zipIdx := mem_zipIdx.mpr (List.getElem?_eq_getElem hlt)
  refine foldl_reach (Q := fun t => (pwGrove t g).thermK = 63) hmem (fun t => ?_) (fun t e he ht => ?_) s
  · exact thermGrove_cool (hall _ (List.getElem_mem hlt)) t
  · obtain ⟨w, n⟩ := e
    by_cases hng : n = g
    · subst hng
      exact thermGrove_cool (hall w (List.mem_of_getElem? (mem_zipIdx.mp he))) t
    · show (pwGrove (thermGrove n w t) g).thermK = 63
      rw [(thermGrove_other (fun e => hng e.symm) w t).1]
      exact ht

/-- The sensors' registers, written before anything acts on them. -/
def sensed (tj tdie tdram : List Nat) (s : State) : State :=
  wr fTjMax 0 (min (hottest (tj ++ tdie)) 255) (wr fTdramMax 0 (min (hottest tdram) 255) s)

theorem exec_thermalLoop {tj tdie tdram : List Nat} (h1 : tj.length = 32) (h2 : tdie.length = 16) (h3 : tdram.length = 16) (s : State) :
    exec (.thermalLoop tj tdie tdram) s = .next (
      if s.life ≠ .up then s
      else if 112 ≤ hottest (tj ++ tdie) ∨ 100 ≤ hottest tdram then thermalShutdown (sensed tj tdie tdram s)
      else if 105 ≤ hottest tj then wr fTherm 0 1 (setTherm true (thermAll tj (sensed tj tdie tdram s)))
      else if hottest (tj ++ tdie) ≤ 101 then wr fTherm 0 0 (setTherm false (thermAll tj (sensed tj tdie tdram s)))
      else thermAll tj (sensed tj tdie tdram s)) := by
  change execThermalLoop tj tdie tdram s = _
  rw [execThermalLoop, if_neg (by simp [h1, h2, h3])]
  rfl

end Sys2Proof.Machine
end

section
/-! #### The thermal shutdown, and the writes of the power registers (spec/15 R487, R489, R492, R494 to R496) -/

namespace Sys2Proof.Machine

theorem setTherm_ready (b : Bool) (s : State) : (setTherm b s).lands.ready = s.lands.ready ∧ (setTherm b s).lands.faultN = s.lands.faultN := by
  unfold setTherm
  split
  · exact ⟨rfl, rfl⟩
  · exact ⟨rfl, rfl⟩

theorem assertFault_ready (s : State) : (assertFault s).lands.ready = s.lands.ready := by
  unfold assertFault
  split <;> rfl

theorem rd_setTherm (b : Bool) (s : State) (q : Fld) (i : Nat) : rd (setTherm b s) q i = rd s q i := by
  unfold setTherm
  split
  · rfl
  · exact rd_congr rfl rfl q i

theorem pwGrove_setTherm (b : Bool) (s : State) (g : Nat) : pwGrove (setTherm b s) g = pwGrove s g := by
  unfold setTherm
  split <;> rfl

/-- READY low, FAULT_N and THERM_N asserted. -/
theorem lands_down (s : State) : (setTherm true (assertFault (setReady false s))).lands = ⟨some false, some false, some false⟩ := by
  obtain ⟨hready, hfault⟩ := setTherm_ready true (assertFault (setReady false s))
  have htherm := setTherm_thermN true (assertFault (setReady false s))
  rw [assertFault_ready, setReady_ready] at hready
  rw [assertFault_faultN] at hfault
  rcases hl : (setTherm true (assertFault (setReady false s))).lands with ⟨r, f, n⟩
  rw [hl] at hready hfault htherm
  simp only at hready hfault htherm
  rw [hready, hfault, htherm]
  rfl

/-- The ports dark, one after another. -/
def darkPorts (s : State) : State :=
  (List.range 6).foldl (fun t p =>
    modPort p (fun _ => TorusPort.reset) (wr fTpCtlEn p 0 (wr fState p 0 (wr fWidth p 0 (wr fGroups p 0 t))))) s

theorem unbindTorus_eq (s : State) :
    unbindTorus s = { wr fValid 0 0 (darkPorts s) with arrived := [], peerLost := false, epochTop := none } := rfl

theorem unbindTorus_view {α : Type} {v : State → α} (hports : ∀ s q, v { s with ports := q } = v s)
    (hregs : ∀ s r, v { s with regs := r } = v s)
    (hrest : ∀ s a b c, v { s with arrived := a, peerLost := b, epochTop := c } = v s) (s : State) : v (unbindTorus s) = v s := by
  rw [unbindTorus_eq, hrest, wr, regWrite, hregs]
  refine foldl_keep (v := v) (fun t p _ => ?_) s
  exact (hports _ _).trans ((hregs _ _).trans ((hregs _ _).trans ((hregs _ _).trans (hregs _ _))))

theorem rd_dropTorus (s : State) (q : Fld) (i : Nat) :
    rd { s with arrived := [], peerLost := false, epochTop := none } q i = rd s q i := rd_congr rfl rfl q i

/-- A register of neither a torus port nor TOR_ID. -/
theorem rd_unbindTorus {q : Fld} {i : Nat} (hq : ∀ p, q.reg.off i ≠ RegKind.tpCtl.off p ∧ q.reg.off i ≠ RegKind.tpStat.off p)
    (hid : q.reg.off i ≠ RegKind.torId.off 0) (s : State) : rd (unbindTorus s) q i = rd s q i := by
  rw [unbindTorus_eq, rd_dropTorus, rd_wr_other _ _ hid]
  refine foldl_keep (v := fun t => rd t q i) (fun t p _ => ?_) s
  rw [rd_modPort, rd_wr_other _ _ (hq p).1, rd_wr_other _ _ (hq p).2, rd_wr_other _ _ (hq p).2, rd_wr_other _ _ (hq p).2]

theorem portState_unbindTorus {p : Nat} (hp : p < 6) (s : State) : portState (unbindTorus s) p = 0 := by
  have hid : RegKind.tpStat.off p ≠ RegKind.torId.off 0 := by
    simp only [RegKind.off_tpStat, RegKind.off_torId]
    omega
  have hctl (q : Nat) := (off_tp p q).2.2.2.2.1
  have hdark (t : State) (q : Nat) : rd (modPort q (fun _ => TorusPort.reset)
      (wr fTpCtlEn q 0 (wr fState q 0 (wr fWidth q 0 (wr fGroups q 0 t))))) fState p = if p = q then 0 else rd t fState p := by
    rw [rd_modPort, rd_wr_other _ _ (hctl q)]
    by_cases hpq : p = q
    · subst hpq
      rw [if_pos rfl]
      exact rd_wr_field ..
    · have hstat := off_tpStat hpq
      rw [if_neg hpq, rd_wr_other _ _ hstat, rd_wr_other _ _ hstat, rd_wr_other _ _ hstat]
  rw [portState, unbindTorus_eq, rd_dropTorus, rd_wr_other _ _ hid]
  refine foldl_reach (Q := fun t => rd t fState p = 0) (List.mem_range.mpr hp) (fun t => ?_) (fun t q _ ht => ?_) s
  · rw [hdark, if_pos rfl]
  · rw [hdark, ht, ite_self]

/-- The state whose domains a thermal shutdown takes. -/
def shutting (s : State) : State :=
  wr fTherm 0 1 (setTherm true (assertFault (setReady false (histWrite hkThermal 0xFFFF [] (logWrite 0x0107 1 [] s)))))

theorem thermalShutdown_eq (s : State) : thermalShutdown s = { unbindTorus (loseDomains (shutting s)) with life := .shutdown } := rfl

theorem rd_life (s : State) (l : Life) (q : Fld) (i : Nat) : rd { s with life := l } q i = rd s q i := rd_congr rfl rfl q i

theorem rd_loseDomains (s : State) (q : Fld) (i : Nat) : rd (loseDomains s) q i = rd s q i := rd_congr rfl rfl q i

theorem lands_life (s : State) (l : Life) : State.lands { s with life := l } = s.lands := rfl

theorem cores_life (s : State) (l : Life) : State.cores { s with life := l } = s.cores := rfl

theorem lands_loseDomains (s : State) : (loseDomains s).lands = s.lands := rfl

theorem cores_loseDomains (s : State) : (loseDomains s).cores = [] := rfl

theorem unbindTorus_lands (s : State) : (unbindTorus s).lands = s.lands :=
  unbindTorus_view (v := State.lands) (fun _ _ => rfl) (fun _ _ => rfl) (fun _ _ _ _ => rfl) s

theorem unbindTorus_cores (s : State) : (unbindTorus s).cores = s.cores :=
  unbindTorus_view (v := State.cores) (fun _ _ => rfl) (fun _ _ => rfl) (fun _ _ _ _ => rfl) s

theorem lands_shutting (s : State) : (shutting s).lands = ⟨some false, some false, some false⟩ := by
  rw [shutting, wr_lands, lands_down]

theorem thermalShutdown_spec (s : State) : (thermalShutdown s).life = .shutdown
    ∧ (thermalShutdown s).lands = ⟨some false, some false, some false⟩ ∧ rdb (thermalShutdown s) fTherm 0 = true
    ∧ (thermalShutdown s).cores = [] ∧ ∀ p < 6, portState (thermalShutdown s) p = 0 := by
  rw [thermalShutdown_eq]
  refine ⟨rfl, ?_, ?_, ?_, fun p hp => ?_⟩
  · rw [lands_life, unbindTorus_lands, lands_loseDomains, lands_shutting]
  · have hoff : ∀ p, RegKind.pwStat.off 0 ≠ RegKind.tpCtl.off p ∧ RegKind.pwStat.off 0 ≠ RegKind.tpStat.off p := by
      intro p
      simp only [RegKind.off_pwStat, RegKind.off_tpCtl, RegKind.off_tpStat]
      omega
    rw [rdb, rd_life, rd_unbindTorus (q := fTherm) hoff (by decide), rd_loseDomains, shutting, rd_wr_field _ fTherm 0 1]
    rfl
  · rw [cores_life, unbindTorus_cores, cores_loseDomains]
  · rw [portState, rd_life]
    exact portState_unbindTorus hp _

/-! #### Power registers -/

theorem jobOwned_power (s : State) (n : Nat) : jobOwned s .pwCtl 0 = false ∧ jobOwned s .grvPctl n = false := by
  unfold jobOwned
  split <;> exact ⟨rfl, rfl⟩

theorem exec_pwCtlWrite {w : RegWr} (hfull : w.part = .full) (s : State) : ∃ t : State, exec (.pwCtlWrite w) s = .next t
    ∧ rd t fPcap 0 = min (bits w.val.toNat 0 12) (if s.fuses.grade = 2 then 2000 else 2400) ∧ t = { s with regs := t.regs } := by
  have hput : regPut .pwCtl 0 w s = ((regPut .pwCtl 0 w s).1, true) := by rw [regPut_full hfull (.inr (jobOwned_power s 0).1)]
  have hval : rd (regPut .pwCtl 0 w s).1 fPcap 0 = bits w.val.toNat 0 12 :=
    rd_regPut_full hfull (.inr (jobOwned_power s 0).1) (by decide)
  have hcap : gradeCap (regPut .pwCtl 0 w s).1 = gradeCap s := by
    rw [regPut_frame]
    rfl
  have hlt : gradeCap s < 4096 := by
    unfold gradeCap
    split_ifs <;> decide
  refine ⟨pwCtlPut w s, rfl, ?_⟩
  rw [pwCtlPut, hput]
  simp only [hval, hcap, Bool.true_and, decide_eq_true_eq]
  change _ = min _ (gradeCap s) ∧ _
  split_ifs with hbig
  · exact ⟨(rd_wr_field ..).trans ((Nat.mod_eq_of_lt hlt).trans (by omega)), (((RegsOnly.refl s).regPut .pwCtl 0 w).wr fPcap 0 _).frame⟩
  · exact ⟨hval.trans (by omega), regPut_frame ..⟩

theorem exec_grvPctlWrite {w : RegWr} (hfull : w.part = .full) (s : State) (g : Grove) {lo hi : Nat} (hlo : bits w.val.toNat 0 6 = lo)
    (hhi : bits w.val.toNat 8 6 = hi) (h24 : 24 ≤ lo) (hle : lo ≤ hi) (hmax : hi ≤ gradeMax s) :
    ∃ u : State, exec (.grvPctlWrite g w) s = .next u ∧ rd u fFminK g = lo ∧ rd u fFmaxK g = hi ∧ u = { s with regs := u.regs } := by
  have hown := (jobOwned_power s g).2
  have hput : regPut .grvPctl g w s = ((regPut .grvPctl g w s).1, true) := by rw [regPut_full hfull (.inr hown)]
  have hvlo : rd (regPut .grvPctl g w s).1 fFminK g = lo :=
    (rd_regPut_full hfull (.inr hown) (f := fFminK) (k := .grvPctl) (by decide)).trans hlo
  have hvhi : rd (regPut .grvPctl g w s).1 fFmaxK g = hi :=
    (rd_regPut_full hfull (.inr hown) (f := fFmaxK) (k := .grvPctl) (by decide)).trans hhi
  have hr (k : Nat) (h1 : 24 ≤ k) (h2 : k ≤ gradeMax s) : kInRange s k = true := by simp [kInRange, h1, h2]
  have hlt : lo < 64 ∧ hi < 64 := ⟨hlo ▸ bits_lt _ _ _, hhi ▸ bits_lt _ _ _⟩
  refine ⟨wr fFminK g lo (wr fFmaxK g hi (regPut .grvPctl g w s).1), ?_, ?_, ?_, ?_⟩
  · change Host.Outcome.next (grvPctlPut g w s) = _
    rw [grvPctlPut, hput]
    simp only [hvlo, hvhi, hr lo h24 (hle.trans hmax), hr hi (h24.trans hle) hmax, if_true, Bool.not_true, Bool.false_eq_true, if_false,
      if_neg (Nat.not_lt.mpr hle)]
  · exact (rd_wr_field ..).trans (Nat.mod_eq_of_lt hlt.1)
  · exact (rd_wr_beside ..).trans ((rd_wr_field ..).trans (Nat.mod_eq_of_lt hlt.2))
  · exact ((((RegsOnly.refl s).regPut .grvPctl g w).wr fFmaxK g hi).wr fFminK g lo).frame

/-! #### PHASE windows -/

theorem windows_setVolt (g : Nat) (s : State) : (pwGrove (setVolt g s) g).windows = (pwGrove s g).windows := by
  rw [setVolt, pwGrove_modPw_same]

section
variable {s : State} {g : Grove} {watts : Nat}

theorem exec_phaseWindowOpen_none (h : ∀ w ∈ (pwGrove s g).windows, w.isOpen = true ∨ s.time < w.opens) :
    exec (.phaseWindowOpen g watts) s = .next s := by
  have hfind : (pwGrove s g).windows.find? (fun w => !w.isOpen && decide (w.opens ≤ s.time)) = none := by
    rw [List.find?_eq_none]
    intro w hw hdue
    rcases h w hw with hopen | hlate
    · simp [hopen] at hdue
    · simp only [Bool.and_eq_true, decide_eq_true_eq] at hdue
      omega
  change execPhaseWindowOpen g watts s = _
  simp only [execPhaseWindowOpen, getElem?_findIdx, hfind]

/-- The next due window opens, or is dropped where the power would pass PCAP. -/
theorem exec_phaseWindowOpen_due {pre post : List Guard} {w : Guard} (hws : (pwGrove s g).windows = pre ++ w :: post)
    (hopen : w.isOpen = false) (hdue : w.opens ≤ s.time) (hpre : ∀ x ∈ pre, x.isOpen = true ∨ s.time < x.opens)
    (hrun : pwrRuns s (g / 16) = true) :
    exec (.phaseWindowOpen g watts) s = .next (if rd s fPcap 0 < watts then
      bump fPhaseDrop 0 1 (modPw g (fun p => { p with windows := pre ++ post }) s)
      else setVolt g (modPw g (fun p => { p with windows := pre ++ { w with isOpen := true } :: post }) s)) := by
  have hskip : ∀ x ∈ pre, (!x.isOpen && decide (x.opens ≤ s.time)) = false := by
    intro x hx
    rcases hpre x hx with h | h
    · simp [h]
    · simp [Nat.not_le.mpr h]
  have hidx : (pwGrove s g).windows.findIdx (fun w => !w.isOpen && decide (w.opens ≤ s.time)) = pre.length := by
    rw [hws]
    exact findIdx_first hskip (by simp [hopen, hdue])
  have hget : (pwGrove s g).windows[pre.length]? = some w := by rw [hws, getElem?_mid]
  have hdrop : ldrop (pwGrove s g).windows pre.length = pre ++ post := by rw [hws, ldrop_mid]
  have hset (v : Guard) : lset (pwGrove s g).windows pre.length v = pre ++ v :: post := by
    rw [hws, lset, List.set_append_right _ _ (Nat.le_refl _)]
    simp
  change execPhaseWindowOpen g watts s = _
  simp only [execPhaseWindowOpen, hidx, hget, hrun, hdrop, hset, Bool.not_true, Bool.false_eq_true, if_false]

end

theorem exec_phaseWindowClose (s : State) (g : Grove) : exec (.phaseWindowClose g) s = .next
    (setVolt g (modPw g (fun p => { p with windows := p.windows.filter fun w => decide (s.time < w.closes) }) s)) := rfl

theorem pwGrove_bump (f : Fld) (i n : Nat) (s : State) (g : Nat) : pwGrove (bump f i n s) g = pwGrove s g := rfl

/-- The voltage follows the windows that are left. -/
theorem volt_setVolt (g : Nat) (s : State) : (pwGrove (setVolt g s) g).volt = Config.fusedVoltage g (rd s fKNow g)
    + 6 * (if (pwGrove s g).rail then min (pwGrove s g).guard (guardLevel (setVolt g s) g) else guardLevel (setVolt g s) g) := by
  have hglade : guardLevel (setVolt g s) g = guardLevel s g := guardLevel_congr (gladeOn_modPw ..) (windows_setVolt g s)
  rw [hglade, setVolt, pwGrove_modPw_same]

/-- Settles O51: the cap loop, the guard, the thermal loop, the power registers and the PHASE windows. -/
theorem powerCapsHeatAndPhaseWindows : Obligations.PowerCapsHeatAndPhaseWindows := by
  refine ⟨?cap, ?guard, ?therm, ?writes, ?windows⟩
  case cap =>
    intro s watts hrun
    obtain ⟨honly, hnow⟩ := capped_only watts s
    refine ⟨_, exec_capLoop hrun watts, (rd_wr_beside ..).trans hnow, ?_, fun hover => ⟨?_, fun hsome g hg => ?_⟩, fun hunder g hg => ?_⟩
    · exact (honly.trans ((RegsOnly.refl _).wr fCapActive 0 _).pwOnly).frame
    · rw [decide_eq_true hover, Bool.true_or]
      exact congrArg (· == 1) (rd_wr_field ..)
    · have hview (n : Nat) : capView n (wr fPNow 0 (min watts 4095) s) = capView n s := capView_wr_pwStat rfl ..
      have hlt (n : Nat) : (floorK (wr fPNow 0 (min watts 4095) s) n < targetK (wr fPNow 0 (min watts 4095) s) n)
          = (floorK s n < targetK s n) := by
        rw [targetK_of_view (hview n), (Prod.mk.inj (Prod.mk.inj (hview n)).2).1]
      have hlow := capLower_view (s := wr fPNow 0 (min watts 4095) s) (by simpa only [hlt] using hsome) hg
      have hpw := congrArg Prod.fst hlow
      rw [pwGrove_wr, capped, if_pos hover]
      refine hpw.trans ?_
      simp only [hlt, hview]
      split_ifs <;> rfl
    · have hno : ¬rd s fPcap 0 < watts := by omega
      have hview : capView g (wr fPNow 0 (min watts 4095) s) = capView g s := capView_wr_pwStat rfl ..
      rw [pwGrove_wr, capped, if_neg hno, if_pos hunder]
      exact (congrArg Prod.fst (capRaise_view _ hg)).trans (by rw [hview]; rfl)
  case guard =>
    intro s h watts
    rw [exec_capGuard]
    refine ⟨fun hno => by rw [if_pos hno], fun hrest hover => ?_⟩
    rw [if_neg (by simp [hrest, Nat.not_le.mpr hover])]
    refine ⟨_, rfl, fun g hg => ?_, fun g hg => ?_, (foldl_pwOnly (fun t i => guardGrove_only _ t) _ s).frame⟩
    · have hown : Guarded ((List.range 16).foldl (fun t i => guardGrove (16 * h.val + i) t) s) g := by
        refine foldl_reach (Q := fun t => Guarded t g) (a := g.val % 16) (List.mem_range.mpr (by omega)) (fun t => ?_)
          (fun t i _ ht => ?_) s
        · have hidx : 16 * h.val + g.val % 16 = g.val := by omega
          rw [hidx]
          exact guardGrove_own g t
        · by_cases hig : g.val = 16 * h.val + i
          · rw [← hig]
            exact guardGrove_own g t
          · obtain ⟨hpw, hrd⟩ := guardGrove_other hig t
            exact ht.congr hpw hrd
      exact ⟨hown.kNow, hown.cap, hown.overridden, hown.reason, hown.seen⟩
    · have hother (t : State) (i : Nat) (hi : i ∈ List.range 16) : g.val ≠ 16 * h.val + i := by
        have := List.mem_range.mp hi
        omega
      refine ⟨foldl_keep (v := fun t => rd t fKNow g) (fun t i hi => ?_) s, foldl_keep (v := fun t => pwGrove t g) (fun t i hi => ?_) s⟩
      · exact (guardGrove_other (hother t i hi) t).2 _ rfl
      · exact (guardGrove_other (hother t i hi) t).1
  case therm =>
    intro s tj tdie tdram h1 h2 h3
    rw [exec_thermalLoop h1 h2 h3]
    refine ⟨fun hlife => by rw [if_pos hlife], fun hlife hhot => ?_, fun hlife hall hstk => ?_⟩
    · rw [if_neg (not_not_intro hlife), if_pos]
      · exact ⟨_, rfl, thermalShutdown_spec _⟩
      · exact hhot.imp (le_hottest_iff (by decide)).mpr (le_hottest_iff (by decide)).mpr
    · have hno : ¬(112 ≤ hottest (tj ++ tdie) ∨ 100 ≤ hottest tdram) := by
        rintro (h | h)
        · obtain ⟨v, hv, hle⟩ := (le_hottest_iff (by decide)).mp h
          exact absurd (hall v hv) (by omega)
        · obtain ⟨v, hv, hle⟩ := (le_hottest_iff (by decide)).mp h
          exact absurd (hstk v hv) (by omega)
      rw [if_neg (not_not_intro hlife), if_neg hno]
      by_cases hhot : 105 ≤ hottest tj
      · rw [if_pos hhot]
        refine ⟨_, rfl, fun g v hv hle => ?_, fun hcool => ?_⟩
        · obtain ⟨hk, htherm⟩ := thermAll_hot hv hle (sensed tj tdie tdram s)
          refine ⟨?_, ?_, congrArg (· == 1) (rd_wr_field ..)⟩
          · rw [rd_wr_other _ _ (off_pwStat g).2.2.1, rd_setTherm]
            exact hk
          · rw [pwGrove_wr, pwGrove_setTherm]
            exact htherm
        · obtain ⟨v, hv, hle⟩ := (le_hottest_iff (by decide)).mp hhot
          exact absurd (hcool v (List.mem_append_left _ hv)) (by omega)
      · rw [if_neg hhot]
        refine ⟨_, rfl, fun g v hv hle => absurd (hle.trans (le_hottest (List.mem_of_getElem? hv))) hhot, fun hcool => ?_⟩
        rw [if_pos (hottest_le hcool)]
        refine ⟨congrArg (· == 1) (rd_wr_field ..), ?_, fun g => ?_⟩
        · rw [wr_lands, setTherm_thermN]
          rfl
        · rw [pwGrove_wr, pwGrove_setTherm]
          exact thermAll_cool (by rw [h1]; exact g.isLt) (fun v hv => hcool v (List.mem_append_left _ hv)) _
  case writes =>
    intro s w g hfull
    obtain ⟨t, hexec, hval, hframe⟩ := exec_pwCtlWrite hfull s
    exact ⟨t, hexec, hval, hframe, fun h24 hle hmax => exec_grvPctlWrite hfull s g rfl rfl h24 hle hmax⟩
  case windows =>
    intro s g watts
    refine ⟨exec_phaseWindowOpen_none, fun pre w post hws hopen hdue hpre hrun => ?_, ?_⟩
    · refine ⟨_, exec_phaseWindowOpen_due hws hopen hdue hpre hrun, fun hover => ?_, fun hfits => ?_⟩
      · rw [if_pos hover]
        refine ⟨?_, (rd_bump_field ..).trans (by rw [rd_modPw]; rfl)⟩
        rw [pwGrove_bump, pwGrove_modPw_same]
      · rw [if_neg (Nat.not_lt.mpr hfits)]
        refine ⟨?_, (rd_setVolt ..).trans (rd_modPw ..)⟩
        rw [windows_setVolt, pwGrove_modPw_same]
    · refine ⟨_, exec_phaseWindowClose s g, ?_, ?_, rfl⟩
      · rw [windows_setVolt, pwGrove_modPw_same]
      · rw [volt_setVolt, rd_modPw, pwGrove_modPw_same]

end Sys2Proof.Machine
end

section
/-! #### An accumulate block at its sender (spec/07 R253 to R256; spec/08 R279) -/

namespace Sys2Proof.Machine

theorem modCore_congr {c : Nat} {f g : Core → Core} {s : State} (h : f (core s c) = g (core s c)) : modCore c f s = modCore c g s := by
  rw [modCore, modCore, h]

theorem modPend_at {c k : Nat} {p q : Pend} {f : Pend → Pend} {s : State} (h : (core s c).pend[k]? = some p) (hq : f p = q) :
    modPend c k f s = modCore c (fun y => { y with pend := y.pend.set k q }) s := by
  refine modCore_congr ?_
  simp only [h, hq]

theorem core_settleInvs (s : State) (n : Nat) : core (settleInvs s) n = core s n := by
  unfold settleInvs
  split <;> rfl

theorem core_dropPend {c k : Nat} {p : Pend} {s : State} (h : (core s c).pend[k]? = some p) :
    core (dropPend c k s) c = { (core s c).stirred p.ctx s.time with pend := (core s c).pend.eraseIdx k } := by
  rw [dropPend, core_settleInvs, core_modCore_same]
  simp only [h]
  rfl

section
variable {s : State} {c : CoreId} {k rpt b st q : Nat} {x : CtxId} {e : Engine} {ride : Option Nat} {h : Half} {z : Blk}
  {stage : AccStage} {since : Option Nat}

/-- An acknowledgement acts once it has crossed its ride. -/
theorem exec_accumAck {status : Nat} (hp : (core s c).pend[k]? = some ⟨x, e, rpt, ride, .accum h b z st q ⟨.answered status, since⟩⟩) :
    exec (.accumAck c k) s = .next (if rideArrived s ride then accAcked c k status s else s) := by
  change execAccumAck c k s = _
  simp only [execAccumAck, hp]

theorem accAcked_settled {p : Pend} {status : Nat} (hp : (core s c).pend[k]? = some p) (hle : status ≤ 1) :
    accAcked c k status s = accSettle c p.ctx p.rpt (dropPend c k s) := by
  simp only [accAcked, hp, if_pos hle]

/-- A repeat with further blocks outstanding has one fewer; the last one settles it (R253, R255). -/
theorem accSettle_dropPend {p : Pend} {r : AccRpt} (hp : (core s c).pend[k]? = some p)
    (hr : (core s c).accRpts.find? (fun a => a.rpt == p.rpt) = some r) :
    accSettle c p.ctx p.rpt (dropPend c k s) = if 1 < r.left then
      modCore c (fun y => { y with
        accRpts := y.accRpts.map fun a => if a.rpt = p.rpt then { a with left := a.left - 1 } else a }) (dropPend c k s)
      else sendFloors c p.ctx r (modCore c (fun y => { y with
        accRpts := y.accRpts.filter fun a => a.rpt != p.rpt }) (dropPend c k s)) := by
  have hfind : (core (dropPend c k s) c).accRpts.find? (fun a => a.rpt == p.rpt) = some r := by
    rw [core_dropPend hp]
    exact hr
  simp only [accSettle, hfind]

theorem accAcked_refused {status : Nat} (hp : (core s c).pend[k]? = some ⟨x, e, rpt, ride, .accum h b z st q ⟨stage, since⟩⟩)
    (hle : 2 ≤ status) :
    accAcked c k status s = modCore c (fun y => { y with
      pend := y.pend.set k ⟨x, e, rpt, ride, .accum h b z st q ⟨.refused s.time, some (since.getD s.time)⟩⟩ }) s := by
  simp only [accAcked, hp, if_neg (by omega : ¬status ≤ 1)]
  exact modPend_at hp rfl

/-- A refused block goes again 256 FCLK cycles later (R256). -/
theorem exec_accumResend {t0 : Nat} (hp : (core s c).pend[k]? = some ⟨x, e, rpt, ride, .accum h b z st q ⟨.refused t0, since⟩⟩) :
    exec (.accumResend c k) s = .next (if t0 + 128 ≤ s.time then sendAccum c x h b z st q none (modCore c (fun y => { y with
      pend := y.pend.set k ⟨x, e, rpt, ride, .accum h b z st q ⟨.sent, since⟩⟩ }) s) else s) := by
  change execAccumResend c k s = _
  simp only [execAccumResend, hp, modPend_at hp (f := setStage .sent) rfl]
  rfl

/-- A block refused for too long faults its context; one never refused does not (R256). -/
theorem exec_accWindow_some {t0 : Nat} (hp : (core s c).pend[k]? = some ⟨x, e, rpt, ride, .accum h b z st q ⟨stage, some t0⟩⟩) :
    exec (.accWindow c k) s = .next (if t0 + 524288 ≤ s.time
      then ctxFault x fcAccWindow st (engSite s c .xce 0) (some (c.val, .xce)) s else s) := by
  change execAccWindow c k s = _
  simp only [execAccWindow, hp]
  rfl

theorem exec_accWindow_none (hp : (core s c).pend[k]? = some ⟨x, e, rpt, ride, .accum h b z st q ⟨stage, none⟩⟩) :
    exec (.accWindow c k) s = .next s := by
  change execAccWindow c k s = _
  simp only [execAccWindow, hp]

end

/-- Settles O30: what the sender of an accumulate block does with an answer, a refusal and a long refusal. -/
theorem accumulateSenderSettlesResendsOrFaults : Obligations.AccumulateSenderSettlesResendsOrFaults := by
  intro s c k rpt b st q x e ride h z stage since hp
  refine ⟨?late, ?fewer, ?last, ?dropped, ?refused, ?resend, ?window, ?within⟩
  case late =>
    rintro status rfl hride
    rw [exec_accumAck hp, hride]
    rfl
  case fewer =>
    rintro status r rfl hride hle hr hleft
    rw [exec_accumAck hp, if_pos hride, accAcked_settled hp hle, accSettle_dropPend hp hr, if_pos hleft]
  case last =>
    rintro status r rfl hride hle hr hleft
    rw [exec_accumAck hp, if_pos hride, accAcked_settled hp hle, accSettle_dropPend hp hr, if_neg (Nat.not_lt.mpr hleft)]
  case dropped => rw [core_dropPend hp]
  case refused =>
    rintro status rfl hride hle
    rw [exec_accumAck hp, if_pos hride, accAcked_refused hp hle]
  case resend =>
    rintro t0 rfl
    rw [exec_accumResend hp]
    exact ⟨fun hdue => by rw [if_pos hdue], fun hearly => by rw [if_neg (Nat.not_le.mpr hearly)]⟩
  case window =>
    rintro t0 rfl hlong hfault
    obtain ⟨hset, hcuts, -, -, -⟩ := firstFault_ctxFault hfault fcAccWindow st (engSite s c .xce 0) c .xce
    exact ⟨_, (exec_accWindow_some hp).trans (by rw [if_pos hlong]), hset, hcuts⟩
  case within =>
    rintro (rfl | ⟨t0, rfl, hearly⟩)
    · exact exec_accWindow_none hp
    · rw [exec_accWindow_some hp, if_neg (Nat.not_le.mpr hearly)]

end Sys2Proof.Machine
end

section
/-! #### An FP32 accumulate applied at its mill (spec/08 R274, R275, R277) -/

namespace Sys2Proof.Machine

theorem length_wordsLe (n k : Nat) (b : Bytes) : (wordsLe n k b).length = k := by
  induction k generalizing b with
  | zero => rfl
  | succ k ih => rw [wordsLe, List.length_cons, ih]

theorem length_f32Bytes (l : List Nat) : (f32Bytes l).length = 4 * l.length := by
  simp [f32Bytes, List.length_flatMap, Nat.mul_comm]

theorem slice_all {b : Bytes} {n : Nat} (h : b.length = n) : slice b 0 n = b := by
  simp [slice, ← h, zeros]

theorem accAdd_fst (old add : List Nat) : (accAdd old add).1 = List.zipWith (fun a b => (f32Add a b).1) old add := by
  simp [accAdd, collect, List.map_zipWith]

theorem blkStored_congr {s t : State} (h : t.mem = s.mem) (l : Loc) : blkStored t l = blkStored s l := by
  rw [blkStored, blkStored, memRead_congr h]

/-! #### Fetching a block of stack memory -/

/-- What a stack block that lands leaves of the state: a repair noted at most. -/
def landedStk (l : Loc) (r : Bool) (s : State) : State := if r then noteRepaired (some l) s else s

theorem blkFetch_stk {ctx : Nat} {h : Half} {b t : Nat} {r : Bool} {s : State} (hp : poisoned s (.stk h b) = false)
    (hland : landCheck (blkStored s (.stk h b)) (Loc.stk h b).term = .accepted t r) :
    blkFetch ctx (.stk h b) s = (landedStk (.stk h b) r s,
      .ok { blkStored s (.stk h b) with tag := BitVec.ofNat 64 (reformTag t (Loc.stk h b).term 0) }) := by
  have hclose : blkClose ctx (.stk h b) s = s := rfl
  simp only [blkFetch, hp, Bool.false_eq_true, if_false, hclose, hland, landedStk]

section
variable (l : Loc) (r : Bool) (s : State)

theorem landedStk_view {α : Type} {v : State → α}
    (hv : ∀ s r l f m u, v { s with regs := r, logMem := l, logFull := f, msix := m, unitEvs := u } = v s) : v (landedStk l r s) = v s := by
  unfold landedStk
  split
  · exact noteRepaired_view hv ..
  · rfl

theorem storesWf_landedStk (h : s.storesWf = true) : (landedStk l r s).storesWf = true := by
  unfold landedStk
  split
  · exact storesWf_logWrite (s := bump fChkRepaired 0 1 s) h ..
  · exact h

theorem off_ctxGen (n m : Nat) : RegKind.ctxGen.off n ≠ RegKind.acntA.off m ∧ RegKind.ctxGen.off n ≠ RegKind.acntB.off m
    ∧ RegKind.ctxGen.off n ≠ RegKind.logPtr.off 0 ∧ RegKind.ctxGen.off n ≠ RegKind.intCntA.off 0 := by
  simp only [RegKind.off_ctxGen, RegKind.off_acntA, RegKind.off_acntB, RegKind.off_logPtr, RegKind.off_intCntA]
  omega

theorem genOf_landedStk (ctx : Nat) : genOf (landedStk l r s) ctx = genOf s ctx := by
  obtain ⟨-, -, hlog, ha⟩ := off_ctxGen ctx 0
  unfold landedStk
  split
  · refine (rd_congr rfl rfl fGen ctx).trans ((rd_logWrite _ _ _ _ hlog).trans (rd_bump_other _ _ _ _ _ ha))
  · rfl

theorem storesWf_count (x : CtxId) (n : Cnt) : (count x n s).storesWf = s.storesWf := rfl

theorem genOf_count (x : CtxId) (n : Cnt) (ctx : Nat) : genOf (count x n s) ctx = genOf s ctx := by
  obtain ⟨ha, hb, -⟩ := off_ctxGen ctx x
  exact (rd_bump_other _ _ _ _ _ hb).trans ((rd_bump_other _ _ _ _ _ ha).trans (rd_bump_other _ _ _ _ _ ha))

end

/-! #### Storing the result -/

/-- The block that a mill writes. -/
def milled (ctx : CtxId) (l : Loc) (fmt : Nat) (pay side : Bytes) (s : State) : Blk := ⟨pay, side, formTag fmt (genOf s ctx) l.term pay side⟩

theorem poisonDel_view {α : Type} {v : State → α} (hv : ∀ s p, v { s with poison := p } = v s) (h : Half) (b : Nat) (s : State) :
    v (poisonDel h b s) = v s := by
  unfold poisonDel
  simp only
  split
  · exact hv s _
  · rfl

theorem mem_millWrite {pay side : Bytes} (hp : pay.length = 2048) (hs : side.length = 128) (ctx : CtxId) (h : Half) (b fmt : Nat)
    (s : State) : (millWrite ctx h b fmt pay side s).mem = (blkStore (.stk h b) (milled ctx (.stk h b) fmt pay side s) s).mem := by
  rw [millWrite]
  simp only [slice_all hp, slice_all hs, wakeRange_mem]
  exact poisonDel_view (v := State.mem) (fun _ _ => rfl) ..

/-- A mill's write touches neither the dies nor what they keep for contexts. -/
theorem millWrite_view {α : Type} {v : State → α}
    (hv : ∀ s m p w r x, v { s with mem := m, poison := p, watches := w, ride := r, xfers := x } = v s)
    (ctx : CtxId) (h : Half) (b fmt : Nat) (pay side : Bytes) (s : State) : v (millWrite ctx h b fmt pay side s) = v s := by
  rw [millWrite, wakeRange_frame]
  refine (hv _ _ _ _ _ _).trans ((poisonDel_view (v := v) (fun s p => hv s s.mem p s.watches s.ride s.xfers) ..).trans ?_)
  exact hv s _ s.poison s.watches s.ride s.xfers

theorem observeAll_view {α : Type} {v : State → α} (hv : ∀ (s : State) (d : Nat) (f : DieSt → List StatSet), v (modDie d (fun e => { e with stats := f e }) s) = v s)
    (d : Nat) (m : AccMsg) (add res : List Nat) (s : State) : v (observeAll d m add res s) = v s := by
  refine foldl_keep (v := v) (fun t n _ => ?_) s
  simp only
  split
  · exact hv t d _
  · rfl

/-- Statistics leave the blocks that a die has admitted. -/
theorem admitted_stats (s : State) (n d : Nat) (f : DieSt → List StatSet) :
    (die (modDie n (fun e => { e with stats := f e }) s) d).admitted = (die s d).admitted := by
  by_cases h : d = n
  · subst h
    rw [die_modDie_same]
  · rw [die_modDie_other _ _ h]

/-! #### The application -/

section
variable {s : State} {d : Die} {k : Nat} {m : AccMsg}

theorem accTargets_fp32 (h : m.blk.fmt ≠ 2) : accTargets m = [m.b] := if_neg h

/-- The sums of an FP32 block with its target. -/
def accSums (s : State) (d : Die) (m : AccMsg) : List Nat :=
  List.zipWith (fun a b => (f32Add a b).1) (wordsLe 4 512 (blkStored s (.stk (dieHalf d) m.b)).pay) (wordsLe 4 512 m.blk.pay)

/-- The counts of those sums. -/
def accSumCnt (s : State) (d : Die) (m : AccMsg) : Cnt :=
  Cnt.zero.add (accAdd (wordsLe 4 512 (blkStored s (.stk (dieHalf d) m.b)).pay) (wordsLe 4 512 m.blk.pay)).2

/-- The state with the sums stored. -/
def accSummed (d : Die) (m : AccMsg) (r : Bool) (s : State) : State :=
  millWrite m.ctx (dieHalf d) m.b 4 (f32Bytes (accSums s d m)) (zeros 128)
    (count m.ctx (accSumCnt s d m) (landedStk (.stk (dieHalf d) m.b) r s))

theorem length_accSums (s : State) (d : Die) (m : AccMsg) : (accSums s d m).length = 512 := by
  simp [accSums, length_wordsLe]

/-- ACCUM_APPLIED of a block whose target lands and that no earlier block shares. -/
theorem exec_accumApplied {t : Nat} {r : Bool} (hm : (die s d).admitted[k]? = some m) (hfmt : m.blk.fmt ≠ 2)
    (hsvc : HwUnit.mill d ∉ s.outOfSvc) (hfree : ∀ q ∈ (die s d).admitted.take k, m.b ∉ accTargets q)
    (hp : poisoned s (.stk (dieHalf d) m.b) = false)
    (hland : landCheck (blkStored s (.stk (dieHalf d) m.b)) (Loc.stk (dieHalf d) m.b).term = .accepted t r) :
    exec (.accumApplied d k) s = .next (accAnswer d m 0
      (modAcc d m.ctx (fun a => { a with window := a.window ++ [(m.strm, m.seq)] })
        (modDie d (fun e => { e with admitted := ldrop e.admitted k })
          (observeAll d m (wordsLe 4 512 m.blk.pay) (accSums s d m) (accSummed d m r s))))) := by
  have hgo : ¬(s.outOfSvc.contains (.mill d) || ((die s d).admitted.take k).any fun n => (accTargets n).any fun b => [m.b].contains b)
      = true := by
    simp only [Bool.or_eq_true, List.contains_iff_mem, List.any_eq_true, List.mem_singleton]
    rintro (h | ⟨q, hq, b, hb, rfl⟩)
    · exact hsvc h
    · exact hfree q hq hb
  have hread : millRead m.ctx (dieHalf d) [m.b] s = (landedStk (.stk (dieHalf d) m.b) r s,
      some [{ blkStored s (.stk (dieHalf d) m.b) with tag := BitVec.ofNat 64 (reformTag t (Loc.stk (dieHalf d) m.b).term 0) }]) := by
    simp only [millRead, blkFetch_stk hp hland]
  have hadd : accAddends m.blk = (wordsLe 4 512 m.blk.pay, .zero) := if_neg hfmt
  change execAccumApplied d k s = _
  simp only [execAccumApplied, hm, accTargets_fp32 hfmt, if_neg hgo, hread, hadd, List.flatMap_cons, List.flatMap_nil, List.append_nil,
    accAdd_fst]
  rw [← accSums]
  simp only [accStore, List.take_of_length_le (Nat.le_of_eq (length_accSums s d m))]
  rfl

/-- The bytes of a mill's block with its tag. -/
theorem length_milled {pay side : Bytes} (hpay : pay.length = 2048) (hside : side.length = 128) (x : CtxId) (l : Loc) (fmt : Nat) (u : State) :
    ((milled x l fmt pay side u).pay ++ (milled x l fmt pay side u).side ++ toLe 8 (milled x l fmt pay side u).tag.toNat).length
      = 2184 := by
  rw [milled, List.length_append, List.length_append, toLe_length, hpay, hside]

/-- The target once the sums are stored. -/
theorem blkStored_accSummed (hwf : s.storesWf = true) (d : Die) (m : AccMsg) (r : Bool) :
    blkStored (accSummed d m r s) (.stk (dieHalf d) m.b) = milled m.ctx (.stk (dieHalf d) m.b) 4 (f32Bytes (accSums s d m)) (zeros 128) s
      ∧ ∀ a n, a + n ≤ (Loc.stk (dieHalf d) m.b).key * 4096 ∨ (Loc.stk (dieHalf d) m.b).key * 4096 + 2184 ≤ a →
        memRead (accSummed d m r s) a n = memRead s a n := by
  have hpay : (f32Bytes (accSums s d m)).length = 2048 := by rw [length_f32Bytes, length_accSums]
  have hside : (zeros 128).length = 128 := by simp [zeros]
  set u := count m.ctx (accSumCnt s d m) (landedStk (.stk (dieHalf d) m.b) r s) with hu
  have humem : u.mem = s.mem := (landedStk_view (v := State.mem) _ r s (fun _ _ _ _ _ _ => rfl))
  have huwf : u.storesWf = true := (storesWf_count ..).trans (storesWf_landedStk (.stk (dieHalf d) m.b) r s hwf)
  have hgen : genOf u m.ctx = genOf s m.ctx := (genOf_count ..).trans (genOf_landedStk ..)
  have hblk : milled m.ctx (.stk (dieHalf d) m.b) 4 (f32Bytes (accSums s d m)) (zeros 128) u
      = milled m.ctx (.stk (dieHalf d) m.b) 4 (f32Bytes (accSums s d m)) (zeros 128) s := by
    rw [milled, hgen, milled]
  have hmem := mem_millWrite hpay hside m.ctx (dieHalf d) m.b 4 u
  rw [hblk] at hmem
  refine ⟨?_, fun a n ha => ?_⟩
  · rw [accSummed, ← hu, blkStored_congr hmem]
    exact blkStored_blkStore huwf _ _ hpay hside
  · rw [accSummed, ← hu, memRead_congr hmem, ← memRead_congr humem]
    refine memRead_memWrite_other huwf _ _ _ _ ?_
    rw [length_milled hpay hside, Loc.addr, Nat.add_zero]
    exact ha

end

/-- Settles O29: an applied FP32 block's sums, tag, window entry, and what it leaves. -/
theorem accumulateAppliesFp32Sums : Obligations.AccumulateAppliesFp32Sums := by
  intro s d k m c hm hfmt hsrc hwf hb h l old new
  refine ⟨fun hno => ?_, fun hsvc hfree hp ⟨tag, r, hland⟩ => ?_⟩
  · have hstop : (s.outOfSvc.contains (.mill d) || ((die s d).admitted.take k).any fun n => (accTargets n).any fun b => [m.b].contains b)
        = true := by
      simp only [Bool.or_eq_true, List.contains_iff_mem, List.any_eq_true, List.mem_singleton]
      exact hno.imp id fun ⟨q, hq, hin⟩ => ⟨q, hq, m.b, hin, rfl⟩
    change execAccumApplied d k s = _
    simp only [execAccumApplied, hm, accTargets_fp32 hfmt, if_pos hstop]
  · obtain ⟨hblk, hother⟩ := blkStored_accSummed hwf d m r
    have hview {α : Type} (v : State → α) (hv : ∀ s c q r x n, v { s with cores := c, ports := q, ride := r, xfers := x, rideNext := n } = v s)
        (u : State) : v (accAnswer d m 0 u) = v u := accAnswer_view hv d m 0 u
    have hmem (u : State) : (observeAll d m (wordsLe 4 512 m.blk.pay) (accSums s d m) u).mem = u.mem :=
      observeAll_view (v := State.mem) (fun _ _ _ => rfl) ..
    have haccs : (accSummed d m r s).accs = s.accs :=
      (millWrite_view (v := State.accs) (fun _ _ _ _ _ _ => rfl) ..).trans
        (landedStk_view (v := State.accs) _ r s (fun _ _ _ _ _ _ => rfl))
    have hdies : (accSummed d m r s).dies = s.dies :=
      (millWrite_view (v := State.dies) (fun _ _ _ _ _ _ => rfl) ..).trans
        (landedStk_view (v := State.dies) _ r s (fun _ _ _ _ _ _ => rfl))
    refine ⟨_, exec_accumApplied hm hfmt hsvc hfree hp hland, ?_, fun a n ha => ?_, ?_, ?_⟩
    · refine (blkStored_congr ?_ l).trans hblk
      rw [hview State.mem (fun _ _ _ _ _ _ => rfl), modAcc_mem, modDie_mem, hmem]
    · refine (memRead_congr ?_ a n).trans (hother a n ha)
      rw [hview State.mem (fun _ _ _ _ _ _ => rfl), modAcc_mem, modDie_mem, hmem]
    · rw [accCtx, hview State.accs (fun _ _ _ _ _ _ => rfl), ← accCtx, accCtx_modAcc_same]
      have hkept : accCtx (modDie d (fun e => { e with admitted := ldrop e.admitted k })
          (observeAll d m (wordsLe 4 512 m.blk.pay) (accSums s d m) (accSummed d m r s))) d m.ctx = accCtx s d m.ctx := by
        rw [accCtx, modDie_accs, observeAll_view (v := State.accs) (fun _ _ _ => rfl), haccs, ← accCtx]
      rw [hkept]
    · rw [die, hview State.dies (fun _ _ _ _ _ _ => rfl), modAcc_dies, ← die, die_modDie_same]
      simp only [ldrop]
      rw [observeAll_view (v := fun s => (die s d).admitted) (fun s n f => admitted_stats s n d f), die, hdies, ← die]

end Sys2Proof.Machine
end

section
/-! ### SIGNAL, SIGNAL_COMMIT and SIGNAL_ACK (spec/05 R160, R167, R168; spec/06 R199 to R204) -/

namespace Sys2Proof.Machine

/-! #### Issue -/

/-- The state after a repeat that hands one operation over. -/
def handedOver (c : CoreId) (e : Engine) (d : Desc) (l : ListSet) (rep : Nat) (k' : Ctl) (r : Nat) (op : POp) (s : State) : State :=
  modCore c (fun x => { (x.modCtl e fun _ => k'.advance l e d.chunks rep) with
    pend := x.pend ++ [⟨d.ctx, e, r, none, op⟩], nextRpt := r + 1 }) s

theorem pend_modCtl (x : Core) (e : Engine) (f : Ctl → Ctl) : (x.modCtl e f).pend = x.pend := by cases e <;> rfl

theorem nextRpt_modCtl (x : Core) (e : Engine) (f : Ctl → Ctl) : (x.modCtl e f).nextRpt = x.nextRpt := by cases e <;> rfl

section
variable {s s1 : State} {c : CoreId} {e : Engine} {d : Desc} {l : ListSet} {rep amt : Nat} {word : Opd} {k' : Ctl} {t : Target}

/-- A repeat whose registers step advances, takes a number and hands its operation over. -/
theorem issue_pendAdd {k : Ctl} (hstep : stepArs (steppedArs [word]) k = .ok k') (op : POp) :
    (issue c e d l k rep none [word] s1 fun s2 =>
      pendAdd c ⟨d.ctx, e, (newRpt c s2).2, none, op⟩ (newRpt c s2).1) = handedOver c e d l rep k' (core s1 c).nextRpt op s1 := by
  simp only [issue, hstep, newRpt, pendAdd, setCtl, modCore_modCore, core_modCore_same, handedOver, nextRpt_modCtl, pend_modCtl]
  exact modCore_congr rfl

/-- What a SIGNAL whose word resolves hands over, by where the word lies. -/
theorem exec_signal (h : AtRepeat s c e d l rep (.signal word amt))
    (hchk : checkOpd s c signalRegions 4 0 ((engCtl s c e).opAddr word) = none)
    (hres : resolve c d.ctx .write 0 ((engCtl s c e).opAddr word) s = (s1, t))
    (hstep : stepArs (steppedArs [word]) (engCtl s c e) = .ok k') :
    (∀ p off, t = .here p off → exec (.signal c e) s = .next (handedOver c e d l rep k' (core s1 c).nextRpt
        (.signal ((engCtl s c e).opAddr word) (p.addr off) (BitVec.ofNat 32 amt) .issued (engCtl s c e)) s1))
    ∧ (∀ a b x y z, t = .remote a b x y z → exec (.signal c e) s = .next (handedOver c e d l rep k' (core s1 c).nextRpt
        (.farSignal ((engCtl s c e).opAddr word) (BitVec.ofNat 32 amt) (engCtl s c e)) s1))
    ∧ (∀ h off, t = .station h off → stnFault s1 d.ctx h off 4 .atomic = none → exec (.signal c e) s = .next
        (handedOver c e d l rep k' (core s1 c).nextRpt (.farSignal ((engCtl s c e).opAddr word) (BitVec.ofNat 32 amt) (engCtl s c e)) s1))
    ∧ (∀ h off code, t = .station h off → stnFault s1 d.ctx h off 4 .atomic = some code → exec (.signal c e) s =
        .next (engFault c e code 0 ((engCtl s c e).opAddr word).toNat s1)) := by
  refine ⟨?here, ?remote, ?station, ?refused⟩
  case here =>
    rintro p off rfl
    refine congrArg Host.Outcome.next ((onRepeat_at h rfl _).trans ?_)
    simp only [hchk, hres]
    exact issue_pendAdd hstep _
  case remote =>
    rintro a b x y z rfl
    refine congrArg Host.Outcome.next ((onRepeat_at h rfl _).trans ?_)
    simp only [hchk, hres]
    exact issue_pendAdd hstep _
  case station =>
    rintro n off rfl hfault
    refine congrArg Host.Outcome.next ((onRepeat_at h rfl _).trans ?_)
    simp only [hchk, hres, hfault]
    exact issue_pendAdd hstep _
  case refused =>
    rintro n off code rfl hfault
    refine congrArg Host.Outcome.next ((onRepeat_at h rfl _).trans ?_)
    simp only [hchk, hres, hfault]

end

/-! #### Commit -/

/-- A signal that its engine has issued and not committed. -/
def uncommitted (e : Engine) (p : Pend) : Bool :=
  p.eng == e && match p.op with
    | .signal _ _ _ .issued _ => true
    | .farSignal .. => true
    | _ => false

theorem uncommitted_other {e : Engine} {p : Pend} (h : p.eng ≠ e) : uncommitted e p = false := by simp [uncommitted, h]

theorem uncommitted_noSignal {e : Engine} {p : Pend} (hfar : ∀ va amt k, p.op ≠ .farSignal va amt k)
    (hnear : ∀ va w amt k, p.op ≠ .signal va w amt .issued k) : uncommitted e p = false := by
  rw [uncommitted, Bool.and_eq_false_iff]
  refine .inr ?_
  split
  next h => exact absurd h (hnear _ _ _ _)
  next h => exact absurd h (hfar _ _ _)
  next => rfl

theorem nextCommit_eq (x : Core) (e : Engine) :
    nextCommit x e = (x.pend[x.pend.findIdx (uncommitted e)]?).map fun p => (x.pend.findIdx (uncommitted e), p) := rfl

/-- The next signal to commit is the first uncommitted one. -/
theorem nextCommit_first {x : Core} {e : Engine} {i : Nat} {p : Pend} (hp : x.pend[i]? = some p) (hu : uncommitted e p = true)
    (hno : ∀ q ∈ x.pend.take i, uncommitted e q = false) : nextCommit x e = some (i, p) := by
  obtain ⟨hi, hget⟩ := List.getElem?_eq_some_iff.mp hp
  have hsplit : x.pend = x.pend.take i ++ p :: x.pend.drop (i + 1) := by
    rw [← hget, ← List.drop_eq_getElem_cons hi, List.take_append_drop]
  have hidx : x.pend.findIdx (uncommitted e) = i := by
    have h := findIdx_first (post := x.pend.drop (i + 1)) hno hu
    rw [← hsplit, List.length_take_of_le (Nat.le_of_lt hi)] at h
    exact h
  rw [nextCommit_eq, hidx, hp]
  rfl

section
variable {s : State} {c : CoreId} {e : Engine} {i rpt w : Nat} {x : CtxId} {ride : Option Nat} {va : BitVec 56} {amt : BitVec 32}
  {k : Ctl}

theorem uncommitted_issued : uncommitted e ⟨x, e, rpt, ride, .signal va w amt .issued k⟩ = true := by simp [uncommitted]

theorem commitReady_iff {y : Core} {p : Pend} : commitReady y e i p = true ↔ (∀ q ∈ y.pend.take i, q.eng ≠ e)
    ∧ (e = .lde → ∀ r ∈ y.rewinds, p.rpt < r.rpt) ∧ (e = .mxe → ∀ q ∈ y.mxe.passes, p.rpt < q.rpt) := by
  simp only [commitReady, Bool.and_eq_true, Bool.or_eq_true, List.all_eq_true, bne_iff_ne, decide_eq_true_eq, and_assoc, ne_eq]
  rw [← imp_iff_not_or, ← imp_iff_not_or]

/-- A signal that is next and may not commit stays. -/
theorem exec_signalCommit_held {p : Pend} (hnext : nextCommit (core s c) e = some (i, p))
    (hno : (core s c).forced = true ∨ commitReady (core s c) e i p = false) : exec (.signalCommit c e) s = .next s := by
  change execSignalCommit c e s = _
  have hstop : ((core s c).forced || !commitReady (core s c) e i p) = true := by
    rcases hno with h | h <;> simp [h]
  simp only [execSignalCommit, hnext, if_pos hstop]

/-- A forced core commits nothing. -/
theorem exec_signalCommit_forced (h : (core s c).forced = true) : exec (.signalCommit c e) s = .next s := by
  rcases hnext : nextCommit (core s c) e with _ | ⟨i, p⟩
  · change execSignalCommit c e s = _
    simp only [execSignalCommit, hnext]
  · exact exec_signalCommit_held hnext (.inl h)

/-- A signal to a word of the core's half that may commit is committed. -/
theorem exec_signalCommit (hp : (core s c).pend[i]? = some ⟨x, e, rpt, ride, .signal va w amt .issued k⟩)
    (hfirst : ∀ q ∈ (core s c).pend.take i, q.eng ≠ e) (hforced : (core s c).forced = false)
    (hlde : e = .lde → ∀ r ∈ (core s c).rewinds, rpt < r.rpt) (hmxe : e = .mxe → ∀ q ∈ (core s c).mxe.passes, rpt < q.rpt)
    (hhalf : w / 4096 / 2 ^ 28 % 2 = coreHalf c) :
    exec (.signalCommit c e) s = .next (modCore c (fun y => { y with
      pend := y.pend.set i ⟨x, e, rpt, none, .signal va w amt .committed k⟩ }) s) := by
  change execSignalCommit c e s = _
  have hnext := nextCommit_first hp uncommitted_issued fun q hq => uncommitted_other (hfirst q hq)
  have hgo : ¬((core s c).forced || !commitReady (core s c) e i ⟨x, e, rpt, ride, .signal va w amt .issued k⟩) = true := by
    rw [commitReady_iff.mpr ⟨hfirst, hlde, hmxe⟩, hforced]
    decide
  simp only [execSignalCommit, hnext, if_neg hgo, commitLocal, if_pos hhalf]
  exact congrArg Host.Outcome.next (modPend_at hp rfl)

end

/-! #### Acknowledgement -/

/-- What a removed operation leaves. -/
theorem dropPend_view {α : Type} {v : State → α} (hv : ∀ s c i r, v { s with cores := c, invWaits := i, reports := r } = v s)
    (c k : Nat) (s : State) : v (dropPend c k s) = v s := by
  have hsettle (u : State) : v (settleInvs u) = v u := by
    unfold settleInvs
    split
    · rfl
    · exact hv u u.cores _ _
  rw [dropPend, hsettle]
  exact hv s _ s.invWaits s.reports

theorem rd_dropPend (c k : Nat) (s : State) (f : Fld) (i : Nat) : rd (dropPend c k s) f i = rd s f i :=
  dropPend_view (v := fun s => rd s f i) (fun _ _ _ _ => rd_congr rfl rfl _ _) c k s

/-- SYNC_STAT with one more saturation. -/
def satCounted (x : CtxId) (s : State) : State := bump fSatCount x 1 (wr fSyncSat x 1 s)

theorem noteSat_eq (x : CtxId) (va : Nat) (s : State) : noteSat x va s =
    if !rdb s fSyncSat x then
      logWrite 0x0102 srcSch (toLe 1 x.val ++ zeros 7 ++ toLe 7 va ++ zeros 1)
        (wr fSatAddr x va { satCounted x s with satAt := tset (satCounted x s).satAt x s.time })
    else if s.satAt.contains (x.val, s.time) then wr fSatAddr x (min va (rd s fSatAddr x)) (satCounted x s)
    else satCounted x s := rfl

theorem rd_satAt (u : State) (m : Table Nat) (f : Fld) (i : Nat) : rd { u with satAt := m } f i = rd u f i := rd_congr rfl rfl _ _

theorem off_syncStat (x : CtxId) : fSyncSat.reg.off x ≠ fSatAddr.reg.off x ∧ fSatCount.reg.off x ≠ fSatAddr.reg.off x
    ∧ fSatAddr.reg.off x ≠ fSyncSat.reg.off x ∧ fSatAddr.reg.off x ≠ fSatCount.reg.off x
    ∧ fSyncSat.reg.off x ≠ RegKind.logPtr.off 0 ∧ fSatCount.reg.off x ≠ RegKind.logPtr.off 0 ∧ fSatAddr.reg.off x ≠ RegKind.logPtr.off 0 := by
  simp only [fSyncSat, fSatCount, fSatAddr, RegKind.off_syncStat, RegKind.off_satAddr, RegKind.off_logPtr]; omega

theorem rd_satCounted (x : CtxId) (s : State) : rd (satCounted x s) fSyncSat x = 1
    ∧ rd (satCounted x s) fSatCount x = min (rd s fSatCount x + 1) 65535 ∧ rd (satCounted x s) fSatAddr x = rd s fSatAddr x := by
  obtain ⟨-, -, hsat, hcnt', -, -, -⟩ := off_syncStat x
  have hcnt : rd (wr fSyncSat x 1 s) fSatCount x = rd s fSatCount x := rd_wr_beside ..
  have hmax : 2 ^ fSatCount.w - 1 = 65535 := by decide
  unfold satCounted
  refine ⟨(rd_bump_beside ..).trans (rd_wr_field ..), ?_, (rd_bump_other _ _ _ _ _ hcnt').trans (rd_wr_other _ _ hsat)⟩
  rw [rd_bump_field _ fSatCount, hcnt, hmax]

/-- A saturation noted leaves SYNC_SAT 1 and counts. -/
theorem rd_noteSat (x : CtxId) (va : Nat) (s : State) : rd (noteSat x va s) fSyncSat x = 1
    ∧ rd (noteSat x va s) fSatCount x = min (rd s fSatCount x + 1) 65535 := by
  obtain ⟨hstat, hcount, -, -, hlog, hclog, -⟩ := off_syncStat x
  obtain ⟨hsat, hcnt, -⟩ := rd_satCounted x s
  rw [noteSat_eq]
  split
  · rw [rd_logWrite _ _ _ _ hlog, rd_logWrite _ _ _ _ hclog, rd_wr_other _ _ hstat, rd_wr_other _ _ hcount, rd_satAt, rd_satAt]
    exact ⟨hsat, hcnt⟩
  · split
    · rw [rd_wr_other _ _ hstat, rd_wr_other _ _ hcount]
      exact ⟨hsat, hcnt⟩
    · exact ⟨hsat, hcnt⟩

/-- The first saturation gives SAT_ADDR its word. -/
theorem rd_satAddr_first (x : CtxId) (va : BitVec 56) {s : State} (h : rd s fSyncSat x = 0) :
    rd (noteSat x va.toNat s) fSatAddr x = va.toNat := by
  obtain ⟨-, -, -, -, -, -, hlog⟩ := off_syncStat x
  have hb : (!rdb s fSyncSat x) = true := by simp [rdb, h]
  rw [noteSat_eq, if_pos hb]
  exact (rd_logWrite _ _ _ _ hlog).trans ((rd_wr_field ..).trans (Nat.mod_eq_of_lt va.isLt))

/-- A saturation of the same cycle lowers SAT_ADDR to its word. -/
theorem rd_satAddr_same (x : CtxId) (va : BitVec 56) {s : State} (h : rd s fSyncSat x = 1) (hnow : (x.val, s.time) ∈ s.satAt) :
    rd (noteSat x va.toNat s) fSatAddr x = min va.toNat (rd s fSatAddr x) := by
  have hb : ¬(!rdb s fSyncSat x) = true := by simp [rdb, h]
  rw [noteSat_eq, if_neg hb, if_pos (List.contains_iff_mem.mpr hnow)]
  exact (rd_wr_field ..).trans (Nat.mod_eq_of_lt (Nat.lt_of_le_of_lt (Nat.min_le_left ..) va.isLt))

/-- A later saturation leaves SAT_ADDR. -/
theorem rd_satAddr_later (x : CtxId) (va : Nat) {s : State} (h : rd s fSyncSat x = 1) (hnow : (x.val, s.time) ∉ s.satAt) :
    rd (noteSat x va s) fSatAddr x = rd s fSatAddr x := by
  have hb : ¬(!rdb s fSyncSat x) = true := by simp [rdb, h]
  rw [noteSat_eq, if_neg hb, if_neg (mt List.contains_iff_mem.mp hnow)]
  exact (rd_satCounted x s).2.2

theorem core_noteSat (x : CtxId) (va : Nat) (s : State) (n : Nat) : core (noteSat x va s) n = core s n := by
  unfold noteSat
  split
  · rw [core_logWrite]; rfl
  · split <;> rfl

theorem mem_noteSat (x : CtxId) (va : Nat) (s : State) : (noteSat x va s).mem = s.mem := by
  unfold noteSat
  split
  · rw [logWrite_mem]; rfl
  · split <;> rfl

section
variable {s : State} {c : CoreId} {e : Engine} {i rpt w : Nat} {x : CtxId} {ride : Option Nat} {va : BitVec 56} {amt : BitVec 32}
  {k : Ctl}

/-- SIGNAL_ACK of an applied signal whose acknowledgement has arrived. -/
theorem exec_signalAck {sat : Bool} (hp : (core s c).pend[i]? = some ⟨x, e, rpt, ride, .signal va w amt (.applied sat) k⟩)
    (hride : rideArrived s ride = true) :
    exec (.signalAck c i) s = .next (if sat then noteSat x va.toNat (dropPend c i s) else dropPend c i s) := by
  change execSignalAck c i s = _
  simp only [execSignalAck, hp, hride, Bool.not_true, Bool.false_eq_true, if_false]

/-- SIGNAL_ACK before that. -/
theorem exec_signalAck_early {st : SigState} (hp : (core s c).pend[i]? = some ⟨x, e, rpt, ride, .signal va w amt st k⟩)
    (h : st = .issued ∨ st = .committed ∨ rideArrived s ride = false) : exec (.signalAck c i) s = .next s := by
  change execSignalAck c i s = _
  rcases st with _ | _ | sat
  · simp only [execSignalAck, hp]
  · simp only [execSignalAck, hp]
  · have hride : rideArrived s ride = false := by simpa using h
    simp only [execSignalAck, hp, hride, Bool.not_false, if_true]

end

/-- Settles O9: SIGNAL's issue, its commit in order and its acknowledgement. -/
theorem signalIssuesAndCommitsAfterEarlierWrites : Obligations.SignalIssuesAndCommitsAfterEarlierWrites := by
  refine ⟨⟨?_, ?_⟩, ?_⟩
  · intro s s1 c e d l rep amt word k' t hat k va hchk hres hstep r done
    have h := exec_signal hat hchk hres hstep
    rwa [core_resolve hres c] at h
  · intro s c e i rpt w x ride va amt k hp
    refine ⟨fun h1 h2 h3 h4 h5 => exec_signalCommit hp h1 h2 h3 h4 h5, exec_signalCommit_forced, ?pass, ?earlier⟩
    case pass =>
      rintro rfl hfirst ⟨q, hq, hle⟩
      refine exec_signalCommit_held (nextCommit_first hp uncommitted_issued fun q hq => uncommitted_other (hfirst q hq)) (.inr ?_)
      refine Bool.eq_false_iff.mpr fun h => ?_
      obtain ⟨-, -, hpass⟩ := commitReady_iff.mp h
      exact absurd (hpass rfl q hq) (Nat.not_lt.mpr hle)
    case earlier =>
      intro j q hj hq heng hfar hnear
      refine exec_signalCommit_held
        (nextCommit_first hp uncommitted_issued fun q' h => uncommitted_noSignal (hfar q' h) (hnear q' h)) (.inr ?_)
      refine Bool.eq_false_iff.mpr fun h => ?_
      obtain ⟨hno, -, -⟩ := commitReady_iff.mp h
      exact hno q (List.mem_of_getElem? ((List.getElem?_take_of_lt hj).trans hq)) heng
  · intro s c i rpt w x e ride va amt st k hp
    refine ⟨?clean, ?saturated, exec_signalAck_early hp⟩
    case clean =>
      rintro rfl hride
      exact exec_signalAck hp hride
    case saturated =>
      rintro rfl hride
      have hrd (f : Fld) : rd (dropPend c i s) f x = rd s f x := rd_dropPend ..
      have hat : ((x.val, (dropPend c i s).time) ∈ (dropPend c i s).satAt) = ((x.val, s.time) ∈ s.satAt) :=
        dropPend_view (v := fun u => (x.val, u.time) ∈ u.satAt) (fun _ _ _ _ => rfl) ..
      obtain ⟨hsat, hcnt⟩ := rd_noteSat x va.toNat (dropPend c i s)
      refine ⟨_, exec_signalAck hp hride, ?_, hsat, by rw [← hrd]; exact hcnt, fun h => rd_satAddr_first x va ((hrd _).trans h),
        fun h hin => (rd_satAddr_same x va ((hrd _).trans h) (hat.symm ▸ hin)).trans (by rw [hrd]),
        fun h hin => (rd_satAddr_later x va.toNat ((hrd _).trans h) (hat.symm ▸ hin)).trans (hrd _), ?_⟩
      · rw [if_pos rfl, core_noteSat, core_dropPend hp]
      · rw [if_pos rfl, mem_noteSat, dropPend_view (v := State.mem) (fun _ _ _ _ => rfl)]

end Sys2Proof.Machine
end

section
/-! ### LTILE, LVEC and LQ (spec/05 R187 to R189, spec/04 R147) -/

namespace Sys2Proof.Machine

/-! #### Reads that cross the ride -/

/-- A read leaves the cores. -/
theorem core_rideRead (c : Nat) (ctx : CtxId) (l : Loc) (data : Bytes) (s : State) (n : Nat) :
    core (rideRead c ctx l data s).1 n = core s n := by
  by_cases h : l.half.val = coreHalf c
  · rw [rideRead, if_pos h]
    exact core_coreAsk ..
  · obtain ⟨t, id, hread, hcores, -⟩ := rideRead_far h ctx data s
    rw [hread]
    exact congrArg (tget · n Core.reset) hcores

theorem core_crossReads (c : Nat) (ctx : CtxId) (ts : List Target) (bs : List Blk) (last : Option Nat) (s : State) (n : Nat) :
    core (crossReads c ctx ts bs last s).1 n = core s n := by
  induction ts generalizing bs last s with
  | nil => rfl
  | cons t ts ih =>
    rcases t with ⟨p, off⟩ | _ | _ | _ | _
    · rcases bs with _ | ⟨b, bs⟩
      · rfl
      · unfold crossReads
        rcases hr : rideRead c ctx p (rideBlock (p.addr 0) b) s with ⟨s1, r⟩
        have hread : core s1 n = core s n := (congrArg (core ·.1 n) hr).symm.trans (core_rideRead ..)
        rcases r with _ | id
        · exact (ih bs last s1).trans hread
        · exact (ih bs (some id) s1).trans hread
    all_goals rfl

/-! #### The three loads -/

/-- The load of a delivery's kind, with its operation and the blocks it reads. -/
def loadForms (c : CoreId) (fmt : Nat) (src : Opd) : List (Instr × SOp × DelivKind × Nat) :=
  [(.ltile c, .ltile fmt src, .tile, 8), (.lvec c, .lvec fmt src, .vec, 1), (.lq c, .lq fmt src, .queue, 1)]

section
variable {s : State} {c : CoreId} {d : Desc} {l : ListSet} {rep fmt : Nat} {src : Opd} {i : Instr} {op : SOp} {kind : DelivKind} {n : Nat}

theorem exec_load (hi : (i, op, kind, n) ∈ loadForms c fmt src) (h : AtRepeat s c .lde d l rep op) :
    exec i s = .next (loadRepeat c kind n fmt src d l (engCtl s c .lde) rep s) := by
  simp only [loadForms, List.mem_cons, Prod.mk.injEq, List.not_mem_nil, or_false] at hi
  obtain ⟨rfl, rfl, rfl, rfl⟩ | ⟨rfl, rfl, rfl, rfl⟩ | ⟨rfl, rfl, rfl, rfl⟩ := hi <;>
    exact congrArg Host.Outcome.next (onRepeat_at h rfl _)

/-- An LDE that holds 16 rewind records issues nothing. -/
theorem gate_rewinds (h : 16 ≤ (core s c).rewinds.length) (opc : Nat) : gate s c .lde opc = .idle := by
  have hno : mayIssue s c .lde = false := by simp [mayIssue, h]
  unfold gate
  rcases (core s c).run with _ | ⟨d, l⟩
  · rfl
  · simp only [hno]
    rfl

theorem exec_load_full (hi : (i, op, kind, n) ∈ loadForms c fmt src) (h : 16 ≤ (core s c).rewinds.length) : exec i s = .next s := by
  simp only [loadForms, List.mem_cons, Prod.mk.injEq, List.not_mem_nil, or_false] at hi
  obtain ⟨rfl, -⟩ | ⟨rfl, -⟩ | ⟨rfl, -⟩ := hi <;>
    exact congrArg Host.Outcome.next (onRepeat_idle (gate_rewinds h _) _)

variable {k k' : Ctl} {s1 s2 : State} {ts : List Target} {bs : List Blk}

/-- A load whose blocks are there queues them, or faults at one of another format. -/
theorem loadRepeat_blocks (hchk : checkUnits s c anyLocal 2048 0 (unitVas (k.opAddr src) 2048 n) = none)
    (hres : resolveAll c d.ctx .read 0 (unitVas (k.opAddr src) 2048 n) s = (s1, .all ts))
    (hstep : stepArs (steppedArs [src]) k = .ok k')
    (hblk : (aheadFor (core s1 c) k (k.opAddr src) = none ∧ fetchAll d.ctx ts s1 = (s2, .ok bs))
      ∨ ∃ a, aheadFor (core s1 c) k (k.opAddr src) = some a ∧ s2 = s1 ∧ bs = a.blks) :
    (wrongFmt fmt bs = none → loadRepeat c kind n fmt src d l k rep s =
      addDeliv c kind fmt bs (k.opAddr src) (crossReads c d.ctx ts bs none s2).2 k
        (setCtl c .lde (k'.advance l .lde d.chunks rep) (crossReads c d.ctx ts bs none s2).1))
    ∧ ∀ f, wrongFmt fmt bs = some f → loadRepeat c kind n fmt src d l k rep s =
      let t := engFault c .lde fcFormat (fmtDetail f fmt) (k.opAddr src).toNat s2
      if kind = .queue then t else lateCut c s t := by
  rcases hblk with ⟨ha, hf⟩ | ⟨a, ha, rfl, rfl⟩
  · refine ⟨fun hw => ?_, fun f hw => ?_⟩ <;> simp only [loadRepeat, hchk, hres, hstep, ha, hf, hw]
  · refine ⟨fun hw => ?_, fun f hw => ?_⟩ <;> simp only [loadRepeat, hchk, hres, hstep, ha, hw]

theorem wrongFmt_none (h : ∀ b ∈ bs, b.fmt = fmt) : wrongFmt fmt bs = none := by
  rw [wrongFmt, List.find?_eq_none.mpr fun b hb => by simp [h b hb]]
  rfl

theorem wrongFmt_first {good more : List Blk} {b : Blk} (hgood : ∀ g ∈ good, g.fmt = fmt) (hb : b.fmt ≠ fmt) :
    wrongFmt fmt (good ++ b :: more) = some b.fmt := by
  rw [wrongFmt, List.find?_append, List.find?_eq_none.mpr fun g hg => by simp [hgood g hg], Option.none_or,
    List.find?_cons_of_pos (by simpa using hb)]
  rfl

end

/-- A delivery added after control has moved on. -/
theorem core_addDeliv {c : CoreId} {kind : DelivKind} {fmt : Nat} {bs : List Blk} {src : BitVec 56} {ride : Option Nat} {k k' : Ctl}
    {s u : State} (hs : ∀ n, core u n = core s n) :
    let t := addDeliv c kind fmt bs src ride k (setCtl c .lde k' u)
    (core t c).deliv = (core s c).deliv ++ [⟨kind, fmt, bs, src, ride⟩]
      ∧ (core t c).rewinds = (core s c).rewinds ++ [⟨(core s c).nextRpt, kind,
          match kind with | .tile => (core s c).tiles | .vec => (core s c).vecBlks | .queue => 0, k⟩]
      ∧ engCtl t c .lde = k' ∧ ∀ n : Nat, n ≠ c → core t n = core s n := by
  intro t
  have hsame : core t c = _ := core_modCore_same ..
  rw [core_modCore_same, core_setCtl_same, hs c] at hsame
  refine ⟨by rw [hsame]; rfl, by rw [hsame]; rfl, by rw [engCtl, hsame]; rfl, fun n hn => ?_⟩
  exact (core_modCore_other _ _ hn).trans ((core_modCore_other _ _ hn).trans ((core_setCtl_other hn).trans (hs n)))

/-- Settles O14: a load queues the blocks that it got, or faults at the first of another format. -/
theorem loadInstructionsQueueADelivery : Obligations.LoadInstructionsQueueADelivery := by
  intro s c d l rep fmt src i op kind n hi
  refine ⟨fun h => exec_load_full hi h, fun hat => ?_⟩
  intro k va s1 s2 ts k' bs hchk hres hstep hblk
  obtain ⟨hqueue, hwrong⟩ := loadRepeat_blocks (l := l) (rep := rep) (kind := kind) (fmt := fmt) hchk hres hstep hblk
  refine ⟨fun hfmt => ?_, fun good b more hbs hgood hb => ?_⟩
  · obtain ⟨hdeliv, hrew, hctl, hother⟩ := core_addDeliv (kind := kind) (fmt := fmt) (bs := bs) (src := va)
      (ride := (crossReads c d.ctx ts bs none s2).2) (k := k) (k' := k'.advance l .lde d.chunks rep)
      (fun n => core_crossReads c d.ctx ts bs none s2 n)
    exact ⟨_, (exec_load hi hat).trans (congrArg Host.Outcome.next (hqueue (wrongFmt_none hfmt))), hdeliv, hrew, hctl, hother, rfl⟩
  · subst hbs
    exact (exec_load hi hat).trans (congrArg Host.Outcome.next (hwrong _ (wrongFmt_first hgood hb)))

end Sys2Proof.Machine
end

section
/-! ### MPASS and MUNLOAD (spec/05 R175 to R178, spec/03 R97, R104) -/

namespace Sys2Proof.Machine

section
variable {s : State} {c : CoreId} {d : Desc} {l : ListSet} {rep fmt dmode nv salt : Nat} {keep sr : Bool} {dst : Opd} {k' : Ctl}

/-- A pass issued on a tile: control moved on, one repeat number taken. -/
def passIssued (s : State) (c : CoreId) (d : Desc) (l : ListSet) (rep fmt dmode nv salt : Nat) (sr : Bool) (dst : Opd) (k' : Ctl)
    (tile : Nat) (new : Bool) : State :=
  let k := engCtl s c .mxe
  let m := (core s c).mxe
  modCore c (fun x => { (x.modCtl .mxe fun _ => k'.advance l .mxe d.chunks rep) with
    nextRpt := x.nextRpt + 1
    mxe := { m with
      firstPass := false
      taken := if new then tile + 1 else m.taken
      vecs := m.vecs + nv
      passes := m.passes ++ [⟨(core s c).nextRpt, k, fmt, dmode, sr, dst.q, k.opAddr dst, nv, tile, new,
        baseCounter salt k.chunk k.rep (128 * nv), m.vecs + nv, List.replicate 8 0, 0, List.replicate 8 0⟩] } }) s

/-- What an MPASS repeat past its checks does with its tile, the next staged one or the active one. -/
theorem exec_mpass (h : AtRepeat s c .mxe d l rep (.mpass fmt dmode keep sr dst nv salt))
    (hdst : mpassDst s c dmode dst nv ((engCtl s c .mxe).opAddr dst) = none) (hready : mpassReady (core s c).mxe = true)
    (hhalt : (core s c).mxe.halted = false) (hstep : stepArs (steppedArs [dst]) (engCtl s c .mxe) = .ok k') :
    exec (.mpass c) s = .next (if keep = true ∨ (core s c).mxe.firstPass = true then
      match (core s c).mxe.activeTile with
      | none => engFault c .mxe fcNoTile 0 0 s
      | some (t, f) => if f ≠ fmt then engFault c .mxe fcFormat (fmtDetail f fmt) 0 s
        else passIssued s c d l rep fmt dmode nv salt sr dst k' t false
    else
      match lget (core s c).mxe.wsbs ((core s c).mxe.taken % 2) none with
      | none => s
      | some w => if w.fmt ≠ fmt then engFault c .mxe fcFormat (fmtDetail w.fmt fmt) 0 s
        else passIssued s c d l rep fmt dmode nv salt sr dst k' (core s c).mxe.taken true) := by
  have hgo : ¬((!mpassReady (core s c).mxe || (core s c).mxe.halted) = true) := by rw [hready, hhalt]; decide
  refine congrArg Host.Outcome.next ((onRepeat_at h rfl _).trans ?_)
  simp only [hdst, if_neg hgo, issue_steps hstep]
  simp only [newRpt, modMxe, setCtl, modCore_modCore, core_modCore_same]
  rfl

end

/-! #### MUNLOAD -/

/-- Rows unloaded to leaf store are unloaded all. -/
theorem unloadRows_leaf (c : CoreId) (ctx : CtxId) (dmode : Nat) (mode : Rnd) (src dst f n : Nat) (s : State) :
    (core (unloadRows c ctx dmode mode src dst false (f + 1) n s) c).mxe.unload = n + (f + 1) := by
  induction f generalizing n s with
  | zero =>
    simp only [unloadRows, Bool.not_false, Bool.true_or, Bool.not_true, Bool.false_eq_true, if_false, modMxe]
    rw [core_modCore_same]
  | succ f ih =>
    rw [unloadRows]
    simp only [Bool.not_false, Bool.true_or, Bool.not_true, Bool.false_eq_true, if_false]
    rw [ih, Nat.add_assoc, Nat.add_comm 1]

section
variable {s : State} {c : CoreId} {d : Desc} {l : ListSet} {rep dmode nr salt : Nat} {sr : Bool} {dst src : Opd} {k' : Ctl}

/-- What an MUNLOAD repeat past its checks does, with no pass in flight. -/
theorem exec_munload (h : AtRepeat s c .mxe d l rep (.munload dmode sr dst src nr salt))
    (hdst : dst.q = false → mpassDst s c dmode dst nr ((engCtl s c .mxe).opAddr dst) = none)
    (hchk : checkOpd s c { ownAcc := true } 1024 1 ((engCtl s c .mxe).opAddr src) = none)
    (hwin : windowFits ((engCtl s c .mxe).opAddr src) (nr * 1024) = true) (hpasses : (core s c).mxe.passes = [])
    (hhalt : (core s c).mxe.halted = false) (hstep : stepArs (steppedArs [dst, src]) (engCtl s c .mxe) = .ok k') (dup : Bool) :
    let k := engCtl s c .mxe
    let s1 := unloadRows c d.ctx dmode (rndOf s d.ctx sr (baseCounter salt k.chunk k.rep (128 * nr)))
      ((k.opAddr src).toNat % 2 ^ 19) ((k.opAddr dst).toNat % 2 ^ 19) dst.q (nr - (core s c).mxe.unload) (core s c).mxe.unload s
    exec (.munload c dup) s = .next (if dup then abft c 2 k s
      else if (core s1 c).mxe.unload < nr then s1
      else setCtl c .mxe (k'.advance l .mxe d.chunks rep) (modMxe c (fun m => { m with unload := 0 }) s1)) := by
  have hq : (if dst.q then none else mpassDst s c dmode dst nr ((engCtl s c .mxe).opAddr dst)) = none := by
    split
    · rfl
    · next hq => exact hdst (Bool.eq_false_iff.mpr hq)
  have hgo : ¬((!(core s c).mxe.passes.isEmpty || (core s c).mxe.halted) = true) := by rw [hpasses, hhalt]; decide
  refine congrArg Host.Outcome.next ((onRepeat_at h rfl _).trans ?_)
  simp only [hq, hchk, hwin, if_true, firstFault, if_neg hgo, hstep]

end

/-- Settles O19: a pass on its tile, and rows unloaded in order. -/
theorem matrixPassIssuesAndUnloads : Obligations.MatrixPassIssuesAndUnloads := by
  refine ⟨?mpass, ?munload⟩
  case mpass =>
    intro s c d l rep fmt dmode nv salt keep sr dst k' h k m va hdst hready hhalt hstep pass issued
    have hexec := exec_mpass h hdst hready hhalt hstep
    refine ⟨fun w hkeep hfirst hw => ?_, fun t f hk ht => ?_, fun hk ht => ?_⟩
    · have hno : ¬(keep = true ∨ (core s c).mxe.firstPass = true) := by rw [hkeep]; simpa using hfirst
      have hw' : lget (core s c).mxe.wsbs ((core s c).mxe.taken % 2) none = some w := hw
      rw [if_neg hno, hw'] at hexec
      exact ⟨fun hf => hexec.trans (congrArg Host.Outcome.next (if_neg (not_not_intro hf))),
        fun hf => hexec.trans (congrArg Host.Outcome.next (if_pos hf))⟩
    · have ht' : (core s c).mxe.activeTile = some (t, f) := ht
      rw [if_pos hk, ht'] at hexec
      exact ⟨fun hf => hexec.trans (congrArg Host.Outcome.next (if_neg (not_not_intro hf))),
        fun hf => hexec.trans (congrArg Host.Outcome.next (if_pos hf))⟩
    · have ht' : (core s c).mxe.activeTile = none := ht
      rwa [if_pos hk, ht'] at hexec
  case munload =>
    intro s c d l rep dmode nr salt sr dst src k' h k hdst hchk hwin hpasses hhalt hless hstep s1
    have hexec := exec_munload h hdst hchk hwin hpasses hhalt hstep
    have hall : dst.q = false → (core s1 c).mxe.unload = nr := by
      intro hq
      obtain ⟨f, hf⟩ := Nat.exists_eq_add_of_lt hless
      have hrows : nr - (core s c).mxe.unload = f + 1 := by omega
      change (core (unloadRows _ _ _ _ _ _ _ _ _ _) c).mxe.unload = nr
      rw [hq, hrows, unloadRows_leaf]
      exact hf.symm
    refine ⟨hexec true, fun hlt => ⟨?_, (hexec false).trans (congrArg Host.Outcome.next (if_pos hlt))⟩, fun heq => ?_, hall⟩
    · by_contra hq
      exact Nat.ne_of_lt hlt (hall (Bool.eq_false_iff.mpr hq))
    · exact (hexec false).trans (congrArg Host.Outcome.next (if_neg (Nat.not_lt.mpr heq.ge)))

end Sys2Proof.Machine
end

section
/-! ### MERGE (spec/03 R96, R98, R99) -/

namespace Sys2Proof.Machine

/-! #### A core after a fault -/

theorem stoppedAs_of_eq {x y : Core} (h : y = x) : StoppedAs x y := h ▸ .refl x

theorem stoppedAs_stopEngine (who : Option (Nat × Engine)) (s : State) (n : Nat) : StoppedAs (core s n) (core (stopEngine who s) n) := by
  rcases who with _ | ⟨c, e⟩
  · exact .refl _
  · by_cases h : n = c
    · subst h
      rw [core_stopEngine_same]
      rfl
    · exact stoppedAs_of_eq (core_stopEngine_other h e s)

theorem core_writeFaultRecord (ctx : Nat) (r : Bytes) (s : State) (n : Nat) : core (writeFaultRecord ctx r s) n = core s n := by
  rw [writeFaultRecord_frame]
  rfl

/-- A fault leaves of a core all but its forced mark, its slots and its stopped engines. -/
theorem stoppedAs_ctxFault (ctx : CtxId) (code detail : Nat) (w : Site) (who : Option (Nat × Engine)) (s : State) (n : Nat) :
    StoppedAs (core s n) (core (ctxFault ctx code detail w who s) n) := by
  have hrecord (r : Bytes) : StoppedAs (core s n) (core (writeFaultRecord ctx r s) n) := stoppedAs_of_eq (core_writeFaultRecord ..)
  unfold ctxFault
  dsimp only
  rcases (ctxSt s ctx).fault with _ | _
  · refine .trans ?_ ((stoppedAs_stopCores ..).trans (stoppedAs_stopEngine ..))
    have hstruck (r : Bytes) : core (strikeQueries ctx (writeFaultRecord ctx r s)) n = core s n :=
      (congrArg (core · n) (strikeQueries_frame ..)).trans (core_writeFaultRecord ..)
    exact stoppedAs_of_eq (hstruck _)
  · dsimp only
    split_ifs
    · exact .refl _
    · rcases who with _ | p
      · exact hrecord _
      · dsimp only
        split_ifs
        · exact .refl _
        · exact (hrecord _).trans (stoppedAs_stopEngine _ (modCtx _ _ _) n)

/-- An ABFT mismatch voids the ACC, halts the engine and is counted for the core. -/
theorem abft_spec (c : CoreId) (kind : Nat) (k : Ctl) (s : State) :
    (core (abft c kind k s) c).mxe = { (core s c).mxe with halted := true } ∧ (core (abft c kind k s) c).accVoid = true
      ∧ tget (grove (abft c kind k s) (coreGrove c)).abft (coreSlot c) 0 = tget (grove s (coreGrove c)).abft (coreSlot c) 0 + 1 := by
  have hcore := stoppedAs_ctxFault (runCtx s c) fcAbft kind (passSite s c k) (some (c.val, .mxe))
    (modCore c (fun x => { x with accVoid := true, mxe := { x.mxe with halted := true } })
      (modGrove (coreGrove c) (fun g => { g with abft := tset g.abft (coreSlot c) (tget g.abft (coreSlot c) 0 + 1) })
        (computeEvent (.core c) s))) c
  rw [core_modCore_same] at hcore
  have hgroves : (abft c kind k s).groves = tset s.groves (coreGrove c) (let g := grove s (coreGrove c)
      { g with abft := tset g.abft (coreSlot c) (tget g.abft (coreSlot c) 0 + 1) }) := (groves_ctxFault ..).trans rfl
  refine ⟨congrArg Core.mxe hcore, congrArg Core.accVoid hcore, ?_⟩
  rw [grove, hgroves, tget_tset_same]
  exact tget_tset_same ..

/-- What a merge with heads in the row links, a pass to merge for and room in the column links does. -/
theorem exec_merge {s : State} {c : CoreId} {hs : List RlEntry} {i : Nat} {p : Pass} (hheads : rlHeads (core s c).mxe = some hs)
    (hidx : (core s c).mxe.passes.findIdx? (fun p => p.merged < p.nv) = some i) (hp : (core s c).mxe.passes[i]? = some p)
    (hhalt : (core s c).mxe.halted = false) (hroom : clRoom (core s c).mxe = true) (sumErr : Int) (alignErr : Bool) :
    let m := (core s c).mxe
    exec (.merge c sumErr alignErr) s = .next (if checkY hs + BitVec.ofInt 32 sumErr ≠ checkZ hs then abft c 0 p.ctl s
      else if alignErr then abft c 1 p.ctl s
      else
        let was := (List.range 128).map fun j => roundWa (columnTerms p.fmt hs j)
        count (runCtx s c) (was.foldl (fun a w => a.add w.2) .zero) (modMxe c (fun _ => { m with
          rl := m.rl.map List.tail
          cl := m.cl.mapIdx fun k l => l ++ [((was.drop (16 * k)).take 16).map (·.1)]
          passes := lset m.passes i { p with merged := p.merged + 1 } }) s)) := by
  have hgo : ¬(((core s c).mxe.halted || !clRoom (core s c).mxe) = true) := by rw [hhalt, hroom]; decide
  change execMerge c sumErr alignErr s = _
  simp only [execMerge, hheads, hidx, hp, if_neg hgo]

/-- Settles O21: a merge compares the sums, then adds them. -/
theorem mergeChecksThenAddsBandSums : Obligations.MergeChecksThenAddsBandSums := by
  intro s c sumErr alignErr hs i p m hheads hidx hp hhalt hroom
  have hexec := exec_merge hheads hidx hp hhalt hroom sumErr alignErr
  refine ⟨fun heq hal => ?_, fun hbad => ?_⟩
  · exact hexec.trans (by rw [if_neg (not_not_intro heq), hal]; rfl)
  · refine ⟨_, ?_, rfl, abft_spec ..⟩
    by_cases hne : checkY hs + BitVec.ofInt 32 sumErr ≠ checkZ hs
    · rw [if_pos hne]
      exact hexec.trans (congrArg Host.Outcome.next (if_pos hne))
    · rw [if_neg hne]
      exact hexec.trans (congrArg Host.Outcome.next ((if_neg hne).trans (if_pos (hbad.resolve_left hne))))

end Sys2Proof.Machine
end

section
/-! ### DRAIN (spec/03 R101, R103) -/

namespace Sys2Proof.Machine

section
variable {s : State} {c : CoreId} {band : Fin 8} {i : Nat} {p : Pass}

/-- The column bands that drain together. -/
def drainBands (p : Pass) (band : Fin 8) : List Nat := if 4 ≤ p.dmode then [2 * (band.val / 2), 2 * (band.val / 2) + 1] else [band.val]

/-- What stands at the heads of their column links. -/
def drainHeads (s : State) (c : CoreId) (p : Pass) (band : Fin 8) : List (List Wa) :=
  (drainBands p band).map fun k => ((core s c).mxe.cl.getD k []).head?.getD []

theorem exec_drain (hp : passFor Pass.drained band (core s c).mxe.passes = some (i, p)) (dup : Bool) :
    exec (.drain c band dup) s = .next (
      if (core s c).mxe.halted || p.merged ≤ p.drained.getD band 0 || !drainAligned (core s c).mxe.passes i (p.drained.getD band 0) (drainBands p band)
        || (drainHeads s c p band).any List.isEmpty then s
      else if p.toQ && !queueRoom (core s c) p.rpt (p.drained.getD band 0) p.dmode then s
      else if dup then abft c 2 p.ctl s
      else drainUnit c i p (drainBands p band) (drainHeads s c p band).flatten s) := by
  change execDrain c band dup s = _
  simp only [execDrain, hp]
  rfl

/-- A unit of drain that is not ready leaves all as it is. -/
theorem exec_drain_held (hp : passFor Pass.drained band (core s c).mxe.passes = some (i, p)) (dup : Bool)
    (h : (core s c).mxe.halted = true ∨ p.merged ≤ p.drained.getD band 0
      ∨ drainAligned (core s c).mxe.passes i (p.drained.getD band 0) (drainBands p band) = false ∨ [] ∈ drainHeads s c p band) :
    exec (.drain c band dup) s = .next s := by
  refine (exec_drain hp dup).trans (congrArg Host.Outcome.next (if_pos ?_))
  simp only [Bool.or_eq_true, decide_eq_true_eq, Bool.not_eq_true', List.any_eq_true, List.isEmpty_iff, exists_eq_right, or_assoc]
  exact h

/-- A unit of drain that is ready commits, or meets an upset. -/
theorem exec_drain_ready (hp : passFor Pass.drained band (core s c).mxe.passes = some (i, p)) (hhalt : (core s c).mxe.halted = false)
    (hmerged : p.drained.getD band 0 < p.merged)
    (hal : drainAligned (core s c).mxe.passes i (p.drained.getD band 0) (drainBands p band) = true) (hheads : [] ∉ drainHeads s c p band)
    (hroom : p.toQ = true → queueRoom (core s c) p.rpt (p.drained.getD band 0) p.dmode = true) (dup : Bool) :
    exec (.drain c band dup) s = .next (if dup then abft c 2 p.ctl s
      else drainUnit c i p (drainBands p band) (drainHeads s c p band).flatten s) := by
  refine (exec_drain hp dup).trans (congrArg Host.Outcome.next ((if_neg ?_).trans (if_neg ?_)))
  · simp only [Bool.or_eq_true, decide_eq_true_eq, Bool.not_eq_true', List.any_eq_true, List.isEmpty_iff, exists_eq_right, hhalt, hal,
      Bool.false_eq_true, false_or, Bool.true_eq_false, or_false, not_or, not_le]
    exact ⟨hmerged, hheads⟩
  · rw [Bool.and_eq_true, Bool.not_eq_true']
    rintro ⟨hq, hno⟩
    exact absurd ((hroom hq).symm.trans hno) (by decide)

end

/-! #### A band of an ACC row -/

theorem RegsOnly.mem {s t : State} (h : RegsOnly s t) : t.mem = s.mem := by
  obtain ⟨r, rfl⟩ := h
  rfl

theorem RegsOnly.count {s t : State} (h : RegsOnly s t) (x : CtxId) (n : Cnt) : RegsOnly s (count x n t) :=
  ((h.bump fAcntInvalid x n.inv).bump fAcntOverflow x n.ovf).bump fAcntFlush x n.fl

theorem length_wapBytes (v : List Wa) : ((v.map wapOf).flatMap (toLe 8)).length = 8 * v.length := by
  simp [List.length_flatMap, Function.comp_def, Nat.mul_comm]

section
variable {s : State} {c : CoreId} {row k : Nat} {v : List Wa}

/-- A column band of an ACC row reads back, and no payload beside it changes. -/
theorem memRead_accPut (hwf : s.storesWf = true) (hv : v.length = 16) (hk : k < 8) :
    memRead (accPut c row k v s) ((Loc.acc c (row / 2)).addr (row % 2 * 1024 + 128 * k)) 128 = v.flatMap (fun w => toLe 8 (wapOf w))
      ∧ ∀ a n, a % 4096 + n ≤ 2048 → a + n ≤ (Loc.acc c (row / 2)).addr (row % 2 * 1024 + 128 * k)
          ∨ (Loc.acc c (row / 2)).addr (row % 2 * 1024 + 128 * k) + 128 ≤ a → memRead (accPut c row k v s) a n = memRead s a n := by
  have hlen : ((v.map wapOf).flatMap (toLe 8)).length = 128 := by rw [length_wapBytes, hv]
  have hzeros : (zeros 128).length = 128 := List.length_replicate
  have hwf1 := storesWf_memWrite hwf ((Loc.acc c (row / 2)).addr (row % 2 * 1024 + 128 * k)) ((v.map wapOf).flatMap (toLe 8))
  have hrow : row % 2 < 2 := Nat.mod_lt _ (by decide)
  have hside (a n : Nat) (h : a % 4096 + n ≤ 2048) : a + n ≤ (Loc.acc c (row / 2)).addr 2048
      ∨ (Loc.acc c (row / 2)).addr 2048 + (zeros 128).length ≤ a := by
    rw [hzeros, Loc.addr]
    omega
  have hput (a n : Nat) : memRead (accPut c row k v s) a n = _ := memRead_congr (s := memWrite _ _ (memWrite _ _ s)) rfl a n
  refine ⟨?_, fun a n hn hoff => ?_⟩
  · rw [hput, memRead_memWrite_other hwf1 _ _ _ _ (hside _ _ (by rw [Loc.addr]; omega))]
    have hpart := memRead_memWrite_part hwf ((Loc.acc c (row / 2)).addr (row % 2 * 1024 + 128 * k)) 0 128 _ hlen.ge
    rw [Nat.add_zero, List.drop_zero, List.take_of_length_le hlen.le] at hpart
    exact hpart.trans (List.flatMap_map ..)
  · rw [hput, memRead_memWrite_other hwf1 _ _ _ _ (hside a n hn)]
    exact memRead_memWrite_other hwf _ _ _ _ (hlen.symm ▸ hoff)

end

/-- In mode 0 a unit of drain is a column band of an ACC row, as far as memory goes. -/
theorem mem_drainUnit {p : Pass} (h : p.dmode = 0) (c : CoreId) (i k : Nat) (vals : List Wa) (s : State) :
    (drainUnit c i p [k] vals s).mem
      = (accPut c ((p.dst.toNat % 2 ^ 19 + p.drained.getD k 0 * 1024) / 1024) k vals s).mem := by
  unfold drainUnit
  simp only [h]
  exact ((RegsOnly.refl _).count ..).mem

/-- Settles O22: a unit of drain that is ready commits. -/
theorem drainCommitsABandOrFaults : Obligations.DrainCommitsABandOrFaults := by
  intro s c band i p x hp ks v heads
  refine ⟨fun dup h => exec_drain_held hp dup h, fun hhalt hmerged hal hheads hroom => ?_⟩
  have hexec := exec_drain_ready hp hhalt hmerged hal hheads hroom
  refine ⟨hexec true, hexec false, fun hmode hwf hlen => ?_⟩
  intro row at_
  refine ⟨_, hexec false, ?_⟩
  obtain ⟨hread, hother⟩ := memRead_accPut (c := c) (row := row) hwf hlen band.isLt
  have hbands : drainBands p band = [band.val] := by rw [drainBands, hmode]; rfl
  have hmem (a n : Nat) : memRead (if false = true then abft c 2 p.ctl s else drainUnit c i p (drainBands p band) heads.flatten s) a n
      = memRead (accPut c row band heads.flatten s) a n := by
    refine memRead_congr ?_ a n
    rw [hbands]
    exact mem_drainUnit hmode ..
  exact ⟨(hmem ..).trans hread, fun a n hn hoff => (hmem ..).trans (hother a n hn hoff)⟩

end Sys2Proof.Machine
end

section
/-! ### ROW_BAND_BROADCAST (spec/03 R86, R87, R95, R99, R102) -/

namespace Sys2Proof.Machine

/-! #### Column sums -/

/-- Rows added into 128 columns: each column takes its own products. -/
theorem foldl_columns {j : Nat} (hj : j < 128) (l : List (Int × List Int)) (acc : List Int) (v : Int) (hacc : acc[j]? = some v)
    (hl : ∀ r ∈ l, r.2.length = 128) :
    (l.foldl (fun acc r => List.zipWith (fun a y => a + r.1 * y) acc r.2) acc)[j]? = some (v + (l.map fun r => r.1 * r.2.getD j 0).sum) := by
  induction l generalizing acc v with
  | nil => rw [List.foldl_nil, hacc, List.map_nil, List.sum_nil, add_zero]
  | cons r l ih =>
    obtain ⟨hr, hl⟩ := List.forall_mem_cons.mp hl
    have hget : r.2[j]? = some (r.2.getD j 0) := by
      rw [List.getD_eq_getElem?_getD, List.getElem?_eq_getElem (hr.symm ▸ hj)]
      rfl
    rw [List.foldl_cons, ih _ (v + r.1 * r.2.getD j 0) ?_ hl, List.map_cons, List.sum_cons, add_assoc]
    rw [List.getElem?_zipWith, hacc, hget]

theorem bandEntry_sums {w : BandW} (hw : ∀ r ∈ w.rows, r.length = 128) (x : List Int) (ea : Nat) {j : Nat} (hj : j < 128) :
    (bandEntry w x ea).sums[j]? = some (List.zipWith (fun a r => a * List.getD r j 0) x w.rows).sum := by
  refine (foldl_columns hj _ _ 0 ?_ ?_).trans ?_
  · rw [List.getElem?_replicate, if_pos hj]
  · exact fun r hr => hw r.2 (List.of_mem_zip hr).2
  · rw [zero_add, List.map_zip_eq_zipWith]
    rfl

theorem bandEntry_z (w : BandW) (x : List Int) (ea : Nat) :
    (bandEntry w x ea).z = (List.zipWith (fun a y => BitVec.ofInt 32 a * y) x w.cs).sum := by
  have hzip := List.map_zip_eq_zipWith (f := fun r : Int × BitVec 32 => BitVec.ofInt 32 r.1 * r.2) (l := x) (l' := w.cs)
  refine Eq.trans ?_ (congrArg List.sum hzip)
  rw [List.sum_eq_foldl, List.foldl_map]
  rfl

/-! #### The planes of a band -/

/-- A core that may follow has the feeders, the row links and the passes as they were. -/
def LinksKept (x : Core) (o : Option Core) : Prop :=
  ∀ y, o = some y → y.mxe.feed = x.mxe.feed ∧ y.mxe.feedPos = x.mxe.feedPos ∧ y.mxe.rl = x.mxe.rl ∧ y.mxe.passes = x.mxe.passes

theorem LinksKept.none (x : Core) : LinksKept x none := fun _ h => nomatch h

theorem LinksKept.some {x y : Core} (h : y.mxe.feed = x.mxe.feed ∧ y.mxe.feedPos = x.mxe.feedPos ∧ y.mxe.rl = x.mxe.rl
    ∧ y.mxe.passes = x.mxe.passes) : LinksKept x (some y) := by
  rintro _ ⟨⟩
  exact h

/-- A swap of planes keeps them. -/
theorem linksKept_swapBand (x : Core) (p : Pass) (band : Nat) : LinksKept x (swapBand x p band) := by
  unfold swapBand
  dsimp only
  rcases lget x.mxe.shadow band none with _ | w
  · exact .none x
  dsimp only
  split
  · exact .none x
  rcases lget x.mxe.wsbs (p.tile % 2) none with _ | v
  · exact .some ⟨rfl, rfl, rfl, rfl⟩
  dsimp only
  split
  · exact .some ⟨rfl, rfl, rfl, rfl⟩
  · exact .some ⟨rfl, rfl, rfl, rfl⟩

/-- Vectors that every band has taken leave; nothing else of the engine changes. -/
theorem feedPop_kept (m : Mxe) : (feedPop m).rl = m.rl ∧ (feedPop m).passes = m.passes ∧ (feedPop m).active = m.active
    ∧ (m.feedPos.all (16 ≤ ·) = false → (feedPop m).feed = m.feed ∧ (feedPop m).feedPos = m.feedPos)
    ∧ (m.feedPos.all (16 ≤ ·) = true → (feedPop m).feed = m.feed.tail ∧ (feedPop m).feedPos = m.feedPos.map (· - 16)) := by
  unfold feedPop
  by_cases h : m.feedPos.all (16 ≤ ·) = true
  · rw [if_pos h]
    exact ⟨rfl, rfl, rfl, fun hno => absurd (h.symm.trans hno) (by decide), fun _ => ⟨rfl, rfl⟩⟩
  · rw [if_neg h]
    exact ⟨rfl, rfl, rfl, fun _ => ⟨rfl, rfl⟩, fun hyes => absurd hyes h⟩

/-- A core whose band has taken a vector of a pass. -/
def bandTaken (y : Core) (band i : Nat) (p : Pass) (pos : Nat) (e : RlEntry) : Core :=
  { y with mxe := feedPop { y.mxe with
    feedPos := y.mxe.feedPos.set band (pos + 1)
    rl := y.mxe.rl.set band (y.mxe.rl.getD band [] ++ [e])
    passes := y.mxe.passes.set i { p with bcast := p.bcast.set band (p.bcast.getD band 0 + 1) } } }

theorem bandTaken_kept {x y : Core} (hfeed : y.mxe.feed = x.mxe.feed) (hpos : y.mxe.feedPos = x.mxe.feedPos)
    (hrl : y.mxe.rl = x.mxe.rl) (hpasses : y.mxe.passes = x.mxe.passes) (band i : Nat) (p : Pass) (pos : Nat) (e : RlEntry) :
    let z := bandTaken y band i p pos e
    let places := x.mxe.feedPos.set band (pos + 1)
    z.mxe.rl = x.mxe.rl.set band (x.mxe.rl.getD band [] ++ [e])
      ∧ z.mxe.passes = x.mxe.passes.set i { p with bcast := p.bcast.set band (p.bcast.getD band 0 + 1) }
      ∧ z.mxe.active = y.mxe.active ∧ (places.all (16 ≤ ·) = false → z.mxe.feed = x.mxe.feed ∧ z.mxe.feedPos = places)
      ∧ (places.all (16 ≤ ·) = true → z.mxe.feed = x.mxe.feed.tail ∧ z.mxe.feedPos = places.map (· - 16)) := by
  rw [← hfeed, ← hpos, ← hrl, ← hpasses]
  exact feedPop_kept _

/-- A core set and counts added. -/
theorem count_setCore (x : CtxId) (n : Cnt) (c : Nat) (y : Core) (s : State) :
    core (count x n (setCore c y s)) c = y ∧ (∀ m, m ≠ c → core (count x n (setCore c y s)) m = core s m)
      ∧ count x n (setCore c y s) = { s with cores := (count x n (setCore c y s)).cores, regs := (count x n (setCore c y s)).regs } := by
  obtain ⟨r, hr⟩ := (RegsOnly.refl (setCore c y s)).count x n
  rw [hr]
  exact ⟨tget_tset_same .., fun m hm => tget_tset_other _ _ _ _ _ hm, rfl⟩

section
variable {s : State} {c : CoreId} {band : Fin 8} {i : Nat} {p : Pass} {q : FeedBlk}

/-- The core whose planes stand ready for a band's next vector. -/
def readyBand (x : Core) (p : Pass) (band : Nat) : Option Core :=
  if p.newTile ∧ p.bcast.getD band 0 = 0 then swapBand x p band else some x

/-- A band that may take its next vector: where its planes stand ready, it adds its entry. -/
theorem exec_broadcast (hhalt : (core s c).mxe.halted = false) (hforce : (core s c).forced = false)
    (hroom : ((core s c).mxe.rl.getD band []).length < 16) (hp : passFor Pass.bcast band (core s c).mxe.passes = some (i, p))
    (hq : (core s c).mxe.feed[(core s c).mxe.feedPos.getD band 0 / 16]? = some q) (hfmt : q.fmt = p.fmt) :
    (readyBand (core s c) p band = none → exec (.rowBandBroadcast c band) s = .next s)
    ∧ ∀ y w, readyBand (core s c) p band = some y → y.mxe.active.getD band none = some w →
      let v := vecSlice q ((core s c).mxe.feedPos.getD band 0 % 16) band
      exec (.rowBandBroadcast c band) s = .next (count (runCtx s c) v.2.1
        (setCore c (bandTaken y band i p ((core s c).mxe.feedPos.getD band 0) (bandEntry w v.1 v.2.2)) s)) := by
  have hgo : ¬(((core s c).mxe.halted || 16 ≤ (lget (core s c).mxe.rl band []).length) = true) := by
    rw [hhalt, Bool.false_or, decide_eq_true_eq]
    exact Nat.not_le.mpr hroom
  have hforce' : ¬(((core s c).forced && !((core s c).mxe.passes.drop i).any (·.dmode == 1)) = true) := by
    rw [hforce]
    exact Bool.false_ne_true
  have hq' : (core s c).mxe.feed[lget (core s c).mxe.feedPos band 0 / 16]? = some q := hq
  refine ⟨fun hr => ?_, fun y w hr hw => ?_⟩
  · change execRowBandBroadcast c band s = _
    have hr' : (if p.newTile ∧ lget p.bcast band 0 = 0 then swapBand (core s c) p band else some (core s c)) = none := hr
    simp only [execRowBandBroadcast, if_neg hgo, hp, if_neg hforce', hq', if_neg (not_not_intro hfmt), hr']
  · change execRowBandBroadcast c band s = _
    have hr' : (if p.newTile ∧ lget p.bcast band 0 = 0 then swapBand (core s c) p band else some (core s c)) = some y := hr
    have hw' : lget y.mxe.active band none = some w := hw
    simp only [execRowBandBroadcast, if_neg hgo, hp, if_neg hforce', hq', if_neg (not_not_intro hfmt), hr', hw']
    rfl

end

/-- Settles O20: a band's entry holds the exact column sums. -/
theorem broadcastFormsExactColumnSums : Obligations.BroadcastFormsExactColumnSums := by
  intro s c band i p q x1 w m pos first hhalt hforce _ hroom hp hq hfmt
  obtain ⟨hheld, htaken⟩ := exec_broadcast hhalt hforce hroom hp hq hfmt
  refine ⟨fun ⟨hfirst, hswap⟩ => hheld ((if_pos hfirst).trans hswap), fun hx hact hrows => ?_⟩
  · intro x places
    have hready : readyBand (core s c) p band = some x1 := by
      rcases hx with ⟨hfirst, hswap⟩ | ⟨hno, rfl⟩
      · exact (if_pos hfirst).trans hswap
      · exact if_neg hno
    obtain ⟨hfeed, hpos, hrl, hpasses⟩ : x1.mxe.feed = m.feed ∧ x1.mxe.feedPos = m.feedPos ∧ x1.mxe.rl = m.rl
        ∧ x1.mxe.passes = m.passes := by
      rcases hx with ⟨-, hswap⟩ | ⟨-, rfl⟩
      · exact linksKept_swapBand _ _ _ _ hswap
      · exact ⟨rfl, rfl, rfl, rfl⟩
    obtain ⟨hcore, hother, hframe⟩ := count_setCore (runCtx s c) (vecSlice q (pos % 16) band).2.1 c
      (bandTaken x1 band i p pos (bandEntry w x (vecSlice q (pos % 16) band).2.2)) s
    obtain ⟨hrl', hpasses', hact', hkeep, hpop⟩ := bandTaken_kept hfeed hpos hrl hpasses band i p pos
      (bandEntry w x (vecSlice q (pos % 16) band).2.2)
    refine ⟨_, htaken x1 w hready hact, ⟨bandEntry w x (vecSlice q (pos % 16) band).2.2, (congrArg (·.mxe.rl) hcore).trans hrl',
      fun j hj => bandEntry_sums hrows _ _ hj, bandEntry_z .., rfl, rfl⟩, (congrArg (·.mxe.passes) hcore).trans hpasses',
      (congrArg (·.mxe.active) hcore).trans hact', fun h => ?_, fun h => ?_, hother, hframe⟩
    · exact ⟨(congrArg (·.mxe.feed) hcore).trans (hkeep h).1, (congrArg (·.mxe.feedPos) hcore).trans (hkeep h).2⟩
    · exact ⟨(congrArg (·.mxe.feed) hcore).trans (hpop h).1, (congrArg (·.mxe.feedPos) hcore).trans (hpop h).2⟩

end Sys2Proof.Machine
end

section
/-! ### Off-loading and restoring pages (spec/07 R241 to R243, R245) -/

namespace Sys2Proof.Machine

theorem walk_setRestoreQ (h : Nat) (q : List Restore) (s : State) (x : CtxId) (reg off : Nat) :
    walk (setRestoreQ h q s) x reg off = walk s x reg off := rfl

theorem restores_unitAsk (x : CtxId) (kind : SKind) (l : Loc) (s : State) : (unitAsk x kind l s).restores = s.restores := by
  rw [unitAsk, stkAsk_frame]

theorem restores_undPteSet (x : CtxId) (off : Nat) (res : Bool) (own : Half) (frame : Nat) (s : State) :
    (undPteSet x off res own frame s).restores = s.restores := by
  unfold undPteSet
  rcases (walk s x 2 off).1 with e | _
  · exact (congrArg State.restores (stkPatch_frame ..)).trans (restores_unitAsk ..)
  · rfl

/-- What an off-load that begins does to its half's queue. -/
theorem offloadBegin_eq (x : CtxId) (page : Nat) (own : Half) (dst e : Nat) (s : State) :
    offloadBegin x page own dst e s = setRestoreQ (pteOwn e)
      (restoreQ s (pteOwn e) ++ [⟨x, page, bits e 12 4, .copy own dst (pteOwn e) (pteFrame e)⟩])
      (tlbInvAll x 2 (page * 65536) (undPteSet x (page * 65536) false own dst s)) := by
  have hq : restoreQ (tlbInvAll x 2 (page * 65536) (undPteSet x (page * 65536) false own dst s)) (pteOwn e) = restoreQ s (pteOwn e) :=
    congrArg (tget · (pteOwn e).val []) (restores_undPteSet ..)
  rw [offloadBegin, hq]

theorem pageQueued_iff {s : State} {x : CtxId} {page : Nat} :
    pageQueued s x page = true ↔ ∃ r ∈ restoreQ s 0 ++ restoreQ s 1, r.ctx = x ∧ r.page = page := by
  simp only [pageQueued, List.any_eq_true, Bool.and_eq_true, beq_iff_eq]

section
variable {s : State} {x : CtxId} {va : BitVec 56} {own : Half} {dst off e : Nat}

theorem exec_offload (hdst : dst + 32 ≤ 188743680) (hva : regionOf va = some (.und off)) (hw : (walk s x 2 off).1 = .page e) :
    exec (.offload x va own dst) s = .next (
      if !(ctxSt s x).live || !schUp s then s
      else if pageQueued s x (off / 65536) then
        setRestoreQ (pteOwn e) (restoreQ s (pteOwn e) ++ [⟨x, off / 65536, bits e 12 4, .offload own dst⟩]) s
      else if pteRes e then offloadBegin x (off / 65536) own dst e s
      else s) := by
  change execOffload x va own dst s = _
  simp only [execOffload, if_neg (Nat.not_lt.mpr hdst), hva, hw]

end

/-! #### The copies of a half -/

/-- A copy whose old frame no operation uses. -/
def copyDue (s : State) (r : Restore) : Bool := match r.job with
  | .copy _ _ fh f => !frameBusy s fh f
  | _ => false

theorem foldl_stays {α β : Type} {f : α → β → α} {a : α} {l : List β} (h : ∀ b ∈ l, f a b = a) : l.foldl f a = a := by
  induction l with
  | nil => rfl
  | cons b l ih =>
    obtain ⟨hb, hl⟩ := List.forall_mem_cons.mp h
    rw [List.foldl_cons, hb, ih hl]

theorem pickRestore_none {p : Restore → Bool} {l : List Restore} (h : ∀ r ∈ l, p r = false) : pickRestore p l = none := by
  unfold pickRestore
  rw [foldl_stays fun r hr => if_neg (by rw [h r hr]; decide)]

theorem offloadDue_head {r : Restore} {q : List Restore} {own : Half} {dst : Nat} (hjob : r.job = .offload own dst) :
    offloadDue (r :: q) = some (0, r, own, dst) := by
  simp [offloadDue, List.range_succ_eq_map, firstSome, hjob, pageAhead]

section
variable {s : State} {h : Half} {i : Nat}

theorem exec_offloadCopy_turn (hp : pickRestore (copyDue s) (restoreQ s h) = none) :
    exec (.offloadCopy h) s = .next (offloadTurn h s) := by
  change Host.Outcome.next (match pickRestore (copyDue s) (restoreQ s h) with | none => offloadTurn h s | some i => _) = _
  rw [hp]

theorem exec_offloadCopy_moved {s1 : State} {x : CtxId} {page rc dst f : Nat} {own fh : Half}
    (hp : pickRestore (copyDue s) (restoreQ s h) = some i) (hi : (restoreQ s h)[i]? = some ⟨x, page, rc, .copy own dst fh f⟩)
    (hmove : movePage x (fun j => .und fh (f % 2 ^ 17) j) (fun j => .stk own (dst + j)) 32 0
      (setRestoreQ h ((restoreQ s h).eraseIdx i) s) = (s1, none)) : exec (.offloadCopy h) s = .next (freeAppend x fh f s1) := by
  change Host.Outcome.next (match pickRestore (copyDue s) (restoreQ s h) with
    | none => offloadTurn h s
    | some i => match (restoreQ s h)[i]? with
      | some ⟨x, page, _, .copy own dst fh f⟩ => _
      | _ => _) = _
  simp only [hp, hi]
  rw [ldrop, hmove]

end

theorem exec_restoreFault {s : State} {c : CoreId} {e : Engine} {x : CtxId} {page pte : Nat}
    (hst : ((core s c).eng e).stall = some (x, page)) (hw : (walk s x 2 (page * 65536)).1 = .page pte)
    [Decidable (∃ r ∈ restoreQ s (pteOwn pte), r.ctx = x ∧ r.page = page ∧ r.job = .restore)] :
    exec (.restoreFault c e) s = .next (if ∃ r ∈ restoreQ s (pteOwn pte), r.ctx = x ∧ r.page = page ∧ r.job = .restore then s
      else setRestoreQ (pteOwn pte) (restoreQ s (pteOwn pte) ++ [⟨x, page, bits pte 12 4, .restore⟩]) s) := by
  change execRestoreFault c e s = _
  simp only [execRestoreFault, hst, queueRestore, hw, List.any_eq_true, Bool.and_eq_true, beq_iff_eq, and_assoc]

/-! #### The restores of a half -/

/-- A restore whose page no copy still concerns. -/
def restoreDue (s : State) (r : Restore) : Bool :=
  r.job == .restore && !(restoreQ s 0 ++ restoreQ s 1).any fun p => p.ctx == r.ctx && p.page == r.page && match p.job with
    | .copy .. => true
    | _ => false

section
variable {s : State} {h : Half} {i e : Nat} {r : Restore}

theorem exec_restore (hp : pickRestore (restoreDue s) (restoreQ s h) = some i) (hi : (restoreQ s h)[i]? = some r) :
    exec (.restore h) s = .next (inAgain (restorePage r (setRestoreQ h ((restoreQ s h).eraseIdx i) s))) := by
  change Host.Outcome.next (match pickRestore (restoreDue s) (restoreQ s h) with
    | none => s
    | some i => match (restoreQ s h)[i]? with
      | some r => inAgain (restorePage r (setRestoreQ h (ldrop (restoreQ s h) i) s))
      | none => s) = _
  rw [hp]
  dsimp only
  rw [hi]
  rfl

theorem restorePage_resident (hw : (walk s r.ctx 2 (r.page * 65536)).1 = .page e) (hres : pteRes e = true) :
    restorePage r s = wakeStalled r.ctx r.page s := by
  simp only [restorePage, hw, if_pos hres]

/-- With no frame left the context faults. -/
theorem restorePage_noFrame (hw : (walk s r.ctx 2 (r.page * 65536)).1 = .page e) (hres : pteRes e = false)
    (hempty : rd s fUfHead r.ctx = rd s fUfTail r.ctx) :
    restorePage r s = ctxFault r.ctx fcNoFrame 0 (Site.bare 5 (2 * 2 ^ 52 + r.page * 65536)) none s := by
  simp only [restorePage, hw, hres, Bool.false_eq_true, if_false, if_pos hempty]

/-- With a frame left, numbered n at the head of the free ring, the page moves there. -/
theorem restorePage_moved {n : Nat} {s1 : State} (hw : (walk s r.ctx 2 (r.page * 65536)).1 = .page e) (hres : pteRes e = false)
    (hframe : rd s fUfHead r.ctx ≠ rd s fUfTail r.ctx)
    (hn : leNat (stkRead s (halfOf (rd s fUfHalf r.ctx)) (freeSlot s r.ctx (rd s fUfHead r.ctx)) 4) = n)
    (hmove : movePage r.ctx (fun j => .stk (pteOwn e) (pteFrame e + j)) (fun j => .und (halfOf (n / 2 ^ 17)) (n % 2 ^ 17) j) 32 0
      (bumpWrap fUfHead r.ctx 1 (unitAsk r.ctx (.short 4)
        (.stk (halfOf (rd s fUfHalf r.ctx)) (freeSlot s r.ctx (rd s fUfHead r.ctx) / 2048)) s)) = (s1, none)) :
    restorePage r s = wakeStalled r.ctx r.page (bump fRestores r.ctx 1
      (undPteSet r.ctx (r.page * 65536) true (halfOf (n / 2 ^ 17)) (n % 2 ^ 17) s1)) := by
  simp only [restorePage, hw, hres, Bool.false_eq_true, if_false, if_neg hframe, hn, hmove]

/-- Nothing outside waits to be made again. -/
theorem inAgain_nil {s : State} (h : s.inHeld = []) : inAgain s = { s with inHeld := [] } := by
  rw [inAgain, h]
  rfl

end

/-- Settles O26: a page off-loaded and restored. -/
theorem offloadAndRestoreMoveAPage : Obligations.OffloadAndRestoreMoveAPage := by
  refine ⟨?offload, ?copy, ?turn, ?fault, ?restore⟩
  case offload =>
    intro s x va own dst off e
    refine ⟨fun h => if_pos h, fun hdst hva hw => ?_⟩
    have hexec := exec_offload (own := own) hdst hva hw
    refine ⟨fun hno => hexec.trans (congrArg Host.Outcome.next (if_pos ?_)), fun hsch hlive => ⟨fun hq => ?_, fun hq => ⟨fun hres => ?_, fun hres => ?_⟩⟩⟩
    · rcases hno with h | h <;> simp [h]
    all_goals
      refine hexec.trans (congrArg Host.Outcome.next ((if_neg (by simp [hlive, hsch])).trans ?_))
    · exact if_pos (pageQueued_iff.mpr hq)
    · exact (if_neg fun h => Exists.elim (pageQueued_iff.mp h) fun r hr => hq r hr.1 hr.2).trans (if_neg (by rw [hres]; decide))
    · exact (if_neg fun h => Exists.elim (pageQueued_iff.mp h) fun r hr => hq r hr.1 hr.2).trans
        ((if_pos hres).trans (offloadBegin_eq ..))
  case copy =>
    intro s s1 h own fh i page rc dst f x due
    refine ⟨fun hp => ?_, fun hp hi hmove => ?_⟩
    · exact exec_offloadCopy_turn hp
    · exact exec_offloadCopy_moved hp hi hmove
  case turn =>
    intro s h own e dst r hjob hno hhead hw s0
    obtain ⟨q, hq⟩ : ∃ q, restoreQ s h = r :: q := by
      rcases hq : restoreQ s h with _ | ⟨r', q⟩
      · rw [hq] at hhead
        cases hhead
      · rw [hq] at hhead
        cases hhead
        exact ⟨q, rfl⟩
    have hpick : pickRestore (copyDue s) (restoreQ s h) = none := pickRestore_none fun r hr => by
      unfold copyDue
      rcases hj : r.job with _ | _ | ⟨own', dst', fh, f⟩
      · rfl
      · rfl
      · exact absurd hj (hno r hr own' dst' fh f)
    refine (exec_offloadCopy_turn hpick).trans (congrArg Host.Outcome.next ?_)
    have hdue : offloadDue (restoreQ s h) = some (0, r, own, dst) := by rw [hq, offloadDue_head hjob]
    simp only [offloadTurn, hdue, walk_setRestoreQ, hw]
    rfl
  case fault =>
    intro s c e
    refine ⟨fun hst => ?_, fun x page pte hst hw => ⟨fun hq => ?_, fun hq => ?_⟩⟩
    · change execRestoreFault c e s = _
      simp only [execRestoreFault, hst]
    all_goals
      refine (exec_restoreFault hst hw).trans (congrArg Host.Outcome.next ?_)
    · exact if_pos hq
    · exact if_neg fun ⟨r, hr, hsame⟩ => hq r hr hsame
  case restore =>
    intro s h i e r copied hp hi s0 hw
    have hexec := exec_restore hp hi
    refine ⟨fun hres => ?_, fun hres hempty hfault hheld => ?_, fun hres hframe => ?_⟩
    · exact hexec.trans (congrArg (Host.Outcome.next ∘ inAgain) (restorePage_resident hw hres))
    · refine ⟨_, hexec, ?_⟩
      rw [restorePage_noFrame (s := s0) hw hres hempty, inAgain_nil ?_]
      · exact (fault_ctxFault_none (s := s0) hfault fcNoFrame 0 _).1
      · exact (congrArg State.inHeld (ctxFault_frame ..)).trans hheld
    · intro p hh n fh f s1 hmove
      exact hexec.trans (congrArg (Host.Outcome.next ∘ inAgain) (restorePage_moved (s := s0) hw hres hframe rfl hmove))

end Sys2Proof.Machine
end

section
/-! SUPPORT. What stands through a fault, the loss of a peer and the end of a job (spec/07 R247; spec/11 R383; spec/12 R420):
what is driven, the fuses, the losses counted, the dies lost, and the registers of boot, integrity and safety. -/

namespace Sys2Proof.Machine

/-- The offsets of the set-up, boot, opening, integrity and safety registers, but for LOG_PTR. -/
abbrev LowReg (o : Nat) : Prop := o < 0x3000 ∧ o ≠ 0x1400

/-- What is kept beside the lands and fuses: time, the losses and the phase of the halves, the keys, the clearing, the processors. -/
def setting (s : State) : Nat × List Nat × HalfPhase × Bool × Option (BitVec 2) × Table Proc :=
  (s.time, s.losses, s.halfPh, s.keyStore, s.clearing, s.procs)

/-- What is kept outside the registers. -/
def stood (s : State) : Lands × Fuses × (Nat × List Nat × HalfPhase × Bool × Option (BitVec 2) × Table Proc) × (Nat → Bool) :=
  (s.lands, s.fuses, setting s, fun d => (die s d).lost)

theorem die_eq {s t : State} (h : t.dies = s.dies) : die t = die s := congrArg (fun l d => tget l d DieSt.reset) h

/-- `t` drives what `s` drives, and holds its low registers; its torus ports are as they were, or DARK. -/
structure Standing (s t : State) : Prop where
  kept : stood t = stood s
  regs : ∀ k i, LowReg (k.off i) → regRead t k i = regRead s k i
  ports : ∀ p < 6, portState t p = portState s p ∨ portState t p = 0

variable {s₀ s t : State}

theorem Standing.refl (s : State) : Standing s s := ⟨rfl, fun _ _ _ => rfl, fun _ _ => .inl rfl⟩

theorem Standing.trans (h : Standing s₀ s) (h' : Standing s t) : Standing s₀ t :=
  ⟨h'.kept.trans h.kept, fun k i hk => (h'.regs k i hk).trans (h.regs k i hk), fun p hp =>
    (h'.ports p hp).elim (fun e => e ▸ h.ports p hp) .inr⟩

/-- A change beside the registers, of all that is kept. -/
theorem Standing.of_regs (h : Standing s₀ s) (hkept : stood t = stood s) (hregs : t.regs = s.regs) : Standing s₀ t := by
  have same (k i) : regRead t k i = regRead s k i := regRead_congr hregs (congrArg (fun x => x.2.1.grade) hkept) k i
  exact h.trans ⟨hkept, fun k i _ => same k i, fun p _ => .inl (congrArg (bits · _ _) (same _ _))⟩

/-- A change of other parts of the state. -/
theorem Standing.beside (h : Standing s₀ s) (hkept : (t.lands, t.fuses, t.time, t.losses, t.halfPh, t.keyStore, t.clearing, t.procs)
      = (s.lands, s.fuses, s.time, s.losses, s.halfPh, s.keyStore, s.clearing, s.procs))
    (hdies : t.dies = s.dies) (hregs : t.regs = s.regs) : Standing s₀ t :=
  h.of_regs (congrArg₂ (fun k f => (k.1, k.2.1, k.2.2, f)) hkept (congrArg (fun f d => DieSt.lost (f d)) (die_eq hdies))) hregs

theorem Standing.foldl {β : Type} {f : State → β → State} (hf : ∀ t x, Standing s₀ t → Standing s₀ (f t x)) (l : List β)
    (h : Standing s₀ s) : Standing s₀ (l.foldl f s) := by
  induction l generalizing s with
  | nil => exact h
  | cons x l ih => exact ih (hf s x h)

theorem Standing.ite {c : Prop} {_ : Decidable c} (ha : Standing s₀ s) (hb : Standing s₀ t) : Standing s₀ (if c then s else t) := by
  split <;> assumption

/-- A register beside those that stand. -/
theorem Standing.regWrite {n : RegKind} {j : Nat} (h : Standing s₀ s) (hoff : 0x7000 ≤ n.off j ∨ 0x3000 ≤ n.off j ∧ n.off j < 0x6100)
    (v : Nat) : Standing s₀ (regWrite n j v s) := by
  refine h.trans ⟨rfl, fun k i hk => regRead_regWrite_other s v ?_, fun p hp => .inl (congrArg (bits · _ _) (regRead_regWrite_other s v ?_))⟩
  · have := hk.1
    omega
  · rw [show fState.reg.off p = _ from RegKind.off_tpStat p]
    omega

/-- An operation whose effect on the registers and on what is kept is known. -/
theorem Standing.quiet (h : Standing s₀ s) (hkept : stood t = stood s)
    (hregs : ∀ k i, PeerQuiet k i → regRead t k i = regRead s k i) : Standing s₀ t := by
  refine h.trans ⟨hkept, fun k i hk => hregs k i ⟨⟨hk.2, fun n => ?_⟩, ?_, ?_⟩, fun p hp => .inl (congrArg (bits · _ _) (hregs _ _ (peerQuiet_tpStat p hp)))⟩
  all_goals
    have := hk.1
    simp only [RegKind.off_faultQ, RegKind.off_coll, RegKind.off_plStat]
    omega

theorem Standing.wr (h : Standing s₀ s) (f : Fld) (j v : Nat)
    (hoff : 0x7000 ≤ f.reg.off j ∨ 0x3000 ≤ f.reg.off j ∧ f.reg.off j < 0x6100 := by decide) : Standing s₀ (wr f j v s) := h.regWrite hoff _

theorem Standing.modPort (h : Standing s₀ s) (p : Nat) (f : TorusPort → TorusPort) : Standing s₀ (modPort p f s) := h.beside rfl rfl rfl

theorem Standing.ctxFault (h : Standing s₀ s) (x : CtxId) (code detail : Nat) (w : Site) (who : Option (Nat × Engine)) :
    Standing s₀ (ctxFault x code detail w who s) :=
  h.quiet (by rw [ctxFault_frame]; rfl) fun _ _ hq => regRead_ctxFault hq.1 ..

theorem Standing.logWrite (h : Standing s₀ s) (tpn src : Nat) (b : Bytes) : Standing s₀ (logWrite tpn src b s) :=
  h.quiet (by rw [logWrite_frame]; rfl) fun _ _ hq => regRead_logWrite _ _ _ _ hq.1.1

theorem Standing.peerLostOp (h : Standing s₀ s) (cause : Nat) (port : Option Nat) (origin : Coord) (except : Option Nat) :
    Standing s₀ (peerLostOp cause port origin except s) := by
  refine h.quiet ?_ fun _ _ hq => regRead_peerLostOp hq ..
  exact peerLostOp_view (v := stood) (fun _ _ _ _ _ _ => by rw [ctxFault_frame]; rfl) (fun _ _ _ _ _ => rfl) (fun _ _ => rfl) (fun _ _ => rfl)
    (fun _ _ _ => rfl) ..

theorem Standing.sendAborts (h : Standing s₀ s) (cause : Nat) (origin : Coord) (except : Option Nat) :
    Standing s₀ (sendAborts cause origin except s) := by
  refine h.quiet ?_ fun _ _ _ => regRead_sendAborts ..
  unfold Machine.sendAborts
  dsimp only
  split
  · rfl
  · have (l : List Nat) (f : State → Nat → State) (u : State) (hf : ∀ t p, stood (f t p) = stood t) : stood (l.foldl f u) = stood u := by
      induction l generalizing u with
      | nil => rfl
      | cons p l ih => exact (ih _).trans (hf u p)
    refine (this _ _ _ fun t p => ?_).trans rfl
    split
    · exact outputAfter_view (fun _ _ _ _ _ => rfl) ..
    · rfl

/-! #### The end of a job -/

theorem Standing.modServe (h : Standing s₀ s) (f : Serve → Serve) : Standing s₀ (modServe f s) := by
  unfold Machine.modServe
  split
  · exact h.beside rfl rfl rfl
  · exact h

theorem Standing.dropInv (h : Standing s₀ s) (g : Nat) (inv : BitVec 32) : Standing s₀ (dropInv g inv s) := by
  refine .foldl (fun t c h => ?_) _ h
  have hcut : Standing s₀ (dropInv.noCut inv s c t) := by
    unfold dropInv.noCut
    split
    · exact .ite (h.beside rfl rfl rfl) h
    · exact h
  exact hcut.beside rfl rfl rfl

theorem Standing.disarm (h : Standing s₀ s) (ring n : Nat) : Standing s₀ (disarm ring n s) := by
  unfold Machine.disarm
  refine .ite ?_ h
  dsimp only
  rw [rideSend_frame]
  exact h.beside rfl rfl rfl

theorem Standing.undeliver (h : Standing s₀ s) (p : Query → Bool) : Standing s₀ (undeliver p s) := by
  unfold Machine.undeliver
  split
  · exact h
  · exact .modServe (.foldl (fun _ _ h => h.disarm ..) _ (.wr (.foldl (fun _ _ h => h.dropInv ..) _ h) fUndelivered 0 _)) _

theorem Standing.rdmaSend (h : Standing s₀ s) (port qpn kind addr rkey len : Nat) (data : Bytes) (imm : Nat) (use : RdmaFor) :
    Standing s₀ (rdmaSend port qpn kind addr rkey len data imm use s).1 := by
  have out (t : State) (o : RdmaOp) (ht : Standing s₀ t) : Standing s₀ (portOut o t) := .ite (ht.beside rfl rfl rfl) ht
  unfold Machine.rdmaSend
  dsimp only
  split
  · exact out _ _ (h.beside rfl rfl rfl)
  · split
    · exact h.beside rfl rfl rfl
    · exact (out _ _ (h.beside rfl rfl rfl (t := { s with nextOp := s.nextOp + 1 }))).beside rfl rfl rfl

theorem Standing.queryCpl (h : Standing s₀ s) (ring n tag epoch status outcome runner tdb : Nat) :
    Standing s₀ (queryCpl ring n tag epoch status outcome runner tdb s) := by
  unfold Machine.queryCpl
  split
  · exact h
  · exact ((h.rdmaSend ..).modServe _).disarm ..

theorem Standing.endStruck (h : Standing s₀ s) : Standing s₀ (endStruck s) := by
  unfold Machine.endStruck
  split
  · exact h
  · refine .modServe (.foldl (fun t _ ht => ?_) _ h) _
    split
    · exact ht
    · refine .queryCpl (.ite ht ?_) ..
      exact Standing.wr (((ht.wr fGuardFault 0 1).wr fGfStatCause 0 1).beside rfl rfl rfl (t := setGuardFault 1 t)) fGuardErrors 0 _

theorem Standing.cplSend (h : Standing s₀ s) (ring seq : Nat) (b : Bytes) : Standing s₀ (cplSend ring seq b s) := by
  unfold Machine.cplSend
  dsimp only
  generalize hsent : stnSend _ _ _ _ _ _ _ _ = q
  have hq : Standing s₀ q.1 := by
    rw [← hsent]
    exact h.rdmaSend ..
  exact .ite (hq.beside rfl rfl rfl) (hq.beside rfl rfl rfl)

theorem Standing.jobCpl (h : Standing s₀ s) (ring : Nat) (desc : Bytes) (event status detail : Nat) :
    Standing s₀ (jobCpl ring desc event status detail s) :=
  .ite (.foldl (fun _ _ h => h.cplSend ..) _ (h.beside rfl rfl rfl)) (h.beside rfl rfl rfl)

theorem Standing.purgeCore (h : Standing s₀ s) (x : CtxId) (c : Nat) : Standing s₀ (purgeCore x c s) :=
  .ite (h.beside rfl rfl rfl) (h.beside rfl rfl rfl)

theorem lost_map {g : Nat × DieSt → Nat × DieSt} (hg : ∀ e, (g e).1 = e.1 ∧ (g e).2.lost = e.2.lost) (l : Table DieSt) (d : Nat) :
    (tget (l.map g) d DieSt.reset).lost = (tget l d DieSt.reset).lost := by
  induction l with
  | nil => rfl
  | cons e l ih =>
    rw [List.map_cons, tget, tget, (hg e).1]
    split
    · exact (hg e).2
    · exact ih

theorem Standing.ptRoots (h : Standing s₀ s) (x : CtxId) : Standing s₀
    (Machine.wr fPtRootEn (3 * x.val) 0 (Machine.wr fPtRootEn (3 * x.val + 1) 0 (Machine.wr fPtRootEn (3 * x.val + 2) 0 s))) := by
  have high (n : Nat) : 0x7000 ≤ RegKind.ptRoot.off n := by
    change 0x7000 ≤ 0x8020 + 0x100 * (n / 3) + 8 * (n % 3)
    omega
  exact ((h.wr fPtRootEn _ 0 (.inl (high _))).wr fPtRootEn _ 0 (.inl (high _))).wr fPtRootEn _ 0 (.inl (high _))

theorem Standing.destroyCtx (h : Standing s₀ s) (keep : Bool) (x : CtxId) : Standing s₀ (destroyCtx keep x s) := by
  have hcores : Standing s₀ ((s.cores.map (·.1)).foldl (fun t c => Machine.purgeCore x c t) s) := .foldl (fun _ _ h => h.purgeCore ..) _ h
  unfold Machine.destroyCtx
  dsimp only
  generalize (s.cores.map (·.1)).foldl (fun t c => Machine.purgeCore x c t) s = u at *
  split
  rotate_left
  apply Standing.ptRoots
  all_goals refine hcores.of_regs ?_ rfl
  all_goals
    refine congrArg (fun f => (u.lands, u.fuses, setting u, f)) (funext fun d => lost_map ?_ u.dies d)
    exact fun _ => ⟨rfl, rfl⟩

theorem Standing.dropHold (h : Standing s₀ s) (hd : Hold) : Standing s₀ (dropHold hd s) :=
  (Standing.foldl (fun _ c ht => .ite ht (ht.ptRoots c)) hd.ctxs h).beside rfl rfl rfl

theorem Standing.stkPatch (h : Standing s₀ s) (x : Half) (p : Nat) (d : Bytes) (gen : Nat) : Standing s₀ (stkPatch x p d gen s) := by
  rw [stkPatch_frame]
  exact h.beside rfl rfl rfl

theorem Standing.htPut (h : Standing s₀ s) (n : Nat) (b : Bytes) : Standing s₀ (htPut n b s) :=
  .foldl (fun _ k h => h.regWrite (.inl (Nat.le_trans (by decide) (Nat.le_add_right 0x20000 _))) _) _ h

/-- A port that goes DARK. -/
theorem Standing.darken (ht : Standing s₀ t) (p : Nat) :
    Standing s₀ (Machine.wr fTpCtlEn p 0 (Machine.wr fState p 0 (Machine.wr fWidth p 0 (Machine.wr fGroups p 0 t)))) := by
  have off (f : Fld) (hf : f.reg = .tpCtl ∨ f.reg = .tpStat) : f.reg.off p = 0x6100 + 0x20 * p ∨ f.reg.off p = 0x6108 + 0x20 * p := by
    rcases hf with e | e
    · exact .inl (by rw [e]; rfl)
    · exact .inr (by rw [e]; rfl)
  refine ht.trans ⟨rfl, fun k i hk => ?_, fun q _ => ?_⟩
  · have other (f : Fld) (u : State) (hf : f.reg = .tpCtl ∨ f.reg = .tpStat) : regRead (Machine.wr f p 0 u) k i = regRead u k i :=
      regRead_wr_other u 0 fun e => by
        have := off f hf
        have := hk.1
        omega
    exact (other fTpCtlEn _ (.inl rfl)).trans ((other fState _ (.inr rfl)).trans ((other fWidth _ (.inr rfl)).trans (other fGroups _ (.inr rfl))))
  · have ctl (u : State) : portState (Machine.wr fTpCtlEn p 0 u) q = portState u q := by
      refine rd_wr_other u 0 ?_
      change 0x6108 + 0x20 * q ≠ 0x6100 + 0x20 * p
      omega
    by_cases hq : q = p
    · refine .inr ((ctl _).trans ?_)
      rw [hq]
      exact rd_wr_field _ fState p 0
    · have stat (f : Fld) (u : State) (hf : f.reg = .tpStat) : portState (Machine.wr f p 0 u) q = portState u q := by
        refine rd_wr_other u 0 ?_
        rw [hf]
        exact off_tpStat hq
      exact .inl ((ctl _).trans ((stat fState _ rfl).trans ((stat fWidth _ rfl).trans (stat fGroups _ rfl))))

theorem Standing.unbindTorus (h : Standing s₀ s) : Standing s₀ (unbindTorus s) := by
  have hports := Standing.foldl (fun t p ht => (Standing.darken ht p).modPort p fun _ => TorusPort.reset) (List.range 6) h
  unfold Machine.unbindTorus
  dsimp only
  have hvalid := hports.wr fValid 0 0
  generalize Machine.wr fValid 0 0 _ = u at hvalid ⊢
  exact hvalid.beside rfl rfl rfl

theorem Standing.releaseJob (h : Standing s₀ s) (j : Job) : Standing s₀ (releaseJob j s) := by
  have hserve := (Standing.unbindTorus (.foldl (fun _ n h => h.htPut n (zeros 32)) (List.range j.nhandle) h)).wr fSvCtlEn 0 0
  unfold Machine.releaseJob
  dsimp only
  generalize Machine.wr fSvCtlEn 0 0 _ = u at hserve ⊢
  exact hserve.beside rfl rfl rfl

theorem Standing.endJob (h : Standing s₀ s) (status detail : Nat) (held : Bool) : Standing s₀ (endJob status detail held s) := by
  unfold Machine.endJob
  split
  · exact h
  next j _ =>
    dsimp only
    have hended := Standing.foldl (fun _ c h => h.destroyCtx held c) j.ctxs
      ((h.endStruck.undeliver fun _ => true).jobCpl j.ring j.desc (if j.started then evEnded else evRejected) status detail)
    refine .stkPatch (.releaseJob (.ite ?_ hended) j) ..
    generalize j.ctxs.foldl _ _ = u at hended ⊢
    refine Standing.beside (s := match u.hold with | some h => Machine.dropHold h u | none => u) ?_ rfl rfl rfl
    split
    · exact hended.dropHold _
    · exact hended

end Sys2Proof.Machine
end

section
/-! ### A device that retires (spec/13 R461, R462) -/

namespace Sys2Proof.Machine

/-! #### Faults of several contexts -/

theorem ctxSt_writeFaultRecord (x : Nat) (r : Bytes) (s : State) (c : Nat) : ctxSt (writeFaultRecord x r s) c = ctxSt s c := by
  rw [writeFaultRecord_frame]
  rfl

theorem fault_ctxFault (x c : CtxId) (code detail : Nat) (w : Site) (s : State) :
    (ctxSt (ctxFault x code detail w none s) c).fault
      = if c = x ∧ (ctxSt s x).fault = none then some (code, detail) else (ctxSt s c).fault := by
  rcases hf : (ctxSt s x).fault with _ | p
  · by_cases hc : c = x
    · rw [if_pos ⟨hc, rfl⟩, hc]
      exact (fault_ctxFault_none hf code detail w).1
    · rw [if_neg fun h => hc h.1, ctxFault_first hf]
      refine congrArg Ctx.fault ((ctxSt_stopCores ..).trans ((ctxSt_modCtx_other _ _ (Fin.val_ne_of_ne hc)).trans ?_))
      rw [strikeQueries_frame]
      exact ctxSt_writeFaultRecord ..
  · rw [if_neg fun h => nomatch h.2]
    simp only [ctxFault, hf]
    split
    · rfl
    · rw [ctxSt_writeFaultRecord]

/-- Of the contexts of a list, those without a fault take it. -/
theorem fault_foldl_ctxFault (l : List CtxId) (c : CtxId) (code detail : Nat) (w : Site) (s : State) :
    (ctxSt (l.foldl (fun t c => ctxFault c code detail w none t) s) c).fault
      = if c ∈ l ∧ (ctxSt s c).fault = none then some (code, detail) else (ctxSt s c).fault := by
  induction l generalizing s with
  | nil => simp
  | cons x l ih =>
    rw [List.foldl_cons, ih, fault_ctxFault]
    by_cases hc : c = x
    · subst hc
      rcases (ctxSt s c).fault with _ | p <;> simp
    · simp [hc]

theorem mem_liveCtxs {s : State} {c : CtxId} : c ∈ liveCtxs s ↔ (ctxSt s c).live = true := by
  unfold liveCtxs
  rw [List.mem_filter]
  exact and_iff_right ((by decide : ∀ c : CtxId, c ∈ ctxsOf 0xFFFF) c)

/-! #### Without a job there is nothing to end -/

theorem job_endJob (status detail : Nat) (held : Bool) (s : State) : (endJob status detail held s).job = none := by
  unfold endJob
  split
  · next h => exact h
  · exact congrArg State.job (stkPatch_frame ..)

theorem peerLostOp_noJob {s : State} (h : s.job = none) (cause : Nat) (port : Option Nat) (origin : Coord) (except : Option Nat) :
    peerLostOp cause port origin except s = s := by
  simp only [peerLostOp, h]

theorem endJob_noJob {s : State} (h : s.job = none) (status detail : Nat) (held : Bool) : endJob status detail held s = s := by
  simp only [endJob, h]

/-! #### The retirement -/

theorem Standing.histPut {s t : State} (h : Standing s t) (kind unit : Nat) (data : Bytes) : Standing s (histPut kind unit data t) := h.beside rfl rfl rfl

theorem Standing.histWrite {s t : State} (h : Standing s t) (kind unit : Nat) (data : Bytes) : Standing s (histWrite kind unit data t) :=
  .ite (.ite (h.beside (by rfl) (by rfl) (by rfl)) h) (.histPut (.ite (.foldl (fun _ _ h => h.histPut ..) _ (h.beside (by rfl) (by rfl) (by rfl))) h) ..)

/-- What the retirement marks and drives, before it ends the work. -/
def retiring (cause : Nat) (s : State) : State :=
  setReady false (assertFault (logWrite 0x010C srcSch (toLe 1 cause)
    (histWrite hkRetire 0xFFFF (toLe 1 cause) (wr fRetCause 0 cause (wr fRetired 0 1 s)))))

/-- The work of a package that retires: its contexts fault or go. -/
def retireCtxs (cause detail : Nat) (s : State) : State :=
  if cause = 1 then (liveCtxs s).foldl (fun t c => ctxFault c fcStackLost detail (Site.bare 7 0) none t) s
  else if cause = 3 ∨ cause = 4 then (liveCtxs s).foldl (fun t c => ctxFault c fcHalfLost detail (Site.bare 7 0) none t) s
  else (liveCtxs s).foldl (fun t c => destroyCtx false c t) s

theorem retire_eq {s : State} (h : rdb s fRetired 0 = false) (cause detail : Nat) :
    ∃ o, retire cause detail s
      = { endJob stRetired 0 false (peerLostOp 3 none o none (retireCtxs cause detail (retiring cause s))) with hold := none } :=
  ⟨_, if_neg (by rw [h]; decide)⟩

/-- READY low, FAULT_N asserted. -/
def failed (l : Lands) : Lands := { l with ready := some false, faultN := some false }

theorem lands_assertFault (s : State) : (assertFault s).lands = { s.lands with faultN := some false } := by
  unfold assertFault
  by_cases h : s.lands.faultN = some false
  · rw [if_pos h, ← h]
  · rw [if_neg h]
    rfl

theorem lands_fail (s : State) : (setReady false (assertFault s)).lands = failed s.lands :=
  (congrArg State.lands (setReady_frame ..)).trans
    (congrArg (fun l : Lands => { l with ready := some false }) (lands_assertFault s))

/-- Driving READY and FAULT_N leaves alone what looks at neither, nor at the interrupts. -/
theorem view_fail {α : Type} {v : State → α} (hv : ∀ s l i m, v { s with lands := l, ibis := i, msix := m } = v s) (s : State) :
    v (setReady false (assertFault s)) = v s := by
  rw [setReady_frame]
  refine (hv _ _ _ (assertFault s).msix).trans ?_
  rw [assertFault_frame]
  exact hv ..

/-- A state of which only what the lands drive differs. -/
def drive (f : Lands → Lands) (s : State) : State := { s with lands := f s.lands }

/-- What stands on a state stands beside what the lands drive. -/
theorem Standing.fail {s t : State} (h : Standing s t) : Standing (drive failed s) (setReady false (assertFault t)) := by
  obtain ⟨hkept, hregs, hports⟩ := h
  have hread (k i) : regRead (setReady false (assertFault t)) k i = regRead t k i := view_fail (v := fun s => regRead s k i) (fun _ _ _ _ => rfl) t
  refine ⟨?_, fun k i hk => (hread k i).trans (hregs k i hk), fun p hp => ?_⟩
  · refine (congrArg₂ Prod.mk (lands_fail t) (view_fail (v := fun s => (stood s).2) (fun _ _ _ _ => rfl) t)).trans ?_
    exact congrArg (fun x => (failed x.1, x.2)) hkept
  · rw [show portState (setReady false (assertFault t)) p = portState t p from congrArg (bits · _ _) (hread _ _)]
    exact hports p hp

theorem standing_retiring (cause : Nat) (s : State) :
    Standing (drive failed (wr fRetCause 0 cause (wr fRetired 0 1 s))) (retiring cause s) := by
  refine Standing.fail (s := wr fRetCause 0 cause (wr fRetired 0 1 s)) (.logWrite (.histWrite (.refl _) ..) ..)

theorem standing_retireCtxs (cause detail : Nat) (s : State) : Standing s (retireCtxs cause detail s) :=
  .ite (.foldl (fun _ _ h => h.ctxFault ..) _ (.refl s))
    (.ite (.foldl (fun _ _ h => h.ctxFault ..) _ (.refl s)) (.foldl (fun _ _ h => h.destroyCtx ..) _ (.refl s)))

/-- A device that retires is marked, drives READY low and FAULT_N asserted, and has neither a job nor held memory. -/
theorem retire_spec {s : State} (h : rdb s fRetired 0 = false) (cause detail : Nat) :
    Standing (drive failed (wr fRetCause 0 cause (wr fRetired 0 1 s))) (retire cause detail s)
      ∧ (retire cause detail s).job = none ∧ (retire cause detail s).hold = none := by
  obtain ⟨o, he⟩ := retire_eq h cause detail
  rw [he]
  refine ⟨?_, job_endJob .., rfl⟩
  exact Standing.beside (((standing_retiring cause s).trans (standing_retireCtxs ..)).peerLostOp .. |>.endJob stRetired 0 false) rfl rfl rfl

theorem Standing.rd {s t : State} (h : Standing s t) {f : Fld} {i : Nat} (hlow : LowReg (f.reg.off i)) : rd t f i = rd s f i :=
  congrArg (bits · _ _) (h.regs _ _ hlow)

theorem rd_retired (cause : Nat) (s : State) (f : Lands → Lands) :
    rdb (drive f (wr fRetCause 0 cause (wr fRetired 0 1 s))) fRetired 0 = true
      ∧ Machine.rd (drive f (wr fRetCause 0 cause (wr fRetired 0 1 s))) fRetCause 0 = cause % 256 := by
  refine ⟨congrArg (· == 1) ((rd_congr rfl rfl ..).trans ((rd_wr_beside ..).trans (rd_wr_field ..))), (rd_congr rfl rfl ..).trans (rd_wr_field ..)⟩

/-- What a device that retires shows. -/
theorem retire_shows {s : State} (h : rdb s fRetired 0 = false) (cause detail : Nat) :
    rdb (retire cause detail s) fRetired 0 = true ∧ Machine.rd (retire cause detail s) fRetCause 0 = cause % 256
      ∧ (retire cause detail s).lands.ready = some false ∧ (retire cause detail s).lands.faultN = some false := by
  obtain ⟨hstand, -, -⟩ := retire_spec h cause detail
  obtain ⟨hmark, hcause⟩ := rd_retired cause s failed
  have hlands : (retire cause detail s).lands = failed s.lands := congrArg Prod.fst hstand.kept
  refine ⟨(congrArg (· == 1) (hstand.rd (by decide))).trans hmark, (hstand.rd (by decide)).trans hcause, ?_, ?_⟩
  · rw [hlands]
    rfl
  · rw [hlands]
    rfl

end Sys2Proof.Machine
end

section
/-! #### Losses (spec/07 R267, R268; spec/01 R40; spec/13 R462) -/

namespace Sys2Proof.Machine

theorem exec_stackLost (d : Die) (why : LossKind) (s : State) :
    exec (.stackLost d why) s = .next (if (die s d).lost = true ∨ why = .silentChannel ∧ channelSilent s d = false then s
      else retire 1 (d.val / 8 * 16 + d.val % 8) (modDie d (fun x => { x with lost := true }) s)) := by
  change execStackLost d why s = _
  simp only [execStackLost, Bool.or_eq_true, Bool.and_eq_true, beq_iff_eq, Bool.not_eq_true']

theorem channelSilent_iff {s : State} {d : Nat} : channelSilent s d = true ↔ ∃ e ∈ (die s d).silent, e.2 + 52429 ≤ s.time := by
  unfold channelSilent
  rw [List.any_eq_true]
  exact exists_congr fun e => and_congr_right fun _ => decide_eq_true_iff

/-- A record of the health history leaves alone what looks at no history. -/
theorem histWrite_view {α : Type} {v : State → α} (hv : ∀ s f n w, v { s with flash := f, histPos := n, histWait := w } = v s)
    (kind unit : Nat) (data : Bytes) (s : State) : v (histWrite kind unit data s) = v s := by
  have put (k u : Nat) (b : Bytes) (t : State) : v (histPut k u b t) = v t :=
    hv t (histPut k u b t).flash (t.histPos + 1) t.histWait
  have fold (l : List (Nat × Nat × Bytes)) (t : State) : v (l.foldl (fun t r => histPut r.1 r.2.1 r.2.2 t) t) = v t := by
    induction l generalizing t with
    | nil => rfl
    | cons r l ih => exact (ih _).trans (put ..)
  unfold histWrite
  dsimp only
  split
  · split
    · exact hv ..
    · rfl
  · refine (put ..).trans ?_
    split
    · exact (fold _ _).trans (hv ..)
    · rfl

/-- The job, the contexts, the cores and the memory. -/
def work (s : State) : Option Job × Table Ctx × Table Core × List Host.Cell := (s.job, s.ctxs, s.cores, s.mem)

theorem work_retiring (cause : Nat) (s : State) : work (retiring cause s) = work s :=
  (view_fail (v := work) (fun _ _ _ _ => rfl) _).trans
    ((congrArg work (logWrite_frame ..)).trans (histWrite_view (v := work) (fun _ _ _ _ => rfl) ..))

theorem job_retireCtxs_one (detail : Nat) (s : State) : (retireCtxs 1 detail s).job = s.job := by
  have fold (l : List CtxId) (t : State) :
      (l.foldl (fun t c => ctxFault c fcStackLost detail (Site.bare 7 0) none t) t).job = t.job := by
    induction l generalizing t with
    | nil => rfl
    | cons c l ih =>
      rw [List.foldl_cons, ih, ctxFault_frame]
  exact fold _ s

/-- With no job, every context that exists and has no fault faults with the loss. -/
theorem fault_retire_one {s : State} (h : rdb s fRetired 0 = false) (hjob : s.job = none) {c : CtxId} (hlive : (ctxSt s c).live = true)
    (hfault : (ctxSt s c).fault = none) (detail : Nat) : (ctxSt (retire 1 detail s) c).fault = some (0x32, detail) := by
  obtain ⟨o, he⟩ := retire_eq h 1 detail
  have hwork := work_retiring 1 s
  have hsame : ctxSt (retiring 1 s) c = ctxSt s c := congrArg (fun w : Option Job × Table Ctx × Table Core × List Host.Cell => tget w.2.1 c.val Ctx.reset) hwork
  have hidle : (retireCtxs 1 detail (retiring 1 s)).job = none := (job_retireCtxs_one ..).trans ((congrArg Prod.fst hwork).trans hjob)
  rw [he, peerLostOp_noJob hidle, endJob_noJob hidle]
  refine (fault_foldl_ctxFault ..).trans (if_pos ⟨mem_liveCtxs.mpr ?_, ?_⟩)
  · rw [hsame, hlive]
  · rw [hsame, hfault]

theorem rideSpent_iff {now : Nat} {r : RideEnd} : rideSpent now r = true ↔
    8 ≤ r.replays ∧ r.retry ≠ [] ∧ (r.gotReplay ≠ none ∨ r.ackSince + 512 ≤ now) := by
  rw [rideSpent, Bool.and_eq_true, Bool.and_eq_true, decide_eq_true_iff, Bool.not_eq_true', List.isEmpty_eq_false_iff, Bool.or_eq_true,
    Option.isSome_iff_ne_none, decide_eq_true_iff, and_assoc]
  rfl

theorem exec_rideFailed (h : Half) (s : State) :
    exec (.rideFailed h) s = .next (if rideSpent s.time (rideEnd s h) then retire 2 0 s else s) := rfl

/-- RETIRE_ACK by a whole write. -/
theorem exec_retireAck {w : RegWr} {s : State} (hfull : w.part = .full) (hbit : w.val.toNat.testBit 41 = true)
    (hidle : rdb s fRetireAck 0 = false) : exec (.retireAck w) s = .next (retireAckOp (regPut .intStat 0 w s).1) := by
  have hown : jobOwned s .intStat 0 = false := by
    unfold jobOwned
    split <;> rfl
  have hstart := started_regPut (s := s) (i := 0) hfull (.inr hown) (f := fRetireAck) (by decide) rfl rfl hbit
  rw [hidle] at hstart
  exact congrArg Host.Outcome.next (if_pos hstart)

section
variable {s : State} {kind : Nat}

/-- While SEC restarts a retirement, its acknowledgement and a thermal shutdown wait. -/
theorem histWrite_waits (h : (proc s 0).restarting = true) (hkind : kind = hkRetire ∨ kind = hkAck ∨ kind = hkThermal) (unit : Nat)
    (data : Bytes) : histWrite kind unit data s = { s with histWait := s.histWait ++ [(kind, unit, data)] } :=
  (if_pos h).trans (if_pos hkind)

/-- A running SEC writes a record that begins no sector anew. -/
theorem histWrite_puts (h : (proc s 0).restarting = false) (hplace : s.histPos % histSize % histSector ≠ 0 ∨ s.histPos < histSize)
    (unit : Nat) (data : Bytes) : histWrite kind unit data s = histPut kind unit data s := by
  refine (if_neg (by rw [h]; decide)).trans (congrArg (histPut kind unit data) (if_neg fun hturn => ?_))
  exact hplace.elim (fun e => e hturn.1) fun e => absurd hturn.2 (Nat.not_le.mpr e)

theorem histRec_length (kind unit num time : Nat) (data : Bytes) : (histRec kind unit num time data).length = 32 := by
  simp only [histRec, List.length_append, toLe_length, zeros, List.length_replicate, slice, List.length_take]
  omega

/-- A record reads back at its place. -/
theorem histAt_histPut (hwf : s.storesWf = true) (kind unit : Nat) (data : Bytes) :
    histAt (histPut kind unit data s) (s.histPos % histSize) = histRec kind unit s.histPos s.time data := by
  have hread := cellsRead_cellsWrite_same ((storesWf_iff s).mp hwf).2.1 (histBase + 32 * (s.histPos % histSize))
    (histRec kind unit s.histPos s.time data)
  rw [histRec_length] at hread
  exact hread

end

theorem rdb_histWrite (kind unit : Nat) (data : Bytes) (s : State) (f : Fld) (i : Nat) :
    rdb (histWrite kind unit data s) f i = rdb s f i := histWrite_view (v := fun s => rdb s f i) (fun _ _ _ _ => rfl) ..

theorem retireAckOp_spec (s : State) : rdb (retireAckOp s) fRetireAck 0 = false ∧ rdb (retireAckOp s) fRetired 0 = rdb s fRetired 0
    ∧ retireAckOp s = (if rdb s fRetired 0 then histWrite hkAck 0xFFFF [] (wr fRetireAck 0 0 s) else wr fRetireAck 0 0 s) := by
  have hack : rdb (wr fRetireAck 0 0 s) fRetireAck 0 = false := congrArg (· == 1) (rd_wr_field ..)
  have hret : rdb (wr fRetireAck 0 0 s) fRetired 0 = rdb s fRetired 0 := rdb_wr_beside ..
  refine ⟨?_, ?_, rfl⟩
  all_goals
    unfold retireAckOp
    dsimp only
    split
  · exact (rdb_histWrite ..).trans hack
  · exact hack
  · exact (rdb_histWrite ..).trans hret
  · exact hret

/-- Settles O37: lost stacks and a failed ride retire the device; its retirement is acknowledged. -/
theorem lossesRetireTheDevice : Obligations.LossesRetireTheDevice := by
  refine ⟨fun s d why => ?stack, fun s h => ?ride, fun s w hfull hbit hidle => ?ack⟩
  case stack =>
    have hexec := exec_stackLost d why s
    refine ⟨fun hlost => ?_, fun hwhy hquiet => ?_, fun hlost hwhy => ?_⟩
    · exact hexec.trans (congrArg Host.Outcome.next (if_pos (.inl hlost)))
    · refine hexec.trans (congrArg Host.Outcome.next (if_pos (.inr ⟨hwhy, Bool.eq_false_iff.mpr fun h => ?_⟩)))
      obtain ⟨e, he, hlate⟩ := channelSilent_iff.mp h
      exact absurd (hquiet e he) (Nat.not_lt.mpr hlate)
    · have hgo : ¬((die s d).lost = true ∨ why = .silentChannel ∧ channelSilent s d = false) := by
        rintro (h | ⟨h, h'⟩)
        · exact Bool.noConfusion (hlost.symm.trans h)
        · exact Bool.noConfusion ((channelSilent_iff.mpr (hwhy.resolve_left fun hne => hne h)).symm.trans h')
      have hgone := hexec.trans (congrArg Host.Outcome.next (if_neg hgo))
      refine ⟨fun hret => ?_, fun hret => ?_⟩
      · exact hgone.trans (congrArg Host.Outcome.next (if_pos hret))
      · obtain ⟨hlost, hret, hsame⟩ : (die (modDie d (fun x => { x with lost := true }) s) d).lost = true
            ∧ rdb (modDie d (fun x => { x with lost := true }) s) fRetired 0 = false
            ∧ work (modDie d (fun x => { x with lost := true }) s) = work s := ⟨congrArg DieSt.lost (die_modDie_same ..), hret, rfl⟩
        generalize modDie d (fun x => { x with lost := true }) s = u at hgone hlost hret hsame
        obtain ⟨hstand, hjob, hhold⟩ := retire_spec hret 1 (d.val / 8 * 16 + d.val % 8)
        obtain ⟨hmark, hcause, hready, hfail⟩ := retire_shows hret 1 (d.val / 8 * 16 + d.val % 8)
        refine ⟨_, hgone, ?_, hmark, hcause, hready, hfail, hjob, hhold, fun hno c hlive hnone => ?_⟩
        · exact (congrFun (congrArg (fun x => x.2.2.2) hstand.kept) d.val).trans hlost
        · have hctx : ctxSt u c = ctxSt s c := congrArg (fun w : Option Job × Table Ctx × Table Core × List Host.Cell => tget w.2.1 c.val Ctx.reset) hsame
          exact fault_retire_one hret ((congrArg Prod.fst hsame).trans hno) (hctx ▸ hlive) (hctx ▸ hnone) _
  case ride =>
    intro r
    refine ⟨fun hno => congrArg Host.Outcome.next (if_neg fun h => ?_), fun hreplays hretry hask hret => ?_⟩
    · obtain ⟨h8, hne, hask⟩ := rideSpent_iff.mp h
      rcases hno with h | h | ⟨h, h'⟩
      · exact absurd h (Nat.not_lt.mpr h8)
      · exact hne h
      · exact hask.elim (fun e => e h) fun e => absurd h' (Nat.not_lt.mpr e)
    · obtain ⟨-, hjob, hhold⟩ := retire_spec hret 2 0
      obtain ⟨hmark, hcause, hready, hfail⟩ := retire_shows hret 2 0
      exact ⟨_, congrArg Host.Outcome.next (if_pos (rideSpent_iff.mpr ⟨hreplays, hretry, hask⟩)), hmark, hcause, hready, hfail, hjob, hhold⟩
  case ack =>
    have hown : jobOwned s .intStat 0 = false := by
      unfold jobOwned
      split <;> rfl
    have hret : rdb (regPut .intStat 0 w s).1 fRetired 0 = rdb s fRetired 0 :=
      congrArg (· == 1) (rd_regPut_full hfull (.inr hown) (f := fRetired) (by decide))
    obtain ⟨r, hr⟩ := (RegsOnly.refl s).regPut .intStat 0 w
    have hexec := exec_retireAck hfull hbit hidle
    rw [hr] at hexec hret
    obtain ⟨hgone, hkept, hrest⟩ := retireAckOp_spec { s with regs := r }
    refine ⟨_, hexec, hgone, hkept.trans hret, fun hno => ?_, fun hyes hrestart => ?_, fun hyes hrun hwf hplace => ?_⟩
    · rw [hrest, if_neg (by rw [hret, hno]; decide)]
      rfl
    · rw [hrest, if_pos (hret.trans hyes)]
      exact congrArg State.histWait (histWrite_waits (s := wr fRetireAck 0 0 { s with regs := r }) hrestart (.inr (.inl rfl)) _ _)
    · rw [hrest, if_pos (hret.trans hyes), histWrite_puts (s := wr fRetireAck 0 0 { s with regs := r }) hrun hplace]
      exact ⟨histAt_histPut (s := wr fRetireAck 0 0 { s with regs := r }) hwf _ _ _, rfl⟩

end Sys2Proof.Machine
end

section
/-! #### Translation units (spec/07 R237 to R240) -/

namespace Sys2Proof.Machine

/-- The entry of a page of a context. -/
def isPage (x : CtxId) (reg off : Nat) (e : TlbEntry) : Bool := e.ctx == x && e.reg == reg && e.page == pageOf reg off

theorem tlbHit_eq (s : State) (g : Nat) (x : CtxId) (reg off : Nat) : tlbHit s g x reg off =
    (if reg ≤ 1 then ((grove s g).tlb.large.find? (isPage x reg off)).map (·.pte.toNat)
      else ((grove s g).tlb.small.find? (isPage x reg off)).map (·.pte.toNat)) := by
  unfold tlbHit
  split <;> rfl

/-- The last of a list stays when the list is cut to its last entries, and is found where no other is. -/
theorem find_keepLast {α : Type} {p : α → Bool} {l : List α} {a : α} {n : Nat} (hn : 0 < n) (hno : l.find? p = none) (ha : p a = true) :
    (keepLast n (l ++ [a])).find? p = some a := by
  unfold keepLast
  rw [List.length_append, List.length_singleton, List.drop_append_of_le_length (by omega), List.find?_append,
    List.find?_eq_none.mpr fun b hb => List.find?_eq_none.mp hno b (List.mem_of_mem_drop hb), List.find?_cons_of_pos ha]
  rfl

section
variable {s : State} {g : Nat} {x : CtxId} {reg off e : Nat}

/-- A unit holds the page entry that it has just walked to, if it is resident. -/
theorem tlbHit_tlbFill {ps : List (Nat × Nat)} (hmiss : tlbHit s g x reg off = none) (he : e < 2 ^ 64) :
    tlbHit (tlbFill g x reg off (.page e, ps) s) g x reg off = if pteRes e then some e else none := by
  rw [tlbHit_eq] at hmiss ⊢
  unfold tlbFill
  rw [grove_modGrove_same]
  have hself : isPage x reg off ⟨x, reg, pageOf reg off, BitVec.ofNat 64 e⟩ = true := by simp [isPage]
  have hpte : (BitVec.ofNat 64 e).toNat = e := Nat.mod_eq_of_lt he
  rcases hres : pteRes e with _ | _
  · simp only [hres, Bool.not_false, if_true]
    exact hmiss
  · by_cases hreg : reg ≤ 1
    · simp only [hres, Bool.not_true, Bool.false_eq_true, if_false, hreg, if_true] at hmiss ⊢
      rw [find_keepLast (by decide) (Option.map_eq_none_iff.mp hmiss) hself, Option.map_some, hpte]
    · simp only [hres, Bool.not_true, Bool.false_eq_true, if_false, hreg, if_true] at hmiss ⊢
      rw [find_keepLast (by decide) (Option.map_eq_none_iff.mp hmiss) hself, Option.map_some, hpte]

end

theorem grove_modGrove_other {g n : Nat} (h : n ≠ g) (f : GroveSt → GroveSt) (s : State) : grove (modGrove g f s) n = grove s n :=
  tget_tset_other _ _ _ _ _ h

theorem grove_walkAsks (g : Nat) (x : CtxId) (l : List (Half × Nat)) (s : State) (n : Nat) : grove (walkAsks g x l s) n = grove s n := by
  rw [walkAsks_frame]
  rfl

section
variable {s : State} {g : Grove} {x : CtxId} {va : BitVec 56} {reg off : Nat}

theorem translate_miss (hmiss : tlbHit s g x reg off = none) : translate g x reg off s =
    (walkAsks g x (walkTables s g x reg off) (tlbFill g x reg off (walkOn s g x reg off) s), (walkOn s g x reg off).1) := by
  simp only [translate, hmiss]

/-- The end of a missed walk. -/
theorem exec_tableWalk_page {e : Nat} (hva : mappedOf va = some (reg, off)) (hmiss : tlbHit s g x reg off = none)
    (hw : (walkOn s g x reg off).1 = .page e) : exec (.tableWalk g x va) s = .next (translate g x reg off s).1 := by
  change execTableWalk g x va s = _
  simp only [execTableWalk, hva, hmiss, translate_miss hmiss, hw, Option.isSome_none, Bool.false_eq_true, if_false]

theorem exec_tableWalk_invalid {lv r : Nat} (hva : mappedOf va = some (reg, off)) (hmiss : tlbHit s g x reg off = none)
    (hw : (walkOn s g x reg off).1 = .invalid lv r) : exec (.tableWalk g x va) s
      = .next (ctxFault x fcPte (pteDetail lv r) (Site.bare 4 va.toNat) none (translate g x reg off s).1) := by
  change execTableWalk g x va s = _
  simp only [execTableWalk, hva, hmiss, translate_miss hmiss, hw, Option.isSome_none, Bool.false_eq_true, if_false]

end

/-! #### Invalidation -/

theorem tget_map {α : Type} {f : α → α} {d : α} (hd : f d = d) (l : Table α) (k : Nat) :
    tget (l.map fun e => (e.1, f e.2)) k d = f (tget l k d) := by
  induction l with
  | nil => exact hd.symm
  | cons e l ih =>
    rw [List.map_cons, tget, tget, ih]
    split <;> rfl

/-- A core's reads made ahead through a page are gone. -/
def aheadDrop (x : CtxId) (reg off : Nat) (c : Core) : Core :=
  if runsCtx c x then { c with ahead := c.ahead.filter fun a => !a.pages.contains (reg, pageOf reg off) } else c

theorem aheadDrop_frame (x : CtxId) (reg off : Nat) (c : Core) :
    aheadDrop x reg off c = { c with ahead := (aheadDrop x reg off c).ahead } := by
  unfold aheadDrop
  split <;> rfl

section
variable (x : CtxId) (reg off : Nat) (s : State)

theorem grove_tlbInvAll (g : Nat) : grove (tlbInvAll x reg off s) g = { grove s g with tlb := tlbDrop x reg off (grove s g).tlb } :=
  tget_map (f := fun e : GroveSt => { e with tlb := tlbDrop x reg off e.tlb }) rfl s.groves g

theorem core_tlbInvAll (c : Nat) : core (tlbInvAll x reg off s) c = aheadDrop x reg off (core s c) :=
  tget_map (f := aheadDrop x reg off) rfl s.cores c

end

theorem find_filter_none {α : Type} {p : α → Bool} {l : List α} : (l.filter fun a => !p a).find? p = none := by
  rw [List.find?_eq_none]
  intro a ha
  simpa using List.of_mem_filter ha

theorem find_filter_other {α : Type} {p q : α → Bool} (hpq : ∀ a, q a = true → p a = false) (l : List α) :
    (l.filter fun a => !p a).find? q = l.find? q := by
  rw [List.find?_filter]
  refine congrArg (l.find? ·) (funext fun a => ?_)
  rcases hq : q a with _ | _
  · simp
  · simp [hpq a hq]

section
variable {x y : CtxId} {reg off reg' off' : Nat}

theorem isPage_apart (h : (y, reg', pageOf reg' off') ≠ (x, reg, pageOf reg off)) (e : TlbEntry) (he : isPage y reg' off' e = true) :
    isPage x reg off e = false := by
  refine Bool.eq_false_iff.mpr fun he' => h ?_
  simp only [isPage, Bool.and_eq_true, beq_iff_eq] at he he'
  obtain ⟨⟨rfl, rfl⟩, hp⟩ := he
  obtain ⟨⟨rfl, rfl⟩, hp'⟩ := he'
  rw [← hp, ← hp']

end

section
variable {s : State} {x y : CtxId} {reg off reg' off' g : Nat}

theorem tlbHit_tlbInvAll_same : tlbHit (tlbInvAll x reg off s) g x reg off = none := by
  rw [tlbHit_eq, grove_tlbInvAll]
  dsimp only [tlbDrop]
  split
  · exact Option.map_eq_none_iff.mpr find_filter_none
  · exact Option.map_eq_none_iff.mpr find_filter_none

theorem tlbHit_tlbInvAll_other (h : (y, reg', pageOf reg' off') ≠ (x, reg, pageOf reg off)) :
    tlbHit (tlbInvAll x reg off s) g y reg' off' = tlbHit s g y reg' off' := by
  rw [tlbHit_eq, tlbHit_eq, grove_tlbInvAll]
  dsimp only [tlbDrop]
  split
  · exact congrArg (Option.map _) (find_filter_other (isPage_apart h) _)
  · exact congrArg (Option.map _) (find_filter_other (isPage_apart h) _)

/-- Through no block nothing is outstanding. -/
theorem keysBusy_zero (s : State) : keysBusy s 0 0 = false := by
  have miss (k : Nat) : ¬(decide (0 ≤ k) && decide (k < 0 + 0)) = true := by simp
  have none {α : Type} (f : α → Nat) (l : List α) : ¬(l.any fun a => decide (0 ≤ f a) && decide (f a < 0 + 0)) = true :=
    Bool.eq_false_iff.mp (List.any_eq_false.mpr fun a _ => miss (f a))
  refine Bool.or_eq_false_iff.mpr ⟨List.any_eq_false.mpr fun e _ => ?_, List.any_eq_false.mpr fun r _ => ?_⟩
  · exact Bool.eq_false_iff.mp (List.any_eq_false.mpr fun p _ => none id _)
  · generalize r.act = a
    induction a with
    | land | merge | fetchAdd => exact miss _
    | opDone o =>
      dsimp only
      generalize o.use = u
      induction u with
      | coreRead => exact none Loc.key _
      | _ => exact Bool.false_ne_true
    | _ => exact Bool.false_ne_true

end

theorem tlbHit_congr {s t : State} {g : Nat} (h : grove t g = grove s g) (x : CtxId) (reg off : Nat) :
    tlbHit t g x reg off = tlbHit s g x reg off := by
  rw [tlbHit, h, tlbHit]

/-- What waits for the acknowledgement of an invalidation. -/
def invWaited (x : CtxId) (reg off : Nat) (s : State) : List InvWait :=
  let ks := ((tlbHeld x reg off s).map (pteKeys reg)).dedup
  if ks.isEmpty then [⟨x, reg, pageOf reg off, 0, 0⟩] else ks.map fun k => ⟨x, reg, pageOf reg off, k.1, k.2⟩

theorem exec_tlbInv {s : State} {x : CtxId} {va : BitVec 56} {reg off : Nat} (hva : mappedOf va = some (reg, off)) :
    exec (.tlbInv x va) s = .next (if !schUp s then s else
      settleInvs { tlbInvAll x reg off s with invWaits := s.invWaits ++ invWaited x reg off s }) := by
  change execTlbInv x va s = _
  simp only [execTlbInv, hva]
  rfl

theorem settleInvs_frame (s : State) :
    settleInvs s = { s with invWaits := (settleInvs s).invWaits, reports := (settleInvs s).reports } := by
  by_cases h : s.invWaits.isEmpty = true
  · rw [show settleInvs s = s from if_pos h]
  · rw [show settleInvs s = _ from if_neg h]

theorem ack_settleInvs {s : State} {x : CtxId} {reg page : Nat} (h : ⟨x, reg, page, 0, 0⟩ ∈ s.invWaits) :
    .tlbInvAck x reg page ∈ (settleInvs s).reports := by
  unfold settleInvs
  rw [if_neg (by rw [List.isEmpty_iff]; exact List.ne_nil_of_mem h)]
  refine List.mem_append_right _ (List.mem_map.mpr ⟨_, List.mem_filter.mpr ⟨h, ?_⟩, rfl⟩)
  rw [keysBusy_zero]
  rfl

/-- Settles O25: walks cache resident pages only, and an invalidation leaves no unit that hits. -/
theorem tableWalkCachesResidentPagesOnly : Obligations.TableWalkCachesResidentPagesOnly := by
  refine ⟨fun s g x va reg off hva => ⟨fun hhit => ?hit, fun e hmiss hw he => ?page, fun lv r hmiss hw hfault => ?invalid⟩,
    fun s x va reg off hva => ⟨fun hsch => ?idle, fun hsch => ?inv⟩⟩
  case hit =>
    change execTableWalk g x va s = _
    simp only [execTableWalk, hva, if_pos hhit]
  case page =>
    refine ⟨_, exec_tableWalk_page hva hmiss hw, ?_, fun n hn => ?_, translate_frame ..⟩
    all_goals rw [translate_miss hmiss]
    · refine (tlbHit_congr (grove_walkAsks ..) ..).trans ?_
      rw [← Prod.eta (walkOn s g x reg off), hw]
      exact tlbHit_tlbFill hmiss he
    · exact (grove_walkAsks ..).trans (grove_modGrove_other hn ..)
  case invalid =>
    refine ⟨_, exec_tableWalk_invalid hva hmiss hw, ?_⟩
    have hnone : (ctxSt (translate g x reg off s).1 x).fault = none := by
      rw [translate_frame]
      exact hfault
    refine ⟨(fault_ctxFault_none hnone ..).1.trans (congrArg (fun d => some (0x10, lv + d)) (Nat.mul_comm r 256)), ?_⟩
    rw [ctxFault_first hnone]
    refine (congrArg Ctx.cuts ((ctxSt_stopCores ..).trans (ctxSt_modCtx_same ..))).trans ?_
    change coresRunning (translate g x reg off s).1 x = _
    rw [translate_frame]
    rfl
  case idle => exact (exec_tlbInv hva).trans (congrArg Host.Outcome.next (if_pos (by rw [hsch]; rfl)))
  case inv =>
    refine ⟨_, (exec_tlbInv hva).trans (congrArg Host.Outcome.next (if_neg (by rw [hsch]; decide))), ?_⟩
    rw [settleInvs_frame]
    have hgrove (n : Nat) {u : State} (hu : u.groves = (tlbInvAll x reg off s).groves) : grove u n = grove (tlbInvAll x reg off s) n := by
      rw [grove, hu, grove]
    refine ⟨fun n => ?_, fun n y reg' off' hy => ?_, fun c hrun a ha => ?_, fun c => ?_, fun hno => ?_, rfl⟩
    · exact (tlbHit_congr (hgrove n rfl) ..).trans tlbHit_tlbInvAll_same
    · exact (tlbHit_congr (hgrove n rfl) ..).trans (tlbHit_tlbInvAll_other hy)
    · replace ha : a ∈ (core (tlbInvAll x reg off s) c).ahead := ha
      rw [core_tlbInvAll, aheadDrop, if_pos hrun] at ha
      simpa using List.of_mem_filter ha
    · change core (tlbInvAll x reg off s) c = { core s c with ahead := (core (tlbInvAll x reg off s) c).ahead }
      rw [core_tlbInvAll]
      exact aheadDrop_frame ..
    · refine ack_settleInvs (List.mem_append_right _ ?_)
      have hheld : tlbHeld x reg off s = [] := List.filterMap_eq_nil_iff.mpr fun g _ => hno g
      rw [invWaited, hheld]
      exact List.mem_singleton.mpr rfl

end Sys2Proof.Machine
end

section
/-! #### Losing a half, and the clearing (spec/16 R516 to R519, R523 to R526) -/

namespace Sys2Proof.Machine

theorem exec_rideDown (h : Half) (s : State) : exec (.rideDown h) s = .next
    (if s.life = .up ∧ (rideEnd s h).down = false ∧ (rideEnd s h).goodSince + 1600 ≤ s.time then raiseFirebreak h s else s) := rfl

/-- A half's link that the firebreak has cut. -/
def cutOff (r : RideEnd) : RideEnd :=
  { r with down := true, ready := [], retry := [], resend := none, wire := [], askReplay := false, gotReplay := none }

/-- What the firebreak leaves before it is shown: nothing pending that crosses, nothing on the ride. -/
theorem raiseFirebreak_eq (h : Half) (s : State) : ∃ u : State, raiseFirebreak h s = wr fFirebreak 0 1 (setReady false u)
    ∧ (∀ e ∈ u.cores, ∀ p ∈ e.2.pend, ∀ n, p.op.half = some n → n = coreHalf e.1)
    ∧ u = { s with cores := u.cores, watches := u.watches, ride := (modRide h cutOff s).ride, halfPh := .firebreak, rdma := u.rdma
                   rideNext := [], stkReqs := u.stkReqs } := by
  refine ⟨_, rfl, fun e he p hp n hn => ?_, rfl⟩
  obtain ⟨e', -, rfl⟩ := List.mem_map.mp he
  have hkept := (Bool.and_eq_true _ _ ▸ List.of_mem_filter hp).1
  have hcross := (Bool.or_eq_false_iff.mp (Eq.mp (Bool.not_eq_true' _) hkept)).2
  rw [hn] at hcross
  exact bne_eq_false_iff_eq.mp hcross

theorem rideEnd_modRide {s : State} (h : Half) (f : RideEnd → RideEnd) (hride : s.ride.length = 2) :
    rideEnd (modRide h f s) h = f (rideEnd s h) := lget_lset_same (by rw [hride]; exact h.isLt) _ _

theorem exec_halfQuery {s : State} {h : Half} (hph : s.halfPh = .firebreak) (hdown : (rideEnd s h).down = true) (a : HalfAnswer) :
    exec (.halfQuery h a) s = .next (if a = .clockedOutOfReset then { retire 2 0 s with halfPh := .waiting }
      else if h = 0 then loseHalf1 (logWrite 0x0108 (if h = 0 then srcSec else srcHw) (toLe 1 (1 - h.val)) s)
      else loseHalf0 (logWrite 0x0108 (if h = 0 then srcSec else srcHw) (toLe 1 (1 - h.val)) s)) := 
  congrArg Host.Outcome.next (if_neg fun h => h.elim (fun e => e hph) fun e => Bool.noConfusion (hdown.symm.trans e))

/-- What a retirement leaves, whether or not the device had retired before. -/
structure Retired (s t : State) : Prop where
  mark : rdb t fRetired 0 = true
  fuses : t.fuses = s.fuses
  setting : setting t = setting s
  regs : ∀ k i, LowReg (k.off i) → k.off i ≠ 0x2010 → regRead t k i = regRead s k i
  ports : ∀ p < 6, portState t p = portState s p ∨ portState t p = 0
  job : s.job = none → t.job = none

theorem retired_retire (cause detail : Nat) (s : State) : Retired s (retire cause detail s) := by
  rcases hret : rdb s fRetired 0 with _ | _
  · obtain ⟨⟨hkept, hregs, hports⟩, hjob, -⟩ := retire_spec hret cause detail
    have other (k : RegKind) (i : Nat) (hk : k.off i ≠ 0x2010) :
        regRead (drive failed (wr fRetCause 0 cause (wr fRetired 0 1 s))) k i = regRead s k i :=
      (regRead_wr_other _ _ hk).trans (regRead_wr_other _ _ hk)
    have port (p : Nat) : portState (drive failed (wr fRetCause 0 cause (wr fRetired 0 1 s))) p = portState s p :=
      congrArg (bits · _ _) (other .tpStat p (by rw [RegKind.off_tpStat]; omega))
    exact ⟨(retire_shows hret cause detail).1, congrArg (fun x => x.2.1) hkept, congrArg (fun x => x.2.2.1) hkept,
      fun k i hlow hk => (hregs k i hlow).trans (other k i hk), fun p hp => port p ▸ hports p hp, fun _ => hjob⟩
  · rw [show retire cause detail s = s from if_pos hret]
    exact ⟨hret, rfl, rfl, fun _ _ _ _ => rfl, fun _ _ => .inl rfl, id⟩

theorem Retired.rd {s t : State} (h : Retired s t) {f : Fld} {i : Nat} (hlow : LowReg (f.reg.off i)) (hne : f.reg.off i ≠ 0x2010) :
    rd t f i = rd s f i := congrArg (bits · _ _) (h.regs _ _ hlow hne)

/-! #### The loss of HALF_1 -/

theorem setting_lossStops (s : State) : (lossStops s).time = s.time ∧ (lossStops s).losses = s.losses := by
  have h : ∀ u : State, (u = s ∨ u = endUpdate 4 3 s) → u.time = s.time ∧ u.losses = s.losses := by
    rintro u (rfl | rfl)
    · exact ⟨rfl, rfl⟩
    · unfold endUpdate
      rw [logWrite_frame]
      exact ⟨rfl, rfl⟩
  exact h (if s.update.isSome then endUpdate 4 3 s else s) (by split <;> simp)

/-- A port that carries nothing. -/
def Dead (s : State) (q : Nat) : Prop := portState s q = 0 ∨ portState s q = 5

def killPort (h : Half) (t : State) (p : Nat) : State := if portHalf p = h ∧ portState t p ≠ 0 then portDown p t else t

theorem dead_killPort {h : Half} {t : State} {p q : Nat} (hq : Dead t q ∨ q = p ∧ portHalf q = h) : Dead (killPort h t p) q := by
  unfold killPort
  split
  · rw [Dead, portState_portDown]
    split
    · exact .inr rfl
    · exact hq.resolve_right fun e => absurd e.1 ‹_›
  · next hno =>
    refine hq.elim id fun ⟨e, hp⟩ => .inl ?_
    rw [e] at hp ⊢
    exact not_not.mp (not_and.mp hno hp)

theorem killPorts_shows (h : Half) (s : State) :
    (killPorts h s).time = s.time ∧ (killPorts h s).losses = s.losses ∧ ∀ p < 6, portHalf p = h → Dead (killPorts h s) p := by
  have fold (l : List Nat) (t : State) :
      (l.foldl (killPort h) t).time = t.time ∧ (l.foldl (killPort h) t).losses = t.losses
        ∧ ∀ q, portHalf q = h → q ∈ l ∨ Dead t q → Dead (l.foldl (killPort h) t) q := by
    induction l generalizing t with
    | nil => exact ⟨rfl, rfl, fun q _ hq => hq.resolve_left List.not_mem_nil⟩
    | cons p l ih =>
      obtain ⟨htime, hlosses, hdead⟩ := ih (killPort h t p)
      have hone : (killPort h t p).time = t.time ∧ (killPort h t p).losses = t.losses := by
        unfold killPort
        split <;> exact ⟨rfl, rfl⟩
      refine ⟨htime.trans hone.1, hlosses.trans hone.2, fun q hh hq => hdead q hh ?_⟩
      rcases hq with hq | hq
      · exact (List.mem_cons.mp hq).elim (fun e => .inr (dead_killPort (.inr ⟨e, hh⟩))) .inl
      · exact .inr (dead_killPort (.inl hq))
  obtain ⟨htime, hlosses, hdead⟩ := fold (List.range 6) s
  exact ⟨htime, hlosses, fun p hp hh => hdead p hh (.inl (List.mem_range.mpr hp))⟩

/-- The state after the loss of HALF_1 has ended the job. -/
def jobLost (s : State) : State :=
  endJob stPeer 0 false (peerLostOp 3 none
    (ownCoord ((liveCtxs s).foldl (fun t c => ctxFault c fcHalfLost 1 (Site.bare 7 0) none t) s)) none
    ((liveCtxs s).foldl (fun t c => ctxFault c fcHalfLost 1 (Site.bare 7 0) none t) s))

theorem standing_jobLost (s : State) : Standing s (jobLost s) :=
  (Standing.peerLostOp (.foldl (fun _ _ h => h.ctxFault ..) _ (.refl s)) ..).endJob stPeer 0 false

/-- A loss counted. -/
def countLoss (ls : List Nat) (s : State) : State := wr fHalf1Losses 0 (min ls.length 3) { s with losses := ls, hold := none }

/-- A half that waits for help, and one that is reset to boot again. -/
def halfWaits (s : State) : State := { s with halfPh := .waiting }

def halfReboots (s : State) : State := { resetHalf1 s with halfPh := .rebooting }

theorem halfReboots_mem {s : State} : ∀ x ∈ (halfReboots s).mem, x.1 / 2 ^ 40 % 2 = 0 := fun x hx =>
  beq_iff_eq.mp (List.of_mem_filter (p := fun c : Host.Cell => c.1 / 2 ^ 40 % 2 == 0) (a := x) hx)

theorem loseHalf1_eq (s : State) : ∃ u : State, u.time = s.time ∧ u.losses = s.losses ∧ u.job = none
    ∧ (∀ p < 6, portHalf p = 1 → Dead u p)
    ∧ loseHalf1 s = (let ls := (s.losses.filter fun t => s.time < t + dayK) ++ [s.time]
      if 3 ≤ ls.length then retire 4 1 (halfWaits (countLoss ls u)) else halfReboots (countLoss ls u)) := by
  obtain ⟨htime, hlosses, hdead⟩ := killPorts_shows 1 (lossStops s)
  obtain ⟨htime', hlosses'⟩ := setting_lossStops s
  have hstand := standing_jobLost (killPorts 1 (lossStops s))
  have ht := (congrArg (fun x => x.2.2.1.1) hstand.kept).trans (htime.trans htime')
  have hl := (congrArg (fun x => x.2.2.1.2.1) hstand.kept).trans (hlosses.trans hlosses')
  refine ⟨jobLost (killPorts 1 (lossStops s)), ht, hl, job_endJob .., fun p hp hh => ?_, ?_⟩
  · exact (hstand.ports p hp).elim (fun e => (by rw [Dead, e]; exact hdead p hp hh)) .inl
  · rw [← hl, ← ht]
    rfl

/-- A package whose HALF_1 is lost at a time, with the losses of the last day before it. -/
structure Half1Gone (recent : List Nat) (now : Nat) (t : State) : Prop where
  job : t.job = none
  count : rd t fHalf1Losses 0 = min (recent.length + 1) 3
  ports : ∀ p < 6, portHalf p = 1 → Dead t p
  reboots : recent.length < 2 → t.halfPh = .rebooting ∧ t.losses = recent ++ [now] ∧ ∀ x ∈ t.mem, x.1 / 2 ^ 40 % 2 = 0
  retires : 2 ≤ recent.length → t.halfPh = .waiting ∧ rdb t fRetired 0 = true

theorem rd_countLoss (ls : List Nat) (s : State) : rd (countLoss ls s) fHalf1Losses 0 = min ls.length 3 :=
  (rd_wr_field ..).trans (Nat.mod_eq_of_lt (show min _ 3 < 4 by omega))

theorem dead_countLoss {ls : List Nat} {s : State} {p : Nat} (h : Dead s p) : Dead (countLoss ls s) p := by
  have hsame : portState (countLoss ls s) p = portState s p := by
    refine rd_wr_other _ _ ?_
    rw [show fState.reg.off p = _ from RegKind.off_tpStat p]
    change _ ≠ 0x1320
    omega
  rw [Dead, hsame]
  exact h

theorem half1Gone_loseHalf1 (s : State) : Half1Gone (s.losses.filter fun x => s.time < x + dayK) s.time (loseHalf1 s) := by
  obtain ⟨u, htime, hlosses, hjob, hdead, he⟩ := loseHalf1_eq s
  rw [he]
  generalize s.losses.filter (fun x => decide (s.time < x + dayK)) = recent
  have hlen : (recent ++ [s.time]).length = recent.length + 1 := List.length_append
  have hcount := rd_countLoss (recent ++ [s.time]) u
  dsimp only
  rw [hlen] at hcount ⊢
  split
  · next hmany =>
    have hret := retired_retire 4 1 (halfWaits (countLoss (recent ++ [s.time]) u))
    refine ⟨hret.job hjob, (hret.rd (by decide) (by decide)).trans hcount, fun p hp hh => ?_, fun hfew => ?_, fun _ => ⟨?_, hret.mark⟩⟩
    · exact (hret.ports p hp).elim (fun e => (by rw [Dead, e]; exact dead_countLoss (hdead p hp hh))) .inl
    · omega
    · exact congrArg (fun x => x.2.2.1) hret.setting
  · exact ⟨hjob, hcount, fun p hp hh => dead_countLoss (hdead p hp hh), fun _ => ⟨rfl, rfl, halfReboots_mem⟩, fun hmany => by omega⟩

/-! #### The loss of HALF_0 -/

theorem loseHalf0_shows (s : State) : (loseHalf0 s).halfPh = .waiting ∧ rdb (loseHalf0 s) fHlSticky 0 = true
    ∧ (loseHalf0 s).lands.faultN = some false := by
  obtain ⟨u, hu, he⟩ : ∃ u : State, u.halfPh = .waiting ∧ loseHalf0 s = wr fHlSticky 0 1 (assertFault u) :=
    ⟨_, (congrArg (fun x => x.2.2.1.2.2.1) (Standing.sendAborts (.refl _) ..).kept).trans rfl, rfl⟩
  rw [he]
  refine ⟨?_, congrArg (· == 1) (rd_wr_field ..), assertFault_faultN u⟩
  have hsame : (assertFault u).halfPh = u.halfPh := by rw [assertFault_frame]
  exact hsame.trans hu

/-! #### The firebreak lowered -/

/-- A state with the registers and the log of another. -/
def logged (s t : State) : State := { s with regs := t.regs, logMem := t.logMem, logFull := t.logFull, msix := t.msix }

/-- Only the registers and the log have changed. -/
def LogOnly (s t : State) : Prop := t = logged s t

theorem LogOnly.trans {s t u : State} (h : LogOnly s t) (h' : LogOnly t u) : LogOnly s u :=
  calc u
    _ = logged t u := h'
    _ = logged (logged s t) u := congrArg (fun x => logged x u) h
    _ = logged s u := rfl

theorem LogOnly.stepTrace {s t : State} (h : LogOnly s t) (n : Nat) : LogOnly s (stepTrace n t) := h.trans (logWrite_frame ..)

/-- The steps of the boot that HALF_1 repeats. -/
def stepsAgain (s : State) : State := [4, 5, 6, 7, 8].foldl (fun t n => stepTrace n t) s

theorem logOnly_stepsAgain (s : State) : LogOnly s (stepTrace 10 (stepsAgain s)) := by
  have h : LogOnly s s := rfl
  exact (((((h.stepTrace 4).stepTrace 5).stepTrace 6).stepTrace 7).stepTrace 8).stepTrace 10

theorem standing_stepsAgain (s : State) : Standing s (stepTrace 10 (stepsAgain s)) :=
  (Standing.foldl (fun _ _ h => h.logWrite ..) _ (.refl s)).logWrite ..

/-- The package whole again, with both ends of the ride at reset. -/
def wholeAgain (now : Nat) (s : State) : State :=
  { s with ride := [{ RideEnd.reset with goodSince := now }, { RideEnd.reset with goodSince := now }], halfPh := .whole }

/-- A state with what the lowered firebreak changes taken from another. -/
def lowered (s t : State) : State :=
  { s with regs := t.regs, logMem := t.logMem, logFull := t.logFull, lands := t.lands, ride := t.ride, halfPh := t.halfPh
           ibis := t.ibis, msix := t.msix }

theorem lowered_of_logOnly {f : State → State} {s t : State} (h : LogOnly s t) (hf : f (logged s t) = lowered s (f (logged s t))) :
    f t = lowered s (f t) := by
  have hback : logged s t = t := Eq.symm h
  rw [hback] at hf
  exact hf

theorem exec_firebreakLower {s : State} (hph : s.halfPh = .rebooting) (bad : List HwUnit) :
    exec (.firebreakLower bad) s = .next (if !bad.isEmpty then retire 8 0 (halfWaits (bump fKatFail 0 bad.length (stepsAgain s)))
      else
        let v := wr fFirebreak 0 0 (wholeAgain s.time (stepTrace 10 (stepsAgain s)))
        if rdb v fRetired 0 || rdb v fOpen 0 then v else setReady true v) :=
  congrArg Host.Outcome.next (if_neg fun h => h hph)

/-! #### Nonces and the clearing -/

/-- A state with the registers and the count of nonces of another. -/
def drawn (s t : State) : State := { s with regs := t.regs, nonces := t.nonces }

theorem clearing_drawNonce (s : State) : (drawNonce s).clearing = s.clearing := rfl

theorem drawNonce_frame (s : State) : drawNonce s = drawn s (drawNonce s) := rfl

theorem rd_drawNonce_other {f : Fld} {i : Nat} (h : f.reg.off i < 0x1500 ∨ 0x1520 ≤ f.reg.off i) (s : State) : rd (drawNonce s) f i = rd s f i := by
  refine (foldl_keep (v := fun t => rd t f i) (fun t k hk => rd_wr_other t _ fun e => ?_) { s with nonces := s.nonces + 1 }).trans (rd_congr rfl rfl f i)
  have hoff : fNonce.reg.off k = 0x1500 + 8 * k := rfl
  have := List.mem_range.mp hk
  omega

theorem rd_drawNonce {k : Nat} (hk : k < 4) (s : State) : rd (drawNonce s) fNonce k = bits (Config.nonce s.nonces).toNat (64 * k) 64 := by
  refine foldl_reach (Q := fun t => rd t fNonce k = bits (Config.nonce s.nonces).toNat (64 * k) 64) (List.mem_range.mpr hk)
    (fun t => (rd_wr_field ..).trans (Nat.mod_eq_of_lt (bits_lt ..))) (fun t j _ ht => ?_) { s with nonces := s.nonces + 1 }
  by_cases hj : k = j
  · subst hj
    exact (rd_wr_field ..).trans (Nat.mod_eq_of_lt (bits_lt ..))
  · refine (rd_wr_other t _ fun e => hj ?_).trans ht
    have hk : 0x1500 + 8 * k = 0x1500 + 8 * j := e
    omega

/-- The stores erased, of a package whose service has ended. -/
def erased (s : State) : State :=
  wr fClearing 0 0 (wr fLogHead 0 0 (wr fLogTail 0 0 { eraseStores { s with keyStore := false, clearing := none } with logFull := false }))

theorem exec_clearing {s : State} {scope : BitVec 2} (hclear : s.clearing = some scope) (hno : s.update = none) (ok : Bool) :
    exec (.clearing ok) s = .next (if ok then wr fOpen 0 1 (wr fScope 0 scope.toNat (clearDone (erased (clearService s)))) else retire 8 0 (erased (clearService s))) := by
  change execClearing ok s = _
  unfold execClearing
  rw [hclear]
  exact congrArg Host.Outcome.next (if_neg (by rw [hno]; decide))

theorem Standing.dropHandles {s t : State} (h : Standing s t) (p : Handle → Bool) : Standing s (dropHandles p t) :=
  .foldl (fun _ _ h => .ite (h.htPut ..) h) _ h

theorem job_dropHandles (p : Handle → Bool) (s : State) : (dropHandles p s).job = s.job := by
  refine foldl_keep (v := State.job) (fun t n _ => ?_) s
  dsimp only
  split
  · unfold htPut
    refine foldl_keep (v := State.job) (fun _ _ _ => ?_) t
    rfl
  · rfl

/-- The service ended: what stands, the job gone, every port DARK. -/
theorem clearService_shows (s : State) : Standing (setReady false s) (clearService s) ∧ (clearService s).job = none
    ∧ ∀ p < 6, portState (clearService s) p = 0 := by
  unfold clearService
  dsimp only
  have hend : Standing (setReady false s) (endJob stCancelled 0 false (setReady false s)) := .endJob (.refl _) ..
  have hdark := Standing.unbindTorus (hend.beside rfl rfl rfl (t := { endJob stCancelled 0 false (setReady false s) with iws := [] }))
  refine ⟨hdark.dropHandles _, ?_, fun p hp => ?_⟩
  · refine (job_dropHandles ..).trans ((unbindTorus_view (v := State.job) (fun _ _ => rfl) (fun _ _ => rfl) (fun _ _ _ _ => rfl) _).trans ?_)
    exact job_endJob ..
  · exact (((Standing.refl _).dropHandles _).ports p hp).elim (fun e => e.trans (portState_unbindTorus hp _)) id

/-- A package whose stores are erased. -/
structure Erased (s t : State) : Prop where
  mem : t.mem = []
  cores : t.cores = []
  ctxs : t.ctxs = []
  keys : t.keyStore = false ∧ t.clearing = none
  job : t.job = s.job
  lands : t.lands = s.lands
  fuses : t.fuses = s.fuses
  ports : ∀ p < 6, portState t p = portState s p
  opened : rdb t fOpen 0 = rdb s fOpen 0

theorem erased_erased (s : State) : Erased s (erased s) := by
  refine ⟨rfl, rfl, rfl, ⟨rfl, rfl⟩, rfl, rfl, rfl, fun p hp => ?_, ?_⟩
  · have hoff : 0x6108 ≤ fState.reg.off p := Nat.le_add_right 0x6108 _
    exact (rd_wr_other _ _ (Nat.ne_of_gt (Nat.lt_of_lt_of_le (by decide) hoff))).trans ((rd_wr_other _ _ (Nat.ne_of_gt (Nat.lt_of_lt_of_le (by decide) hoff))).trans
      ((rd_wr_other _ _ (Nat.ne_of_gt (Nat.lt_of_lt_of_le (by decide) hoff))).trans (rd_congr rfl rfl ..)))
  · exact (rdb_wr_beside ..).trans (congrArg (· == 1) ((rd_wr_other _ _ (by decide)).trans ((rd_wr_other _ _ (by decide)).trans (rd_congr rfl rfl ..))))

/-- Without a job and without contexts a retirement ends nothing. -/
theorem retire_bare {s : State} (hjob : s.job = none) (hctxs : s.ctxs = []) (detail : Nat) :
    (retire 8 detail s).mem = s.mem ∧ (retire 8 detail s).cores = s.cores ∧ (s.lands.ready = some false → (retire 8 detail s).lands.ready = some false) := by
  rcases hret : rdb s fRetired 0 with _ | _
  · refine ⟨?_, ?_, fun _ => (retire_shows hret 8 detail).2.2.1⟩
    all_goals
      obtain ⟨o, he⟩ := retire_eq hret 8 detail
      have hwork := work_retiring 8 s
      have hempty : (retiring 8 s).ctxs = [] := (congrArg (fun w => w.2.1) hwork).trans hctxs
      have hnone : retireCtxs 8 detail (retiring 8 s) = retiring 8 s := by
        have hlive : liveCtxs (retiring 8 s) = [] := by
          refine List.filter_eq_nil_iff.mpr fun c _ => ?_
          rw [ctxSt, hempty]
          exact Bool.false_ne_true
        unfold retireCtxs
        rw [hlive]
        rfl
      have hidle : (retiring 8 s).job = none := (congrArg Prod.fst hwork).trans hjob
      rw [he, hnone, peerLostOp_noJob hidle, endJob_noJob hidle]
    · exact congrArg (·.2.2.2) hwork
    · exact congrArg (·.2.2.1) hwork
  · rw [show retire 8 detail s = s from if_pos hret]
    exact ⟨rfl, rfl, id⟩

/-- A token accepted begins the clearing. -/
def clearingBegun (token : Bytes) (s : State) : State :=
  logWrite 0x0109 srcSec (toLe 1 0) (histWrite hkClearBegun 0xFFFF []
    (wr fClearing 0 1 { s with clearing := some (BitVec.ofNat 2 (fieldAt token 4 1)) }))

theorem clearingBegun_shows (token : Bytes) (s : State) : (clearingBegun token s).clearing = some (BitVec.ofNat 2 (fieldAt token 4 1))
    ∧ (clearingBegun token s).nonces = s.nonces ∧ rdb (clearingBegun token s) fClearing 0 = true := by
  have hstand : Standing (wr fClearing 0 1 { s with clearing := some (BitVec.ofNat 2 (fieldAt token 4 1)) }) (clearingBegun token s) :=
    .logWrite (.histWrite (.refl _) ..) ..
  refine ⟨congrArg (fun x => x.2.2.1.2.2.2.2.1) hstand.kept, ?_, (congrArg (· == 1) (hstand.rd (by decide))).trans (congrArg (· == 1) (rd_wr_field ..))⟩
  refine (congrArg State.nonces (logWrite_frame ..)).trans ?_
  exact histWrite_view (v := State.nonces) (fun _ _ _ _ => rfl) ..

/-- A token refused counts. -/
def tokenRefused (s : State) : State := bump fAttempts 0 1 (wr fTokenBad 0 1 s)

theorem tokenRefused_shows (s : State) : rdb (tokenRefused s) fTokenBad 0 = true
    ∧ rd (tokenRefused s) fAttempts 0 = min (rd s fAttempts 0 + 1) 65535 := by
  refine ⟨congrArg (· == 1) ((rd_bump_beside ..).trans (rd_wr_field ..)), (rd_bump_field ..).trans ?_⟩
  exact congrArg (fun n => min (n + 1) 65535) (rd_wr_beside s fTokenBad fAttempts 0 1)

theorem exec_openingToken {s : State} {token : Bytes} (hlen : token.length = 512) (hup : s.life = .up) (hrun : (proc s 0).restarting = false)
    (hidle : s.clearing = none) :
    exec (.openingToken token) s = .next (drawNonce (if tokenOk s token then clearingBegun token s else tokenRefused s)) := by
  refine (if_neg (not_not.mpr hlen)).trans (congrArg Host.Outcome.next (if_neg ?_))
  rw [hrun, hidle]
  simp [hup]

/-- The end of the clearing. -/
theorem opens_or_retires {s c : State} {ok : Bool} (scope : BitVec 2) (hstand : Standing (setReady false s) c) (hjob : c.job = none)
    (hports : ∀ p < 6, portState c p = 0) :
    let t := if ok then wr fOpen 0 1 (wr fScope 0 scope.toNat (clearDone (erased c))) else retire 8 0 (erased c)
    t.mem = [] ∧ t.cores = [] ∧ t.job = none ∧ t.keyStore = false ∧ t.clearing = none ∧ t.lands.ready = some false
      ∧ (∀ p < 6, portState t p = 0) ∧ t.fuses = s.fuses ∧ (ok = true → rdb t fOpen 0 = true ∧ rd t fScope 0 = scope.toNat)
      ∧ (ok = false → rdb t fRetired 0 = true ∧ rdb t fOpen 0 = rdb s fOpen 0) := by
  have hgone := erased_erased c
  have hready : (erased c).lands.ready = some false := by
    rw [hgone.lands, show c.lands = (setReady false s).lands from congrArg Prod.fst hstand.kept, setReady_ready]
  have hfuses : (erased c).fuses = s.fuses :=
    hgone.fuses.trans ((congrArg (fun x => x.2.1) hstand.kept).trans (show (setReady false s).fuses = s.fuses by rw [setReady_frame]))
  have hopen : rdb (erased c) fOpen 0 = rdb s fOpen 0 :=
    hgone.opened.trans (congrArg (· == 1) ((hstand.rd (by decide)).trans (by rw [setReady_frame]; exact rd_congr rfl rfl ..)))
  have hdark (p : Nat) (hp : p < 6) : portState (erased c) p = 0 := (hgone.ports p hp).trans (hports p hp)
  have hnojob := hgone.job.trans hjob
  generalize erased c = u at hgone hready hfuses hopen hdark hnojob ⊢
  rcases ok with _ | _
  · have hret := retired_retire 8 0 u
    obtain ⟨hmem, hcores, hlow⟩ := retire_bare hnojob hgone.ctxs 0
    refine ⟨hmem.trans hgone.mem, hcores.trans hgone.cores, hret.job hnojob, ?_, ?_, hlow hready,
      fun p hp => (hret.ports p hp).elim (fun e => e.trans (hdark p hp)) id, hret.fuses.trans hfuses, nofun, fun _ => ⟨hret.mark, ?_⟩⟩
    · exact (congrArg (fun x => x.2.2.2.1) hret.setting).trans hgone.keys.1
    · exact (congrArg (fun x => x.2.2.2.2.1) hret.setting).trans hgone.keys.2
    · exact (congrArg (· == 1) (hret.rd (by decide) (by decide))).trans hopen
  · have hdone : Standing u (clearDone u) := .logWrite (.histWrite (.refl u) ..) ..
    have hsame : work (clearDone u) = work u := (congrArg work (logWrite_frame ..)).trans (histWrite_view (v := work) (fun _ _ _ _ => rfl) ..)
    generalize clearDone u = d at hdone hsame ⊢
    refine ⟨(congrArg (fun w => w.2.2.2) hsame).trans hgone.mem, (congrArg (fun w => w.2.2.1) hsame).trans hgone.cores,
      (congrArg (fun w => w.1) hsame).trans hnojob, (congrArg (fun x => x.2.2.1.2.2.2.1) hdone.kept).trans hgone.keys.1,
      (congrArg (fun x => x.2.2.1.2.2.2.2.1) hdone.kept).trans hgone.keys.2, (congrArg (fun x => x.1.ready) hdone.kept).trans hready,
      fun p hp => ?_, (congrArg (fun x => x.2.1) hdone.kept).trans hfuses, fun _ => ⟨congrArg (· == 1) (rd_wr_field ..), ?_⟩, nofun⟩
    · have hoff : 0x6108 ≤ fState.reg.off p := Nat.le_add_right 0x6108 _
      refine (rd_wr_other _ _ (Nat.ne_of_gt (Nat.lt_of_lt_of_le (by decide) hoff))).trans
        ((rd_wr_other _ _ (Nat.ne_of_gt (Nat.lt_of_lt_of_le (by decide) hoff))).trans ?_)
      exact (hdone.ports p hp).elim (fun e => e.trans (hdark p hp)) id
    · exact (rd_wr_beside ..).trans ((rd_wr_field ..).trans (Nat.mod_eq_of_lt scope.isLt))


/-- Settles O54: the firebreak raised and lowered, a half lost, and the clearing. -/
theorem firebreakHalfLossAndClearing : Obligations.FirebreakHalfLossAndClearing := by
  refine ⟨fun s h hride => ?down, fun s h a => ?query, fun s bad => ?lower, fun s token => ?token, fun s ok => ?clear⟩
  case down =>
    refine ⟨fun hno => ?_, fun hup hdown hlate => ?_⟩
    · refine congrArg Host.Outcome.next (if_neg fun ⟨hup, hd, hl⟩ => ?_)
      rcases hno with h | h | h
      · exact h hup
      · exact Bool.noConfusion (h.symm.trans hd)
      · exact absurd hl (Nat.not_le.mpr h)
    · obtain ⟨u, he, hpend, hu⟩ := raiseFirebreak_eq h s
      refine ⟨_, (exec_rideDown h s).trans (congrArg Host.Outcome.next (if_pos ⟨hup, hdown, hlate⟩)), ?_⟩
      have hend : rideEnd u h = cutOff (rideEnd s h) := by
        rw [hu]
        exact rideEnd_modRide h cutOff hride
      rw [he, setReady_frame]
      refine ⟨?_, rfl, congrArg (· == 1) (rd_wr_field ..), congrArg RideEnd.down hend, congrArg RideEnd.wire hend, hpend, ?_, ?_⟩
      · exact (congrArg State.halfPh hu).trans rfl
      · exact (congrArg State.rideNext hu).trans rfl
      · rw [hu]
        rfl
  case query =>
    refine ⟨fun hno => congrArg Host.Outcome.next (if_pos hno), fun hph hdown => ⟨_, exec_halfQuery hph hdown a, fun ha => ?_, fun ha hh => ?_, fun ha hh => ?_⟩⟩
    · rw [if_pos ha]
      exact ⟨rfl, (retired_retire 2 0 s).mark⟩
    · rw [if_neg ha, if_pos hh]
      have hgone := half1Gone_loseHalf1 (logWrite 0x0108 (if h = 0 then srcSec else srcHw) (toLe 1 (1 - h.val)) s)
      rw [logWrite_frame] at hgone ⊢
      exact ⟨hgone.job, hgone.count, hgone.ports, hgone.reboots, hgone.retires⟩
    · rw [if_neg ha, if_neg (by rw [hh]; decide)]
      exact loseHalf0_shows _
  case lower =>
    refine ⟨fun hno => congrArg Host.Outcome.next (if_pos hno), fun hph => ⟨_, exec_firebreakLower hph bad, fun hbad => ?_, fun hbad => ?_⟩⟩
    · rw [if_pos (by simpa using hbad)]
      have hret := retired_retire 8 0 (halfWaits (bump fKatFail 0 bad.length (stepsAgain s)))
      exact ⟨congrArg (fun x => x.2.2.1) hret.setting, hret.mark⟩
    · rw [if_neg (by rw [hbad]; decide)]
      have hlog := logOnly_stepsAgain s
      have hstand := standing_stepsAgain s
      generalize stepTrace 10 (stepsAgain s) = w at hlog hstand
      obtain ⟨hret, hopen⟩ : rdb (wr fFirebreak 0 0 (wholeAgain s.time w)) fRetired 0 = rdb s fRetired 0
          ∧ rdb (wr fFirebreak 0 0 (wholeAgain s.time w)) fOpen 0 = rdb s fOpen 0 :=
        ⟨congrArg (· == 1) ((rd_wr_other _ _ (by decide)).trans ((rd_congr rfl rfl ..).trans (hstand.rd (by decide)))),
          congrArg (· == 1) ((rd_wr_other _ _ (by decide)).trans ((rd_congr rfl rfl ..).trans (hstand.rd (by decide))))⟩
      have hlow : rdb (wr fFirebreak 0 0 (wholeAgain s.time w)) fFirebreak 0 = false := congrArg (· == 1) (rd_wr_field ..)
      dsimp only
      split
      · next hdark =>
        refine ⟨rfl, hlow, fun hr ho => ?_, lowered_of_logOnly (f := fun x => wr fFirebreak 0 0 (wholeAgain s.time x)) hlog rfl⟩
        rw [hret, hopen, hr, ho] at hdark
        exact absurd hdark (by decide)
      · refine ⟨?_, ?_, fun _ _ => setReady_ready .., lowered_of_logOnly (f := fun x => setReady true (wr fFirebreak 0 0 (wholeAgain s.time x))) hlog ?_⟩
        all_goals rw [setReady_frame]
        · rfl
        · exact hlow
        · rfl
  case token =>
    refine ⟨fun hlen => if_pos hlen, fun hlen => ⟨fun hno => ?_, fun hup hrun hidle => ?_⟩⟩
    · refine (if_neg (not_not.mpr hlen)).trans (congrArg Host.Outcome.next (if_pos ?_))
      rcases hno with h | h | h
      · exact .inl h
      · exact .inr (.inl h)
      · exact .inr (.inr (Option.isSome_iff_ne_none.mpr h))
    · have hexec := exec_openingToken hlen hup hrun hidle
      have hnonces (u : State) (hu : u.nonces = s.nonces) : (drawNonce u).nonces = s.nonces + 1
          ∧ ∀ k < 4, rd (drawNonce u) fNonce k = bits (Config.nonce s.nonces).toNat (64 * k) 64 :=
        ⟨congrArg (· + 1) hu, fun k hk => (rd_drawNonce hk u).trans (by rw [hu])⟩
      rcases hok : tokenOk s token with _ | _
      · obtain ⟨hdrawn, hshown⟩ := hnonces (tokenRefused s) rfl
        obtain ⟨hbad, hcount⟩ := tokenRefused_shows s
        refine ⟨_, hexec.trans (congrArg (fun u => Host.Outcome.next (drawNonce u)) (if_neg (by rw [hok]; decide))), hdrawn, hshown,
          fun h => Bool.noConfusion h, fun _ => ⟨(drawNonce_frame (tokenRefused s)).trans (rfl : drawn (tokenRefused s) _ = drawn s _), ?_, ?_⟩⟩
        · exact (congrArg (· == 1) (rd_drawNonce_other (.inr (by decide)) _)).trans hbad
        · exact (rd_drawNonce_other (.inr (by decide)) _).trans hcount
      · obtain ⟨hclear, hsame, hbit⟩ := clearingBegun_shows token s
        obtain ⟨hdrawn, hshown⟩ := hnonces (clearingBegun token s) hsame
        exact ⟨_, hexec.trans (congrArg (fun u => Host.Outcome.next (drawNonce u)) (if_pos hok)), hdrawn, hshown,
          fun _ => ⟨(clearing_drawNonce _).trans hclear, (congrArg (· == 1) (rd_drawNonce_other (.inr (by decide)) _)).trans hbit⟩, fun h => Bool.noConfusion h⟩
  case clear =>
    refine ⟨fun hno => ?_, fun scope hclear hno => ⟨_, exec_clearing hclear hno ok, ?_⟩⟩
    · change execClearing ok s = _
      unfold execClearing
      rcases hclear : s.clearing with _ | scope
      · rfl
      · exact congrArg Host.Outcome.next (if_pos (Option.isSome_iff_ne_none.mpr (hno.resolve_left (by rw [hclear]; exact nofun))))
    · obtain ⟨hstand, hjob, hports⟩ := clearService_shows s
      exact opens_or_retires scope hstand hjob hports

end Sys2Proof.Machine
end

section
/-! #### Firmware: commits, restarts and updates (spec/16 R506 to R515, R526) -/

namespace Sys2Proof.Machine

theorem jobOwned_firmware {k : RegKind} (hk : k = .svnCtl ∨ k = .crCtl ∨ k = .updCtl) (s : State) : jobOwned s k 0 = false := by
  rcases hk with rfl | rfl | rfl <;> (unfold jobOwned; split <;> rfl)

/-- The state that a write of a firmware register leaves before its command runs. -/
theorem regsOnly_put (k : RegKind) (w : RegWr) (s : State) : RegsOnly s (regPut k 0 w s).1 := (RegsOnly.refl s).regPut k 0 w

theorem rd_put_other {k : RegKind} {w : RegWr} (hfull : w.part = .full) (hk : k = .svnCtl ∨ k = .crCtl ∨ k = .updCtl) (s : State) {f : Fld}
    {i : Nat} (hoff : f.reg.off i ≠ k.off 0) : rd (regPut k 0 w s).1 f i = rd s f i :=
  rd_regPut_other hfull (.inr (jobOwned_firmware hk s)) hoff

/-! #### SVN_COMMIT -/

/-- The keys that a manifest revokes, added to those revoked. -/
def revoked (m : Bytes) (k : Nat) : Nat :=
  (List.range 4).foldl (fun a i => if bit (manRevoke m) i && i != manKey m then Nat.lor a (2 ^ i) else a) k

theorem testBit_foldl_lor (c : Nat → Bool) (l : List Nat) (a i : Nat) :
    (l.foldl (fun a j => if c j then Nat.lor a (2 ^ j) else a) a).testBit i = (a.testBit i || (decide (i ∈ l) && c i)) := by
  induction l generalizing a with
  | nil => simp
  | cons j l ih =>
    rw [List.foldl_cons, ih]
    by_cases hj : j = i
    · subst hj
      cases c j <;> simp
    · have hi : ¬i = j := fun e => hj e.symm
      cases hc : c j <;> simp [hj, hi]

theorem testBit_revoked (m : Bytes) (k : BitVec 4) {i : Nat} (hi : i < 4) : (BitVec.ofNat 4 (revoked m k.toNat)).toNat.testBit i
    = (k.toNat.testBit i || (manRevoke m).testBit i && decide (i ≠ manKey m)) := by
  rw [BitVec.toNat_ofNat, Nat.testBit_mod_two_pow, decide_eq_true hi, Bool.true_and, revoked, testBit_foldl_lor]
  rw [decide_eq_true (List.mem_range.mpr hi), Bool.true_and, testBit_eq_bit (manRevoke m)]
  congr 2
  by_cases h : i = manKey m <;> simp [h]

/-- The fuses as SVN_COMMIT leaves them. -/
def committed (m : Bytes) (f : Fuses) : Fuses :=
  { f with svnMin := BitVec.ofNat 7 (max f.svnMin.toNat (min (manSvn m) 127)), keyRev := BitVec.ofNat 4 (revoked m f.keyRev.toNat) }

theorem svnMin_committed {m : Bytes} (hm : manSvn m ≤ 64) (f : Fuses) :
    (committed m f).svnMin.toNat = max f.svnMin.toNat (manSvn m) ∧ max f.svnMin.toNat (min (manSvn m) 127) = max f.svnMin.toNat (manSvn m) := by
  have hf := f.svnMin.isLt
  have hmin : min (manSvn m) 127 = manSvn m := Nat.min_eq_left (by omega)
  refine ⟨?_, by rw [hmin]⟩
  change (BitVec.ofNat 7 _).toNat = _
  rw [BitVec.toNat_ofNat, hmin]
  exact Nat.mod_eq_of_lt (Nat.max_lt.mpr ⟨hf, by omega⟩)

theorem svnCommitOp_waits {s : State} (h : (proc s 0).restarting = true) : svnCommitOp s = wr fSvnCommit 0 0 s := if_pos h

/-- Other fuses. -/
def fused (f : Fuses) (s : State) : State := { s with fuses := f }

theorem svnCommitOp_runs {s : State} (h : (proc s 0).restarting = false) {m : Bytes} (hm : manifest (flashImg s (rd s fBootStatSlot 0)) = m) :
    svnCommitOp s = wr fSvnMin 0 (max s.fuses.svnMin.toNat (min (manSvn m) 127)) (wr fKeyRev 0 (revoked m s.fuses.keyRev.toNat)
      (fused (committed m s.fuses) (wr fSvnCommit 0 0 s))) := by
  subst hm
  exact if_neg (Bool.eq_false_iff.mp h)

theorem exec_svnCommit {w : RegWr} {s : State} (hfull : w.part = .full) (hbit : w.val.toNat.testBit 7 = true)
    (hidle : rdb s fSvnCommit 0 = false) : exec (.svnCommit w) s = .next (svnCommitOp (regPut .svnCtl 0 w s).1) := by
  have hstart := started_regPut (s := s) (i := 0) hfull (.inr (jobOwned_firmware (.inl rfl) s)) (f := fSvnCommit) (by decide) rfl rfl hbit
  rw [hidle] at hstart
  exact congrArg Host.Outcome.next (if_pos hstart)

/-- A state with the registers and the fuses of another. -/
def reFused (s t : State) : State := { s with regs := t.regs, fuses := t.fuses }

theorem reFused_congr {s u : State} (h : RegsOnly s u) (t : State) : reFused u t = reFused s t := by
  obtain ⟨r, rfl⟩ := h
  rfl

theorem RegsOnly.keep {α : Type} {s t : State} (h : RegsOnly s t) (v : State → α) (hv : ∀ s r, v { s with regs := r } = v s) : v t = v s := by
  obtain ⟨r, rfl⟩ := h
  exact hv s r

/-- What a commit leaves. -/
theorem svnCommitOp_spec {s : State} {m : Bytes} (hm : manifest (flashImg s (rd s fBootStatSlot 0)) = m) :
    rdb (svnCommitOp s) fSvnCommit 0 = false
    ∧ svnCommitOp s = reFused s (svnCommitOp s)
    ∧ ((proc s 0).restarting = true → (svnCommitOp s).fuses = s.fuses)
    ∧ ((proc s 0).restarting = false → (svnCommitOp s).fuses = committed m s.fuses
      ∧ (manSvn m ≤ 64 → rd (svnCommitOp s) fSvnMin 0 = (svnCommitOp s).fuses.svnMin.toNat)) := by
  rcases hsec : (proc s 0).restarting with _ | _
  · rw [svnCommitOp_runs hsec hm]
    have hidle : rdb (fused (committed m s.fuses) (wr fSvnCommit 0 0 s)) fSvnCommit 0 = false :=
      congrArg (· == 1) ((rd_congr rfl rfl fSvnCommit 0).trans (rd_wr_field s fSvnCommit 0 0))
    refine ⟨(rdb_wr_beside ..).trans ((rdb_wr_beside ..).trans hidle), rfl, Bool.noConfusion, fun _ => ⟨rfl, fun hle => ?_⟩⟩
    obtain ⟨hmin, hmax⟩ := svnMin_committed hle s.fuses
    refine (rd_wr_field ..).trans (show _ = (committed m s.fuses).svnMin.toNat from ?_)
    rw [hmax, ← hmin]
    exact Nat.mod_eq_of_lt (committed m s.fuses).svnMin.isLt
  · rw [svnCommitOp_waits hsec]
    exact ⟨congrArg (· == 1) (rd_wr_field ..), rfl, fun _ => rfl, Bool.noConfusion⟩

theorem svnCommit_runs {s : State} {w : RegWr} (hfull : w.part = .full) (hbit : w.val.toNat.testBit 7 = true)
    (hidle : rdb s fSvnCommit 0 = false) : ∃ t : State,
    exec (.svnCommit w) s = .next t ∧ rdb t fSvnCommit 0 = false ∧ t = { s with regs := t.regs, fuses := t.fuses }
    ∧ ((proc s 0).restarting = true → t.fuses = s.fuses)
    ∧ ((proc s 0).restarting = false → let m := manifest (flashImg s (rd s fBootStatSlot 0))
      manSvn m ≤ 64 → t.fuses.svnMin.toNat = max s.fuses.svnMin.toNat (manSvn m) ∧ rd t fSvnMin 0 = t.fuses.svnMin.toNat
      ∧ (∀ i < 4, t.fuses.keyRev.toNat.testBit i =
        (s.fuses.keyRev.toNat.testBit i || (manRevoke m).testBit i && decide (i ≠ manKey m)))
      ∧ t.fuses = { s.fuses with svnMin := t.fuses.svnMin, keyRev := t.fuses.keyRev }) := by
  have hput := regsOnly_put .svnCtl w s
  have hslot : rd (regPut .svnCtl 0 w s).1 fBootStatSlot 0 = rd s fBootStatSlot 0 := rd_put_other hfull (.inl rfl) s (by decide)
  obtain ⟨hcleared, hframe, hwaits, hruns⟩ := svnCommitOp_spec (s := (regPut .svnCtl 0 w s).1)
    (congrArg₂ (fun f n => manifest (f n)) (hput.keep flashImg fun _ _ => rfl) hslot)
  have hproc : proc (regPut .svnCtl 0 w s).1 0 = proc s 0 := hput.keep (fun x => proc x 0) fun _ _ => rfl
  have hfuses : (regPut .svnCtl 0 w s).1.fuses = s.fuses := hput.keep State.fuses fun _ _ => rfl
  rw [hproc, hfuses] at hwaits hruns
  refine ⟨_, exec_svnCommit hfull hbit hidle, hcleared, hframe.trans (reFused_congr hput _), hwaits, fun hsec => ?_⟩
  intro m hm
  obtain ⟨hfuses, hshown⟩ := hruns hsec
  refine ⟨(congrArg (·.svnMin.toNat) hfuses).trans (svnMin_committed hm _).1, hshown hm, fun i hi => ?_, by rw [hfuses]; rfl⟩
  exact (congrArg (·.keyRev.toNat.testBit i) hfuses).trans (testBit_revoked _ _ hi)

/-! #### Restarts -/

theorem proc_modProc_other {p q : Nat} (h : q ≠ p) (f : Proc → Proc) (s : State) : proc (modProc p f s) q = proc s q := tget_tset_other _ _ _ _ _ h

theorem LogOnly.keep {α : Type} {s t : State} (h : LogOnly s t) (v : State → α) (hv : ∀ s t, v (logged s t) = v s) : v t = v s :=
  (congrArg v (show t = logged s t from h)).trans (hv s t)

theorem LogOnly.proc {s t : State} (h : LogOnly s t) (p : Nat) : proc t p = proc s p := h.keep (fun x => Machine.proc x p) fun _ _ => rfl

theorem LogOnly.procs {s t : State} (h : LogOnly s t) : t.procs = s.procs := h.keep State.procs fun _ _ => rfl

theorem LogOnly.update {s t : State} (h : LogOnly s t) : t.update = s.update := h.keep State.update fun _ _ => rfl

/-- A processor made to restart. -/
def stopped (p : Nat) (s : State) : State := modProc p (fun x => { x with restarting := true }) s

theorem logOnly_restartProc (p cause : Nat) (s : State) : LogOnly (stopped p s) (restartProc p cause s) := logWrite_frame ..

theorem rd_crCtl_restartProc (p cause : Nat) (s : State) : rd (restartProc p cause s) fCrCtlCount 0 = min (rd s fCrCtlCount 0 + 1) 65535
    ∧ rdb (restartProc p cause s) fReq 0 = rdb s fReq 0 := by
  have hlog : RegKind.crCtl.off 0 ≠ RegKind.logPtr.off 0 := by decide
  exact ⟨(rd_logWrite _ _ _ _ hlog).trans (rd_bump_field ..), congrArg (· == 1) ((rd_logWrite _ _ _ _ hlog).trans (rd_bump_beside _ _ fReq _ _))⟩

/-- No update runs. -/
def updateOver (s : State) : State := { s with update := none }

theorem logOnly_endUpdate (step result : Nat) (s : State) : LogOnly (updateOver s) (endUpdate step result s) := logWrite_frame ..

theorem rd_endUpdate (step result : Nat) (s : State) : rd (endUpdate step result s) fResult 0 = result % 4
    ∧ rdb (endUpdate step result s) fBusy 0 = false ∧ rdb (endUpdate step result s) fStart 0 = rdb s fStart 0
    ∧ rd (endUpdate step result s) fBootStatSlot 0 = rd s fBootStatSlot 0 := by
  have hlog : RegKind.updCtl.off 0 ≠ RegKind.logPtr.off 0 := by decide
  have hboot : RegKind.bootStat.off 0 ≠ RegKind.updCtl.off 0 := by decide
  refine ⟨(rd_logWrite _ _ _ _ hlog).trans ((rd_wr_beside ..).trans (rd_wr_field ..)), congrArg (· == 1) ((rd_logWrite _ _ _ _ hlog).trans (rd_wr_field ..)),
    congrArg (· == 1) ((rd_logWrite _ _ _ _ hlog).trans ((rd_wr_beside _ _ fStart _ _).trans (rd_wr_beside _ _ fStart _ _))), ?_⟩
  exact (rd_logWrite _ _ _ _ (by decide)).trans ((rd_wr_other _ _ hboot).trans (rd_wr_other _ _ hboot))

theorem exec_watchdogExpiry (p : Fin 36) (s : State) : exec (.watchdogExpiry p) s = .next (if (proc s p).restarting then s
    else if switching s p then endUpdate 4 3 (restartProc p 0 s) else restartProc p 0 s) := rfl

theorem watchdogExpiry_restarts {s : State} {p : Fin 36} (hruns : (proc s p).restarting = false) : ∃ t : State,
    exec (.watchdogExpiry p) s = .next t
      ∧ (proc t p).restarting = true ∧ rd t fCrCtlCount 0 = min (rd s fCrCtlCount 0 + 1) 65535
      ∧ (∀ q : Fin 36, q ≠ p → proc t q = proc s q)
      ∧ (switching s p = false → t.update = s.update)
      ∧ (switching s p = true → t.update = none ∧ rd t fResult 0 = 3 ∧ rdb t fBusy 0 = false)
      ∧ t = { s with regs := t.regs, procs := t.procs, update := t.update, logMem := t.logMem, logFull := t.logFull
                     msix := t.msix } := by
  have hex := (exec_watchdogExpiry p s).trans (congrArg Host.Outcome.next (if_neg (Bool.eq_false_iff.mp hruns)))
  have hr := logOnly_restartProc p 0 s
  have hcount := (rd_crCtl_restartProc p 0 s).1
  have hself : (proc (stopped p s) p).restarting = true := congrArg Proc.restarting (proc_modProc_same ..)
  have hother (q : Fin 36) (hq : q ≠ p) : proc (stopped p s) q = proc s q := proc_modProc_other (fun e => hq (Fin.ext e)) ..
  generalize restartProc p 0 s = r at hex hr hcount
  rcases hsw : switching s p with _ | _
  · refine ⟨r, hex.trans (congrArg Host.Outcome.next (if_neg (Bool.eq_false_iff.mp hsw))), (hr.proc p) ▸ hself, hcount,
      fun q hq => (hr.proc q).trans (hother q hq), fun _ => hr.update, fun e => Bool.noConfusion e, ?_⟩
    rw [hr.procs, hr.update]
    exact hr
  · obtain ⟨hres, hbusy, -, -⟩ := rd_endUpdate 4 3 r
    have he := logOnly_endUpdate 4 3 r
    have hkept : rd (endUpdate 4 3 r) fCrCtlCount 0 = rd r fCrCtlCount 0 :=
      (rd_logWrite _ _ _ _ (by decide)).trans ((rd_wr_other (f := fBusy) _ _ (by decide)).trans (rd_wr_other (f := fResult) _ _ (by decide)))
    generalize endUpdate 4 3 r = t at hres hbusy he hkept hex
    have hproc (q : Nat) : proc t q = proc (stopped p s) q := (he.proc q).trans (hr.proc q)
    refine ⟨t, hex.trans (congrArg Host.Outcome.next (if_pos hsw)), (hproc p) ▸ hself, hkept.trans hcount,
      fun q hq => (hproc q).trans (hother q hq), fun e => Bool.noConfusion e, fun _ => ⟨he.update, hres, hbusy⟩, ?_⟩
    calc t
      _ = logged (updateOver r) t := he
      _ = logged (updateOver (logged (stopped p s) r)) t := congrArg (fun x => logged (updateOver x) t) hr
      _ = _ := by rw [he.update, he.procs.trans hr.procs]; rfl

/-! #### A restart by request -/

theorem exec_coppiceRestartRequest {w : RegWr} {s : State} (hfull : w.part = .full) (hbit : w.val.toNat.testBit 6 = true)
    (hidle : rdb s fReq 0 = false) : exec (.coppiceRestartRequest w) s = .next (crReq (regPut .crCtl 0 w s).1) := by
  have hstart := started_regPut (s := s) (i := 0) hfull (.inr (jobOwned_firmware (.inr (.inl rfl)) s)) (f := fReq) (by decide) rfl rfl hbit
  rw [hidle] at hstart
  exact congrArg Host.Outcome.next (if_pos hstart)

/-- The request that stands for a processor. -/
theorem crReq_eq {s : State} {p : Nat} (hp : rd s fProc 0 = p) : crReq s =
    if 36 ≤ p ∨ ((p = 0 ∨ p = 3) ∧ s.job.isSome) then wr fRefused 0 1 (wr fReq 0 0 s)
    else if (proc s p).restarting then wr fReq 0 0 s else restartProc p 1 (wr fReq 0 0 s) := by
  subst hp
  rfl

/-- A state with the registers, the processors and the log of another. -/
def reProcs (s t : State) : State := { s with regs := t.regs, procs := t.procs, logMem := t.logMem, logFull := t.logFull, msix := t.msix }

theorem reProcs_congr {s u : State} (h : RegsOnly s u) (t : State) : reProcs u t = reProcs s t := by
  obtain ⟨r, rfl⟩ := h
  rfl

theorem reProcs_of_logOnly {p : Nat} {s t : State} (h : LogOnly (stopped p s) t) : t = reProcs s t := by
  refine (show t = logged (stopped p s) t from h).trans ?_
  rw [reProcs, h.procs]
  rfl

/-- What a request that is not refused leaves. -/
theorem crReq_restarts {s : State} {p : Nat} (hp : rd s fProc 0 = p) (hlt : p < 36) (hjob : p = 0 ∨ p = 3 → s.job = none) :
    rdb (crReq s) fReq 0 = false ∧ (proc (crReq s) p).restarting = true
      ∧ crReq s = reProcs s (crReq s) := by
  have hidle : rdb (wr fReq 0 0 s) fReq 0 = false := congrArg (· == 1) (rd_wr_field ..)
  rw [crReq_eq hp, if_neg fun h => h.elim (Nat.not_le.mpr hlt) fun h => by rw [hjob h.1] at h; exact Bool.noConfusion h.2]
  rcases hrun : (proc s p).restarting with _ | _
  · have hr := logOnly_restartProc p 1 (wr fReq 0 0 s)
    have hreq := (rd_crCtl_restartProc p 1 (wr fReq 0 0 s)).2
    rw [if_neg Bool.false_ne_true]
    exact ⟨hreq.trans hidle, (congrArg Proc.restarting (hr.proc p)).trans (congrArg Proc.restarting (proc_modProc_same ..)), reProcs_of_logOnly hr⟩
  · rw [if_pos rfl]
    exact ⟨hidle, hrun, rfl⟩

theorem coppiceRestartRequest_runs {s : State} {w : RegWr} (hfull : w.part = .full) (hbit : w.val.toNat.testBit 6 = true)
    (hidle : rdb s fReq 0 = false) : let p := bits w.val.toNat 0 6
    ∃ t : State, exec (.coppiceRestartRequest w) s = .next t ∧ rdb t fReq 0 = false
      ∧ (36 ≤ p ∨ (p = 0 ∨ p = 3) ∧ s.job ≠ none → rdb t fRefused 0 = true ∧ t = { s with regs := t.regs })
      ∧ (p < 36 → (p = 0 ∨ p = 3 → s.job = none) → (proc t p).restarting = true
        ∧ t = { s with regs := t.regs, procs := t.procs, logMem := t.logMem, logFull := t.logFull, msix := t.msix }) := by
  intro p
  have hput := regsOnly_put .crCtl w s
  have hp : rd (regPut .crCtl 0 w s).1 fProc 0 = p :=
    rd_regPut_full (s := s) (i := 0) hfull (.inr (jobOwned_firmware (.inr (.inl rfl)) s)) (f := fProc) (by decide)
  have hjob : (regPut .crCtl 0 w s).1.job = s.job := hput.keep State.job fun _ _ => rfl
  have hex := exec_coppiceRestartRequest hfull hbit hidle
  by_cases href : 36 ≤ p ∨ (p = 0 ∨ p = 3) ∧ s.job ≠ none
  · have hcond : 36 ≤ p ∨ (p = 0 ∨ p = 3) ∧ (regPut .crCtl 0 w s).1.job.isSome :=
      href.imp_right fun h => ⟨h.1, hjob ▸ Option.isSome_iff_ne_none.mpr h.2⟩
    refine ⟨_, hex.trans (congrArg Host.Outcome.next ((crReq_eq hp).trans (if_pos hcond))), (rdb_wr_beside ..).trans (congrArg (· == 1) (rd_wr_field ..)),
      fun _ => ⟨congrArg (· == 1) (rd_wr_field ..), ((hput.wr ..).wr ..).frame⟩, fun hlt hno => ?_⟩
    exact (href.elim (fun h => absurd hlt (Nat.not_lt.mpr h)) fun h => h.2 (hno h.1)).elim
  · have hno : p = 0 ∨ p = 3 → s.job = none := fun h => Classical.byContradiction fun hj => href (.inr ⟨h, hj⟩)
    obtain ⟨hreq, hproc, hframe⟩ := crReq_restarts hp (Nat.lt_of_not_le fun h => href (.inl h)) fun h => hjob.trans (hno h)
    exact ⟨_, hex, hreq, fun h => absurd h href, fun _ _ => ⟨hproc, hframe.trans (reProcs_congr hput _)⟩⟩

/-! #### The end of a restart -/

/-- A processor that runs again. -/
def freed (p : Nat) (s : State) : State := modProc p (fun x => { x with restarting := false }) s

theorem exec_coppiceRestartDone {s : State} {p : Fin 36} (hrest : (proc s p).restarting = true) (hok : p = 0 → secOk s = true) :
    exec (.coppiceRestartDone p) s = .next (if p.val = 0 then histFlush (freed p s) else if p.val = 3 then schBack (freed p s)
      else if 4 ≤ p.val then gstBack (p.val - 4) (freed p s) else freed p s) := by
  refine congrArg Host.Outcome.next (if_neg ?_)
  rw [hrest]
  rintro h
  obtain ⟨hp, hbad⟩ := Bool.and_eq_true_iff.mp (show (p.val == 0 && !secOk s) = true from h)
  rw [hok (Fin.ext (eq_of_beq hp))] at hbad
  exact Bool.noConfusion hbad

/-- All but the flash, the place of the next record and the records that wait. -/
def flashless (s : State) : State := { s with flash := [], histPos := 0, histWait := [] }

/-- A state with the flash and the records of another. -/
def withFlash (t s : State) : State := { s with flash := t.flash, histPos := t.histPos, histWait := t.histWait }

theorem eq_withFlash {s t : State} (h : flashless t = flashless s) : t = withFlash t s :=
  calc t
    _ = withFlash t (flashless t) := rfl
    _ = withFlash t (flashless s) := congrArg (withFlash t) h
    _ = withFlash t s := rfl

/-- A running SEC lets no record wait. -/
theorem histWait_histWrite {s : State} (hrun : (proc s 0).restarting = false) (kind unit : Nat) (data : Bytes) :
    (histWrite kind unit data s).histWait = s.histWait := by
  have put (k u : Nat) (b : Bytes) (t : State) : (histPut k u b t).histWait = t.histWait := rfl
  refine (congrArg State.histWait (if_neg (Bool.eq_false_iff.mp hrun))).trans (show State.histWait (ite _ _ _) = _ from ?_)
  split
  · dsimp only
    exact (foldl_keep (v := State.histWait) (l := histSummary s) (fun t r _ => put r.1 r.2.1 r.2.2 t) _).trans rfl
  · rfl

theorem histFlush_spec {s : State} (hrun : (proc s 0).restarting = false) : (histFlush s).histWait = [] ∧ histFlush s = withFlash (histFlush s) s := by
  have hall : flashless (histFlush s) = flashless s ∧ (histFlush s).histWait = [] := by
    refine List.foldlRecOn (motive := fun t => flashless t = flashless s ∧ t.histWait = []) _ _ ⟨rfl, rfl⟩ fun t ht _ _ => ?_
    have hproc : (proc t 0).restarting = false := (congrArg (fun x => (proc x 0).restarting) ht.1).trans hrun
    exact ⟨(histWrite_view (v := flashless) (fun _ _ _ _ => rfl) ..).trans ht.1, (histWait_histWrite hproc ..).trans ht.2⟩
  exact ⟨hall.2, eq_withFlash hall.1⟩

theorem histFlush_none {s : State} (h : s.histWait = []) : histFlush s = s := by
  rw [histFlush, h, List.foldl_nil, ← h]

/-! What runs again leaves the processors (R507, R511). -/

section
variable {s₀ s : State}

theorem Standing.modTrain (h : Standing s₀ s) (f : Train → Train) : Standing s₀ (modTrain f s) := by
  unfold Machine.modTrain
  split
  · exact h.beside rfl rfl rfl
  · exact h

theorem Standing.mjSubmit (h : Standing s₀ s) (d : Nat) (x : CtxId) (b : Bytes) : Standing s₀ (mjSubmit d x b s) := by
  refine .wr (.stkPatch ?_ ..) fMjTail d _ (.inl (Nat.le_trans (by decide) (Nat.le_add_right 0x10000 _)))
  rw [unitAsk, stkAsk_frame]
  exact h.beside rfl rfl rfl

theorem Standing.jobAgain (h : Standing s₀ s) (j : TJob) (second : Bool) : Standing s₀ (jobAgain j second s) := by
  unfold Machine.jobAgain
  split
  · exact h
  · exact (h.mjSubmit ..).modTrain _

theorem Standing.shardFails (h : Standing s₀ s) : Standing s₀ (shardFails s) := by
  unfold Machine.shardFails
  split
  · exact h
  · exact .ite (h.endJob ..) (.ite h (h.modTrain _))

theorem Standing.trainCpl (h : Standing s₀ s) (d : Nat) (b : Bytes) : Standing s₀ (trainCpl d b s) := by
  have htaken : Standing s₀ (if schUp s then Machine.wr fMcTail d (Machine.rd s fMcHead d) s else s) :=
    .ite (h.wr fMcTail d _ (.inl (Nat.le_trans (by decide) (Nat.le_add_right 0x10008 _)))) h
  unfold Machine.trainCpl
  dsimp only
  generalize (if schUp s then Machine.wr fMcTail d (Machine.rd s fMcHead d) s else s) = u at htaken ⊢
  split
  · exact htaken
  · split
    · exact htaken
    · split
      · exact htaken.modTrain _
      · exact htaken.modTrain _
      · exact .ite (.jobAgain (htaken.modTrain _) ..) (.ite (htaken.modTrain _).shardFails (htaken.modTrain _).shardFails)

theorem Standing.schBack (h : Standing s₀ s) : Standing s₀ (schBack s) :=
  .modServe (.foldl (fun _ _ h => .foldl (fun _ _ h => h.trainCpl ..) _ h) _ h) _

theorem Standing.resumeCore (h : Standing s₀ s) (p : Saved → Bool) (c : Nat) : Standing s₀ (resumeCore p c s) := by
  refine .foldl (fun t r h => ?_) _ h
  split
  · exact .ite (Standing.beside (h.wr fInvqOverrun _ _ (.inl (Nat.le_trans (by decide) (Nat.le_add_right 0xC000 _)))) rfl rfl rfl) (h.beside rfl rfl rfl)
  · exact h

theorem Standing.resumeGrove (h : Standing s₀ s) (g : Nat) : Standing s₀ (resumeGrove g s) := by
  unfold Machine.resumeGrove
  split
  · exact h
  · exact .ite (.foldl (fun _ _ h => h.resumeCore ..) _ h) h

theorem Standing.endQuery (h : Standing s₀ s) (q : Query) (status runner : Nat) : Standing s₀ (endQuery q status runner s) := by
  refine .queryCpl ?_ ..
  unfold Machine.dropQuery
  split
  · exact h
  · exact .foldl (fun _ _ h => (h.modServe _).resumeGrove _) _ h

theorem Standing.gstBack (h : Standing s₀ s) (g : Nat) : Standing s₀ (gstBack g s) := by
  unfold Machine.gstBack
  split
  · exact h
  · exact .modServe (.foldl (fun _ _ h => h.dropInv ..) _ (.foldl (fun _ _ h => (h.dropInv ..).endQuery ..) _ h)) _

end

theorem Standing.proc {s t : State} (h : Standing s t) (p : Nat) : proc t p = proc s p :=
  congrArg (tget · p Proc.reset) (congrArg (fun x => x.2.2.1.2.2.2.2.2) h.kept)

theorem modServe_none {s : State} (h : s.serve = none) (f : Serve → Serve) : modServe f s = s := by rw [modServe, h]

theorem modServe_some {s : State} {v : Serve} (h : s.serve = some v) (f : Serve → Serve) : modServe f s = { s with serve := some (f v) } := by
  rw [modServe, h]

/-- A grove's guarded copies count as failed once its GST runs again. -/
theorem gstBack_failed {s : State} {g : Nat} {v : Serve} (hv : (gstBack g s).serve = some v) :
    ∀ q ∈ queriesOf v g, q.role ≠ 0 → q.stage = .failed := by
  have modq (f : Query → Query) (u : State) (hu : (modQueries g (·.map f) u).serve = some v) : ∃ l : List Query, queriesOf v g = l.map f := by
    rcases hs : u.serve with _ | v'
    · rw [modQueries, modServe_none hs] at hu
      exact nomatch hs.symm.trans hu
    · rw [modQueries, modServe_some hs] at hu
      obtain rfl := Option.some.inj hu
      exact ⟨_, tget_tset_same ..⟩
  rcases hs : s.serve with _ | v'
  · rw [gstBack, hs] at hv
    exact nomatch hs.symm.trans hv
  · rw [gstBack, hs] at hv
    obtain ⟨l, hl⟩ := modq _ _ hv
    rw [hl]
    intro q hq hrole
    obtain ⟨q', -, rfl⟩ := List.mem_map.mp hq
    by_cases h0 : q'.role = 0
    · rw [if_pos h0] at hrole
      exact absurd h0 hrole
    · rw [if_neg h0]

/-- SCH that runs again with no completion waiting. -/
theorem schBack_idle {s : State} (hnone : ∀ d < 16, mcWaiting s d = []) : schBack s = modServe (fun v => { v with
    pubLeft := v.pubLeft.filter fun p => !((core s (physOf s p.1)).ended.any fun e => e.invSeq == p.2 && e.ctx == pubCtx s) }) s := by
  have hfold : (List.range 16).foldl (fun t d => (mcWaiting s d).foldl (fun u b => trainCpl d b u) t) s = s :=
    foldl_keep (v := id) (fun t d hd => by rw [hnone d (List.mem_range.mp hd)]; rfl) s
  rw [schBack, hfold]

/-- What the end of a processor's restart leaves. -/
def RanAgain (s : State) (n : Nat) (t : State) : Prop :=
  (proc t n).restarting = false
    ∧ (n ∈ [1, 2] ∨ n = 0 ∧ s.histWait = [] ∨ 4 ≤ n ∧ s.serve = none → t = { s with procs := t.procs })
    ∧ (n = 0 → t.histWait = [] ∧ t = { s with procs := t.procs, flash := t.flash, histPos := t.histPos, histWait := [] })
    ∧ (n = 3 → (∀ d < 16, mcWaiting s d = []) → t = { s with procs := t.procs, serve := t.serve }
      ∧ t.serve = s.serve.map fun v => { v with pubLeft := v.pubLeft.filter fun q =>
        !((core s (physOf s q.1)).ended.any fun e => e.invSeq == q.2 && e.ctx == pubCtx s) })
    ∧ ∀ v : Serve, t.serve = some v → 4 ≤ n → ∀ q ∈ queriesOf v (n - 4), q.role ≠ 0 → q.stage = .failed

theorem restarting_freed (n : Nat) (s : State) : (proc (freed n s) n).restarting = false := congrArg Proc.restarting (proc_modProc_same ..)

theorem ranAgain_sec (s : State) : RanAgain s 0 (histFlush (freed 0 s)) := by
  obtain ⟨hwait, hframe⟩ := histFlush_spec (restarting_freed 0 s)
  have hprocs : (histFlush (freed 0 s)).procs = (freed 0 s).procs := (congrArg State.procs hframe).trans rfl
  refine ⟨(congrArg (fun l => (tget l 0 Proc.reset).restarting) hprocs).trans (restarting_freed 0 s), fun h => ?_, fun _ => ⟨hwait, ?_⟩,
    fun h => absurd h (by decide), fun _ _ h => absurd h (by decide)⟩
  · rcases h with h | h | h
    · exact absurd h (by decide)
    · rw [histFlush_none (s := freed 0 s) h.2]
      rfl
    · exact absurd h.1 (by decide)
  · refine hframe.trans ?_
    rw [hprocs, withFlash, hwait]
    rfl

theorem ranAgain_sch (s : State) : RanAgain s 3 (schBack (freed 3 s)) := by
  refine ⟨(congrArg Proc.restarting ((Standing.refl (freed 3 s)).schBack.proc 3)).trans (restarting_freed 3 s), fun h => ?_,
    fun h => absurd h (by decide), fun _ hnone => ?_, fun _ _ h => absurd h (by decide)⟩
  · rcases h with h | h | h
    · exact absurd h (by decide)
    · exact absurd h.1 (by decide)
    · exact absurd h.1 (by decide)
  · rw [schBack_idle (s := freed 3 s) hnone]
    rcases hs : s.serve with _ | v
    · rw [modServe_none (s := freed 3 s) hs]
      exact ⟨rfl, hs⟩
    · rw [modServe_some (s := freed 3 s) hs]
      exact ⟨rfl, rfl⟩

theorem ranAgain_gst {n : Nat} (hn : 4 ≤ n) (s : State) : RanAgain s n (gstBack (n - 4) (freed n s)) := by
  have hn0 : n ≠ 0 := by omega
  refine ⟨(congrArg Proc.restarting (((Standing.refl (freed n s)).gstBack (n - 4)).proc n)).trans (restarting_freed n s), fun h => ?_,
    fun h => absurd h hn0, fun h => absurd (h ▸ hn) (by decide), fun v hv _ => gstBack_failed hv⟩
  rcases h with h | h | h
  · obtain rfl | rfl := List.mem_pair.mp h
    · exact absurd hn (by decide)
    · exact absurd hn (by decide)
  · exact absurd h.1 hn0
  · rw [gstBack, show (freed n s).serve = none from h.2]
    rfl

theorem ranAgain_pwr {n : Nat} (h0 : n ≠ 0) (h3 : n ≠ 3) (h4 : ¬4 ≤ n) (s : State) : RanAgain s n (freed n s) :=
  ⟨restarting_freed n s, fun _ => rfl, fun h => absurd h h0, fun h => absurd h h3, fun _ _ h => absurd h h4⟩

theorem ranAgain (n : Nat) (s : State) : RanAgain s n (if n = 0 then histFlush (freed n s) else if n = 3 then schBack (freed n s)
    else if 4 ≤ n then gstBack (n - 4) (freed n s) else freed n s) := by
  by_cases h0 : n = 0
  · subst h0
    exact ranAgain_sec s
  · by_cases h3 : n = 3
    · subst h3
      exact ranAgain_sch s
    · rw [if_neg h0, if_neg h3]
      by_cases h4 : 4 ≤ n
      · rw [if_pos h4]
        exact ranAgain_gst h4 s
      · rw [if_neg h4]
        exact ranAgain_pwr h0 h3 h4 s

/-! #### An update staged -/

theorem exec_updateStart {w : RegWr} {s : State} (hfull : w.part = .full) (hbit : w.val.toNat.testBit 12 = true)
    (hidle : rdb s fStart 0 = false) (image : Submem) :
    exec (.updateStart w image) s = .next (updStartOp image (regPut .updCtl 0 w s).1) := by
  have hstart := started_regPut (s := s) (i := 0) hfull (.inr (jobOwned_firmware (.inr (.inr rfl)) s)) (f := fStart) (by decide) rfl rfl hbit
  rw [hidle] at hstart
  exact congrArg Host.Outcome.next (if_pos hstart)

/-- A new image written and its components pending. -/
def written (slot : Nat) (r : Reader) (s : State) : State := (List.range 7).foldl (fun t c => wr fPend c 1 t) (writeSlot slot r s)

/-- An update staged. -/
def staged (u : Update) (s : State) : State :=
  { s with update := some u, procs := s.procs.map fun e => (e.1, { e.2 with switched := false }) }

theorem updStartOp_eq (image : Submem) (s : State) : let r := updImg s image
    updStartOp image s = if rdb s fBusy 0 then wr fStart 0 0 s else if (proc s 0).restarting then wr fResult 0 2 (wr fStart 0 0 s)
      else if !(updReadable s (manifest r) && imgValid s r) then endUpdate 2 2 (wr fStart 0 0 s)
      else logWrite 0x010A srcSec (toLe 1 3 ++ toLe 1 0) (wr fBusy 0 1 (wr fResult 0 0
        (staged ⟨3 - rd s fBootStatSlot 0, manHvMin (manifest r), manHvNew (manifest r), switchOrder⟩
          (written (3 - rd s fBootStatSlot 0) r (wr fStart 0 0 s))))) := rfl

theorem writeSlot_view {α : Type} {v : State → α} (hv : ∀ s f, v { s with flash := f } = v s) (slot : Nat) (r : Reader) (s : State) :
    v (writeSlot slot r s) = v s := by
  have put (a : Nat) (b : Bytes) (t : State) : v (flashWrite a b t) = v t := hv t _
  unfold writeSlot
  dsimp only
  exact (foldl_keep (v := v) (fun t e _ => put ..) _).trans ((put ..).trans (hv s _))

theorem written_spec (slot : Nat) (r : Reader) (s : State) : (written slot r s).fuses = s.fuses
    ∧ rdb (written slot r s) fStart 0 = rdb s fStart 0 ∧ ∀ c < 7, rdb (written slot r s) fPend c = true := by
  refine ⟨?_, ?_, fun c hc => ?_⟩
  · refine Eq.trans (foldl_keep (v := State.fuses) ?_ _) (writeSlot_view (v := State.fuses) (fun _ _ => rfl) ..)
    exact fun _ _ _ => rfl
  · refine (foldl_keep (v := fun t => rdb t fStart 0) (fun t c hc => congrArg (· == 1) (rd_wr_other t _ ?_)) _).trans
      (writeSlot_view (v := fun t => rdb t fStart 0) (fun _ _ => rfl) ..)
    change 0x1308 ≠ 0x1008 + 8 * c
    have := List.mem_range.mp hc
    omega
  · refine foldl_reach (f := fun t c => wr fPend c 1 t) (Q := fun t => rdb t fPend c = true) (List.mem_range.mpr hc) (fun t => congrArg (· == 1) (rd_wr_field ..))
      (fun t j _ ht => ?_) _
    by_cases hj : c = j
    · subst hj
      exact congrArg (· == 1) (rd_wr_field ..)
    · refine (congrArg (· == 1) (rd_wr_other t _ ?_)).trans ht
      change 0x1008 + 8 * c ≠ 0x1008 + 8 * j
      omega

/-- What the last steps of staging show. -/
theorem staged_shows (u : Update) (v : State) (b : Bytes) : let t := logWrite 0x010A srcSec b (wr fBusy 0 1 (wr fResult 0 0 (staged u v)))
    rd t fResult 0 = 0 ∧ rdb t fBusy 0 = true ∧ rdb t fStart 0 = rdb v fStart 0 ∧ (∀ c < 7, rdb t fPend c = rdb v fPend c)
      ∧ t.fuses = v.fuses ∧ t.update = some u := by
  have hlog : RegKind.updCtl.off 0 ≠ RegKind.logPtr.off 0 := by decide
  have honly : LogOnly (staged u v) (logWrite 0x010A srcSec b (wr fBusy 0 1 (wr fResult 0 0 (staged u v)))) := logWrite_frame ..
  refine ⟨(rd_logWrite _ _ _ _ hlog).trans ((rd_wr_beside ..).trans (rd_wr_field ..)),
    congrArg (· == 1) ((rd_logWrite _ _ _ _ hlog).trans (rd_wr_field ..)),
    congrArg (· == 1) ((rd_logWrite _ _ _ _ hlog).trans ((rd_wr_beside _ _ fStart _ _).trans (rd_wr_beside _ _ fStart _ _))), fun c hc => ?_,
    honly.keep State.fuses fun _ _ => rfl, honly.update⟩
  have hother : fPend.reg.off c ≠ RegKind.updCtl.off 0 ∧ fPend.reg.off c ≠ RegKind.logPtr.off 0 := by
    change 0x1008 + 8 * c ≠ 0x1308 ∧ 0x1008 + 8 * c ≠ 0x1400
    omega
  exact congrArg (· == 1) ((rd_logWrite _ _ _ _ hother.2).trans ((rd_wr_other _ _ hother.1).trans (rd_wr_other _ _ hother.1)))

/-- What a written START leaves, `u` being what its write leaves of `s`. -/
def Begun (s u : State) (r : Reader) (t : State) : Prop :=
  rdb t fStart 0 = false
    ∧ (rdb s fBusy 0 = true → t = { s with regs := t.regs })
    ∧ (rdb s fBusy 0 = false → (proc s 0).restarting = true → rd t fResult 0 = 2 ∧ t = { s with regs := t.regs })
    ∧ (rdb s fBusy 0 = false → (proc s 0).restarting = false → updReadable u (manifest r) = false ∨ imgValid u r = false →
      rd t fResult 0 = 2 ∧ t.update = none ∧ t.flash = s.flash ∧ rdb t fBusy 0 = false)
    ∧ (rdb s fBusy 0 = false → (proc s 0).restarting = false → updReadable u (manifest r) = true → imgValid u r = true →
      rd t fResult 0 = 0 ∧ rdb t fBusy 0 = true ∧ (∀ c < 7, rdb t fPend c = true) ∧ t.fuses = s.fuses
      ∧ t.update = some ⟨3 - rd s fBootStatSlot 0, manHvMin (manifest r), manHvNew (manifest r), switchOrder⟩)

section
variable {s u : State} {r : Reader} (hput : RegsOnly s u)
include hput

theorem begun_busy (hbusy : rdb s fBusy 0 = true) : Begun s u r (wr fStart 0 0 u) := by
  rw [Begun, hbusy]
  exact ⟨congrArg (· == 1) (rd_wr_field ..), fun _ => (hput.wr ..).frame, Bool.noConfusion, Bool.noConfusion, Bool.noConfusion⟩

theorem begun_refused (hbusy : rdb s fBusy 0 = false) (hrest : (proc s 0).restarting = true) :
    Begun s u r (wr fResult 0 2 (wr fStart 0 0 u)) := by
  rw [Begun, hbusy, hrest]
  exact ⟨(rdb_wr_beside ..).trans (congrArg (· == 1) (rd_wr_field ..)), Bool.noConfusion, fun _ _ => ⟨rd_wr_field .., ((hput.wr ..).wr ..).frame⟩,
    fun _ => Bool.noConfusion, fun _ => Bool.noConfusion⟩

theorem begun_invalid (hbusy : rdb s fBusy 0 = false) (hrest : (proc s 0).restarting = false)
    (hbad : (updReadable u (manifest r) && imgValid u r) = false) : Begun s u r (endUpdate 2 2 (wr fStart 0 0 u)) := by
  obtain ⟨hres, hlow, hstart, -⟩ := rd_endUpdate 2 2 (wr fStart 0 0 u)
  have honly := logOnly_endUpdate 2 2 (wr fStart 0 0 u)
  rw [Begun, hbusy, hrest]
  refine ⟨hstart.trans (congrArg (· == 1) (rd_wr_field ..)), Bool.noConfusion, fun _ => Bool.noConfusion,
    fun _ _ _ => ⟨hres, honly.update, (honly.keep State.flash fun _ _ => rfl).trans (hput.keep State.flash fun _ _ => rfl), hlow⟩, fun _ _ h h' => ?_⟩
  rw [h, h'] at hbad
  exact Bool.noConfusion hbad

theorem begun_staged (hbusy : rdb s fBusy 0 = false) (hrest : (proc s 0).restarting = false)
    (hok : (updReadable u (manifest r) && imgValid u r) = true) : Begun s u r (logWrite 0x010A srcSec (toLe 1 3 ++ toLe 1 0) (wr fBusy 0 1 (wr fResult 0 0
        (staged ⟨3 - rd s fBootStatSlot 0, manHvMin (manifest r), manHvNew (manifest r), switchOrder⟩
          (written (3 - rd s fBootStatSlot 0) r (wr fStart 0 0 u)))))) := by
  obtain ⟨hfuses, hstart, hpend⟩ := written_spec (3 - rd s fBootStatSlot 0) r (wr fStart 0 0 u)
  obtain ⟨hres, hbusy', hstart', hpend', hfuses', hupd⟩ := staged_shows _ (written (3 - rd s fBootStatSlot 0) r (wr fStart 0 0 u)) _
  obtain ⟨h1, h2⟩ := Bool.and_eq_true_iff.mp hok
  rw [Begun, hbusy, hrest, h1, h2]
  refine ⟨hstart'.trans (hstart.trans (congrArg (· == 1) (rd_wr_field ..))), Bool.noConfusion, fun _ => Bool.noConfusion,
    fun _ _ h => absurd h (by decide), fun _ _ _ _ => ⟨hres, hbusy', fun c hc => (hpend' c hc).trans (hpend c hc), ?_, hupd⟩⟩
  exact hfuses'.trans (hfuses.trans (hput.keep State.fuses fun _ _ => rfl))

theorem begun_updStartOp (image : Submem) (hbusy : rdb u fBusy 0 = rdb s fBusy 0) (hslot : rd u fBootStatSlot 0 = rd s fBootStatSlot 0) :
    Begun s u (updImg u image) (updStartOp image u) := by
  have hproc : proc u 0 = proc s 0 := hput.keep (fun x => proc x 0) fun _ _ => rfl
  rw [updStartOp_eq, hbusy, hproc, hslot]
  by_cases hb : rdb s fBusy 0 = true
  · rw [if_pos hb]
    exact begun_busy hput hb
  · rw [if_neg hb]
    have hb := Bool.eq_false_iff.mpr hb
    by_cases hr : (proc s 0).restarting = true
    · rw [if_pos hr]
      exact begun_refused hput hb hr
    · rw [if_neg hr]
      have hr := Bool.eq_false_iff.mpr hr
      rcases hok : updReadable u (manifest (updImg u image)) && imgValid u (updImg u image) with _ | _
      · exact begun_invalid hput hb hr hok
      · exact begun_staged hput hb hr hok

end

/-! #### A switch -/

/-- A processor that runs the new image. -/
def switched (u : Update) (p : Nat) (s : State) : State :=
  { (compsOfProc p).foldl (fun t c => fwPut u.slot (manifest (flashImg s u.slot)) c t) (modProc p (fun x => { x with switched := true }) s) with
    update := some { u with left := u.left.drop 1 } }

theorem exec_firmwareSwitch {s : State} {p : Fin 36} {body : Bytes} {u : Update} (hlen : body.length ≤ 65536) (hupd : s.update = some u) :
    exec (.firmwareSwitch p body) s = .next (if u.left.head? ≠ some p.val ∨ quiescent s p = false then s
      else if !handoverOk u (handover s p body) then endUpdate 4 3 s
      else if (u.left.drop 1).isEmpty then endUpdate 4 1 (wr fBootStatSlot 0 u.slot (switched u p s)) else switched u p s) := by
  refine (if_neg (Nat.not_lt.mpr hlen)).trans (congrArg Host.Outcome.next ?_)
  rw [hupd]
  rfl

theorem rd_bootStat_fwPut (slot : Nat) (m : Bytes) (c : Nat) (s : State) : rd (fwPut slot m c s) fBootStatSlot 0 = rd s fBootStatSlot 0 := by
  have hver (f : Fld) (n v : Nat) (t : State) (hf : f.reg = .fwVer ∨ f.reg = .fwDig) : rd (wr f n v t) fBootStatSlot 0 = rd t fBootStatSlot 0 := by
    refine rd_wr_other t v ?_
    rcases hf with e | e <;> rw [e]
    · change 0x1000 ≠ 0x1008 + 8 * n
      omega
    · change 0x1000 ≠ 0x1100 + 8 * n
      omega
  refine (foldl_keep (v := fun t => rd t fBootStatSlot 0) (fun t k _ => hver _ _ _ t (.inr rfl)) _).trans ?_
  exact (hver fSvn _ _ _ (.inl rfl)).trans ((hver fPend _ _ _ (.inl rfl)).trans ((hver fBuild _ _ _ (.inl rfl)).trans (hver fFwVerSlot _ _ _ (.inl rfl))))

theorem procs_fwPut (slot : Nat) (m : Bytes) (c : Nat) (s : State) : (fwPut slot m c s).procs = s.procs := by
  refine (foldl_keep (v := State.procs) ?_ _).trans rfl
  exact fun _ _ _ => rfl

theorem switched_spec (u : Update) (p : Nat) (s : State) : (proc (switched u p s) p).switched = true
    ∧ rd (switched u p s) fBootStatSlot 0 = rd s fBootStatSlot 0 := by
  refine ⟨?_, (rd_congr rfl rfl _ _).trans (foldl_keep (v := fun t => rd t fBootStatSlot 0) (fun t c _ => rd_bootStat_fwPut ..)
    (modProc p (fun x => { x with switched := true }) s))⟩
  refine (congrArg (fun l => (tget l p Proc.reset).switched) (foldl_keep (v := State.procs) (fun t c _ => procs_fwPut ..)
    (modProc p (fun x => { x with switched := true }) s))).trans ?_
  exact congrArg Proc.switched (proc_modProc_same ..)

theorem firmwareSwitch_runs {s : State} {p : Fin 36} {body : Bytes} {u : Update} (hlen : body.length ≤ 65536) (hupd : s.update = some u)
    (hturn : u.left.head? = some p.val) (hquiet : quiescent s p = true) : ∃ t : State, exec (.firmwareSwitch p body) s = .next t
      ∧ (handoverOk u (handover s p body) = false → t.update = none ∧ rd t fResult 0 = 3 ∧ rdb t fBusy 0 = false
        ∧ t.procs = s.procs)
      ∧ (handoverOk u (handover s p body) = true → (proc t p).switched = true
        ∧ (u.left ≠ [p.val] → t.update = some { u with left := u.left.drop 1 } ∧ rd t fBootStatSlot 0 = rd s fBootStatSlot 0)
        ∧ (u.left = [p.val] → t.update = none ∧ rd t fResult 0 = 1 ∧ rdb t fBusy 0 = false
          ∧ (u.slot < 4 → rd t fBootStatSlot 0 = u.slot))) := by
  have hex := (exec_firmwareSwitch hlen hupd).trans (congrArg Host.Outcome.next (if_neg fun h => h.elim (fun h => h hturn) (Bool.eq_false_iff.mp · hquiet)))
  rcases hok : handoverOk u (handover s p body) with _ | _
  · obtain ⟨hres, hbusy, -, -⟩ := rd_endUpdate 4 3 s
    have honly := logOnly_endUpdate 4 3 s
    exact ⟨_, hex.trans (congrArg Host.Outcome.next (if_pos (by rw [hok]; rfl))), fun _ => ⟨honly.update, hres, hbusy, honly.procs⟩, Bool.noConfusion⟩
  · obtain ⟨hproc, hslot⟩ := switched_spec u p s
    have hnext := hex.trans (congrArg Host.Outcome.next (if_neg (by rw [hok]; exact Bool.false_ne_true)))
    by_cases hlast : u.left = [p.val]
    · obtain ⟨hres, hbusy, -, hboot⟩ := rd_endUpdate 4 1 (wr fBootStatSlot 0 u.slot (switched u p s))
      have honly := logOnly_endUpdate 4 1 (wr fBootStatSlot 0 u.slot (switched u p s))
      refine ⟨_, hnext.trans (congrArg Host.Outcome.next (if_pos (by rw [hlast]; rfl))), Bool.noConfusion,
        fun _ => ⟨(congrArg Proc.switched (honly.proc p)).trans hproc, fun h => absurd hlast h, fun _ => ⟨honly.update, hres, hbusy, fun hlt => ?_⟩⟩⟩
      exact hboot.trans ((rd_wr_field ..).trans (Nat.mod_eq_of_lt hlt))
    · refine ⟨_, hnext.trans (congrArg Host.Outcome.next (if_neg fun h => hlast ?_)), Bool.noConfusion,
        fun _ => ⟨hproc, fun _ => ⟨rfl, hslot⟩, fun h => absurd h hlast⟩⟩
      rcases hl : u.left with _ | ⟨a, l⟩
      · rw [hl] at hturn
        cases hturn
      · rw [hl] at hturn h
        cases hturn
        rw [List.isEmpty_iff.mp (show l.isEmpty = true from h)]

/-- Settles O53: each of the six commands by its own lemma. -/
theorem firmwareCommitsRestartsAndUpdates : Obligations.FirmwareCommitsRestartsAndUpdates := by
  unfold Obligations.FirmwareCommitsRestartsAndUpdates
  refine ⟨fun s w hfull hbit hidle => svnCommit_runs hfull hbit hidle, fun s p => ⟨fun h => ?_, watchdogExpiry_restarts⟩,
    fun s w hfull hbit hidle => coppiceRestartRequest_runs hfull hbit hidle, fun s p => ⟨fun h => ?_, fun hrest hok => ⟨_, exec_coppiceRestartDone hrest hok, ?_⟩⟩,
    fun s w image hfull hbit hidle => ⟨_, exec_updateStart hfull hbit hidle image, ?_⟩, fun s p body => ⟨fun h => if_pos h, fun hlen => ⟨fun h => ?_, fun u hupd => ⟨fun h => ?_,
      firmwareSwitch_runs hlen hupd⟩⟩⟩⟩
  · exact (exec_watchdogExpiry p s).trans (congrArg Host.Outcome.next (if_pos h))
  · refine congrArg Host.Outcome.next (if_pos ?_)
    rcases h with h | ⟨rfl, h⟩
    · rw [h]
      rfl
    · rw [h]
      exact Bool.or_true _
  · rw [show p = 0 ↔ p.val = 0 from Fin.ext_iff, show p = 3 ↔ p.val = 3 from Fin.ext_iff]
    exact ranAgain p s
  · exact begun_updStartOp (regsOnly_put .updCtl w s) image (congrArg (· == 1) (rd_regPut_full (s := s) (i := 0) hfull
      (.inr (jobOwned_firmware (.inr (.inr rfl)) s)) (f := fBusy) (by decide))) (rd_put_other hfull (.inr (.inr rfl)) s (by decide))
  · refine (if_neg (Nat.not_lt.mpr hlen)).trans (congrArg Host.Outcome.next ?_)
    rw [h]
  · exact (exec_firmwareSwitch hlen hupd).trans (congrArg Host.Outcome.next (if_pos h))

end Sys2Proof.Machine
end

section
/-! #### The exchange: XPUT, XGET, SHIFT and PERMUTE (spec/05 R191 to R194, R405) -/

namespace Sys2Proof.Machine

/-- A read that may cross the ride leaves alone what looks at neither the ride nor the requests to stack ports. -/
theorem rideRead_view {α : Type} {v : State → α} (hr : ∀ s r x n, v { s with ride := r, xfers := x, rideNext := n } = v s)
    (hk : ∀ s q, v { s with stkReqs := q } = v s) (c : Nat) (ctx : CtxId) (l : Loc) (data : Bytes) (s : State) :
    v (rideRead c ctx l data s).1 = v s := by
  have ask (kind : SKind) (q : Option Nat) (t : State) : v (coreAsk c ctx kind q l t) = v t := by
    rw [coreAsk, stkAsk_frame, hk]
  rw [rideRead]
  split
  · exact ask ..
  · exact (rideLater_view hr ..).trans ((ask ..).trans (rideSend_view (fun s r x => hr s r x s.rideNext) ..))

theorem serve_crossReads (c : Nat) (ctx : CtxId) (ts : List Target) (bs : List Blk) (last : Option Nat) (s : State) :
    (crossReads c ctx ts bs last s).1.serve = s.serve := by
  induction ts generalizing bs last s with
  | nil => rfl
  | cons t ts ih =>
    rcases t with ⟨p, off⟩ | _ | _ | _ | _
    · rcases bs with _ | ⟨b, bs⟩
      · rfl
      · have hread : (rideRead c ctx p (rideBlock (p.addr 0) b) s).1.serve = s.serve :=
          rideRead_view (v := State.serve) (fun _ _ _ _ => rfl) (fun _ _ => rfl) ..
        unfold crossReads
        generalize rideRead c ctx p (rideBlock (p.addr 0) b) s = q at hread ⊢
        obtain ⟨s1, _ | id⟩ := q
        · exact (ih bs last s1).trans hread
        · exact (ih bs (some id) s1).trans hread
    all_goals rfl

/-! #### A repeat that has passed its checks -/

/-- The blocks read, with control moved on: those of the other half cross the ride. -/
def crossed (c : CoreId) (d : Desc) (l : ListSet) (rep : Nat) (k' : Ctl) (ss : List Target) (bs : List Blk) (s : State) : State × Option Nat :=
  crossReads c d.ctx ss bs none (setCtl c .xce (k'.advance l .xce d.chunks rep) s)

/-- A core that has numbered a repeat `r`. -/
def numbered (c : Nat) (r : Nat) (s : State) : State := modCore c (fun x => { x with nextRpt := r + 1 }) s

theorem newRpt_eq {c r : Nat} {s : State} (h : (core s c).nextRpt = r) : newRpt c s = (numbered c r s, r) := by
  subst h
  rfl

theorem nextRpt_setCtl (c : Nat) (k : Ctl) (s : State) : (core (setCtl c .xce k s) c).nextRpt = (core s c).nextRpt := by
  rw [core_setCtl_same]
  rfl

theorem nextRpt_crossed (c : CoreId) (d : Desc) (l : ListSet) (rep : Nat) (k' : Ctl) (ss : List Target) (bs : List Blk) (s : State) :
    (core (crossed c d l rep k' ss bs s).1 c).nextRpt = (core s c).nextRpt :=
  (congrArg Core.nextRpt (core_crossReads ..)).trans (nextRpt_setCtl ..)

section
variable {s s1 s2 s3 : State} {c : CoreId} {d : Desc} {l : ListSet} {rep n srcPos : Nat} {k k' : Ctl} {os : List Opd} {sva dva : BitVec 56}
  {ss ds : List Target} {bs : List Blk} {dst : Dsts} {who : CtxId} {port : Option Nat}

/-- The numbered state in which a repeat hands its blocks over. -/
def handing (c : CoreId) (d : Desc) (l : ListSet) (rep : Nat) (k' : Ctl) (ss : List Target) (bs : List Blk) (s : State) : State :=
  numbered c (core s c).nextRpt (crossed c d l rep k' ss bs s).1

theorem sendRepeat_plain (hs : resolveAll c d.ctx .read srcPos (blockVas sva n) s = (s1, .all ss)) (hd : dst s1 = (s2, .all ds))
    (hf : fetchAll d.ctx ss s2 = (s3, .ok bs)) (hk : stepArs (steppedArs os) k = .ok k') :
    sendRepeat c d l k rep os srcPos sva n dva who dst none port s
      = sendBlocks c d.ctx (core s3 c).nextRpt none port (crossed c d l rep k' ss bs s3).2 0 ((blockVas dva n).zip (ds.zip bs))
        (handing c d l rep k' ss bs s3) := by
  rw [sendRepeat, hs]
  simp only [hd, hf]
  refine (issue_steps hk).trans ?_
  change sendBlocks c d.ctx (newRpt c (crossed c d l rep k' ss bs s3).1).2 none port (crossed c d l rep k' ss bs s3).2 0 _
    (newRpt c (crossed c d l rep k' ss bs s3).1).1 = _
  rw [newRpt_eq (nextRpt_crossed c d l rep k' ss bs s3)]
  rfl

theorem sendRepeat_accum {a : AccRun} (hs : resolveAll c d.ctx .read srcPos (blockVas sva n) s = (s1, .all ss)) (hd : dst s1 = (s2, .all ds))
    (hf : fetchAll d.ctx ss s2 = (s3, .ok bs)) (hacc : accFault ((blockVas dva n).zip (ds.zip bs)) = none)
    (hne : (blockVas dva n).zip (ds.zip bs) ≠ []) (hk : stepArs (steppedArs os) k = .ok k') :
    sendRepeat c d l k rep os srcPos sva n dva who dst (some a) port s
      = sendBlocks c d.ctx (core s3 c).nextRpt (some a) port (crossed c d l rep k' ss bs s3).2 0 ((blockVas dva n).zip (ds.zip bs))
        (openAcc c (core s3 c).nextRpt a ((blockVas dva n).zip (ds.zip bs)) (handing c d l rep k' ss bs s3)) := by
  rw [sendRepeat, hs]
  simp only [hd, hf, Option.isSome_some, if_true, hacc]
  refine (issue_steps hk).trans ?_
  change (if ((blockVas dva n).zip (ds.zip bs)).isEmpty then _ else sendBlocks c d.ctx (newRpt c (crossed c d l rep k' ss bs s3).1).2 (some a) port
    (crossed c d l rep k' ss bs s3).2 0 _ (openAcc c (newRpt c (crossed c d l rep k' ss bs s3).1).2 a _ (newRpt c (crossed c d l rep k' ss bs s3).1).1)) = _
  rw [newRpt_eq (nextRpt_crossed c d l rep k' ss bs s3)]
  exact if_neg fun h => hne (List.isEmpty_iff.mp h)

end

/-! #### Blocks handed over in the core's own half -/

theorem noteDigest_idle {c : CoreId} {va : Nat} {b : Blk} {s : State} (h : s.serve = none) : noteDigest c va b s = s := by
  rw [noteDigest, h]

theorem putBlock_own {c : CoreId} {ctx : CtxId} {r va : Nat} {p : Loc} {b : Blk} {s : State} (hp : p.half.val = coreHalf c)
    (h : s.serve = none) : putBlock c .xce ctx r va p b none s = pendAdd c ⟨ctx, .xce, r, none, .put p b⟩ s := by
  rw [putBlock, rideFor, if_pos hp]
  exact congrArg (pendAdd c _) (noteDigest_idle h)

/-- The pending writes of a repeat. -/
def puts (ctx : CtxId) (r : Nat) (l : List (Loc × Blk)) : List Pend := l.map fun q => ⟨ctx, .xce, r, none, .put q.1 q.2⟩

/-- A core that has handed further operations over. -/
def handed (l : List Pend) (x : Core) : Core := { x with pend := x.pend ++ l }

theorem handed_nil (x : Core) : handed [] x = x := by rw [handed, List.append_nil]

theorem sendBlocks_own {c : CoreId} {ctx : CtxId} {r : Nat} {u : State} (hserve : u.serve = none) {places : List Loc}
    (hown : ∀ p ∈ places, p.half.val = coreHalf c) {vas : List (BitVec 56)} {bs : List Blk} (hlen : vas.length = bs.length) (i : Nat) (f : Core → Core) :
    sendBlocks c ctx r none none none i (vas.zip ((places.map fun p => Target.here p 0).zip bs)) (modCore c f u)
      = modCore c (fun x => handed (puts ctx r (places.zip bs)) (f x)) u := by
  induction places generalizing vas bs i f with
  | nil =>
    rw [List.map_nil, List.zip_nil_left, List.zip_nil_right]
    exact modCore_congr (handed_nil _).symm
  | cons p places ih =>
    rcases bs with _ | ⟨b, bs⟩
    · rw [List.zip_nil_right, List.zip_nil_right]
      exact modCore_congr (handed_nil _).symm
    · rcases vas with _ | ⟨va, vas⟩
      · cases hlen
      · have hput : putBlock c .xce ctx r va.toNat p b none (modCore c f u)
            = modCore c (fun x => handed [⟨ctx, .xce, r, none, .put p b⟩] (f x)) u :=
          (putBlock_own (s := modCore c f u) (hown p (List.mem_cons_self ..)) hserve).trans (modCore_modCore ..)
        refine (congrArg _ hput).trans ((ih (fun q hq => hown q (List.mem_cons_of_mem _ hq)) (Nat.succ.inj hlen) ..).trans ?_)
        refine modCore_congr ?_
        rw [handed, handed, handed, List.append_assoc]
        rfl

theorem sendBlocks_numbered {c : CoreId} {ctx : CtxId} {r : Nat} {u : State} (hserve : u.serve = none) {places : List Loc}
    (hown : ∀ p ∈ places, p.half.val = coreHalf c) {vas : List (BitVec 56)} {bs : List Blk} (hlen : vas.length = bs.length) :
    sendBlocks c ctx r none none none 0 (vas.zip ((places.map fun p => Target.here p 0).zip bs)) (numbered c r u)
      = modCore c (handed (puts ctx r (places.zip bs))) (numbered c r u) :=
  (sendBlocks_own hserve hown hlen ..).trans (modCore_modCore c _ (handed (puts ctx r (places.zip bs))) u).symm

/-! #### The four instructions -/

section
variable {s s1 s2 s3 : State} {c : CoreId} {d : Desc} {l : ListSet} {rep n : Nat} {src dst : Opd} {k' : Ctl} {ss ds : List Target} {bs : List Blk}
  {accum : Bool} {strm seqp : Nat}

theorem exec_xput (h : AtRepeat s c .xce d l rep (.xput src dst n accum strm seqp))
    (hsrc : checkBlocks s c anyLocal 0 ((engCtl s c .xce).opAddr src) n = none)
    (hdst : checkBlocks s c putRegions 1 ((engCtl s c .xce).opAddr dst) n = none) :
    exec (.xput c) s = .next (if isStn ((engCtl s c .xce).opAddr dst) && !accum then
      stnPut c d l (engCtl s c .xce) rep [src, dst] ((engCtl s c .xce).opAddr src) n ((engCtl s c .xce).opAddr dst) s
      else sendRepeat c d l (engCtl s c .xce) rep [src, dst] 0 ((engCtl s c .xce).opAddr src) n ((engCtl s c .xce).opAddr dst) d.ctx
        (resolveAll c d.ctx (if accum then .accum else .write) 1 (blockVas ((engCtl s c .xce).opAddr dst) n))
        (if accum then some (accRun s c d (engCtl s c .xce) rep strm seqp n) else none) none s) := by
  refine congrArg Host.Outcome.next ((onRepeat_at h rfl _).trans ?_)
  simp only [hsrc, hdst, firstFault]

theorem firstFault_none {l : List (Option IssueFault)} (h : ∀ x ∈ l, x = none) : firstFault l = none := by
  induction l with
  | nil => rfl
  | cons x l ih =>
    rw [h x (List.mem_cons_self ..), firstFault]
    exact ih fun y hy => h y (List.mem_cons_of_mem _ hy)

theorem farChecks_none {vas : List (BitVec 56)} {pos : Nat} (h : ∀ v ∈ vas, farCheck pos v = none) : firstFault (vas.map (farCheck pos)) = none := by
  refine firstFault_none fun x hx => ?_
  obtain ⟨v, hv, rfl⟩ := List.mem_map.mp hx
  exact h v hv

theorem exec_shift {axis : Nat} (h : AtRepeat s c .xce d l rep (.shift src dst n axis false strm seqp))
    (hsrc : checkBlocks s c anyLocal 0 ((engCtl s c .xce).opAddr src) n = none)
    (hdst : ∀ v ∈ blockVas ((engCtl s c .xce).opAddr dst) n, farCheck 1 v = none) (hfar : neighbour s axis ≠ ownCoord s) :
    exec (.shift c) s = .next (sendRepeat c d l (engCtl s c .xce) rep [src, dst] 0 ((engCtl s c .xce).opAddr src) n
      ((engCtl s c .xce).opAddr dst) (asCtx (rd s fRctx 0)) (otherDst (neighbour s axis) ((engCtl s c .xce).opAddr dst) n) none (some axis) s) := by
  refine congrArg Host.Outcome.next ((onRepeat_at h rfl _).trans ?_)
  simp only [hsrc, farChecks_none hdst, firstFault, if_neg hfar, Bool.false_eq_true, if_false]

theorem exec_xget_station (h : AtRepeat s c .xce d l rep (.xget src dst n))
    (hsrc : checkBlocks s c getRegions 0 ((engCtl s c .xce).opAddr src) n = none)
    (hdst : checkBlocks s c getDst 1 ((engCtl s c .xce).opAddr dst) n = none) (hstn : isStn ((engCtl s c .xce).opAddr src) = true)
    (hres : resolveAll c d.ctx .write 1 (blockVas ((engCtl s c .xce).opAddr dst) n) s = (s1, .all ds)) :
    exec (.xget c) s = .next (stnGet c .xce d l (engCtl s c .xce) rep [src, dst] ((engCtl s c .xce).opAddr src) (placesOf ds) s1) := by
  refine congrArg Host.Outcome.next ((onRepeat_at h rfl _).trans ?_)
  simp only [hsrc, hdst, firstFault, hres]
  exact if_pos hstn

theorem exec_xget_local (h : AtRepeat s c .xce d l rep (.xget src dst n))
    (hsrc : checkBlocks s c getRegions 0 ((engCtl s c .xce).opAddr src) n = none)
    (hdst : checkBlocks s c getDst 1 ((engCtl s c .xce).opAddr dst) n = none) (hstn : isStn ((engCtl s c .xce).opAddr src) = false)
    (hres : resolveAll c d.ctx .write 1 (blockVas ((engCtl s c .xce).opAddr dst) n) s = (s1, .all ds))
    (hread : resolveAll c d.ctx .read 0 (blockVas ((engCtl s c .xce).opAddr src) n) s1 = (s2, .all ss))
    (hf : fetchAll d.ctx ss s2 = (s3, .ok bs)) (hk : stepArs (steppedArs [src, dst]) (engCtl s c .xce) = .ok k') :
    exec (.xget c) s = .next (noteFetch c .xce (core s3 c).nextRpt (engCtl s c .xce) (takeBlocks c d.ctx (core s3 c).nextRpt
      ((blockVas ((engCtl s c .xce).opAddr dst) n).zip (ss.zip (placesOf ds))) bs
      (numbered c (core s3 c).nextRpt (setCtl c .xce (k'.advance l .xce d.chunks rep) s3)))) := by
  refine congrArg Host.Outcome.next ((onRepeat_at h rfl _).trans ?_)
  simp only [hsrc, hdst, firstFault, hres, hread, hf, hstn, Bool.false_eq_true, if_false]
  refine (issue_steps hk).trans ?_
  simp only [newRpt_eq (nextRpt_setCtl c _ s3)]

theorem exec_permute {tbl : Opd} {off : Nat} {p : Loc} {tb : Blk} {e : PermEnt} (h : AtRepeat s c .xce d l rep (.permute tbl src strm seqp))
    (htbl : checkOpd s c anyLocal 32 0 ((engCtl s c .xce).opAddr tbl) = none)
    (hsrc : checkOpd s c anyLocal 2048 1 ((engCtl s c .xce).opAddr src) = none)
    (hres : resolve c d.ctx .read 0 ((engCtl s c .xce).opAddr tbl) s = (s1, .here p off)) (hb : blkFetch d.ctx p s1 = (s2, .ok tb))
    (he : permEnt s2 (slice tb.pay off 32) = e) (hgood : e.good = true) (hacc : e.acc = false) (hfar : e.tgt ≠ ownCoord s2)
    (hread : checkBlocks s2 c anyLocal 1 ((engCtl s c .xce).opAddr src + BitVec.ofNat 56 (e.ofs * 2048)) e.nblk = none)
    (hdst : ∀ v ∈ blockVas e.dst e.nblk, farCheck 2 v = none) :
    exec (.permute c) s = .next (sendRepeat c d l (engCtl s c .xce) rep [tbl, src] 1
      ((engCtl s c .xce).opAddr src + BitVec.ofNat 56 (e.ofs * 2048)) e.nblk e.dst (asCtx (rd s2 fRctx 0)) (otherDst e.tgt e.dst e.nblk) none none s2) := by
  refine congrArg Host.Outcome.next ((onRepeat_at h rfl _).trans ?_)
  simp only [htbl, hsrc, firstFault, hres, hb, he, hgood, hacc, hread, farChecks_none hdst, if_neg hfar, Bool.not_true, Bool.false_eq_true, if_false]

theorem stnPut_sends {os : List Opd} {k : Ctl} {sva dva : BitVec 56}
    (hok : stnFault s d.ctx (bits dva.toNat 40 12) (dva.toNat % 2 ^ 40) (2184 * n) .write = none)
    (hs : resolveAll c d.ctx .read 0 (blockVas sva n) s = (s1, .all ss)) (hf : fetchAll d.ctx ss s1 = (s3, .ok bs))
    (hk : stepArs (steppedArs os) k = .ok k') {out : State × Option Nat}
    (hout : coreSend c d.ctx (handleOf (htBytes s (bits dva.toNat 40 12))) 0 ((handleOf (htBytes s (bits dva.toNat 40 12))).rva + dva.toNat % 2 ^ 40)
      (2184 * n) (bs.flatMap blkImage) (.coreWrite c) (crossed c d l rep k' ss bs s3).2 (handing c d l rep k' ss bs s3) = out) :
    (∀ id, out.2 = some id → stnPut c d l k rep os sva n dva s = pendAdd c ⟨d.ctx, .xce, (core s3 c).nextRpt, none, .station id⟩ out.1)
      ∧ (out.2 = none → stnPut c d l k rep os sva n dva s = out.1) := by
  have heq : stnPut c d l k rep os sva n dva s = match (generalizing := false) out with
      | (s6, some id) => pendAdd c ⟨d.ctx, .xce, (core s3 c).nextRpt, none, .station id⟩ s6
      | (s6, none) => s6 := by
    subst hout
    rw [stnPut]
    simp only [hok, hs, hf]
    refine (issue_steps hk).trans ?_
    have hnum := newRpt_eq (nextRpt_crossed c d l rep k' ss bs s3)
    rw [crossed] at hnum
    simp only [hnum]
    rfl
  obtain ⟨t, _ | id⟩ := out
  · exact ⟨fun _ h => (nomatch h), fun _ => heq⟩
  · exact ⟨fun _ h => by cases h; exact heq, fun h => (nomatch h)⟩

/-- A request outstanding under a number. -/
def Asks (p : State × Option Nat) : Prop := ∃ (t : State) (id : Nat), p = (t, some id)

theorem Asks.ite {α : Prop} {_ : Decidable α} {p q : State × Option Nat} (hp : Asks p) (hq : Asks q) : Asks (if α then p else q) := by
  split <;> assumption

theorem Asks.else {α : Prop} {_ : Decidable α} {p q : State × Option Nat} (hα : ¬α) (hq : Asks q) : Asks (if α then p else q) := by
  rw [if_neg hα]
  exact hq

theorem rdmaSend_asks {kind : Nat} (hkind : 2 ≤ kind) (port qpn addr rkey len : Nat) (data : Bytes) (imm : Nat) (use : RdmaFor) (s : State) :
    Asks (rdmaSend port qpn kind addr rkey len data imm use s) :=
  .else (fun h => absurd (hkind.trans h.2) (by decide)) (.ite ⟨_, _, rfl⟩ ⟨_, _, rfl⟩)

theorem coreSend_asks (c : CoreId) (ctx : CtxId) (h : Handle) {kind : Nat} (hkind : 2 ≤ kind) (addr len : Nat) (data : Bytes) (use : RdmaFor)
    (pre : Option Nat) (s : State) : Asks (coreSend c ctx h kind addr len data use pre s) :=
  .ite (rdmaSend_asks hkind ..) (.ite ⟨_, _, rfl⟩ ⟨_, _, rfl⟩)

theorem stnGet_asks {os : List Opd} {k : Ctl} {sva : BitVec 56} {places : List Loc}
    (hok : stnFault s d.ctx (bits sva.toNat 40 12) (sva.toNat % 2 ^ 40) (2184 * places.length) .read = none)
    (hk : stepArs (steppedArs os) k = .ok k') : ∃ (t : State) (id : Nat),
    coreSend c d.ctx (handleOf (htBytes s (bits sva.toNat 40 12))) 2 ((handleOf (htBytes s (bits sva.toNat 40 12))).rva + sva.toNat % 2 ^ 40)
      (2184 * places.length) [] (.coreRead c d.ctx places) none (numbered c (core s c).nextRpt (setCtl c .xce (k'.advance l .xce d.chunks rep) s)) = (t, some id)
    ∧ stnGet c .xce d l k rep os sva places s
      = noteFetch c .xce (core s c).nextRpt k (pendAdd c ⟨d.ctx, .xce, (core s c).nextRpt, none, .station id⟩ t) := by
  obtain ⟨t, id, hsend⟩ := coreSend_asks c d.ctx (handleOf (htBytes s (bits sva.toNat 40 12))) (Nat.le_refl 2)
    ((handleOf (htBytes s (bits sva.toNat 40 12))).rva + sva.toNat % 2 ^ 40) (2184 * places.length) [] (.coreRead c d.ctx places) none
    (numbered c (core s c).nextRpt (setCtl c .xce (k'.advance l .xce d.chunks rep) s))
  refine ⟨t, id, hsend, ?_⟩
  rw [stnGet]
  simp only [hok]
  refine (issue_steps hk).trans ?_
  simp only [newRpt_eq (nextRpt_setCtl c _ s), hsend]

end

/-- Settles O17: the seven forms, each by what its instruction sends once its checks are passed. -/
theorem exchangeRepeatsHandOverTheirBlocks : Obligations.ExchangeRepeatsHandOverTheirBlocks := by
  unfold Obligations.ExchangeRepeatsHandOverTheirBlocks
  intro s s1 s2 s3 c d l rep n src dst k' ss ds bs k sva dva r numbered stepped pre issued
  refine ⟨fun accum strm seqp h hsrc hdst hstn hs hd hf hk => ?_, fun axis strm seqp h hsrc hdst hfar hs hf hk => ?_,
    fun h hsrc hdst hstn hd hs hf hk => exec_xget_local h hsrc hdst hstn hd hs hf hk, fun tbl strm seqp off p tb u1 u2 u3 h htbl hsrc hres hb => ?_,
    fun strm seqp h hsrc hdst hstn => ?_, fun h hsrc hdst hstn hd => ?_⟩
  · have hsend := exec_xput h hsrc hdst
    intro items
    rw [show isStn (k.opAddr dst) = false from hstn, Bool.false_and, if_neg Bool.false_ne_true] at hsend
    have hplain (ha : accum = false) : exec (.xput c) s = .next (sendBlocks c d.ctx r none none pre 0 items issued) := by
      subst ha
      exact hsend.trans (congrArg _ (sendRepeat_plain hs hd hf hk))
    refine ⟨fun places ha hplaces hserve hpre hown hlen => ?_, hplain, fun ha hfault hne => ?_⟩
    · refine (hplain ha).trans (congrArg _ ?_)
      have hserve : (crossed c d l rep k' ss bs s3).1.serve = none := (serve_crossReads ..).trans hserve
      have hvas : (blockVas dva n).length = bs.length := by rw [hlen, blockVas, unitVas, List.length_map, List.length_range]
      subst hplaces
      rw [hpre]
      exact sendBlocks_numbered hserve hown hvas
    · subst ha
      exact hsend.trans (congrArg _ (sendRepeat_accum hs hd hf hfault hne hk))
  · exact (exec_shift h hsrc hdst hfar).trans (congrArg _ (sendRepeat_plain hs rfl hf hk))
  · intro e from_ hgood hacc hfar hread hdst hs hf hk far
    exact (exec_permute h htbl hsrc hres hb rfl hgood hacc hfar hread hdst).trans (congrArg _ (sendRepeat_plain hs rfl hf hk))
  · intro handle off hd hok hs hf hk out
    have hput := exec_xput h hsrc hdst
    rw [show isStn (k.opAddr dst) = true from hstn, Bool.not_false, Bool.and_true, if_pos rfl] at hput
    obtain ⟨hsome, hnone⟩ := stnPut_sends (l := l) (rep := rep) hok hs hf hk rfl
    exact ⟨fun id hid => hput.trans (congrArg _ (hsome id hid)), fun hid => hput.trans (congrArg _ (hnone hid))⟩
  · intro handle off len hd' hok hk
    obtain ⟨t, id, hsend, hget⟩ := stnGet_asks (l := l) (rep := rep) hok hk
    exact ⟨t, id, hsend, (exec_xget_station h hsrc hdst hstn hd).trans (congrArg _ hget)⟩

end Sys2Proof.Machine
end
